-- ==== Sys2Proof/Word.lean ====
section
/-! DEFINITION. The plain types of the model: bytes, words and the operands a command may carry. -/

namespace Sys2Proof

/-- One byte of common memory, of a sheet entry or of the recorded stream. -/
abbrev Byte := BitVec 8

/-- A 16-bit field. -/
abbrev Half := BitVec 16

/-- A 32-bit register, address or field. -/
abbrev Word := BitVec 32

/-- A frame number: a 32-bit count of frame starts (00_scope, Conventions). -/
abbrev FrameNo := BitVec 32

/-- What happens outside the part between two commands and at the second of them: the time that passes
(in whole microseconds), the bytes the host and the picture encoder write to common memory, and the
byte addresses at which the common bus answers an access of this step with an error (log 2). -/
structure Env where
  elapsed : Nat
  writes : List Host.Cell
  errors : List Nat
  deriving DecidableEq, Repr

/-- One of the four registers of R216. -/
inductive Register where
  | partBase | partControl | partStatus | attention
  deriving DecidableEq, Repr

/-- A card slot (07). -/
inductive SlotId where
  | a | b
  deriving DecidableEq, Repr

/-- A reply on the lens link (R40): the positions the lens reports, whatever numbers they are. -/
structure LensReply where
  zoom : Int
  focus : Int
  iris : Int
  rocker : BitVec 8
  button : Bool
  focusManual : Bool
  irisManual : Bool
  attached : Bool
  deriving DecidableEq, Repr

/-- Where a common bus error arose in a group copy (R127). -/
inductive CopySite where
  | unit | staging | stream
  deriving DecidableEq, Repr

/-- A card's reply to IDENTIFY (R137). -/
inductive IdentifyAnswer where
  | ok (capacity : Word) (writeProtected : Bool)
  | error (code : Word)
  deriving DecidableEq, Repr

/-- A card's reply to WRITE or FLUSH (R137). -/
inductive CardAnswer where
  | ok
  | error (code : Word)
  deriving DecidableEq, Repr

/-- A card's reply to READ (R137). -/
inductive ReadAnswer where
  | ok (data : List Byte)
  | error (code : Word)
  deriving DecidableEq, Repr

/-- One of the six places of a CLEAR_FAULTS entry (R207, R220). -/
structure ClearPlace where
  kind : Byte
  seen : Byte
  set : Byte
  deriving DecidableEq, Repr

end Sys2Proof
end

