-- ==== Sys2Proof/Config.lean ====
section
/-! DEFINITION. What the manual leaves to an implementation or leaves open: free values, with no body,
so that nothing can be proved of them but what holds whatever they are. -/

namespace Sys2Proof

/-- The bit of the viewfinder status byte that is the refresh request flag. R183 names the flag and the
manual gives no layout of the byte (log 37). -/
opaque Config.refreshFlagBit : Nat

/-- The n-th value drawn where the manual gives an effect and states no value (log 33). -/
opaque Config.freeWord : Nat → Word

end Sys2Proof
end

