-- ==== Sys2Proof/Syntax.lean ====
section
/-! DEFINITION. The commands of the part: one constructor per row of spec/opcode_table.json. Each command
carries in `e` what happened outside the part since the command before it (log 2). The orders carry the tag
byte and the parameters of their sheet entry, each with the size R220 gives it (log 4). -/

namespace Sys2Proof

/-- The steps of the part, in the order of the table. -/
inductive Instr where
  /-- POWER_ON_RESET. Power-on reset (R5). -/
  | powerOnReset (e : Env)
  /-- PART_BASE_WRITE. The host writes `value` to PART_BASE (R1). -/
  | partBaseWrite (e : Env) (value : Word)
  /-- RUN_SET. The host writes `value`, with RUN as 1, to PART_CONTROL (R2, R6). -/
  | runSet (e : Env) (value : Word)
  /-- RUN_CLEAR. The host writes `value`, with RUN as 0, to PART_CONTROL (R2). -/
  | runClear (e : Env) (value : Word)
  /-- SOFT_RESET. The host writes `value`, with SOFT_RESET as 1, to PART_CONTROL (R2, R9). -/
  | softReset (e : Env) (value : Word)
  /-- ATTENTION_ENABLE_WRITE. The host writes the enables of `value` to PART_CONTROL, RUN as it reads and SOFT_RESET as 0 (R2). -/
  | attentionEnableWrite (e : Env) (value : Word)
  /-- REPORT_CLEAR. The host writes `value`, with REPORT as 1, to ATTENTION (R4). -/
  | reportClear (e : Env) (value : Word)
  /-- SAFE_CLEAR. The host writes `value`, with SAFE as 1, to ATTENTION (R4). -/
  | safeClear (e : Env) (value : Word)
  /-- IGNORED_REGISTER_WRITE. The host writes to PART_STATUS, or to bits of `reg` that no field names (R216). -/
  | ignoredRegisterWrite (e : Env) (reg : Register) (value : Word)
  /-- DIRECTORY_CHECK_DONE. The directory read and check completes (R6). -/
  | directoryCheckDone (e : Env)
  /-- FLYWHEEL_EXPIRY. The flywheel timer of the FTU expires (R28, R29, R31). -/
  | flywheelExpiry (e : Env)
  /-- FRAME_PULSE. A pulse arrives on the frame pulse input (R28 to R32). -/
  | framePulse (e : Env)
  /-- SHC_FRAME_START. The next frame start reaches the SHC (R13, R14). -/
  | shcFrameStart (e : Env)
  /-- SHEET_RETURNED. The dispatch of a sheet completes (R18). -/
  | sheetReturned (e : Env)
  /-- REPORT_WRITE_DONE. The writing of the report in slot `slot` completes (R23). -/
  | reportWriteDone (e : Env) (slot : BitVec 1)
  /-- RELEASE_TAG. Order RELEASE_TAG (R21). -/
  | releaseTag (e : Env) (tag number : Byte)
  /-- SET_FORMAT. Order SET_FORMAT (R26). -/
  | setFormat (e : Env) (tag rate drop : Byte)
  /-- SET_REF_POLICY. Order SET_REF_POLICY (R32). -/
  | setRefPolicy (e : Env) (tag policy : Byte)
  /-- SET_TC_MODE. Order SET_TC_MODE (R36). -/
  | setTcMode (e : Env) (tag mode : Byte)
  /-- SET_TIMECODE. Order SET_TIMECODE (R37). -/
  | setTimecode (e : Env) (tag hours minutes seconds frames : Byte)
  /-- LENS_UPDATE. The lens update timer expires (R41). -/
  | lensUpdate (e : Env)
  /-- LENS_REPLY. A reply arrives on the lens link (R42). -/
  | lensReply (e : Env) (reply : LensReply)
  /-- ZOOM_RATE. Order ZOOM_RATE (R50). -/
  | zoomRate (e : Env) (tag : Byte) (rate : Half)
  /-- ZOOM_TO. Order ZOOM_TO (R51). -/
  | zoomTo (e : Env) (tag : Byte) (target cap : Half)
  /-- FOCUS_TO. Order FOCUS_TO (R51). -/
  | focusTo (e : Env) (tag : Byte) (target cap : Half)
  /-- IRIS_TO. Order IRIS_TO (R51). -/
  | irisTo (e : Env) (tag : Byte) (target cap : Half)
  /-- ZOOM_STOP. Order ZOOM_STOP (R53). -/
  | zoomStop (e : Env) (tag : Byte)
  /-- ZOOM_CLAIM. Order ZOOM_CLAIM (R57). -/
  | zoomClaim (e : Env) (tag lockout : Byte)
  /-- LENS_CONFIG. Order LENS_CONFIG (R49). -/
  | lensConfig (e : Env) (tag hard soft : Byte) (window time : Half)
  /-- LOAD_LENS_TABLE. Order LOAD_LENS_TABLE (R60). -/
  | loadLensTable (e : Env) (tag table : Byte) (address : Word)
  /-- TRACKING_ON. Order TRACKING_ON (R62). -/
  | trackingOn (e : Env) (tag : Byte)
  /-- TRACKING_OFF. Order TRACKING_OFF (R62). -/
  | trackingOff (e : Env) (tag : Byte)
  /-- AXIS_RECOVER. Order AXIS_RECOVER (R64). -/
  | axisRecover (e : Env) (tag axis : Byte)
  /-- SHOT_STORE. Order SHOT_STORE (R65). -/
  | shotStore (e : Env) (tag shot source : Byte) (zoom focus iris travel dwell : Half)
  /-- SHOT_MODE. Order SHOT_MODE (R65). -/
  | shotMode (e : Env) (tag mode count policy : Byte)
  /-- SHOT_TRIGGER. Order SHOT_TRIGGER (R65). -/
  | shotTrigger (e : Env) (tag : Byte)
  /-- GYRO_SAMPLE. A sample arrives on the gyro port (R73). -/
  | gyroSample (e : Env) (yaw pitch : Half)
  /-- LOSS_TIMER_EXPIRY. The loss timer of the MST expires (R75). -/
  | lossTimerExpiry (e : Env)
  /-- MST_FRAME_START. The MST takes its next frame start (R85 to R91). -/
  | mstFrameStart (e : Env)
  /-- STAB_MODE. Order STAB_MODE (R74). -/
  | stabMode (e : Env) (tag mode : Byte)
  /-- STAB_RECENTER. Order STAB_RECENTER (R83). -/
  | stabRecenter (e : Env) (tag : Byte)
  /-- STAB_CONFIG. Order STAB_CONFIG (R84, R220). -/
  | stabConfig (e : Env) (tag : Byte) (marginX : Half) (marginY : Byte) (still : Half) (shift : Byte) (panEnter panExit : Half)
  /-- AUDIO_SET. A set of four samples arrives on the audio port (R94). -/
  | audioSet (e : Env) (c1 c2 c3 c4 : BitVec 24)
  /-- AUDIO_CLOCK_EXPIRY. The clock timer of the ACU expires (R96). -/
  | audioClockExpiry (e : Env)
  /-- ACU_FRAME_START. The next frame start reaches the ACU (R108, R109). -/
  | acuFrameStart (e : Env)
  /-- STAGING_WRITE_DONE. The staging write of an audio block completes or fails (R108). -/
  | stagingWriteDone (e : Env)
  /-- AUDIO_SOURCE. Order AUDIO_SOURCE (R100). -/
  | audioSource (e : Env) (tag channel source : Byte)
  /-- AUDIO_GAIN. Order AUDIO_GAIN (R100). -/
  | audioGain (e : Env) (tag channel gain : Byte)
  /-- AUDIO_LIMITER. Order AUDIO_LIMITER (R100). -/
  | audioLimiter (e : Env) (tag channel threshold release : Byte)
  /-- TONE_LEVEL. Order TONE_LEVEL (R100). -/
  | toneLevel (e : Env) (tag level : Byte)
  /-- STA_FRAME_START. The STA takes its next frame start (R117). -/
  | staFrameStart (e : Env)
  /-- GROUP_COPY_DONE. The group copy in flight completes (R126). -/
  | groupCopyDone (e : Env)
  /-- GROUP_COPY_BUS_ERROR. A common bus error arises in the group copy in flight (R127). -/
  | groupCopyBusError (e : Env) (site : CopySite) (address : Word)
  /-- STREAM_CONFIG. Order STREAM_CONFIG (R121). -/
  | streamConfig (e : Env) (tag delay : Byte)
  /-- PRE_RECORD. Order PRE_RECORD (R131). -/
  | preRecord (e : Env) (tag code : Byte) (count : Half)
  /-- CARD_INSERTED. The detect switch of `slot` goes to present (R136). -/
  | cardInserted (e : Env) (slot : SlotId)
  /-- CARD_REMOVED. The detect switch of `slot` goes to absent (R142). -/
  | cardRemoved (e : Env) (slot : SlotId)
  /-- IDENTIFY_REPLY. The card replies to IDENTIFY (R136). -/
  | identifyReply (e : Env) (slot : SlotId) (answer : IdentifyAnswer)
  /-- WRITE_REPLY. The card replies to WRITE (R139, R154). -/
  | writeReply (e : Env) (slot : SlotId) (answer : CardAnswer)
  /-- READ_REPLY. The card replies to READ (R165 to R167). -/
  | readReply (e : Env) (slot : SlotId) (answer : ReadAnswer)
  /-- FLUSH_REPLY. The card replies to FLUSH (R139, R161, R163). -/
  | flushReply (e : Env) (slot : SlotId) (answer : CardAnswer)
  /-- CARD_COMMAND_TIMEOUT. The command timer of `slot` expires (R140). -/
  | cardCommandTimeout (e : Env) (slot : SlotId)
  /-- GRANT_EXTENT. Order GRANT_EXTENT (R144). -/
  | grantExtent (e : Env) (tag slot : Byte) (start count : Word) (final : Byte)
  /-- RECORD_MODE. Order RECORD_MODE (R145). -/
  | recordMode (e : Env) (tag mode slot : Byte)
  /-- CLIP_OPEN. Order CLIP_OPEN (R146). -/
  | clipOpen (e : Env) (tag : Byte) (clipId contId : Word)
  /-- CLIP_CLOSE. Order CLIP_CLOSE (R157). -/
  | clipClose (e : Env) (tag : Byte)
  /-- SLOT_RELEASE. Order SLOT_RELEASE (R163). -/
  | slotRelease (e : Env) (tag slot : Byte)
  /-- SCAN_EXTENT. Order SCAN_EXTENT (R164). -/
  | scanExtent (e : Env) (tag slot : Byte) (start count : Word)
  /-- GUARD_ARM. Order GUARD_ARM (R171). -/
  | guardArm (e : Env) (tag limit : Byte)
  /-- GUARD_DISARM. Order GUARD_DISARM (R172). -/
  | guardDisarm (e : Env) (tag : Byte)
  /-- SAFE_STOP. Order SAFE_STOP (R181). -/
  | safeStop (e : Env) (tag : Byte)
  /-- SAFE_STOP_ENABLE. Order SAFE_STOP_ENABLE (R181). -/
  | safeStopEnable (e : Env) (tag : Byte)
  /-- VF_STATUS. A status byte arrives on the viewfinder link (R183). -/
  | vfStatus (e : Env) (status : Byte)
  /-- VFL_FRAME_START. The VFL takes its next frame start (R183 to R197). -/
  | vflFrameStart (e : Env)
  /-- VF_ITEM. Order VF_ITEM (R187). -/
  | vfItem (e : Env) (tag index enable row column width blink inverse colour kind p1 p2 : Byte)
  /-- VF_TEXT. Order VF_TEXT (R188). -/
  | vfText (e : Env) (tag first count : Byte) (address : Word)
  /-- VF_WARNING. Order VF_WARNING (R194). -/
  | vfWarning (e : Env) (tag action code priority text : Byte) (life : Half)
  /-- VF_TALLY. Order VF_TALLY (R198). -/
  | vfTally (e : Env) (tag output setting : Byte)
  /-- CLEAR_FAULTS. Order CLEAR_FAULTS (R207, R208). -/
  | clearFaults (e : Env) (tag : Byte) (p1 p2 p3 p4 p5 p6 : ClearPlace)
  /-- SET_FAULT_ROUTE. Order SET_FAULT_ROUTE (R210). -/
  | setFaultRoute (e : Env) (tag kind route mapping priority text : Byte)
  deriving DecidableEq, Repr

end Sys2Proof
end

