-- ==== Sys2Proof/Decode.lean ====
section
/-! DEFINITION. The command a table word spells. No row of spec/opcode_table.json gives bits, so no word
spells a command. The bytes of a sheet entry, which name an order (R219 to R221), are in Machine/Operands.lean. -/

namespace Sys2Proof

/-- The command that the `nbits` bits of `w` spell by the bits of the table: none, since no row has any. -/
def decodeTableWord (nbits w : Nat) : Option Instr :=
  let _ := nbits
  let _ := w
  none

end Sys2Proof
end

