-- ==== Sys2Proof/Machine/State.lean ====
section
/-! DEFINITION. The state of the part: every register, record, queue, timer and pin the manual gives its
blocks, common memory, and the queue of commands. Plain data throughout. -/

namespace Sys2Proof.Machine

/-! ## Frame timing (02) -/

/-- The six rates of R25, codes 0 to 5. -/
inductive Rate where
  | r23 | r24 | r25 | r29 | r50 | r59
  deriving DecidableEq, Repr

/-- A frame format (R26): the rate code and the drop-frame choice. -/
structure Format where
  rate : Rate
  drop : Bool
  deriving DecidableEq, Repr

/-- A timecode (R35). -/
structure Timecode where
  hours : Nat
  minutes : Nat
  seconds : Nat
  frames : Nat
  deriving DecidableEq, Repr

/-- The lock state of the FTU (R28). -/
inductive Lock where
  | free | locking | locked
  deriving DecidableEq, Repr

/-- The early-pulse policy (R32). -/
inductive EarlyPolicy where
  | ignore | restart
  deriving DecidableEq, Repr

/-- The counting mode (R36). -/
inductive CountMode where
  | freeRun | recordRun
  deriving DecidableEq, Repr

/-- A frame record (R34). -/
structure FrameRec where
  frame : FrameNo
  tc : Timecode
  drop : Bool
  run : Bool
  brk : Bool
  lost : Bool
  rate : Rate
  cadIndex : Nat
  cadCount : Nat
  deriving DecidableEq, Repr

/-- A frame start as it goes on to a block (R34): the record of the frame it opens, the record of the
frame it ends, and whether it is the first after the entry to RUNNING (log 10). -/
structure FrameStart where
  opened : FrameRec
  ended : FrameRec
  first : Bool
  deriving DecidableEq, Repr

/-- A block's part of the frame report, kept for the frame it belongs to (R23). -/
structure Kept (α : Type) where
  frame : FrameNo
  part : α
  deriving DecidableEq, Repr

/-- The FTU's part of the report: the open frame's timecode and the lock state (R22). -/
structure FtuPart where
  tc : Timecode
  lock : Lock
  deriving DecidableEq, Repr

/-- The Frame Timing Unit. -/
structure Ftu where
  format : Format
  pendingFormat : Option Format
  lock : Lock
  good : Nat
  lastPulse : Nat
  lastStart : Nat
  sincePulse : Nat
  lastPulseFrame : FrameNo
  flywheel : Option Nat
  holdover : Bool
  policy : EarlyPolicy
  droppedPulses : Nat
  counter : FrameNo
  tc : Timecode
  mode : CountMode
  pendingTc : Option Timecode
  openRec : FrameRec
  endedRec : FrameRec
  started : Bool
  kept : List (Kept FtuPart)
  deriving DecidableEq, Repr

/-! ## Sheets, tags and reports (01) -/

/-- The part state (R3). -/
inductive PartState where
  | halted | starting | running | startFailed | resetting
  deriving DecidableEq, Repr

/-- A cue sheet. -/
inductive SheetId where
  | a | b
  deriving DecidableEq, Repr

/-- The state of a tag (R19, R20). -/
inductive TagState where
  | free | inFlight | done | held
  deriving DecidableEq, Repr

/-- The outcome of a timed order. -/
inductive TagOutcome where
  | none | complete | preempted | stalled | aborted | cardFailed | relayFailed
  deriving DecidableEq, Repr

/-- One record of the tag table. -/
structure TagRec where
  st : TagState
  kind : Byte
  outcome : TagOutcome
  word1 : Word
  word2 : Word
  word3 : Word
  frame : FrameNo
  deriving DecidableEq, Repr

/-- The result of an entry (R16). -/
inductive Result where
  | done | clamped | accepted | refusedUnknown | refusedParam | refusedState | refusedRecording
  | refusedNoTag | refusedTagBusy | refusedTagHeld | refusedOverlap | refusedFull | refusedGrip
  | refusedManual | refusedStalled | refusedGuard | clearStale | clearHeld
  deriving DecidableEq, Repr

/-- One entry of a sheet, as the SHC holds it in its own copy (R13, R219). -/
structure SheetEntry where
  kind : Byte
  tag : Byte
  flags : Byte
  params : List Byte
  deriving DecidableEq, Repr

/-- The result of a sheet (R18). -/
inductive SheetResult where
  | ok | malformed | guardRefused
  deriving DecidableEq, Repr

/-- The 26 fault kinds of R200, in their order. -/
inductive FaultKind where
  | refLost | refEarly | sheetMalformed | commonBus | guardKey | guardStarved | guardTrip | lensLink
  | lensStall | lensTable | gyroLost | gyroOverrange | audioClock | audioUnderrun | audioOverrun | unitLate
  | unitDup | unitDamaged | streamBehind | streamFull | extentStarved | cardPulled | cardWrite | cardTimeout
  | relayFailed | clipLimit
  deriving DecidableEq, Repr

/-- A completion: the tag, the outcome and three result words (R20). -/
structure Completion where
  tag : Nat
  outcome : TagOutcome
  word1 : Word
  word2 : Word
  word3 : Word
  deriving DecidableEq, Repr

/-- A completion with its hold indication (R20): the kind whose capture record is to hold the tag, or none. -/
structure HeldCompletion where
  hold : Option FaultKind
  completion : Completion
  deriving DecidableEq, Repr

/-- A sheet in dispatch: the SHC's copy of the entries not yet dispatched, the results so far, the tags its
orders have made IN_FLIGHT, and the completions of those tags, which reach the tag table once the results are
written (R17, log 42). -/
structure SheetJob where
  sheet : SheetId
  seq : Word
  frame : FrameNo
  tripped : Bool
  todo : List SheetEntry
  results : List Result
  opened : List Nat
  late : List HeldCompletion
  deriving DecidableEq, Repr

/-- What a report says of the sheet taken at its frame (R22). -/
structure SheetNote where
  sheet : SheetId
  seq : Word
  result : SheetResult
  deriving DecidableEq, Repr

/-- A report in writing. -/
structure ReportJob where
  frame : FrameNo
  sheet : Option SheetNote
  deriving DecidableEq, Repr

/-- The SHC's own part of the report: the part state and the tag table (R22). -/
structure ShcPart where
  part : PartState
  tags : List TagRec
  deriving DecidableEq, Repr

/-- The Sheet Controller, with the register window. -/
structure Shc where
  partBase : Word
  run : Bool
  reportEn : Bool
  faultEn : Bool
  safeEn : Bool
  part : PartState
  reason : Nat
  attReport : Bool
  attSafe : Bool
  turn : SheetId
  tags : List TagRec
  job : Option SheetJob
  heldStart : Option FrameStart
  resetWaiting : Bool
  reports : List ReportJob
  arriving : List FrameStart
  streamBase : Word
  streamSize : Word
  kept : List (Kept ShcPart)
  deriving DecidableEq, Repr

/-! ## Lens (03) -/

/-- The state of the lens link. -/
inductive LensLink where
  | detached | online | lost
  deriving DecidableEq, Repr

/-- A lens axis. -/
inductive AxisId where
  | zoom | focus | iris
  deriving DecidableEq, Repr

/-- The state of an axis (R47). -/
inductive AxisState where
  | idle | moving | stalled
  deriving DecidableEq, Repr

/-- The move in flight on an axis (R47, R53): a rate move with its target velocity, a position move with
its target in sub-units and its cap, a stopping move, a rest move, a grip move with its target velocity, or
a glide with the demand at its start and its end in sub-units. -/
inductive Move where
  | none
  | rate (target : Int)
  | position (target : Int) (cap : Int)
  | stopping
  | rest
  | grip (target : Int)
  | glide (start : Int) (target : Int)
  deriving DecidableEq, Repr

/-- An axis record (R47), with the demand position last sent. `tag` is 0 for none. -/
structure Axis where
  st : AxisState
  demand : Int
  vel : Int
  move : Move
  step : Int
  stallCount : Nat
  tag : Nat
  sent : Int
  deriving DecidableEq, Repr

/-- The LDU's view of the lens: the contents of the last received reply (R42). -/
structure LensView where
  zoom : Int
  focus : Int
  iris : Int
  rocker : Int
  button : Bool
  focusManual : Bool
  irisManual : Bool
  deriving DecidableEq, Repr

/-- The owner of the zoom (R55). -/
inductive ClaimOwner where
  | order | grip
  deriving DecidableEq, Repr

/-- A lens table: 17 points and the validity mark (R59, R60). -/
structure LensTable where
  valid : Bool
  points : List Int
  deriving DecidableEq, Repr

/-- A shot record (R65). -/
structure Shot where
  valid : Bool
  zoom : Int
  focus : Int
  iris : Int
  travel : Nat
  dwell : Nat
  deriving DecidableEq, Repr

/-- The shot mode (R65). -/
inductive ShotMode where
  | chain | step
  deriving DecidableEq, Repr

/-- The shot state (03 Shots): the shot index, the updates done and their number for a glide or a dwell. -/
inductive ShotState where
  | idle
  | gliding (shot : Nat) (done : Nat) (total : Nat)
  | dwelling (shot : Nat) (done : Nat) (total : Nat)
  | holding (shot : Nat)
  deriving DecidableEq, Repr

/-- One axis in the lens part of the report (R71, R223). -/
structure AxisPart where
  st : AxisState
  manual : Bool
  sent : Int
  actual : Int
  deriving DecidableEq, Repr

/-- The lens part of the report (R71, R223). -/
structure LensPart where
  link : LensLink
  owner : ClaimOwner
  lockout : Bool
  tracking : Bool
  scaleValid : Bool
  trackingValid : Bool
  shotCode : Nat
  shotIndex : Nat
  surge : Bool
  rocker : Int
  ignored : Nat
  zoom : AxisPart
  focus : AxisPart
  iris : AxisPart
  deriving DecidableEq, Repr

/-- The Lens Drive Unit. -/
structure Ldu where
  link : LensLink
  missing : Nat
  timer : Option Nat
  demandSent : Bool
  drive : Bool
  reply : Option LensReply
  view : LensView
  zoom : Axis
  focus : Axis
  iris : Axis
  focusBased : Bool
  owner : ClaimOwner
  lockout : Bool
  releaseWait : Bool
  hardStep : Int
  softStep : Int
  stallWindow : Int
  stallTime : Nat
  scale : LensTable
  track : LensTable
  tracking : Bool
  shots : List Shot
  shotMode : ShotMode
  shotCount : Nat
  shotPolicy : EarlyPolicy
  shot : ShotState
  seqTag : Nat
  ignored : Nat
  surge : Bool
  kept : List (Kept LensPart)
  deriving DecidableEq, Repr

/-! ## Stabiliser (04) -/

/-- The mode of the MST (R74). -/
inductive StabMode where
  | off | on | hold
  deriving DecidableEq, Repr

/-- The pan state of an axis (R80). -/
inductive PanState where
  | steady | panning | settling
  deriving DecidableEq, Repr

/-- One axis of the MST. -/
structure StabAxis where
  bias : Int
  acc : Int
  pan : PanState
  enterRun : Nat
  exitRun : Nat
  settle : Nat
  edge : Bool
  deriving DecidableEq, Repr

/-- A crop record (R91). -/
structure CropRec where
  frame : FrameNo
  x : Int
  y : Int
  scale : Int
  mode : StabMode
  yawPan : PanState
  pitchPan : PanState
  yawEdge : Bool
  pitchEdge : Bool
  deriving DecidableEq, Repr

/-- A crop message (R89): the two offsets are signed 16-bit fields, the frame number a 32-bit field. -/
structure CropMsg where
  x : Half
  y : Half
  frame : FrameNo
  deriving DecidableEq, Repr

/-- The stabiliser part of the report (R92). -/
structure StabPart where
  mode : StabMode
  yawPan : PanState
  pitchPan : PanState
  yawEdge : Bool
  pitchEdge : Bool
  x : Int
  y : Int
  deriving DecidableEq, Repr

/-- The Motion Stabiliser. -/
structure Mst where
  mode : StabMode
  yaw : StabAxis
  pitch : StabAxis
  recentre : Bool
  lossTimer : Option Nat
  resumption : Nat
  lastArrival : Option Nat
  samples : Nat
  sampleSinceOn : Bool
  quiet : Nat
  marginX : Int
  marginY : Int
  still : Int
  biasShift : Nat
  panEnter : Int
  panExit : Int
  crops : List CropRec
  sent : Option CropMsg
  arriving : List FrameStart
  kept : List (Kept StabPart)
  deriving DecidableEq, Repr

/-! ## Audio (05) -/

/-- One thing for each of the four audio channels. -/
structure Quad (α : Type) where
  c1 : α
  c2 : α
  c3 : α
  c4 : α
  deriving DecidableEq, Repr

/-- A set of four samples (R94). -/
abbrev AudioSet := Quad Int

/-- The source of a channel (R101). -/
inductive AudioSource where
  | converter | tone | mute
  deriving DecidableEq, Repr

/-- The settings of a channel (R99). -/
structure ChannelSet where
  source : AudioSource
  gain : Nat
  threshold : Int
  release : Nat
  deriving DecidableEq, Repr

/-- One audio channel. -/
structure Channel where
  now : ChannelSet
  pending : ChannelSet
  limiter : Int
  meter : Nat
  held : Nat
  holdCount : Nat
  overload : Bool
  overCount : Nat
  deriving DecidableEq, Repr

/-- An audio record (R110). -/
structure AudioRec where
  frame : FrameNo
  count : Nat
  staged : Bool
  slip : Bool
  underrun : Bool
  clockLost : Bool
  silent : Bool
  overload : Quad Bool
  meters : Quad Nat
  gains : Quad Nat
  deriving DecidableEq, Repr

/-- A staging write in flight (R108): where the block goes, its bytes and its record. -/
structure StagingJob where
  address : Nat
  block : List Byte
  record : AudioRec
  deriving DecidableEq, Repr

/-- One channel of the audio part of the report (R111). -/
structure MeterPart where
  meter : Nat
  held : Nat
  overload : Bool
  deriving DecidableEq, Repr

/-- The take mode (R97). -/
inductive TakeMode where
  | priming | flowing
  deriving DecidableEq, Repr

/-- The Audio Capture Unit. -/
structure Acu where
  fifo : List AudioSet
  take : TakeMode
  padded : Bool
  clockLost : Bool
  clockTimer : Option Nat
  slipMark : Bool
  lostMark : Bool
  lastSet : Option AudioSet
  channels : Quad Channel
  toneLevel : Nat
  pendingTone : Nat
  phase : Nat
  stagingBase : Word
  writing : Option StagingJob
  heldStart : Option FrameStart
  arriving : List FrameStart
  fillAfterTake : Nat
  lastStart : Option Nat
  overrunLogged : Bool
  setsSince : Nat
  kept : List (Kept (Quad MeterPart))
  deriving DecidableEq, Repr

/-! ## Stream (06) -/

/-- The lens snapshot of a pending record (R115, R117). -/
structure LensSnap where
  zoom : Int
  focus : Int
  iris : Int
  shotCode : Nat
  shotIndex : Nat
  deriving DecidableEq, Repr

/-- A pending record (R117). -/
structure PendingRec where
  frame : FrameRec
  lens : LensSnap
  crop : CropRec
  audio : Option AudioRec
  deriving DecidableEq, Repr

/-- A unit in use: its entry in the unit table, its address and its length (R123). -/
structure UsedUnit where
  entry : Nat
  address : Word
  length : Word
  deriving DecidableEq, Repr

/-- The group copy in flight (R125, R126): the frame's records, the unit in use, whether its GAP is marked
DAMAGED, and whether its audio could not be read (R127). -/
structure GroupCopy where
  source : PendingRec
  audio : AudioRec
  unit : Option UsedUnit
  gapDamaged : Bool
  audioBad : Bool
  deriving DecidableEq, Repr

/-- An index record (R128). -/
structure IndexRec where
  frame : FrameNo
  offset : Nat
  length : Nat
  damage : Byte
  tcFlags : Byte
  deriving DecidableEq, Repr

/-- The stream part of the report (R134, R223), and the average group length of R129. -/
structure StreamPart where
  fill : Nat
  held : Nat
  writePos : Nat
  pending : Nat
  index : Nat
  copyFrame : Option FrameNo
  preOn : Bool
  preCount : Nat
  retained : Nat
  delay : Nat
  dropped : Nat
  average : Option Nat
  deriving DecidableEq, Repr

/-- The Stream Assembler. -/
structure Sta where
  pending : List PendingRec
  early : List AudioRec
  claims : List (Option FrameNo)
  delay : Nat
  copy : Option GroupCopy
  index : List IndexRec
  writePos : Nat
  preOn : Bool
  preCount : Nat
  floor : Option FrameNo
  history : List Nat
  dropped : Nat
  newest : FrameNo
  arriving : List FrameStart
  kept : List (Kept StreamPart)
  deriving DecidableEq, Repr

/-! ## Card slots (07) -/

/-- The state of a slot. -/
inductive SlotState where
  | empty | probing | ready | guarded | recording | closing | scanning | full | faulted
  deriving DecidableEq, Repr

/-- An extent (07 Extents). -/
structure Extent where
  start : Nat
  count : Nat
  final : Bool
  deriving DecidableEq, Repr

/-- The current extent with its position, the next unused sector in it (R143). -/
structure CurrentExtent where
  extent : Extent
  pos : Nat
  deriving DecidableEq, Repr

/-- A card command (R137). -/
inductive CardCommand where
  | identify
  | write (sector : Nat) (count : Nat) (data : List Byte)
  | read (sector : Nat) (count : Nat)
  | flush
  deriving DecidableEq, Repr

/-- A command that waits behind the one in flight (R138). -/
inductive WaitingCommand where
  | write | read | flush
  deriving DecidableEq, Repr

/-- An entry of a clip's extent list (R151): the extent as granted, the first sector the clip used in it
and the number of sectors used. -/
structure ClipExtent where
  extent : Extent
  first : Nat
  used : Nat
  deriving DecidableEq, Repr

/-- What the CLOSE block counts (R150, R159): the groups placed, the gap and damage counts, and the first and
last timecodes. -/
structure ClipCounts where
  groups : Nat
  gaps : Nat
  damaged : Nat
  firstTc : Timecode
  lastTc : Timecode
  deriving DecidableEq, Repr

/-- Where the bytes of a placed item come from: the CSC itself, or a group in the stream buffer. -/
inductive ItemSource where
  | own (bytes : List Byte)
  | group (frame : FrameNo) (offset : Nat)
  deriving DecidableEq, Repr

/-- A placed item of a clip (R150): its first byte in the clip, its length, its source, and the clip's counts
once it is placed. -/
structure PlacedItem where
  start : Nat
  length : Nat
  source : ItemSource
  counts : ClipCounts
  deriving DecidableEq, Repr

/-- The open clip of a slot: the clip record (R147), the reader (R148) and the writer (R150, R153). Bytes of
the clip are numbered from 0 at its OPEN block; `placed`, `sent` and `acked` count those placed, sent in a
WRITE and replied OK. -/
structure Clip where
  id : Word
  prev : Word
  continuation : Bool
  first : FrameNo
  openFrame : FrameNo
  rate : Rate
  recorded : Nat
  counts : ClipCounts
  extents : List ClipExtent
  relayContinued : Bool
  safeStopped : Bool
  nextId : Word
  next : FrameNo
  endPoint : Option FrameNo
  items : List PlacedItem
  placed : Nat
  sent : Nat
  acked : Nat
  begun : Option FrameNo
  openPlaced : Bool
  openLength : Nat
  openSector : Nat
  openDone : Bool
  closePlaced : Bool
  flushSent : Bool
  paused : Bool
  retry : Bool
  fullAfter : Bool
  deriving DecidableEq, Repr

/-- The group a recogniser is following (R166). -/
inductive GroupProgress where
  | none
  | opened (frame : FrameNo)
  | pictured (frame : FrameNo)
  deriving DecidableEq, Repr

/-- The mode of the recogniser (R165, R166). `after` is LOCKED with a valid block passed and the bytes after it not
yet judged, which may not have been read (log 35). -/
inductive RecogMode where
  | search | probe | locked | after
  deriving DecidableEq, Repr

/-- A scan (R164 to R167): the extent, the sectors read, the recogniser's mode and position, the bytes read
from that position on, and the counts. -/
structure Scan where
  start : Nat
  count : Nat
  sectorsRead : Nat
  mode : RecogMode
  pos : Nat
  bytes : List Byte
  sectorClean : Bool
  validEnd : Nat
  lastGroup : FrameNo
  groups : Nat
  badBlocks : Nat
  blank : Nat
  progress : GroupProgress
  ended : Bool
  deriving DecidableEq, Repr

/-- A slot's part of the report (R168), and the unused sectors the VFL reads. -/
structure SlotPart where
  st : SlotState
  releasePending : Bool
  clipId : Word
  recorded : Nat
  position : Option Nat
  queued : Nat
  capacity : Nat
  sectorsRead : Nat
  badBlocks : Nat
  unused : Nat
  deriving DecidableEq, Repr

/-- A Card Slot Controller. Tags are 0 for none. -/
structure Slot where
  detect : Bool
  st : SlotState
  capacity : Nat
  writeProtected : Bool
  command : Option CardCommand
  timer : Option Nat
  waiting : Option WaitingCommand
  releasePending : Bool
  releaseSent : Bool
  current : Option CurrentExtent
  queue : List Extent
  clip : Option Clip
  openTag : Nat
  closeTag : Nat
  scanTag : Nat
  scan : Scan
  kept : List (Kept SlotPart)
  deriving DecidableEq, Repr

/-- The record mode (R145). -/
inductive RecordMode where
  | single | simul | relay
  deriving DecidableEq, Repr

/-- The CLIP_OPEN whose completion is outstanding (R154): the tag, the clip id, the first frame, the slots
whose open is still to be done, and the start sector of the OPEN block on the first slot opened. -/
structure OpenOrder where
  tag : Nat
  clipId : Word
  first : FrameNo
  waitA : Bool
  waitB : Bool
  usesA : Bool
  sectorA : Nat
  sectorB : Nat
  deriving DecidableEq, Repr

/-- The CLIP_CLOSE whose completion is outstanding (R157): the tag, the slots still to end their close, the
frames recorded and the end point. -/
structure CloseOrder where
  tag : Nat
  waitA : Bool
  waitB : Bool
  framesA : Nat
  framesB : Nat
  endPoint : Word
  deriving DecidableEq, Repr

/-- The record mode and the relay id as the report gives them (R168). -/
structure DeckPart where
  mode : RecordMode
  slot : SlotId
  relayId : Word
  deriving DecidableEq, Repr

/-- What the two CSCs share: the record mode, the relay continuation id, and the orders in progress. -/
structure Deck where
  mode : RecordMode
  slot : SlotId
  relayId : Word
  openOrder : Option OpenOrder
  closeOrder : Option CloseOrder
  kept : List (Kept DeckPart)
  deriving DecidableEq, Repr

/-! ## Guard and safe stop (08) -/

/-- The guard state (R170). -/
inductive GuardState where
  | off | armed | watching | tripped
  deriving DecidableEq, Repr

/-- The guard part of the report (R176). -/
structure GuardPart where
  st : GuardState
  count : Nat
  deriving DecidableEq, Repr

/-- The Continuity Guard. -/
structure Cgd where
  st : GuardState
  expected : Word
  count : Nat
  limit : Nat
  starved : Bool
  kept : List (Kept GuardPart)
  deriving DecidableEq, Repr

/-- The source of a safe-stop request (R177). -/
inductive StopSource where
  | guard
  | fault (kind : FaultKind)
  | reset
  | order
  deriving DecidableEq, Repr

/-- The stop record (08 Safe Stop). -/
structure StopRecord where
  source : StopSource
  startFrame : FrameNo
  endFrame : Option FrameNo
  merged : Nat
  deriving DecidableEq, Repr

/-- Safe Stop's fields of the report (R182). -/
structure StopPart where
  stopping : Bool
  enable : Bool
  record : Option StopRecord
  deriving DecidableEq, Repr

/-- Safe Stop. `requests` are those sent and not yet taken (log 14). -/
structure SafeStop where
  stopping : Bool
  enable : Bool
  record : Option StopRecord
  requests : List StopSource
  kept : List (Kept StopPart)
  deriving DecidableEq, Repr

/-! ## Viewfinder (09) -/

/-- A cell of the status page. -/
structure Cell where
  code : Byte
  blink : Bool
  inverse : Bool
  colour : Nat
  deriving DecidableEq, Repr

/-- The kind of an item with its kind parameters (09 Items). -/
inductive ItemKind where
  | text (index : Nat)
  | value (source : Nat) (format : Nat)
  | meter (channel : Nat) (bar : Nat)
  | warning
  deriving DecidableEq, Repr

/-- An item. -/
structure Item where
  enabled : Bool
  row : Nat
  column : Nat
  width : Nat
  blink : Bool
  inverse : Bool
  colour : Nat
  kind : ItemKind
  deriving DecidableEq, Repr

/-- A warning entry (09 Warnings). `posted` is true for source ORDER. -/
structure Warning where
  code : Nat
  priority : Nat
  text : Nat
  posted : Bool
  life : Nat
  deriving DecidableEq, Repr

/-- The setting of a tally output (R197). -/
inductive TallySetting where
  | auto | off | on | blink
  deriving DecidableEq, Repr

/-- The state of a tally output (R197). -/
inductive TallyState where
  | off | on | blink
  deriving DecidableEq, Repr

/-- A tally output. -/
structure Tally where
  setting : TallySetting
  st : TallyState
  blinkCount : Nat
  deriving DecidableEq, Repr

/-- A message to the viewfinder (09 The viewfinder link). -/
inductive VfMessage where
  | row (number : Nat) (cells : List Cell)
  | idle
  deriving DecidableEq, Repr

/-- The viewfinder part of the report (R199). -/
structure VfPart where
  up : Bool
  misses : Nat
  status : Byte
  dirty : Nat
  front : Tally
  rear : Tally
  shown : Nat
  warnings : Nat
  dropped : Nat
  deriving DecidableEq, Repr

/-- The Viewfinder Link. -/
structure Vfl where
  up : Bool
  misses : Nat
  received : Bool
  status : Option Byte
  page : List (List Cell)
  items : List Item
  texts : List (List Byte)
  dirty : List Nat
  warnings : List Warning
  shown : Option Nat
  rotation : Nat
  droppedWarnings : Nat
  minutesA : Option Nat
  minutesB : Option Nat
  fill : Nat
  front : Tally
  rear : Tally
  sent : List VfMessage
  arriving : List FrameStart
  kept : List (Kept VfPart)
  deriving DecidableEq, Repr

/-! ## Faults (10) -/

/-- The source of an occurrence (R201). -/
inductive FaultSource where
  | none | slotA | slotB | zoom | focus | iris | yaw | pitch
  deriving DecidableEq, Repr

/-- A capture record (R203). `tag` is 0 for none. -/
structure Capture where
  frame : FrameNo
  source : FaultSource
  detail1 : Word
  detail2 : Word
  tag : Nat
  deriving DecidableEq, Repr

/-- A route (R204). -/
inductive Route where
  | none | attention | safeStop
  deriving DecidableEq, Repr

/-- A warning mapping: a priority and a text index. -/
structure Mapping where
  priority : Nat
  text : Nat
  deriving DecidableEq, Repr

/-- What the FLT holds for one kind. -/
structure FaultRec where
  inNext : Bool
  count : Nat
  capture : Capture
  route : Route
  mapping : Option Mapping
  deriving DecidableEq, Repr

/-- The Fault Log: FIRST and one record per kind. -/
structure Flt where
  first : Option FaultKind
  kinds : List FaultRec
  deriving DecidableEq, Repr

/-! ## The whole part -/

/-- The state of the part. `now` is the time the commands have told (log 3), `busErrors` the bus's answer to
the step being taken (log 2), `draws` the number of free values drawn (log 33), `pending` the commands that
wait, first in first out. -/
structure State where
  now : Nat
  busErrors : List Nat
  draws : Nat
  mem : List Host.Cell
  shc : Shc
  ftu : Ftu
  ldu : Ldu
  mst : Mst
  acu : Acu
  sta : Sta
  slotA : Slot
  slotB : Slot
  deck : Deck
  cgd : Cgd
  stop : SafeStop
  vfl : Vfl
  flt : Flt
  pending : List Instr
  deriving DecidableEq, Repr

/-- The reasons to stop with a fault: none. What goes wrong at the part is logged in its Fault Log and the
part goes on, so no command raises a fault (log 40). -/
inductive Fault where
  deriving DecidableEq, Repr

/-- The reasons to refuse a command. -/
inductive Refusal where
  /-- Raised by `exec` for a command that has no meaning yet; safe, since nothing then follows. No arm of this
  model raises it. -/
  | notModelled (mnemonic : String)
  deriving DecidableEq, Repr

/-! ## Reset -/

/-- The timecode 00:00:00:00. -/
def Timecode.zero : Timecode := ⟨0, 0, 0, 0⟩

/-- Both frame records after either reset (R34). -/
def FrameRec.reset : FrameRec :=
  { frame := 0, tc := .zero, drop := false, run := false, brk := false, lost := false, rate := .r25,
    cadIndex := 0, cadCount := 1920 }

/-- The FTU after either reset (R26, R28, R32 to R37). -/
def Ftu.reset : Ftu :=
  { format := ⟨.r25, false⟩, pendingFormat := none, lock := .free, good := 0, lastPulse := 0, lastStart := 0,
    sincePulse := 0, lastPulseFrame := 0, flywheel := none, holdover := false, policy := .ignore,
    droppedPulses := 0, counter := 0, tc := .zero, mode := .freeRun, pendingTc := none,
    openRec := .reset, endedRec := .reset, started := false, kept := [] }

/-- A FREE tag with an empty record (R5). -/
def TagRec.free : TagRec :=
  { st := .free, kind := 0, outcome := .none, word1 := 0, word2 := 0, word3 := 0, frame := 0 }

/-- The SHC after power-on reset (R1 to R5). -/
def Shc.reset : Shc :=
  { partBase := 0, run := false, reportEn := false, faultEn := false, safeEn := false, part := .halted,
    reason := 0, attReport := false, attSafe := false, turn := .a, tags := List.replicate 32 .free,
    job := none, heldStart := none, resetWaiting := false, reports := [], arriving := [],
    streamBase := 0, streamSize := 0, kept := [] }

/-- An axis after either reset (R72). -/
def Axis.reset : Axis :=
  { st := .idle, demand := 0, vel := 0, move := .none, step := 40, stallCount := 0, tag := 0, sent := 0 }

/-- A shot record after either reset (R72). -/
def Shot.reset : Shot := { valid := false, zoom := 0, focus := 0, iris := 0, travel := 1, dwell := 0 }

/-- The LDU after either reset (R72). -/
def Ldu.reset : Ldu :=
  { link := .detached, missing := 0, timer := none, demandSent := false, drive := false, reply := none,
    view := { zoom := 0, focus := 0, iris := 0, rocker := 0, button := false, focusManual := false,
              irisManual := false },
    zoom := .reset, focus := .reset, iris := .reset, focusBased := false,
    owner := .order, lockout := false, releaseWait := false,
    hardStep := 40, softStep := 4, stallWindow := 64, stallTime := 100,
    scale := ⟨false, List.replicate 17 0⟩, track := ⟨false, List.replicate 17 0⟩, tracking := false,
    shots := List.replicate 4 .reset, shotMode := .chain, shotCount := 4, shotPolicy := .ignore,
    shot := .idle, seqTag := 0, ignored := 0, surge := false, kept := [] }

/-- An axis of the MST after either reset (R93). -/
def StabAxis.reset : StabAxis :=
  { bias := 0, acc := 0, pan := .steady, enterRun := 0, exitRun := 0, settle := 0, edge := false }

/-- The MST after either reset (R93). -/
def Mst.reset : Mst :=
  { mode := .off, yaw := .reset, pitch := .reset, recentre := false, lossTimer := none, resumption := 0,
    lastArrival := none, samples := 0, sampleSinceOn := false, quiet := 0, marginX := 96, marginY := 54,
    still := 40, biasShift := 12, panEnter := 4000, panExit := 1500, crops := [], sent := none,
    arriving := [], kept := [] }

/-- The settings of a channel after either reset (R111). -/
def ChannelSet.reset : ChannelSet := { source := .converter, gain := 24, threshold := 0, release := 8 }

/-- A channel after either reset (R111). -/
def Channel.reset : Channel :=
  { now := .reset, pending := .reset, limiter := 32768, meter := 0, held := 0, holdCount := 0,
    overload := false, overCount := 0 }

/-- The ACU after either reset (R111). -/
def Acu.reset : Acu :=
  { fifo := [], take := .priming, padded := false, clockLost := false, clockTimer := none, slipMark := false,
    lostMark := false, lastSet := none, channels := ⟨.reset, .reset, .reset, .reset⟩, toneLevel := 0,
    pendingTone := 0, phase := 0, stagingBase := 0, writing := none, heldStart := none, arriving := [],
    fillAfterTake := 0, lastStart := none, overrunLogged := false, setsSince := 0, kept := [] }

/-- The STA after either reset (R135), with frame 0 as the newest frame start taken until the first (log 16). -/
def Sta.reset : Sta :=
  { pending := [], early := [], claims := List.replicate 8 none, delay := 3, copy := none, index := [],
    writePos := 0, preOn := false, preCount := 0, floor := none, history := [], dropped := 0, newest := 0,
    arriving := [], kept := [] }

/-- No scan: SEARCH with counts 0 (R169). -/
def Scan.reset : Scan :=
  { start := 0, count := 0, sectorsRead := 0, mode := .search, pos := 0, bytes := [], sectorClean := true,
    validEnd := 0, lastGroup := 0, groups := 0, badBlocks := 0, blank := 0, progress := .none, ended := false }

/-- A slot after either reset, with its detect switch at `detect` (R169). -/
def Slot.reset (detect : Bool) : Slot :=
  { detect := detect, st := if detect then .probing else .empty, capacity := 0, writeProtected := false,
    command := none, timer := none, waiting := none, releasePending := false, releaseSent := false,
    current := none, queue := [], clip := none, openTag := 0, closeTag := 0, scanTag := 0, scan := .reset,
    kept := [] }

/-- What the CSCs share after either reset (R169). -/
def Deck.reset : Deck :=
  { mode := .single, slot := .a, relayId := 0, openOrder := none, closeOrder := none, kept := [] }

/-- The CGD after either reset (R176). -/
def Cgd.reset : Cgd :=
  { st := .off, expected := 0x6E19, count := 0, limit := 12, starved := false, kept := [] }

/-- Safe Stop after power-on reset (R182). -/
def SafeStop.reset : SafeStop :=
  { stopping := false, enable := true, record := none, requests := [], kept := [] }

/-- A blank cell (09 The cell page). -/
def Cell.blank : Cell := { code := 0x20, blink := false, inverse := false, colour := 0 }

/-- An item after either reset (R199). -/
def Item.reset : Item :=
  { enabled := false, row := 0, column := 0, width := 1, blink := false, inverse := false, colour := 0,
    kind := .text 0 }

/-- A tally output after either reset (R199). -/
def Tally.reset : Tally := { setting := .auto, st := .off, blinkCount := 0 }

/-- The VFL after either reset (R199). -/
def Vfl.reset : Vfl :=
  { up := false, misses := 0, received := false, status := none,
    page := List.replicate 16 (List.replicate 40 .blank), items := List.replicate 32 .reset,
    texts := List.replicate 64 (List.replicate 16 0x20), dirty := [], warnings := [], shown := none,
    rotation := 0, droppedWarnings := 0, minutesA := none, minutesB := none, fill := 0, front := .reset,
    rear := .reset, sent := [], arriving := [], kept := [] }

/-- A cleared and unlocked capture record (R208, R212). -/
def Capture.clear : Capture := { frame := 0, source := .none, detail1 := 0, detail2 := 0, tag := 0 }

/-- What the FLT holds for a kind after power-on reset (R212), with its default route and mapping (R200). -/
def FaultRec.reset (route : Route) (mapping : Option Mapping) : FaultRec :=
  { inNext := false, count := 0, capture := .clear, route := route, mapping := mapping }

/-- The FLT after power-on reset: the default routes and mappings of R200, kind 1 first. -/
def Flt.reset : Flt :=
  { first := none
    kinds :=
      [.reset .attention none, .reset .none none, .reset .attention none, .reset .attention none,
       .reset .attention none, .reset .attention none, .reset .safeStop (some ⟨7, 63⟩), .reset .attention none,
       .reset .attention none, .reset .attention none, .reset .attention none, .reset .none none,
       .reset .attention none, .reset .none none, .reset .none none, .reset .attention none,
       .reset .attention none, .reset .none none, .reset .safeStop none, .reset .safeStop none,
       .reset .attention none, .reset .attention none, .reset .safeStop none, .reset .safeStop none,
       .reset .attention none, .reset .attention none] }

/-- The part right after power-on reset (R5), with no card in either slot and no command waiting. -/
def State.reset : State :=
  { now := 0, busErrors := [], draws := 0, mem := [], shc := .reset, ftu := .reset, ldu := .reset, mst := .reset,
    acu := .reset, sta := .reset, slotA := .reset false, slotB := .reset false, deck := .reset, cgd := .reset,
    stop := .reset, vfl := .reset, flt := .reset, pending := [] }

end Sys2Proof.Machine
end

