-- ==== Sys2Proof/Machine/Bits.lean ====
section
/-! DEFINITION. Byte order, signed fields, clamping, counters and the order of frame numbers. -/

namespace Sys2Proof.Machine

/-- The `n` bytes of `v`, least significant byte first (R215). -/
def leBytes : Nat → Nat → List Byte
  | 0, _ => []
  | n + 1, v => BitVec.ofNat 8 v :: leBytes n (v / 256)

/-- The number that bytes hold, least significant byte first (R215). -/
def ofLe : List Byte → Nat
  | [] => 0
  | b :: r => b.toNat + 256 * ofLe r

/-- The `n` bytes of a signed field, in two's complement (R215). -/
def leSigned (n : Nat) (v : Int) : List Byte := leBytes n (v % (256 ^ n : Nat)).toNat

/-- The signed number that a field of `n` bytes holds. -/
def signedOf (n : Nat) (v : Nat) : Int :=
  if v < 256 ^ n / 2 then (v : Int) else (v : Int) - (256 ^ n : Nat)

/-- The 32-bit word of a number, modulo 2^32 (logs 17, 18). -/
def wordOf (v : Int) : Word := BitVec.ofInt 32 v

/-- The 32-bit word of a count (log 17). -/
def wordOfNat (v : Nat) : Word := BitVec.ofNat 32 v

/-- `v` held to `lo` to `hi`. -/
def clampInt (lo hi v : Int) : Int := if v < lo then lo else if hi < v then hi else v

/-- `v` held to `lo` to `hi`. -/
def clampNat (lo hi v : Nat) : Nat := if v < lo then lo else if hi < v then hi else v

/-- A saturating count raised by one. -/
def satSucc (limit n : Nat) : Nat := if n < limit then n + 1 else limit

/-- 1 for true, as a flag is written. -/
def bit (b : Bool) : Nat := if b then 1 else 0

/-- `a` is the older of two frame numbers (00_scope, Frame numbers); frames half the range apart are not
ordered. -/
def olderFrame (a b : FrameNo) : Bool :=
  decide (0 < (b - a).toNat) && decide ((b - a).toNat < 2147483648)

/-- `a` is `b` or older. -/
def notNewer (a b : FrameNo) : Bool := a == b || olderFrame a b

/-- Cut into pieces of `n` (at least one), at most `k` of them. -/
def pieces {α : Type} (n : Nat) : Nat → List α → List (List α)
  | 0, _ => []
  | k + 1, l => l.take n :: pieces n k (l.drop n)

/-- Raise the entry at `i` of a list by `f`. -/
def modifyAt {α : Type} (f : α → α) : Nat → List α → List α
  | _, [] => []
  | 0, a :: r => f a :: r
  | n + 1, a :: r => a :: modifyAt f n r

/-- The codes a table gives to values, as the report and the stream write them (R223, R226). -/
def Rate.code : Rate → Nat
  | .r23 => 0 | .r24 => 1 | .r25 => 2 | .r29 => 3 | .r50 => 4 | .r59 => 5

/-- The timecode count of a rate (R25). -/
def Rate.count : Rate → Nat
  | .r23 => 24 | .r24 => 24 | .r25 => 25 | .r29 => 30 | .r50 => 50 | .r59 => 60

def Lock.code : Lock → Nat
  | .free => 0 | .locking => 1 | .locked => 2

def PartState.code : PartState → Nat
  | .halted => 0 | .starting => 1 | .running => 2 | .startFailed => 3 | .resetting => 4

def TagState.code : TagState → Nat
  | .free => 0 | .inFlight => 1 | .done => 2 | .held => 3

def TagOutcome.code : TagOutcome → Nat
  | .none => 0 | .complete => 1 | .preempted => 2 | .stalled => 3 | .aborted => 4 | .cardFailed => 5
  | .relayFailed => 6

def Result.code : Result → Nat
  | .done => 0x01 | .clamped => 0x02 | .accepted => 0x03 | .refusedUnknown => 0x10 | .refusedParam => 0x11
  | .refusedState => 0x12 | .refusedRecording => 0x13 | .refusedNoTag => 0x14 | .refusedTagBusy => 0x16
  | .refusedTagHeld => 0x17 | .refusedOverlap => 0x18 | .refusedFull => 0x19 | .refusedGrip => 0x1A
  | .refusedManual => 0x1B | .refusedStalled => 0x1C | .refusedGuard => 0x1D | .clearStale => 0x20
  | .clearHeld => 0x21

def SheetResult.code : SheetResult → Nat
  | .ok => 1 | .malformed => 2 | .guardRefused => 3

def LensLink.code : LensLink → Nat
  | .detached => 0 | .online => 1 | .lost => 2

def AxisState.code : AxisState → Nat
  | .idle => 0 | .moving => 1 | .stalled => 2

def ClaimOwner.code : ClaimOwner → Nat
  | .order => 0 | .grip => 1

def StabMode.code : StabMode → Nat
  | .off => 0 | .on => 1 | .hold => 2

def PanState.code : PanState → Nat
  | .steady => 0 | .panning => 1 | .settling => 2

def SlotState.code : SlotState → Nat
  | .empty => 0 | .probing => 1 | .ready => 2 | .guarded => 3 | .recording => 4 | .closing => 5
  | .scanning => 6 | .full => 7 | .faulted => 8

def RecordMode.code : RecordMode → Nat
  | .single => 0 | .simul => 1 | .relay => 2

def slotCode : SlotId → Nat
  | .a => 0 | .b => 1

def GuardState.code : GuardState → Nat
  | .off => 0 | .armed => 1 | .watching => 2 | .tripped => 3

def TallySetting.code : TallySetting → Nat
  | .auto => 0 | .off => 1 | .on => 2 | .blink => 3

def TallyState.code : TallyState → Nat
  | .off => 0 | .on => 1 | .blink => 2

def FaultSource.code : FaultSource → Nat
  | .none => 0 | .slotA => 1 | .slotB => 2 | .zoom => 3 | .focus => 4 | .iris => 5 | .yaw => 6 | .pitch => 7

def Route.code : Route → Nat
  | .none => 0 | .attention => 1 | .safeStop => 2

/-- The number of a fault kind (R200). -/
def FaultKind.number : FaultKind → Nat
  | .refLost => 1 | .refEarly => 2 | .sheetMalformed => 3 | .commonBus => 4 | .guardKey => 5
  | .guardStarved => 6 | .guardTrip => 7 | .lensLink => 8 | .lensStall => 9 | .lensTable => 10
  | .gyroLost => 11 | .gyroOverrange => 12 | .audioClock => 13 | .audioUnderrun => 14 | .audioOverrun => 15
  | .unitLate => 16 | .unitDup => 17 | .unitDamaged => 18 | .streamBehind => 19 | .streamFull => 20
  | .extentStarved => 21 | .cardPulled => 22 | .cardWrite => 23 | .cardTimeout => 24 | .relayFailed => 25
  | .clipLimit => 26

/-- The kinds in the order of their numbers (R200). -/
def FaultKind.all : List FaultKind :=
  [.refLost, .refEarly, .sheetMalformed, .commonBus, .guardKey, .guardStarved, .guardTrip, .lensLink,
   .lensStall, .lensTable, .gyroLost, .gyroOverrange, .audioClock, .audioUnderrun, .audioOverrun, .unitLate,
   .unitDup, .unitDamaged, .streamBehind, .streamFull, .extentStarved, .cardPulled, .cardWrite, .cardTimeout,
   .relayFailed, .clipLimit]

/-- The kind of a number 1 to 26. -/
def faultKindOf (n : Nat) : Option FaultKind := if n = 0 then none else FaultKind.all[n - 1]?

end Sys2Proof.Machine
end

