-- ==== Sys2Proof/Machine/Ops.lean ====
section
/-! DEFINITION. Operations over common memory, the bus, the clock and the slots. -/

namespace Sys2Proof.Machine

/-! ## Common memory: addresses strictly rising, no entry equal to what an unlisted address reads as -/

/-- What an address that nothing has written reads as (log 7). -/
def Memory.unlisted : Byte := 0

/-- The byte at an address. -/
def Memory.read : List Host.Cell → Nat → Byte
  | [], _ => Memory.unlisted
  | (b, w) :: r, a => if a = b then w else Memory.read r a

/-- Store a byte, keeping the canonical form. -/
def Memory.write (a : Nat) (v : Byte) : List Host.Cell → List Host.Cell
  | [] => if v = Memory.unlisted then [] else [(a, v)]
  | (b, w) :: r =>
    if a < b then (if v = Memory.unlisted then (b, w) :: r else (a, v) :: (b, w) :: r)
    else if a = b then (if v = Memory.unlisted then r else (a, v) :: r)
    else (b, w) :: Memory.write a v r

/-- Every address is at least `low`, the addresses rise, and no entry holds the unlisted byte. -/
def Memory.wfFrom : Nat → List Host.Cell → Bool
  | _, [] => true
  | low, (a, v) :: r => decide (low ≤ a) && v != Memory.unlisted && Memory.wfFrom (a + 1) r

/-- The canonical form. -/
def Memory.wf (m : List Host.Cell) : Bool := Memory.wfFrom 0 m

/-- Store bytes one after the other from an address on. -/
def Memory.writeAll (m : List Host.Cell) (a : Nat) : List Byte → List Host.Cell
  | [] => m
  | v :: r => Memory.writeAll (Memory.write a v m) (a + 1) r

/-- Store the cells the outside has written, in their order. -/
def Memory.apply (m : List Host.Cell) : List Host.Cell → List Host.Cell
  | [] => m
  | (a, v) :: r => Memory.apply (Memory.write a v m) r

/-- The bytes of `n` addresses from `a` on. -/
def Memory.readAll (m : List Host.Cell) (a : Nat) : Nat → List Byte
  | 0 => []
  | n + 1 => Memory.read m a :: Memory.readAll m (a + 1) n

/-! ## The bus -/

/-- The lowest of a list of addresses, with one already found. -/
def lowestOf : Option Nat → List Nat → Option Nat
  | m, [] => m
  | none, a :: r => lowestOf (some a) r
  | some m, a :: r => lowestOf (some (if a < m then a else m)) r

/-- The lowest address of an access of `n` bytes at `a` that the bus answers with an error: one the
environment fails, or one past the top of the 32-bit bus (logs 2, 8). -/
def State.busError (s : State) (a n : Nat) : Option Nat :=
  lowestOf (if 4294967296 < a + n ∧ 0 < n then some (if a < 4294967296 then 4294967296 else a) else none)
    (s.busErrors.filter fun x => decide (a ≤ x) && decide (x < a + n))

/-- The lowest address at which one of several accesses fails, each an address and a length. -/
def State.spansError (s : State) : List (Nat × Nat) → Option Nat
  | [] => none
  | (a, n) :: r => lowestOf (s.busError a n) (s.spansError r).toList

/-- Read `n` bytes at `a`: the bytes, or the address at which the access failed. -/
def State.busRead (s : State) (a n : Nat) : Except Nat (List Byte) :=
  match s.busError a n with
  | some bad => .error bad
  | none => .ok (Memory.readAll s.mem a n)

/-- Write bytes at `a`: the state after, and the address at which the access failed, if it did. A write that
fails stores nothing (log 9). -/
def State.busWrite (s : State) (a : Nat) (bytes : List Byte) : State × Option Nat :=
  match s.busError a bytes.length with
  | some bad => (s, some bad)
  | none => ({ s with mem := Memory.writeAll s.mem a bytes }, none)

/-! ## Time and the outside -/

/-- What happened outside the part since the command before: time passed, the outside wrote common memory,
and the bus fails these addresses in this step (logs 2, 3). -/
def State.arrive (s : State) (e : Env) : State :=
  { s with now := s.now + e.elapsed, mem := Memory.apply s.mem e.writes, busErrors := e.errors }

/-- A timer expires: the clock stands at its expiry or later (log 3). -/
def State.expireAt (s : State) (due : Nat) : State := { s with now := max s.now due }

/-- The blocks take their events: the part is RUNNING or RESETTING (01 Part states). -/
def State.active (s : State) : Bool := s.shc.part == .running || s.shc.part == .resetting

/-! ## Free values (log 33) -/

/-- Draw a word that the manual states no value for. -/
def State.drawWord (s : State) : Word × State := (Config.freeWord s.draws, { s with draws := s.draws + 1 })

/-! ## The slots -/

/-- The CSC of a slot. -/
def State.slot (s : State) : SlotId → Slot
  | .a => s.slotA
  | .b => s.slotB

/-- Replace the CSC of a slot. -/
def State.setSlot (s : State) (x : SlotId) (v : Slot) : State :=
  match x with
  | .a => { s with slotA := v }
  | .b => { s with slotB := v }

/-- The other slot. -/
def otherSlot : SlotId → SlotId
  | .a => .b
  | .b => .a

/-- A slot has a clip open: it is RECORDING or CLOSING. -/
def Slot.clipOpen (v : Slot) : Bool := v.st == .recording || v.st == .closing

/-- A clip is open on some slot. -/
def State.clipOpen (s : State) : Bool := s.slotA.clipOpen || s.slotB.clipOpen

/-- Some slot is RECORDING. -/
def State.anyRecording (s : State) : Bool := s.slotA.st == .recording || s.slotB.st == .recording

/-- Some slot is CLOSING. -/
def State.anyClosing (s : State) : Bool := s.slotA.st == .closing || s.slotB.st == .closing

/-! ## Copies of report parts -/

/-- A frame start is still on its way to a block. -/
def awaiting (f : FrameNo) (l : List FrameStart) : Bool := l.any fun x => x.opened.frame == f

/-- A copy for frame `f` may still be read: the report of `f` is in writing, or the SHC or the VFL has not yet
taken frame start `f` (R23, R24, R185). -/
def State.copyNeeded (s : State) (f : FrameNo) : Bool :=
  (s.shc.reports.any fun r => r.frame == f) || awaiting f s.shc.arriving
    || (s.shc.heldStart.any fun h => h.opened.frame == f) || awaiting f s.vfl.arriving

/-- Keep a copy for frame `f`, with those of the other frames that may still be read (R23). -/
def keepCopy {α : Type} (need : FrameNo → Bool) (f : FrameNo) (p : α) (l : List (Kept α)) : List (Kept α) :=
  ⟨f, p⟩ :: l.filter fun k => k.frame != f && need k.frame

/-- The part that belongs to frame `f`: the copy kept, else the part as it stands. -/
def offered {α : Type} (f : FrameNo) (current : α) (l : List (Kept α)) : α :=
  match l.find? fun k => k.frame == f with
  | some k => k.part
  | none => current

end Sys2Proof.Machine
end

