-- ==== Sys2Proof/Machine/Notices.lean ====
section
/-! DEFINITION. What other blocks move in the Viewfinder Link: its warning list and the tally outputs. -/

namespace Sys2Proof.Machine

/-! ## The Fault Log's sets, as others read them -/

/-- What the FLT holds for a kind. -/
def Flt.entry (f : Flt) (k : FaultKind) : FaultRec := f.kinds.getD (k.number - 1) (.reset .none none)

/-- Replace what the FLT holds for a kind. -/
def Flt.setEntry (f : Flt) (k : FaultKind) (r : FaultRec) : Flt :=
  { f with kinds := f.kinds.set (k.number - 1) r }

/-- A kind stands while it is in FIRST, in NEXT, or in both. -/
def Flt.stands (f : Flt) (k : FaultKind) : Bool := f.first == some k || (f.entry k).inNext

/-! ## Warnings -/

/-- The lowest priority in a list of warnings, 8 for none. -/
def lowestPriority : List Warning → Nat
  | [] => 8
  | [w] => w.priority
  | w :: r => min w.priority (lowestPriority r)

/-- Remove the first entry with priority `p`, which is the oldest. -/
def evict (p : Nat) : List Warning → List Warning
  | [] => []
  | w :: r => if w.priority = p then r else w :: evict p r

/-- Add a new entry: the list after, and whether the entry joined it (R195). -/
def joinWarnings (l : List Warning) (w : Warning) : List Warning × Bool :=
  if l.length < 16 then (l ++ [w], true)
  else if lowestPriority l < w.priority then (evict (lowestPriority l) l ++ [w], true)
  else (l, false)

/-- The list holds an entry with this code. -/
def hasWarning (l : List Warning) (code : Nat) : Bool := l.any fun w => w.code == code

/-- Replace the priority, text index and life of the entry with this code, in its place. -/
def refreshWarning (code priority text life : Nat) (l : List Warning) : List Warning :=
  l.map fun w => if w.code = code then { w with priority := priority, text := text, life := life } else w

/-- The notice that a kind has entered a set, with its mapping (R193, R195). -/
def Vfl.kindEntered (v : Vfl) (k : FaultKind) : Option Mapping → Vfl
  | none => v
  | some m =>
    if hasWarning v.warnings k.number then
      { v with warnings := refreshWarning k.number m.priority m.text 0 v.warnings }
    else
      let w : Warning := { code := k.number, priority := m.priority, text := m.text, posted := false, life := 0 }
      match joinWarnings v.warnings w with
      | (l, true) => { v with warnings := l }
      | (l, false) => { v with warnings := l, droppedWarnings := satSucc 65535 v.droppedWarnings }

/-- The notice that a kind has left both sets (R193). -/
def Vfl.kindLeft (v : Vfl) (k : FaultKind) : Vfl :=
  { v with warnings := v.warnings.filter fun w => w.code != k.number }

/-- Rebuild the warning list from the sets at the entry to RUNNING (R193). -/
def Vfl.rebuild (v : Vfl) (f : Flt) : Vfl :=
  let v1 := match f.first with
    | some k => v.kindEntered k (f.entry k).mapping
    | none => v
  (FaultKind.all.filter fun k => (f.entry k).inNext).foldl (fun w k => w.kindEntered k (f.entry k).mapping) v1

/-! ## Tally -/

/-- Card minutes below 2; none does not meet it (R197). -/
def minutesLow : Option Nat → Bool
  | some m => decide (m < 2)
  | none => false

/-- The automatic state of the tally outputs (R197). -/
def State.autoTally (s : State) : TallyState :=
  if s.anyRecording then
    if s.flt.stands .extentStarved || decide (75 < s.vfl.fill)
        || (s.slotA.st == .recording && minutesLow s.vfl.minutesA)
        || (s.slotB.st == .recording && minutesLow s.vfl.minutesB) then .blink
    else .on
  else .off

/-- The state that a setting gives (R197). -/
def TallySetting.state (auto : TallyState) : TallySetting → TallyState
  | .auto => auto
  | .off => .off
  | .on => .on
  | .blink => .blink

/-- Half the timecode count of the open frame's rate (R197). -/
def State.blinkHalf (s : State) : Nat := s.ftu.openRec.rate.count / 2

/-- Judge one output again (R197). `half` is given at a frame start, where an output that stays in BLINK counts on; a
count that a change of the rate has left beyond the wrap becomes 0 there (log 56). -/
def Tally.judge (auto : TallyState) (half : Option Nat) (t : Tally) : Tally :=
  let st := t.setting.state auto
  if st = .blink then
    if t.st = .blink then
      match half with
      | some h => { t with st := st, blinkCount := if t.blinkCount + 1 < 2 * h then t.blinkCount + 1 else 0 }
      | none => { t with st := st }
    else { t with st := st, blinkCount := 0 }
  else { t with st := st }

/-- Judge both outputs (R197). -/
def State.judgeTally (s : State) (half : Option Nat) : State :=
  { s with vfl := { s.vfl with front := s.vfl.front.judge s.autoTally half,
                               rear := s.vfl.rear.judge s.autoTally half } }

/-- The lamp of an output is lit (R197); both are dark while the part is not RUNNING or RESETTING. -/
def State.lamp (s : State) (t : Tally) : Bool :=
  s.active &&
    match t.st with
    | .on => true
    | .off => false
    | .blink => decide (t.blinkCount < s.blinkHalf)

/-! ## A slot changes its state -/

/-- The guard as the slots move it (R170): ARMED and a slot entering RECORDING makes it WATCHING; WATCHING
and no clip open makes it ARMED. -/
def GuardState.follow (entered : Bool) (clipOpen : Bool) : GuardState → GuardState
  | .armed => if entered then .watching else .armed
  | .watching => if clipOpen then .watching else .armed
  | g => g

/-- Put the slot in a state. The guard follows (R170); the tally outputs are judged at the end of the step
(`State.judgeSlots`). -/
def State.setSlotState (s : State) (x : SlotId) (st : SlotState) : State :=
  let old := (s.slot x).st
  let s1 := s.setSlot x { s.slot x with st := st }
  { s1 with cgd := { s1.cgd with
    st := s1.cgd.st.follow (st == .recording && old != .recording) s1.clipOpen } }

/-- Each slot is RECORDING in one state if and only if it is in the other. -/
def State.sameRecording (s t : State) : Bool :=
  (s.slotA.st == .recording) == (t.slotA.st == .recording) && (s.slotB.st == .recording) == (t.slotB.st == .recording)

/-- The end of a step that began in `before`: the tally outputs are judged once if a slot has entered or left
RECORDING in it (R197). -/
def State.judgeSlots (s before : State) : State := if s.sameRecording before then s else s.judgeTally none

end Sys2Proof.Machine
end

