-- ==== Sys2Proof/Machine/FaultLog.lean ====
section
/-! DEFINITION. Completions of tagged orders (R20) and fault occurrences (R201 to R204): one operation each,
shared by every block. -/

namespace Sys2Proof.Machine

/-! ## Tags -/

/-- The record of a tag 1 to 32. -/
def State.tagRec (s : State) (tag : Nat) : TagRec := s.shc.tags.getD (tag - 1) .free

/-- Replace the record of a tag 1 to 32; a tag of 0 names no record. -/
def State.setTag (s : State) (tag : Nat) (r : TagRec) : State :=
  if tag = 0 then s else { s with shc := { s.shc with tags := s.shc.tags.set (tag - 1) r } }

/-- The current frame number: the FTU's frame counter. -/
def State.frame (s : State) : FrameNo := s.ftu.counter

/-- The tag was made IN_FLIGHT by the sheet in dispatch, whose results are not yet written (R17); 0 names none. -/
def State.openedByJob (s : State) (tag : Nat) : Bool :=
  match s.shc.job with
  | some j => tag != 0 && j.opened.contains tag
  | none => false

/-- A completion waits for the results of the sheet in dispatch (R17, log 42). -/
def State.waitLate (s : State) (h : HeldCompletion) : State :=
  { s with shc := { s.shc with job := s.shc.job.map fun j => { j with late := j.late ++ [h] } } }

/-- A kind's capture record is cleared (R208): a completion still waiting that was to be held by it finds that record no
more, and goes without hold, whatever fills the record then (R203, log 42). -/
def State.dropHolds (s : State) (k : FaultKind) : State :=
  { s with shc := { s.shc with job := s.shc.job.map fun j =>
      { j with late := j.late.map fun h => if h.hold = some k then { h with hold := none } else h } } }

/-- The capture record of a kind can take a tag: the kind stands and the record names none (R203). -/
def Flt.takesTag (f : Flt) (k : FaultKind) : Bool := f.stands k && (f.entry k).capture.tag == 0

/-- The capture record of a kind names a tag (R203). -/
def Flt.nameTag (f : Flt) (k : FaultKind) (tag : Nat) : Flt :=
  f.setEntry k { f.entry k with capture := { (f.entry k).capture with tag := tag } }

/-- The tag's record after a completion (R20). -/
def TagRec.completed (r : TagRec) (st : TagState) (c : Completion) (frame : FrameNo) : TagRec :=
  { r with st := st, outcome := c.outcome, word1 := c.word1, word2 := c.word2, word3 := c.word3, frame := frame }

/-- A tag is IN_FLIGHT; 0 names none. -/
def State.inFlight (s : State) (tag : Nat) : Bool := tag != 0 && (s.tagRec tag).st == .inFlight

/-- The SHC takes a completion for an IN_FLIGHT tag; any other it discards (R20). With hold the tag becomes HELD, and
the capture record takes it in the same step (R203). -/
def State.recordCompletion (s : State) (h : HeldCompletion) : State :=
  let c := h.completion
  if s.inFlight c.tag then
    match h.hold with
    | some k =>
      if s.flt.takesTag k then
        { s.setTag c.tag ((s.tagRec c.tag).completed .held c s.frame) with flt := s.flt.nameTag k c.tag }
      else s.setTag c.tag ((s.tagRec c.tag).completed .done c s.frame)
    | none => s.setTag c.tag ((s.tagRec c.tag).completed .done c s.frame)
  else s

/-- A completion reaches the SHC: it is taken, or it waits for the results of the sheet in dispatch when an entry
of that sheet made the tag IN_FLIGHT (R17, R20). -/
def State.complete (s : State) (h : HeldCompletion) : State :=
  if s.openedByJob h.completion.tag then s.waitLate h else s.recordCompletion h

/-- The completions that waited reach the tag table, in order (R17). -/
def State.takeLate (s : State) (l : List HeldCompletion) : State := l.foldl State.recordCompletion s

/-- A completion sent from its owning block, without hold; a tag of 0 is none. -/
def State.endTag (s : State) (tag : Nat) (outcome : TagOutcome) (w1 w2 w3 : Word) : State :=
  s.complete ⟨none, tag, outcome, w1, w2, w3⟩

/-- An order is accepted with a tag (R19). -/
def State.openTag (s : State) (tag : Nat) (kind : Byte) : State :=
  s.setTag tag { TagRec.free with st := .inFlight, kind := kind }

/-! ## Occurrences -/

/-- An occurrence (R201). -/
structure Occurrence where
  kind : FaultKind
  source : FaultSource
  detail1 : Word
  detail2 : Word
  completion : Option Completion
  deriving DecidableEq, Repr

/-- The kind enters a set by an occurrence: FIRST when it holds none, else NEXT when not yet in it (R202). -/
def Flt.enters (f : Flt) (k : FaultKind) : Bool := f.first == none || !(f.entry k).inNext

/-- The first step: count and place in the sets (R202). -/
def Flt.countAndPlace (f : Flt) (k : FaultKind) : Flt :=
  let r := { f.entry k with count := satSucc 255 (f.entry k).count }
  match f.first with
  | none => { (f.setEntry k r) with first := some k }
  | some _ => f.setEntry k { r with inNext := true }

/-- Notices go to the VFL while it takes events (R199, 09). -/
def State.noticeEntered (s : State) (k : FaultKind) : State :=
  if s.active then { s with vfl := s.vfl.kindEntered k (s.flt.entry k).mapping } else s

/-- The capture record that an occurrence fills, naming no tag yet (R203). -/
def State.captureOf (s : State) (o : Occurrence) : Capture :=
  { frame := s.frame, source := o.source, detail1 := o.detail1, detail2 := o.detail2, tag := 0 }

/-- The second step: fill the capture of a kind that did not stand, and send the completion on, with hold when the
record was filled (R203). -/
def State.capture (s : State) (stood : Bool) (o : Occurrence) : State :=
  let s1 := if stood then s else
    { s with flt := s.flt.setEntry o.kind { s.flt.entry o.kind with capture := s.captureOf o } }
  match o.completion with
  | none => s1
  | some c => s1.complete ⟨if stood then none else some o.kind, c⟩

/-- The third step: a SAFE_STOP route with the enable set asks for a safe stop, for every kind but GUARD_TRIP
(R204). -/
def State.route (s : State) (k : FaultKind) : State :=
  if (s.flt.entry k).route = .safeStop ∧ k ≠ .guardTrip ∧ s.stop.enable = true then
    { s with stop := { s.stop with requests := s.stop.requests ++ [.fault k] } }
  else s

/-- The FLT takes an occurrence whole (R201 to R204). ATTENTION.FAULT is not stored (R205). -/
def State.occur (s : State) (o : Occurrence) : State :=
  let stood := s.flt.stands o.kind
  let enters := s.flt.enters o.kind
  let s1 := { s with flt := s.flt.countAndPlace o.kind }
  let s2 := if enters then s1.noticeEntered o.kind else s1
  (s2.capture stood o).route o.kind

/-- An occurrence without a completion. -/
def State.fault (s : State) (k : FaultKind) (source : FaultSource) (d1 d2 : Word) : State :=
  s.occur ⟨k, source, d1, d2, none⟩

/-! ## COMMON_BUS -/

/-- The blocks that reach common memory, with their codes (R201). -/
inductive BusBlock where
  | shc | ldu | acu | sta | cscA | cscB | vfl
  deriving DecidableEq, Repr

def BusBlock.code : BusBlock → Nat
  | .shc => 1 | .ldu => 2 | .acu => 3 | .sta => 4 | .cscA => 5 | .cscB => 6 | .vfl => 7

/-- The CSC of a slot is the source, and no other block is (R201). -/
def BusBlock.source : BusBlock → FaultSource
  | .cscA => .slotA
  | .cscB => .slotB
  | _ => .none

/-- A common bus error at an address (R201). -/
def State.busFault (s : State) (b : BusBlock) (address : Nat) : State :=
  s.fault .commonBus b.source (wordOfNat b.code) (wordOfNat address)

/-- A write by a block: a bus error is logged and the block goes on; the answer says whether the write
stands. -/
def State.blockWrite (s : State) (b : BusBlock) (a : Nat) (bytes : List Byte) : State × Bool :=
  match s.busWrite a bytes with
  | (s1, none) => (s1, true)
  | (s1, some bad) => (s1.busFault b bad, false)

/-- A slot as the source of an occurrence. -/
def slotSource : SlotId → FaultSource
  | .a => .slotA
  | .b => .slotB

/-- A slot's CSC on the bus. -/
def slotBus : SlotId → BusBlock
  | .a => .cscA
  | .b => .cscB

end Sys2Proof.Machine
end

