-- ==== Sys2Proof/Machine/Guard.lean ====
section
/-! DEFINITION. The Continuity Guard (08: R170 to R176). -/

namespace Sys2Proof.Machine

/-- Replace the CGD. -/
def State.setCgd (s : State) (c : Cgd) : State := { s with cgd := c }

/-- The other keep word (R173). -/
def otherKeepWord (w : Word) : Word := if w = 0x6E19#32 then 0x91E6#32 else 0x6E19#32

/-- A request to Safe Stop, taken at the end of the step (log 14). -/
def State.askStop (s : State) (r : StopSource) : State :=
  { s with stop := { s.stop with requests := s.stop.requests ++ [r] } }

/-- The guard trips (R175): cause 1 for a keep word, 2 for starvation. -/
def State.trip (s : State) (cause detail : Word) : State :=
  ((s.setCgd { s.cgd with st := .tripped }).askStop .guard).fault .guardTrip .none cause detail

/-- A keep word that is equal to the expected: the other is expected next, and starvation ends (R173). -/
def Cgd.accept (c : Cgd) : Cgd :=
  { c with expected := otherKeepWord c.expected, count := 0, starved := false }

/-- The CGD takes the keep word of a taken sheet; the answer says whether the sheet is refused (R173). -/
def State.keepWord (s : State) (w : Word) : State × Bool :=
  let c := s.cgd
  match c.st with
  | .armed =>
    if w = c.expected then (s.setCgd c.accept, false)
    else (s.fault .guardKey .none w c.expected, false)
  | .watching => if w = c.expected then (s.setCgd c.accept, false) else (s.trip 1 w, true)
  | _ => (s, false)

/-- A starvation frame (R174). -/
def State.starve (s : State) : State :=
  let n := satSucc 65535 s.cgd.count
  if s.shc.part ≠ .running then s
  else
    match s.cgd.st with
    | .armed =>
      if n = s.cgd.limit ∧ s.cgd.starved = false then
        (s.setCgd { s.cgd with count := n, starved := true }).fault .guardStarved .none (wordOfNat n)
          (wordOfNat s.cgd.limit)
      else s.setCgd { s.cgd with count := n }
    | .watching =>
      let s1 := s.setCgd { s.cgd with count := n }
      if s.cgd.limit ≤ n then s1.trip 2 (wordOfNat n) else s1
    | _ => s

/-- The guard part of the report as it stands (R176). -/
def Cgd.part (c : Cgd) : GuardPart := ⟨c.st, c.count⟩

/-- The SHC's own part of the report as it stands (R22). -/
def Shc.ownPart (c : Shc) : ShcPart := ⟨c.part, c.tags⟩

/-- Safe Stop's fields of the report as they stand (R182). -/
def SafeStop.part (p : SafeStop) : StopPart := ⟨p.stopping, p.enable, p.record⟩

/-- A sheet taken at a frame is still in dispatch. -/
def Shc.dispatches (c : Shc) (f : FrameNo) : Bool := c.job.any fun j => j.frame == f

/-- The SHC takes a frame start: it, the CGD and Safe Stop keep their copies for the frame that ends (R23, log 11).
While the sheet taken at the frame that ends is in dispatch the SHC keeps none yet, for the tag table of that report
is written after the sheet is RETURNED (R22): `State.returnSheet` keeps it then. -/
def State.keepParts (s : State) (ended : FrameNo) : State :=
  { s with
    shc := { s.shc with
      kept := if s.shc.dispatches ended then s.shc.kept
        else keepCopy s.copyNeeded ended s.shc.ownPart s.shc.kept }
    cgd := { s.cgd with kept := keepCopy s.copyNeeded ended s.cgd.part s.cgd.kept }
    stop := { s.stop with kept := keepCopy s.copyNeeded ended s.stop.part s.stop.kept } }

end Sys2Proof.Machine
end

