-- ==== Sys2Proof/Machine/AudioTables.lean ====
section
/-! DEFINITION. The tables of the audio chain (R102 to R105), worked out from the formulas of their rules with
exact rounding. -/

namespace Sys2Proof.Machine

/-- g of gain index 0 to 84 (R103). -/
def gainTable : List Int :=
  [16462, 17437, 18471, 19565, 20724, 21952, 23253, 24631, 26090, 27636, 29274, 31008] ++
  [32846, 34792, 36854, 39037, 41350, 43801, 46396, 49145, 52057, 55142, 58409, 61870] ++
  [65536, 69419, 73533, 77890, 82505, 87394, 92572, 98057, 103868, 110022, 116541, 123447] ++
  [130762, 138510, 146717, 155410, 164619, 174373, 184706, 195650, 207243, 219523, 232531, 246309] ++
  [260904, 276363, 292739, 310084, 328458, 347920, 368536, 390373, 413504, 438006, 463959, 491451] ++
  [520571, 551417, 584090, 618700, 655360, 694193, 735326, 778897, 825049, 873937, 925721, 980573] ++
  [1038676, 1100221, 1165413, 1234468, 1307615, 1385096, 1467168, 1554103, 1646190, 1743733, 1847055, 1956500] ++
  [2072430]

/-- T of threshold −20 to 0 dBFS (R104). -/
def limitTable : List Int :=
  [838861, 941217, 1056063, 1184922, 1329505, 1491729, 1673747, 1877975, 2107123, 2364231, 2652710, 2976390] ++
  [3339565, 3747053, 4204263, 4717260, 5292853, 5938679, 6663307, 7476354, 8388607]

/-- M[1] to M[120] (R105). -/
def meterTable : List Nat :=
  [8886, 9412, 9970, 10561, 11186, 11849, 12551, 13295, 14083, 14917, 15801, 16737] ++
  [17729, 18780, 19893, 21071, 22320, 23642, 25043, 26527, 28099, 29764, 31528, 33396] ++
  [35374, 37471, 39691, 42043, 44534, 47173, 49968, 52929, 56065, 59387, 62906, 66633] ++
  [70581, 74764, 79194, 83886, 88857, 94122, 99699, 105606, 111864, 118492, 125513, 132950] ++
  [140828, 149173, 158012, 167375, 177292, 187798, 198925, 210712, 223198, 236423, 250432, 265271] ++
  [280989, 297639, 315275, 333956, 353745, 374705, 396908, 420426, 445338, 471726, 499678, 529285] ++
  [560647, 593868, 629057, 666331, 705813, 747635, 791936, 838861, 888566, 941217, 996988, 1056063] ++
  [1118639, 1184922, 1255133, 1329505, 1408283, 1491729, 1580119, 1673747, 1772923, 1877975, 1989252, 2107123] ++
  [2231978, 2364231, 2504320, 2652710, 2809893, 2976390, 3152752, 3339565, 3537446, 3747053, 3969080, 4204263] ++
  [4453381, 4717260, 4996776, 5292853, 5606474, 5938679, 6290568, 6663307, 7058133, 7476354, 7919356, 8388607]

/-- The tone at −20 dBFS, entries 0 to 47 (R102). -/
def toneTable20 : List Int :=
  [0, 109493, 217113, 321018, 419431, 510666, 593164, 665513, 726475, 775007, 810278, 831684] ++
  [838861, 831684, 810278, 775007, 726475, 665513, 593164, 510666, 419431, 321018, 217113, 109493] ++
  [0, -109493, -217113, -321018, -419431, -510666, -593164, -665513, -726475, -775007, -810278, -831684] ++
  [-838861, -831684, -810278, -775007, -726475, -665513, -593164, -510666, -419431, -321018, -217113, -109493]

/-- The tone at −18 dBFS, entries 0 to 47 (R102). -/
def toneTable18 : List Int :=
  [0, 137844, 273329, 404138, 528032, 642890, 746749, 837831, 914577, 975675, 1020079, 1047028] ++
  [1056063, 1047028, 1020079, 975675, 914577, 837831, 746749, 642890, 528032, 404138, 273329, 137844] ++
  [0, -137844, -273329, -404138, -528032, -642890, -746749, -837831, -914577, -975675, -1020079, -1047028] ++
  [-1056063, -1047028, -1020079, -975675, -914577, -837831, -746749, -642890, -528032, -404138, -273329, -137844]

end Sys2Proof.Machine
end

