-- ==== Sys2Proof/Machine/Retention.lean ====
section
/-! DEFINITION. The group index, what the stream buffer holds, what pre-record retains, and the release of
records that nothing needs (R128 to R132). -/

namespace Sys2Proof.Machine

/-! ## The stream buffer -/

/-- The stream buffer's size in bytes. -/
def State.bufferSize (s : State) : Nat := s.shc.streamSize.toNat

/-- The bytes held: from the oldest index record's start up to the write position (R130). -/
def State.bytesHeld (s : State) : Nat :=
  match s.sta.index with
  | [] => 0
  | r :: _ =>
    let d := (s.sta.writePos + s.bufferSize - r.offset) % s.bufferSize
    if d = 0 then s.bufferSize else d

/-- The free space (R130). -/
def State.freeSpace (s : State) : Nat := s.bufferSize - s.bytesHeld

/-- The stream fill in percent (R130). -/
def State.streamFill (s : State) : Nat := s.bytesHeld * 100 / s.bufferSize

/-- The average of the length history, none with the history empty (R129). -/
def averageLength (history : List Nat) : Option Nat :=
  if history.isEmpty then none else some (history.sum / history.length)

/-! ## Retention -/

/-- A frame is newer than the retention floor; with no floor every frame is. -/
def aboveFloor (floor : Option FrameNo) (f : FrameNo) : Bool :=
  match floor with
  | none => true
  | some g => olderFrame g f

/-- The newest `n` of a list. -/
def newest {α : Type} (n : Nat) (l : List α) : List α := l.drop (l.length - n)

/-- The records that pre-record retention holds (R132). -/
def State.retained (s : State) : List IndexRec :=
  if s.sta.preOn && !s.clipOpen then
    newest s.sta.preCount (s.sta.index.filter fun r => aboveFloor s.sta.floor r.frame)
  else []

/-- Raise the floor: the newer of its value and a frame number (R132). -/
def raiseFloor (floor : Option FrameNo) (f : FrameNo) : Option FrameNo :=
  match floor with
  | none => some f
  | some g => if olderFrame g f then some f else some g

/-- Raise the STA's floor, when a frame number is given. -/
def State.raiseFloor (s : State) : Option FrameNo → State
  | none => s
  | some f => { s with sta := { s.sta with floor := Machine.raiseFloor s.sta.floor f } }

/-! ## Readers -/

/-- The reader has sent and had answered the last byte of group `f`: the group was placed, and no item of it
ends past the bytes answered OK (R154). -/
def Clip.passed (c : Clip) (f : FrameNo) : Bool :=
  olderFrame f c.next &&
    !(c.items.any fun i => match i.source with
      | .group g _ => g == f && decide (c.acked < i.start + i.length)
      | .own _ => false)

/-- The reader of a clip needs the record of group `f`: it lies from the start frame to the end point, and
its last byte has not been answered (R128). -/
def Clip.needs (c : Clip) (f : FrameNo) : Bool :=
  notNewer c.first f
    && (match c.endPoint with
        | some e => notNewer f e
        | none => true)
    && !c.passed f

/-- A slot's reader needs the record of group `f`. -/
def Slot.needs (v : Slot) (f : FrameNo) : Bool :=
  match v.clip with
  | some c => c.needs f
  | none => false

/-- An index record is needed (R128). -/
def State.needed (s : State) (r : IndexRec) : Bool :=
  s.slotA.needs r.frame || s.slotB.needs r.frame || s.retained.any fun k => k.frame == r.frame

/-- Release the oldest records while they are not needed (R128). -/
def State.release (s : State) : State :=
  { s with sta := { s.sta with index := s.sta.index.dropWhile fun r => !s.needed r } }

end Sys2Proof.Machine
end

