-- ==== Sys2Proof/Machine/Frame.lean ====
section
/-! DEFINITION. The Frame Timing Unit (02): formats, timecode, frame starts, the flywheel and the frame
pulse. -/

namespace Sys2Proof.Machine

/-! ## Formats (R25) -/

/-- The nominal period in µs (R25). -/
def Rate.period : Rate → Nat
  | .r23 => 41708 | .r24 => 41667 | .r25 => 40000 | .r29 => 33367 | .r50 => 20000 | .r59 => 16683

/-- Drop-frame is allowed (R25). -/
def Rate.allowsDrop : Rate → Bool
  | .r29 => true
  | .r59 => true
  | _ => false

/-- The rate of a code 0 to 5. -/
def rateOf : Nat → Option Rate
  | 0 => some .r23 | 1 => some .r24 | 2 => some .r25 | 3 => some .r29 | 4 => some .r50 | 5 => some .r59
  | _ => none

/-- The thresholds of R25: N times a percentage, floored. -/
def Rate.halfPeriod (r : Rate) : Nat := r.period * 50 / 100
def Rate.earlyLimit (r : Rate) : Nat := r.period * 98 / 100
def Rate.upperTolerance (r : Rate) : Nat := r.period * 102 / 100
def Rate.flywheelLimit (r : Rate) : Nat := r.period * 103 / 100

/-- A pulse interval is within tolerance (R25). -/
def Rate.tolerates (r : Rate) (interval : Nat) : Bool :=
  decide (r.earlyLimit ≤ interval) && decide (interval ≤ r.upperTolerance)

/-- The audio sets belonging to a frame (R39). -/
def Rate.cadence : Rate → Nat → Nat
  | .r23, _ => 2002
  | .r24, _ => 2000
  | .r25, _ => 1920
  | .r29, i => if i % 2 = 0 then 1602 else 1601
  | .r50, _ => 960
  | .r59, i => if i = 4 then 800 else 801

/-! ## Timecode (R35) -/

/-- The frame numbers skipped at second 0 of a minute that is not a multiple of 10. -/
def Format.skipped (f : Format) : Nat :=
  if f.drop then (match f.rate with | .r29 => 2 | .r59 => 4 | _ => 0) else 0

/-- A timecode carries a skipped number. -/
def Timecode.isSkipped (t : Timecode) (f : Format) : Bool :=
  decide (t.frames < f.skipped) && t.seconds == 0 && t.minutes % 10 != 0

/-- Move a skipped number to the first valid frame of its second. -/
def Timecode.unskip (t : Timecode) (f : Format) : Timecode :=
  if t.isSkipped f then { t with frames := f.skipped } else t

/-- Bring a timecode into a format's counting without advancing it (R27, R37). -/
def Timecode.bringIn (t : Timecode) (f : Format) : Timecode :=
  ({ t with frames := min t.frames (f.rate.count - 1) } : Timecode).unskip f

/-- Advance by one frame (R35). -/
def Timecode.advance (t : Timecode) (f : Format) : Timecode :=
  if t.frames + 1 < f.rate.count then { t with frames := t.frames + 1 }
  else if t.seconds + 1 < 60 then { t with frames := 0, seconds := t.seconds + 1 }
  else if t.minutes + 1 < 60 then
    ({ t with frames := 0, seconds := 0, minutes := t.minutes + 1 } : Timecode).unskip f
  else if t.hours + 1 < 24 then { hours := t.hours + 1, minutes := 0, seconds := 0, frames := 0 }
  else .zero

/-- The four bytes of a timecode, frames first (R215). -/
def Timecode.bytes (t : Timecode) : List Byte :=
  [BitVec.ofNat 8 t.frames, BitVec.ofNat 8 t.seconds, BitVec.ofNat 8 t.minutes, BitVec.ofNat 8 t.hours]

/-! ## The frame start (R34) -/

/-- The counting condition (R36). -/
def State.counts (s : State) : Bool :=
  match s.ftu.mode with
  | .freeRun => true
  | .recordRun => s.anyRecording

/-- The format that will be in force at the next frame start. -/
def Ftu.nextFormat (f : Ftu) : Format := f.pendingFormat.getD f.format

/-- The frame to be opened is a BREAK frame: frame 1 after the entry to RUNNING, a format change or a timecode
load (R34). -/
def Ftu.breaks (f : Ftu) : Bool := !f.started || f.pendingFormat.isSome || f.pendingTc.isSome

/-- The timecode of the frame to be opened (R27, R35 to R37). -/
def Ftu.nextTc (f : Ftu) (counts : Bool) : Timecode :=
  match f.pendingTc with
  | some t => t.bringIn f.nextFormat
  | none =>
    if f.pendingFormat.isSome then f.tc.bringIn f.nextFormat
    else if f.started && counts then f.tc.advance f.format
    else f.tc

/-- The cadence index of the frame to be opened (R39). -/
def Ftu.nextCadence (f : Ftu) : Nat :=
  if !f.started || f.pendingFormat.isSome then 0 else (f.openRec.cadIndex + 1) % 5

/-- The holdover mark after a pending format has taken effect (R27). -/
def Ftu.nextHoldover (f : Ftu) : Bool := f.holdover && f.pendingFormat.isNone

/-- The record of the frame to be opened (R34). -/
def Ftu.nextRec (f : Ftu) (counts : Bool) : FrameRec :=
  { frame := f.counter + 1
    tc := f.nextTc counts
    drop := f.nextFormat.drop
    run := counts
    brk := f.breaks
    lost := f.nextHoldover
    rate := f.nextFormat.rate
    cadIndex := f.nextCadence
    cadCount := f.nextFormat.rate.cadence f.nextCadence }

/-- The FTU makes a frame start: the counter, a pending format (R27), a pending load (R37), the records. The
copy of its report part for the frame that ends is kept (log 11). -/
def Ftu.makeFrame (f : Ftu) (now : Nat) (counts : Bool) (need : FrameNo → Bool) : Ftu :=
  let change := f.pendingFormat.isSome
  { f with
    counter := f.counter + 1
    format := f.nextFormat
    pendingFormat := none
    lock := if change then .free else f.lock
    good := if change then 0 else f.good
    holdover := f.nextHoldover
    lastStart := now
    tc := f.nextTc counts
    pendingTc := none
    endedRec := f.openRec
    openRec := f.nextRec counts
    started := true
    kept := keepCopy need f.counter ⟨f.tc, f.lock⟩ f.kept }

/-- The frame start goes on to a block (log 10). -/
def pushStart (l : List FrameStart) (x : FrameStart) : List FrameStart := l ++ [x]

/-- An axis in the lens part of the report (R71). -/
def Ldu.axisPart (a : Axis) (manual : Bool) (actual : Int) : AxisPart := ⟨a.st, manual, a.sent, actual⟩

/-- The code and the index of the shot state, the index 0 when IDLE (R71). -/
def ShotState.code : ShotState → Nat × Nat
  | .idle => (0, 0)
  | .gliding n _ _ => (1, n)
  | .dwelling n _ _ => (2, n)
  | .holding n => (3, n)

/-- The lens part of the report as it stands (R71). -/
def Ldu.part (l : Ldu) : LensPart :=
  { link := l.link, owner := l.owner, lockout := l.lockout, tracking := l.tracking,
    scaleValid := l.scale.valid, trackingValid := l.track.valid,
    shotCode := l.shot.code.1, shotIndex := l.shot.code.2, surge := l.surge, rocker := l.view.rocker,
    ignored := l.ignored,
    zoom := Ldu.axisPart l.zoom false l.view.zoom,
    focus := Ldu.axisPart l.focus l.view.focusManual l.view.focus,
    iris := Ldu.axisPart l.iris l.view.irisManual l.view.iris }

/-- A slot's unused sectors: from the current extent's position to its end, and all queued (R168). -/
def Slot.unused (v : Slot) : Nat :=
  (match v.current with
   | some c => c.extent.start + c.extent.count - c.pos
   | none => 0) + (v.queue.map fun e => e.count).sum

/-- A slot's part of the report as it stands (R168). -/
def Slot.part (v : Slot) : SlotPart :=
  { st := v.st, releasePending := v.releasePending
    clipId := match v.clip with | some c => c.id | none => 0
    recorded := match v.clip with | some c => c.recorded | none => 0
    position := v.current.map fun c => c.pos
    queued := v.queue.length, capacity := v.capacity
    sectorsRead := if v.st = .scanning then v.scan.sectorsRead else 0
    badBlocks := if v.st = .scanning then v.scan.badBlocks else 0
    unused := v.unused }

/-- The deck's part of the report as it stands (R168). -/
def Deck.part (d : Deck) : DeckPart := ⟨d.mode, d.slot, d.relayId⟩

/-- The frame start passes the LDU and the CSCs: each keeps a copy of its report part for the frame that ends
(R23, log 11). -/
def State.keepAtFrame (s : State) (ended : FrameNo) : State :=
  { s with
    ldu := { s.ldu with kept := keepCopy s.copyNeeded ended s.ldu.part s.ldu.kept }
    slotA := { s.slotA with kept := keepCopy s.copyNeeded ended s.slotA.part s.slotA.kept }
    slotB := { s.slotB with kept := keepCopy s.copyNeeded ended s.slotB.part s.slotB.kept }
    deck := { s.deck with kept := keepCopy s.copyNeeded ended s.deck.part s.deck.kept } }

/-- A load has taken effect with pre-record on: the STA discards what it retained before the break (R132). -/
def State.discardRetained (s : State) (ended : FrameNo) : State :=
  if s.sta.preOn then (s.raiseFloor (some ended)).release else s

/-- The FTU makes a frame start, which goes on to the other blocks (R34). -/
def State.makeFrameStart (s : State) : State :=
  let load := s.ftu.pendingTc.isSome
  let first := !s.ftu.started
  let ended := s.ftu.counter
  let f := s.ftu.makeFrame s.now s.counts s.copyNeeded
  let x : FrameStart := ⟨f.openRec, f.endedRec, first⟩
  let s1 := { (s.keepAtFrame ended) with ftu := f }
  let s2 := { s1 with
    shc := { s1.shc with arriving := pushStart s1.shc.arriving x }
    mst := { s1.mst with arriving := pushStart s1.mst.arriving x }
    acu := { s1.acu with arriving := pushStart s1.acu.arriving x }
    sta := { s1.sta with arriving := pushStart s1.sta.arriving x }
    vfl := { s1.vfl with arriving := pushStart s1.vfl.arriving x } }
  if load then s2.discardRetained ended else s2

/-! ## The flywheel (R28, R29, R31) -/

/-- Load the flywheel with a period from now. -/
def State.loadFlywheel (s : State) (period : Nat) : State :=
  { s with ftu := { s.ftu with flywheel := some (s.now + period) } }

/-- The µs since the last pulse. -/
def State.sinceLastPulse (s : State) : Nat := s.now - s.ftu.lastPulse

/-- The µs since the last frame start. -/
def State.sinceFrameStart (s : State) : Nat := s.now - s.ftu.lastStart

/-- The flywheel has expired. In LOCKED the reference is lost (R31); in LOCKING the second flywheel frame
start since the last pulse returns to FREE (R29); each time it is loaded with N again. -/
def State.flywheelExpires (s : State) : State :=
  match s.ftu.lock with
  | .locked =>
    let d1 := s.ftu.lastPulseFrame
    let d2 := wordOfNat s.sinceLastPulse
    let s1 := ({ s with ftu := { s.ftu with holdover := true } }).makeFrameStart
    let s2 := { s1 with ftu := { s1.ftu with lock := .free, good := 0 } }
    (s2.loadFlywheel s2.ftu.format.rate.period).fault .refLost .none d1 d2
  | .locking =>
    let s1 := s.makeFrameStart
    let s2 :=
      if 0 < s1.ftu.sincePulse then { s1 with ftu := { s1.ftu with lock := .free, good := 0 } }
      else { s1 with ftu := { s1.ftu with sincePulse := s1.ftu.sincePulse + 1 } }
    s2.loadFlywheel s2.ftu.format.rate.period
  | .free =>
    let s1 := s.makeFrameStart
    s1.loadFlywheel s1.ftu.format.rate.period

/-! ## The frame pulse (R28 to R32) -/

/-- A frame start made by a pulse: the flywheel is loaded with the flywheel limit, or with N when a format
change has made the FTU FREE (R27, log 20). -/
def State.pulseFrame (s : State) : State :=
  let s1 := s.makeFrameStart
  let s2 := { s1 with ftu := { s1.ftu with lastPulseFrame := s1.ftu.counter } }
  s2.loadFlywheel (if s2.ftu.lock = .free then s2.ftu.format.rate.period else s2.ftu.format.rate.flywheelLimit)

/-- The pulse's time becomes the time of the last pulse. -/
def State.notePulse (s : State) (good : Nat) : State :=
  { s with ftu := { s.ftu with lastPulse := s.now, sincePulse := 0, good := good } }

/-- The locking pulse (R30). The holdover mark is cleared before a frame start it makes, so that frame carries no LOST
(log 60). -/
def State.lockAt (s : State) : State :=
  let late := decide (s.ftu.format.rate.halfPeriod ≤ s.sinceFrameStart)
  let s1 := { s with ftu := { s.ftu with lock := .locked, holdover := false } }
  if late then s1.pulseFrame else s1.loadFlywheel s1.ftu.format.rate.flywheelLimit

/-- An early pulse in LOCKED (R32). Under RESTART the frame start is made before REF_EARLY is logged, so the capture
holds the number of the frame it opens (log 45). -/
def State.earlyPulse (s : State) : State :=
  let since := s.sinceFrameStart
  let s1 :=
    match s.ftu.policy with
    | .ignore => { s with ftu := { s.ftu with droppedPulses := satSucc 65535 s.ftu.droppedPulses } }
    | .restart => s.pulseFrame
  s1.fault .refEarly .none (wordOfNat since) (wordOfNat s1.ftu.droppedPulses)

/-- A pulse arrives on the frame pulse input (R28 to R32). Every pulse in LOCKED, an ignored one too, is the last pulse
for REF_LOST (log 59). -/
def State.pulse (s : State) : State :=
  match s.ftu.lock with
  | .free =>
    let s1 := s.notePulse 1
    { s1 with ftu := { s1.ftu with lock := .locking } }
  | .locking =>
    if s.ftu.format.rate.tolerates s.sinceLastPulse then
      let s1 := s.notePulse (s.ftu.good + 1)
      if s1.ftu.good < 3 then s1 else s1.lockAt
    else s.notePulse 1
  | .locked =>
    let s1 := s.notePulse s.ftu.good
    if s.ftu.format.rate.earlyLimit ≤ s.sinceFrameStart then s1.pulseFrame else s1.earlyPulse

end Sys2Proof.Machine
end

