-- ==== Sys2Proof/Machine/Lens.lean ====
section
/-! DEFINITION. The Lens Drive Unit (03): axes and moves, the zoom claim, tables, shots and the lens update. -/

namespace Sys2Proof.Machine

/-! ## Axes -/

/-- The axis maximum in position units (R48). -/
def AxisId.max : AxisId → Int
  | .zoom => 4095
  | .focus => 4095
  | .iris => 1023

/-- vmax (R47). -/
def AxisId.vmax : AxisId → Int
  | .zoom => 4000
  | .focus => 4000
  | .iris => 2000

/-- The source of an occurrence on an axis (R63). -/
def AxisId.source : AxisId → FaultSource
  | .zoom => .zoom
  | .focus => .focus
  | .iris => .iris

/-- The record of an axis. -/
def Ldu.axis (l : Ldu) : AxisId → Axis
  | .zoom => l.zoom
  | .focus => l.focus
  | .iris => l.iris

/-- Replace the record of an axis. -/
def Ldu.setAxis (l : Ldu) (x : AxisId) (a : Axis) : Ldu :=
  match x with
  | .zoom => { l with zoom := a }
  | .focus => { l with focus := a }
  | .iris => { l with iris := a }

/-- The actual of an axis: that of the last received reply (R42). -/
def Ldu.actual (l : Ldu) : AxisId → Int
  | .zoom => l.view.zoom
  | .focus => l.view.focus
  | .iris => l.view.iris

/-- The axis is in MANUAL by the last received reply; zoom has no manual mode (R58). -/
def Ldu.manual (l : Ldu) : AxisId → Bool
  | .zoom => false
  | .focus => l.view.focusManual
  | .iris => l.view.irisManual

/-- The axis has a move in flight (R47). -/
def Axis.moving (a : Axis) : Bool :=
  match a.move with
  | .none => false
  | _ => true

/-- The axis is in a glide (R66). -/
def Axis.gliding (a : Axis) : Bool :=
  match a.move with
  | .glide _ _ => true
  | _ => false

/-- The axis has no move: its velocity is 0, and it is IDLE unless STALLED (R47). -/
def Axis.rested (a : Axis) : Axis :=
  { a with st := if a.st = .stalled then .stalled else .idle, vel := 0, move := .none, tag := 0 }

/-- Replace the LDU. -/
def State.setLdu (s : State) (l : Ldu) : State := { s with ldu := l }

/-- Replace the record of an axis of the state. -/
def State.setAxis (s : State) (x : AxisId) (a : Axis) : State := s.setLdu (s.ldu.setAxis x a)

/-! ## Tables (R59 to R62) -/

/-- The value of a table at a zoom position (R61). -/
def LensTable.value (t : LensTable) (z : Int) : Int :=
  let i := (z / 256).toNat
  let r := z - 256 * (z / 256)
  let a := t.points.getD i 0
  let b := t.points.getD (i + 1) 0
  a + ((b - a) * r + 128) / 256

/-- The scale offered at the zoom actual (R61). -/
def Ldu.scaleOffered (l : Ldu) : Int := if l.scale.valid then l.scale.value l.view.zoom else 2000

/-- The tracking correction at a zoom demand position (R62). -/
def Ldu.correction (l : Ldu) (z : Int) : Int := l.track.value z

/-- The demand position of an axis: the demand divided by 500, floored; for focus on its base, with the
correction at the zoom demand position, clamped (R48, R62). A table just loaded counts at once (log 61). -/
def Ldu.demandPos (l : Ldu) (x : AxisId) : Int :=
  let p := (l.axis x).demand / 500
  match x with
  | .focus => if l.focusBased then clampInt 0 4095 (p + l.correction (l.zoom.demand / 500)) else p
  | _ => p

/-- Put the focus demand on the base, where tracking is on and not suspended (R62). -/
def Ldu.rebase (l : Ldu) : Ldu :=
  if l.tracking && !l.focusBased && l.focus.st != .stalled && !l.view.focusManual && !l.focus.gliding then
    { l with
      focusBased := true
      focus := { l.focus with demand := (l.focus.demand / 500 - l.correction (l.zoom.demand / 500)) * 500 } }
  else l

/-- Take the focus demand off the base: the position last sent, times 500 (R62, log 22). -/
def Ldu.unbase (l : Ldu) : Ldu :=
  if l.focusBased then
    { l with focusBased := false, focus := { l.focus with demand := l.focus.sent * 500 } }
  else l

/-! ## Completions (R54) -/

/-- The tag of the axis's move, if any, ends; the axis then carries none. -/
def State.endAxisTag (s : State) (x : AxisId) (outcome : TagOutcome) (cause : Nat) : State :=
  let a := s.ldu.axis x
  (s.endTag a.tag outcome (wordOf (s.ldu.demandPos x)) (wordOf (s.ldu.actual x)) (wordOfNat cause)).setAxis x
    { a with tag := 0 }

/-- The move of an axis ends with its tag, and the axis rests (R48). -/
def State.endMove (s : State) (x : AxisId) (outcome : TagOutcome) (cause : Nat) : State :=
  let s1 := s.endAxisTag x outcome cause
  s1.setAxis x (s1.ldu.axis x).rested

/-- The completion of the sequence tag: the shot last glided to and the ignored triggers (R54). -/
def State.sequenceCompletion (s : State) (outcome : TagOutcome) (cause : Nat) : Completion :=
  ⟨s.ldu.seqTag, outcome, wordOfNat s.ldu.shot.code.2, wordOfNat s.ldu.ignored, wordOfNat cause⟩

/-- The sequence tag, if any, ends. -/
def State.endSequenceTag (s : State) (outcome : TagOutcome) (cause : Nat) : State :=
  let s1 := s.complete ⟨none, s.sequenceCompletion outcome cause⟩
  s1.setLdu { s1.ldu with seqTag := 0 }

/-! ## Beginning a move (R49, R52) -/

/-- The step a move takes when it begins: soft while a slot is RECORDING, else hard (R49). -/
def State.moveStep (s : State) : Int := if s.anyRecording then s.ldu.softStep else s.ldu.hardStep

/-- A move begins on an axis from the demand and velocity it has. -/
def State.beginMove (s : State) (x : AxisId) (m : Move) (step : Int) (tag : Nat) : State :=
  s.setAxis x { s.ldu.axis x with st := .moving, move := m, step := step, tag := tag }

/-- A rest move: the hard step and no tag (R52). -/
def State.rest (s : State) (x : AxisId) : State := s.beginMove x .rest s.ldu.hardStep 0

/-! ## Shots (R65 to R69) -/

/-- A sequence is GLIDING or DWELLING. -/
def ShotState.running : ShotState → Bool
  | .gliding _ _ _ => true
  | .dwelling _ _ _ => true
  | _ => false

/-- Leave every axis of a cancelled glide in a rest move from its velocity (R69). -/
def State.restGlides (s : State) : State :=
  let one (s : State) (x : AxisId) : State := if (s.ldu.axis x).gliding then s.rest x else s
  let s1 := one (one (one s .zoom) .focus) .iris
  s1.setLdu s1.ldu.rebase

/-- Cancel the sequence on a cause of R69 that leaves the gliding axes at rest; a HOLDING state becomes IDLE.
The tag ends with `finish`. -/
def State.cancelShot (s : State) (finish : State → State) : State :=
  match s.ldu.shot with
  | .idle => s
  | .holding _ => s.setLdu { s.ldu with shot := .idle }
  | _ =>
    let s1 := finish s
    (s1.setLdu { s1.ldu with shot := .idle }).restGlides

/-- The exact frame rate, as a numerator and a denominator (R66). -/
def Rate.exact : Rate → Nat × Nat
  | .r23 => (24000, 1001) | .r24 => (24, 1) | .r25 => (25, 1) | .r29 => (30000, 1001) | .r50 => (50, 1)
  | .r59 => (60000, 1001)

/-- A count of frames in lens updates: times 500 divided by the exact rate, halves rounded up (R66, R67). -/
def Rate.updates (r : Rate) (frames : Nat) : Nat :=
  (frames * 500 * r.exact.2 * 2 + r.exact.1) / (2 * r.exact.1)

/-- The shot record of an index. -/
def Ldu.shotRec (l : Ldu) (n : Nat) : Shot := l.shots.getD n .reset

/-- A shot's position for an axis. -/
def Shot.position (h : Shot) : AxisId → Int
  | .zoom => h.zoom
  | .focus => h.focus
  | .iris => h.iris

/-- The first valid shot of a list of indices. -/
def Ldu.firstValid (l : Ldu) (order : List Nat) : Option Nat := order.find? fun n => (l.shotRec n).valid

/-- The indices 0 to count less one. -/
def Ldu.shotOrder (l : Ldu) : List Nat := List.range l.shotCount

/-- The next valid shot after `n` below the count (R67). -/
def Ldu.nextValid (l : Ldu) (n : Nat) : Option Nat := l.firstValid (l.shotOrder.filter fun k => decide (n < k))

/-- The target shot of a trigger (R65). -/
def Ldu.triggerTarget (l : Ldu) : Option Nat :=
  match l.shotMode, l.shot with
  | .chain, _ => l.firstValid l.shotOrder
  | .step, .idle => l.firstValid l.shotOrder
  | .step, st =>
    let n := st.code.2
    l.firstValid ((l.shotOrder.filter fun k => decide (n < k)) ++ l.shotOrder.filter fun k => decide (k ≤ n))

/-- An axis joins the glide to a shot unless it is STALLED or in MANUAL; a move in flight is replaced and its
tag ends PREEMPTED with cause 4 (R65, R66). A glide uses no step, and the axis keeps that of its earlier move (R49,
log 49). -/
def State.joinGlide (h : Shot) (s : State) (x : AxisId) : State :=
  if (s.ldu.axis x).st = .stalled ∨ s.ldu.manual x = true then s
  else
    let s1 := s.endAxisTag x .preempted 4
    let s2 := if x = .focus then s1.setLdu s1.ldu.unbase else s1
    s2.beginMove x (.glide (s2.ldu.axis x).demand (h.position x * 500)) (s2.ldu.axis x).step 0

/-- The glide to shot `n` begins (R66). -/
def State.beginGlide (s : State) (n : Nat) : State :=
  let h := s.ldu.shotRec n
  let s1 := [AxisId.zoom, .focus, .iris].foldl (State.joinGlide h) s
  s1.setLdu { s1.ldu with shot := .gliding n 0 (max 1 (s.ftu.format.rate.updates h.travel)) }

/-- The rocker of the last received reply refuses an order (R57). -/
def Ldu.gripRefuses (l : Ldu) : Bool := !l.lockout && !l.releaseWait && decide (8 < l.view.rocker.natAbs)

/-- What becomes of a trigger (R65). -/
inductive TriggerAnswer where
  | noShot | grip | early | go (shot : Nat)
  deriving DecidableEq, Repr

/-- Decide a trigger (R65). -/
def Ldu.decideTrigger (l : Ldu) : TriggerAnswer :=
  match l.triggerTarget with
  | none => .noShot
  | some n =>
    if l.gripRefuses then .grip
    else if l.shotMode = .chain ∧ l.shotPolicy = .ignore ∧ l.shot.running = true then .early
    else .go n

/-- An early trigger under IGNORE is counted (R65). -/
def State.ignoreTrigger (s : State) : State := s.setLdu { s.ldu with ignored := satSucc 65535 s.ldu.ignored }

/-- An accepted trigger to shot `n` with a tag or 0 (R65, R67, R68). -/
def State.trigger (s : State) (n : Nat) (tag : Nat) : State :=
  let s1 := s.endSequenceTag .preempted 4
  (s1.setLdu { s1.ldu with owner := .order, seqTag := tag }).beginGlide n

/-! ## Advancing an axis (R48, R50 to R53) -/

/-- Move a velocity toward a target by at most the step (R50). -/
def toward (v target step : Int) : Int := if v < target then min target (v + step) else max target (v - step)

/-- The range of an axis's demand in sub-units; for focus on its base, the base range (R48, R62). -/
def Ldu.range (l : Ldu) (x : AxisId) : Int × Int :=
  if x = .focus ∧ l.focusBased = true then (-1023500, 3071500) else (0, x.max * 500)

/-- The demand rises by the velocity and is clamped; when the clamp acts, the velocity becomes 0. -/
def Axis.rise (a : Axis) (range : Int × Int) : Axis :=
  let d := a.demand + a.vel
  if d < range.1 then { a with demand := range.1, vel := 0 }
  else if range.2 < d then { a with demand := range.2, vel := 0 }
  else { a with demand := d }

/-- The braking distance at a speed (R51). -/
def braking (speed step : Int) : Int :=
  let n := speed / step
  n * speed - step * (n * (n + 1) / 2)

/-- The speed of a position move after step 3 of R51. -/
def positionSpeed (speed step cap remainder : Int) : Int :=
  if remainder ≤ braking speed step then max step (speed - step)
  else if cap < speed then max cap (speed - step)
  else min cap (speed + step)

/-- The size of a number. -/
def size (v : Int) : Int := v.natAbs

/-- The sign of a remainder. -/
def signed (r v : Int) : Int := if r < 0 then -v else v

/-- What an update does to an axis with a move: the axis, and the cause with which the move ends COMPLETE, 0
for a move that ends with none. Whether a rest, stopping or released grip move has come to velocity 0 is judged before
the clamp of R48 (log 66). -/
def Axis.update (a : Axis) (range : Int × Int) : Axis × Option Nat :=
  match a.move with
  | .none => (a, none)
  | .glide _ _ => (a, none)
  | .rate t =>
    let v := toward a.vel t a.step
    if t = 0 ∧ v = 0 then ({ a with vel := 0 }, some 3)
    else
      let b := ({ a with vel := v } : Axis).rise range
      if (0 < t ∧ range.2 < a.demand + v) ∨ (t < 0 ∧ a.demand + v < range.1) then (b, some 2) else (b, none)
  | .position p cap =>
    let r := p - a.demand
    if a.vel * r < 0 then
      (({ a with vel := signed a.vel (max 0 (size a.vel - a.step)) } : Axis).rise range, none)
    else
      let v := positionSpeed (size a.vel) a.step cap (size r)
      if size r ≤ v then ({ a with demand := p, vel := 0 }, some 1)
      else (({ a with vel := signed r v } : Axis).rise range, none)
  | .stopping =>
    let v := toward a.vel 0 a.step
    if v = 0 then ({ a with vel := 0 }, some 3) else (({ a with vel := v } : Axis).rise range, none)
  | .rest =>
    let v := toward a.vel 0 a.step
    if v = 0 then ({ a with vel := 0 }, some 0) else (({ a with vel := v } : Axis).rise range, none)
  | .grip t =>
    let v := toward a.vel t a.step
    if t = 0 ∧ v = 0 then ({ a with vel := 0 }, some 0) else (({ a with vel := v } : Axis).rise range, none)

/-- Advance an axis by one update (R48). -/
def State.advanceAxis (s : State) (x : AxisId) : State :=
  if (s.ldu.axis x).st = .stalled ∨ s.ldu.manual x = true then s
  else
    match (s.ldu.axis x).update (s.ldu.range x) with
    | (a, none) => s.setAxis x a
    | (a, some cause) => (s.setAxis x a).endMove x .complete cause

/-- One step of a glide for an axis in it: update `k` of `n` (R66). -/
def State.glideAxis (k n : Nat) (s : State) (x : AxisId) : State :=
  match (s.ldu.axis x).move with
  | .glide start target =>
    let a := s.ldu.axis x
    let d := start + (target - start) * k / n
    if k < n then s.setAxis x { a with demand := d, vel := d - a.demand }
    else s.setAxis x { a with demand := target }.rested
  | _ => s

/-- The glide of shot `n` has ended: HOLDING or a dwell (R67, R68). -/
def State.glideEnded (s : State) (n : Nat) : State :=
  let s1 := s.setLdu s.ldu.rebase
  match s1.ldu.shotMode, s1.ldu.nextValid n with
  | .chain, some _ =>
    s1.setLdu { s1.ldu with shot := .dwelling n 0 (s.ftu.format.rate.updates (s1.ldu.shotRec n).dwell) }
  | _, _ =>
    let s2 := s1.endSequenceTag .complete 1
    s2.setLdu { s2.ldu with shot := .holding n }

/-- One update of a glide (R66). -/
def State.glideStep (s : State) (shot done total : Nat) : State :=
  let k := done + 1
  let s1 := [AxisId.zoom, .focus, .iris].foldl (State.glideAxis k total) s
  if k < total then s1.setLdu { s1.ldu with shot := .gliding shot k total } else s1.glideEnded shot

/-- The shot sequence by one update (R66, R67). -/
def State.advanceShot (s : State) : State :=
  match s.ldu.shot with
  | .gliding n k total => s.glideStep n k total
  | .dwelling n k total =>
    if k < total then s.setLdu { s.ldu with shot := .dwelling n (k + 1) total }
    else
      match s.ldu.nextValid n with
      | none => s
      | some m =>
        let s1 := s.beginGlide m
        match s1.ldu.shot with
        | .gliding m k total => s1.glideStep m k total
        | _ => s1
  | _ => s

/-! ## The link (R43 to R45) -/

/-- Set an axis's demand to an actual, at rest (R43, R45). -/
def Axis.atActual (a : Axis) (actual : Int) : Axis := { a.rested with demand := actual * 500 }

/-- The view that a reply gives, clamped (R42). -/
def viewOf (r : LensReply) : LensView :=
  { zoom := clampInt 0 4095 r.zoom, focus := clampInt 0 4095 r.focus, iris := clampInt 0 1023 r.iris,
    rocker := max (-127) r.rocker.toInt, button := r.button, focusManual := r.focusManual,
    irisManual := r.irisManual }

/-- The link enters ONLINE from DETACHED or LOST (R43, R45). -/
def State.lensAttach (s : State) (v : LensView) : State :=
  let l := s.ldu
  s.setLdu ({ l with
    link := .online, missing := 0, focusBased := false,
    zoom := l.zoom.atActual v.zoom, focus := l.focus.atActual v.focus, iris := l.iris.atActual v.iris } : Ldu).rebase

/-- Every move and a running sequence end ABORTED with a cause, without rest moves (R43, R44). -/
def State.abortAll (s : State) (cause : Nat) : State :=
  let s1 := if s.ldu.shot.running then s.endSequenceTag .aborted cause else s
  let s2 := s1.setLdu { s1.ldu with shot := .idle }
  [AxisId.zoom, .focus, .iris].foldl (fun s x => s.endMove x .aborted cause) s2

/-- The lens is detached (R43). -/
def State.lensDetach (s : State) : State :=
  let s1 := s.abortAll 9
  let l := s1.ldu.unbase
  let clear (a : Axis) : Axis := { a with st := .idle, stallCount := 0 }
  s1.setLdu { l with
    link := .detached, tracking := false,
    zoom := clear l.zoom, focus := clear l.focus, iris := clear l.iris,
    scale := { l.scale with valid := false }, track := { l.track with valid := false } }

/-- The link is lost (R44). -/
def State.lensLost (s : State) : State :=
  let s1 := s.abortAll 8
  let s2 := s1.setLdu { s1.ldu.rebase with link := .lost }
  s2.fault .lensLink .zoom (wordOf s.ldu.zoom.sent) (wordOf s.ldu.focus.sent)

/-- Step 1 of a lens update: judge the reply and apply the link rules (R43 to R45). -/
def State.judgeLink (s : State) (reply : Option LensReply) : State :=
  match s.ldu.link, reply with
  | .detached, some r => if r.attached then s.lensAttach (viewOf r) else s
  | .detached, none => s
  | .lost, some r => if r.attached then s.lensAttach (viewOf r) else s.lensDetach
  | .lost, none => s
  | .online, some r =>
    let s1 := s.setLdu { s.ldu with missing := 0 }
    if r.attached then s1 else s1.lensDetach
  | .online, none =>
    let m := s.ldu.missing + 1
    let s1 := s.setLdu { s.ldu with missing := m }
    if m < 10 then s1 else s1.lensLost

/-! ## The claim, the manual modes and the stalls (R56, R58, R63) -/

/-- The rocker rate, 0 inside the deadband (R55, R56). -/
def rockerRate (rocker : Int) : Int := if 8 < rocker.natAbs then (rocker * 4000).tdiv 127 else 0

/-- The grip takes the zoom from the orders (R56). -/
def State.gripTakes (s : State) : State :=
  let s1 := s.endAxisTag .zoom .preempted 5
  let s2 := s1.cancelShot fun t => t.endSequenceTag .preempted 5
  s2.setLdu { s2.ldu with owner := .grip }

/-- The zoom has a grip move. -/
def Ldu.gripping (l : Ldu) : Bool :=
  match l.zoom.move with
  | .grip _ => true
  | _ => false

/-- Apply the rocker to the zoom (R56). -/
def State.applyRocker (s : State) : State :=
  let l := s.ldu
  let inside := !decide (8 < l.view.rocker.natAbs)
  let s0 := if inside then s.setLdu { l with releaseWait := false } else s
  if l.lockout || s0.ldu.releaseWait || l.zoom.st == .stalled then s0
  else if l.gripping then
    s0.setLdu { s0.ldu with zoom := { s0.ldu.zoom with move := .grip (rockerRate l.view.rocker) } }
  else if inside then s0
  else
    let s1 := if l.owner = .order then s0.gripTakes else s0
    s1.beginMove .zoom (.grip (rockerRate l.view.rocker)) s1.moveStep 0

/-- Apply the manual mode to an axis (R58): `was` is its mode before this reply. A reply that shows SERVO again leaves
the demand at the actual of the last reply that showed MANUAL (log 47). -/
def State.applyManual (was : Bool) (s : State) (x : AxisId) : State :=
  if s.ldu.manual x then
    let s1 := if (s.ldu.axis x).moving then s.endMove x .preempted 6 else s
    let a := (s1.ldu.axis x).rested
    let l := if x = .focus then { s1.ldu with focusBased := false } else s1.ldu
    s1.setLdu (l.setAxis x { a with stallCount := 0, demand := s1.ldu.actual x * 500 })
  else if was && x == .focus then s.setLdu s.ldu.rebase
  else s

/-- An axis stalls (R63). -/
def State.stall (s : State) (x : AxisId) : State :=
  let a := s.ldu.axis x
  let actual := s.ldu.actual x
  let completion : Option Completion :=
    if s.ldu.shot.running ∧ s.ldu.seqTag ≠ 0 then some (s.sequenceCompletion .stalled 7)
    else if a.tag ≠ 0 then some ⟨a.tag, .stalled, wordOf actual, wordOf actual, 7⟩
    else none
  let l := if x = .focus then { s.ldu with focusBased := false } else s.ldu
  let s1 := s.setLdu (l.setAxis x
    { a with st := .stalled, demand := actual * 500, vel := 0, move := .none, tag := 0 })
  let s2 := s1.cancelShot fun t => t.setLdu { t.ldu with seqTag := 0 }
  s2.occur ⟨.lensStall, x.source, wordOf a.sent, wordOf actual, completion⟩

/-- The stall check of an axis (R63). -/
def State.checkStall (s : State) (x : AxisId) : State :=
  let l := s.ldu
  let a := l.axis x
  if a.st = .stalled then s.setAxis x { a with demand := l.actual x * 500 }
  else if l.manual x then s
  else
    let n := if l.stallWindow < size (a.sent - l.actual x) then a.stallCount + 1 else 0
    let s1 := s.setAxis x { a with stallCount := n }
    if l.stallTime < n then s1.stall x else s1

/-- A shot button press is a trigger without a tag (R65). -/
def State.pressButton (s : State) : State :=
  match s.ldu.decideTrigger with
  | .go n => s.trigger n 0
  | .early => s.ignoreTrigger
  | _ => s

/-- Step 2 of a lens update: take a reply's contents and apply the claim, the manual modes, the stall checks
and a shot button press (R41, R42, log 23). `entering` says the link entered ONLINE on this reply. -/
def State.takeReply (s : State) (v : LensView) (entering : Bool) : State :=
  let was := s.ldu.view
  let s1 := (s.setLdu { s.ldu with view := v }).applyRocker
  let s2 := State.applyManual was.irisManual (State.applyManual was.focusManual s1 .focus) .iris
  let s3 := ((s2.checkStall .zoom).checkStall .focus).checkStall .iris
  if v.button && !was.button && !entering then s3.pressButton else s3

/-! ## The lens update (R41) -/

/-- Step 5: the demand message is sent, and the timer runs on. -/
def State.sendDemand (s : State) : State :=
  let l := s.ldu
  s.setLdu { l with
    zoom := { l.zoom with sent := l.demandPos .zoom }
    focus := { l.focus with sent := l.demandPos .focus }
    iris := { l.iris with sent := l.demandPos .iris }
    drive := l.link == .online, demandSent := true, reply := none, timer := some (s.now + 2000) }

/-- A lens update (R41). -/
def State.lensUpdate (s : State) : State :=
  let reply := s.ldu.reply
  let s1 := s.judgeLink reply
  let s2 :=
    match s1.ldu.link, reply with
    | .online, some r => s1.takeReply (viewOf r) (decide (s.ldu.link ≠ LensLink.online))
    | _, _ => s1
  let s3 := ((s2.advanceAxis .zoom).advanceAxis .focus).advanceAxis .iris
  let s4 := s3.advanceShot
  let s5 := s4.setLdu { s4.ldu with surge := decide (1500 < s4.ldu.zoom.vel.natAbs) }
  s5.sendDemand

/-- An axis at a stop request: a move that is neither a glide nor a rest move is replaced by a rest move (R70). -/
def State.stopAxis (s : State) (x : AxisId) : State :=
  match (s.ldu.axis x).move with
  | .none => s
  | .glide _ _ => s
  | .rest => s
  | _ => (s.endAxisTag x .aborted 10).rest x

/-- The LDU takes a stop request from Safe Stop (R70). -/
def State.stopLens (s : State) : State :=
  let s1 := ((s.stopAxis .zoom).stopAxis .focus).stopAxis .iris
  let s2 := s1.cancelShot fun t => t.endSequenceTag .aborted 10
  s2.setLdu { s2.ldu with owner := .order, releaseWait := s2.ldu.releaseWait || !s2.ldu.lockout }

end Sys2Proof.Machine
end

