-- ==== Sys2Proof/Machine/Stabiliser.lean ====
section
/-! DEFINITION. The Motion Stabiliser (04): samples, pan states, the loss timer and the crop. -/

namespace Sys2Proof.Machine

/-- Replace the MST. -/
def State.setMst (s : State) (m : Mst) : State := { s with mst := m }

/-- An arithmetic right shift (00_scope). -/
def sar (v : Int) (k : Nat) : Int := v / (2 ^ k : Nat)

/-! ## The six steps of a sample (R77 to R82) -/

/-- Step 1: a raw rate of −32,768 becomes −32,767 (R77). -/
def clampRate (raw : Int) : Int := max (-32767) raw

/-- A raw value is an overrange (R77). -/
def overrange (raw : Int) : Bool := raw == -32768 || raw == 32767

/-- Step 2: the bias moves toward the rate while the axis is STEADY and still (R78). -/
def StabAxis.trackBias (a : StabAxis) (still : Int) (shift : Nat) (r0 : Int) : StabAxis :=
  if a.pan = .steady ∧ size (r0 - sar a.bias 8) ≤ still then
    { a with bias := a.bias + sar (256 * r0 - a.bias) shift }
  else a

/-- Step 3: the corrected rate (R79). -/
def StabAxis.rate (a : StabAxis) (r0 : Int) : Int := clampInt (-32767) 32767 (r0 - sar a.bias 8)

/-- Step 4: the pan state (R80). -/
def StabAxis.judgePan (a : StabAxis) (enter exit : Int) (r : Int) : StabAxis :=
  let run := if enter < size r then a.enterRun + 1 else 0
  match a.pan with
  | .steady =>
    if run < 50 then { a with enterRun := run }
    else { a with pan := .panning, enterRun := 0, exitRun := 0 }
  | .panning =>
    let out := if size r < exit then a.exitRun + 1 else 0
    if out < 100 then { a with exitRun := out }
    else { a with pan := .settling, exitRun := 0, settle := 0 }
  | .settling =>
    if run < 50 then
      if a.settle + 1 < 500 then { a with enterRun := run, settle := a.settle + 1 }
      else { a with pan := .steady, enterRun := 0, settle := 0 }
    else { a with pan := .panning, enterRun := 0, exitRun := 0, settle := 0 }

/-- The leak shift k (R81). -/
def leakShift (pan : PanState) (edge surge : Bool) : Nat :=
  let k := match pan with
    | .steady => 11
    | .settling => 9
    | .panning => 6
  let k := if edge then min k 7 else k
  if surge then min k 9 else k

/-- Step 5: the leak toward zero (R81). -/
def leak (acc : Int) (k : Nat) : Int := acc - signed acc (sar (size acc) k)

/-- Step 6: integrate, clamped (R82). -/
def integrate (acc r : Int) : Int := clampInt (-2147483647) 2147483647 (acc + r)

/-- Steps 2 to 6 on an axis, with a pending recentre between steps 4 and 5 (R73, R83). -/
def StabAxis.work (m : Mst) (surge recentre : Bool) (r0 : Int) (a : StabAxis) : StabAxis :=
  let b := a.trackBias m.still m.biasShift r0
  let r := b.rate r0
  let c := b.judgePan m.panEnter m.panExit r
  let acc := if recentre then 0 else c.acc
  { c with acc := integrate (leak acc (leakShift c.pan c.edge surge)) r }

/-- The overrange check of a sample worked in OFF or ON (R77). -/
def State.checkOverrange (s : State) (yaw pitch : Int) : State :=
  let q := s.mst.quiet - 1
  let s1 := s.setMst { s.mst with quiet := q }
  if (overrange yaw || overrange pitch) && q == 0 then
    (s1.setMst { s1.mst with quiet := 1000 }).fault .gyroOverrange
      (if overrange yaw then .yaw else .pitch) (wordOf yaw) (wordOf pitch)
  else s1

/-- A sample worked in OFF: steps 1 and 2 (R73). -/
def State.sampleOff (s : State) (yaw pitch : Int) : State :=
  let s1 := s.checkOverrange yaw pitch
  let m := s1.mst
  s1.setMst { m with
    yaw := m.yaw.trackBias m.still m.biasShift (clampRate yaw)
    pitch := m.pitch.trackBias m.still m.biasShift (clampRate pitch) }

/-- A sample worked in ON: steps 1 to 6, the recentre, and the loss timer (R73, R75, R83). -/
def State.sampleOn (s : State) (yaw pitch : Int) : State :=
  let s1 := s.checkOverrange yaw pitch
  let m := s1.mst
  s1.setMst { m with
    yaw := m.yaw.work m s.ldu.surge m.recentre (clampRate yaw)
    pitch := m.pitch.work m s.ldu.surge m.recentre (clampRate pitch)
    recentre := false
    lossTimer := some (s.now + 5000) }

/-- The resumption count at a sample in HOLD (R76). -/
def Mst.resume (m : Mst) (now : Nat) : Nat :=
  match m.lastArrival with
  | none => 1
  | some t => if now - t ≤ 5000 then m.resumption + 1 else 1

/-- A sample arrives while the MST takes them (R73, R76). -/
def State.gyro (s : State) (yaw pitch : Int) : State :=
  let count := s.mst.resume s.now
  let s1 := s.setMst { s.mst with
    lastArrival := some s.now, samples := s.mst.samples + 1, sampleSinceOn := true }
  match s1.mst.mode with
  | .off => s1.sampleOff yaw pitch
  | .on => s1.sampleOn yaw pitch
  | .hold =>
    if count < 20 then s1.setMst { s1.mst with resumption := count }
    else (s1.setMst { s1.mst with mode := .on, resumption := 0 }).sampleOn yaw pitch

/-- The loss timer expires in ON: HOLD, and GYRO_LOST (R75). -/
def State.gyroLost (s : State) : State :=
  let m := s.mst
  let freeze (a : StabAxis) : StabAxis := { a with enterRun := 0, exitRun := 0 }
  (s.setMst { m with mode := .hold, yaw := freeze m.yaw, pitch := freeze m.pitch, resumption := 0,
                     lossTimer := none }).fault
    .gyroLost .yaw (wordOfNat m.samples) (wordOfNat (bit m.sampleSinceOn))

/-! ## From angle to crop (R85 to R91) -/

/-- The shift in pixels: A × f / 16,384,000, halves rounded away from zero (R86). -/
def shiftPixels (acc f : Int) : Int := signed acc ((size (acc * f) + 8192000) / 16384000)

/-- Held within its margin: the shift and the edge flag (R87). -/
def holdShift (margin v : Int) : Int × Bool :=
  if margin < size v then (signed v margin, true) else (v, false)

/-- What a reader finds for a frame with no crop record (R91). -/
def CropRec.none (f : FrameNo) : CropRec :=
  { frame := f, x := 0, y := 0, scale := 0, mode := .off, yawPan := .steady, pitchPan := .steady,
    yawEdge := false, pitchEdge := false }

/-- The crop record named `f` (R91). -/
def Mst.cropOf (m : Mst) (f : FrameNo) : CropRec := (m.crops.find? fun c => c.frame == f).getD (.none f)

/-- The newest crop record, or what a reader finds with none. -/
def Mst.newestCrop (m : Mst) : CropRec := m.crops.getLast?.getD (.none 0)

/-- The stabiliser part of the report as it stands (R92). -/
def Mst.part (m : Mst) : StabPart :=
  { mode := m.mode, yawPan := m.yaw.pan, pitchPan := m.pitch.pan, yawEdge := m.yaw.edge,
    pitchEdge := m.pitch.edge, x := m.newestCrop.x, y := m.newestCrop.y }

/-- The crop and the edge flags at a frame start: the offset, the scale and the MST after (R85 to R90). -/
def Mst.formCrop (m : Mst) (f : Int) : Int × Int × Int × Mst :=
  match m.mode with
  | .off => (0, 0, 0, m)
  | .hold =>
    let c := m.newestCrop
    (clampInt (-m.marginX) m.marginX c.x, clampInt (-m.marginY) m.marginY c.y, c.scale, m)
  | .on =>
    let x := holdShift m.marginX (shiftPixels m.yaw.acc f)
    let y := holdShift m.marginY (shiftPixels m.pitch.acc f)
    (-x.1, y.1, f, { m with yaw := { m.yaw with edge := x.2 }, pitch := { m.pitch with edge := y.2 } })

/-- The bytes of a crop message in the order of its fields, each least significant byte first (R89, R215). -/
def CropMsg.bytes (m : CropMsg) : List Byte := leBytes 2 m.x.toNat ++ leBytes 2 m.y.toNat ++ leBytes 4 m.frame.toNat

/-- The MST takes a frame start: it sends the crop message and makes the crop record, both named for the frame
after the one opened (R89, R91). -/
def Mst.takeFrame (m : Mst) (x : FrameStart) (scale : Int) (need : FrameNo → Bool) : Mst :=
  let c := m.formCrop scale
  let n := c.2.2.2
  let named := x.opened.frame + 1
  let r : CropRec :=
    { frame := named, x := c.1, y := c.2.1, scale := c.2.2.1, mode := n.mode, yawPan := n.yaw.pan,
      pitchPan := n.pitch.pan, yawEdge := n.yaw.edge, pitchEdge := n.pitch.edge }
  { n with
    crops := newest 3 (n.crops ++ [r])
    sent := some ⟨BitVec.ofInt 16 c.1, BitVec.ofInt 16 c.2.1, named⟩
    samples := 0
    kept := keepCopy need x.ended.frame m.part m.kept }

/-- STAB_MODE OFF in ON or HOLD (R74). -/
def Mst.switchOff (m : Mst) : Mst :=
  let clear (a : StabAxis) : StabAxis :=
    { a with acc := 0, edge := false, pan := .steady, enterRun := 0, exitRun := 0, settle := 0 }
  { m with mode := .off, yaw := clear m.yaw, pitch := clear m.pitch, recentre := false, resumption := 0,
           lossTimer := none }

/-- STAB_MODE ON in OFF (R74). -/
def Mst.switchOn (m : Mst) (now : Nat) : Mst :=
  { m with mode := .on, lossTimer := some (now + 5000), sampleSinceOn := false }

end Sys2Proof.Machine
end

