-- ==== Sys2Proof/Machine/Audio.lean ====
section
/-! DEFINITION. The Audio Capture Unit (05): the FIFO, the take, the channel chain, the meters and the block. -/

namespace Sys2Proof.Machine

/-- Replace the ACU. -/
def State.setAcu (s : State) (a : Acu) : State := { s with acu := a }

/-- Do one thing for each channel. -/
def Quad.map {α β : Type} (f : α → β) (q : Quad α) : Quad β := ⟨f q.c1, f q.c2, f q.c3, f q.c4⟩

/-- Do one thing for each channel, of two things each. -/
def Quad.zip {α β γ : Type} (f : α → β → γ) (q : Quad α) (r : Quad β) : Quad γ :=
  ⟨f q.c1 r.c1, f q.c2 r.c2, f q.c3 r.c3, f q.c4 r.c4⟩

/-- The four in order of their channels. -/
def Quad.list {α : Type} (q : Quad α) : List α := [q.c1, q.c2, q.c3, q.c4]

/-- Four samples of 0. -/
def AudioSet.silence : AudioSet := ⟨0, 0, 0, 0⟩

/-! ## Arrivals (R94 to R96) -/

/-- A set is discarded with the FIFO full (R95). -/
def State.audioOverrun (s : State) : State :=
  let a := s.acu
  let s1 := s.setAcu { a with slipMark := true, overrunLogged := true }
  if a.overrunLogged then s1
  else
    match a.lastStart with
    | none => s1.fault .audioOverrun .none 0 0
    | some t => s1.fault .audioOverrun .none (wordOfNat a.fillAfterTake) (wordOfNat (s.now - t))

/-- A set arrives while the ACU takes them (R94). -/
def State.audioArrives (s : State) (x : AudioSet) : State :=
  let a := { s.acu with clockTimer := some (s.now + 2000), clockLost := false, setsSince := s.acu.setsSince + 1 }
  if a.fifo.length < 4096 then s.setAcu { a with fifo := a.fifo ++ [x] } else (s.setAcu a).audioOverrun

/-- The clock timer expires (R96). Before the first frame start since the entry to RUNNING, its second detail word
counts the sets since that entry (log 67). -/
def State.audioClockLost (s : State) : State :=
  let a := s.acu
  (s.setAcu { a with clockTimer := none, clockLost := true, lostMark := true }).fault
    .audioClock .none (wordOfNat a.fifo.length) (wordOfNat a.setsSince)

/-! ## The channel chain (R101 to R104) -/

/-- The gain g of an index (R103). -/
def gainOf (i : Nat) : Int := gainTable.getD i 65536

/-- The limit T of a threshold −20 to 0 (R104). -/
def limitOf (t : Int) : Int := limitTable.getD (t + 20).toNat 8388607

/-- The tone sample at a phase (R102). -/
def toneSample (level phase : Nat) : Int :=
  if level = 0 then toneTable20.getD phase 0 else toneTable18.getD phase 0

/-- The gained sample (R103). -/
def gained (g x : Int) : Int := sar (x * g) 16

/-- The limiter on one sample: the output and the new limiter gain (R104). -/
def limit (t release l y1 : Int) : Int × Int :=
  let y2 := sar (y1 * l) 15
  if t < size y2 then (signed y1 t, t * 32768 / size y1) else (y2, min 32768 (l + release))

/-- One sample through a channel: the output and the limiter gain after (R101). -/
def Channel.chain (c : Channel) (tone x : Int) : Int × Int :=
  match c.now.source with
  | .converter => limit (limitOf c.now.threshold) c.now.release c.limiter (gained (gainOf c.now.gain) x)
  | .tone => (tone, c.limiter)
  | .mute => (0, c.limiter)

/-- Work the set positions of a block in order: the outputs, the phase after, and the channels after with their
limiter gains (R101, R102). -/
def workSets (level : Nat) : List AudioSet → Nat → Quad Channel → List AudioSet × Nat × Quad Channel
  | [], p, q => ([], p, q)
  | x :: r, p, q =>
    let t := toneSample level p
    let o := q.zip (fun c v => c.chain t v) x
    let q1 := q.zip (fun c v => { c with limiter := v.2 }) o
    let rest := workSets level r ((p + 1) % 48) q1
    (o.map (fun v => v.1) :: rest.1, rest.2)

/-! ## Meters (R105 to R107) -/

/-- The largest size in a list of samples. -/
def peakOf : List Int → Nat
  | [] => 0
  | v :: r => max v.natAbs (peakOf r)

/-- The meter value of a peak (R105). -/
def meterOf (p : Nat) : Nat := (meterTable.filter fun m => decide (m ≤ p)).length

/-- The meters of a channel after a block with a frame peak, at a rate of timecode count `n` (R105 to R107). -/
def Channel.meterBlock (c : Channel) (n peak : Nat) : Channel :=
  let m := meterOf peak
  let loud := peak == 8388607
  let c1 :=
    if c.held ≤ m then { c with meter := m, held := m, holdCount := 2 * n }
    else if c.holdCount - 1 = 0 then { c with meter := m, held := m, holdCount := 2 * n }
    else { c with meter := m, holdCount := c.holdCount - 1 }
  if loud then { c1 with overload := true, overCount := n }
  else if 0 < c.overCount then { c1 with overCount := c.overCount - 1, overload := c.overload && decide (1 < c.overCount) }
  else c1

/-- The samples of each channel in a block. -/
def channelsOf (out : List AudioSet) : Quad (List Int) :=
  ⟨out.map fun x => x.c1, out.map fun x => x.c2, out.map fun x => x.c3, out.map fun x => x.c4⟩

/-- The bytes of a block: for each set the four samples, three bytes each (R108). -/
def blockBytes (out : List AudioSet) : List Byte := out.flatMap fun x => x.list.flatMap (leSigned 3)

/-! ## The take (R97, R98) -/

/-- What a take gives: the sets with their padding, and the block's marks. -/
structure Taken where
  sets : List AudioSet
  underrun : Bool
  silent : Bool
  short : Option Nat
  deriving DecidableEq, Repr

/-- Bring the pending settings into force; a source that changes opens the limiter (R99). -/
def Channel.enforce (c : Channel) : Channel :=
  { c with now := c.pending, limiter := if c.pending.source = c.now.source then c.limiter else 32768 }

/-- Step 1 at a frame start: the marks for the next interval and the settings in force (R96, R99). -/
def Acu.begin (a : Acu) : Acu :=
  { a with slipMark := false, lostMark := a.clockLost, channels := a.channels.map Channel.enforce,
           toneLevel := a.pendingTone }

/-- The take mode by the clock condition. -/
def Acu.primed (a : Acu) : TakeMode := if a.clockLost then .priming else .flowing

/-- Step 2: gather `c` sets (R97, R98); `lost` is the CLOCK_LOST interval mark noted. -/
def Acu.gather (a : Acu) (c : Nat) (lost : Bool) : Taken × Acu :=
  match a.take with
  | .priming =>
    (⟨List.replicate c .silence, a.padded, true, none⟩, { a with take := a.primed, padded := a.padded && a.clockLost })
  | .flowing =>
    let got := a.fifo.take c
    let k := got.length
    let a1 := { a with fifo := a.fifo.drop c, lastSet := (got.getLast?).orElse fun _ => a.lastSet }
    if k = c then (⟨got, false, false, none⟩, { a1 with take := a.primed })
    else if lost then
      (⟨got ++ List.replicate (c - k) .silence, false, k == 0, none⟩,
       { a1 with take := .priming, padded := true })
    else
      let pad := a1.lastSet.getD .silence
      (⟨got ++ List.replicate (c - k) pad, true, k == 0 && pad == .silence, some k⟩,
       { a1 with take := .priming, padded := true })

/-- A channel's part of the report (R111). -/
def Acu.part (a : Acu) : Quad MeterPart := a.channels.map fun c => ⟨c.meter, c.held, c.overload⟩

/-- The bookkeeping of a frame start taken (R95, R96, R23). -/
def Acu.noteStart (a : Acu) (now : Nat) (ended : FrameNo) (before : Quad MeterPart) (need : FrameNo → Bool) : Acu :=
  { a with fillAfterTake := a.fifo.length, lastStart := some now, overrunLogged := false, setsSince := 0,
           kept := keepCopy need ended before a.kept }

/-- The staging slot of a frame: where its block begins (R108). -/
def Acu.slotAddress (a : Acu) (f : FrameNo) : Nat := a.stagingBase.toNat + 24064 * (f.toNat % 8)

/-- Steps 1 to 4 for the frame just ended (R109): the ACU after, the block's bytes, its record, and what an
AUDIO_UNDERRUN occurrence would say. -/
def Acu.makeBlock (a0 : Acu) (r : FrameRec) : Acu × List Byte × AudioRec × Option Nat :=
  let slip := a0.slipMark
  let lost := a0.lostMark
  let g := a0.begin.gather r.cadCount lost
  let a := g.2
  let w := workSets a.toneLevel g.1.sets a.phase a.channels
  let peaks := (channelsOf w.1).map peakOf
  let chs := w.2.2.zip (fun c p => c.meterBlock r.rate.count p) peaks
  let rec0 : AudioRec :=
    { frame := r.frame, count := r.cadCount, staged := true, slip := slip, underrun := g.1.underrun,
      clockLost := lost, silent := g.1.silent, overload := peaks.map fun p => p == 8388607,
      meters := chs.map fun c => c.meter, gains := chs.map fun c => c.now.gain }
  ({ a with channels := chs, phase := w.2.1 }, blockBytes w.1, rec0, g.1.short)

end Sys2Proof.Machine
end

