-- ==== Sys2Proof/Machine/Blocks.lean ====
section
/-! DEFINITION. Stream blocks: the form of a block, its checks and escaping (R112 to R114, R226), and reading a
block back. -/

namespace Sys2Proof.Machine

/-- The lead byte (R112). -/
def leadByte : Byte := 0xA7

/-- One bit of the payload check (R114). -/
def crcBit (r : BitVec 16) (b : Bool) : BitVec 16 :=
  if r.msb = b then r <<< 1 else (r <<< 1) ^^^ 0x1021#16

/-- One byte of the payload check, most significant bit first (R114). -/
def crcByte (r : BitVec 16) (v : Byte) : BitVec 16 :=
  [7, 6, 5, 4, 3, 2, 1, 0].foldl (fun r i => crcBit r (v.getLsbD i)) r

/-- The payload check (R114). -/
def payloadCheck (payload : List Byte) : BitVec 16 := payload.foldl crcByte 0xFFFF#16

/-- The header check: 0xFF less the sum of the kind byte and the nine header bytes (R114). -/
def headerCheck (bytes : List Byte) : Byte := 0xFF#8 - bytes.foldl (fun a b => a + b) 0#8

/-- The kind byte and the nine header bytes (R226). -/
def headerBytes (kind : Byte) (frame : FrameNo) (length : Nat) (flags : Byte) : List Byte :=
  kind :: (leBytes 4 frame.toNat ++ leBytes 4 length ++ [flags])

/-- A block before escaping (R226). -/
def plainBlock (kind : Byte) (frame : FrameNo) (payload : List Byte) (flags : Byte) : List Byte :=
  let h := headerBytes kind frame payload.length flags
  leadByte :: (h ++ [headerCheck h] ++ payload ++ leBytes 2 (payloadCheck payload).toNat)

/-- Stuff a zero byte after every byte that equals the lead byte (R113). -/
def stuff : List Byte → List Byte
  | [] => []
  | b :: r => if b = leadByte then b :: 0 :: stuff r else b :: stuff r

/-- Escape a block: the lead and kind bytes are never followed by a stuffed byte (R113). -/
def escapeBlock : List Byte → List Byte
  | l :: k :: r => l :: k :: stuff r
  | b => b

/-- A block as it stands in the stream. -/
def streamBlock (kind : Byte) (frame : FrameNo) (payload : List Byte) (flags : Byte) : List Byte :=
  escapeBlock (plainBlock kind frame payload flags)

/-- The kind codes (R112). -/
def kindMeta : Byte := 0x01
def kindVideo : Byte := 0x02
def kindGap : Byte := 0x03
def kindAudio : Byte := 0x04
def kindFill : Byte := 0x05
def kindClose : Byte := 0x06
def kindOpen : Byte := 0x07

/-! ## Reading a block (R165, R166) -/

/-- What reading some unescaped bytes gives: the bytes and how many stream bytes they took, a lead byte that no
zero follows, or the end of what has been read. -/
inductive Unstuffed where
  | ok (bytes : List Byte) (taken : Nat)
  | bad
  | short
  deriving DecidableEq, Repr

/-- Put a byte in front of what the rest gives. -/
def Unstuffed.cons (b : Byte) (n : Nat) : Unstuffed → Unstuffed
  | .ok l t => .ok (b :: l) (t + n)
  | .bad => .bad
  | .short => .short

/-- Read `n` unescaped bytes, removing stuffed bytes (R113). -/
def unstuff : Nat → List Byte → Unstuffed
  | 0, _ => .ok [] 0
  | _ + 1, [] => .short
  | n + 1, b :: r =>
    if b = leadByte then
      match r with
      | [] => .short
      | z :: t => if z = 0 then (unstuff n t).cons b 2 else .bad
    else (unstuff n r).cons b 1

/-- What stands at a place in the stream: the start of a block with a good header check, anything else, or too
few bytes to tell. -/
inductive BlockHead where
  | start (kind : Byte) (frame : FrameNo) (length : Nat) (taken : Nat)
  | other
  | short
  deriving DecidableEq, Repr

/-- A kind byte 0x01 to 0x07. -/
def isKind (b : Byte) : Bool := decide (1 ≤ b.toNat) && decide (b.toNat ≤ 7)

/-- Judge the header rest that follows a lead and a kind byte. -/
def readHeader (kind : Byte) (r : List Byte) : BlockHead :=
  match unstuff 10 r with
  | .short => .short
  | .bad => .other
  | .ok h t =>
    if headerCheck (kind :: h.take 9) = h.getD 9 0 then
      .start kind (BitVec.ofNat 32 (ofLe (h.take 4))) (ofLe ((h.drop 4).take 4)) (t + 2)
    else .other

/-- Judge the bytes at a place (R165). -/
def readHead : List Byte → BlockHead
  | [] => .short
  | l :: r =>
    if l = leadByte then
      match r with
      | [] => .short
      | k :: t => if isKind k then readHeader k t else .other
    else .other

/-- What reading a whole block gives: its escaped length and whether its payload check matches. -/
inductive BlockBody where
  | done (taken : Nat) (good : Bool)
  | bad
  | short
  deriving DecidableEq, Repr

/-- Read the payload and the payload check of a block whose header took `head` bytes. -/
def readBody (head length : Nat) (l : List Byte) : BlockBody :=
  match unstuff (length + 2) (l.drop head) with
  | .short => .short
  | .bad => .bad
  | .ok b t =>
    .done (head + t) (BitVec.ofNat 16 (ofLe (b.drop length)) == payloadCheck (b.take length))

end Sys2Proof.Machine
end

