-- ==== Sys2Proof/Machine/Clips.lean ====
section
/-! DEFINITION. Extents, the placing of a clip's bytes and the writer of a slot (07: R143, R149 to R153, R155,
R156, R159, R160). -/

namespace Sys2Proof.Machine

/-- Change the CSC of a slot. -/
def State.updSlot (s : State) (x : SlotId) (f : Slot → Slot) : State := s.setSlot x (f (s.slot x))

/-- Change the open clip of a slot. -/
def State.updClip (s : State) (x : SlotId) (f : Clip → Clip) : State :=
  s.updSlot x fun v => { v with clip := v.clip.map f }

/-! ## Extents and held room (R143) -/

/-- The end sector of an extent. -/
def Extent.stop (e : Extent) : Nat := e.start + e.count

/-- The bytes a clip can hold in an entry of its extent list. -/
def ClipExtent.room (e : ClipExtent) : Nat := (e.extent.stop - e.first) * 512

/-- The bytes a clip can hold in its extent list. -/
def Clip.listed (c : Clip) : Nat := (c.extents.map ClipExtent.room).sum

/-- Why counting the held room stopped. -/
inductive Bound where
  | final | limit
  deriving DecidableEq, Repr

/-- The held room: its bytes, why counting stopped if it did, and the bytes held beyond that. -/
structure Room where
  bytes : Nat
  bound : Option Bound
  beyond : Nat
  deriving DecidableEq, Repr

/-- Count queued extents after `n` entries of the clip's list (R143). The final mark is looked at before the limit, so
an extent that is both bounds the room as the final one (log 63). -/
def countRoom (n : Nat) : List Extent → Room
  | [] => ⟨0, none, 0⟩
  | e :: r =>
    if e.final then ⟨e.count * 512, some .final, 0⟩
    else if 64 ≤ n + 1 then ⟨e.count * 512, some .limit, (r.map fun k => k.count * 512).sum⟩
    else
      let t := countRoom (n + 1) r
      { t with bytes := t.bytes + e.count * 512 }

/-- The held room of a slot with an open clip (R143). -/
def Slot.heldRoom (v : Slot) (c : Clip) : Room :=
  let here := c.listed - c.placed
  match c.extents.getLast? with
  | none => countRoom 0 v.queue
  | some e =>
    if e.extent.final then ⟨here, some .final, 0⟩
    else if 64 ≤ c.extents.length then ⟨here, some .limit, (v.queue.map fun k => k.count * 512).sum⟩
    else
      let t := countRoom c.extents.length v.queue
      { t with bytes := t.bytes + here }

/-- A slot holds room: a current extent or a queued one (R146). -/
def Slot.holdsRoom (v : Slot) : Bool := v.current.isSome || !v.queue.isEmpty

/-- The sectors that `placed` bytes use in each entry of an extent list (R151). -/
def useExtents : Nat → List ClipExtent → List ClipExtent
  | _, [] => []
  | placed, e :: r =>
    { e with used := (min placed e.room + 511) / 512 } :: useExtents (placed - e.room) r

/-- The current extent of an open clip: the last of its list, at the next unused sector (R143, R153). -/
def Clip.current (c : Clip) : Option CurrentExtent :=
  c.extents.getLast?.map fun e => ⟨e.extent, e.first + e.used⟩

/-- Take queued extents into a clip's list until its placed bytes fit (R151). -/
def takeExtents (placed : Nat) : List Extent → List ClipExtent → List ClipExtent × List Extent
  | [], l => (l, [])
  | e :: r, l =>
    if placed ≤ (l.map ClipExtent.room).sum then (l, e :: r)
    else takeExtents placed r (l ++ [⟨e, e.start, 0⟩])

/-- Place `n` bytes at the clip's end (R151, R153). -/
def Slot.placeBytes (v : Slot) (c : Clip) (source : ItemSource) (n : Nat) (counts : ClipCounts) : Slot :=
  let placed := c.placed + n
  let t := takeExtents placed v.queue c.extents
  let c1 := { c with
    placed := placed
    counts := counts
    items := c.items ++ [⟨c.placed, n, source, counts⟩]
    extents := useExtents placed t.1 }
  { v with clip := some c1, current := c1.current, queue := t.2 }

/-- The card sector of a byte of the clip, and the sectors from it to the end of its extent (R151, R153). -/
def sectorOf : Nat → List ClipExtent → Option (Nat × Nat)
  | _, [] => none
  | b, e :: r =>
    if b < e.room then some (e.first + b / 512, e.extent.stop - (e.first + b / 512)) else sectorOf (b - e.room) r

/-! ## The OPEN, CLOSE and FILL blocks (R149, R159, R160) -/

/-- The OPEN block of a clip (R149). -/
def Clip.openBlock (c : Clip) (x : SlotId) (mode : RecordMode) : List Byte :=
  streamBlock kindOpen c.first
    (leBytes 4 c.id.toNat ++ leBytes 4 c.prev.toNat ++ leBytes 4 c.first.toNat ++ leBytes 4 c.openFrame.toNat ++
      [BitVec.ofNat 8 (slotCode x), BitVec.ofNat 8 mode.code, BitVec.ofNat 8 c.rate.code, 0])
    (if c.continuation then 0x10 else 0)

/-- The frame number of a clip's CLOSE block: its last frame, or S when it holds no group (R159). -/
def Clip.closeFrame (c : Clip) : FrameNo := if c.counts.groups = 0 then c.first else c.next - 1

/-- The CLOSE block of a clip (R159). -/
def Clip.closeBlock (c : Clip) (x : SlotId) : List Byte :=
  streamBlock kindClose c.closeFrame
    (leBytes 4 c.id.toNat ++ [BitVec.ofNat 8 (slotCode x), BitVec.ofNat 8 (bit c.relayContinued + 2 * bit c.safeStopped)]
      ++ leBytes 4 c.first.toNat ++ leBytes 4 c.counts.groups ++ c.counts.firstTc.bytes ++ c.counts.lastTc.bytes
      ++ leBytes 4 c.counts.gaps ++ leBytes 4 c.counts.damaged ++ leBytes 4 c.nextId.toNat)
    0

/-- The FILL block with the largest payload, at most `n` zero bytes, that fits in `gap` (R160). -/
def largestFill (frame : FrameNo) (gap : Nat) : Nat → Option (List Byte)
  | 0 =>
    let b := streamBlock kindFill frame [] 0
    if b.length ≤ gap then some b else none
  | n + 1 =>
    let b := streamBlock kindFill frame (List.replicate (n + 1) 0) 0
    if b.length ≤ gap then some b else largestFill frame gap n

/-- The padding of a gap of `p` bytes (R160). -/
def padding (frame : FrameNo) (p : Nat) : List Byte :=
  let fill := if 14 ≤ p then (largestFill frame p (p - 14)).getD [] else []
  fill ++ List.replicate (p - fill.length) 0

/-- The bytes from a place in a clip to the end of its sector. -/
def gapAfter (placed : Nat) : Nat := (512 - placed % 512) % 512

/-! ## The stream buffer as a slot reads it -/

/-- The addresses of `n` bytes of the stream buffer from an offset on: at most two runs (R126). -/
def State.ringRuns (s : State) (offset n : Nat) : List (Nat × Nat) :=
  let base := s.shc.streamBase.toNat
  let o := offset % s.bufferSize
  if o + n ≤ s.bufferSize then [(base + o, n)]
  else [(base + o, s.bufferSize - o), (base, n - (s.bufferSize - o))]

/-- Read runs of common memory: the bytes, or the address at which an access failed. -/
def State.readRuns (s : State) : List (Nat × Nat) → Except Nat (List Byte)
  | [] => .ok []
  | (a, n) :: r =>
    match s.busRead a n with
    | .error bad => .error bad
    | .ok b =>
      match s.readRuns r with
      | .error bad => .error bad
      | .ok t => .ok (b ++ t)

/-- The timecode in the META block at an offset of the stream buffer (R150). The bytes are those that stand there, also
where the bus fails their addresses in the step (log 32). -/
def State.groupTimecode (s : State) (offset : Nat) : Timecode :=
  let bytes := (s.ringRuns (offset + 2) 40).flatMap fun r => Memory.readAll s.mem r.1 r.2
  match unstuff 18 bytes with
  | .ok b _ =>
    { frames := (b.getD 14 0).toNat, seconds := (b.getD 15 0).toNat, minutes := (b.getD 16 0).toNat,
      hours := (b.getD 17 0).toNat }
  | _ => .zero

/-- The counts of a clip with a group more (R150). -/
def ClipCounts.add (k : ClipCounts) (r : IndexRec) (tc : Timecode) : ClipCounts :=
  { groups := k.groups + 1
    gaps := k.gaps + bit (r.damage.getLsbD 0)
    damaged := k.damaged + bit (r.damage != 0)
    firstTc := if k.groups = 0 then tc else k.firstTc
    lastTc := tc }

/-- No group placed (R147). -/
def ClipCounts.zero : ClipCounts := { groups := 0, gaps := 0, damaged := 0, firstTc := .zero, lastTc := .zero }

/-! ## Opening and closing a slot's clip -/

/-- The newest group in the index. -/
def State.newestGroup (s : State) : Option FrameNo := s.sta.index.getLast?.map fun r => r.frame

/-- A new clip record and reader (R147, R148, R156). -/
def Clip.begin (id prev : Word) (continuation : Bool) (first openFrame : FrameNo) (rate : Rate)
    (e : ClipExtent) : Clip :=
  { id := id, prev := prev, continuation := continuation, first := first, openFrame := openFrame, rate := rate,
    recorded := 0, counts := .zero, extents := [e], relayContinued := false, safeStopped := false, nextId := 0,
    next := first, endPoint := none, items := [], placed := 0, sent := 0, acked := 0, begun := none,
    openPlaced := false, openLength := 0, openSector := 0, openDone := false, closePlaced := false,
    flushSent := false, paused := false, retry := false, fullAfter := false }

/-- The current extent a clip begins in: the slot's own, or the head of its queue (R143). -/
def Slot.firstExtent (v : Slot) : Option (ClipExtent × List Extent) :=
  match v.current, v.queue with
  | some c, q => some (⟨c.extent, c.pos, 0⟩, q)
  | none, e :: q => some (⟨e, e.start, 0⟩, q)
  | none, [] => none

/-- A slot becomes RECORDING with a new clip; the tag is 0 for a continuation (R147, R156). -/
def State.openClip (s : State) (x : SlotId) (id prev : Word) (continuation : Bool) (first : FrameNo)
    (tag : Nat) : State :=
  match (s.slot x).firstExtent with
  | none => s
  | some (e, q) =>
    let c := Clip.begin id prev continuation first s.frame s.ftu.nextFormat.rate e
    let s1 := s.updSlot x fun v =>
      { v with clip := some c, current := some ⟨e.extent, e.first⟩, queue := q, openTag := tag }
    s1.setSlotState x .recording

/-- A RECORDING slot becomes CLOSING with an end point; a pause ends (R157, R158). With the index empty the
end point is older than the clip's first frame. -/
def State.closeClip (s : State) (x : SlotId) (newest : Option FrameNo) : State :=
  (s.updClip x fun c =>
    { c with endPoint := some (newest.getD (c.first - 1)), retry := c.paused, paused := false }).setSlotState
      x .closing

/-- The slot takes a close request of the STA for dropped frame `f` (R158). -/
def State.dropClose (s : State) (f : FrameNo) (x : SlotId) : State :=
  match (s.slot x).st, (s.slot x).clip with
  | .recording, some c => if olderFrame f c.first then s else s.closeClip x s.newestGroup
  | _, _ => s

/-- The slot takes a safe-stop close request (R158, R178). -/
def State.stopClose (s : State) (newest : Option FrameNo) (x : SlotId) : State :=
  match (s.slot x).st, (s.slot x).clip with
  | .recording, some _ => (s.updClip x fun c => { c with safeStopped := true }).closeClip x newest
  | .closing, some c => if c.closePlaced then s else s.updClip x fun c => { c with safeStopped := true }
  | _, _ => s

/-! ## The writer (R150 to R152, R155, R156, R159) -/

/-- The other slot can continue a recording (R156). -/
def State.canContinue (s : State) (y : SlotId) : Bool :=
  let v := s.slot y
  v.st == .ready && !v.releasePending && v.holdsRoom && s.cgd.st != .tripped

/-- The relay id after it has been used (R156). -/
def nextRelayId (w : Word) : Word := if w = 0xFFFFFFFF#32 then 1 else w + 1

/-- The relay fails: RELAY_FAILED is logged with the other slot's state by its report code (R223, log 51), and the open
tag of the closing slot, if still in flight, ends RELAY_FAILED with the words of a completion that gives none (R156,
log 34). -/
def State.relayFailed (s : State) (x : SlotId) (k : FrameNo) : State :=
  let tag := (s.slot x).openTag
  let other := (s.slot (otherSlot x)).st
  if tag = 0 then s.occur ⟨.relayFailed, slotSource x, wordOfNat other.code, k, none⟩
  else
    let s1 := s.updSlot x fun v => { v with openTag := 0 }
    ({ s1 with deck := { s1.deck with openOrder := none } }).occur
      ⟨.relayFailed, slotSource x, wordOfNat other.code, k, some ⟨tag, .relayFailed, 0, 0, 0⟩⟩

/-- The recording relays to the other slot at group `k`, or fails to (R156). -/
def State.relay (s : State) (x : SlotId) (id : Word) (k : FrameNo) : State :=
  if s.canContinue (otherSlot x) then
    let w := s.deck.relayId
    let s1 := s.updClip x fun c => { c with relayContinued := true, nextId := w }
    let s2 := { s1 with deck := { s1.deck with relayId := nextRelayId w } }
    s2.openClip (otherSlot x) w id true k 0
  else s.relayFailed x k

/-- The clip closes at the boundary before group `k`, its held room being bounded (R151, R155). The extents held beyond
the clip's 64th count together toward CLIP_LIMIT (log 55). -/
def State.closeFull (s : State) (x : SlotId) (c : Clip) (k : FrameNo) (need : Nat) (room : Room) : State :=
  let limited := room.bound == some .limit && decide (need ≤ room.bytes + room.beyond) && decide (0 < room.beyond)
  let s1 := if limited then s.fault .clipLimit (slotSource x) k 64 else s
  let s2 := (s1.updClip x fun c => { c with fullAfter := room.bound == some .final }).closeClip x (some (k - 1))
  if s.deck.mode = .relay then s2.relay x c.id k else s2

/-- The writer pauses before group `k` (R152). -/
def State.pauseWriter (s : State) (x : SlotId) (c : Clip) (k : FrameNo) (room : Room) : State :=
  let s1 := s.updClip x fun c => { c with paused := true }
  if c.retry then s1 else s1.fault .extentStarved (slotSource x) k (wordOfNat room.bytes)

/-- The writer places the OPEN block (R149). -/
def State.placeOpen (s : State) (x : SlotId) (c : Clip) (block : List Byte) : State :=
  let sector := match c.extents.head? with
    | some e => e.first
    | none => 0
  let s1 := s.updSlot x fun v => v.placeBytes c (.own block) block.length c.counts
  let s2 := s1.updClip x fun d =>
    { d with openPlaced := true, openLength := block.length, openSector := sector, retry := false }
  { s2 with deck := { s2.deck with openOrder := s2.deck.openOrder.map fun o =>
      if c.continuation then o else
      match x with
      | .a => { o with sectorA := sector }
      | .b => { o with sectorB := sector } } }

/-- The writer places a group (R150). -/
def State.placeGroup (s : State) (x : SlotId) (c : Clip) (r : IndexRec) : State :=
  let counts := c.counts.add r (s.groupTimecode r.offset)
  (s.updSlot x fun v => v.placeBytes c (.group r.frame r.offset) r.length counts).updClip x fun d =>
    { d with next := r.frame + 1, retry := false }

/-- The writer places the CLOSE block and its padding (R159, R160). -/
def State.placeClose (s : State) (x : SlotId) (c : Clip) : State :=
  let block := c.closeBlock x
  let s1 := s.updSlot x fun v => v.placeBytes c (.own block) block.length c.counts
  let pad := padding c.closeFrame (gapAfter (c.placed + block.length))
  let s2 :=
    match (s1.slot x).clip with
    | some d => s1.updSlot x fun v => v.placeBytes d (.own pad) pad.length d.counts
    | none => s1
  s2.updClip x fun d => { d with closePlaced := true }

/-- One thing the writer of a slot does, if it has anything to do. A fit test that fails in CLOSING logs no CLIP_LIMIT
(log 64). -/
def State.writerStep (s : State) (x : SlotId) : Option State :=
  let v := s.slot x
  match v.clip with
  | none => none
  | some c =>
    if c.closePlaced || c.paused || !v.clipOpen then none
    else
      let room := v.heldRoom c
      let closing := v.st == .closing
      let block := c.openBlock x s.deck.mode
      if !c.openPlaced then
        if closing || decide (block.length + 512 ≤ room.bytes) then some (s.placeOpen x c block)
        else if room.bound.isSome then some (s.closeFull x c c.first (block.length + 512) room)
        else some (s.pauseWriter x c c.first room)
      else
        let beyond := match c.endPoint with
          | some e => !notNewer c.next e
          | none => false
        if beyond then some (s.placeClose x c)
        else
          match s.sta.index.find? fun r => r.frame == c.next with
          | none => if closing then some (s.placeClose x c) else none
          | some r =>
            if r.length + 512 ≤ room.bytes then some (s.placeGroup x c r)
            else if closing then some (s.updClip x fun d => { d with endPoint := some (c.next - 1) })
            else if room.bound.isSome then some (s.closeFull x c c.next (r.length + 512) room)
            else some (s.pauseWriter x c c.next room)

/-- Both writers place what they can, slot A first. -/
def State.runWriters : Nat → State → State
  | 0, s => s
  | n + 1, s =>
    match s.writerStep .a with
    | some t => State.runWriters n t
    | none =>
      match s.writerStep .b with
      | some t => State.runWriters n t
      | none => s

/-- More steps than two writers can take: each places each group once, and opens, closes, ends and pauses
once. -/
def State.writerFuel (s : State) : Nat := 2 * s.sta.index.length + 16

end Sys2Proof.Machine
end

