-- ==== Sys2Proof/Machine/Recogniser.lean ====
section
/-! DEFINITION. The recogniser of a scan (R165 to R167). -/

namespace Sys2Proof.Machine

/-- Every byte of the extent has been read. -/
def Scan.atEnd (c : Scan) : Bool := decide (c.count ≤ c.sectorsRead)

/-- The scan ends (R167). -/
def Scan.finish (c : Scan) : Scan := { c with ended := true }

/-- The recogniser passes one byte in SEARCH; at the end of a sector passed wholly in SEARCH with no candidate
the blank count rises, and at 64 the scan ends (R167). -/
def Scan.pass (c : Scan) : Scan :=
  let p := c.pos + 1
  let c1 := { c with mode := .search, pos := p, bytes := c.bytes.drop 1, progress := .none }
  if p % 512 = 0 then
    let blank := if c.sectorClean then c.blank + 1 else c.blank
    { c1 with sectorClean := true, blank := blank, ended := c.ended || decide (64 ≤ blank) }
  else c1

/-- Return to SEARCH at the byte after the lead of a block or candidate: that byte's sector was not passed
wholly in SEARCH. -/
def Scan.searchAfterLead (c : Scan) : Scan := ({ c with sectorClean := false } : Scan).pass

/-- The group a valid block leaves in progress, and whether it completes one (R166). -/
def GroupProgress.next (g : GroupProgress) (kind : Byte) (f : FrameNo) : GroupProgress × Bool :=
  if kind = kindMeta then (.opened f, false)
  else if kind = kindVideo ∨ kind = kindGap then
    if g = .opened f then (.pictured f, false) else (.none, false)
  else if kind = kindAudio then (.none, g == .pictured f)
  else (.none, false)

/-- A valid block of `taken` bytes (R166). -/
def Scan.valid (c : Scan) (kind : Byte) (f : FrameNo) (taken : Nat) : Scan :=
  let g := c.progress.next kind f
  let p := c.pos + taken
  { c with
    mode := .locked, pos := p, bytes := c.bytes.drop taken, validEnd := p, progress := g.1,
    groups := if g.2 then c.groups + 1 else c.groups
    lastGroup := if g.2 then f else c.lastGroup
    sectorClean := p % 512 == 0 }

/-- A bad block is counted (R166). -/
def Scan.countBad (c : Scan) : Scan := { c with badBlocks := c.badBlocks + 1 }

/-- A candidate begins: the blank count becomes 0 (R167). -/
def Scan.candidate (c : Scan) : Scan := { c with mode := .probe, blank := 0, sectorClean := false }

/-- Judge a candidate in PROBE; no answer while bytes it needs have not been read (R165). Of the bytes at its end the
test reads only as many as it takes to fail: where fewer than a header's are left in the extent and those already fail
it, the candidate fails (log 54). -/
def Scan.probe (c : Scan) (kind : Byte) (f : FrameNo) (length head : Nat) : Option Scan :=
  match readBody head length c.bytes with
  | .bad => some c.searchAfterLead
  | .short => if c.atEnd then some c.finish else none
  | .done taken good =>
    if !good then some c.searchAfterLead
    else
      match readHead (c.bytes.drop taken) with
      | .start _ _ _ _ => some (c.valid kind f taken)
      | .other => some c.searchAfterLead
      | .short => if c.atEnd then some (c.valid kind f taken).finish else none

/-- Judge the block in hand in LOCKED; no answer while bytes it needs have not been read. A block read whole whose
check matches is valid at once, whatever comes after it (R166). -/
def Scan.judge (c : Scan) (kind : Byte) (f : FrameNo) (length head : Nat) : Option Scan :=
  match readBody head length c.bytes with
  | .bad => some c.countBad.searchAfterLead
  | .short => if c.atEnd then some c.finish else none
  | .done taken good =>
    if good then some { c.valid kind f taken with mode := .after } else some c.countBad.searchAfterLead

/-- Judge what stands after a valid block: the next block, or the return to SEARCH at that place, with a bad block
unless a zero byte stands there (R166). -/
def Scan.judgeAfter (c : Scan) : Option Scan :=
  match readHead c.bytes with
  | .start _ _ _ _ => some { c with mode := .locked }
  | .other =>
    let d := if c.bytes.head? = some 0 then c else c.countBad
    some { d with mode := .search, progress := .none }
  | .short => if c.atEnd then some c.finish else none

/-- One step of the recogniser; no answer when it waits for bytes or the scan has ended. -/
def Scan.step (c : Scan) : Option Scan :=
  if c.ended then none
  else
    match c.mode, readHead c.bytes with
    | .after, _ => c.judgeAfter
    | .locked, .start k f n h => c.judge k f n h
    | .locked, _ => if c.atEnd then some c.finish else none
    | .probe, .start k f n h => c.probe k f n h
    | .probe, _ => some c.searchAfterLead
    | .search, .start _ _ _ _ => some c.candidate
    | .search, .other => some c.pass
    | .search, .short =>
      if !c.atEnd then none
      else if c.bytes.isEmpty then some c.finish
      else some c.pass

/-- Run the recogniser on what has been read; a byte is passed in two steps at most. -/
def Scan.run : Nat → Scan → Scan
  | 0, c => c
  | n + 1, c =>
    match c.step with
    | some d => Scan.run n d
    | none => c

/-- The bytes of a READ are passed to the recogniser (R164). -/
def Scan.take (c : Scan) (sectors : Nat) (data : List Byte) : Scan :=
  let c1 := { c with sectorsRead := c.sectorsRead + sectors, bytes := c.bytes ++ data }
  Scan.run (2 * c1.bytes.length + 4) c1

/-- A scan accepted (R164). -/
def Scan.begin (start count : Nat) : Scan := { Scan.reset with start := start, count := count }

end Sys2Proof.Machine
end

