-- ==== Sys2Proof/Machine/Cards.lean ====
section
/-! DEFINITION. The card link (07): sending commands, replies, failures, and the end of closes, releases and
scans. -/

namespace Sys2Proof.Machine

/-! ## Commands (R137, R138) -/

/-- The timeout of a command in µs (R137). -/
def CardCommand.timeout : CardCommand → Nat
  | .flush => 1000000
  | _ => 500000

/-- The code of a command (R140). -/
def CardCommand.code : CardCommand → Nat
  | .identify => 1
  | .write _ _ _ => 2
  | .read _ _ => 3
  | .flush => 4

/-- The start sector of a command, or 0 (R139, R140). -/
def CardCommand.sector : CardCommand → Nat
  | .write n _ _ => n
  | .read n _ => n
  | _ => 0

/-- A slot sends a command and loads its timer (R138). -/
def State.send (s : State) (x : SlotId) (c : CardCommand) : State :=
  s.updSlot x fun v => { v with command := some c, timer := some (s.now + c.timeout), waiting := none }

/-- The command in flight has ended. -/
def Slot.answered (v : Slot) : Slot := { v with command := none, timer := none, waiting := none }

/-! ## WRITE (R153) -/

/-- The bytes of an item that lie from `lo` up to `hi` of the clip. -/
def State.itemBytes (s : State) (i : PlacedItem) (lo hi : Nat) : Except Nat (List Byte) :=
  let a := max lo i.start
  let b := min hi (i.start + i.length)
  if a < b then
    match i.source with
    | .own bytes => .ok ((bytes.drop (a - i.start)).take (b - a))
    | .group _ offset => s.readRuns (s.ringRuns (offset + (a - i.start)) (b - a))
  else .ok []

/-- The bytes of the clip from `lo` up to `hi`, or the address at which the stream buffer failed. -/
def State.clipBytes (s : State) (lo hi : Nat) : List PlacedItem → Except Nat (List Byte)
  | [] => .ok []
  | i :: r =>
    match s.itemBytes i lo hi with
    | .error bad => .error bad
    | .ok b =>
      match s.clipBytes lo hi r with
      | .error bad => .error bad
      | .ok t => .ok (b ++ t)

/-- The frame of a group item. -/
def PlacedItem.frame? (i : PlacedItem) : Option FrameNo :=
  match i.source with
  | .group f _ => some f
  | .own _ => none

/-- The newest group of which bytes before `sent` have been sent. -/
def newestBegun (sent : Nat) (items : List PlacedItem) : Option FrameNo :=
  (items.filterMap fun i => if i.start < sent then i.frame? else none).getLast?

/-- The group items all of whose bytes lie before `sent`. -/
def groupsWithin (sent : Nat) (items : List PlacedItem) : List PlacedItem :=
  items.filter fun i => i.frame?.isSome && decide (i.start + i.length ≤ sent)

/-- Keep the entries of an extent list up to the one that holds byte `b` of the clip (R153). -/
def keepExtents : Nat → List ClipExtent → List ClipExtent
  | _, [] => []
  | b, e :: r => if b < e.room then [e] else e :: keepExtents (b - e.room) r

/-- The placement beyond the last group wholly sent is undone, and the clip has that group as its end point
(R153). -/
def Clip.undo (c : Clip) : Clip :=
  let kept := groupsWithin c.sent c.items
  let last := kept.getLast?
  let e : FrameNo := match last with
    | some i => i.frame?.getD (c.first - 1)
    | none => c.first - 1
  let placed := if c.sent = 0 then c.openLength else c.sent
  { c with
    endPoint := some e
    next := e + 1
    counts := match last with
      | some i => i.counts
      | none => .zero
    items := c.items.filter fun i => decide (i.start + i.length ≤ placed)
    placed := placed
    closePlaced := false
    paused := false
    extents := useExtents placed (keepExtents placed c.extents) }

/-- A common bus error while reading the stream buffer for a WRITE (R153). -/
def State.writeBusError (s : State) (x : SlotId) (bad : Nat) : State :=
  let s1 := s.busFault (slotBus x) bad
  let s2 := s1.updSlot x fun v =>
    match v.clip with
    | some c => { v with clip := some c.undo, current := c.undo.current }
    | none => v
  if (s2.slot x).st = .recording then s2.setSlotState x .closing else s2

/-- The writer has a WRITE to send: 256 sectors of placed bytes, or any once the last padding is placed
(R153). -/
def Clip.writeDue (c : Clip) : Bool :=
  decide (131072 ≤ c.placed - c.sent) || (c.closePlaced && decide (c.sent < c.placed))

/-- The sectors of the WRITE due, `left` of them being left in the extent (R153). -/
def Clip.writeCount (c : Clip) (left : Nat) : Nat :=
  let n := min 256 left
  if c.closePlaced then min n ((c.placed - c.sent) / 512) else n

/-- The newest group the reader has begun to send, once the clip's bytes up to `sent` are sent: a group once begun
counts although its placement has been undone since (R132, R153). -/
def Clip.nextBegun (c : Clip) (sent : Nat) : Option FrameNo :=
  match newestBegun sent c.items with
  | none => c.begun
  | some f => Machine.raiseFloor c.begun f

/-- Send the WRITE due (R153). -/
def State.sendWrite (s : State) (x : SlotId) (c : Clip) : State :=
  match sectorOf c.sent c.extents with
  | none => s
  | some (sector, left) =>
    let n := c.writeCount left
    match s.clipBytes c.sent (c.sent + n * 512) c.items with
    | .error bad => s.writeBusError x bad
    | .ok data =>
      let sent := c.sent + n * 512
      let s1 := s.updClip x fun d =>
        { d with sent := sent, begun := d.nextBegun sent }
      s1.send x (.write sector n data)

/-- The close has its last WRITE answered and no FLUSH sent (R160). -/
def Clip.flushDue (c : Clip) : Bool := c.closePlaced && c.acked == c.placed && !c.flushSent

/-- The scan has a READ to send (R164). -/
def Slot.readDue (v : Slot) : Bool := v.st == .scanning && !v.scan.ended && !v.scan.atEnd

/-- Send the READ due: 64 sectors or those that remain (R164). -/
def State.sendRead (s : State) (x : SlotId) : State :=
  let c := (s.slot x).scan
  s.send x (.read (c.start + c.sectorsRead) (min 64 (c.count - c.sectorsRead)))

/-- What a slot has to send behind the command in flight (R138). -/
def Slot.behind (v : Slot) : Option WaitingCommand :=
  match v.clip with
  | some c => if v.clipOpen && c.writeDue then some .write else none
  | none => if v.releasePending && !v.releaseSent then some .flush else none

/-- A slot sends what it has to send, or lets it wait behind the command in flight (R138). -/
def State.sendDue (s : State) (x : SlotId) : State :=
  let v := s.slot x
  if v.command.isSome then s.updSlot x fun v => { v with waiting := v.behind }
  else
    match v.clip with
    | some c =>
      if !v.clipOpen then s
      else if c.writeDue then s.sendWrite x c
      else if c.flushDue then (s.updClip x fun d => { d with flushSent := true }).send x .flush
      else s
    | none =>
      if v.releasePending && !v.releaseSent then (s.updSlot x fun v => { v with releaseSent := true }).send x .flush
      else if v.readDue then s.sendRead x
      else s

/-- The slots do what they can: the writers place, and the slots send. A WRITE that finds a bus error leaves the
writer its CLOSE block to place and send, so this is done twice (log 15). -/
def State.work (s : State) : State :=
  let once (s : State) : State :=
    let s1 := State.runWriters s.writerFuel s
    (s1.sendDue .a).sendDue .b
  (once (once s)).release

/-! ## The open and close orders (R154, R157, R161) -/

/-- A slot opened by a CLIP_OPEN has had its open done; with the last of them the tag ends COMPLETE (R154). -/
def State.openDone (s : State) (x : SlotId) : State :=
  let s1 := s.updClip x fun c => { c with openDone := true }
  match s1.deck.openOrder with
  | none => s1
  | some o =>
    if (s1.slot x).openTag = 0 then s1
    else
      let o1 := match x with
        | .a => { o with waitA := false }
        | .b => { o with waitB := false }
      if o1.waitA || o1.waitB then { s1 with deck := { s1.deck with openOrder := some o1 } }
      else
        let s2 := s1.endTag o1.tag .complete o1.clipId o1.first
          (wordOfNat (if o1.usesA then o1.sectorA else o1.sectorB))
        { s2 with
          deck := { s2.deck with openOrder := none }
          slotA := { s2.slotA with openTag := 0 }
          slotB := { s2.slotB with openTag := 0 } }

/-- A slot closed by a CLIP_CLOSE has ended its close; with the last of them the tag ends COMPLETE (R157). -/
def State.closeDone (s : State) (x : SlotId) (frames : Nat) : State :=
  match s.deck.closeOrder with
  | none => s
  | some o =>
    if (s.slot x).closeTag = 0 then s
    else
      let o1 := match x with
        | .a => { o with waitA := false, framesA := frames }
        | .b => { o with waitB := false, framesB := frames }
      if o1.waitA || o1.waitB then { s with deck := { s.deck with closeOrder := some o1 } }
      else
        let s1 := s.endTag o1.tag .complete (wordOfNat o1.framesA) (wordOfNat o1.framesB) o1.endPoint
        { s1 with deck := { s1.deck with closeOrder := none } }

/-- The reader of a slot is removed: the retention floor rises to the newest group it had begun to send, and
records are released (R132, R161). -/
def State.removeReader (s : State) (x : SlotId) : State :=
  match (s.slot x).clip with
  | none => s
  | some c =>
    let s1 := s.updSlot x fun v => { v with clip := none }
    s1.raiseFloor c.begun

/-- The current extent after a close: none when it is used up (R143, R161). -/
def restOfExtent (c : Option CurrentExtent) : Option CurrentExtent :=
  match c with
  | some e => if e.pos < e.extent.stop then some e else none
  | none => none

/-- The FLUSH of a close is answered OK: the close ends (R161). -/
def State.endClose (s : State) (x : SlotId) (c : Clip) : State :=
  let s1 := if c.openDone then s else s.openDone x
  let s2 := s1.closeDone x c.recorded
  let s3 := s2.removeReader x
  let s4 := s3.updSlot x fun v =>
    { v with current := restOfExtent v.current, openTag := 0, closeTag := 0 }
  (s4.setSlotState x (if c.fullAfter then .full else .ready)).release

/-! ## Failures (R139 to R142, R162) -/

/-- The result words of a scan tag (R167). -/
def Slot.scanWords (v : Slot) : Word × Word × Word :=
  (wordOfNat v.scan.validEnd, v.scan.lastGroup, wordOfNat v.scan.groups)

/-- The tag a fault on a slot names: close, else open, else scan (R141). -/
def Slot.capturedTag (v : Slot) : Nat :=
  if v.closeTag ≠ 0 then v.closeTag else if v.openTag ≠ 0 then v.openTag else v.scanTag

/-- The result words with which the named tag ends CARD_FAILED: those of a scan that a timeout ends (R167), else 0, as
a tag record has them where the completion gives none (the tag table of 01, log 34). -/
def Slot.failedWords (v : Slot) (scanned : Bool) : Word × Word × Word :=
  if scanned && v.closeTag == 0 && v.openTag == 0 then v.scanWords else (0, 0, 0)

/-- The completion of the named tag, if there is one (R141). -/
def Slot.cardFailed (v : Slot) (scanned : Bool) : Option Completion :=
  if v.capturedTag = 0 then none
  else
    let w := v.failedWords scanned
    some ⟨v.capturedTag, .cardFailed, w.1, w.2.1, w.2.2⟩

/-- A slot no longer holds a tag that has ended (R141). -/
def Slot.dropTag (tag : Nat) (v : Slot) : Slot :=
  { v with
    openTag := if v.openTag = tag then 0 else v.openTag
    closeTag := if v.closeTag = tag then 0 else v.closeTag
    scanTag := if v.scanTag = tag then 0 else v.scanTag }

/-- A fault that captures tags is logged on a slot; the slot's other tag ends directly (R141). A tag shared by both
slots has ended for the other slot too: nothing of it is sent from there later, whatever order has the number then.
`scanned` says that a scan ends with its results (R167); a removal ends it without (R142). -/
def State.slotFault (s : State) (x : SlotId) (k : FaultKind) (d1 d2 : Word) (scanned : Bool) : State :=
  let v := s.slot x
  let s1 := s.occur ⟨k, slotSource x, d1, d2, v.cardFailed scanned⟩
  let other := if v.closeTag ≠ 0 then v.openTag else 0
  let s2 := s1.endTag other .cardFailed 0 0 (wordOfNat (slotCode x))
  let s3 := s2.updSlot x fun v => { v with openTag := 0, closeTag := 0, scanTag := 0 }
  s3.updSlot (otherSlot x) fun w => (w.dropTag v.capturedTag).dropTag other

/-- What a slot was doing ends: its command, its waiting command, a release, a scan; an open clip is broken
(R140, R162). -/
def State.dropWork (s : State) (x : SlotId) : State :=
  let broken := (s.slot x).clip.isSome
  let s1 := s.removeReader x
  s1.updSlot x fun v =>
    { v with command := none, timer := none, waiting := none, releasePending := false, releaseSent := false,
             current := if broken then none else v.current, scan := v.scan.finish }

/-- A slot becomes FAULTED after a failed command. -/
def State.failSlot (s : State) (x : SlotId) : State := ((s.dropWork x).setSlotState x .faulted).release

/-- A WRITE or FLUSH answered ERROR (R139). -/
def State.cardWriteFails (s : State) (x : SlotId) (c : CardCommand) (code : Word) : State :=
  (s.slotFault x .cardWrite code (wordOfNat c.sector) true).failSlot x

/-- The command timer expires (R140). -/
def State.cardTimesOut (s : State) (x : SlotId) (c : CardCommand) : State :=
  (s.slotFault x .cardTimeout (wordOfNat c.code) (wordOfNat c.sector) true).failSlot x

/-- The detail words of CARD_PULLED, where it is logged (R142). -/
def Slot.pulled (v : Slot) : Option (Nat × Nat) :=
  let frames := match v.clip with
    | some c => c.recorded
    | none => 0
  match v.st with
  | .recording => some (1, frames)
  | .closing => some (2, frames)
  | .scanning => some (3, v.scan.sectorsRead)
  | _ => none

/-- A removal from a slot that is not EMPTY (R142). -/
def State.removeCard (s : State) (x : SlotId) : State :=
  let s1 := match (s.slot x).pulled with
    | some (d1, d2) => s.slotFault x .cardPulled (wordOfNat d1) (wordOfNat d2) false
    | none => s
  let s2 := (s1.dropWork x).updSlot x fun v => { v with capacity := 0, current := none, queue := [] }
  (s2.setSlotState x .empty).release

/-- An insertion, or the entry to RUNNING, with a card present: PROBING and IDENTIFY (R136). -/
def State.probeCard (s : State) (x : SlotId) : State :=
  ((s.updSlot x fun v => { v with capacity := 0 }).setSlotState x .probing).send x .identify

/-! ## Replies -/

/-- IDENTIFY is answered (R136). -/
def State.identified (s : State) (x : SlotId) (answer : IdentifyAnswer) : State :=
  match (s.slot x).command with
  | some .identify =>
    let s1 := s.updSlot x Slot.answered
    match answer with
    | .ok capacity wp =>
      (s1.updSlot x fun v => { v with capacity := capacity.toNat, writeProtected := wp }).setSlotState x
        (if wp then .guarded else .ready)
    | .error _ => s1.setSlotState x .faulted
  | _ => s

/-- A WRITE is answered OK (R154). -/
def State.written (s : State) (x : SlotId) : State :=
  match (s.slot x).clip with
  | none => s
  | some c =>
    let n := (groupsWithin c.sent c.items).length - (groupsWithin c.acked c.items).length
    let s1 := s.updClip x fun d => { d with acked := d.sent, recorded := d.recorded + n }
    if c.openPlaced && !c.openDone && decide (c.openLength ≤ c.sent) then s1.openDone x else s1

/-- WRITE is answered (R139, R154). -/
def State.writeAnswered (s : State) (x : SlotId) (answer : CardAnswer) : State :=
  match (s.slot x).command with
  | some (.write a n d) =>
    let s1 := s.updSlot x Slot.answered
    match answer with
    | .ok => (s1.written x).release
    | .error code => s1.cardWriteFails x (.write a n d) code
  | _ => s

/-- A release's FLUSH is answered OK (R163). -/
def State.released (s : State) (x : SlotId) : State :=
  let s1 := s.updSlot x fun v => { v with releasePending := false, releaseSent := false }
  if (s.slot x).st = .full then s1.setSlotState x .ready else s1

/-- FLUSH is answered (R139, R161, R163). -/
def State.flushAnswered (s : State) (x : SlotId) (answer : CardAnswer) : State :=
  match (s.slot x).command with
  | some .flush =>
    let s1 := s.updSlot x Slot.answered
    match answer, (s.slot x).clip with
    | .ok, some c => s1.endClose x c
    | .ok, none => s1.released x
    | .error code, _ => s1.cardWriteFails x .flush code
  | _ => s

/-- The scan ends with the slot READY; its tag ends with its result words (R167). -/
def State.endScan (s : State) (x : SlotId) (outcome : TagOutcome) : State :=
  let v := s.slot x
  let w := v.scanWords
  let s1 := s.endTag v.scanTag outcome w.1 w.2.1 w.2.2
  (s1.updSlot x fun v => { v with scanTag := 0, scan := v.scan.finish }).setSlotState x .ready

/-- The data of a READ as it reaches the scan: exactly its sectors (log 36). -/
def sectorsOf (n : Nat) (data : List Byte) : List Byte :=
  data.take (n * 512) ++ List.replicate (n * 512 - data.length) 0

/-- READ is answered (R139, R164 to R167). -/
def State.readAnswered (s : State) (x : SlotId) (answer : ReadAnswer) : State :=
  match (s.slot x).command with
  | some (.read _ n) =>
    let s1 := s.updSlot x Slot.answered
    match answer with
    | .error _ => s1.endScan x .cardFailed
    | .ok data =>
      let s2 := s1.updSlot x fun v => { v with scan := v.scan.take n (sectorsOf n data) }
      if (s2.slot x).scan.ended then s2.endScan x .complete else s2
  | _ => s

end Sys2Proof.Machine
end

