-- ==== Sys2Proof/Machine/Stream.lean ====
section
/-! DEFINITION. The Stream Assembler (06): pending records, the unit table, group copies and dropped frames. -/

namespace Sys2Proof.Machine

/-- Replace the STA. -/
def State.setSta (s : State) (t : Sta) : State := { s with sta := t }

/-! ## Staging claims (R119) -/

/-- The staging slot of a frame. -/
def stagingIndex (f : FrameNo) : Nat := f.toNat % 8

/-- Release a frame's claim, if it holds one. -/
def Sta.releaseClaim (t : Sta) (f : FrameNo) : Sta :=
  if t.claims.getD (stagingIndex f) none = some f then
    { t with claims := t.claims.set (stagingIndex f) none }
  else t

/-- Ask for a frame's staging slot: claimed when it is free. -/
def Sta.claim (t : Sta) (f : FrameNo) : Option Sta :=
  match t.claims.getD (stagingIndex f) none with
  | none => some { t with claims := t.claims.set (stagingIndex f) (some f) }
  | some _ => none

/-! ## The unit table (R122 to R124, R224, R225) -/

/-- An entry of the unit table as the STA reads it. -/
structure UnitEntry where
  index : Nat
  frame : FrameNo
  address : Word
  length : Word
  damaged : Bool
  deriving DecidableEq, Repr

/-- The address of an entry of the unit table (R217, R224). -/
def State.unitAddress (s : State) (i : Nat) : Nat := s.shc.partBase.toNat + 0x3400 + 32 * i

/-- A FILLED entry from its 32 bytes; any other state is taken as EMPTY (R224, R225). -/
def unitEntry (i : Nat) (b : List Byte) : Option UnitEntry :=
  if ofLe (b.take 4) = 1 then
    some { index := i
           frame := BitVec.ofNat 32 (ofLe ((b.drop 4).take 4))
           address := BitVec.ofNat 32 (ofLe ((b.drop 8).take 4))
           length := BitVec.ofNat 32 (ofLe ((b.drop 12).take 4))
           damaged := (b.getD 16 0).getLsbD 0 }
  else none

/-- The FILLED entries of a table of 256 bytes. -/
def unitEntries (b : List Byte) : List UnitEntry :=
  (List.range 8).filterMap fun i => unitEntry i ((b.drop (32 * i)).take 32)

/-- Read the unit table: its FILLED entries, or the address at which the read failed. Bytes 0x14 to 0x1F of an
entry are not read (R225). -/
def State.readUnits (s : State) : Except Nat (List UnitEntry) :=
  match s.spansError ((List.range 8).map fun i => (s.unitAddress i, 20)) with
  | some bad => .error bad
  | none => .ok (unitEntries (Memory.readAll s.mem (s.unitAddress 0) 256))

/-- Write EMPTY into an entry (R225). -/
def State.emptyUnit (s : State) (i : Nat) : State := (s.blockWrite .sta (s.unitAddress i) (leBytes 4 0)).1

/-- The used entry, if any, is written EMPTY. -/
def State.emptyUsed (s : State) : Option UsedUnit → State
  | none => s
  | some u => s.emptyUnit u.entry

/-- Judge the entries against frame `f`: late ones and second ones are written EMPTY and logged (R123). The
answer is the candidate unit. -/
def State.judgeUnits (f : FrameNo) : List UnitEntry → Option UnitEntry → State → State × Option UnitEntry
  | [], c, s => (s, c)
  | u :: r, c, s =>
    if olderFrame u.frame f then
      State.judgeUnits f r c
        ((s.emptyUnit u.index).fault .unitLate .none (wordOfNat u.index) u.frame)
    else if u.frame = f then
      match c with
      | none => State.judgeUnits f r (some u) s
      | some _ =>
        State.judgeUnits f r c ((s.emptyUnit u.index).fault .unitDup .none (wordOfNat u.index) f)
    else State.judgeUnits f r c s

/-- The largest unit (R112). -/
def maxUnit : Nat := 1048576

/-- What becomes of the candidate: the used unit, and whether its GAP is marked DAMAGED (R123). -/
def State.useCandidate (s : State) : Option UnitEntry → State × Option UsedUnit × Bool
  | none => (s, none, false)
  | some u =>
    if u.length.toNat = 0 ∨ maxUnit < u.length.toNat ∨ u.damaged = true then
      ((s.emptyUnit u.index).fault .unitDamaged .none (wordOfNat u.index) u.length, none, true)
    else (s, some ⟨u.index, u.address, u.length⟩, false)

/-- The entries of frame `f` and older are written EMPTY without a fault (R124). -/
def State.giveBack (s : State) (f : FrameNo) : State :=
  match s.readUnits with
  | .error bad => s.busFault .sta bad
  | .ok l => (l.filter fun u => notNewer u.frame f).foldl (fun s u => s.emptyUnit u.index) s

/-! ## Groups (R115, R116) -/

/-- The AUDIO block could not carry its sound: its record is not staged, or staging could not be read. -/
def GroupCopy.soundless (g : GroupCopy) : Bool := !g.audio.staged || g.audioBad

/-- The damage mask (R116, R226). -/
def GroupCopy.damage (g : GroupCopy) : Byte :=
  BitVec.ofNat 8
    (bit g.unit.isNone + 2 * bit (g.unit.isNone && g.gapDamaged) + 4 * bit (g.audio.underrun || g.soundless)
      + 8 * bit g.audio.slip + 16 * bit g.audio.clockLost + 32 * bit g.source.frame.lost
      + 64 * bit (g.source.crop.mode == .hold))

/-- The timecode flags (R226). -/
def FrameRec.tcFlags (r : FrameRec) : Byte :=
  BitVec.ofNat 8 (bit r.drop + 2 * bit r.run + 4 * bit r.brk + 8 * bit r.lost)

/-- The stabiliser state byte (R226). -/
def CropRec.stateByte (c : CropRec) : Byte :=
  BitVec.ofNat 8 (c.mode.code + 4 * c.yawPan.code + 16 * c.pitchPan.code + 64 * bit c.yawEdge
    + 128 * bit c.pitchEdge)

/-- The audio flags byte of META (R226). -/
def AudioRec.flagByte (a : AudioRec) : Byte :=
  BitVec.ofNat 8 (bit a.slip + 2 * bit a.underrun + 4 * bit a.clockLost + 8 * bit a.silent
    + 16 * bit a.overload.c1 + 32 * bit a.overload.c2 + 64 * bit a.overload.c3 + 128 * bit a.overload.c4)

/-- The unit's length, 0 with a GAP. -/
def GroupCopy.unitLength (g : GroupCopy) : Nat :=
  match g.unit with
  | some u => u.length.toNat
  | none => 0

/-- The META payload, 40 bytes (R115, R226). -/
def GroupCopy.metaPayload (g : GroupCopy) : List Byte :=
  let f := g.source.frame
  let l := g.source.lens
  let c := g.source.crop
  leBytes 4 f.frame.toNat ++ f.tc.bytes
    ++ leSigned 2 l.zoom ++ leSigned 2 l.focus ++ leSigned 2 l.iris
    ++ leSigned 2 c.x ++ leSigned 2 c.y ++ leSigned 2 c.scale
    ++ [c.stateByte, BitVec.ofNat 8 (l.shotCode + 4 * l.shotIndex)]
    ++ g.audio.meters.list.map (fun m => BitVec.ofNat 8 m)
    ++ [g.audio.flagByte]
    ++ g.audio.gains.list.map (fun m => BitVec.ofNat 8 m)
    ++ [g.damage, BitVec.ofNat 8 f.rate.code, f.tcFlags]
    ++ leBytes 4 g.unitLength ++ [BitVec.ofNat 8 f.cadIndex, 0]

/-- The flags of the AUDIO block (R116, R226). -/
def GroupCopy.audioFlags (g : GroupCopy) : Byte :=
  BitVec.ofNat 8 (bit g.soundless + 2 * bit g.audio.slip + 4 * bit g.audio.underrun
    + 8 * bit (g.audio.silent || g.soundless))

/-- The group's bytes as they stand in the stream (R115). -/
def GroupCopy.bytes (g : GroupCopy) (picture sound : List Byte) : List Byte :=
  let f := g.source.frame.frame
  streamBlock kindMeta f g.metaPayload 0
    ++ (match g.unit with
        | some _ => streamBlock kindVideo f picture 0
        | none => streamBlock kindGap f [] (BitVec.ofNat 8 (bit g.gapDamaged)))
    ++ streamBlock kindAudio f sound g.audioFlags

/-- The group's size before escaping (R115). -/
def GroupCopy.size (g : GroupCopy) : Nat := 82 + g.unitLength + 12 * g.audio.count

/-! ## Dropped frames (R133) -/

/-- Frame `f` is dropped: its claim, its used entry, the count, the floor, and the RECORDING slots told to close
(R133). -/
def State.dropFrame (s : State) (f : FrameNo) (unit : Option UsedUnit) : State :=
  let s1 := s.emptyUsed unit
  let t := s1.sta.releaseClaim f
  let s2 := (s1.setSta { t with dropped := satSucc 65535 t.dropped }).raiseFloor (some f)
  ((s2.dropClose f .a).dropClose f .b).release

/-! ## The head of the pending list (R120, R123, R125) -/

/-- Start the copy of an assembled group, or give up its picture, or drop the frame (R125). -/
def State.startCopy (s : State) (g : GroupCopy) : State :=
  let f := g.source.frame.frame
  if 1024 ≤ s.sta.index.length then
    (s.fault .streamFull .none f 1024).dropFrame f g.unit
  else if 2 * g.size + 64 ≤ s.freeSpace then s.setSta { s.sta with copy := some g }
  else if g.unit.isSome then
    let s1 := s.emptyUsed g.unit
    let h := { g with unit := none, gapDamaged := true }
    if 2 * h.size + 64 ≤ s1.freeSpace then s1.setSta { s1.sta with copy := some h }
    else (s1.fault .streamFull .none f (wordOfNat s1.freeSpace)).dropFrame f none
  else (s.fault .streamFull .none f (wordOfNat s.freeSpace)).dropFrame f none

/-- Assemble the group of a record (R123): UNIT_LATE and UNIT_DUP are logged in table order, then UNIT_DAMAGED of the
candidate (log 50). -/
def State.assemble (s : State) (p : PendingRec) (a : AudioRec) : State :=
  match s.readUnits with
  | .error bad => (s.busFault .sta bad).startCopy ⟨p, a, none, false, false⟩
  | .ok l =>
    let j := s.judgeUnits p.frame.frame l none
    let c := j.1.useCandidate j.2
    c.1.startCopy ⟨p, a, c.2.1, c.2.2, false⟩

/-- A record is discarded: its units are given back and its claim is released (R120, R124). -/
def State.discardPending (s : State) (f : FrameNo) : State :=
  let s1 := s.giveBack f
  s1.setSta (s1.sta.releaseClaim f)

/-- The record of frame `f` is due (R120). -/
def Sta.due (t : Sta) (f : FrameNo) : Bool := decide (t.delay ≤ (t.newest - f).toNat)

/-- Handle the head of this list, the state's pending list, if it is due, has its audio record and no copy is in
flight. After a discard the next record is handled at once; after an assembly, whether its copy starts or R125 drops
the frame, the next record waits for the next look (R120). -/
def State.handleHead : List PendingRec → State → State
  | [], s => s
  | p :: r, s =>
    match p.audio, s.sta.copy with
    | some a, none =>
      if s.sta.due p.frame.frame then
        let s1 := s.setSta { s.sta with pending := r }
        if s.clipOpen || s.sta.preOn then s1.assemble p a
        else State.handleHead r (s1.discardPending p.frame.frame)
      else s
    | _, _ => s

/-- Look at the head of the pending list: at each frame start the STA takes, at each join of an audio record, and at
each copy completion, and at nothing else (R120). -/
def State.lookAtHead (s : State) : State := State.handleHead s.sta.pending s

/-! ## Audio records (R118) -/

/-- An audio record is joined or discarded: one not staged, or discarded, releases its claim. -/
def Sta.settleClaim (t : Sta) (a : AudioRec) (discarded : Bool) : Sta :=
  if discarded || !a.staged then t.releaseClaim a.frame else t

/-- Join an audio record to its pending record. -/
def joinRecord (a : AudioRec) (p : PendingRec) : PendingRec :=
  if p.frame.frame = a.frame then { p with audio := some a } else p

/-- Hold an early record; a third displaces the oldest, which is discarded. -/
def Sta.holdEarly (t : Sta) (a : AudioRec) : Sta :=
  match t.early with
  | x :: y :: r => ({ t with early := y :: r ++ [a] } : Sta).settleClaim x true
  | l => { t with early := l ++ [a] }

/-- An audio record reaches the STA (R118); at a join the STA looks at the head of the pending list (R120). -/
def State.audioRecord (s : State) (a : AudioRec) : State :=
  let t := s.sta
  if t.pending.any fun p => p.frame.frame == a.frame then
    (s.setSta (({ t with pending := t.pending.map (joinRecord a) } : Sta).settleClaim a false)).lookAtHead
  else if notNewer t.newest a.frame then s.setSta (t.holdEarly a)
  else s.setSta (t.settleClaim a true)

/-! ## Frame starts (R117) -/

/-- The lens snapshot (R115, R117). -/
def Ldu.snapshot (l : Ldu) : LensSnap :=
  ⟨l.view.zoom, l.view.focus, l.view.iris, l.shot.code.1, l.shot.code.2⟩

/-- The stream part of the report as it stands (R134). -/
def State.streamPart (s : State) : StreamPart :=
  { fill := s.streamFill, held := s.bytesHeld, writePos := s.sta.writePos, pending := s.sta.pending.length,
    index := s.sta.index.length, copyFrame := s.sta.copy.map fun g => g.source.frame.frame,
    preOn := s.sta.preOn, preCount := s.sta.preCount, retained := s.retained.length, delay := s.sta.delay,
    dropped := s.sta.dropped, average := averageLength s.sta.history }

/-- The early audio record of a frame, and the holder without it. -/
def Sta.takeEarly (t : Sta) (f : FrameNo) : Option AudioRec × Sta :=
  (t.early.find? fun a => a.frame == f, { t with early := t.early.filter fun a => a.frame != f })

/-- The frame just ended cannot be kept: the list holds 8 records (R117, R118). -/
def State.pendingFull (s : State) (f : FrameNo) : State :=
  let oldest := match s.sta.pending with
    | p :: _ => p.frame.frame
    | [] => 0
  let s1 := s.fault .streamBehind .none f oldest
  let e := s1.sta.takeEarly f
  let t := match e.1 with
    | some a => e.2.settleClaim a true
    | none => e.2
  (s1.setSta t).dropFrame f none

/-- Append the pending record of the frame just ended (R117). -/
def State.appendPending (s : State) (r : FrameRec) : State :=
  let e := s.sta.takeEarly r.frame
  let p : PendingRec := { frame := r, lens := s.ldu.snapshot, crop := s.mst.cropOf r.frame, audio := e.1 }
  let t := { e.2 with pending := e.2.pending ++ [p] }
  s.setSta (match e.1 with
    | some a => t.settleClaim a false
    | none => t)

/-- The STA takes a frame start (R117, R120). -/
def State.staTakes (s : State) (x : FrameStart) : State :=
  let s1 := s.setSta { s.sta with
    newest := x.opened.frame, kept := keepCopy s.copyNeeded x.ended.frame s.streamPart s.sta.kept }
  let s2 :=
    if x.first then s1
    else if 8 ≤ s1.sta.pending.length then s1.pendingFull x.ended.frame
    else s1.appendPending x.ended
  s2.lookAtHead

/-! ## Group copies (R126, R127) -/

/-- Read the sound of a group: its staging slot when it is staged and readable, else zeros (R115, R116). -/
def State.readSound (s : State) (g : GroupCopy) : Except Nat (List Byte) :=
  if g.soundless then .ok (List.replicate (12 * g.audio.count) 0)
  else s.busRead (s.acu.slotAddress g.source.frame.frame) (12 * g.audio.count)

/-- Read the picture of a group (R115). -/
def State.readPicture (s : State) (g : GroupCopy) : Except Nat (List Byte) :=
  match g.unit with
  | some u => s.busRead u.address.toNat u.length.toNat
  | none => .ok []

/-- Write runs of common memory; the first failing address, if any. The runs before a failing one are stored, and
nothing of the failing one is (log 9). -/
def State.writeRuns (s : State) : List (Nat × Nat) → List Byte → State × Option Nat
  | [], _ => (s, none)
  | (a, n) :: r, b =>
    match s.busWrite a (b.take n) with
    | (s1, some bad) => (s1, some bad)
    | (s1, none) => s1.writeRuns r (b.drop n)

/-- A common bus error in the copy in flight (R127). A write error ends the copy without completing it, so the head of
the pending list is not looked at here (R120). -/
def State.copyBusError (s : State) (g : GroupCopy) (site : CopySite) (address : Nat) : State :=
  let s1 := s.busFault .sta address
  match site with
  | .unit =>
    let s2 := s1.emptyUsed g.unit
    s2.setSta { s2.sta with copy := some { g with unit := none, gapDamaged := true } }
  | .staging => s1.setSta { s1.sta with copy := some { g with audioBad := true } }
  | .stream => (s1.setSta { s1.sta with copy := none }).dropFrame g.source.frame.frame g.unit

/-- The last byte of the group has been written; the STA then looks at the head of the pending list (R126). -/
def State.copyCompletes (s : State) (g : GroupCopy) (length : Nat) : State :=
  let t := s.sta
  let r : IndexRec :=
    { frame := g.source.frame.frame, offset := t.writePos, length := length, damage := g.damage,
      tcFlags := g.source.frame.tcFlags }
  let s1 := s.setSta { t with
    index := t.index ++ [r]
    writePos := (t.writePos + length) % s.bufferSize
    history := newest 64 (t.history ++ [length])
    copy := none }
  let s2 := s1.emptyUsed g.unit
  ((s2.setSta (s2.sta.releaseClaim g.source.frame.frame)).work).lookAtHead

/-- The group copy in flight comes to its end: a bus error in one of its accesses is taken as R127 gives, and
otherwise the group is written and indexed (R126, logs 8, 31). Of several that fail in one step the unit counts first,
then the staging slot, then the stream buffer (log 62). -/
def State.copyEnds (s : State) (g : GroupCopy) : State :=
  match s.readPicture g with
  | .error bad => s.copyBusError g .unit bad
  | .ok picture =>
    match s.readSound g with
    | .error bad => s.copyBusError g .staging bad
    | .ok sound =>
      let b := g.bytes picture sound
      match s.writeRuns (s.ringRuns s.sta.writePos b.length) b with
      | (s1, some bad) => s1.copyBusError g .stream bad
      | (s1, none) => s1.copyCompletes g b.length

end Sys2Proof.Machine
end

