-- ==== Sys2Proof/Machine/Staging.lean ====
section
/-! DEFINITION. The ACU takes frame starts and writes its blocks to staging (05: R108, R109). -/

namespace Sys2Proof.Machine

/-- The block of a frame goes to its staging slot when the STA gives the claim; else its record is sent at once,
not staged (R108, R119). -/
def State.stageBlock (s : State) (block : List Byte) (r : AudioRec) : State :=
  match s.sta.claim r.frame with
  | none => s.audioRecord { r with staged := false }
  | some t =>
    let s1 := s.setSta t
    s1.setAcu { s1.acu with writing := some ⟨s1.acu.slotAddress r.frame, block, r⟩ }

/-- The ACU takes a frame start with no block's writes in flight (R96 to R109). The first after the entry to
RUNNING makes no block. -/
def State.acuTakes (s : State) (x : FrameStart) : State :=
  let a := s.acu
  if x.first then
    let b := a.begin
    s.setAcu (({ b with take := b.primed, padded := false } : Acu).noteStart s.now x.ended.frame a.part s.copyNeeded)
  else
    let m := a.makeBlock x.ended
    let s1 := s.setAcu (m.1.noteStart s.now x.ended.frame a.part s.copyNeeded)
    let s2 := match m.2.2.2 with
      | some k => s1.fault .audioUnderrun .none (wordOfNat k) (wordOfNat x.ended.cadCount)
      | none => s1
    s2.stageBlock m.2.1 m.2.2.1

/-- A frame start reaches the ACU: it is taken, or held while a block's writes are in flight (R108). -/
def State.acuReached (s : State) (x : FrameStart) : State :=
  match s.acu.writing with
  | none => s.acuTakes x
  | some _ => s.setAcu { s.acu with heldStart := some x }

/-- Take the held frame start, if there is one. -/
def State.acuTakesHeld (s : State) : State :=
  match s.acu.heldStart with
  | none => s
  | some h => (s.setAcu { s.acu with heldStart := none }).acuTakes h

/-- A frame start reaches the ACU. With one held already, the writing of the block in flight stops, its record
is sent not staged, the held one is taken, and the newer is handled as one that reaches the ACU then (R108). -/
def State.acuFrame (s : State) (x : FrameStart) : State :=
  match s.acu.writing, s.acu.heldStart with
  | some j, some _ =>
    let s1 := (s.setAcu { s.acu with writing := none }).audioRecord { j.record with staged := false }
    s1.acuTakesHeld.acuReached x
  | _, _ => s.acuReached x

/-- The staging write in flight completes, or fails at its first failing byte: the bytes below stand, the record
is marked not staged (R108). The record is sent, and a held frame start is taken. -/
def State.stagingDone (s : State) (j : StagingJob) : State :=
  let s0 := s.setAcu { s.acu with writing := none }
  let s1 :=
    match s.busError j.address j.block.length with
    | none =>
      ({ s0 with mem := Memory.writeAll s0.mem j.address j.block }).audioRecord j.record
    | some bad =>
      (({ s0 with mem := Memory.writeAll s0.mem j.address (j.block.take (bad - j.address)) }).busFault
        .acu bad).audioRecord { j.record with staged := false }
  s1.acuTakesHeld

end Sys2Proof.Machine
end

