-- ==== Sys2Proof/Machine/Resets.lean ====
section
/-! DEFINITION. The soft reset (R9 to R11), Safe Stop (R177 to R180), and the settling of a step. -/

namespace Sys2Proof.Machine

/-! ## The resets -/

/-- A tag through a soft reset, or the entry to RUNNING: HELD is kept, any other becomes FREE (R11), its kind cleared
with the rest of its record (log 57). -/
def TagRec.afterReset (r : TagRec) : TagRec := if r.st = .held then r else .free

/-- The reset of R11. A block whose writes to staging are in flight is abandoned, and none of its bytes stand in common
memory (R111, log 29). -/
def State.softReset (s : State) : State :=
  { State.reset with
    now := s.now, busErrors := s.busErrors, draws := s.draws, mem := s.mem, pending := s.pending
    shc := { Shc.reset with
      partBase := s.shc.partBase, reportEn := s.shc.reportEn, faultEn := s.shc.faultEn, safeEn := s.shc.safeEn,
      attReport := s.shc.attReport, attSafe := s.shc.attSafe, tags := s.shc.tags.map TagRec.afterReset }
    slotA := .reset s.slotA.detect, slotB := .reset s.slotB.detect
    stop := { s.stop with stopping := false, requests := [], kept := [] }
    flt := s.flt }

/-- Power-on reset (R5). What is outside the part stands: common memory, the detect switches, the clock, and
the commands that wait. -/
def State.powerOn (s : State) : State :=
  { State.reset with
    now := s.now, busErrors := s.busErrors, draws := s.draws, mem := s.mem, pending := s.pending
    slotA := .reset s.slotA.detect, slotB := .reset s.slotB.detect }

/-! ## Safe Stop -/

/-- A request that starts a stop (R178, steps 1 to 5). -/
def State.startStop (s : State) (r : StopSource) : State :=
  let newest := s.newestGroup
  let s1 := { s with stop := { s.stop with
    enable := false
    record := some { source := r, startFrame := s.frame, endFrame := none, merged := 0 } } }
  let s2 := ((s1.stopClose newest .a).stopClose newest .b).stopLens
  { s2 with stop := { s2.stop with stopping := true } }

/-- A request merged into the stop in progress (R179). -/
def State.mergeStop (s : State) : State :=
  { s with stop := { s.stop with
    record := s.stop.record.map fun r => { r with merged := satSucc 255 r.merged } } }

/-- Safe Stop takes a request: in IDLE it starts a stop (R178), in STOPPING it is merged (R179). -/
def State.takeStop (s : State) (r : StopSource) : State :=
  if s.stop.stopping then s.mergeStop else s.startStop r

/-- Safe Stop takes the requests that have reached it, in order (log 14). They make one stop: the first starts it, and
the others are merged into it (R177, log 65). -/
def State.takeStops (s : State) : State :=
  s.stop.requests.foldl State.takeStop { s with stop := { s.stop with requests := [] } }

/-- Judge whether the stop has ended: no slot is CLOSING (R180). -/
def State.judgeStop (s : State) : State :=
  if s.stop.stopping && !s.anyClosing then
    let s1 := { s with
      stop := { s.stop with
        stopping := false
        record := s.stop.record.map fun r => { r with endFrame := some s.frame } }
      shc := { s.shc with attSafe := true } }
    if s.shc.part = .resetting then s1.softReset else s1
  else s

/-- Safe Stop takes the requests sent, before the slots go on: a CLOSE block is placed after the stop has told the
slots to close (R178). What the slots do may send another request, so this is done until none is left. -/
def State.settleLoop : Nat → State → State
  | 0, s => s.takeStops
  | n + 1, s =>
    let t := s.takeStops.work
    if t.stop.requests.isEmpty then t else State.settleLoop n t

/-- The end of a step that may have moved the slots: Safe Stop takes its requests, the slots do what they can, and the
stop is judged, once (R180, logs 14, 15, 65). -/
def State.settle (s : State) : State := (State.settleLoop 64 s).judgeStop

/-- The end of any other step: Safe Stop takes the requests sent in it, if any (log 14). -/
def State.serve (s : State) : State := if s.stop.requests.isEmpty then s else s.settle

/-! ## Soft reset requests (R9, R10) -/

/-- A soft reset request is served in RUNNING: RESETTING while a clip is open, else the reset (R9, R10). -/
def State.serveReset (s : State) : State :=
  if s.clipOpen then
    (({ s with shc := { s.shc with part := .resetting, resetWaiting := false } }).askStop .reset).settle
  else s.softReset

/-- The SHC is dispatching a sheet or writing a report (R9). -/
def State.shcBusy (s : State) : Bool := s.shc.job.isSome || !s.shc.reports.isEmpty

/-- A soft reset request (R9). -/
def State.requestReset (s : State) : State :=
  match s.shc.part with
  | .resetting => s
  | .running =>
    if s.shcBusy then { s with shc := { s.shc with resetWaiting := true } } else s.serveReset
  | _ => s.softReset

/-- A waiting request is served once the SHC is no longer busy (R9). -/
def State.serveWaiting (s : State) : State :=
  if s.shc.resetWaiting && !s.shcBusy then s.serveReset else s

end Sys2Proof.Machine
end

