-- ==== Sys2Proof/Machine/Flags.lean ====
section
/-! DEFINITION. What the registers read, the attention causes and the attention line (R1 to R4, R205, R216). -/

namespace Sys2Proof.Machine

/-- ATTENTION.FAULT: a standing kind has a route other than NONE (R205). -/
def State.faultCause (s : State) : Bool :=
  FaultKind.all.any fun k => s.flt.stands k && (s.flt.entry k).route != .none

/-- PART_BASE as it reads (R1). -/
def State.readPartBase (s : State) : Word := s.shc.partBase

/-- PART_CONTROL as it reads: SOFT_RESET reads 0 (R2, R216). -/
def State.readPartControl (s : State) : Word :=
  wordOfNat (bit s.shc.run + 16 * bit s.shc.reportEn + 32 * bit s.shc.faultEn + 64 * bit s.shc.safeEn)

/-- PART_STATUS as it reads (R3, R216). -/
def State.readPartStatus (s : State) : Word :=
  wordOfNat (s.shc.part.code + 16 * s.shc.reason + 65536 * (s.ftu.counter.toNat % 65536))

/-- ATTENTION as it reads (R4, R216). -/
def State.readAttention (s : State) : Word :=
  wordOfNat (bit s.shc.attReport + 2 * bit s.faultCause + 4 * bit s.shc.attSafe)

/-- The attention line: a cause reads 1 with its enable set (R4). -/
def State.attentionLine (s : State) : Bool :=
  (s.shc.attReport && s.shc.reportEn) || (s.faultCause && s.shc.faultEn) || (s.shc.attSafe && s.shc.safeEn)

/-- The front tally output is lit (R197). -/
def State.frontLamp (s : State) : Bool := s.lamp s.vfl.front

/-- The rear tally output is lit (R197). -/
def State.rearLamp (s : State) : Bool := s.lamp s.vfl.rear

end Sys2Proof.Machine
end

