-- ==== Sys2Proof/Machine/Operands.lean ====
section
/-! DEFINITION. The entries of a sheet: parameters as they are packed (R220), kinds (R221), tag classes (R17), and
the dispatch of one entry (R16). -/

namespace Sys2Proof.Machine

/-! ## Parameters (R215, R220) -/

/-- A parameter of 1 byte. -/
def p1 (b : Byte) : List Byte := [b]

/-- A parameter of 2 bytes. -/
def p2 (h : Half) : List Byte := leBytes 2 h.toNat

/-- A parameter of 4 bytes. -/
def p4 (w : Word) : List Byte := leBytes 4 w.toNat

/-- The three bytes of a place of CLEAR_FAULTS. -/
def p3 (c : ClearPlace) : List Byte := [c.kind, c.seen, c.set]

/-- The value of an unsigned 1-byte parameter. -/
def u8 (b : Byte) : Int := (b.toNat : Int)

/-- The value of an unsigned 2-byte parameter. -/
def u16 (h : Half) : Int := (h.toNat : Int)

/-! ## Kinds (R221) -/

/-- The kind bytes the part knows. -/
def knownKinds : List Nat :=
  [0x01, 0x10, 0x11, 0x12, 0x13, 0x20, 0x21, 0x22, 0x23, 0x24, 0x25, 0x26, 0x27, 0x28, 0x29, 0x2A, 0x2B, 0x2C,
   0x2D] ++
  [0x40, 0x41, 0x42, 0x48, 0x49, 0x4A, 0x4B, 0x50, 0x51, 0x60, 0x61, 0x62, 0x63, 0x64, 0x65] ++
  [0x70, 0x71, 0x74, 0x75, 0x78, 0x79, 0x7A, 0x7B, 0x7C, 0x7D]

/-- A kind byte names an order. -/
def isKnown (k : Byte) : Bool := knownKinds.contains k.toNat

/-- The bytes the parameters of a kind take (R220), for the kinds that have parameters. -/
def paramSizes : List (Nat × Nat) :=
  [(0x01, 1), (0x10, 2), (0x11, 1), (0x12, 1), (0x13, 4), (0x20, 2), (0x21, 4), (0x22, 4), (0x23, 4), (0x25, 1),
   (0x26, 6), (0x27, 5), (0x2A, 1), (0x2B, 12), (0x2C, 3)] ++
  [(0x40, 1), (0x42, 10), (0x48, 2), (0x49, 2), (0x4A, 3), (0x4B, 1), (0x50, 1), (0x51, 3), (0x60, 10), (0x61, 2),
   (0x62, 8), (0x64, 1), (0x65, 9)] ++
  [(0x70, 1), (0x78, 11), (0x79, 6), (0x7A, 6), (0x7B, 2), (0x7C, 18), (0x7D, 5)]

/-- The parameter bytes the part reads of an entry of a kind: none after the last parameter (R215, R220). -/
def paramBytes (kind : Byte) : Nat :=
  match paramSizes.find? fun x => x.1 == kind.toNat with
  | some x => x.2
  | none => 0

/-- Entries of unknown kinds at the head get REFUSED_UNKNOWN (R16, check 2). -/
def SheetJob.skipUnknown (j : SheetJob) : SheetJob :=
  let n := (j.todo.takeWhile fun e => !isKnown e.kind).length
  { j with todo := j.todo.drop n, results := j.results ++ List.replicate n .refusedUnknown }

/-! ## Tag classes (R17) -/

/-- The tag class of an order. -/
inductive TagClass where
  | required | optional | immediate
  deriving DecidableEq, Repr

/-- The tag state check. -/
def TagRec.check (r : TagRec) : Option Result :=
  match r.st with
  | .inFlight => some .refusedTagBusy
  | .held => some .refusedTagHeld
  | _ => none

/-- The tag checks: the refusal, if any. -/
def State.tagCheck (s : State) (c : TagClass) (tag : Byte) : Option Result :=
  let n := tag.toNat
  match c with
  | .immediate => if n = 0 then none else some .refusedParam
  | .optional =>
    if n = 0 then none else if n ≤ 32 then (s.tagRec n).check else some .refusedParam
  | .required =>
    if n = 0 then some .refusedNoTag else if n ≤ 32 then (s.tagRec n).check else some .refusedParam

/-! ## Dispatch of one entry (R16) -/

/-- What an owning block decides of an order: a refusal that changes nothing; the order carried out, with or
without a clamped parameter; or a result of its own with an effect. -/
inductive Decision where
  | refuse (r : Result)
  | carry (clamped : Bool) (run : State → State)
  | answer (r : Result) (run : State → State)

/-- The sheet in dispatch has this entry next (log 4). -/
def State.awaits (s : State) (kind tag : Byte) (params : List Byte) : Bool :=
  match s.shc.job with
  | none => false
  | some j =>
    match j.todo with
    | [] => false
    | e :: _ => e.kind == kind && e.tag == tag && e.params.take params.length == params

/-- The entry has its result, and the next is looked at. -/
def State.finishEntry (s : State) (r : Result) : State :=
  { s with shc := { s.shc with
    job := s.shc.job.map fun j =>
      ({ j with todo := j.todo.drop 1, results := j.results ++ [r] } : SheetJob).skipUnknown } }

/-- The result of an order carried out (R16, R17). -/
def carriedResult (clamped : Bool) (tag : Byte) : Result :=
  if clamped then .clamped else if tag = 0 then .done else .accepted

/-- An accepted order makes its tag IN_FLIGHT (R17, R19). -/
def State.acceptTag (s : State) (kind tag : Byte) : State :=
  if tag = 0 then s
  else
    let s1 := s.openTag tag.toNat kind
    { s1 with shc := { s1.shc with job := s1.shc.job.map fun j => { j with opened := tag.toNat :: j.opened } } }

/-- An entry decided: its effect, and its result. -/
def State.applyDecision (s : State) (kind tag : Byte) : Decision → State
  | .refuse r => s.finishEntry r
  | .answer r run => (run s).finishEntry r
  | .carry clamped run => (run (s.acceptTag kind tag)).finishEntry (carriedResult clamped tag)

/-- The dispatch of one entry: the tag checks, then the owning block's decision, with its effect (R16, R17). An
order that is not the next entry changes nothing (log 4). -/
def State.takeOrder (s : State) (c : TagClass) (kind tag : Byte) (params : List Byte)
    (decide : State → Decision) : State :=
  if s.awaits kind tag params then
    match s.tagCheck c tag with
    | some r => s.finishEntry r
    | none => (s.applyDecision kind tag (decide s)).serve.judgeSlots s
  else s

end Sys2Proof.Machine
end

