-- ==== Sys2Proof/Machine/Viewfinder.lean ====
section
/-! DEFINITION. The Viewfinder Link (09): the link, the page, items, card minutes, the warning line. -/

namespace Sys2Proof.Machine

/-- Replace the VFL. -/
def State.setVfl (s : State) (v : Vfl) : State := { s with vfl := v }

/-! ## Dirty rows (R186) -/

/-- Mark a row: appended at the tail unless it is in the list. -/
def markRow (l : List Nat) (row : Nat) : List Nat := if l.contains row then l else l ++ [row]

/-- Mark rows in order. -/
def markRows (l rows : List Nat) : List Nat := rows.foldl markRow l

/-- Mark all 16 rows. -/
def markAll (l : List Nat) : List Nat := markRows l (List.range 16)

/-! ## The link (R183, R184) -/

/-- The refresh request flag of a status byte (R183, log 37). -/
def refreshFlag (status : Byte) : Bool := status.getLsbD Config.refreshFlagBit

/-- A status byte arrives (R183). -/
def Vfl.takeStatus (v : Vfl) (status : Byte) : Vfl :=
  let v1 := { v with status := some status, received := true }
  if v.up then (if refreshFlag status then { v1 with dirty := markAll v.dirty } else v1)
  else { v1 with up := true, misses := 0, dirty := markAll v.dirty }

/-- Judge the status of the interval just ended (R183). -/
def Vfl.judgeLink (v : Vfl) : Vfl :=
  if v.received then { v with misses := 0, received := false }
  else if v.up then
    let m := v.misses + 1
    { v with misses := m, up := decide (m < 10) }
  else v

/-- Send the messages of the frame (R184). -/
def Vfl.sendRows (v : Vfl) : Vfl :=
  if v.up && !v.dirty.isEmpty then
    { v with sent := (v.dirty.take 4).map fun r => .row r (v.page.getD r []), dirty := v.dirty.drop 4 }
  else { v with sent := [.idle] }

/-! ## Warnings at a frame start (R194, R196) -/

/-- Age an entry; one whose life reaches 0 is removed (R194). -/
def Warning.age (w : Warning) : Option Warning :=
  if w.life = 0 then some w else if w.life = 1 then none else some { w with life := w.life - 1 }

/-- The highest priority of a list, 0 for none. -/
def highestPriority : List Warning → Nat
  | [] => 0
  | w :: r => max w.priority (highestPriority r)

/-- The entries of the highest priority, oldest first. -/
def urgent (l : List Warning) : List Warning := l.filter fun w => w.priority == highestPriority l

/-- The entry after the one with a code in a list, wrapping from the last to the first. -/
def nextAfter (code : Nat) (l : List Warning) : Option Nat :=
  (((l.dropWhile fun w => w.code != code).drop 1).head?.orElse fun _ => l.head?).map fun w => w.code

/-- Choose the warning line (R196). -/
def Vfl.chooseLine (v : Vfl) : Vfl :=
  let u := urgent v.warnings
  let oldest := u.head?.map fun w => w.code
  match v.shown with
  | some code =>
    if u.any fun w => w.code == code then
      if v.rotation + 1 < 60 then { v with rotation := v.rotation + 1 }
      else { v with shown := nextAfter code u, rotation := 0 }
    else { v with shown := oldest, rotation := 0 }
  | none => { v with shown := oldest, rotation := 0 }

/-- The text index of the shown entry. -/
def Vfl.shownText (v : Vfl) : Option Nat :=
  match v.shown with
  | some code => (v.warnings.find? fun w => w.code == code).map fun w => w.text
  | none => none

/-! ## Card minutes (R192) -/

/-- The card minutes of a slot. -/
def cardMinutes (p : SlotPart) (average : Option Nat) (rate : Rate) : Option Nat :=
  match p.st, average with
  | .empty, _ => none
  | .probing, _ => none
  | .faulted, _ => none
  | _, none => none
  | _, some a => some (min 999 (p.unused * 512 / (a * rate.count * 60)))

/-! ## Values (R189) -/

/-- What a VALUE item shows. -/
inductive Shown where
  | number (n : Nat)
  | text (codes : List Byte)
  deriving DecidableEq, Repr

/-- The character of a decimal digit. -/
def digitCode (n : Nat) : Byte := BitVec.ofNat 8 (0x30 + n % 10)

/-- The decimal digits of a number of at most `k` + 1 digits. -/
def decimal : Nat → Nat → List Byte
  | 0, n => [digitCode n]
  | k + 1, n => if n < 10 then [digitCode n] else decimal k (n / 10) ++ [digitCode n]

/-- The decimal digits of a 32-bit number. -/
def digits (n : Nat) : List Byte := decimal 10 n

/-- Two digits. -/
def twoDigits (n : Nat) : List Byte := [digitCode (n / 10), digitCode n]

/-- "---". -/
def dashes : List Byte := [0x2D, 0x2D, 0x2D]

/-- A timecode as HH:MM:SS:FF, with ";" as the last separator under drop-frame. -/
def timecodeText (t : Timecode) (drop : Bool) : List Byte :=
  twoDigits t.hours ++ [0x3A] ++ twoDigits t.minutes ++ [0x3A] ++ twoDigits t.seconds
    ++ [if drop then 0x3B else 0x3A] ++ twoDigits t.frames

/-- A held meter value in dB with one decimal. -/
def meterText (m : Nat) : List Byte :=
  let h := 120 - m
  (if h = 0 then [] else [0x2D]) ++ digits (h / 2) ++ [0x2E, if h % 2 = 0 then 0x30 else 0x35]

/-- "23.98", "24", "25", "29.97", "50", "59.94". -/
def rateText : Rate → List Byte
  | .r23 => [0x32, 0x33, 0x2E, 0x39, 0x38]
  | .r24 => [0x32, 0x34]
  | .r25 => [0x32, 0x35]
  | .r29 => [0x32, 0x39, 0x2E, 0x39, 0x37]
  | .r50 => [0x35, 0x30]
  | .r59 => [0x35, 0x39, 0x2E, 0x39, 0x34]

/-- "OFF", "ON" or "HOLD". -/
def modeText : StabMode → List Byte
  | .off => [0x4F, 0x46, 0x46]
  | .on => [0x4F, 0x4E]
  | .hold => [0x48, 0x4F, 0x4C, 0x44]

/-- The values the owners offer for the frame (R185, R189). -/
structure Offer where
  frame : FrameRec
  lens : LensPart
  stab : StabPart
  audio : Quad MeterPart
  stream : StreamPart
  slotA : SlotPart
  slotB : SlotPart
  stopping : Bool
  minutesA : Option Nat
  minutesB : Option Nat
  deriving DecidableEq, Repr

/-- "SAFE", "REC", "CLOSE", "PRE" or "STBY". -/
def Offer.recordText (o : Offer) : List Byte :=
  if o.stopping then [0x53, 0x41, 0x46, 0x45]
  else if o.slotA.st = .recording ∨ o.slotB.st = .recording then [0x52, 0x45, 0x43]
  else if o.slotA.st = .closing ∨ o.slotB.st = .closing then [0x43, 0x4C, 0x4F, 0x53, 0x45]
  else if o.stream.preOn then [0x50, 0x52, 0x45]
  else [0x53, 0x54, 0x42, 0x59]

/-- A lens value, "---" while the link is not ONLINE. -/
def Offer.lensValue (o : Offer) (n : Int) : Shown :=
  if o.lens.link = .online then .number n.toNat else .text dashes

/-- Minutes, "---" when none. -/
def minutesShown : Option Nat → Shown
  | some m => .number m
  | none => .text dashes

/-- The clip id of slot A's open clip, else of slot B's. -/
def Offer.clipShown (o : Offer) : Shown :=
  if o.slotA.clipId ≠ 0 then .number o.slotA.clipId.toNat
  else if o.slotB.clipId ≠ 0 then .number o.slotB.clipId.toNat
  else .text dashes

/-- The value of a source code 0 to 14 (R189). -/
def Offer.value (o : Offer) : Nat → Shown
  | 0 => o.lensValue (o.lens.zoom.actual * 100 / 4095)
  | 1 => o.lensValue o.lens.focus.actual
  | 2 => o.lensValue o.lens.iris.actual
  | 3 => .text (timecodeText o.frame.tc o.frame.drop)
  | 4 => minutesShown o.minutesA
  | 5 => minutesShown o.minutesB
  | 6 => .number o.stream.fill
  | 7 => .text o.recordText
  | 8 => .text (modeText o.stab.mode)
  | 9 => .text (meterText o.audio.c1.held)
  | 10 => .text (meterText o.audio.c2.held)
  | 11 => .text (meterText o.audio.c3.held)
  | 12 => .text (meterText o.audio.c4.held)
  | 13 => .text (rateText o.frame.rate ++ if o.frame.drop then [0x44, 0x46] else [])
  | _ => o.clipShown

/-! ## Fields (R188, R190, R191) -/

/-- Put codes at the right of a field, with a filler to the left. -/
def alignRight (fill : Byte) (w : Nat) (l : List Byte) : List Byte := List.replicate (w - l.length) fill ++ l

/-- Put codes at the left of a field, with spaces to the right. -/
def alignLeft (w : Nat) (l : List Byte) : List Byte := l ++ List.replicate (w - l.length) 0x20

/-- The codes of a VALUE item in a field of width `w` (R190). -/
def valueCodes (format w : Nat) : Shown → List Byte
  | .number n =>
    let d := digits n
    if w < d.length then List.replicate w 0x2A
    else if format = 1 then alignLeft w d
    else alignRight (if format = 2 then 0x30 else 0x20) w d
  | .text t => if format = 1 then alignLeft w (t.take w) else alignRight 0x20 w (t.take w)

/-- The codes of a text entry in a field of width `w` (R188). -/
def textCodes (entry : List Byte) (w : Nat) : List Byte := alignLeft w (entry.take w)

/-- One cell of a meter's bar of `b` cells with `n` lit segments and the held value at `q` (R191). -/
def meterCell (n q i : Nat) : Byte :=
  if i < n then 0x80 else if n < q ∧ i = q - 1 then 0x81 else 0x82

/-- The codes of a METER item (R191). -/
def meterCodes (p : MeterPart) (bar w : Nat) : List Byte :=
  let b := min bar w
  let cells := (List.range b).map (meterCell (p.meter * b / 120) (p.held * b / 120))
  if b < w then cells ++ [if p.overload then 0x83 else 0x20] ++ List.replicate (w - b - 1) 0x20 else cells

/-- The channel 1 to 4 of a meter. -/
def Quad.channel {α : Type} (q : Quad α) : Nat → α
  | 1 => q.c1
  | 2 => q.c2
  | 3 => q.c3
  | _ => q.c4

/-- Codes with an item's attributes. -/
def Item.cells (i : Item) (codes : List Byte) : List Cell :=
  codes.map fun c => ⟨c, i.blink, i.inverse, i.colour⟩

/-- The field of an item (R188 to R191, R196). -/
def Vfl.field (v : Vfl) (o : Offer) (i : Item) : List Cell :=
  match i.kind with
  | .text n => i.cells (textCodes (v.texts.getD n []) i.width)
  | .value src format => i.cells (valueCodes format i.width (o.value src))
  | .meter ch bar => i.cells (meterCodes (o.audio.channel ch) bar i.width)
  | .warning =>
    match v.shownText with
    | some n => i.cells (textCodes (v.texts.getD n []) i.width)
    | none => List.replicate i.width .blank

/-! ## The page (R185) -/

/-- Lay cells over a row at a column. -/
def layRow (column : Nat) (cells row : List Cell) : List Cell :=
  row.take column ++ cells ++ row.drop (column + cells.length)

/-- Lay an item over the page; a disabled item lays no cells. -/
def Vfl.layItem (v : Vfl) (o : Offer) (page : List (List Cell)) (i : Item) : List (List Cell) :=
  if i.enabled then modifyAt (layRow i.column (v.field o i)) i.row page else page

/-- The page composed for a frame: blank cells, then the items in index order. -/
def Vfl.compose (v : Vfl) (o : Offer) : List (List Cell) :=
  v.items.foldl (v.layItem o) (List.replicate 16 (List.replicate 40 .blank))

/-- The rows in which two pages differ (R185), in row order (log 52). -/
def rowsChanged (a b : List (List Cell)) : List Nat :=
  (List.range 16).filter fun r => a.getD r [] != b.getD r []

/-- Take the composed page and mark the rows that changed. -/
def Vfl.takePage (v : Vfl) (page : List (List Cell)) : Vfl :=
  { v with page := page, dirty := markRows v.dirty (rowsChanged v.page page) }

/-! ## The frame start -/

/-- The ACU has not taken frame start `f`. -/
def Acu.awaits (a : Acu) (f : FrameNo) : Bool :=
  awaiting f a.arriving || (match a.heldStart with | some h => h.opened.frame == f | none => false)

/-- The owners whose values the VFL composes with have taken frame start `f` (R185, log 38). -/
def State.ownersReady (s : State) (f : FrameNo) : Bool :=
  !awaiting f s.mst.arriving && !s.acu.awaits f && !awaiting f s.sta.arriving

/-- The values offered for a frame (R185). -/
def State.offer (s : State) (r : FrameRec) : Offer :=
  let stream := offered r.frame s.streamPart s.sta.kept
  let a := offered r.frame s.slotA.part s.slotA.kept
  let b := offered r.frame s.slotB.part s.slotB.kept
  { frame := r
    lens := offered r.frame s.ldu.part s.ldu.kept
    stab := offered r.frame s.mst.part s.mst.kept
    audio := offered r.frame s.acu.part s.acu.kept
    stream := stream, slotA := a, slotB := b, stopping := (offered r.frame s.stop.part s.stop.kept).stopping
    minutesA := cardMinutes a stream.average r.rate
    minutesB := cardMinutes b stream.average r.rate }

/-- The viewfinder part of the report as it stands (R199). -/
def Vfl.part (v : Vfl) : VfPart :=
  { up := v.up, misses := v.misses, status := v.status.getD 0, dirty := v.dirty.length, front := v.front,
    rear := v.rear, shown := v.shown.getD 0, warnings := v.warnings.length, dropped := v.droppedWarnings }

/-- The VFL's own work at a frame start, but for the tally (R183 to R196). -/
def Vfl.takeFrame (v : Vfl) (x : FrameStart) (o : Offer) (need : FrameNo → Bool) : Vfl :=
  let v1 := { v.judgeLink with kept := keepCopy need x.ended.frame v.part v.kept }
  let v2 := ({ v1 with warnings := v1.warnings.filterMap Warning.age } : Vfl).chooseLine
  let v3 := { v2 with minutesA := o.minutesA, minutesB := o.minutesB, fill := o.stream.fill }
  (v3.takePage (v3.compose o)).sendRows

/-- The VFL takes a frame start (R183 to R197). -/
def State.vflTakes (s : State) (x : FrameStart) : State :=
  (s.setVfl (s.vfl.takeFrame x (s.offer x.opened) s.copyNeeded)).judgeTally (some (x.opened.rate.count / 2))

end Sys2Proof.Machine
end

