-- ==== Sys2Proof/Machine/Report.lean ====
section
/-! DEFINITION. The frame report (R22 to R24, R223). -/

namespace Sys2Proof.Machine

/-- One byte of a field. -/
def b8 (n : Nat) : Byte := BitVec.ofNat 8 n

/-- Zero bytes. -/
def zeros (n : Nat) : List Byte := List.replicate n 0

/-- A word of a field. -/
def w32 (w : Word) : List Byte := leBytes 4 w.toNat

/-! ## Records (R223) -/

def TagRec.bytes (r : TagRec) : List Byte :=
  [b8 r.st.code, r.kind, b8 r.outcome.code, 0] ++ w32 r.word1 ++ w32 r.word2 ++ w32 r.word3 ++ w32 r.frame

def Capture.bytes (c : Capture) : List Byte :=
  w32 c.frame ++ [b8 c.source.code, b8 c.tag, 0, 0] ++ w32 c.detail1 ++ w32 c.detail2

def AxisPart.bytes (a : AxisPart) : List Byte :=
  [b8 a.st.code, b8 (bit a.manual)] ++ leSigned 2 a.sent ++ leSigned 2 a.actual ++ zeros 2

def LensPart.bytes (l : LensPart) : List Byte :=
  [b8 l.link.code, b8 l.owner.code, b8 (bit l.lockout), b8 (bit l.tracking),
   b8 (bit l.scaleValid + 2 * bit l.trackingValid), b8 l.shotCode, b8 l.shotIndex, b8 (bit l.surge)]
    ++ leSigned 1 l.rocker ++ [0] ++ leBytes 2 l.ignored
    ++ l.zoom.bytes ++ l.focus.bytes ++ l.iris.bytes ++ zeros 12

def StabPart.bytes (p : StabPart) : List Byte :=
  [b8 p.mode.code, b8 p.yawPan.code, b8 p.pitchPan.code, b8 (bit p.yawEdge + 2 * bit p.pitchEdge)]
    ++ leSigned 2 p.x ++ leSigned 2 p.y ++ zeros 8

def MeterPart.bytes (p : MeterPart) : List Byte := [b8 p.meter, b8 p.held, b8 (bit p.overload), 0]

def SlotPart.bytes (p : SlotPart) : List Byte :=
  [b8 p.st.code, b8 (bit p.releasePending), b8 (bit p.position.isSome), 0] ++ w32 p.clipId
    ++ leBytes 4 p.recorded ++ leBytes 4 (p.position.getD 0) ++ [b8 p.queued] ++ zeros 3
    ++ leBytes 4 p.capacity ++ leBytes 4 p.sectorsRead ++ leBytes 4 p.badBlocks

def DeckPart.bytes (d : DeckPart) : List Byte :=
  [b8 d.mode.code, b8 (slotCode d.slot), 0, 0] ++ w32 d.relayId

def StreamPart.bytes (p : StreamPart) : List Byte :=
  [b8 p.fill, b8 (bit p.preOn), b8 p.delay, b8 (bit p.copyFrame.isSome)] ++ leBytes 4 p.held
    ++ leBytes 4 p.writePos ++ w32 (p.copyFrame.getD 0) ++ [b8 p.pending, 0] ++ leBytes 2 p.index
    ++ leBytes 2 p.retained ++ leBytes 2 p.preCount ++ leBytes 2 p.dropped ++ zeros 2

def GuardPart.bytes (p : GuardPart) : List Byte := [b8 p.st.code, 0] ++ leBytes 2 p.count

def VfPart.bytes (p : VfPart) : List Byte :=
  [b8 (bit p.up), b8 p.misses, p.status, b8 p.dirty, b8 p.front.setting.code, b8 p.front.st.code,
   b8 p.rear.setting.code, b8 p.rear.st.code, b8 p.shown, b8 p.warnings] ++ leBytes 2 p.dropped

/-- The source and the fault kind of a stop record. -/
def StopSource.codes : StopSource → Nat × Nat
  | .guard => (1, 0)
  | .fault k => (2, k.number)
  | .reset => (3, 0)
  | .order => (4, 0)

/-- The stop record's fields of the safe-stop part. -/
def stopRecordBytes : Option StopRecord → List Byte
  | none => zeros 14
  | some r =>
    [b8 r.source.codes.1, b8 r.source.codes.2, b8 r.merged, b8 (bit r.endFrame.isSome), 0, 0]
      ++ w32 r.startFrame ++ w32 (r.endFrame.getD 0)

def StopPart.bytes (p : StopPart) : List Byte :=
  [b8 (bit p.stopping), b8 (bit p.enable)] ++ stopRecordBytes p.record

/-- FIRST: 0 for none, else the kind number. -/
def Flt.firstByte (f : Flt) : Byte :=
  match f.first with
  | some k => b8 k.number
  | none => 0

/-- NEXT as a word: bit k − 1 for each kind in it. -/
def Flt.nextWord (f : Flt) : Nat := (FaultKind.all.map fun k => bit (f.entry k).inNext * 2 ^ (k.number - 1)).sum

/-- A kind's route and mapping. -/
def FaultRec.routeBytes (r : FaultRec) : List Byte :=
  match r.mapping with
  | some m => [b8 r.route.code, 1, b8 m.priority, b8 m.text]
  | none => [b8 r.route.code, 0, 0, 0]

/-! ## The body (R22, R223) -/

/-- A field of the report: its offset in the slot, and its bytes as they are when it is written. -/
abbrev ReportField := Nat × (State → List Byte)

/-- The FTU's part for a frame: the copy kept, else the part as it stands. -/
def State.ftuOffered (s : State) (f : FrameNo) : FtuPart := offered f ⟨s.ftu.tc, s.ftu.lock⟩ s.ftu.kept

/-- The SHC's own part for a frame: the copy kept, else the part as it stands. -/
def State.shcOffered (s : State) (f : FrameNo) : ShcPart := offered f s.shc.ownPart s.shc.kept

/-- The letter of the sheet part. -/
def SheetNote.letter (n : SheetNote) : Byte := match n.sheet with | .a => 1 | .b => 2

/-- The part, the sheet and the tags, in the order of R22: part state, timecode, lock state; letter, sequence number,
result; tag table. -/
def ReportJob.headFields (r : ReportJob) : List ReportField :=
  [(0x004, fun s => [b8 (s.shcOffered r.frame).part.code]),
   (0x00C, fun s => (s.ftuOffered r.frame).tc.bytes),
   (0x005, fun s => [b8 (s.ftuOffered r.frame).lock.code]),
   (0x006, fun _ => [(r.sheet.map SheetNote.letter).getD 0]),
   (0x008, fun _ => w32 ((r.sheet.map fun n => n.seq).getD 0)),
   (0x007, fun _ => [b8 ((r.sheet.map fun n => n.result.code).getD 0)]),
   (0x010, fun s => (s.shcOffered r.frame).tags.flatMap TagRec.bytes)]

/-- The lens, stabiliser, audio, slot and stream parts, in the order of R22. -/
def ReportJob.recordFields (r : ReportJob) : List ReportField :=
  [(0x290, fun s => (offered r.frame s.ldu.part s.ldu.kept).bytes),
   (0x2C0, fun s => (offered r.frame s.mst.part s.mst.kept).bytes),
   (0x2D0, fun s => (offered r.frame s.acu.part s.acu.kept).list.flatMap MeterPart.bytes),
   (0x2E0, fun s => (offered r.frame s.slotA.part s.slotA.kept).bytes),
   (0x300, fun s => (offered r.frame s.slotB.part s.slotB.kept).bytes),
   (0x320, fun s => (offered r.frame s.deck.part s.deck.kept).bytes),
   (0x328, fun s => (offered r.frame s.streamPart s.sta.kept).bytes)]

/-- The Fault Log's own fields, as it stands when they are written (R211): FIRST, NEXT, the counts, the routes and
mappings, the capture records. -/
def faultFields : List ReportField :=
  [(0x364, fun s => s.flt.firstByte :: zeros 3),
   (0x368, fun s => leBytes 4 s.flt.nextWord),
   (0x36C, fun s => (s.flt.kinds.map fun k => b8 k.count) ++ zeros 2),
   (0x388, fun s => s.flt.kinds.flatMap FaultRec.routeBytes),
   (0x3F0, fun s => s.flt.kinds.flatMap fun k => k.capture.bytes)]

/-- Safe Stop's fields, the guard part and the viewfinder part, which end the body (R22). -/
def ReportJob.tailFields (r : ReportJob) : List ReportField :=
  [(0x354, fun s => (offered r.frame s.stop.part s.stop.kept).bytes),
   (0x344, fun s => (offered r.frame s.cgd.part s.cgd.kept).bytes),
   (0x348, fun s => (offered r.frame s.vfl.part s.vfl.kept).bytes)]

/-- The fields between the stamps in the order in which they are written, that of R22 (R23): each block's part is the
copy kept for the frame, else the part as it stands at its own write (log 12). -/
def reportFields (r : ReportJob) : List ReportField :=
  r.headFields ++ r.recordFields ++ faultFields ++ r.tailFields

/-- The report slot of a frame: its number, and its address (R22, R217). -/
def reportSlot (f : FrameNo) : Nat := f.toNat % 2

def State.reportAddress (s : State) (f : FrameNo) : Nat := s.shc.partBase.toNat + 0x1400 + 0x1000 * reportSlot f

/-! ## Beginning and ending a report (R23, R24) -/

/-- A report begins: one still in writing in the same slot stops, and the start stamp is written (R23, R24). -/
def State.beginReport (s : State) (f : FrameNo) (note : Option SheetNote) : State :=
  let l := s.shc.reports.filter fun r => reportSlot r.frame != reportSlot f
  let s1 := { s with shc := { s.shc with reports := l ++ [(⟨f, note⟩ : ReportJob)] } }
  (s1.blockWrite .shc (s1.reportAddress f) (w32 f)).1

/-- Every block has taken frame start `f`, and a sheet taken at it is RETURNED (R22, R23). -/
def State.reportReady (s : State) (f : FrameNo) : Bool :=
  s.ownersReady f && !awaiting f s.vfl.arriving
    && (match s.shc.job with
        | some j => j.frame != f
        | none => true)

/-- Write fields at their offsets, each with its bytes as they are then; a bus error is logged and the writing goes
on, so that a later field shows it (R211, R23). -/
def State.writeFields (s : State) (base : Nat) (l : List ReportField) : State :=
  l.foldl (fun s f => (s.blockWrite .shc (base + f.1) (f.2 s)).1) s

/-- The rest of a report and its end stamp; REPORT is set unless the end stamp's write failed (R23). -/
def State.endReport (s : State) (r : ReportJob) : State :=
  let base := s.reportAddress r.frame
  let s1 := s.writeFields base (reportFields r)
  let s2 := { s1 with shc := { s1.shc with reports := s1.shc.reports.filter fun k => k.frame != r.frame } }
  match s2.blockWrite .shc (base + 0x590) (w32 r.frame) with
  | (s3, true) => { s3 with shc := { s3.shc with attReport := true } }
  | (s3, false) => s3

end Sys2Proof.Machine
end

