-- ==== Sys2Proof/Machine/Sheets.lean ====
section
/-! DEFINITION. The Sheet Controller: taking a sheet (R12 to R15), returning it (R18), and the held frame start
(R14). -/

namespace Sys2Proof.Machine

/-- Replace the SHC. -/
def State.setShc (s : State) (c : Shc) : State := { s with shc := c }

/-- The address of a sheet (R217). -/
def State.sheetAddress (s : State) (x : SheetId) : Nat :=
  s.shc.partBase.toNat + (match x with | .a => 0x100 | .b => 0xA00)

/-- A sheet's number as SHEET_MALFORMED gives it: 0 for A, 1 for B. -/
def SheetId.code : SheetId → Nat
  | .a => 0
  | .b => 1

/-- The other sheet. -/
def SheetId.other : SheetId → SheetId
  | .a => .b
  | .b => .a

/-- The word at an offset of some bytes. -/
def wordAt (b : List Byte) (offset : Nat) : Word := BitVec.ofNat 32 (ofLe ((b.drop offset).take 4))

/-- A header as the SHC reads it (R219). -/
structure SheetHeader where
  st : Word
  seq : Word
  keep : Word
  count : Word
  deriving DecidableEq, Repr

/-- The header in 32 bytes. -/
def headerOf (b : List Byte) : SheetHeader := ⟨wordAt b 0, wordAt b 4, wordAt b 8, wordAt b 12⟩

/-- An entry in 32 bytes (R219). -/
def entryOf (b : List Byte) : SheetEntry := ⟨b.getD 0 0, b.getD 1 0, b.getD 3 0, b.drop 4⟩

/-- The entries of a sheet. -/
def entriesOf (n : Nat) (b : List Byte) : List SheetEntry := (pieces 32 n b).map entryOf

/-- What the part reads of `n` entries from `a` on: the four bytes before the parameters, and the parameters, of
each (R215, R220). -/
def entrySpans (m : List Host.Cell) (a n : Nat) : List (Nat × Nat) :=
  (List.range n).map fun i => (a + 32 * i, 4 + paramBytes (Memory.read m (a + 32 * i)))

/-- What reading the turn sheet gives (R13). -/
inductive SheetRead where
  | notPosted
  | failed (address : Nat)
  | malformed (header : SheetHeader)
  | whole (header : SheetHeader) (entries : List SheetEntry)
  deriving DecidableEq, Repr

/-- Read the turn sheet: its header, and the entries it counts (R12, R13, R15). -/
def State.readSheet (s : State) : SheetRead :=
  let base := s.sheetAddress s.shc.turn
  match s.busRead base 32 with
  | .error bad => .failed bad
  | .ok h =>
    let r := headerOf h
    if r.st ≠ 1 then .notPosted
    else if 64 < r.count.toNat then .malformed r
    else
      match s.spansError (entrySpans s.mem (base + 0x20) r.count.toNat) with
      | some bad => .failed bad
      | none => .whole r (entriesOf r.count.toNat (Memory.readAll s.mem (base + 0x20) (32 * r.count.toNat)))

/-- No sheet is taken at a frame start: the CGD is told, and the report begins (R13, R22, R174). -/
def State.noSheet (s : State) (x : FrameStart) : State := s.starve.beginReport x.opened.frame none

/-- Write TAKEN and the take frame, and flip the turn (R12, R13). -/
def State.markTaken (s : State) (x : FrameStart) : State :=
  let base := s.sheetAddress s.shc.turn
  let s1 := (s.blockWrite .shc base (leBytes 4 2)).1
  let s2 := (s1.blockWrite .shc (base + 0x10) (w32 x.opened.frame)).1
  s2.setShc { s2.shc with turn := s2.shc.turn.other }

/-- Write the sheet result and RETURNED (R18). -/
def State.writeReturned (s : State) (sheet : SheetId) (r : SheetResult) : State :=
  let base := s.sheetAddress sheet
  let s1 := (s.blockWrite .shc (base + 0x14) [b8 r.code]).1
  (s1.blockWrite .shc base (leBytes 4 3)).1

/-- A malformed sheet is taken and returned (R15). -/
def State.takeMalformed (s : State) (x : FrameStart) (h : SheetHeader) : State :=
  let sheet := s.shc.turn
  let s1 := ((s.markTaken x).keepWord h.keep).1
  let s2 := (s1.writeReturned sheet .malformed).fault .sheetMalformed .none (wordOfNat sheet.code) h.count
  s2.beginReport x.opened.frame (some ⟨sheet, h.seq, .malformed⟩)

/-- A sheet is taken: its entries wait for their dispatch, or are all refused by the guard (R13, R16). -/
def State.takeSheet (s : State) (x : FrameStart) (h : SheetHeader) (entries : List SheetEntry) : State :=
  let sheet := s.shc.turn
  let k := (s.markTaken x).keepWord h.keep
  let tripped := k.2
  let j : SheetJob :=
    { sheet := sheet, seq := h.seq, frame := x.opened.frame, tripped := tripped,
      todo := if tripped then [] else entries,
      results := if tripped then List.replicate entries.length .refusedGuard else [],
      opened := [], late := [] }
  let s1 := k.1.setShc { k.1.shc with job := some j.skipUnknown }
  s1.beginReport x.opened.frame (some ⟨sheet, h.seq, if tripped then .guardRefused else .ok⟩)

/-- The SHC takes a frame start with no sheet in dispatch: the turn sheet is looked at in RUNNING, and in RESETTING
no sheet is taken (R10, R13). -/
def State.shcTakes (s : State) (x : FrameStart) : State :=
  let s1 := s.keepParts x.ended.frame
  if s.shc.part = .running then
    match s1.readSheet with
    | .notPosted => s1.noSheet x
    | .failed bad => (s1.busFault .shc bad).noSheet x
    | .malformed h => s1.takeMalformed x h
    | .whole h entries => s1.takeSheet x h entries
  else s1.noSheet x

/-- A held frame start overtaken by a newer one is taken with no sheet (R14). -/
def State.shcOvertaken (s : State) (x : FrameStart) : State := (s.keepParts x.ended.frame).noSheet x

/-- A frame start reaches the SHC: it is taken, or held behind the sheet in dispatch or behind the frame start
held already (R14). -/
def State.shcReached (s : State) (x : FrameStart) : State :=
  match s.shc.heldStart with
  | some h =>
    let s1 := s.shcOvertaken h
    s1.setShc { s1.shc with heldStart := some x }
  | none => if s.shc.job.isSome then s.setShc { s.shc with heldStart := some x } else s.shcTakes x

/-- Take the held frame start, unless a soft reset request still waits to be served before it (R9, R14). -/
def State.shcTakesHeld (s : State) : State :=
  match s.shc.heldStart with
  | none => s
  | some h =>
    if s.shc.resetWaiting || s.shc.job.isSome then s
    else (s.setShc { s.shc with heldStart := none }).shcTakes h

/-- Write the result bytes in entry order (R18). -/
def State.writeResults (s : State) (base : Nat) : Nat → List Result → State
  | _, [] => s
  | n, r :: l => ((s.blockWrite .shc (base + 0x22 + 32 * n) [b8 r.code]).1).writeResults base (n + 1) l

/-- The result of a dispatched sheet (R18). A sheet whose keep word trips the guard is GUARD_REFUSED by R173 also when
its entry count is 0, where R15 says OK (log 44). -/
def SheetJob.result (j : SheetJob) : SheetResult := if j.tripped then .guardRefused else .ok

/-- The frame start after that of a sheet was taken while the sheet was in dispatch: a newer one is held (R14). -/
def Shc.overtook (c : Shc) (j : SheetJob) : Bool := c.heldStart.any fun h => h.ended.frame != j.frame

/-- The SHC's part for the frame of a sheet RETURNED after the next frame start was taken is kept as the sheet is
RETURNED (R22, R23, log 11). -/
def State.keepReturned (s : State) (j : SheetJob) : State :=
  if s.shc.overtook j then s.setShc { s.shc with kept := keepCopy s.copyNeeded j.frame s.shc.ownPart s.shc.kept }
  else s

/-- The sheet in dispatch is RETURNED: results, sheet result, state word, and the completions that waited for them
(R17, R18). The report of its frame shows a tag so ended as it is then, unless the next frame start was taken before
(R22, log 58). -/
def State.returnSheet (s : State) (j : SheetJob) : State :=
  let s1 := (s.writeResults (s.sheetAddress j.sheet) 0 j.results).writeReturned j.sheet j.result
  ((s1.setShc { s1.shc with job := none }).keepReturned j).takeLate j.late

/-- The dispatch completes: the sheet is RETURNED, Safe Stop takes what that asked for, a waiting soft reset is served,
and then a held frame start is taken (R9, R14, R18, R177, log 14). -/
def State.sheetDone (s : State) (j : SheetJob) : State := (s.returnSheet j).serve.serveWaiting.shcTakesHeld

/-- A report's writing completes: Safe Stop takes what that asked for, a waiting soft reset is served, and then a held
frame start is taken (R9, R23, R177, log 14). -/
def State.reportDone (s : State) (r : ReportJob) : State := (s.endReport r).serve.serveWaiting.shcTakesHeld

/-- The report in writing in a slot. -/
def Shc.reportIn (c : Shc) (slot : Nat) : Option ReportJob := c.reports.find? fun r => reportSlot r.frame == slot

end Sys2Proof.Machine
end

