-- ==== Sys2Proof/Machine/Startup.lean ====
section
/-! DEFINITION. Writes to the register window (R1 to R4, R216) and the start-up (R6 to R8). -/

namespace Sys2Proof.Machine

/-! ## The register window -/

/-- The three enables of a written value (R2, R216). -/
def State.setEnables (s : State) (v : Word) : State :=
  s.setShc { s.shc with reportEn := v.getLsbD 4, faultEn := v.getLsbD 5, safeEn := v.getLsbD 6 }

/-- RUN after a write (R2). -/
def Shc.nextRun (c : Shc) (run : Bool) : Bool :=
  if run then c.run || c.part == .halted else c.run && c.part == .halted

/-- A write makes a soft reset request: SOFT_RESET as 1, or RUN as 0 while the part is not HALTED (R2, R9). -/
def Shc.asksReset (c : Shc) (run reset : Bool) : Bool := reset || (!run && c.part != .halted)

/-- A write to PART_CONTROL (R2, log 5). -/
def State.writePartControl (s : State) (v : Word) : State :=
  let run := v.getLsbD 0
  let reset := v.getLsbD 1
  let s1 := (s.setEnables v).setShc { (s.setEnables v).shc with
    run := s.shc.nextRun run
    part := if run && s.shc.part == .halted then .starting else s.shc.part }
  if s.shc.asksReset run reset then s1.requestReset.judgeSlots s else s1

/-- A write to ATTENTION: a 1 clears REPORT or SAFE, a 0 leaves it (R4). -/
def State.writeAttention (s : State) (v : Word) : State :=
  s.setShc { s.shc with
    attReport := s.shc.attReport && !v.getLsbD 0, attSafe := s.shc.attSafe && !v.getLsbD 2 }

/-- A write to PART_BASE (R1). -/
def State.writePartBase (s : State) (v : Word) : State :=
  if s.shc.part = .halted then s.setShc { s.shc with partBase := v } else s

/-- A write to PART_STATUS is ignored (R3). -/
def State.writePartStatus (s : State) (_ : Word) : State := s

/-- A write of one word to a register of the window (R216). -/
def State.writeRegister (s : State) (r : Register) (v : Word) : State :=
  match r with
  | .partBase => s.writePartBase v
  | .partControl => s.writePartControl v
  | .partStatus => s.writePartStatus v
  | .attention => s.writeAttention v

/-! ## The directory check (R6, R218) -/

/-- The directory's fields. -/
structure Directory where
  format : Nat
  streamBase : Word
  streamSize : Word
  stagingBase : Word
  stagingSize : Word
  deriving DecidableEq, Repr

/-- The directory in its 256 bytes (R218). -/
def directoryOf (b : List Byte) : Directory :=
  ⟨ofLe (b.take 2), wordAt b 4, wordAt b 8, wordAt b 12, wordAt b 16⟩

/-- The sizes are as step 4 asks. -/
def Directory.sizesGood (d : Directory) : Bool :=
  d.streamSize.toNat % 65536 == 0 && decide (4194304 ≤ d.streamSize.toNat)
    && decide (d.streamSize.toNat ≤ 268435456) && d.stagingSize.toNat == 192512

/-- Two areas overlap. -/
def overlap (a n b m : Nat) : Bool := decide (a < b + m) && decide (b < a + n)

/-- An area stays below the top of the bus address space. -/
def belowTop (a n : Nat) : Bool := decide (a + n ≤ 4294967296)

/-- The areas are as step 5 asks. -/
def Directory.areasGood (d : Directory) (base : Nat) : Bool :=
  let sa := d.streamBase.toNat
  let sn := d.streamSize.toNat
  let aa := d.stagingBase.toNat
  let an := d.stagingSize.toNat
  !overlap base 16384 sa sn && !overlap base 16384 aa an && !overlap sa sn aa an
    && belowTop base 16384 && belowTop sa sn && belowTop aa an

/-- What the check finds: a reason, with the failing address of a common bus error, or a good directory. -/
inductive CheckResult where
  | bad (reason : Nat)
  | busError (address : Nat)
  | good (d : Directory)
  deriving DecidableEq, Repr

/-- Steps 3 to 5 on a directory. -/
def Directory.check (d : Directory) (base : Nat) : CheckResult :=
  if d.format ≠ 0x4D41 then .bad 4
  else if d.sizesGood = false then .bad 2
  else if d.areasGood base = false then .bad 3
  else .good d

/-- The check of R6. -/
def State.checkDirectory (s : State) : CheckResult :=
  let base := s.shc.partBase.toNat
  if base % 16384 ≠ 0 then .bad 1
  else
    match s.busRead base 256 with
    | .error bad => .busError bad
    | .ok b => (directoryOf b).check base

/-- START_FAILED with a reason (R6). -/
def State.startFails (s : State) (reason : Nat) : State :=
  s.setShc { s.shc with part := .startFailed, reason := reason }

/-- A slot takes the level of its detect switch (R136). -/
def State.readDetect (s : State) (x : SlotId) : State :=
  if (s.slot x).detect then s.probeCard x else s.setSlotState x .empty

/-- The part enters RUNNING (R6, R7, R33, R41, R96, R136, R193). -/
def State.enterRunning (s : State) (d : Directory) : State :=
  let s1 := { s with
    shc := { s.shc with
      part := .running, turn := .a, tags := s.shc.tags.map TagRec.afterReset,
      streamBase := d.streamBase, streamSize := d.streamSize }
    ftu := { s.ftu with flywheel := some (s.now + s.ftu.format.rate.period), lastStart := s.now }
    ldu := { s.ldu with timer := some s.now }
    acu := { s.acu with stagingBase := d.stagingBase, clockTimer := some (s.now + 2000) }
    vfl := s.vfl.rebuild s.flt }
  (s1.readDetect .a).readDetect .b

/-- The directory read and check completes (R6). -/
def State.directoryChecked (s : State) : State :=
  match s.checkDirectory with
  | .bad reason => s.startFails reason
  | .busError bad => (s.startFails 5).busFault .shc bad
  | .good d => s.enterRunning d

end Sys2Proof.Machine
end

