-- ==== Sys2Proof/Machine/AudioOrders.lean ====
section
/-! DEFINITION. The commands of the Audio Capture Unit (05). -/

namespace Sys2Proof.Machine

/-- AUDIO_SET (R94, R95). -/
def execAudioSet (e : Env) (c1 c2 c3 c4 : BitVec 24) (s : State) : Host.Outcome State Fault Refusal :=
  let s0 := s.arrive e
  if s0.active then
    .next ((s0.audioArrives ⟨c1.toInt, c2.toInt, c3.toInt, c4.toInt⟩).serve.judgeSlots s0)
  else .next s0

/-- AUDIO_CLOCK_EXPIRY (R96). -/
def execAudioClockExpiry (e : Env) (s : State) : Host.Outcome State Fault Refusal :=
  let s0 := s.arrive e
  match s0.acu.clockTimer with
  | none => .next s0
  | some due => .next ((s0.expireAt due).audioClockLost.serve.judgeSlots s0)

/-- ACU_FRAME_START (R108, R109). -/
def execAcuFrameStart (e : Env) (s : State) : Host.Outcome State Fault Refusal :=
  let s0 := s.arrive e
  match s0.acu.arriving with
  | [] => .next s0
  | x :: r => .next (((s0.setAcu { s0.acu with arriving := r }).acuFrame x).settle.judgeSlots s0)

/-- STAGING_WRITE_DONE (R108). -/
def execStagingWriteDone (e : Env) (s : State) : Host.Outcome State Fault Refusal :=
  let s0 := s.arrive e
  match s0.acu.writing with
  | none => .next s0
  | some j => .next ((s0.stagingDone j).settle.judgeSlots s0)

/-! ## Orders (R99, R100) -/

/-- Change the pending settings of the channels a code names: 0 all four, 1 to 4 one. -/
def Quad.named {α : Type} (n : Nat) (f : α → α) (q : Quad α) : Quad α :=
  { c1 := if n = 0 ∨ n = 1 then f q.c1 else q.c1
    c2 := if n = 0 ∨ n = 2 then f q.c2 else q.c2
    c3 := if n = 0 ∨ n = 3 then f q.c3 else q.c3
    c4 := if n = 0 ∨ n = 4 then f q.c4 else q.c4 }

/-- Change pending settings. -/
def State.setPending (s : State) (channel : Nat) (f : ChannelSet → ChannelSet) : State :=
  s.setAcu { s.acu with channels := s.acu.channels.named channel fun c => { c with pending := f c.pending } }

/-- A channel order on a channel code 0 to 4 (R100). -/
def decideChannel (channel : Byte) (clamped : Bool) (f : ChannelSet → ChannelSet) : Decision :=
  if 4 < channel.toNat then .refuse .refusedParam
  else .carry clamped fun s => s.setPending channel.toNat f

/-- A source of a code (R100). -/
def sourceOf (code : Byte) : Option AudioSource :=
  if code.toNat = 0 then some .converter else if code.toNat = 1 then some .tone
  else if code.toNat = 2 then some .mute else none

/-- What AUDIO_SOURCE comes to (R100). -/
def decideAudioSource (channel source : Byte) (_ : State) : Decision :=
  match sourceOf source with
  | none => .refuse .refusedParam
  | some x => decideChannel channel false fun c => { c with source := x }

/-- AUDIO_SOURCE (R100). -/
def execAudioSource (e : Env) (tag channel source : Byte) (s : State) : Host.Outcome State Fault Refusal :=
  .next ((s.arrive e).takeOrder .immediate 0x48 tag (p1 channel ++ p1 source) (decideAudioSource channel source))

/-- What AUDIO_GAIN comes to (R100). -/
def decideAudioGain (channel gain : Byte) (_ : State) : Decision :=
  decideChannel channel (decide (84 < gain.toNat)) fun c => { c with gain := min 84 gain.toNat }

/-- AUDIO_GAIN (R100). -/
def execAudioGain (e : Env) (tag channel gain : Byte) (s : State) : Host.Outcome State Fault Refusal :=
  .next ((s.arrive e).takeOrder .immediate 0x49 tag (p1 channel ++ p1 gain) (decideAudioGain channel gain))

/-- What AUDIO_LIMITER comes to (R100). -/
def decideAudioLimiter (channel threshold release : Byte) (_ : State) : Decision :=
  let t := clampInt (-20) 0 threshold.toInt
  let r := clampNat 1 64 release.toNat
  decideChannel channel (t != threshold.toInt || r != release.toNat) fun c => { c with threshold := t, release := r }

/-- AUDIO_LIMITER (R100). -/
def execAudioLimiter (e : Env) (tag channel threshold release : Byte) (s : State) :
    Host.Outcome State Fault Refusal :=
  .next ((s.arrive e).takeOrder .immediate 0x4A tag (p1 channel ++ p1 threshold ++ p1 release)
    (decideAudioLimiter channel threshold release))

/-- What TONE_LEVEL comes to (R100). -/
def decideToneLevel (level : Byte) (_ : State) : Decision :=
  if 1 < level.toNat then .refuse .refusedParam
  else .carry false fun s => s.setAcu { s.acu with pendingTone := level.toNat }

/-- TONE_LEVEL (R100). -/
def execToneLevel (e : Env) (tag level : Byte) (s : State) : Host.Outcome State Fault Refusal :=
  .next ((s.arrive e).takeOrder .immediate 0x4B tag (p1 level) (decideToneLevel level))

end Sys2Proof.Machine
end

