-- ==== Sys2Proof/Machine/CardOrders.lean ====
section
/-! DEFINITION. The commands of the Card Slot Controllers (07). -/

namespace Sys2Proof.Machine

/-! ## The detect switch and the replies -/

/-- The detect switch of a slot moves; the pin is not the part's to hold. -/
def State.setDetect (s : State) (x : SlotId) (level : Bool) : State := s.updSlot x fun v => { v with detect := level }

/-- CARD_INSERTED (R136). -/
def execCardInserted (e : Env) (slot : SlotId) (s : State) : Host.Outcome State Fault Refusal :=
  let s0 := (s.arrive e).setDetect slot true
  if s0.active = true ∧ (s0.slot slot).st = .empty then .next ((s0.probeCard slot).settle.judgeSlots s0)
  else .next s0

/-- CARD_REMOVED (R142). -/
def execCardRemoved (e : Env) (slot : SlotId) (s : State) : Host.Outcome State Fault Refusal :=
  let s0 := (s.arrive e).setDetect slot false
  if s0.active = true ∧ (s0.slot slot).st ≠ .empty then .next ((s0.removeCard slot).settle.judgeSlots s0)
  else .next s0

/-- IDENTIFY_REPLY (R136). -/
def execIdentifyReply (e : Env) (slot : SlotId) (answer : IdentifyAnswer) (s : State) :
    Host.Outcome State Fault Refusal :=
  let s0 := s.arrive e
  .next ((s0.identified slot answer).settle.judgeSlots s0)

/-- WRITE_REPLY (R139, R154). -/
def execWriteReply (e : Env) (slot : SlotId) (answer : CardAnswer) (s : State) :
    Host.Outcome State Fault Refusal :=
  let s0 := s.arrive e
  .next ((s0.writeAnswered slot answer).settle.judgeSlots s0)

/-- READ_REPLY (R164 to R167). -/
def execReadReply (e : Env) (slot : SlotId) (answer : ReadAnswer) (s : State) :
    Host.Outcome State Fault Refusal :=
  let s0 := s.arrive e
  .next ((s0.readAnswered slot answer).settle.judgeSlots s0)

/-- FLUSH_REPLY (R139, R161, R163). -/
def execFlushReply (e : Env) (slot : SlotId) (answer : CardAnswer) (s : State) :
    Host.Outcome State Fault Refusal :=
  let s0 := s.arrive e
  .next ((s0.flushAnswered slot answer).settle.judgeSlots s0)

/-- CARD_COMMAND_TIMEOUT (R140). -/
def execCardCommandTimeout (e : Env) (slot : SlotId) (s : State) : Host.Outcome State Fault Refusal :=
  let s0 := s.arrive e
  match (s0.slot slot).timer, (s0.slot slot).command with
  | some due, some c => .next (((s0.expireAt due).cardTimesOut slot c).settle.judgeSlots s0)
  | _, _ => .next s0

/-! ## GRANT_EXTENT (R144) -/

/-- A slot of a code: 0 A, 1 B. -/
def slotOf (code : Byte) : Option SlotId :=
  if code.toNat = 0 then some .a else if code.toNat = 1 then some .b else none

/-- A mark of a code: 0 clear, 1 set. -/
def markOf (code : Byte) : Option Bool :=
  if code.toNat = 0 then some false else if code.toNat = 1 then some true else none

/-- The extents a grant may not overlap, each whole as granted: queued, current, and in the open clip's list. -/
def Slot.held (v : Slot) : List Extent :=
  v.queue ++ v.current.toList.map (fun c => c.extent)
    ++ (match v.clip with
        | some c => c.extents.map fun e => e.extent
        | none => [])

/-- Two extents share a sector. -/
def Extent.shares (a b : Extent) : Bool := decide (a.start < b.stop) && decide (b.start < a.stop)

/-- The slot holds a current or queued extent with the final mark. -/
def Slot.holdsFinal (v : Slot) : Bool :=
  (match v.current with
   | some c => c.extent.final
   | none => false) || v.queue.any fun e => e.final

/-- The slot's state and mark let it take a grant. -/
def Slot.grantable (v : Slot) : Bool :=
  (v.st == .ready || v.st == .recording || v.st == .closing) && !v.releasePending

/-- The extent of a grant after step 5 (R144). -/
def grantedExtent (capacity : Nat) (start count : Word) (final : Bool) : Extent :=
  let a := min start.toNat (capacity - 64)
  { start := a, count := clampNat 64 (capacity - a) count.toNat, final := final }

/-- A grant joins the queue, and a paused writer tries again (R144, R152). -/
def State.grant (s : State) (x : SlotId) (g : Extent) : State :=
  ((s.updSlot x fun v => { v with queue := v.queue ++ [g] }).updClip x fun c =>
    { c with retry := c.retry || c.paused, paused := false }).work

/-- What GRANT_EXTENT comes to (R144). -/
def decideGrantExtent (slot : Byte) (start count : Word) (final : Byte) (s : State) : Decision :=
  match slotOf slot, markOf final with
  | some x, some m =>
    let v := s.slot x
    let g := grantedExtent v.capacity start count m
    if v.grantable = false then .refuse .refusedState
    else if v.holdsFinal = true then .refuse .refusedState
    else if v.capacity < 64 then .refuse .refusedState
    else if 8 ≤ v.queue.length then .refuse .refusedFull
    else if v.held.any g.shares = true then .refuse .refusedOverlap
    else .carry (g.start != start.toNat || g.count != count.toNat) fun s => s.grant x g
  | _, _ => .refuse .refusedParam

/-- GRANT_EXTENT (R144). -/
def execGrantExtent (e : Env) (tag slot : Byte) (start count : Word) (final : Byte) (s : State) :
    Host.Outcome State Fault Refusal :=
  .next ((s.arrive e).takeOrder .immediate 0x60 tag (p1 slot ++ p4 start ++ p4 count ++ p1 final)
    (decideGrantExtent slot start count final))

/-! ## RECORD_MODE (R145) -/

/-- The record mode and its slot that two codes name; SIMUL keeps the slot held (log 43). -/
def recordModeOf (mode slot : Byte) (held : SlotId) : Option (RecordMode × SlotId) :=
  if mode.toNat = 0 then (slotOf slot).map fun x => (.single, x)
  else if mode.toNat = 1 then some (.simul, held)
  else if mode.toNat = 2 then (slotOf slot).map fun x => (.relay, x)
  else none

/-- What RECORD_MODE comes to (R145). -/
def decideRecordMode (mode slot : Byte) (s : State) : Decision :=
  match recordModeOf mode slot s.deck.slot with
  | none => .refuse .refusedParam
  | some (m, x) =>
    if s.clipOpen = true then .refuse .refusedRecording
    else .carry false fun s => { s with deck := { s.deck with mode := m, slot := x } }

/-- RECORD_MODE (R145). -/
def execRecordMode (e : Env) (tag mode slot : Byte) (s : State) : Host.Outcome State Fault Refusal :=
  .next ((s.arrive e).takeOrder .immediate 0x61 tag (p1 mode ++ p1 slot) (decideRecordMode mode slot))

/-! ## CLIP_OPEN (R146 to R148) -/

/-- A slot is needed by a CLIP_OPEN (R146). -/
def Deck.needs (d : Deck) (x : SlotId) : Bool := d.mode == .simul || d.slot == x

/-- A needed slot can open (R146, check 4). -/
def Slot.canOpen (v : Slot) : Bool := v.st == .ready && !v.releasePending && v.holdsRoom

/-- The next group to be indexed (R134). -/
def State.nextIndexed (s : State) : FrameNo :=
  match s.sta.copy, s.sta.pending with
  | some g, _ => g.source.frame.frame
  | none, p :: _ => p.frame.frame
  | none, [] => s.sta.newest

/-- Every frame the CSC looks at for a BREAK mark, oldest first (R148, step 3). A frame that has ended and whose frame
start the STA has not yet taken is looked at too (log 53). -/
def State.marks (s : State) : List (FrameNo × Bool) :=
  s.sta.index.map (fun r => (r.frame, r.tcFlags.getLsbD 2))
    ++ s.sta.copy.toList.map (fun g => (g.source.frame.frame, g.source.frame.brk))
    ++ s.sta.pending.map (fun p => (p.frame.frame, p.frame.brk))
    ++ s.sta.arriving.map (fun x => (x.ended.frame, x.ended.brk))
    ++ [(s.ftu.openRec.frame, s.ftu.openRec.brk)]

/-- The newest of a list of frames that is not older than `f`, else `f`. -/
def newestFrom (f : FrameNo) (l : List FrameNo) : FrameNo :=
  l.foldl (fun a b => if olderFrame a b then b else a) f

/-- The reader's start frame (R148). -/
def State.startFrame (s : State) : FrameNo :=
  let f1 := match s.retained with
    | r :: _ => r.frame
    | [] => s.nextIndexed
  let f2 :=
    if s.ftu.pendingFormat.isSome || s.ftu.pendingTc.isSome || s.ftu.mode == .recordRun then s.ftu.counter + 1
    else f1
  let f3 := newestFrom f2 ((s.marks.filter fun m => m.2 && notNewer f2 m.1).map fun m => m.1)
  match s.sta.floor with
  | some g => if notNewer f3 g then g + 1 else f3
  | none => f3

/-- Open one needed slot. -/
def State.openNeeded (s : State) (id : Word) (first : FrameNo) (tag : Nat) (x : SlotId) : State :=
  if s.deck.needs x then s.openClip x id 0 false first tag else s

/-- An accepted CLIP_OPEN (R146 to R149). -/
def State.openOrdered (s : State) (tag : Nat) (id cont : Word) : State :=
  let first := s.startFrame
  let o : OpenOrder :=
    { tag := tag, clipId := id, first := first, waitA := s.deck.needs .a, waitB := s.deck.needs .b,
      usesA := s.deck.needs .a, sectorA := 0, sectorB := 0 }
  let s1 := { s with deck := { s.deck with
    openOrder := some o, relayId := if s.deck.mode = RecordMode.relay then cont else s.deck.relayId } }
  ((s1.openNeeded id first tag .a).openNeeded id first tag .b).work

/-- What CLIP_OPEN comes to (R146). -/
def decideClipOpen (tag : Byte) (clipId contId : Word) (s : State) : Decision :=
  if s.cgd.st = .tripped then .refuse .refusedGuard
  else if clipId = 0 then .refuse .refusedParam
  else if s.deck.mode = .relay ∧ (contId = 0 ∨ contId = clipId) then .refuse .refusedParam
  else if s.clipOpen = true then .refuse .refusedState
  else if (s.deck.needs .a = true ∧ s.slotA.canOpen = false) ∨ (s.deck.needs .b = true ∧ s.slotB.canOpen = false) then
    .refuse .refusedState
  else .carry false fun s => s.openOrdered tag.toNat clipId contId

/-- CLIP_OPEN (R146). -/
def execClipOpen (e : Env) (tag : Byte) (clipId contId : Word) (s : State) :
    Host.Outcome State Fault Refusal :=
  .next ((s.arrive e).takeOrder .required 0x62 tag (p4 clipId ++ p4 contId) (decideClipOpen tag clipId contId))

/-! ## CLIP_CLOSE (R157) -/

/-- A RECORDING slot takes the close tag and becomes CLOSING (R157). -/
def State.closeOrdered (s : State) (tag : Nat) (newest : Option FrameNo) (x : SlotId) : State :=
  if (s.slot x).st = .recording then (s.updSlot x fun v => { v with closeTag := tag }).closeClip x newest else s

/-- The end point word of a CLIP_CLOSE: the newest group, or a free value when the index is empty (log 33). -/
def State.endWord (s : State) : Word × State :=
  match s.newestGroup with
  | some f => (f, s)
  | none => s.drawWord

/-- An accepted CLIP_CLOSE (R157). -/
def State.closeAll (s : State) (tag : Nat) : State :=
  let w := s.endWord
  let o : CloseOrder :=
    { tag := tag, waitA := s.slotA.st == .recording, waitB := s.slotB.st == .recording, framesA := 0,
      framesB := 0, endPoint := w.1 }
  let s1 := { w.2 with deck := { w.2.deck with closeOrder := some o } }
  ((s1.closeOrdered tag s.newestGroup .a).closeOrdered tag s.newestGroup .b).work

/-- What CLIP_CLOSE comes to (R157). -/
def decideClipClose (tag : Byte) (s : State) : Decision :=
  if s.anyRecording = true then .carry false fun s => s.closeAll tag.toNat else .refuse .refusedState

/-- CLIP_CLOSE (R157). -/
def execClipClose (e : Env) (tag : Byte) (s : State) : Host.Outcome State Fault Refusal :=
  .next ((s.arrive e).takeOrder .required 0x63 tag [] (decideClipClose tag))

/-! ## SLOT_RELEASE (R163) and SCAN_EXTENT (R164) -/

/-- A slot is released: its grants are taken back, and a FLUSH is due (R163). -/
def State.releaseSlot (s : State) (x : SlotId) : State :=
  (s.updSlot x fun v =>
    { v with current := none, queue := [], releasePending := true, releaseSent := false }).work

/-- What SLOT_RELEASE comes to (R163). -/
def decideSlotRelease (slot : Byte) (s : State) : Decision :=
  match slotOf slot with
  | none => .refuse .refusedParam
  | some x =>
    let v := s.slot x
    if (v.st = .ready ∨ v.st = .full) ∧ v.releasePending = false then .carry false fun s => s.releaseSlot x
    else .refuse .refusedState

/-- SLOT_RELEASE (R163). -/
def execSlotRelease (e : Env) (tag slot : Byte) (s : State) : Host.Outcome State Fault Refusal :=
  .next ((s.arrive e).takeOrder .immediate 0x64 tag (p1 slot) (decideSlotRelease slot))

/-- The start and count of a scan after clamping (R164, log 36). -/
def scannedExtent (capacity : Nat) (start count : Word) : Nat × Nat :=
  let a := min start.toNat (capacity - 1)
  (a, max 1 (min count.toNat (capacity - a)))

/-- A scan begins (R164). -/
def State.beginScan (s : State) (x : SlotId) (tag : Nat) (g : Nat × Nat) : State :=
  ((s.updSlot x fun v => { v with scanTag := tag, scan := .begin g.1 g.2 }).setSlotState x .scanning).work

/-- What SCAN_EXTENT comes to (R164). -/
def decideScanExtent (tag slot : Byte) (start count : Word) (s : State) : Decision :=
  match slotOf slot with
  | none => .refuse .refusedParam
  | some x =>
    let v := s.slot x
    if v.st ≠ .ready ∨ v.releasePending = true then .refuse .refusedState
    else
      let g := scannedExtent v.capacity start count
      .carry (g.1 != start.toNat || g.2 != count.toNat) fun s => s.beginScan x tag.toNat g

/-- SCAN_EXTENT (R164). -/
def execScanExtent (e : Env) (tag slot : Byte) (start count : Word) (s : State) :
    Host.Outcome State Fault Refusal :=
  .next ((s.arrive e).takeOrder .required 0x65 tag (p1 slot ++ p4 start ++ p4 count)
    (decideScanExtent tag slot start count))

end Sys2Proof.Machine
end

