-- ==== Sys2Proof/Machine/FaultOrders.lean ====
section
/-! DEFINITION. The orders of the Fault Log (10). -/

namespace Sys2Proof.Machine

/-! ## CLEAR_FAULTS (R207, R208) -/

/-- A used place that an order may carry: a kind and the sets it names. -/
structure UsedPlace where
  kind : FaultKind
  seen : Nat
  first : Bool
  next : Bool
  deriving DecidableEq, Repr

/-- A place judged: unused, not allowed, or used (R207). -/
inductive PlaceCheck where
  | unused
  | bad
  | used (p : UsedPlace)
  deriving DecidableEq, Repr

/-- Judge a place (R207). -/
def placeCheck (c : ClearPlace) : PlaceCheck :=
  if c.kind.toNat = 0 then .unused
  else
    match faultKindOf c.kind.toNat with
    | none => .bad
    | some k =>
      if c.set.toNat = 0 ∨ 3 < c.set.toNat then .bad
      else .used ⟨k, c.seen.toNat, c.set.toNat != 2, c.set.toNat != 1⟩

/-- The used places of an order, or none when a place is not allowed. -/
def usedPlaces : List ClearPlace → Option (List UsedPlace)
  | [] => some []
  | c :: r =>
    match placeCheck c, usedPlaces r with
    | .bad, _ => none
    | _, none => none
    | .unused, some l => some l
    | .used p, some l => some (p :: l)

/-- Remove a kind from the sets a place names. -/
def Flt.leave (f : Flt) (p : UsedPlace) : Flt :=
  let g := if p.next then f.setEntry p.kind { f.entry p.kind with inNext := false } else f
  if p.first && g.first == some p.kind then { g with first := none } else g

/-- A kind that has left both sets: its count becomes 0 and its capture record is cleared (R208). -/
def Flt.clearKind (f : Flt) (k : FaultKind) : Flt :=
  f.setEntry k { f.entry k with count := 0, capture := .clear }

/-- Notices go to the VFL while it takes events. -/
def State.noticeLeft (s : State) (k : FaultKind) : State :=
  if s.active then { s with vfl := s.vfl.kindLeft k } else s

/-- Remove a kind that stood; with the last of its sets it is cleared, and holds no completion that waits (R208). -/
def State.leaveSets (s : State) (p : UsedPlace) : State :=
  let f := s.flt.leave p
  if s.flt.stands p.kind && !f.stands p.kind then
    (({ s with flt := f.clearKind p.kind }).dropHolds p.kind).noticeLeft p.kind
  else { s with flt := f }

/-- The outcome of a place (R208). -/
def Flt.placeResult (f : Flt) (p : UsedPlace) : Result :=
  if (f.entry p.kind).capture.tag ≠ 0 then .clearHeld
  else if (f.entry p.kind).count ≠ p.seen then .clearStale
  else .done

/-- The worse of two outcomes (R208). -/
def worse (a b : Result) : Result :=
  if a = .clearHeld ∨ b = .clearHeld then .clearHeld
  else if a = .clearStale ∨ b = .clearStale then .clearStale
  else .done

/-- Work the places in order: the state after, and the worst outcome (R208). -/
def State.clearPlaces : State → List UsedPlace → State × Result
  | s, [] => (s, .done)
  | s, p :: r =>
    let o := s.flt.placeResult p
    let t := State.clearPlaces (if o = .done then s.leaveSets p else s) r
    (t.1, worse o t.2)

/-- What CLEAR_FAULTS comes to (R207, R208). -/
def decideClearFaults (places : List ClearPlace) (s : State) : Decision :=
  match usedPlaces places with
  | none => .refuse .refusedParam
  | some l => .answer (s.clearPlaces l).2 fun s => (s.clearPlaces l).1

/-- CLEAR_FAULTS (R207, R208). -/
def execClearFaults (e : Env) (tag : Byte) (c1 c2 c3 c4 c5 c6 : ClearPlace) (s : State) :
    Host.Outcome State Fault Refusal :=
  .next ((s.arrive e).takeOrder .immediate 0x7C tag (p3 c1 ++ p3 c2 ++ p3 c3 ++ p3 c4 ++ p3 c5 ++ p3 c6)
    (decideClearFaults [c1, c2, c3, c4, c5, c6]))

/-! ## SET_FAULT_ROUTE (R210, R214) -/

/-- A route of a code (R210). -/
def routeOf (code : Byte) : Option Route :=
  if code.toNat = 0 then some .none else if code.toNat = 1 then some .attention
  else if code.toNat = 2 then some .safeStop else none

/-- Set a kind's route and mapping. -/
def State.setRoute (s : State) (k : FaultKind) (r : Route) (m : Option Mapping) : State :=
  { s with flt := s.flt.setEntry k { s.flt.entry k with route := r, mapping := m } }

/-- What SET_FAULT_ROUTE comes to (R210). -/
def decideSetFaultRoute (kind route mapping priority text : Byte) (_ : State) : Decision :=
  match faultKindOf kind.toNat, routeOf route with
  | some k, some r =>
    if k = .guardTrip then .refuse .refusedParam
    else if mapping.toNat = 0 then .carry false fun s => s.setRoute k r none
    else if mapping.toNat = 1 then
      .carry (decide (7 < priority.toNat) || decide (63 < text.toNat)) fun s =>
        s.setRoute k r (some ⟨min priority.toNat 7, min text.toNat 63⟩)
    else .refuse .refusedParam
  | _, _ => .refuse .refusedParam

/-- SET_FAULT_ROUTE (R210). -/
def execSetFaultRoute (e : Env) (tag kind route mapping priority text : Byte) (s : State) :
    Host.Outcome State Fault Refusal :=
  .next ((s.arrive e).takeOrder .immediate 0x7D tag
    (p1 kind ++ p1 route ++ p1 mapping ++ p1 priority ++ p1 text)
    (decideSetFaultRoute kind route mapping priority text))

end Sys2Proof.Machine
end

