-- ==== Sys2Proof/Machine/GuardOrders.lean ====
section
/-! DEFINITION. The commands of the Continuity Guard and Safe Stop (08). -/

namespace Sys2Proof.Machine

/-- The guard as GUARD_ARM leaves it (R171). -/
def Cgd.arm (c : Cgd) (recording : Bool) (limit : Nat) : Cgd :=
  { c with st := if recording then .watching else .armed, expected := 0x6E19, count := 0, limit := limit,
           starved := false }

/-- What GUARD_ARM comes to (R171). -/
def decideGuardArm (limit : Byte) (s : State) : Decision :=
  let n := clampNat 2 120 limit.toNat
  if s.cgd.st = .off then .carry (n != limit.toNat) fun s => s.setCgd (s.cgd.arm s.anyRecording n)
  else .refuse .refusedState

/-- GUARD_ARM (R171). -/
def execGuardArm (e : Env) (tag limit : Byte) (s : State) : Host.Outcome State Fault Refusal :=
  .next ((s.arrive e).takeOrder .immediate 0x70 tag (p1 limit) (decideGuardArm limit))

/-- What GUARD_DISARM comes to (R172). -/
def decideGuardDisarm (s : State) : Decision :=
  if s.cgd.st = .armed then .carry false fun s => s.setCgd { s.cgd with st := .off, count := 0, starved := false }
  else .refuse .refusedState

/-- GUARD_DISARM (R172). -/
def execGuardDisarm (e : Env) (tag : Byte) (s : State) : Host.Outcome State Fault Refusal :=
  .next ((s.arrive e).takeOrder .immediate 0x71 tag [] decideGuardDisarm)

/-- What SAFE_STOP comes to (R181). -/
def decideSafeStop (_ : State) : Decision := .carry false fun s => s.askStop .order

/-- SAFE_STOP (R181). -/
def execSafeStop (e : Env) (tag : Byte) (s : State) : Host.Outcome State Fault Refusal :=
  .next ((s.arrive e).takeOrder .immediate 0x74 tag [] decideSafeStop)

/-- What SAFE_STOP_ENABLE comes to (R181). -/
def decideSafeStopEnable (_ : State) : Decision :=
  .carry false fun s => { s with stop := { s.stop with enable := true } }

/-- SAFE_STOP_ENABLE (R181). -/
def execSafeStopEnable (e : Env) (tag : Byte) (s : State) : Host.Outcome State Fault Refusal :=
  .next ((s.arrive e).takeOrder .immediate 0x75 tag [] decideSafeStopEnable)

end Sys2Proof.Machine
end

