-- ==== Sys2Proof/Machine/LensOrders.lean ====
section
/-! DEFINITION. The commands of the Lens Drive Unit (03). -/

namespace Sys2Proof.Machine

/-- LENS_UPDATE (R41). -/
def execLensUpdate (e : Env) (s : State) : Host.Outcome State Fault Refusal :=
  let s0 := s.arrive e
  match s0.ldu.timer with
  | none => .next s0
  | some due => .next ((s0.expireAt due).lensUpdate.serve.judgeSlots s0)

/-- LENS_REPLY: the last reply to arrive for the demand last sent is the one used (R42). A reply that arrives after the
next demand has been sent counts to that later demand (log 46). -/
def execLensReply (e : Env) (reply : LensReply) (s : State) : Host.Outcome State Fault Refusal :=
  let s0 := s.arrive e
  if s0.active = true ∧ s0.ldu.demandSent = true then .next (s0.setLdu { s0.ldu with reply := some reply })
  else .next s0

/-! ## The axis orders (R46, R49 to R52, R57, R58, R62, R63) -/

/-- The first check of an order taken in ONLINE alone (R46). -/
def State.whenOnline (s : State) (d : Decision) : Decision :=
  if s.ldu.link = .online then d else .refuse .refusedState

/-- The refusals of an axis order: the claim for zoom, the manual mode, a stalled axis (R46). -/
def Ldu.axisRefusal (l : Ldu) (x : AxisId) : Option Result :=
  if x = .zoom ∧ l.gripRefuses = true then some .refusedGrip
  else if l.manual x = true then some .refusedManual
  else if (l.axis x).st = .stalled then some .refusedStalled
  else none

/-- An accepted order cancels a shot sequence with cause 4 (R69). -/
def State.cancelByOrder (s : State) : State := s.cancelShot fun t => t.endSequenceTag .preempted 4

/-- An accepted zoom order makes the owner ORDER (R57). -/
def State.claimFor (s : State) (x : AxisId) : State :=
  if x = .zoom then s.setLdu { s.ldu with owner := .order } else s

/-- An order's move begins on an axis, replacing the one in flight (R49, R52, R57, R69). -/
def State.orderMove (s : State) (x : AxisId) (m : Move) (tag : Nat) : State :=
  let s1 := (s.cancelByOrder.claimFor x).endAxisTag x .preempted 4
  s1.beginMove x m s1.moveStep tag

/-- What an axis order comes to: `m` gives the move in the state it begins in. -/
def decideAxisOrder (x : AxisId) (tag : Byte) (clamped : Bool) (m : Ldu → Move) (s : State) : Decision :=
  s.whenOnline <|
    match s.ldu.axisRefusal x with
    | some r => .refuse r
    | none => .carry clamped fun s => s.orderMove x (m s.cancelByOrder.ldu) tag.toNat

/-- The target in sub-units of a position move to a position; for focus on its base, less the correction at the
zoom demand position last sent (R51, R62). A table just loaded counts at once (log 61). -/
def Ldu.targetOf (l : Ldu) (x : AxisId) (position : Int) : Int :=
  if x = .focus ∧ l.focusBased = true then (position - l.correction l.zoom.sent) * 500 else position * 500

/-- What a position order comes to (R51). -/
def decidePosition (x : AxisId) (tag : Byte) (target cap : Half) (s : State) : Decision :=
  let p := clampInt 0 x.max (u16 target)
  let c := clampInt 1 x.vmax (u16 cap)
  decideAxisOrder x tag (p != u16 target || c != u16 cap) (fun l => .position (l.targetOf x p) c) s

/-- What ZOOM_RATE comes to (R50). -/
def decideZoomRate (tag : Byte) (rate : Half) (s : State) : Decision :=
  let v := clampInt (-4000) 4000 rate.toInt
  decideAxisOrder .zoom tag (v != rate.toInt) (fun _ => .rate v) s

/-- ZOOM_RATE (R50). -/
def execZoomRate (e : Env) (tag : Byte) (rate : Half) (s : State) : Host.Outcome State Fault Refusal :=
  .next ((s.arrive e).takeOrder .optional 0x20 tag (p2 rate) (decideZoomRate tag rate))

/-- ZOOM_TO (R51). -/
def execZoomTo (e : Env) (tag : Byte) (target cap : Half) (s : State) : Host.Outcome State Fault Refusal :=
  .next ((s.arrive e).takeOrder .optional 0x21 tag (p2 target ++ p2 cap) (decidePosition .zoom tag target cap))

/-- FOCUS_TO (R51, R62). -/
def execFocusTo (e : Env) (tag : Byte) (target cap : Half) (s : State) : Host.Outcome State Fault Refusal :=
  .next ((s.arrive e).takeOrder .optional 0x22 tag (p2 target ++ p2 cap) (decidePosition .focus tag target cap))

/-- IRIS_TO (R51). -/
def execIrisTo (e : Env) (tag : Byte) (target cap : Half) (s : State) : Host.Outcome State Fault Refusal :=
  .next ((s.arrive e).takeOrder .optional 0x23 tag (p2 target ++ p2 cap) (decidePosition .iris tag target cap))

/-! ## ZOOM_STOP and ZOOM_CLAIM (R53, R57) -/

/-- What ZOOM_STOP makes of the zoom's move. -/
def Move.stopped : Move → Move
  | .rate _ => .stopping
  | .position _ _ => .stopping
  | .grip _ => .stopping
  | m => m

/-- ZOOM_STOP on a zoom that is not STALLED (R53, R69). -/
def State.stopZoom (s : State) : State :=
  let l := s.cancelByOrder.ldu
  s.cancelByOrder.setLdu { l with owner := .order, zoom := { l.zoom with move := l.zoom.move.stopped } }

/-- What ZOOM_STOP comes to (R46, R53, R57). -/
def decideZoomStop (s : State) : Decision :=
  s.whenOnline <|
    if s.ldu.gripRefuses = true then .refuse .refusedGrip
    else if s.ldu.zoom.st = .stalled then .carry false fun s => s.setLdu { s.ldu with owner := .order }
    else .carry false State.stopZoom

/-- ZOOM_STOP (R53). -/
def execZoomStop (e : Env) (tag : Byte) (s : State) : Host.Outcome State Fault Refusal :=
  .next ((s.arrive e).takeOrder .immediate 0x24 tag [] decideZoomStop)

/-- A grip move becomes a stopping move (R57). -/
def Move.gripStopped : Move → Move
  | .grip _ => .stopping
  | m => m

/-- Set the grip lockout (R57). -/
def Ldu.lockGrip (l : Ldu) : Ldu :=
  if l.owner = .grip then
    { l with lockout := true, owner := .order, zoom := { l.zoom with move := l.zoom.move.gripStopped } }
  else { l with lockout := true }

/-- What ZOOM_CLAIM comes to (R57). -/
def decideZoomClaim (lockout : Byte) (_ : State) : Decision :=
  if lockout.toNat = 0 then .carry false fun s => s.setLdu { s.ldu with lockout := false }
  else if lockout.toNat = 1 then .carry false fun s => s.setLdu s.ldu.lockGrip
  else .refuse .refusedParam

/-- ZOOM_CLAIM (R57). -/
def execZoomClaim (e : Env) (tag lockout : Byte) (s : State) : Host.Outcome State Fault Refusal :=
  .next ((s.arrive e).takeOrder .immediate 0x25 tag (p1 lockout) (decideZoomClaim lockout))

/-! ## LENS_CONFIG (R49) -/

/-- What LENS_CONFIG comes to (R49). -/
def decideLensConfig (hard soft : Byte) (window time : Half) (_ : State) : Decision :=
  let h := clampInt 1 200 (u8 hard)
  let f := clampInt 1 200 (u8 soft)
  let w := clampInt 16 1023 (u16 window)
  let t := clampNat 10 1000 time.toNat
  .carry (h != u8 hard || f != u8 soft || w != u16 window || t != time.toNat) fun s =>
    s.setLdu { s.ldu with hardStep := h, softStep := f, stallWindow := w, stallTime := t }

/-- LENS_CONFIG (R49). -/
def execLensConfig (e : Env) (tag hard soft : Byte) (window time : Half) (s : State) :
    Host.Outcome State Fault Refusal :=
  .next ((s.arrive e).takeOrder .immediate 0x26 tag (p1 hard ++ p1 soft ++ p2 window ++ p2 time)
    (decideLensConfig hard soft window time))

/-! ## LOAD_LENS_TABLE (R60) -/

/-- The index of the first point outside `lo` to `hi`, or, for a rising table, less than the one before it. -/
def firstOffending (lo hi : Int) (rising : Bool) (i : Nat) (before : Int) : List Int → Option Nat
  | [] => none
  | p :: r =>
    if p < lo ∨ hi < p ∨ (rising = true ∧ p < before) then some i
    else firstOffending lo hi rising (i + 1) p r

/-- Which table, and what its points may be. -/
structure TableKind where
  id : Nat
  lo : Int
  hi : Int
  rising : Bool
  deriving DecidableEq, Repr

/-- The scale table and the tracking table (R60). -/
def tableKind (code : Byte) : Option TableKind :=
  if code.toNat = 0 then some ⟨0, 500, 60000, true⟩
  else if code.toNat = 1 then some ⟨1, -2048, 2047, false⟩
  else none

/-- The 17 points in 68 bytes: unsigned for the scale table, signed for the tracking table. -/
def tablePoints (k : TableKind) (b : List Byte) : List Int :=
  (pieces 4 17 b).map fun w => if k.id = 0 then (ofLe w : Int) else signedOf 4 (ofLe w)

/-- Replace a table, which becomes valid. -/
def Ldu.loadTable (l : Ldu) (k : TableKind) (points : List Int) : Ldu :=
  if k.id = 0 then { l with scale := ⟨true, points⟩ } else { l with track := ⟨true, points⟩ }

/-- What LOAD_LENS_TABLE comes to (R60). -/
def decideLoadLensTable (table : Byte) (address : Word) (s : State) : Decision :=
  s.whenOnline <|
    match tableKind table with
    | none => .refuse .refusedParam
    | some k =>
      if address.toNat % 4 ≠ 0 then .refuse .refusedParam
      else
        match s.busRead address.toNat 68 with
        | .error bad => .answer .refusedParam fun s => s.busFault .ldu bad
        | .ok b =>
          match firstOffending k.lo k.hi k.rising 0 0 (tablePoints k b) with
          | some i => .answer .refusedParam fun s => s.fault .lensTable .none (wordOfNat k.id) (wordOfNat i)
          | none => .carry false fun s => s.setLdu (s.ldu.loadTable k (tablePoints k b))

/-- LOAD_LENS_TABLE (R60). -/
def execLoadLensTable (e : Env) (tag table : Byte) (address : Word) (s : State) :
    Host.Outcome State Fault Refusal :=
  .next ((s.arrive e).takeOrder .immediate 0x27 tag (p1 table ++ p4 address) (decideLoadLensTable table address))

/-! ## Tracking (R62) and AXIS_RECOVER (R64) -/

/-- A focus move or a shot sequence keeps tracking as it is (R62). -/
def Ldu.trackingBusy (l : Ldu) : Bool := l.focus.moving || l.shot.running

/-- Tracking turns on: the focus demand goes on the base, from the positions last sent, where focus is not MANUAL
and not STALLED (R62). DESIGN CHOICE, unsafe (log 69): R62 does not say whether TRACKING_ON with tracking already on
works the base anew, and the model leaves a focus demand that is on its base as it stands. -/
def Ldu.trackOn (l : Ldu) : Ldu :=
  if l.focusBased || l.focus.st == .stalled || l.view.focusManual then { l with tracking := true }
  else
    { l with
      tracking := true, focusBased := true
      focus := { l.focus with demand := (l.focus.sent - l.correction l.zoom.sent) * 500 } }

/-- What TRACKING_ON comes to (R62). -/
def decideTrackingOn (s : State) : Decision :=
  s.whenOnline <|
    if s.ldu.track.valid = false ∨ s.ldu.trackingBusy = true then .refuse .refusedState
    else .carry false fun s => s.setLdu s.ldu.trackOn

/-- TRACKING_ON (R62). -/
def execTrackingOn (e : Env) (tag : Byte) (s : State) : Host.Outcome State Fault Refusal :=
  .next ((s.arrive e).takeOrder .immediate 0x28 tag [] decideTrackingOn)

/-- What TRACKING_OFF comes to (R62). -/
def decideTrackingOff (s : State) : Decision :=
  if s.ldu.trackingBusy = true then .refuse .refusedState
  else .carry false fun s => s.setLdu { s.ldu.unbase with tracking := false }

/-- TRACKING_OFF (R62). -/
def execTrackingOff (e : Env) (tag : Byte) (s : State) : Host.Outcome State Fault Refusal :=
  .next ((s.arrive e).takeOrder .immediate 0x29 tag [] decideTrackingOff)

/-- An axis of a code (R64). -/
def axisOf (code : Byte) : Option AxisId :=
  if code.toNat = 0 then some .zoom else if code.toNat = 1 then some .focus
  else if code.toNat = 2 then some .iris else none

/-- A stalled axis recovers (R64). -/
def State.recoverAxis (s : State) (x : AxisId) : State :=
  let l := s.ldu.setAxis x { s.ldu.axis x with st := .idle, vel := 0, stallCount := 0 }
  s.setLdu (if x = .focus then l.rebase else l)

/-- What AXIS_RECOVER comes to (R64). -/
def decideAxisRecover (axis : Byte) (s : State) : Decision :=
  s.whenOnline <|
    match axisOf axis with
    | none => .refuse .refusedParam
    | some x =>
      if (s.ldu.axis x).st = .stalled then .carry false fun s => s.recoverAxis x else .refuse .refusedState

/-- AXIS_RECOVER (R64). -/
def execAxisRecover (e : Env) (tag axis : Byte) (s : State) : Host.Outcome State Fault Refusal :=
  .next ((s.arrive e).takeOrder .immediate 0x2A tag (p1 axis) (decideAxisRecover axis))

/-! ## Shots (R65) -/

/-- The shot an explicit SHOT_STORE writes. -/
def explicitShot (zoom focus iris travel dwell : Half) : Shot :=
  { valid := true, zoom := clampInt 0 4095 (u16 zoom), focus := clampInt 0 4095 (u16 focus),
    iris := clampInt 0 1023 (u16 iris), travel := clampNat 1 600 travel.toNat, dwell := dwell.toNat }

/-- The shot a SHOT_STORE of the actuals writes. -/
def actualShot (l : Ldu) (travel dwell : Half) : Shot :=
  { valid := true, zoom := l.view.zoom, focus := l.view.focus, iris := l.view.iris,
    travel := clampNat 1 600 travel.toNat, dwell := dwell.toNat }

/-- Write a shot record. -/
def State.storeShot (s : State) (n : Nat) (h : Shot) : State :=
  s.setLdu { s.ldu with shots := s.ldu.shots.set n h }

/-- What SHOT_STORE comes to (R65, log 26). With the actuals as source the zoom, focus and iris parameters are not used
and do not count for CLAMPED (log 48). -/
def decideShotStore (shot source : Byte) (zoom focus iris travel dwell : Half) (s : State) : Decision :=
  let n := min shot.toNat 3
  let clamped := n != shot.toNat || clampNat 1 600 travel.toNat != travel.toNat
  if source.toNat = 0 then
    let h := explicitShot zoom focus iris travel dwell
    .carry (clamped || h.zoom != u16 zoom || h.focus != u16 focus || h.iris != u16 iris) fun s => s.storeShot n h
  else if source.toNat = 1 then
    s.whenOnline (.carry clamped fun s => s.storeShot n (actualShot s.ldu travel dwell))
  else .refuse .refusedParam

/-- SHOT_STORE (R65). -/
def execShotStore (e : Env) (tag shot source : Byte) (zoom focus iris travel dwell : Half) (s : State) :
    Host.Outcome State Fault Refusal :=
  .next ((s.arrive e).takeOrder .immediate 0x2B tag
    (p1 shot ++ p1 source ++ p2 zoom ++ p2 focus ++ p2 iris ++ p2 travel ++ p2 dwell)
    (decideShotStore shot source zoom focus iris travel dwell))

/-- The shot mode of a code (R65). -/
def shotModeOf (code : Byte) : Option ShotMode :=
  if code.toNat = 0 then some .chain else if code.toNat = 1 then some .step else none

/-- An early policy of a code (R65). -/
def earlyPolicyOf (code : Byte) : Option EarlyPolicy :=
  if code.toNat = 0 then some .ignore else if code.toNat = 1 then some .restart else none

/-- A HOLDING state becomes IDLE on SHOT_MODE (R65). -/
def ShotState.afterMode : ShotState → ShotState
  | .holding _ => .idle
  | st => st

/-- What SHOT_MODE comes to (R65). -/
def decideShotMode (mode count policy : Byte) (s : State) : Decision :=
  match shotModeOf mode, earlyPolicyOf policy with
  | some m, some p =>
    if s.ldu.shot.running = true then .refuse .refusedState
    else
      let n := clampNat 1 4 count.toNat
      .carry (n != count.toNat) fun s =>
        s.setLdu { s.ldu with shotMode := m, shotCount := n, shotPolicy := p, shot := s.ldu.shot.afterMode }
  | _, _ => .refuse .refusedParam

/-- SHOT_MODE (R65). -/
def execShotMode (e : Env) (tag mode count policy : Byte) (s : State) : Host.Outcome State Fault Refusal :=
  .next ((s.arrive e).takeOrder .immediate 0x2C tag (p1 mode ++ p1 count ++ p1 policy)
    (decideShotMode mode count policy))

/-- What SHOT_TRIGGER comes to (R65). -/
def decideShotTrigger (tag : Byte) (s : State) : Decision :=
  s.whenOnline <|
    match s.ldu.decideTrigger with
    | .noShot => .refuse .refusedState
    | .grip => .refuse .refusedGrip
    | .early => .answer .refusedState State.ignoreTrigger
    | .go n => .carry false fun s => s.trigger n tag.toNat

/-- SHOT_TRIGGER (R65). -/
def execShotTrigger (e : Env) (tag : Byte) (s : State) : Host.Outcome State Fault Refusal :=
  .next ((s.arrive e).takeOrder .optional 0x2D tag [] (decideShotTrigger tag))

end Sys2Proof.Machine
end

