-- ==== Sys2Proof/Machine/StabOrders.lean ====
section
/-! DEFINITION. The commands of the Motion Stabiliser (04). -/

namespace Sys2Proof.Machine

/-- GYRO_SAMPLE (R73 to R83). -/
def execGyroSample (e : Env) (yaw pitch : Half) (s : State) : Host.Outcome State Fault Refusal :=
  let s0 := s.arrive e
  if s0.active then .next ((s0.gyro yaw.toInt pitch.toInt).serve.judgeSlots s0) else .next s0

/-- LOSS_TIMER_EXPIRY (R75). -/
def execLossTimerExpiry (e : Env) (s : State) : Host.Outcome State Fault Refusal :=
  let s0 := s.arrive e
  match s0.mst.lossTimer with
  | none => .next s0
  | some due => .next ((s0.expireAt due).gyroLost.serve.judgeSlots s0)

/-- MST_FRAME_START (R85 to R92). -/
def execMstFrameStart (e : Env) (s : State) : Host.Outcome State Fault Refusal :=
  let s0 := s.arrive e
  match s0.mst.arriving with
  | [] => .next s0
  | x :: r => .next (s0.setMst (({ s0.mst with arriving := r } : Mst).takeFrame x s0.ldu.scaleOffered s0.copyNeeded))

/-! ## Orders -/

/-- What STAB_MODE comes to (R74). -/
def decideStabMode (mode : Byte) (_ : State) : Decision :=
  if mode.toNat = 0 then
    .carry false fun s => if s.mst.mode = .off then s else s.setMst s.mst.switchOff
  else if mode.toNat = 1 then
    .carry false fun s => if s.mst.mode = .off then s.setMst (s.mst.switchOn s.now) else s
  else .refuse .refusedParam

/-- STAB_MODE (R74). -/
def execStabMode (e : Env) (tag mode : Byte) (s : State) : Host.Outcome State Fault Refusal :=
  .next ((s.arrive e).takeOrder .immediate 0x40 tag (p1 mode) (decideStabMode mode))

/-- What STAB_RECENTER comes to (R83). -/
def decideStabRecenter (_ : State) : Decision :=
  .carry false fun s => s.setMst { s.mst with recentre := s.mst.recentre || s.mst.mode != .off }

/-- STAB_RECENTER (R83). -/
def execStabRecenter (e : Env) (tag : Byte) (s : State) : Host.Outcome State Fault Refusal :=
  .next ((s.arrive e).takeOrder .immediate 0x41 tag [] decideStabRecenter)

/-- The six values of a STAB_CONFIG after clamping (R84). -/
structure StabConfig where
  marginX : Int
  marginY : Int
  still : Int
  shift : Nat
  enter : Int
  exit : Int
  deriving DecidableEq, Repr

/-- Each parameter held to its range, pan exit against the clamped pan enter (R84). -/
def clampStab (marginX : Half) (marginY : Byte) (still : Half) (shift : Byte) (enter exit : Half) : StabConfig :=
  let n := clampInt 1 32767 (u16 enter)
  { marginX := clampInt 0 256 (u16 marginX), marginY := clampInt 0 144 (u8 marginY),
    still := clampInt 0 1000 (u16 still), shift := clampNat 8 16 shift.toNat, enter := n,
    exit := clampInt 0 n (u16 exit) }

/-- What STAB_CONFIG comes to (R84). -/
def decideStabConfig (marginX : Half) (marginY : Byte) (still : Half) (shift : Byte) (enter exit : Half)
    (s : State) : Decision :=
  let c := clampStab marginX marginY still shift enter exit
  if s.clipOpen = true ∧ (c.marginX ≠ s.mst.marginX ∨ c.marginY ≠ s.mst.marginY) then .refuse .refusedRecording
  else
    .carry (c != ⟨u16 marginX, u8 marginY, u16 still, shift.toNat, u16 enter, u16 exit⟩) fun s =>
      s.setMst { s.mst with
        marginX := c.marginX, marginY := c.marginY, still := c.still, biasShift := c.shift,
        panEnter := c.enter, panExit := c.exit }

/-- STAB_CONFIG (R84). -/
def execStabConfig (e : Env) (tag : Byte) (marginX : Half) (marginY : Byte) (still : Half) (shift : Byte)
    (panEnter panExit : Half) (s : State) : Host.Outcome State Fault Refusal :=
  .next ((s.arrive e).takeOrder .immediate 0x42 tag
    (p2 marginX ++ p1 marginY ++ p2 still ++ p1 shift ++ p2 panEnter ++ p2 panExit)
    (decideStabConfig marginX marginY still shift panEnter panExit))

end Sys2Proof.Machine
end

