-- ==== Sys2Proof/Machine/StreamOrders.lean ====
section
/-! DEFINITION. The commands of the Stream Assembler (06). -/

namespace Sys2Proof.Machine

/-- STA_FRAME_START (R117, R120). -/
def execStaFrameStart (e : Env) (s : State) : Host.Outcome State Fault Refusal :=
  let s0 := s.arrive e
  match s0.sta.arriving with
  | [] => .next s0
  | x :: r => .next (((s0.setSta { s0.sta with arriving := r }).staTakes x).settle.judgeSlots s0)

/-- GROUP_COPY_DONE (R126). -/
def execGroupCopyDone (e : Env) (s : State) : Host.Outcome State Fault Refusal :=
  let s0 := s.arrive e
  match s0.sta.copy with
  | none => .next s0
  | some g => .next ((s0.copyEnds g).settle.judgeSlots s0)

/-- The copy makes an access at which a bus error can arise (R127). -/
def GroupCopy.reaches (g : GroupCopy) : CopySite → Bool
  | .unit => g.unit.isSome
  | .staging => !g.soundless
  | .stream => true

/-- GROUP_COPY_BUS_ERROR (R127). -/
def execGroupCopyBusError (e : Env) (site : CopySite) (address : Word) (s : State) :
    Host.Outcome State Fault Refusal :=
  let s0 := s.arrive e
  match s0.sta.copy with
  | none => .next s0
  | some g =>
    if g.reaches site then .next ((s0.copyBusError g site address.toNat).settle.judgeSlots s0) else .next s0

/-! ## Orders -/

/-- What STREAM_CONFIG comes to (R121). -/
def decideStreamConfig (delay : Byte) (s : State) : Decision :=
  if s.clipOpen = true ∨ s.sta.preOn = true then .refuse .refusedRecording
  else
    let d := clampNat 1 6 delay.toNat
    .carry (d != delay.toNat) fun s => s.setSta { s.sta with delay := d }

/-- STREAM_CONFIG (R121). -/
def execStreamConfig (e : Env) (tag delay : Byte) (s : State) : Host.Outcome State Fault Refusal :=
  .next ((s.arrive e).takeOrder .immediate 0x50 tag (p1 delay) (decideStreamConfig delay))

/-- Pre-record with a count of `n`: turned on, the floor rises to the newest index record; what nothing needs is
released (R128, R131, R132). -/
def State.setPreRecord (s : State) (on : Bool) (n : Nat) : State :=
  let s1 := if on && !s.sta.preOn then s.raiseFloor s.newestGroup else s
  (s1.setSta { s1.sta with preOn := on, preCount := n }).release

/-- What PRE_RECORD comes to (R131). -/
def decidePreRecord (code : Byte) (count : Half) (s : State) : Decision :=
  let n := min 600 count.toNat
  if code.toNat = 0 then .carry (n != count.toNat) fun s => s.setPreRecord false n
  else if code.toNat = 1 then
    if s.ftu.mode = .recordRun then .refuse .refusedState
    else .carry (n != count.toNat) fun s => s.setPreRecord true n
  else .refuse .refusedParam

/-- PRE_RECORD (R131). -/
def execPreRecord (e : Env) (tag code : Byte) (count : Half) (s : State) : Host.Outcome State Fault Refusal :=
  .next ((s.arrive e).takeOrder .immediate 0x51 tag (p1 code ++ p2 count) (decidePreRecord code count))

end Sys2Proof.Machine
end

