-- ==== Sys2Proof/Machine/Timing.lean ====
section
/-! DEFINITION. The commands of the Frame Timing Unit (02). -/

namespace Sys2Proof.Machine

/-- Replace the FTU. -/
def State.setFtu (s : State) (f : Ftu) : State := { s with ftu := f }

/-- FLYWHEEL_EXPIRY (R28, R29, R31). -/
def execFlywheelExpiry (e : Env) (s : State) : Host.Outcome State Fault Refusal :=
  let s0 := s.arrive e
  match s0.ftu.flywheel with
  | none => .next s0
  | some due => .next ((s0.expireAt due).flywheelExpires.serve.judgeSlots s0)

/-- FRAME_PULSE (R28 to R32). -/
def execFramePulse (e : Env) (s : State) : Host.Outcome State Fault Refusal :=
  let s0 := s.arrive e
  if s0.active then .next (s0.pulse.serve.judgeSlots s0) else .next s0

/-! ## Orders -/

/-- What SET_FORMAT comes to (R26). -/
def decideSetFormat (rate drop : Byte) (s : State) : Decision :=
  if s.clipOpen = true ∨ s.sta.preOn = true then .refuse .refusedRecording
  else
    match rateOf rate.toNat with
    | none => .refuse .refusedParam
    | some r =>
      if drop.toNat = 0 then
        .carry false fun s => s.setFtu { s.ftu with pendingFormat := some ⟨r, false⟩ }
      else if drop.toNat = 1 ∧ r.allowsDrop = true then
        .carry false fun s => s.setFtu { s.ftu with pendingFormat := some ⟨r, true⟩ }
      else .refuse .refusedParam

/-- SET_FORMAT (R26). -/
def execSetFormat (e : Env) (tag rate drop : Byte) (s : State) : Host.Outcome State Fault Refusal :=
  .next ((s.arrive e).takeOrder .immediate 0x10 tag (p1 rate ++ p1 drop) (decideSetFormat rate drop))

/-- An early-pulse policy of a code (R32, R65). -/
def policyOf (code : Byte) : Option EarlyPolicy :=
  if code.toNat = 0 then some .ignore else if code.toNat = 1 then some .restart else none

/-- What SET_REF_POLICY comes to (R32). -/
def decideSetRefPolicy (policy : Byte) (_ : State) : Decision :=
  match policyOf policy with
  | none => .refuse .refusedParam
  | some p => .carry false fun s => s.setFtu { s.ftu with policy := p }

/-- SET_REF_POLICY (R32). -/
def execSetRefPolicy (e : Env) (tag policy : Byte) (s : State) : Host.Outcome State Fault Refusal :=
  .next ((s.arrive e).takeOrder .immediate 0x11 tag (p1 policy) (decideSetRefPolicy policy))

/-- A counting mode of a code (R36). -/
def countModeOf (code : Byte) : Option CountMode :=
  if code.toNat = 0 then some .freeRun else if code.toNat = 1 then some .recordRun else none

/-- What SET_TC_MODE comes to (R36). -/
def decideSetTcMode (mode : Byte) (s : State) : Decision :=
  match countModeOf mode with
  | none => .refuse .refusedParam
  | some m =>
    if m = .recordRun ∧ s.sta.preOn = true then .refuse .refusedState
    else .carry false fun s => s.setFtu { s.ftu with mode := m }

/-- SET_TC_MODE (R36). -/
def execSetTcMode (e : Env) (tag mode : Byte) (s : State) : Host.Outcome State Fault Refusal :=
  .next ((s.arrive e).takeOrder .immediate 0x12 tag (p1 mode) (decideSetTcMode mode))

/-- The timecode of a SET_TIMECODE under a format: each field held to its maximum, and a skipped number moved to the
first valid frame of its second (R37). -/
def loadedTimecode (f : Format) (hours minutes seconds frames : Byte) : Timecode :=
  ({ hours := min hours.toNat 23, minutes := min minutes.toNat 59, seconds := min seconds.toNat 59,
     frames := min frames.toNat (f.rate.count - 1) } : Timecode).unskip f

/-- What SET_TIMECODE comes to (R37). -/
def decideSetTimecode (hours minutes seconds frames : Byte) (s : State) : Decision :=
  if s.clipOpen = true then .refuse .refusedRecording
  else
    let t := loadedTimecode s.ftu.nextFormat hours minutes seconds frames
    .carry (t != ⟨hours.toNat, minutes.toNat, seconds.toNat, frames.toNat⟩) fun s =>
      s.setFtu { s.ftu with pendingTc := some t }

/-- SET_TIMECODE (R37). -/
def execSetTimecode (e : Env) (tag hours minutes seconds frames : Byte) (s : State) :
    Host.Outcome State Fault Refusal :=
  .next ((s.arrive e).takeOrder .immediate 0x13 tag (p1 hours ++ p1 minutes ++ p1 seconds ++ p1 frames)
    (decideSetTimecode hours minutes seconds frames))

end Sys2Proof.Machine
end

