-- ==== Sys2Proof/Machine/ViewfinderOrders.lean ====
section
/-! DEFINITION. The commands of the Viewfinder Link (09). -/

namespace Sys2Proof.Machine

/-- VF_STATUS (R183). -/
def execVfStatus (e : Env) (status : Byte) (s : State) : Host.Outcome State Fault Refusal :=
  let s0 := s.arrive e
  if s0.active then .next (s0.setVfl (s0.vfl.takeStatus status)) else .next s0

/-- VFL_FRAME_START (R183 to R197, log 38). -/
def execVflFrameStart (e : Env) (s : State) : Host.Outcome State Fault Refusal :=
  let s0 := s.arrive e
  match s0.vfl.arriving with
  | [] => .next s0
  | x :: r =>
    if s0.ownersReady x.opened.frame then .next ((s0.setVfl { s0.vfl with arriving := r }).vflTakes x)
    else .next s0

/-! ## VF_ITEM (R187) -/

/-- A 0 or 1 of a code. -/
def flagOf (code : Byte) : Option Bool :=
  if code.toNat = 0 then some false else if code.toNat = 1 then some true else none

/-- An item kind with its parameters clamped, and whether a parameter was clamped (R187). -/
def itemKindOf (kind p1 p2 : Byte) : Option (ItemKind × Bool) :=
  if kind.toNat = 0 then some (.text (min p1.toNat 63), decide (63 < p1.toNat))
  else if kind.toNat = 1 then
    if 14 < p1.toNat ∨ 2 < p2.toNat then none else some (.value p1.toNat p2.toNat, false)
  else if kind.toNat = 2 then
    if p1.toNat = 0 ∨ 4 < p1.toNat then none
    else some (.meter p1.toNat (clampNat 1 40 p2.toNat), clampNat 1 40 p2.toNat != p2.toNat)
  else if kind.toNat = 3 then some (.warning, false)
  else none

/-- The width of an item at a column: 1 to 40, then at most 40 less the column (R187). -/
def itemWidth (column width : Nat) : Nat := min (clampNat 1 40 width) (40 - column)

/-- What VF_ITEM comes to (R187). -/
def decideVfItem (index enable row column width blink inverse colour kind p1 p2 : Byte) (_ : State) : Decision :=
  match flagOf enable, flagOf blink, flagOf inverse, itemKindOf kind p1 p2 with
  | some en, some b, some v, some (k, kindClamped) =>
    let n := min index.toNat 31
    let i : Item :=
      { enabled := en, row := min row.toNat 15, column := min column.toNat 39,
        width := itemWidth (min column.toNat 39) width.toNat, blink := b, inverse := v,
        colour := min colour.toNat 3, kind := k }
    .carry (kindClamped || n != index.toNat || i.row != row.toNat || i.column != column.toNat
        || i.width != width.toNat || i.colour != colour.toNat) fun s =>
      s.setVfl { s.vfl with items := s.vfl.items.set n i }
  | _, _, _, _ => .refuse .refusedParam

/-- VF_ITEM (R187). -/
def execVfItem (e : Env) (tag index enable row column width blink inverse colour kind k1 k2 : Byte) (s : State) :
    Host.Outcome State Fault Refusal :=
  .next ((s.arrive e).takeOrder .immediate 0x78 tag
    (p1 index ++ p1 enable ++ p1 row ++ p1 column ++ p1 width ++ p1 blink ++ p1 inverse ++ p1 colour ++ p1 kind
      ++ p1 k1 ++ p1 k2)
    (decideVfItem index enable row column width blink inverse colour kind k1 k2))

/-! ## VF_TEXT (R188) -/

/-- A byte as the text table stores it: a text character or an icon, else a space (R188). -/
def textCode (b : Byte) : Byte :=
  if (0x20 ≤ b.toNat ∧ b.toNat ≤ 0x7E) ∨ (0x80 ≤ b.toNat ∧ b.toNat ≤ 0x9F) then b else 0x20

/-- Replace entries of the text table from `first` on. -/
def setTexts (first : Nat) : List (List Byte) → List (List Byte) → List (List Byte)
  | [], t => t
  | e :: r, t => setTexts (first + 1) r (t.set first e)

/-- The entries that some bytes give. -/
def textEntries (n : Nat) (b : List Byte) : List (List Byte) := pieces 16 n (b.map textCode)

/-- What VF_TEXT comes to (R188). -/
def decideVfText (first count : Byte) (address : Word) (s : State) : Decision :=
  if address.toNat % 4 ≠ 0 then .refuse .refusedParam
  else
    let f := min first.toNat 63
    let n := clampNat 1 (64 - f) count.toNat
    match s.busRead address.toNat (16 * n) with
    | .error bad => .answer .refusedParam fun s => s.busFault .vfl bad
    | .ok b =>
      .carry (f != first.toNat || n != count.toNat) fun s =>
        s.setVfl { s.vfl with texts := setTexts f (textEntries n b) s.vfl.texts }

/-- VF_TEXT (R188). -/
def execVfText (e : Env) (tag first count : Byte) (address : Word) (s : State) :
    Host.Outcome State Fault Refusal :=
  .next ((s.arrive e).takeOrder .immediate 0x79 tag (p1 first ++ p1 count ++ p4 address)
    (decideVfText first count address))

/-! ## VF_WARNING (R194, R195) -/

/-- The entry a post adds. -/
def postedWarning (code priority text life : Nat) : Warning :=
  { code := code, priority := priority, text := text, posted := true, life := life }

/-- A warning of a code is posted (R194, R195). -/
def decidePost (code priority text life : Nat) (clamped : Bool) (v : Vfl) : Decision :=
  if hasWarning v.warnings code then
    .carry clamped fun s =>
      s.setVfl { s.vfl with warnings := refreshWarning code priority text life s.vfl.warnings }
  else if (joinWarnings v.warnings (postedWarning code priority text life)).2 then
    .carry clamped fun s =>
      s.setVfl { s.vfl with warnings := (joinWarnings s.vfl.warnings (postedWarning code priority text life)).1 }
  else .refuse .refusedFull

/-- A warning of a code is removed (R194). -/
def decideRemove (code : Nat) (v : Vfl) : Decision :=
  if hasWarning v.warnings code then
    .carry false fun s => s.setVfl { s.vfl with warnings := s.vfl.warnings.filter fun w => w.code != code }
  else .refuse .refusedState

/-- What VF_WARNING comes to (R194). -/
def decideVfWarning (action code priority text : Byte) (life : Half) (s : State) : Decision :=
  if 1 < action.toNat ∨ code.toNat < 32 then .refuse .refusedParam
  else if action.toNat = 0 then
    decidePost code.toNat (min priority.toNat 7) (min text.toNat 63) life.toNat
      (decide (7 < priority.toNat) || decide (63 < text.toNat)) s.vfl
  else decideRemove code.toNat s.vfl

/-- VF_WARNING (R194). -/
def execVfWarning (e : Env) (tag action code priority text : Byte) (life : Half) (s : State) :
    Host.Outcome State Fault Refusal :=
  .next ((s.arrive e).takeOrder .immediate 0x7A tag (p1 action ++ p1 code ++ p1 priority ++ p1 text ++ p2 life)
    (decideVfWarning action code priority text life))

/-! ## VF_TALLY (R198) -/

/-- A tally setting of a code. -/
def tallySettingOf (code : Byte) : Option TallySetting :=
  if code.toNat = 0 then some .auto else if code.toNat = 1 then some .off
  else if code.toNat = 2 then some .on else if code.toNat = 3 then some .blink else none

/-- The named outputs take a setting and are judged at once: 0 both, 1 front, 2 rear. An output that is not named
stands (R198). -/
def Vfl.setTally (v : Vfl) (auto : TallyState) (output : Nat) (x : TallySetting) : Vfl :=
  { v with
    front := if output = 2 then v.front else ({ v.front with setting := x } : Tally).judge auto none
    rear := if output = 1 then v.rear else ({ v.rear with setting := x } : Tally).judge auto none }

/-- What VF_TALLY comes to (R198). -/
def decideVfTally (output setting : Byte) (_ : State) : Decision :=
  if 2 < output.toNat then .refuse .refusedParam
  else
    match tallySettingOf setting with
    | none => .refuse .refusedParam
    | some x => .carry false fun s => s.setVfl (s.vfl.setTally s.autoTally output.toNat x)

/-- VF_TALLY (R198). -/
def execVfTally (e : Env) (tag output setting : Byte) (s : State) : Host.Outcome State Fault Refusal :=
  .next ((s.arrive e).takeOrder .immediate 0x7B tag (p1 output ++ p1 setting) (decideVfTally output setting))

end Sys2Proof.Machine
end

