-- ==== Sys2Proof/Machine/Window.lean ====
section
/-! DEFINITION. The commands of the register window, the resets and the start-up (01). -/

namespace Sys2Proof.Machine

/-- POWER_ON_RESET (R5). -/
def execPowerOnReset (e : Env) (s : State) : Host.Outcome State Fault Refusal := .next (s.arrive e).powerOn

/-- PART_BASE_WRITE (R1). -/
def execPartBaseWrite (e : Env) (value : Word) (s : State) : Host.Outcome State Fault Refusal :=
  .next ((s.arrive e).writePartBase value)

/-- RUN_SET: a write to PART_CONTROL with RUN as 1 (R2, R6). -/
def execRunSet (e : Env) (value : Word) (s : State) : Host.Outcome State Fault Refusal :=
  .next ((s.arrive e).writePartControl (value ||| 0x1#32))

/-- RUN_CLEAR: a write to PART_CONTROL with RUN as 0 (R2, R9). -/
def execRunClear (e : Env) (value : Word) (s : State) : Host.Outcome State Fault Refusal :=
  .next ((s.arrive e).writePartControl (value &&& 0xFFFFFFFE#32))

/-- SOFT_RESET: a write to PART_CONTROL with SOFT_RESET as 1 (R2, R9). -/
def execSoftReset (e : Env) (value : Word) (s : State) : Host.Outcome State Fault Refusal :=
  .next ((s.arrive e).writePartControl (value ||| 0x2#32))

/-- ATTENTION_ENABLE_WRITE: a write to PART_CONTROL, for its enables; RUN and SOFT_RESET stand in the same word and act
too (R2, R216, log 5). -/
def execAttentionEnableWrite (e : Env) (value : Word) (s : State) : Host.Outcome State Fault Refusal :=
  .next ((s.arrive e).writePartControl value)

/-- REPORT_CLEAR: a write to ATTENTION with REPORT as 1 (R4). -/
def execReportClear (e : Env) (value : Word) (s : State) : Host.Outcome State Fault Refusal :=
  .next ((s.arrive e).writeAttention (value ||| 0x1#32))

/-- SAFE_CLEAR: a write to ATTENTION with SAFE as 1 (R4). -/
def execSafeClear (e : Env) (value : Word) (s : State) : Host.Outcome State Fault Refusal :=
  .next ((s.arrive e).writeAttention (value ||| 0x4#32))

/-- IGNORED_REGISTER_WRITE: a write of one 32-bit word whose named bits are 0, or one to PART_STATUS. The bits that no
field names take no write, and PART_STATUS takes none; a PART_CONTROL word still writes its enables and RUN as 0
(R2, R3, R216, log 5). -/
def execIgnoredRegisterWrite (e : Env) (reg : Register) (value : Word) (s : State) :
    Host.Outcome State Fault Refusal :=
  .next ((s.arrive e).writeRegister reg value)

/-- DIRECTORY_CHECK_DONE (R6). Outside STARTING it is the completion of a check that a soft reset request abandoned
(R9): its data is not used and no reason is recorded. DESIGN CHOICE, unsafe (log 68): R9 does not say whether a common
bus error of that read logs COMMON_BUS, and the model logs none. -/
def execDirectoryCheckDone (e : Env) (s : State) : Host.Outcome State Fault Refusal :=
  let s0 := s.arrive e
  .next (if s0.shc.part = .starting then s0.directoryChecked.serve.judgeSlots s0 else s0)

/-- SHC_FRAME_START (R13, R14). -/
def execShcFrameStart (e : Env) (s : State) : Host.Outcome State Fault Refusal :=
  let s0 := s.arrive e
  match s0.shc.arriving with
  | [] => .next s0
  | x :: r => .next (((s0.setShc { s0.shc with arriving := r }).shcReached x).serve.judgeSlots s0)

/-- SHEET_RETURNED (R18). -/
def execSheetReturned (e : Env) (s : State) : Host.Outcome State Fault Refusal :=
  let s0 := s.arrive e
  match s0.shc.job with
  | none => .next s0
  | some j => if j.todo.isEmpty then .next ((s0.sheetDone j).serve.judgeSlots s0) else .next s0

/-- REPORT_WRITE_DONE (R23). -/
def execReportWriteDone (e : Env) (slot : BitVec 1) (s : State) : Host.Outcome State Fault Refusal :=
  let s0 := s.arrive e
  match s0.shc.reportIn slot.toNat with
  | none => .next s0
  | some r => if s0.reportReady r.frame then .next ((s0.reportDone r).serve.judgeSlots s0) else .next s0

/-- The capture record that names a tag has its tag field cleared (R21, R206). -/
def Flt.releaseTag (f : Flt) (tag : Nat) : Flt :=
  { f with kinds := f.kinds.map fun r =>
      if r.capture.tag = tag then { r with capture := { r.capture with tag := 0 } } else r }

/-- RELEASE_TAG on a HELD tag: it becomes DONE, and its capture lets it go (R21). -/
def State.releaseTag (s : State) (tag : Nat) : State :=
  let s1 := s.setTag tag { s.tagRec tag with st := .done }
  { s1 with flt := s1.flt.releaseTag tag }

/-- What RELEASE_TAG comes to (R21). -/
def decideReleaseTag (number : Byte) (s : State) : Decision :=
  let n := number.toNat
  if n = 0 ∨ 32 < n then .refuse .refusedParam
  else if (s.tagRec n).st = .held then .carry false fun s => s.releaseTag n
  else .refuse .refusedState

/-- RELEASE_TAG (R21). -/
def execReleaseTag (e : Env) (tag number : Byte) (s : State) : Host.Outcome State Fault Refusal :=
  .next ((s.arrive e).takeOrder .immediate 0x01 tag (p1 number) (decideReleaseTag number))

end Sys2Proof.Machine
end

