-- ==== Sys2Proof/Machine/Dispatch.lean ====
section
/-! DEFINITION. The meaning of every command: one arm per constructor of Instr. -/

namespace Sys2Proof.Machine

def exec (i : Instr) (s : State) : Host.Outcome State Fault Refusal :=
  match i with
  | .powerOnReset e => Sys2Proof.Machine.execPowerOnReset e s
  | .partBaseWrite e value => Sys2Proof.Machine.execPartBaseWrite e value s
  | .runSet e value => Sys2Proof.Machine.execRunSet e value s
  | .runClear e value => Sys2Proof.Machine.execRunClear e value s
  | .softReset e value => Sys2Proof.Machine.execSoftReset e value s
  | .attentionEnableWrite e value => Sys2Proof.Machine.execAttentionEnableWrite e value s
  | .reportClear e value => Sys2Proof.Machine.execReportClear e value s
  | .safeClear e value => Sys2Proof.Machine.execSafeClear e value s
  | .ignoredRegisterWrite e reg value => Sys2Proof.Machine.execIgnoredRegisterWrite e reg value s
  | .directoryCheckDone e => Sys2Proof.Machine.execDirectoryCheckDone e s
  | .flywheelExpiry e => Sys2Proof.Machine.execFlywheelExpiry e s
  | .framePulse e => Sys2Proof.Machine.execFramePulse e s
  | .shcFrameStart e => Sys2Proof.Machine.execShcFrameStart e s
  | .sheetReturned e => Sys2Proof.Machine.execSheetReturned e s
  | .reportWriteDone e slot => Sys2Proof.Machine.execReportWriteDone e slot s
  | .releaseTag e tag number => Sys2Proof.Machine.execReleaseTag e tag number s
  | .setFormat e tag rate drop => Sys2Proof.Machine.execSetFormat e tag rate drop s
  | .setRefPolicy e tag policy => Sys2Proof.Machine.execSetRefPolicy e tag policy s
  | .setTcMode e tag mode => Sys2Proof.Machine.execSetTcMode e tag mode s
  | .setTimecode e tag hours minutes seconds frames => Sys2Proof.Machine.execSetTimecode e tag hours minutes seconds frames s
  | .lensUpdate e => Sys2Proof.Machine.execLensUpdate e s
  | .lensReply e reply => Sys2Proof.Machine.execLensReply e reply s
  | .zoomRate e tag rate => Sys2Proof.Machine.execZoomRate e tag rate s
  | .zoomTo e tag target cap => Sys2Proof.Machine.execZoomTo e tag target cap s
  | .focusTo e tag target cap => Sys2Proof.Machine.execFocusTo e tag target cap s
  | .irisTo e tag target cap => Sys2Proof.Machine.execIrisTo e tag target cap s
  | .zoomStop e tag => Sys2Proof.Machine.execZoomStop e tag s
  | .zoomClaim e tag lockout => Sys2Proof.Machine.execZoomClaim e tag lockout s
  | .lensConfig e tag hard soft window time => Sys2Proof.Machine.execLensConfig e tag hard soft window time s
  | .loadLensTable e tag table address => Sys2Proof.Machine.execLoadLensTable e tag table address s
  | .trackingOn e tag => Sys2Proof.Machine.execTrackingOn e tag s
  | .trackingOff e tag => Sys2Proof.Machine.execTrackingOff e tag s
  | .axisRecover e tag axis => Sys2Proof.Machine.execAxisRecover e tag axis s
  | .shotStore e tag shot source zoom focus iris travel dwell => Sys2Proof.Machine.execShotStore e tag shot source zoom focus iris travel dwell s
  | .shotMode e tag mode count policy => Sys2Proof.Machine.execShotMode e tag mode count policy s
  | .shotTrigger e tag => Sys2Proof.Machine.execShotTrigger e tag s
  | .gyroSample e yaw pitch => Sys2Proof.Machine.execGyroSample e yaw pitch s
  | .lossTimerExpiry e => Sys2Proof.Machine.execLossTimerExpiry e s
  | .mstFrameStart e => Sys2Proof.Machine.execMstFrameStart e s
  | .stabMode e tag mode => Sys2Proof.Machine.execStabMode e tag mode s
  | .stabRecenter e tag => Sys2Proof.Machine.execStabRecenter e tag s
  | .stabConfig e tag marginX marginY still shift panEnter panExit => Sys2Proof.Machine.execStabConfig e tag marginX marginY still shift panEnter panExit s
  | .audioSet e c1 c2 c3 c4 => Sys2Proof.Machine.execAudioSet e c1 c2 c3 c4 s
  | .audioClockExpiry e => Sys2Proof.Machine.execAudioClockExpiry e s
  | .acuFrameStart e => Sys2Proof.Machine.execAcuFrameStart e s
  | .stagingWriteDone e => Sys2Proof.Machine.execStagingWriteDone e s
  | .audioSource e tag channel source => Sys2Proof.Machine.execAudioSource e tag channel source s
  | .audioGain e tag channel gain => Sys2Proof.Machine.execAudioGain e tag channel gain s
  | .audioLimiter e tag channel threshold release => Sys2Proof.Machine.execAudioLimiter e tag channel threshold release s
  | .toneLevel e tag level => Sys2Proof.Machine.execToneLevel e tag level s
  | .staFrameStart e => Sys2Proof.Machine.execStaFrameStart e s
  | .groupCopyDone e => Sys2Proof.Machine.execGroupCopyDone e s
  | .groupCopyBusError e site address => Sys2Proof.Machine.execGroupCopyBusError e site address s
  | .streamConfig e tag delay => Sys2Proof.Machine.execStreamConfig e tag delay s
  | .preRecord e tag code count => Sys2Proof.Machine.execPreRecord e tag code count s
  | .cardInserted e slot => Sys2Proof.Machine.execCardInserted e slot s
  | .cardRemoved e slot => Sys2Proof.Machine.execCardRemoved e slot s
  | .identifyReply e slot answer => Sys2Proof.Machine.execIdentifyReply e slot answer s
  | .writeReply e slot answer => Sys2Proof.Machine.execWriteReply e slot answer s
  | .readReply e slot answer => Sys2Proof.Machine.execReadReply e slot answer s
  | .flushReply e slot answer => Sys2Proof.Machine.execFlushReply e slot answer s
  | .cardCommandTimeout e slot => Sys2Proof.Machine.execCardCommandTimeout e slot s
  | .grantExtent e tag slot start count final => Sys2Proof.Machine.execGrantExtent e tag slot start count final s
  | .recordMode e tag mode slot => Sys2Proof.Machine.execRecordMode e tag mode slot s
  | .clipOpen e tag clipId contId => Sys2Proof.Machine.execClipOpen e tag clipId contId s
  | .clipClose e tag => Sys2Proof.Machine.execClipClose e tag s
  | .slotRelease e tag slot => Sys2Proof.Machine.execSlotRelease e tag slot s
  | .scanExtent e tag slot start count => Sys2Proof.Machine.execScanExtent e tag slot start count s
  | .guardArm e tag limit => Sys2Proof.Machine.execGuardArm e tag limit s
  | .guardDisarm e tag => Sys2Proof.Machine.execGuardDisarm e tag s
  | .safeStop e tag => Sys2Proof.Machine.execSafeStop e tag s
  | .safeStopEnable e tag => Sys2Proof.Machine.execSafeStopEnable e tag s
  | .vfStatus e status => Sys2Proof.Machine.execVfStatus e status s
  | .vflFrameStart e => Sys2Proof.Machine.execVflFrameStart e s
  | .vfItem e tag index enable row column width blink inverse colour kind p1 p2 => Sys2Proof.Machine.execVfItem e tag index enable row column width blink inverse colour kind p1 p2 s
  | .vfText e tag first count address => Sys2Proof.Machine.execVfText e tag first count address s
  | .vfWarning e tag action code priority text life => Sys2Proof.Machine.execVfWarning e tag action code priority text life s
  | .vfTally e tag output setting => Sys2Proof.Machine.execVfTally e tag output setting s
  | .clearFaults e tag p1 p2 p3 p4 p5 p6 => Sys2Proof.Machine.execClearFaults e tag p1 p2 p3 p4 p5 p6 s
  | .setFaultRoute e tag kind route mapping priority text => Sys2Proof.Machine.execSetFaultRoute e tag kind route mapping priority text s

end Sys2Proof.Machine
end

