-- ==== Sys2Proof/WellFormed.lean ====
section
/-! DEFINITION. Which commands can stand in the queue: the operands a command's row allows. -/

namespace Sys2Proof

/-- What happened outside the part before the command. -/
def Instr.env : Instr → Env
  | .powerOnReset e => e
  | .partBaseWrite e _ => e
  | .runSet e _ => e
  | .runClear e _ => e
  | .softReset e _ => e
  | .attentionEnableWrite e _ => e
  | .reportClear e _ => e
  | .safeClear e _ => e
  | .ignoredRegisterWrite e _ _ => e
  | .directoryCheckDone e => e
  | .flywheelExpiry e => e
  | .framePulse e => e
  | .shcFrameStart e => e
  | .sheetReturned e => e
  | .reportWriteDone e _ => e
  | .releaseTag e _ _ => e
  | .setFormat e _ _ _ => e
  | .setRefPolicy e _ _ => e
  | .setTcMode e _ _ => e
  | .setTimecode e _ _ _ _ _ => e
  | .lensUpdate e => e
  | .lensReply e _ => e
  | .zoomRate e _ _ => e
  | .zoomTo e _ _ _ => e
  | .focusTo e _ _ _ => e
  | .irisTo e _ _ _ => e
  | .zoomStop e _ => e
  | .zoomClaim e _ _ => e
  | .lensConfig e _ _ _ _ _ => e
  | .loadLensTable e _ _ _ => e
  | .trackingOn e _ => e
  | .trackingOff e _ => e
  | .axisRecover e _ _ => e
  | .shotStore e _ _ _ _ _ _ _ _ => e
  | .shotMode e _ _ _ _ => e
  | .shotTrigger e _ => e
  | .gyroSample e _ _ => e
  | .lossTimerExpiry e => e
  | .mstFrameStart e => e
  | .stabMode e _ _ => e
  | .stabRecenter e _ => e
  | .stabConfig e _ _ _ _ _ _ _ => e
  | .audioSet e _ _ _ _ => e
  | .audioClockExpiry e => e
  | .acuFrameStart e => e
  | .stagingWriteDone e => e
  | .audioSource e _ _ _ => e
  | .audioGain e _ _ _ => e
  | .audioLimiter e _ _ _ _ => e
  | .toneLevel e _ _ => e
  | .staFrameStart e => e
  | .groupCopyDone e => e
  | .groupCopyBusError e _ _ => e
  | .streamConfig e _ _ => e
  | .preRecord e _ _ _ => e
  | .cardInserted e _ => e
  | .cardRemoved e _ => e
  | .identifyReply e _ _ => e
  | .writeReply e _ _ => e
  | .readReply e _ _ => e
  | .flushReply e _ _ => e
  | .cardCommandTimeout e _ => e
  | .grantExtent e _ _ _ _ _ => e
  | .recordMode e _ _ _ => e
  | .clipOpen e _ _ _ => e
  | .clipClose e _ => e
  | .slotRelease e _ _ => e
  | .scanExtent e _ _ _ _ => e
  | .guardArm e _ _ => e
  | .guardDisarm e _ => e
  | .safeStop e _ => e
  | .safeStopEnable e _ => e
  | .vfStatus e _ => e
  | .vflFrameStart e => e
  | .vfItem e _ _ _ _ _ _ _ _ _ _ _ _ => e
  | .vfText e _ _ _ _ => e
  | .vfWarning e _ _ _ _ _ _ => e
  | .vfTally e _ _ _ => e
  | .clearFaults e _ _ _ _ _ _ _ => e
  | .setFaultRoute e _ _ _ _ _ _ => e

/-- A byte address of the 32-bit bus (R6). -/
def onBus (a : Nat) : Bool := decide (a < 4294967296)

/-- The outside writes and fails addresses of the 32-bit bus only. -/
def Env.wf (e : Env) : Bool :=
  e.writes.all (fun c => onBus c.1) && e.errors.all onBus

/-- The named bits of a write that a row calls ignored are 0 (R216): PART_STATUS takes no write, and every bit of
PART_BASE is named. Such a word at PART_CONTROL still writes RUN and the enables as 0 (R2). -/
def ignoredWriteWf (reg : Register) (value : Word) : Bool :=
  match reg with
  | .partBase => false
  | .partControl => value &&& 0x73#32 == 0#32
  | .partStatus => true
  | .attention => value &&& 0x5#32 == 0#32

/-- A READ replies with whole sectors, 1 to 64 of them (R137). -/
def readAnswerWf : ReadAnswer → Bool
  | .ok data => data.length % 512 == 0 && decide (512 ≤ data.length) && decide (data.length ≤ 32768)
  | .error _ => true

/-- The operands are ones the row allows. A sheet entry's bytes are whatever the host wrote, so the operands
of an order are not restricted: R16 and R17 judge them. -/
def Instr.operandsWf : Instr → Bool
  | .runSet _ value => value.getLsbD 0
  | .runClear _ value => !value.getLsbD 0
  | .softReset _ value => value.getLsbD 1
  | .reportClear _ value => value.getLsbD 0
  | .safeClear _ value => value.getLsbD 2
  | .ignoredRegisterWrite _ reg value => ignoredWriteWf reg value
  | .readReply _ _ answer => readAnswerWf answer
  | _ => true

/-- A command that can stand in the queue. -/
def Instr.wf (c : Instr) : Bool := c.env.wf && c.operandsWf

end Sys2Proof
end

