-- ==== Sys2Proof/Safety.lean ====
section
/-! DEFINITION. The terms the statements use: what a run keeps, when an order is dispatched, when a fault asks for no
safe stop, when the part is quiet, what a captured tag means, and how a fault on a slot is logged. -/

namespace Sys2Proof.Machine

/-- `P` is kept by every step that answers a next state. -/
def Keeps (P : State → Prop) : Prop := ∀ s t, P s → step s = .next t → P t

/-- The part goes on from `s`: the step taken there answers a next state (log 40). -/
def GoesOn (s : State) : Prop := ∃ t, step s = .next t

/-- What an order's dispatch asks for: its tag class (R17), its kind byte (R221), its tag byte and its parameters as
they are packed (R220). -/
structure OrderForm where
  cls : TagClass
  kind : Byte
  tag : Byte
  params : List Byte

/-- The form of each order; no other command is one. -/
def orderForm : Instr → Option OrderForm
  | .releaseTag _ t n => some ⟨.immediate, 0x01, t, p1 n⟩
  | .setFormat _ t r d => some ⟨.immediate, 0x10, t, p1 r ++ p1 d⟩
  | .setRefPolicy _ t p => some ⟨.immediate, 0x11, t, p1 p⟩
  | .setTcMode _ t m => some ⟨.immediate, 0x12, t, p1 m⟩
  | .setTimecode _ t h m s f => some ⟨.immediate, 0x13, t, p1 h ++ p1 m ++ p1 s ++ p1 f⟩
  | .zoomRate _ t r => some ⟨.optional, 0x20, t, p2 r⟩
  | .zoomTo _ t p c => some ⟨.optional, 0x21, t, p2 p ++ p2 c⟩
  | .focusTo _ t p c => some ⟨.optional, 0x22, t, p2 p ++ p2 c⟩
  | .irisTo _ t p c => some ⟨.optional, 0x23, t, p2 p ++ p2 c⟩
  | .zoomStop _ t => some ⟨.immediate, 0x24, t, []⟩
  | .zoomClaim _ t l => some ⟨.immediate, 0x25, t, p1 l⟩
  | .lensConfig _ t h f w n => some ⟨.immediate, 0x26, t, p1 h ++ p1 f ++ p2 w ++ p2 n⟩
  | .loadLensTable _ t k a => some ⟨.immediate, 0x27, t, p1 k ++ p4 a⟩
  | .trackingOn _ t => some ⟨.immediate, 0x28, t, []⟩
  | .trackingOff _ t => some ⟨.immediate, 0x29, t, []⟩
  | .axisRecover _ t x => some ⟨.immediate, 0x2A, t, p1 x⟩
  | .shotStore _ t n s z f i r d => some ⟨.immediate, 0x2B, t, p1 n ++ p1 s ++ p2 z ++ p2 f ++ p2 i ++ p2 r ++ p2 d⟩
  | .shotMode _ t m c p => some ⟨.immediate, 0x2C, t, p1 m ++ p1 c ++ p1 p⟩
  | .shotTrigger _ t => some ⟨.optional, 0x2D, t, []⟩
  | .stabMode _ t m => some ⟨.immediate, 0x40, t, p1 m⟩
  | .stabRecenter _ t => some ⟨.immediate, 0x41, t, []⟩
  | .stabConfig _ t x y s b n k => some ⟨.immediate, 0x42, t, p2 x ++ p1 y ++ p2 s ++ p1 b ++ p2 n ++ p2 k⟩
  | .audioSource _ t c s => some ⟨.immediate, 0x48, t, p1 c ++ p1 s⟩
  | .audioGain _ t c g => some ⟨.immediate, 0x49, t, p1 c ++ p1 g⟩
  | .audioLimiter _ t c h r => some ⟨.immediate, 0x4A, t, p1 c ++ p1 h ++ p1 r⟩
  | .toneLevel _ t l => some ⟨.immediate, 0x4B, t, p1 l⟩
  | .streamConfig _ t d => some ⟨.immediate, 0x50, t, p1 d⟩
  | .preRecord _ t c n => some ⟨.immediate, 0x51, t, p1 c ++ p2 n⟩
  | .grantExtent _ t x a n f => some ⟨.immediate, 0x60, t, p1 x ++ p4 a ++ p4 n ++ p1 f⟩
  | .recordMode _ t m x => some ⟨.immediate, 0x61, t, p1 m ++ p1 x⟩
  | .clipOpen _ t i c => some ⟨.required, 0x62, t, p4 i ++ p4 c⟩
  | .clipClose _ t => some ⟨.required, 0x63, t, []⟩
  | .slotRelease _ t x => some ⟨.immediate, 0x64, t, p1 x⟩
  | .scanExtent _ t x a n => some ⟨.required, 0x65, t, p1 x ++ p4 a ++ p4 n⟩
  | .guardArm _ t l => some ⟨.immediate, 0x70, t, p1 l⟩
  | .guardDisarm _ t => some ⟨.immediate, 0x71, t, []⟩
  | .safeStop _ t => some ⟨.immediate, 0x74, t, []⟩
  | .safeStopEnable _ t => some ⟨.immediate, 0x75, t, []⟩
  | .vfItem _ t i n r c w b v k q a d =>
    some ⟨.immediate, 0x78, t,
      p1 i ++ p1 n ++ p1 r ++ p1 c ++ p1 w ++ p1 b ++ p1 v ++ p1 k ++ p1 q ++ p1 a ++ p1 d⟩
  | .vfText _ t f n a => some ⟨.immediate, 0x79, t, p1 f ++ p1 n ++ p4 a⟩
  | .vfWarning _ t a c p x l => some ⟨.immediate, 0x7A, t, p1 a ++ p1 c ++ p1 p ++ p1 x ++ p2 l⟩
  | .vfTally _ t o x => some ⟨.immediate, 0x7B, t, p1 o ++ p1 x⟩
  | .clearFaults _ t a b c d f g => some ⟨.immediate, 0x7C, t, p3 a ++ p3 b ++ p3 c ++ p3 d ++ p3 f ++ p3 g⟩
  | .setFaultRoute _ t k r m p x => some ⟨.immediate, 0x7D, t, p1 k ++ p1 r ++ p1 m ++ p1 p ++ p1 x⟩
  | _ => none

/-- The order is dispatched: it is the next entry of the sheet in dispatch, its tag passes the checks of its class
(R16, R17), and no request waits for Safe Stop (none ever does between steps, log 14). -/
def dispatches (s : State) (c : TagClass) (kind tag : Byte) (params : List Byte) : Bool :=
  s.awaits kind tag params && s.tagCheck c tag == none && s.stop.requests.isEmpty

/-- An occurrence of this kind asks for no safe stop: its route is not SAFE_STOP, or the enable is clear (R204). -/
def asksNoStop (s : State) (k : FaultKind) : Bool :=
  (s.flt.entry k).route != .safeStop || !s.stop.enable

/-- No axis has begun to count toward a stall (R63). -/
def Ldu.stallCountsZero (l : Ldu) : Bool := l.zoom.stallCount == 0 && l.focus.stallCount == 0 && l.iris.stallCount == 0

/-- A slot has nothing to send and nothing waiting: no clip, no release in progress, no scan. -/
def Slot.idle (v : Slot) : Bool :=
  v.clip.isNone && !v.releasePending && v.st != .scanning && v.waiting.isNone

/-- Nothing is left to do at the end of a step: both slots idle, no safe-stop request, no stop in progress. -/
def quiet (s : State) : Bool :=
  s.slotA.idle && s.slotB.idle && s.stop.requests.isEmpty && !s.stop.stopping

/-- Every capture record that names a tag belongs to a standing kind, and the tag is HELD (R203, R206). -/
def capturesHeld (s : State) : Prop :=
  ∀ k : FaultKind, (s.flt.entry k).capture.tag ≠ 0 →
    s.flt.stands k = true ∧ (s.tagRec (s.flt.entry k).capture.tag).st = .held

/-- The tag table has 32 records, and every copy that the SHC keeps of it too; the Fault Log has 26 kinds (R22, R200). -/
abbrev tagTableWhole (s : State) : Prop :=
  s.shc.tags.length = 32 ∧ (∀ k ∈ s.shc.kept, k.part.tags.length = 32) ∧ s.flt.kinds.length = 26

/-- A valid scale table holds 17 points from 500 to 60,000, and the zoom actual is a zoom position (R42, R60). -/
abbrev scaleInRange (s : State) : Prop :=
  (s.ldu.scale.valid = true → s.ldu.scale.points.length = 17 ∧ ∀ p ∈ s.ldu.scale.points, 500 ≤ p ∧ p ≤ 60000) ∧
    0 ≤ s.ldu.view.zoom ∧ s.ldu.view.zoom ≤ 4095

/-- The record of a tag that ends in `s` (R20). -/
def State.ended (s : State) (tag : Nat) (st : TagState) (outcome : TagOutcome) (w1 w2 w3 : Word) : TagRec :=
  { s.tagRec tag with st := st, outcome := outcome, word1 := w1, word2 := w2, word3 := w3, frame := s.ftu.counter }

/-- From `s` to `t` one occurrence of `k` was logged: the kind stands, its count is higher by one, and the capture is
filled if it did not stand, naming `tag` if that was IN_FLIGHT (R202, R203). -/
def logged (s t : State) (k : FaultKind) (source : FaultSource) (d1 d2 : Word) (tag : Nat) : Prop :=
  t.flt.stands k = true ∧ (t.flt.entry k).count = min 255 ((s.flt.entry k).count + 1) ∧
    (t.flt.entry k).capture =
      if s.flt.stands k then (s.flt.entry k).capture
      else { frame := s.ftu.counter, source := source, detail1 := d1, detail2 := d2,
             tag := if s.inFlight tag then tag else 0 }

/-- From `s` to `t` the fault `k` was logged on slot `x`: the slot's tag in flight ended CARD_FAILED with the words `w`,
HELD by the capture record that names it; its other tag ended directly; and every other tag stands (R141). -/
def faultOnSlot (s t : State) (x : SlotId) (k : FaultKind) (d1 d2 : Word) (w : Word × Word × Word) : Prop :=
  let v := s.slot x
  let tag := if v.closeTag ≠ 0 then v.closeTag else if v.openTag ≠ 0 then v.openTag else v.scanTag
  let other := if v.closeTag ≠ 0 then v.openTag else 0
  logged s t k (match x with | .a => .slotA | .b => .slotB) d1 d2 tag ∧
    (s.inFlight tag = true →
      t.tagRec tag = s.ended tag (if s.flt.stands k then .done else .held) .cardFailed w.1 w.2.1 w.2.2) ∧
    (s.inFlight other = true → other ≠ tag →
      t.tagRec other = s.ended other .done .cardFailed 0 0 (match x with | .a => 0 | .b => 1)) ∧
    ∀ n, 1 ≤ n → (n ≠ tag ∨ s.inFlight n = false) → (n ≠ other ∨ s.inFlight n = false) → t.tagRec n = s.tagRec n

/-- The other slot after a fault on slot `x` has ended its tags: a tag that both held it holds no more (R141). -/
def State.sharedDropped (s : State) (x : SlotId) : Slot :=
  let v := s.slot x
  let w := s.slot (otherSlot x)
  let tag := if v.closeTag ≠ 0 then v.closeTag else if v.openTag ≠ 0 then v.openTag else v.scanTag
  let left (n : Nat) : Nat := if n = tag ∨ (v.closeTag ≠ 0 ∧ n = v.openTag) then 0 else n
  { w with openTag := left w.openTag, closeTag := left w.closeTag, scanTag := left w.scanTag }

/-- A CLIP_OPEN still waits for this slot's open (R154). -/
def OpenOrder.waits (o : OpenOrder) : SlotId → Bool
  | .a => o.waitA
  | .b => o.waitB

/-- A CLIP_CLOSE still waits for this slot's close (R157). -/
def CloseOrder.waits (o : CloseOrder) : SlotId → Bool
  | .a => o.waitA
  | .b => o.waitB

/-- A CLIP_OPEN with the open of slot `x` done (R154). -/
def OpenOrder.opened (o : OpenOrder) : SlotId → OpenOrder
  | .a => { o with waitA := false }
  | .b => { o with waitB := false }

/-- A CLIP_CLOSE with the close of slot `x` ended, its clip having recorded `frames` (R157). -/
def CloseOrder.closed (o : CloseOrder) (x : SlotId) (frames : Nat) : CloseOrder :=
  match x with
  | .a => { o with waitA := false, framesA := frames }
  | .b => { o with waitB := false, framesB := frames }

/-- The tag of a CLIP_OPEN, in flight in `s`, is COMPLETE in `t`: the clip id, the first frame, and the start sector of
the OPEN block on the first slot opened (R154). -/
def openEnded (s t : State) (o : OpenOrder) : Prop :=
  s.inFlight o.tag = true → t.tagRec o.tag =
    s.ended o.tag .done .complete o.clipId o.first (BitVec.ofNat 32 (if o.usesA then o.sectorA else o.sectorB))

/-- The tag of a CLIP_CLOSE, in flight in `s`, is COMPLETE in `t`: the frames recorded in each slot's clip, and the end
point (R157). -/
def closeEnded (s t : State) (o : CloseOrder) : Prop :=
  s.inFlight o.tag = true → t.tagRec o.tag =
    s.ended o.tag .done .complete (BitVec.ofNat 32 o.framesA) (BitVec.ofNat 32 o.framesB) o.endPoint

/-- The ACU makes the block of the frame that ends, in a staging slot it can claim: the frame start is not the first,
and the slot is free (R97, R119). -/
abbrev State.blockAt (s : State) (x : FrameStart) : Prop :=
  x.first = false ∧ s.acu.phase < 48 ∧ s.sta.claims.getD (x.ended.frame.toNat % 8) none = none

/-- The ACU makes the block of a frame from the sets of its FIFO: the take is FLOWING, and there are sets enough
(R98). -/
abbrev State.flowsAt (s : State) (x : FrameStart) : Prop :=
  s.blockAt x ∧ s.acu.take = .flowing ∧ x.ended.cadCount ≤ s.acu.fifo.length

/-- What the ACU gathers for a block: the sets that leave the FIFO, the padding behind them, the block's marks, and the
take mode after it, with the mark that a padded frame set it (R97, R98). -/
structure Gathered where
  taken : List AudioSet
  pad : List AudioSet
  underrun : Bool
  silent : Bool
  take : TakeMode
  padded : Bool

/-- A channel's output has a sample at full scale (R107). -/
def overIn (out : List Int) : Bool := out.any fun v => v.natAbs == 8388607

/-- The meters of a channel from `k` to `l` follow its output `out` in a block of `n` timecode counts to the second: the
meter value is the number of thresholds M[1] to M[120] that the frame peak reaches, and the two holds go on from it
(R105 to R107). -/
def metersFollow (n : Nat) (out : List Int) (k l : Channel) : Prop :=
  (∃ p, (∀ v ∈ out, v.natAbs ≤ p) ∧ (p = 0 ∨ ∃ v ∈ out, v.natAbs = p) ∧ l.meter ≤ 120 ∧
    ∀ i, i < 120 → (i < l.meter ↔ meterTable.getD i 0 ≤ p)) ∧
  (l.held, l.holdCount) =
    (if k.held ≤ l.meter ∨ k.holdCount ≤ 1 then (l.meter, 2 * n) else (k.held, k.holdCount - 1)) ∧
  (l.overload, l.overCount) =
    (if overIn out then (true, n) else if k.overCount = 0 then (k.overload, 0)
     else (k.overload && k.overCount != 1, k.overCount - 1))

/-- From `s` to `t` the ACU took frame start `x` at `now` and gathered `g`: the sets left the FIFO in order, the pending
settings came into force, the meters followed, and the block's write to the staging slot it claimed began (R97 to R99,
R105 to R110, R119); what AUDIO_OVERRUN and AUDIO_CLOCK count began anew (log 29). -/
def blockFrom (s t : State) (x : FrameStart) (now : Nat) (g : Gathered) : Prop :=
  let c := x.ended.cadCount
  let k := s.acu.channels.map fun k =>
    { k with now := k.pending, limiter := if k.pending.source = k.now.source then k.limiter else 32768 }
  let w := workSets s.acu.pendingTone (g.taken ++ g.pad) s.acu.phase k
  let out := channelsOf w.1
  let l := t.acu.channels
  let follows (k v l : Channel) (out : List Int) : Prop :=
    l.now = k.now ∧ l.pending = k.pending ∧ l.limiter = v.limiter ∧ metersFollow x.ended.rate.count out k l
  (∃ j, t.acu.writing = some j ∧
    j.address = s.acu.stagingBase.toNat + 24064 * (x.ended.frame.toNat % 8) ∧
    j.block = blockBytes w.1 ∧ j.block.length = 12 * c ∧
    j.record = { frame := x.ended.frame, count := c, staged := true, slip := s.acu.slipMark, underrun := g.underrun,
                 clockLost := s.acu.lostMark, silent := g.silent, overload := out.map overIn,
                 meters := l.map fun l => l.meter, gains := k.map fun k => k.now.gain }) ∧
  follows k.c1 w.2.2.c1 l.c1 out.c1 ∧ follows k.c2 w.2.2.c2 l.c2 out.c2 ∧
  follows k.c3 w.2.2.c3 l.c3 out.c3 ∧ follows k.c4 w.2.2.c4 l.c4 out.c4 ∧
  t.acu.fifo = s.acu.fifo.drop g.taken.length ∧ t.acu.lastSet = g.taken.getLast?.or s.acu.lastSet ∧
  t.acu.take = g.take ∧ t.acu.padded = g.padded ∧
  t.acu.slipMark = false ∧ t.acu.lostMark = s.acu.clockLost ∧ t.acu.phase = (s.acu.phase + c) % 48 ∧
  t.acu.toneLevel = s.acu.pendingTone ∧ t.acu.overrunLogged = false ∧ t.acu.setsSince = 0 ∧
  t.acu.fillAfterTake = s.acu.fifo.length - g.taken.length ∧ t.acu.lastStart = some now ∧
  t.acu.clockTimer = s.acu.clockTimer ∧ t.acu.clockLost = s.acu.clockLost ∧
  t.sta.claims = s.sta.claims.set (x.ended.frame.toNat % 8) (some x.ended.frame)

/-- The take mode by the clock condition (R97, R98). -/
def State.takeByClock (s : State) : TakeMode := if s.acu.clockLost then .priming else .flowing

/-- From `s` to `t` the ACU took frame start `x` at `now` in FLOWING with sets enough: they are the block (R98). -/
def blockMade (s t : State) (x : FrameStart) (now : Nat) : Prop :=
  blockFrom s t x now
    ⟨s.acu.fifo.take x.ended.cadCount, [], false, false, s.takeByClock, s.acu.padded⟩

end Sys2Proof.Machine
end

