-- ==== Sys2Proof/Certificates/Slice0/Obligations.lean ====
section
/-! DEFINITION. The statements about the model, for the provers. Every title and its rules stand in
OBLIGATIONS.json. -/

open Sys2Proof Sys2Proof.Machine

/-! ## Every command, and what every step keeps -/

/-- A step takes the command at the front of the queue and runs it with the queue's rest; with no command waiting the
part idles (log 1). -/
def Obligations.StepRunsFrontCommand : Prop :=
  (∀ (c : Instr) (rest : List Instr) (s : State),
    step { s with pending := c :: rest } = exec c { s with pending := rest }) ∧
  ∀ s : State, s.pending = [] → step s = .next s

/-- Every command is carried out in every state, and none touches the queue (log 40). -/
def Obligations.EveryCommandGoesOn : Prop :=
  ∀ (c : Instr) (s : State), ∃ t, exec c s = .next t ∧ t.pending = s.pending

/-- Every step keeps common memory in its canonical form (log 7). -/
def Obligations.MemoryStaysCanonical : Prop :=
 Keeps fun s => Memory.wf s.mem = true

/-- Every step keeps the route and the mapping of GUARD_TRIP. -/
def Obligations.GuardTripRouteStaysFixed : Prop :=
  Keeps fun s => (s.flt.entry .guardTrip).route = .safeStop ∧ (s.flt.entry .guardTrip).mapping = some ⟨7, 63⟩

/-- Every step keeps it so that a tag named by a capture record is HELD, and the record's kind stands; and so that the
tag table, with every copy of it, has its 32 records and the Fault Log its 26 kinds. -/
def Obligations.CapturedTagsStayHeld : Prop :=
  Keeps capturesHeld ∧ Keeps tagTableWhole

/-- No request waits for Safe Stop between steps: every step takes the requests sent in it (log 14). -/
def Obligations.SafeStopRequestsTakenInTheirStep : Prop :=
 Keeps fun s => s.stop.requests = []

/-- The state after power-on reset has what every step keeps. -/
def Obligations.ResetMeetsTheInvariants : Prop :=
  Memory.wf State.reset.mem = true ∧ State.reset.stop.requests = [] ∧ capturesHeld State.reset ∧
  (State.reset.flt.entry .guardTrip).route = .safeStop ∧
  (State.reset.flt.entry .guardTrip).mapping = some ⟨7, 63⟩ ∧
  tagTableWhole State.reset ∧ scaleInRange State.reset

/-! ## Resets and registers (01) -/

/-- Power-on reset. Common memory, the detect switches, the clock and the queue are outside the part. -/
def Obligations.PowerOnResetPutsEveryBlockInItsResetState : Prop :=
  ∀ (e : Env) (s : State), ∃ t, exec (.powerOnReset e) s = .next t ∧
    t.shc.part = .halted ∧
    t.readPartBase = 0 ∧ t.readPartControl = 0 ∧ t.readPartStatus = 0 ∧ t.readAttention = 0 ∧
    t.attentionLine = false ∧
    t.shc.turn = .a ∧ (∀ n, t.tagRec n = .free) ∧ t.shc = .reset ∧
    t.flt = .reset ∧ t.ftu = .reset ∧ t.ldu = .reset ∧ t.mst = .reset ∧ t.acu = .reset ∧ t.sta = .reset ∧
    t.slotA = .reset s.slotA.detect ∧ t.slotB = .reset s.slotB.detect ∧ t.deck = .reset ∧
    t.cgd = .reset ∧ t.stop = .reset ∧ t.vfl = .reset ∧
    t.mem = Memory.apply s.mem e.writes ∧ t.pending = s.pending

/-- The FLT after power-on reset, with the default route and mapping of each kind (R200). -/
def Obligations.PowerOnResetEmptiesTheFaultLog : Prop :=
  ∀ (e : Env) (s : State), ∃ t, exec (.powerOnReset e) s = .next t ∧
    t.flt.first = none ∧
    (∀ k, (t.flt.entry k).inNext = false ∧ (t.flt.entry k).count = 0 ∧
      (t.flt.entry k).capture = { frame := 0, source := .none, detail1 := 0, detail2 := 0, tag := 0 }) ∧
    (∀ k, (t.flt.entry k).route =
      match k with
      | .refEarly | .gyroOverrange | .audioUnderrun | .audioOverrun | .unitDamaged => .none
      | .guardTrip | .streamBehind | .streamFull | .cardWrite | .cardTimeout => .safeStop
      | _ => .attention) ∧
    (∀ k, (t.flt.entry k).mapping = if k = .guardTrip then some ⟨7, 63⟩ else none) ∧
    ∀ n, (t.tagRec n).st = .free

/-- PART_BASE is written while the part is HALTED, and in no other part state. -/
def Obligations.PartBaseWrittenWhileHalted : Prop :=
  (∀ (e : Env) (v : Word) (s : State), s.shc.part = .halted →
    exec (.partBaseWrite e v) s = .next { s.arrive e with shc := { s.shc with partBase := v } }) ∧
  (∀ (e : Env) (v : Word) (s : State), s.shc.part ≠ .halted →
    exec (.partBaseWrite e v) s = .next (s.arrive e)) ∧
  (∀ s : State, s.readPartBase = s.shc.partBase ∧ s.powerOn.readPartBase = 0 ∧
    s.softReset.readPartBase = s.readPartBase)

/-- A write to PART_CONTROL by its bits: the enables, which change alone where RUN is written as it stands; RUN as 1,
which starts a HALTED part and has no effect elsewhere; RUN as 0 and SOFT_RESET as 1, each a soft reset request but
where the part state gives none (R2, R9). One word carries all of them (R216), so a write for the enables acts on RUN
and SOFT_RESET too. RUN and SOFT_RESET both 1 in HALTED: the reset wins (log 5). The tally outputs are judged if a
slot leaves RECORDING in the step (R197). -/
def Obligations.PartControlWrites : Prop :=
  ((∀ (e : Env) (v : Word) (s : State), v.getLsbD 1 = false →
    ((v.getLsbD 0 = true ∧ s.shc.part ≠ .halted) ∨ (v.getLsbD 0 = false ∧ s.shc.part = .halted)) →
    exec (.attentionEnableWrite e v) s = .next { s.arrive e with
      shc := { s.shc with reportEn := v.getLsbD 4, faultEn := v.getLsbD 5, safeEn := v.getLsbD 6 } }) ∧
  (∀ (e : Env) (v : Word) (s : State), exec (.attentionEnableWrite e v) s =
    if v.getLsbD 1 then exec (.softReset e v) s
    else if v.getLsbD 0 then exec (.runSet e v) s else exec (.runClear e v) s) ∧
  (∀ (e : Env) (v : Word) (s : State), v.getLsbD 0 = true → v.getLsbD 1 = false → s.shc.part = .halted →
    exec (.runSet e v) s = .next { s.arrive e with
      shc := { s.shc with run := true, part := .starting, reportEn := v.getLsbD 4, faultEn := v.getLsbD 5,
                          safeEn := v.getLsbD 6 } }) ∧
  (∀ (e : Env) (v : Word) (s : State), v.getLsbD 0 = true → v.getLsbD 1 = false → s.shc.part ≠ .halted →
    exec (.runSet e v) s = .next { s.arrive e with
      shc := { s.shc with reportEn := v.getLsbD 4, faultEn := v.getLsbD 5, safeEn := v.getLsbD 6 } })) ∧
  (∀ (e : Env) (v : Word) (s : State), v.getLsbD 0 = false → v.getLsbD 1 = false →
    let c : Shc := { s.shc with reportEn := v.getLsbD 4, faultEn := v.getLsbD 5, safeEn := v.getLsbD 6 }
    let u : State := { s.arrive e with shc := { c with run := false } }
    exec (.runClear e v) s = .next
      (match s.shc.part with
       | .halted => { s.arrive e with shc := c }
       | .resetting => u
       | .running => u.requestReset.judgeSlots u
       | .starting => u.softReset
       | .startFailed => u.softReset)) ∧
  ((∀ (e : Env) (v : Word) (s : State), v.getLsbD 1 = true →
    let u : State := { s.arrive e with
      shc := { s.shc with run := s.shc.run && v.getLsbD 0, reportEn := v.getLsbD 4, faultEn := v.getLsbD 5,
                          safeEn := v.getLsbD 6 } }
    exec (.softReset e v) s = .next
      (match s.shc.part with
       | .resetting => u
       | .running => u.requestReset.judgeSlots u
       | _ => u.softReset)) ∧
  (∀ (e : Env) (v : Word) (s : State), v.getLsbD 0 = true → v.getLsbD 1 = true →
    exec (.runSet e v) s = exec (.softReset e v) s) ∧
  ∀ (e : Env) (v : Word) (s : State), v.getLsbD 0 = false → v.getLsbD 1 = true →
    exec (.runClear e v) s = exec (.softReset e v) s)

/-- A soft reset request in RUNNING: it waits while a sheet is in dispatch or a report in writing; else, with no slot
RECORDING or CLOSING, the reset is carried out; else the part enters RESETTING with one safe-stop request, which Safe
Stop takes at the end of the step (log 14). -/
def Obligations.SoftResetRequestWaitsOrIsServed : Prop :=
  ∀ s : State, s.shc.part = .running →
    ((s.shc.job ≠ none ∨ s.shc.reports ≠ []) →
      s.requestReset = { s with shc := { s.shc with resetWaiting := true } }) ∧
    (s.shc.job = none → s.shc.reports = [] → s.clipOpen = false → s.requestReset = s.softReset) ∧
    (s.shc.job = none → s.shc.reports = [] → s.clipOpen = true →
      s.requestReset = State.settle { s with
        shc := { s.shc with part := .resetting, resetWaiting := false }
        stop := { s.stop with requests := s.stop.requests ++ [.reset] } })

/-- The reset of R11. A tag that is not HELD becomes FREE with its kind and its other fields 0 (the kind: log 57). -/
def Obligations.SoftResetKeepsTheRecordOfFaultsAndHeldTags : Prop :=
  ∀ s : State,
    s.softReset.ftu = .reset ∧ s.softReset.ldu = .reset ∧ s.softReset.mst = .reset ∧ s.softReset.acu = .reset ∧
    s.softReset.sta = .reset ∧ s.softReset.slotA = .reset s.slotA.detect ∧
    s.softReset.slotB = .reset s.slotB.detect ∧ s.softReset.deck = .reset ∧ s.softReset.cgd = .reset ∧
    s.softReset.vfl = .reset ∧ s.softReset.ftu.flywheel = none ∧
    s.softReset.stop = { s.stop with stopping := false, requests := [], kept := [] } ∧
    s.softReset.shc.partBase = s.shc.partBase ∧
    s.softReset.flt = s.flt ∧
    (∀ n, (s.tagRec n).st = .held → s.softReset.tagRec n = s.tagRec n) ∧
    (∀ n, (s.tagRec n).st ≠ .held → s.softReset.tagRec n = .free) ∧
    s.softReset.shc.turn = .a ∧ s.softReset.shc.heldStart = none ∧
    s.softReset.shc.attReport = s.shc.attReport ∧ s.softReset.shc.attSafe = s.shc.attSafe ∧
    s.softReset.shc.reportEn = s.shc.reportEn ∧ s.softReset.shc.faultEn = s.shc.faultEn ∧
    s.softReset.shc.safeEn = s.shc.safeEn ∧
    s.softReset.shc.run = false ∧ s.softReset.shc.reason = 0 ∧ s.softReset.shc.part = .halted ∧
    s.softReset.mem = s.mem

/-- A write to ATTENTION clears the causes written 1, and the attention line follows the causes and the enables (R4).
A write to PART_STATUS, or to ATTENTION with its named bits 0, changes no register; a PART_CONTROL word with its named
bits 0 is one that writes RUN, SOFT_RESET and the enables 0, and a PART_BASE word has no bit that no field names; what
PART_STATUS reads (R1 to R3, R216). -/
def Obligations.AttentionAndIgnoredWrites : Prop :=
  ((∀ (e : Env) (v : Word) (s : State), v.getLsbD 0 = true →
    exec (.reportClear e v) s = .next { s.arrive e with
      shc := { s.shc with attReport := false, attSafe := s.shc.attSafe && !v.getLsbD 2 } }) ∧
  (∀ (e : Env) (v : Word) (s : State), v.getLsbD 2 = true →
    exec (.safeClear e v) s = .next { s.arrive e with
      shc := { s.shc with attReport := s.shc.attReport && !v.getLsbD 0, attSafe := false } }) ∧
  ∀ s : State, s.attentionLine =
    ((s.readAttention.getLsbD 0 && s.readPartControl.getLsbD 4) ||
     (s.readAttention.getLsbD 1 && s.readPartControl.getLsbD 5) ||
     (s.readAttention.getLsbD 2 && s.readPartControl.getLsbD 6))) ∧
  ((∀ (e : Env) (v : Word) (s : State), exec (.ignoredRegisterWrite e .partStatus v) s = .next (s.arrive e)) ∧
  (∀ (e : Env) (v : Word) (s : State), v.getLsbD 0 = false → v.getLsbD 2 = false →
    exec (.ignoredRegisterWrite e .attention v) s = .next (s.arrive e)) ∧
  (∀ (e : Env) (v : Word) (s : State), v &&& 0x73#32 = 0#32 →
    exec (.ignoredRegisterWrite e .partControl v) s = exec (.runClear e 0) s) ∧
  (∀ (e : Env) (v : Word) (s : State),
    exec (.ignoredRegisterWrite e .partBase v) s = exec (.partBaseWrite e v) s) ∧
  ∀ s : State, s.shc.part.code < 16 ∧
    (s.shc.reason < 8 → s.readPartStatus.toNat % 16 = s.shc.part.code ∧
      s.readPartStatus.toNat / 16 % 4096 = s.shc.reason ∧
      s.readPartStatus.toNat / 65536 = s.ftu.counter.toNat % 65536))

/-- ATTENTION.FAULT reads 1 exactly while a standing kind has a route other than NONE, and the attention line follows
it with FAULT_EN. -/
def Obligations.FaultCauseFollowsStandingKinds : Prop :=
  ∀ s : State,
    (s.readAttention.getLsbD 1 = true ↔
      ∃ k : FaultKind, s.flt.stands k = true ∧
        ((s.flt.entry k).route = .attention ∨ (s.flt.entry k).route = .safeStop)) ∧
    (s.readAttention.getLsbD 1 = true → s.readPartControl.getLsbD 5 = true → s.attentionLine = true)

/-- The directory check fails at its first failing step (R6). COMMON_BUS names the lowest failing address (log 9), and
asks for no safe stop. -/
def Obligations.BadDirectoryStopsTheStart : Prop :=
  ∀ (e : Env) (s : State), s.shc.part = .starting → s.stop.requests = [] →
    let u := s.arrive e
    let base := s.shc.partBase.toNat
    let d := directoryOf (Memory.readAll u.mem base 256)
    let failed (reason : Nat) : State := { u with shc := { s.shc with part := .startFailed, reason := reason } }
    (base % 16384 ≠ 0 → exec (.directoryCheckDone e) s = .next (failed 1)) ∧
    (∀ bad, base % 16384 = 0 → u.busError base 256 = some bad → asksNoStop s .commonBus = true →
      exec (.directoryCheckDone e) s = .next ((failed 5).fault .commonBus .none 1 (BitVec.ofNat 32 bad))) ∧
    (base % 16384 = 0 → u.busError base 256 = none →
      (d.format ≠ 0x4D41 → exec (.directoryCheckDone e) s = .next (failed 4)) ∧
      (d.format = 0x4D41 →
        (¬(d.streamSize.toNat % 65536 = 0 ∧ 4194304 ≤ d.streamSize.toNat ∧ d.streamSize.toNat ≤ 268435456 ∧
            d.stagingSize.toNat = 192512) →
          exec (.directoryCheckDone e) s = .next (failed 2)) ∧
        (d.sizesGood = true → d.areasGood base = false → exec (.directoryCheckDone e) s = .next (failed 3))))

/-- A good directory puts the part in RUNNING: turn A, every tag that is not HELD is FREE (its kind 0, log 57), the
flywheel runs from the entry, the lens timer expires at once, the audio clock timer runs, and the part keeps the areas'
places. The VFL takes a notice for the kind in FIRST and then for each kind in NEXT in order of number (R193). -/
def Obligations.GoodDirectoryPutsThePartInRunning : Prop :=
  ∀ (e : Env) (s : State) (d : Directory), s.shc.part = .starting → s.stop.requests = [] →
    (s.arrive e).checkDirectory = .good d →
    ∃ t, exec (.directoryCheckDone e) s = .next t ∧
      t.shc.part = .running ∧ t.shc.turn = .a ∧
      t.shc.streamBase = d.streamBase ∧ t.shc.streamSize = d.streamSize ∧ t.acu.stagingBase = d.stagingBase ∧
      (∀ n, (s.tagRec n).st = .held → t.tagRec n = s.tagRec n) ∧
      (∀ n, (s.tagRec n).st ≠ .held → t.tagRec n = .free) ∧
      t.ftu = { s.ftu with flywheel := some (s.now + e.elapsed + s.ftu.format.rate.period)
                           lastStart := s.now + e.elapsed } ∧
      t.ldu = { s.ldu with timer := some (s.now + e.elapsed) } ∧
      t.acu.clockTimer = some (s.now + e.elapsed + 2000) ∧
      (s.slotA.detect = true → t.slotA.st = .probing ∧ t.slotA.command = some .identify ∧
        t.slotA.timer = some (s.now + e.elapsed + 500000)) ∧
      (s.slotA.detect = false → t.slotA.st = .empty) ∧
      (s.slotB.detect = true → t.slotB.st = .probing ∧ t.slotB.command = some .identify ∧
        t.slotB.timer = some (s.now + e.elapsed + 500000)) ∧
      (s.slotB.detect = false → t.slotB.st = .empty) ∧
      (let told := (s.flt.first.toList ++ FaultKind.all.filter fun k => (s.flt.entry k).inNext).foldl
          (fun v k => v.kindEntered k (s.flt.entry k).mapping) s.vfl
       t.vfl.warnings = told.warnings ∧ t.vfl.droppedWarnings = told.droppedWarnings) ∧
      t.mst = s.mst ∧ t.sta = s.sta ∧ t.deck = s.deck ∧ t.flt = s.flt ∧ t.stop = s.stop ∧
      t.mem = Memory.apply s.mem e.writes

/-! ## Frame timing (02) -/

/-- The flywheel expires. In FREE and in LOCKING a frame start is made (R28, R29, R33 to R36) and joins the queue of
each block that takes it (log 10); the second one since the last pulse returns LOCKING to FREE with the good count 0
and no fault (R29), and so does a format change that takes effect there (R27); in LOCKED a frame start is made,
REF_LOST is logged with the number of the frame it opened, the holdover mark is set before its record is made unless a
format change takes effect there (R27, log 19), and the lock state becomes FREE (R31). -/
def Obligations.FlywheelMakesFrameStarts : Prop :=
  (∀ (e : Env) (s : State) (due : Nat), (s.ftu.lock = .free ∨ s.ftu.lock = .locking) →
    s.ftu.flywheel = some due → s.stop.requests = [] →
    let now := max (s.now + e.elapsed) due
    let stays := s.ftu.lock = .locking ∧ s.ftu.pendingFormat = none ∧ s.ftu.sincePulse = 0
    let f := s.ftu.pendingFormat.getD s.ftu.format
    let counts := match s.ftu.mode with
      | .freeRun => true
      | .recordRun => s.slotA.st == .recording || s.slotB.st == .recording
    ∃ t, exec (.flywheelExpiry e) s = .next t ∧ t.now = now ∧
      t.ftu.counter = s.ftu.counter + 1 ∧ t.ftu.flywheel = some (now + f.rate.period) ∧
      t.ftu.lock = (if stays then .locking else .free) ∧
      (s.ftu.lock = .locking → t.ftu.good = if stays then s.ftu.good else 0) ∧
      t.ftu.sincePulse = (if s.ftu.lock = .locking ∧ s.ftu.sincePulse = 0 then 1 else s.ftu.sincePulse) ∧
      t.ftu.lastPulse = s.ftu.lastPulse ∧
      t.ftu.lastStart = now ∧ t.ftu.format = f ∧ t.ftu.pendingFormat = none ∧ t.ftu.pendingTc = none ∧
      t.ftu.endedRec = s.ftu.openRec ∧
      t.ftu.openRec.frame = t.ftu.counter ∧ t.ftu.openRec.tc = t.ftu.tc ∧ t.ftu.openRec.drop = f.drop ∧
      t.ftu.openRec.rate = f.rate ∧ t.ftu.openRec.run = counts ∧ t.ftu.openRec.lost = t.ftu.holdover ∧
      t.ftu.openRec.brk = (!s.ftu.started || s.ftu.pendingFormat.isSome || s.ftu.pendingTc.isSome) ∧
      t.ftu.openRec.cadIndex = (if s.ftu.started = false ∨ s.ftu.pendingFormat.isSome then 0
        else (s.ftu.openRec.cadIndex + 1) % 5) ∧
      t.ftu.openRec.cadCount = f.rate.cadence t.ftu.openRec.cadIndex ∧
      (s.ftu.pendingTc = none → s.ftu.pendingFormat = none →
        t.ftu.tc = if s.ftu.started = true ∧ counts = true then s.ftu.tc.advance s.ftu.format else s.ftu.tc) ∧
      (s.ftu.pendingTc = none → s.ftu.pendingFormat ≠ none → t.ftu.tc = s.ftu.tc.bringIn f) ∧
      (∀ c, s.ftu.pendingTc = some c → t.ftu.tc = c.bringIn f) ∧
      (let x : FrameStart := ⟨t.ftu.openRec, t.ftu.endedRec, !s.ftu.started⟩
       t.shc.arriving = s.shc.arriving ++ [x] ∧ t.mst.arriving = s.mst.arriving ++ [x] ∧
       t.acu.arriving = s.acu.arriving ++ [x] ∧ t.sta.arriving = s.sta.arriving ++ [x] ∧
       t.vfl.arriving = s.vfl.arriving ++ [x]) ∧
      t.shc.tags = s.shc.tags ∧ t.flt = s.flt ∧ t.stop = s.stop ∧ t.cgd = s.cgd ∧
      t.mem = Memory.apply s.mem e.writes) ∧
  (∀ (e : Env) (s : State) (due : Nat), s.ftu.lock = .locked → s.ftu.flywheel = some due → s.stop.requests = [] →
    s.flt.kinds.length = 26 → asksNoStop s .refLost = true →
    let now := max (s.now + e.elapsed) due
    ∃ t, exec (.flywheelExpiry e) s = .next t ∧ t.now = now ∧
      t.ftu.counter = s.ftu.counter + 1 ∧ t.ftu.lock = .free ∧ t.ftu.good = 0 ∧
      t.ftu.holdover = s.ftu.pendingFormat.isNone ∧ t.ftu.openRec.lost = s.ftu.pendingFormat.isNone ∧
      t.ftu.flywheel = some (now + (s.ftu.pendingFormat.getD s.ftu.format).rate.period) ∧
      t.flt.stands .refLost = true ∧ (t.flt.entry .refLost).count = min 255 ((s.flt.entry .refLost).count + 1) ∧
      (s.flt.stands .refLost = false → (t.flt.entry .refLost).capture =
        { frame := s.ftu.counter + 1, source := .none, detail1 := s.ftu.lastPulseFrame,
          detail2 := BitVec.ofNat 32 (now - s.ftu.lastPulse), tag := 0 }) ∧
      (s.flt.stands .refLost = true →
        (t.flt.entry .refLost).capture = (s.flt.entry .refLost).capture))

/-- A pulse. In FREE or LOCKING it counts toward the lock, and the third good one makes the FTU LOCKED, with a frame
start when at least half a period has passed since the last (R28 to R30). In LOCKED it makes a frame start at or above
the early limit (R31); an earlier one is dropped under IGNORE or makes a frame start under RESTART, and REF_EARLY is
logged (R32); its time too becomes that of the last pulse (log 59). The holdover mark is cleared before the frame start
of the locking pulse is made (log 60). In the other part states the input is ignored. -/
def Obligations.PulsesSteerTheFlywheel : Prop :=
  (∀ (e : Env) (s : State), (s.shc.part = .running ∨ s.shc.part = .resetting) → s.stop.requests = [] →
    let now := s.now + e.elapsed
    let n := s.ftu.format.rate.period
    let interval := now - s.ftu.lastPulse
    let noted : Ftu := { s.ftu with lastPulse := now, sincePulse := 0 }
    (s.ftu.lock = .free → exec (.framePulse e) s = .next { s.arrive e with
      ftu := { noted with good := 1, lock := .locking } }) ∧
    (s.ftu.lock = .locking → (interval < n * 98 / 100 ∨ n * 102 / 100 < interval) →
      exec (.framePulse e) s = .next { s.arrive e with ftu := { noted with good := 1 } }) ∧
    (s.ftu.lock = .locking → n * 98 / 100 ≤ interval → interval ≤ n * 102 / 100 → s.ftu.good + 1 < 3 →
      exec (.framePulse e) s = .next { s.arrive e with ftu := { noted with good := s.ftu.good + 1 } }) ∧
    (s.ftu.lock = .locking → n * 98 / 100 ≤ interval → interval ≤ n * 102 / 100 → 3 ≤ s.ftu.good + 1 →
      now - s.ftu.lastStart < n * 50 / 100 →
      exec (.framePulse e) s = .next { s.arrive e with
        ftu := { noted with good := s.ftu.good + 1, lock := .locked, holdover := false
                            flywheel := some (now + n * 103 / 100) } }) ∧
    (s.ftu.lock = .locking → n * 98 / 100 ≤ interval → interval ≤ n * 102 / 100 → 3 ≤ s.ftu.good + 1 →
      n * 50 / 100 ≤ now - s.ftu.lastStart → s.ftu.pendingFormat = none →
      ∃ t, exec (.framePulse e) s = .next t ∧ t.ftu.lock = .locked ∧ t.ftu.holdover = false ∧
        t.ftu.counter = s.ftu.counter + 1 ∧ t.ftu.lastStart = now ∧ t.ftu.flywheel = some (now + n * 103 / 100) ∧
        t.ftu.lastPulseFrame = s.ftu.counter + 1 ∧ t.ftu.openRec.lost = false ∧ t.flt = s.flt)) ∧
  ((∀ (e : Env) (s : State), s.shc.part ≠ .running → s.shc.part ≠ .resetting →
    exec (.framePulse e) s = .next (s.arrive e)) ∧
  ∀ (e : Env) (s : State), (s.shc.part = .running ∨ s.shc.part = .resetting) → s.stop.requests = [] →
    s.ftu.lock = .locked → s.flt.kinds.length = 26 →
    let now := s.now + e.elapsed
    let n := s.ftu.format.rate.period
    let since := now - s.ftu.lastStart
    (n * 98 / 100 ≤ since → s.ftu.pendingFormat = none →
      ∃ t, exec (.framePulse e) s = .next t ∧ t.ftu.lock = .locked ∧ t.ftu.counter = s.ftu.counter + 1 ∧
        t.ftu.flywheel = some (now + n * 103 / 100) ∧ t.ftu.droppedPulses = s.ftu.droppedPulses ∧ t.flt = s.flt) ∧
    (since < n * 98 / 100 → s.ftu.policy = .ignore → asksNoStop s .refEarly = true →
      let dropped := min 65535 (s.ftu.droppedPulses + 1)
      exec (.framePulse e) s = .next (State.fault
        { s.arrive e with ftu := { s.ftu with lastPulse := now, sincePulse := 0, droppedPulses := dropped } }
        .refEarly .none (BitVec.ofNat 32 since) (BitVec.ofNat 32 dropped))) ∧
    (since < n * 98 / 100 → s.ftu.policy = .restart → s.ftu.pendingFormat = none → asksNoStop s .refEarly = true →
      ∃ t, exec (.framePulse e) s = .next t ∧ t.ftu.lock = .locked ∧ t.ftu.counter = s.ftu.counter + 1 ∧
        t.ftu.flywheel = some (now + n * 103 / 100) ∧ t.ftu.droppedPulses = s.ftu.droppedPulses ∧
        t.flt.stands .refEarly = true ∧ (t.flt.entry .refEarly).count = min 255 ((s.flt.entry .refEarly).count + 1)))

/-- The orders of the FTU: the pending format, the early-pulse policy, the counting mode, and a timecode load with its
fields held to their ranges and a skipped number moved on; and their refusals, which change nothing but the result
(R26, R32, R36, R37). -/
def Obligations.TimingOrders : Prop :=
  ((∀ (e : Env) (s : State) (rate drop : Byte) (r : Rate), dispatches s .immediate 0x10 0 (p1 rate ++ p1 drop) = true →
    s.clipOpen = false → s.sta.preOn = false → rateOf rate.toNat = some r →
    (drop = 0 ∨ (drop = 1 ∧ (r = .r29 ∨ r = .r59))) →
    exec (.setFormat e 0 rate drop) s = .next (State.finishEntry
      { s.arrive e with ftu := { s.ftu with pendingFormat := some ⟨r, drop == 1⟩ } } .done)) ∧
  (∀ (e : Env) (s : State) (policy : Byte), dispatches s .immediate 0x11 0 (p1 policy) = true →
    (policy = 0 → exec (.setRefPolicy e 0 policy) s = .next (State.finishEntry
      { s.arrive e with ftu := { s.ftu with policy := .ignore } } .done)) ∧
    (policy = 1 → exec (.setRefPolicy e 0 policy) s = .next (State.finishEntry
      { s.arrive e with ftu := { s.ftu with policy := .restart } } .done))) ∧
  (∀ (e : Env) (s : State) (mode : Byte), dispatches s .immediate 0x12 0 (p1 mode) = true →
    (mode = 0 → exec (.setTcMode e 0 mode) s = .next (State.finishEntry
      { s.arrive e with ftu := { s.ftu with mode := .freeRun } } .done)) ∧
    (mode = 1 → s.sta.preOn = false → exec (.setTcMode e 0 mode) s = .next (State.finishEntry
      { s.arrive e with ftu := { s.ftu with mode := .recordRun } } .done))) ∧
  (∀ (e : Env) (s : State) (h m c f : Byte),
    dispatches s .immediate 0x13 0 (p1 h ++ p1 m ++ p1 c ++ p1 f) = true → s.clipOpen = false →
    let fmt := s.ftu.pendingFormat.getD s.ftu.format
    let held : Timecode := ⟨min h.toNat 23, min m.toNat 59, min c.toNat 59, min f.toNat (fmt.rate.count - 1)⟩
    let load := if held.isSkipped fmt then { held with frames := fmt.skipped } else held
    exec (.setTimecode e 0 h m c f) s = .next (State.finishEntry
      { s.arrive e with ftu := { s.ftu with pendingTc := some load } }
      (if load = ⟨h.toNat, m.toNat, c.toNat, f.toNat⟩ then .done else .clamped)))) ∧
  ((∀ (e : Env) (s : State) (rate drop : Byte), dispatches s .immediate 0x10 0 (p1 rate ++ p1 drop) = true →
    ((s.clipOpen = true ∨ s.sta.preOn = true) →
      exec (.setFormat e 0 rate drop) s = .next ((s.arrive e).finishEntry .refusedRecording)) ∧
    (s.clipOpen = false → s.sta.preOn = false →
      (5 < rate.toNat ∨ 1 < drop.toNat ∨ (drop = 1 ∧ rate.toNat ≠ 3 ∧ rate.toNat ≠ 5)) →
      exec (.setFormat e 0 rate drop) s = .next ((s.arrive e).finishEntry .refusedParam))) ∧
  (∀ (e : Env) (s : State) (policy : Byte), dispatches s .immediate 0x11 0 (p1 policy) = true → 1 < policy.toNat →
    exec (.setRefPolicy e 0 policy) s = .next ((s.arrive e).finishEntry .refusedParam)) ∧
  (∀ (e : Env) (s : State) (mode : Byte), dispatches s .immediate 0x12 0 (p1 mode) = true →
    (1 < mode.toNat → exec (.setTcMode e 0 mode) s = .next ((s.arrive e).finishEntry .refusedParam)) ∧
    (mode = 1 → s.sta.preOn = true →
      exec (.setTcMode e 0 mode) s = .next ((s.arrive e).finishEntry .refusedState))) ∧
  (∀ (e : Env) (s : State) (h m c f : Byte),
    dispatches s .immediate 0x13 0 (p1 h ++ p1 m ++ p1 c ++ p1 f) = true → s.clipOpen = true →
    exec (.setTimecode e 0 h m c f) s = .next ((s.arrive e).finishEntry .refusedRecording)))

/-- Advancing a valid timecode gives a valid one that carries no skipped number; within a second the frames rise by
one, and the last frame of the day is followed by 00:00:00:00 (R35). -/
def Obligations.TimecodeAdvanceStaysValid : Prop :=
  ∀ (f : Format) (t : Timecode), t.hours < 24 → t.minutes < 60 → t.seconds < 60 → t.frames < f.rate.count →
    t.isSkipped f = false →
    (t.advance f).hours < 24 ∧ (t.advance f).minutes < 60 ∧ (t.advance f).seconds < 60 ∧
    (t.advance f).frames < f.rate.count ∧ (t.advance f).isSkipped f = false ∧
    (t.frames + 1 < f.rate.count → t.advance f = { t with frames := t.frames + 1 }) ∧
    (t = ⟨23, 59, 59, f.rate.count - 1⟩ → t.advance f = ⟨0, 0, 0, 0⟩)

/-! ## Sheets, tags and reports (01) -/

/-- A frame start in RUNNING with the guard OFF. With the turn sheet not POSTED nothing is taken, the turn stays, and
the report begins with its start stamp, written in this step (R13, R22, R23, log 12); the SHC, the CGD and Safe Stop
keep their copies for the frame that ends (log 11). A bus error while the sheet is read has COMMON_BUS logged, at the
lowest failing address (log 9), and the sheet left untouched, and is else the same (R13). In RESETTING no sheet is
taken, even a POSTED one, in any guard state (R10). A POSTED sheet that counts more than 64 entries is taken and
returned MALFORMED: no entry is dispatched, the turn flips, and SHEET_MALFORMED is logged (R15). A frame start that
comes while a sheet is in dispatch is held, and one that comes while another is held takes its place: the one held till
then is taken with no sheet, and its report begins (R14). -/
def Obligations.FrameStartWithNoSheetOrAMalformedOne : Prop :=
  (∀ (e : Env) (s : State) (x : FrameStart) (rest : List FrameStart), s.shc.arriving = x :: rest →
    s.shc.part = .running → s.shc.job = none → s.shc.heldStart = none → s.stop.requests = [] → s.cgd.st = .off →
    let u := s.arrive e
    let sheet := s.shc.partBase.toNat + (if s.shc.turn = .a then 0x100 else 0xA00)
    let stamp := s.shc.partBase.toNat + 0x1400 + 0x1000 * (x.opened.frame.toNat % 2)
    let need (f : FrameNo) : Bool :=
      (s.shc.reports.any fun r => r.frame == f) || awaiting f rest || awaiting f s.vfl.arriving
    u.busError sheet 32 = none → ofLe (Memory.readAll u.mem sheet 4) ≠ 1 → u.busError stamp 4 = none →
    exec (.shcFrameStart e) s = .next { u with
      shc := { s.shc with
        arriving := rest
        reports := s.shc.reports.filter (fun r => r.frame.toNat % 2 != x.opened.frame.toNat % 2) ++
          [⟨x.opened.frame, none⟩]
        kept := keepCopy need x.ended.frame ⟨.running, s.shc.tags⟩ s.shc.kept }
      cgd := { s.cgd with kept := keepCopy need x.ended.frame ⟨.off, s.cgd.count⟩ s.cgd.kept }
      stop := { s.stop with
        kept := keepCopy need x.ended.frame ⟨s.stop.stopping, s.stop.enable, s.stop.record⟩ s.stop.kept }
      mem := Memory.writeAll u.mem stamp (leBytes 4 x.opened.frame.toNat) }) ∧
  (∀ (e : Env) (s : State) (x : FrameStart) (rest : List FrameStart), s.shc.arriving = x :: rest →
    s.shc.part = .running → s.shc.job = none → s.shc.heldStart = none → s.stop.requests = [] → s.cgd.st = .off →
    Memory.wf s.mem = true → e.errors = [] → s.shc.partBase.toNat + 16384 ≤ 4294967296 →
    s.flt.kinds.length = 26 → asksNoStop s .sheetMalformed = true →
    let u := s.arrive e
    let sheet := s.shc.partBase.toNat + (if s.shc.turn = .a then 0x100 else 0xA00)
    let n := ofLe (Memory.readAll u.mem (sheet + 12) 4)
    ofLe (Memory.readAll u.mem sheet 4) = 1 → 64 < n →
    ∃ t, exec (.shcFrameStart e) s = .next t ∧ t.shc.job = none ∧ t.shc.turn ≠ s.shc.turn ∧
      t.shc.tags = s.shc.tags ∧
      t.flt.stands .sheetMalformed = true ∧
      (t.flt.entry .sheetMalformed).count = min 255 ((s.flt.entry .sheetMalformed).count + 1) ∧
      Memory.readAll t.mem sheet 4 = leBytes 4 3 ∧
      Memory.readAll t.mem (sheet + 16) 4 = leBytes 4 x.opened.frame.toNat ∧
      Memory.read t.mem (sheet + 20) = 2 ∧
      ∀ a, sheet + 32 ≤ a → a < sheet + 2080 → Memory.read t.mem a = Memory.read u.mem a) ∧
  (∀ (e : Env) (s : State) (x : FrameStart) (rest : List FrameStart) (bad : Nat), s.shc.arriving = x :: rest →
    s.shc.part = .running → s.shc.job = none → s.shc.heldStart = none → s.stop.requests = [] → s.cgd.st = .off →
    s.flt.kinds.length = 26 → asksNoStop s .commonBus = true →
    let u := s.arrive e
    let sheet := s.shc.partBase.toNat + (if s.shc.turn = .a then 0x100 else 0xA00)
    let stamp := s.shc.partBase.toNat + 0x1400 + 0x1000 * (x.opened.frame.toNat % 2)
    let n := ofLe (Memory.readAll u.mem (sheet + 12) 4)
    (u.busError sheet 32 = some bad ∨
      (u.busError sheet 32 = none ∧ ofLe (Memory.readAll u.mem sheet 4) = 1 ∧ n ≤ 64 ∧
        u.spansError (entrySpans u.mem (sheet + 32) n) = some bad)) →
    u.busError stamp 4 = none →
    ∃ t, exec (.shcFrameStart e) s = .next t ∧ t.shc.job = none ∧ t.shc.turn = s.shc.turn ∧ t.shc.arriving = rest ∧
      t.shc.heldStart = none ∧ t.shc.part = .running ∧ t.shc.tags = s.shc.tags ∧
      t.shc.reports = s.shc.reports.filter (fun r => r.frame.toNat % 2 != x.opened.frame.toNat % 2) ++
        [⟨x.opened.frame, none⟩] ∧
      logged s t .commonBus .none 1 (BitVec.ofNat 32 bad) 0 ∧
      (∀ k, k ≠ .commonBus → t.flt.entry k = s.flt.entry k) ∧ t.cgd.st = .off ∧ t.cgd.count = s.cgd.count ∧
      t.mem = Memory.writeAll u.mem stamp (leBytes 4 x.opened.frame.toNat)) ∧
  (∀ (e : Env) (s : State) (x : FrameStart) (rest : List FrameStart), s.shc.arriving = x :: rest →
    s.shc.part = .resetting → s.shc.job = none → s.shc.heldStart = none → s.stop.requests = [] →
    let u := s.arrive e
    let stamp := s.shc.partBase.toNat + 0x1400 + 0x1000 * (x.opened.frame.toNat % 2)
    let need (f : FrameNo) : Bool :=
      (s.shc.reports.any fun r => r.frame == f) || awaiting f rest || awaiting f s.vfl.arriving
    u.busError stamp 4 = none →
    exec (.shcFrameStart e) s = .next { u with
      shc := { s.shc with
        arriving := rest
        reports := s.shc.reports.filter (fun r => r.frame.toNat % 2 != x.opened.frame.toNat % 2) ++
          [⟨x.opened.frame, none⟩]
        kept := keepCopy need x.ended.frame ⟨.resetting, s.shc.tags⟩ s.shc.kept }
      cgd := { s.cgd with kept := keepCopy need x.ended.frame ⟨s.cgd.st, s.cgd.count⟩ s.cgd.kept }
      stop := { s.stop with
        kept := keepCopy need x.ended.frame ⟨s.stop.stopping, s.stop.enable, s.stop.record⟩ s.stop.kept }
      mem := Memory.writeAll u.mem stamp (leBytes 4 x.opened.frame.toNat) }) ∧
  (∀ (e : Env) (s : State) (x : FrameStart) (rest : List FrameStart), s.shc.arriving = x :: rest → s.shc.job ≠ none →
    s.shc.heldStart = none → s.stop.requests = [] →
    exec (.shcFrameStart e) s =
      .next { s.arrive e with shc := { s.shc with arriving := rest, heldStart := some x } }) ∧
  (∀ (e : Env) (s : State) (x h : FrameStart) (rest : List FrameStart), s.shc.arriving = x :: rest →
    s.shc.heldStart = some h → s.stop.requests = [] → s.cgd.st = .off →
    let u := s.arrive e
    let stamp := s.shc.partBase.toNat + 0x1400 + 0x1000 * (h.opened.frame.toNat % 2)
    let need (f : FrameNo) : Bool :=
      (s.shc.reports.any fun r => r.frame == f) || awaiting f rest || h.opened.frame == f || awaiting f s.vfl.arriving
    u.busError stamp 4 = none →
    exec (.shcFrameStart e) s = .next { u with
      shc := { s.shc with
        arriving := rest, heldStart := some x
        reports := s.shc.reports.filter (fun r => r.frame.toNat % 2 != h.opened.frame.toNat % 2) ++
          [⟨h.opened.frame, none⟩]
        kept := if s.shc.dispatches h.ended.frame = true then s.shc.kept
          else keepCopy need h.ended.frame ⟨s.shc.part, s.shc.tags⟩ s.shc.kept }
      cgd := { s.cgd with kept := keepCopy need h.ended.frame ⟨.off, s.cgd.count⟩ s.cgd.kept }
      stop := { s.stop with
        kept := keepCopy need h.ended.frame ⟨s.stop.stopping, s.stop.enable, s.stop.record⟩ s.stop.kept }
      mem := Memory.writeAll u.mem stamp (leBytes 4 h.opened.frame.toNat) })

/-- A frame start in RUNNING at which the turn sheet is POSTED and read whole, with the guard OFF: TAKEN and the take
frame are written, the turn flips, the entries wait for their dispatch in the SHC's own copy, those of unknown kinds at
the head with their REFUSED_UNKNOWN (R16), and the report begins with its start stamp, written in this step (log 12).
Every other byte of memory stands (R12, R13). -/
def Obligations.PostedSheetIsTaken : Prop :=
  ∀ (e : Env) (s : State) (x : FrameStart) (rest : List FrameStart), s.shc.arriving = x :: rest →
    s.shc.part = .running → s.shc.job = none → s.shc.heldStart = none → s.stop.requests = [] → s.cgd.st = .off →
    Memory.wf s.mem = true → e.errors = [] → s.shc.partBase.toNat + 16384 ≤ 4294967296 →
    let u := s.arrive e
    let sheet := s.shc.partBase.toNat + (if s.shc.turn = .a then 0x100 else 0xA00)
    let stamp := s.shc.partBase.toNat + 0x1400 + 0x1000 * (x.opened.frame.toNat % 2)
    let n := ofLe (Memory.readAll u.mem (sheet + 12) 4)
    ofLe (Memory.readAll u.mem sheet 4) = 1 → n ≤ 64 →
    ∃ t j, exec (.shcFrameStart e) s = .next t ∧ t.shc.job = some j ∧
      j.sheet = s.shc.turn ∧ j.frame = x.opened.frame ∧ j.tripped = false ∧
      (let entries := entriesOf n (Memory.readAll u.mem (sheet + 32) (32 * n))
       ∃ k, j.todo = entries.drop k ∧ j.results = List.replicate k .refusedUnknown ∧ k ≤ n ∧
        (∀ y ∈ entries.take k, isKnown y.kind = false) ∧ ∀ y ys, entries.drop k = y :: ys → isKnown y.kind = true) ∧
      t.shc.turn ≠ s.shc.turn ∧ t.shc.arriving = rest ∧ t.shc.tags = s.shc.tags ∧ t.cgd.st = .off ∧
      t.shc.reports.getLast?.map (fun r => (r.frame, r.sheet.map fun m => (m.sheet, m.result))) =
        some (x.opened.frame, some (s.shc.turn, .ok)) ∧
      Memory.readAll t.mem sheet 4 = leBytes 4 2 ∧
      Memory.readAll t.mem (sheet + 16) 4 = leBytes 4 x.opened.frame.toNat ∧
      Memory.readAll t.mem stamp 4 = leBytes 4 x.opened.frame.toNat ∧
      ∀ a, (a < sheet ∨ sheet + 4 ≤ a) → (a < sheet + 16 ∨ sheet + 20 ≤ a) → (a < stamp ∨ stamp + 4 ≤ a) →
        Memory.read t.mem a = Memory.read u.mem a

/-- The dispatch of a sheet completes: the results, the sheet result and RETURNED are written, GUARD_REFUSED also for a
sheet of no entries whose keep word tripped the guard (log 44), and no other byte of memory changes. Each completion
that waited for the results reaches the tag table, in order, before the report of that frame shows it (R20, logs 42,
58); every tag of which none waited stands (R18). A soft reset request that waited is served, which drops a held frame
start (R9, R11); else a frame start held behind the sheet is taken with the turn as it stands: no sheet is taken with
the turn sheet not POSTED, and a POSTED one is (R14). -/
def Obligations.SheetReturnedWithItsResults : Prop :=
  ∀ (e : Env) (s : State) (j : SheetJob), s.shc.job = some j → j.todo = [] → j.results.length ≤ 64 →
    s.stop.requests = [] → Memory.wf s.mem = true → e.errors = [] → s.shc.partBase.toNat + 16384 ≤ 4294967296 →
    let u := s.arrive e
    let sheet := s.shc.partBase.toNat + (if j.sheet = .a then 0x100 else 0xA00)
    let returned (t : State) : Prop :=
      (∀ n r, j.results[n]? = some r → Memory.read t.mem (sheet + 32 + 32 * n + 2) = BitVec.ofNat 8 r.code) ∧
      Memory.read t.mem (sheet + 20) = (if j.tripped then 3 else 1) ∧
      Memory.readAll t.mem sheet 4 = leBytes 4 3
    (s.shc.resetWaiting = false → s.shc.heldStart = none →
      ∃ t, exec (.sheetReturned e) s = .next t ∧ t.shc.job = none ∧ t.shc.turn = s.shc.turn ∧
        t.shc.tags = (j.late.foldl State.recordCompletion s).shc.tags ∧
        t.flt = (j.late.foldl State.recordCompletion s).flt ∧
        (∀ n, 1 ≤ n → (∀ h ∈ j.late, h.completion.tag ≠ n) → t.tagRec n = s.tagRec n) ∧
        (∀ h, j.late = [h] → s.inFlight h.completion.tag = true → t.tagRec h.completion.tag =
          s.ended h.completion.tag (if (h.hold.any fun k => s.flt.takesTag k) then .held else .done)
            h.completion.outcome h.completion.word1 h.completion.word2 h.completion.word3) ∧
        returned t ∧
        ∀ a, (a < sheet ∨ sheet + 4 ≤ a) → a ≠ sheet + 20 →
          (∀ n, n < j.results.length → a ≠ sheet + 32 + 32 * n + 2) → Memory.read t.mem a = Memory.read u.mem a) ∧
    (s.shc.resetWaiting = true → s.shc.reports = [] → s.clipOpen = false →
      ∃ t, exec (.sheetReturned e) s = .next t ∧ t.shc.part = .halted ∧ t.shc.job = none ∧ t.shc.heldStart = none ∧
        returned t) ∧
    ∀ x, s.shc.resetWaiting = false → s.shc.heldStart = some x → j.late = [] → s.shc.part = .running →
      s.cgd.st = .off → s.shc.turn ≠ j.sheet →
      let next := s.shc.partBase.toNat + (if s.shc.turn = .a then 0x100 else 0xA00)
      let stamp := s.shc.partBase.toNat + 0x1400 + 0x1000 * (x.opened.frame.toNat % 2)
      let begun (t : State) (note : Option SheetNote) : Prop :=
        t.shc.heldStart = none ∧ t.shc.tags = s.shc.tags ∧ t.flt = s.flt ∧
        t.shc.reports = s.shc.reports.filter (fun r => r.frame.toNat % 2 != x.opened.frame.toNat % 2) ++
          [⟨x.opened.frame, note⟩] ∧
        Memory.readAll t.mem stamp 4 = leBytes 4 x.opened.frame.toNat ∧ returned t
      (ofLe (Memory.readAll u.mem next 4) ≠ 1 → ∃ t, exec (.sheetReturned e) s = .next t ∧ t.shc.job = none ∧
        t.shc.turn = s.shc.turn ∧ begun t none) ∧
      (ofLe (Memory.readAll u.mem next 4) = 1 → ofLe (Memory.readAll u.mem (next + 12) 4) ≤ 64 →
        ∃ t k, exec (.sheetReturned e) s = .next t ∧ t.shc.job = some k ∧ k.sheet = s.shc.turn ∧
          k.frame = x.opened.frame ∧ k.tripped = false ∧ t.shc.turn = j.sheet ∧
          begun t (some ⟨s.shc.turn, BitVec.ofNat 32 (ofLe (Memory.readAll u.mem (next + 4) 4)), .ok⟩) ∧
          Memory.readAll t.mem next 4 = leBytes 4 2 ∧
          Memory.readAll t.mem (next + 16) 4 = leBytes 4 x.opened.frame.toNat)

/-- The writing of a report completes: every field of the body stands at its offset of the slot, in the order of R22,
the end stamp after them, and ATTENTION.REPORT is set (R22, R23, R223; one access for each field, log 12). The tag
table, written from the copy kept for the frame where there is one, has its 32 records, as every step keeps it. -/
def Obligations.ReportWrittenWithItsEndStamp : Prop :=
  ∀ (e : Env) (s : State) (slot : BitVec 1) (r : ReportJob),
    s.shc.reports.find? (fun k => k.frame.toNat % 2 == slot.toNat) = some r → s.reportReady r.frame = true →
    s.shc.resetWaiting = false → s.shc.heldStart = none → s.stop.requests = [] → tagTableWhole s →
    Memory.wf s.mem = true → e.errors = [] → s.shc.partBase.toNat + 16384 ≤ 4294967296 →
    let u := s.arrive e
    let base := s.shc.partBase.toNat + 0x1400 + 0x1000 * (r.frame.toNat % 2)
    ∃ t, exec (.reportWriteDone e slot) s = .next t ∧ t.shc.attReport = true ∧
      t.shc.reports = s.shc.reports.filter (fun k => k.frame != r.frame) ∧
      t.mem = Memory.writeAll
        ((reportFields r).foldl (fun m f => Memory.writeAll m (base + f.1) (f.2 u)) u.mem)
        (base + 0x590) (leBytes 4 r.frame.toNat) ∧
      Memory.readAll t.mem (base + 0x590) 4 = leBytes 4 r.frame.toNat ∧
      (∀ a, (a < base + 4 ∨ base + 0x594 ≤ a) → Memory.read t.mem a = Memory.read u.mem a) ∧
      t.shc.tags = s.shc.tags ∧ t.flt = s.flt ∧ t.stop = s.stop

/-- RELEASE_TAG (R21, R206). -/
def Obligations.ReleaseTagLetsAHeldTagGo : Prop :=
  ∀ (e : Env) (s : State) (number : Byte), dispatches s .immediate 0x01 0 (p1 number) = true →
    let n := number.toNat
    let u := s.arrive e
    ((n = 0 ∨ 32 < n) → exec (.releaseTag e 0 number) s = .next (u.finishEntry .refusedParam)) ∧
    (1 ≤ n → n ≤ 32 → (s.tagRec n).st ≠ .held →
      exec (.releaseTag e 0 number) s = .next (u.finishEntry .refusedState)) ∧
    (1 ≤ n → n ≤ 32 → (s.tagRec n).st = .held →
      exec (.releaseTag e 0 number) s = .next (State.finishEntry { u with
        shc := { s.shc with tags := s.shc.tags.set (n - 1) { s.tagRec n with st := .done } }
        flt := { s.flt with kinds := s.flt.kinds.map fun r =>
          if r.capture.tag = n then { r with capture := { r.capture with tag := 0 } } else r } } .done))

/-- Every order's tag byte is checked by the class of its kind: a check that refuses gives its result and nothing
else; an order that is not the next entry changes nothing (R16, R17, log 4). An entry with its result leaves the list,
and the entries of unknown kinds behind it get REFUSED_UNKNOWN (R16). -/
def Obligations.EveryEntryIsCheckedAndAnswered : Prop :=
  (∀ (c : Instr) (f : OrderForm) (s : State), orderForm c = some f →
    (s.awaits f.kind f.tag f.params = false → exec c s = .next (s.arrive c.env)) ∧
    (s.awaits f.kind f.tag f.params = true →
      (f.cls = .immediate → f.tag ≠ 0 → exec c s = .next ((s.arrive c.env).finishEntry .refusedParam)) ∧
      (f.cls = .required → f.tag = 0 → exec c s = .next ((s.arrive c.env).finishEntry .refusedNoTag)) ∧
      (f.cls ≠ .immediate → 32 < f.tag.toNat →
        exec c s = .next ((s.arrive c.env).finishEntry .refusedParam)) ∧
      (f.cls ≠ .immediate → 1 ≤ f.tag.toNat → f.tag.toNat ≤ 32 → (s.tagRec f.tag.toNat).st = .inFlight →
        exec c s = .next ((s.arrive c.env).finishEntry .refusedTagBusy)) ∧
      (f.cls ≠ .immediate → 1 ≤ f.tag.toNat → f.tag.toNat ≤ 32 → (s.tagRec f.tag.toNat).st = .held →
        exec c s = .next ((s.arrive c.env).finishEntry .refusedTagHeld)))) ∧
  (∀ (s : State) (j : SheetJob) (x : SheetEntry) (rest : List SheetEntry) (r : Result),
    s.shc.job = some j → j.todo = x :: rest →
    ∃ k, s.finishEntry r = { s with shc := { s.shc with
        job := some { j with todo := rest.drop k, results := j.results ++ r :: List.replicate k .refusedUnknown } } } ∧
      (∀ y ∈ rest.take k, isKnown y.kind = false) ∧
      ∀ y ys, rest.drop k = y :: ys → isKnown y.kind = true)

/-- The SHC takes a completion: an IN_FLIGHT tag becomes HELD when the capture record takes it, else DONE, with the
outcome, the result words and the current frame; any other completion is discarded (R20, R203). -/
def Obligations.CompletionsReachInFlightTagsAlone : Prop :=
  ∀ (s : State) (h : HeldCompletion), s.shc.tags.length = 32 → s.flt.kinds.length = 26 →
    let c := h.completion
    let done (st : TagState) : TagRec :=
      { st := st, kind := (s.tagRec c.tag).kind, outcome := c.outcome, word1 := c.word1, word2 := c.word2,
        word3 := c.word3, frame := s.ftu.counter }
    ((c.tag = 0 ∨ (s.tagRec c.tag).st ≠ .inFlight) → s.recordCompletion h = s) ∧
    (c.tag ≠ 0 → (s.tagRec c.tag).st = .inFlight → h.hold = none →
      (s.recordCompletion h).tagRec c.tag = done .done ∧ (s.recordCompletion h).flt = s.flt) ∧
    (∀ k, c.tag ≠ 0 → (s.tagRec c.tag).st = .inFlight → h.hold = some k → s.flt.stands k = true →
      (s.flt.entry k).capture.tag = 0 →
      (s.recordCompletion h).tagRec c.tag = done .held ∧
      ((s.recordCompletion h).flt.entry k).capture = { (s.flt.entry k).capture with tag := c.tag } ∧
      ∀ i, i ≠ k → (s.recordCompletion h).flt.entry i = s.flt.entry i) ∧
    ∀ n, 1 ≤ n → n ≠ c.tag → (s.recordCompletion h).tagRec n = s.tagRec n

/-! ## Lens (03) -/

/-- A reply that arrives after a demand was sent is kept, the last to arrive being the one used (R42, log 46). A lens
update in DETACHED with the axes at rest stays there, or, on a reply with attach set, enters ONLINE with each demand at
its clamped actual (R40, R41, R43). In ONLINE each missing reply raises the count; at ten the link is LOST, every move
ends, and LENS_LINK is logged (R44). In LOST a missing reply changes nothing, a reply with attach set brings ONLINE back
with each demand at its actual, the focus on its base where tracking is on, an axis still STALLED, and one with attach
clear detaches the lens (R45). A received reply sets the count to 0: with attach clear the lens is detached (R43,
log 21); with attach set it becomes the view, the demands are sent, an axis in MANUAL follows its actual (R58), and an
axis beyond the window longer than the stall time stalls (R63, log 23); the words with which a move ends there are those
of logs 25 and 61. -/
def Obligations.LensLinkFollowsItsReplies : Prop :=
  (∀ (e : Env) (r : LensReply) (s : State),
    ((s.shc.part = .running ∨ s.shc.part = .resetting) → s.ldu.demandSent = true →
      exec (.lensReply e r) s = .next { s.arrive e with ldu := { s.ldu with reply := some r } }) ∧
    (s.ldu.demandSent = false → exec (.lensReply e r) s = .next (s.arrive e)) ∧
    (s.shc.part ≠ .running → s.shc.part ≠ .resetting → exec (.lensReply e r) s = .next (s.arrive e))) ∧
  (∀ (e : Env) (s : State) (due : Nat), s.ldu.timer = some due → s.ldu.link = .detached → s.stop.requests = [] →
    (∀ x, (s.ldu.axis x).move = .none ∧ (s.ldu.axis x).st = .idle ∧ (s.ldu.axis x).tag = 0) →
    s.ldu.shot = .idle →
    let now := max (s.now + e.elapsed) due
    ((s.ldu.reply = none ∨ ∃ r, s.ldu.reply = some r ∧ r.attached = false) →
      ∃ t, exec (.lensUpdate e) s = .next t ∧ t.now = now ∧ t.ldu.link = .detached ∧ t.ldu.view = s.ldu.view ∧
        t.ldu.drive = false ∧ t.ldu.demandSent = true ∧ t.ldu.reply = none ∧ t.ldu.timer = some (now + 2000) ∧
        (∀ x, (t.ldu.axis x).demand = (s.ldu.axis x).demand ∧ (t.ldu.axis x).vel = (s.ldu.axis x).vel) ∧
        t.ldu.zoom.sent = s.ldu.zoom.demand / 500 ∧ t.ldu.iris.sent = s.ldu.iris.demand / 500 ∧
        t.flt = s.flt ∧ t.shc.tags = s.shc.tags ∧ t.mem = Memory.apply s.mem e.writes) ∧
    (∀ r, s.ldu.reply = some r → r.attached = true → r.focusManual = false → r.irisManual = false →
      r.rocker.toInt.natAbs ≤ 8 → s.ldu.tracking = false → s.ldu.stallCountsZero = true → 1 ≤ s.ldu.stallTime →
      ∃ t, exec (.lensUpdate e) s = .next t ∧ t.now = now ∧ t.ldu.link = .online ∧ t.ldu.missing = 0 ∧
        t.ldu.drive = true ∧ t.ldu.reply = none ∧ t.ldu.timer = some (now + 2000) ∧
        t.ldu.zoom.demand = clampInt 0 4095 r.zoom * 500 ∧ t.ldu.focus.demand = clampInt 0 4095 r.focus * 500 ∧
        t.ldu.iris.demand = clampInt 0 1023 r.iris * 500 ∧
        (∀ x, (t.ldu.axis x).vel = 0 ∧ (t.ldu.axis x).st = .idle ∧
          (t.ldu.axis x).sent = (t.ldu.axis x).demand / 500) ∧
        t.ldu.scale = s.ldu.scale ∧ t.ldu.track = s.ldu.track ∧ t.flt = s.flt ∧ t.shc.tags = s.shc.tags)) ∧
  (∀ (e : Env) (s : State) (due : Nat), s.ldu.timer = some due → s.ldu.link = .online → s.ldu.reply = none →
    s.stop.requests = [] →
    (s.ldu.missing + 1 < 10 → ∃ t, exec (.lensUpdate e) s = .next t ∧ t.ldu.link = .online ∧
      t.ldu.missing = s.ldu.missing + 1 ∧ t.ldu.view = s.ldu.view ∧ t.ldu.drive = true ∧ t.flt = s.flt) ∧
    (10 ≤ s.ldu.missing + 1 → s.flt.kinds.length = 26 → asksNoStop s .lensLink = true →
      ∃ t, exec (.lensUpdate e) s = .next t ∧ t.ldu.link = .lost ∧ t.ldu.drive = false ∧ t.ldu.shot = .idle ∧
        (∀ x, (t.ldu.axis x).move = .none ∧ (t.ldu.axis x).vel = 0 ∧ (t.ldu.axis x).tag = 0) ∧
        t.flt.stands .lensLink = true ∧ (t.flt.entry .lensLink).count = min 255 ((s.flt.entry .lensLink).count + 1) ∧
        (s.flt.stands .lensLink = false →
          (t.flt.entry .lensLink).capture.detail1 = BitVec.ofInt 32 s.ldu.zoom.sent ∧
          (t.flt.entry .lensLink).capture.detail2 = BitVec.ofInt 32 s.ldu.focus.sent))) ∧
  (∀ (e : Env) (s : State) (due : Nat), s.ldu.timer = some due → s.ldu.link = .lost → s.stop.requests = [] →
    (∀ x, (s.ldu.axis x).move = .none ∧ (s.ldu.axis x).st ≠ .moving ∧ (s.ldu.axis x).tag = 0) → s.ldu.shot = .idle →
    let now := max (s.now + e.elapsed) due
    (s.ldu.reply = none → ∃ t, exec (.lensUpdate e) s = .next t ∧ t.now = now ∧ t.ldu.link = .lost ∧
      t.ldu.missing = s.ldu.missing ∧ t.ldu.view = s.ldu.view ∧ t.ldu.drive = false ∧ t.ldu.demandSent = true ∧
      t.ldu.timer = some (now + 2000) ∧ t.ldu.tracking = s.ldu.tracking ∧ t.ldu.focusBased = s.ldu.focusBased ∧
      t.ldu.scale = s.ldu.scale ∧ t.ldu.track = s.ldu.track ∧ t.ldu.shot = .idle ∧
      (∀ x, (t.ldu.axis x).demand = (s.ldu.axis x).demand ∧ (t.ldu.axis x).st = (s.ldu.axis x).st ∧
        (t.ldu.axis x).vel = (s.ldu.axis x).vel ∧ (t.ldu.axis x).move = .none ∧
        (t.ldu.axis x).sent = s.ldu.demandPos x) ∧
      t.flt = s.flt ∧ t.shc.tags = s.shc.tags ∧ t.mem = Memory.apply s.mem e.writes) ∧
    (∀ r, s.ldu.reply = some r → r.attached = true → r.focusManual = false → r.irisManual = false →
      r.rocker.toInt.natAbs ≤ 8 → (∀ x, (s.ldu.axis x).stallCount < s.ldu.stallTime) →
      let actual (x : AxisId) : Int := match x with
        | .zoom => clampInt 0 4095 r.zoom | .focus => clampInt 0 4095 r.focus | .iris => clampInt 0 1023 r.iris
      let based := s.ldu.tracking = true ∧ s.ldu.focus.st ≠ .stalled
      ∃ t, exec (.lensUpdate e) s = .next t ∧ t.now = now ∧ t.ldu.link = .online ∧ t.ldu.missing = 0 ∧
        t.ldu.drive = true ∧ t.ldu.demandSent = true ∧ t.ldu.reply = none ∧ t.ldu.timer = some (now + 2000) ∧
        (∀ x, (t.ldu.axis x).st = (s.ldu.axis x).st ∧ (t.ldu.axis x).vel = 0 ∧ (t.ldu.axis x).move = .none ∧
          (t.ldu.axis x).sent = actual x) ∧
        t.ldu.zoom.demand = actual .zoom * 500 ∧ t.ldu.iris.demand = actual .iris * 500 ∧
        t.ldu.focus.demand = (if based then actual .focus - s.ldu.correction (actual .zoom) else actual .focus) * 500 ∧
        (t.ldu.focusBased = true ↔ based) ∧ t.ldu.tracking = s.ldu.tracking ∧ t.ldu.scale = s.ldu.scale ∧
        t.ldu.track = s.ldu.track ∧ t.ldu.shot = .idle ∧ t.flt = s.flt ∧ t.shc.tags = s.shc.tags) ∧
    (∀ r, s.ldu.reply = some r → r.attached = false →
      ∃ t, exec (.lensUpdate e) s = .next t ∧ t.now = now ∧ t.ldu.link = .detached ∧ t.ldu.drive = false ∧
        t.ldu.reply = none ∧ t.ldu.timer = some (now + 2000) ∧ t.ldu.tracking = false ∧
        t.ldu.scale.valid = false ∧ t.ldu.track.valid = false ∧ t.ldu.shots = s.ldu.shots ∧
        (∀ x, (t.ldu.axis x).st = .idle ∧ (t.ldu.axis x).vel = 0 ∧ (t.ldu.axis x).stallCount = 0) ∧
        t.ldu.zoom.demand = s.ldu.zoom.demand ∧ t.ldu.iris.demand = s.ldu.iris.demand ∧
        t.flt = s.flt ∧ t.shc.tags = s.shc.tags)) ∧
  (∀ (e : Env) (s : State) (due : Nat) (r : LensReply), s.ldu.timer = some due → s.ldu.link = .online →
    s.ldu.reply = some r → s.stop.requests = [] →
    let now := max (s.now + e.elapsed) due
    (r.attached = false →
      ∃ t, exec (.lensUpdate e) s = .next t ∧ t.now = now ∧ t.ldu.link = .detached ∧ t.ldu.missing = 0 ∧
        t.ldu.drive = false ∧ t.ldu.reply = none ∧ t.ldu.timer = some (now + 2000) ∧ t.ldu.view = s.ldu.view ∧
        t.ldu.tracking = false ∧ t.ldu.scale.valid = false ∧ t.ldu.track.valid = false ∧ t.ldu.shot = .idle ∧
        t.ldu.shots = s.ldu.shots ∧
        (∀ x, (t.ldu.axis x).st = .idle ∧ (t.ldu.axis x).move = .none ∧ (t.ldu.axis x).vel = 0 ∧
          (t.ldu.axis x).stallCount = 0 ∧ (t.ldu.axis x).tag = 0) ∧
        t.ldu.zoom.demand = s.ldu.zoom.demand ∧ t.ldu.iris.demand = s.ldu.iris.demand ∧ t.flt = s.flt ∧
        (s.shc.job = none → ∀ x, s.inFlight (s.ldu.axis x).tag = true →
          (t.tagRec (s.ldu.axis x).tag).st = .done ∧ (t.tagRec (s.ldu.axis x).tag).outcome = .aborted ∧
          (t.tagRec (s.ldu.axis x).tag).word3 = 9)) ∧
    (r.attached = true → asksNoStop s .lensStall = true →
      let view : LensView :=
        { zoom := clampInt 0 4095 r.zoom, focus := clampInt 0 4095 r.focus, iris := clampInt 0 1023 r.iris
          rocker := max (-127) r.rocker.toInt, button := r.button, focusManual := r.focusManual
          irisManual := r.irisManual }
      let seen : Ldu := { s.ldu with view := view }
      let gap (x : AxisId) : Int := ((s.ldu.axis x).sent - seen.actual x).natAbs
      (∃ t, exec (.lensUpdate e) s = .next t ∧ t.now = now ∧ t.ldu.link = .online ∧ t.ldu.missing = 0 ∧
        t.ldu.drive = true ∧ t.ldu.demandSent = true ∧ t.ldu.reply = none ∧ t.ldu.timer = some (now + 2000) ∧
        t.ldu.view = view ∧ (∀ x, (t.ldu.axis x).sent = t.ldu.demandPos x) ∧
        t.ldu.surge = decide (1500 < t.ldu.zoom.vel.natAbs) ∧ t.ldu.tracking = s.ldu.tracking ∧
        t.ldu.scale = s.ldu.scale ∧ t.ldu.track = s.ldu.track ∧ t.ldu.shots = s.ldu.shots) ∧
      (∀ x, seen.manual x = true →
        let a := s.ldu.axis x
        ∃ t, exec (.lensUpdate e) s = .next t ∧ (t.ldu.axis x).demand = seen.actual x * 500 ∧
          (t.ldu.axis x).sent = seen.actual x ∧ (t.ldu.axis x).vel = 0 ∧ (t.ldu.axis x).move = .none ∧
          (t.ldu.axis x).tag = 0 ∧ (t.ldu.axis x).stallCount = 0 ∧
          (t.ldu.axis x).st = (if a.st = .stalled then .stalled else .idle) ∧
          (s.shc.job = none → s.inFlight a.tag = true → a.move ≠ .none → a.gliding = false →
            a.tag ≠ s.ldu.seqTag → (∀ y, y ≠ x → (s.ldu.axis y).tag ≠ a.tag) →
            t.tagRec a.tag = s.ended a.tag .done .preempted (BitVec.ofInt 32 (s.ldu.demandPos x))
              (BitVec.ofInt 32 (seen.actual x)) 6)) ∧
      (∀ x, r.rocker.toInt.natAbs ≤ 8 → r.button = false → (s.ldu.axis x).st ≠ .stalled → seen.manual x = false →
        s.ldu.stallWindow < gap x → s.ldu.stallTime < (s.ldu.axis x).stallCount + 1 →
        (∀ y, y ≠ x → gap y ≤ s.ldu.stallWindow) → s.flt.kinds.length = 26 →
        let a := s.ldu.axis x
        let sequence := s.ldu.shot.running = true ∧ s.ldu.seqTag ≠ 0
        let tag := if sequence then s.ldu.seqTag else a.tag
        ∃ t, exec (.lensUpdate e) s = .next t ∧ (t.ldu.axis x).st = .stalled ∧
          (t.ldu.axis x).demand = seen.actual x * 500 ∧ (t.ldu.axis x).sent = seen.actual x ∧
          (t.ldu.axis x).vel = 0 ∧ (t.ldu.axis x).move = .none ∧ (t.ldu.axis x).tag = 0 ∧ t.ldu.shot = .idle ∧
          (s.shc.job = none → (∀ y, y ≠ x → (s.ldu.axis y).tag ≠ tag ∨ tag = 0) →
            logged s t .lensStall (match x with | .zoom => .zoom | .focus => .focus | .iris => .iris)
              (BitVec.ofInt 32 a.sent) (BitVec.ofInt 32 (seen.actual x)) tag ∧
            (s.inFlight tag = true →
              t.tagRec tag = s.ended tag (if s.flt.stands .lensStall then .done else .held) .stalled
                (if sequence then BitVec.ofNat 32 s.ldu.shot.code.2 else BitVec.ofInt 32 (seen.actual x))
                (if sequence then BitVec.ofNat 32 s.ldu.ignored else BitVec.ofInt 32 (seen.actual x)) 7)))))

/-- ZOOM_RATE accepted begins a rate move with the clamped rate; ZOOM_TO, FOCUS_TO and IRIS_TO a position move to the
clamped target in sub-units with the clamped cap, for focus on its base less the correction at the zoom position last
sent, by the table as it is held (log 61). The step follows the slots, a zoom order makes the owner ORDER, and the tag
is IN_FLIGHT (R49 to R52, R57, R62). The axis has no tagged move in flight, and no sequence runs. -/
def Obligations.AxisMovesBegin : Prop :=
  (∀ (e : Env) (s : State) (tag : Byte) (rate : Half), dispatches s .optional 0x20 tag (p2 rate) = true →
    s.ldu.link = .online → s.ldu.gripRefuses = false → s.ldu.zoom.st ≠ .stalled → s.ldu.zoom.tag = 0 →
    s.ldu.shot = .idle →
    let v := clampInt (-4000) 4000 rate.toInt
    let step := if s.slotA.st = .recording ∨ s.slotB.st = .recording then s.ldu.softStep else s.ldu.hardStep
    exec (.zoomRate e tag rate) s = .next (State.finishEntry
      { (s.arrive e).acceptTag 0x20 tag with
        ldu := { s.ldu with
          owner := .order
          zoom := { s.ldu.zoom with st := .moving, move := .rate v, step := step, tag := tag.toNat } } }
      (if v ≠ rate.toInt then .clamped else if tag = 0 then .done else .accepted))) ∧
  (∀ (e : Env) (s : State) (tag : Byte) (target cap : Half), s.ldu.link = .online → s.ldu.shot = .idle →
    let step := if s.slotA.st = .recording ∨ s.slotB.st = .recording then s.ldu.softStep else s.ldu.hardStep
    let moved (a : Axis) (p c : Int) : Axis :=
      { a with st := .moving, move := .position p c, step := step, tag := tag.toNat }
    let answer (top vmax : Int) : Result :=
      if (target.toNat : Int) ≤ top ∧ (1 : Int) ≤ cap.toNat ∧ (cap.toNat : Int) ≤ vmax then
        (if tag = 0 then .done else .accepted)
      else .clamped
    let p (top : Int) : Int := clampInt 0 top target.toNat
    let c (vmax : Int) : Int := clampInt 1 vmax cap.toNat
    (dispatches s .optional 0x21 tag (p2 target ++ p2 cap) = true → s.ldu.gripRefuses = false →
      s.ldu.zoom.st ≠ .stalled → s.ldu.zoom.tag = 0 →
      exec (.zoomTo e tag target cap) s = .next (State.finishEntry
        { (s.arrive e).acceptTag 0x21 tag with
          ldu := { s.ldu with owner := .order, zoom := moved s.ldu.zoom (p 4095 * 500) (c 4000) } }
        (answer 4095 4000))) ∧
    (dispatches s .optional 0x22 tag (p2 target ++ p2 cap) = true → s.ldu.view.focusManual = false →
      s.ldu.focus.st ≠ .stalled → s.ldu.focus.tag = 0 →
      let base := if s.ldu.focusBased then p 4095 - s.ldu.track.value s.ldu.zoom.sent else p 4095
      exec (.focusTo e tag target cap) s = .next (State.finishEntry
        { (s.arrive e).acceptTag 0x22 tag with
          ldu := { s.ldu with focus := moved s.ldu.focus (base * 500) (c 4000) } }
        (answer 4095 4000))) ∧
    (dispatches s .optional 0x23 tag (p2 target ++ p2 cap) = true → s.ldu.view.irisManual = false →
      s.ldu.iris.st ≠ .stalled → s.ldu.iris.tag = 0 →
      exec (.irisTo e tag target cap) s = .next (State.finishEntry
        { (s.arrive e).acceptTag 0x23 tag with
          ldu := { s.ldu with iris := moved s.ldu.iris (p 1023 * 500) (c 2000) } }
        (answer 1023 2000))))

/-- The refusals of the axis orders, first the link, then the claim, then the manual mode, then the stall (R46, R57,
R58, R63). -/
def Obligations.AxisOrdersRefusedInOrder : Prop :=
  ∀ (e : Env) (s : State) (tag : Byte) (rate target cap : Half),
    let u := s.arrive e
    (dispatches s .optional 0x20 tag (p2 rate) = true →
      (s.ldu.link ≠ .online → exec (.zoomRate e tag rate) s = .next (u.finishEntry .refusedState)) ∧
      (s.ldu.link = .online → s.ldu.gripRefuses = true →
        exec (.zoomRate e tag rate) s = .next (u.finishEntry .refusedGrip)) ∧
      (s.ldu.link = .online → s.ldu.gripRefuses = false → s.ldu.zoom.st = .stalled →
        exec (.zoomRate e tag rate) s = .next (u.finishEntry .refusedStalled))) ∧
    (dispatches s .optional 0x21 tag (p2 target ++ p2 cap) = true →
      (s.ldu.link ≠ .online → exec (.zoomTo e tag target cap) s = .next (u.finishEntry .refusedState)) ∧
      (s.ldu.link = .online → s.ldu.gripRefuses = true →
        exec (.zoomTo e tag target cap) s = .next (u.finishEntry .refusedGrip)) ∧
      (s.ldu.link = .online → s.ldu.gripRefuses = false → s.ldu.zoom.st = .stalled →
        exec (.zoomTo e tag target cap) s = .next (u.finishEntry .refusedStalled))) ∧
    (dispatches s .optional 0x22 tag (p2 target ++ p2 cap) = true →
      (s.ldu.link ≠ .online → exec (.focusTo e tag target cap) s = .next (u.finishEntry .refusedState)) ∧
      (s.ldu.link = .online → s.ldu.view.focusManual = true →
        exec (.focusTo e tag target cap) s = .next (u.finishEntry .refusedManual)) ∧
      (s.ldu.link = .online → s.ldu.view.focusManual = false → s.ldu.focus.st = .stalled →
        exec (.focusTo e tag target cap) s = .next (u.finishEntry .refusedStalled))) ∧
    (dispatches s .optional 0x23 tag (p2 target ++ p2 cap) = true →
      (s.ldu.link ≠ .online → exec (.irisTo e tag target cap) s = .next (u.finishEntry .refusedState)) ∧
      (s.ldu.link = .online → s.ldu.view.irisManual = true →
        exec (.irisTo e tag target cap) s = .next (u.finishEntry .refusedManual)) ∧
      (s.ldu.link = .online → s.ldu.view.irisManual = false → s.ldu.iris.st = .stalled →
        exec (.irisTo e tag target cap) s = .next (u.finishEntry .refusedStalled)))

/-- The grip refuses a zoom order exactly with the lockout clear, the release wait clear and the rocker outside the
deadband (R55, R57); ZOOM_STOP and ZOOM_CLAIM (R46, R53, R57). A lens update whose reply shows the rocker outside the
deadband gives the zoom to the grip, and a grip move follows the rocker to its end (R56, log 23), judged before the
clamp of R48 (log 66): the zoom is not STALLED and does not stall at that update. -/
def Obligations.ZoomStopAndClaim : Prop :=
  (∀ l : Ldu, l.gripRefuses = true ↔ l.lockout = false ∧ l.releaseWait = false ∧ 8 < l.view.rocker.natAbs) ∧
  (∀ (e : Env) (s : State), dispatches s .immediate 0x24 0 [] = true →
    (s.ldu.link ≠ .online → exec (.zoomStop e 0) s = .next ((s.arrive e).finishEntry .refusedState)) ∧
    (s.ldu.link = .online → s.ldu.gripRefuses = true →
      exec (.zoomStop e 0) s = .next ((s.arrive e).finishEntry .refusedGrip)) ∧
    (s.ldu.link = .online → s.ldu.gripRefuses = false → s.ldu.zoom.st = .stalled →
      exec (.zoomStop e 0) s = .next (State.finishEntry
        { s.arrive e with ldu := { s.ldu with owner := .order } } .done)) ∧
    (s.ldu.link = .online → s.ldu.gripRefuses = false → s.ldu.zoom.st ≠ .stalled → s.ldu.shot = .idle →
      exec (.zoomStop e 0) s = .next (State.finishEntry
        { s.arrive e with ldu := { s.ldu with
            owner := .order
            zoom := { s.ldu.zoom with move := match s.ldu.zoom.move with
              | .rate _ | .position _ _ | .grip _ => .stopping
              | m => m } } } .done))) ∧
  (∀ (e : Env) (s : State) (k : Byte), dispatches s .immediate 0x25 0 (p1 k) = true →
    (k = 0 → exec (.zoomClaim e 0 k) s = .next (State.finishEntry
      { s.arrive e with ldu := { s.ldu with lockout := false } } .done)) ∧
    (k = 1 → s.ldu.owner = .order → exec (.zoomClaim e 0 k) s = .next (State.finishEntry
      { s.arrive e with ldu := { s.ldu with lockout := true } } .done)) ∧
    (k = 1 → s.ldu.owner = .grip → exec (.zoomClaim e 0 k) s = .next (State.finishEntry
      { s.arrive e with ldu := { s.ldu with
          lockout := true, owner := .order
          zoom := { s.ldu.zoom with move := match s.ldu.zoom.move with
            | .grip _ => .stopping
            | m => m } } } .done)) ∧
    (1 < k.toNat → exec (.zoomClaim e 0 k) s = .next ((s.arrive e).finishEntry .refusedParam))) ∧
  (∀ (e : Env) (s : State) (due : Nat) (r : LensReply), s.ldu.timer = some due → s.ldu.link = .online →
    s.ldu.reply = some r → r.attached = true → s.stop.requests = [] → asksNoStop s .lensStall = true →
    s.ldu.lockout = false → s.ldu.zoom.st ≠ .stalled →
    let rocker := max (-127) r.rocker.toInt
    let actual := clampInt 0 4095 r.zoom
    let rate := if 8 < rocker.natAbs then (rocker * 4000).tdiv 127 else 0
    let next (v step : Int) : Int := if v < rate then min rate (v + step) else max rate (v - step)
    ((s.ldu.zoom.sent - actual).natAbs : Int) ≤ s.ldu.stallWindow →
    (8 < rocker.natAbs → s.ldu.releaseWait = false → (∀ k, s.ldu.zoom.move ≠ .grip k) →
      (s.ldu.owner = .order ∨ s.ldu.shot = .idle) →
      let step := if s.slotA.st = .recording ∨ s.slotB.st = .recording then s.ldu.softStep else s.ldu.hardStep
      let v := next s.ldu.zoom.vel step
      let d := s.ldu.zoom.demand + v
      ∃ t, exec (.lensUpdate e) s = .next t ∧ t.ldu.owner = .grip ∧ t.ldu.shot = .idle ∧ t.ldu.zoom.st = .moving ∧
        t.ldu.zoom.move = .grip rate ∧ t.ldu.zoom.step = step ∧ t.ldu.zoom.tag = 0 ∧
        t.ldu.zoom.demand = max 0 (min 2047500 d) ∧
        t.ldu.zoom.vel = (if 0 ≤ d ∧ d ≤ 2047500 then v else 0) ∧
        (s.ldu.owner = .order → s.shc.job = none → s.inFlight s.ldu.zoom.tag = true →
          t.tagRec s.ldu.zoom.tag = s.ended s.ldu.zoom.tag .done .preempted
            (BitVec.ofInt 32 (s.ldu.zoom.demand / 500)) (BitVec.ofInt 32 actual) 5) ∧
        (s.ldu.owner = .order → s.shc.job = none → s.ldu.shot.running = true → s.inFlight s.ldu.seqTag = true →
          s.ldu.seqTag ≠ s.ldu.zoom.tag →
          t.tagRec s.ldu.seqTag = s.ended s.ldu.seqTag .done .preempted (BitVec.ofNat 32 s.ldu.shot.code.2)
            (BitVec.ofNat 32 s.ldu.ignored) 5)) ∧
    (∀ k, s.ldu.zoom.move = .grip k → (s.ldu.releaseWait = false ∨ rocker.natAbs ≤ 8) → s.ldu.shot = .idle →
      r.button = false →
      let v := next s.ldu.zoom.vel s.ldu.zoom.step
      let d := s.ldu.zoom.demand + v
      ∃ t, exec (.lensUpdate e) s = .next t ∧ t.ldu.owner = s.ldu.owner ∧
        t.ldu.zoom.move = (if rate = 0 ∧ v = 0 then .none else .grip rate) ∧
        t.ldu.zoom.demand = (if rate = 0 ∧ v = 0 then s.ldu.zoom.demand else max 0 (min 2047500 d)) ∧
        t.ldu.zoom.vel = (if 0 ≤ d ∧ d ≤ 2047500 then v else 0) ∧
        (rate = 0 → v = 0 → t.ldu.zoom.st = .idle)))

/-- LENS_CONFIG sets its four values, clamped (R49); LOAD_LENS_TABLE reads 17 points and judges them, and a COMMON_BUS
names the lowest failing address (R60, log 9); TRACKING_ON and TRACKING_OFF (R62), where a TRACKING_ON with the focus
demand already on its base leaves the base as it stands (the model's choice, log 69); AXIS_RECOVER (R64). Every step
keeps a valid scale table within 500 to 60,000 and the zoom actual within 0 to 4095, so that the scale offered lies from
500 to 60,000 (R42, R60, R61). -/
def Obligations.LensSettings : Prop :=
  ((∀ (e : Env) (s : State) (hard soft : Byte) (window time : Half),
    dispatches s .immediate 0x26 0 (p1 hard ++ p1 soft ++ p2 window ++ p2 time) = true →
    exec (.lensConfig e 0 hard soft window time) s = .next (State.finishEntry
      { s.arrive e with ldu := { s.ldu with
          hardStep := clampInt 1 200 hard.toNat, softStep := clampInt 1 200 soft.toNat
          stallWindow := clampInt 16 1023 window.toNat, stallTime := clampNat 10 1000 time.toNat } }
      (if (1 ≤ hard.toNat ∧ hard.toNat ≤ 200) ∧ (1 ≤ soft.toNat ∧ soft.toNat ≤ 200) ∧
          (16 ≤ window.toNat ∧ window.toNat ≤ 1023) ∧ (10 ≤ time.toNat ∧ time.toNat ≤ 1000) then .done
       else .clamped))) ∧
  (∀ (e : Env) (s : State) (table : Byte) (a : Word), dispatches s .immediate 0x27 0 (p1 table ++ p4 a) = true →
    let u := s.arrive e
    let word (i : Nat) : Nat := ofLe (((Memory.readAll u.mem a.toNat 68).drop (4 * i)).take 4)
    let unsignedPoints := (List.range 17).map fun i => (word i : Int)
    let signedPoints := (List.range 17).map fun i =>
      if word i < 2147483648 then (word i : Int) else (word i : Int) - 4294967296
    (s.ldu.link ≠ .online → exec (.loadLensTable e 0 table a) s = .next (u.finishEntry .refusedState)) ∧
    (s.ldu.link = .online → (1 < table.toNat ∨ a.toNat % 4 ≠ 0) →
      exec (.loadLensTable e 0 table a) s = .next (u.finishEntry .refusedParam)) ∧
    (∀ bad, s.ldu.link = .online → table.toNat ≤ 1 → a.toNat % 4 = 0 → u.busError a.toNat 68 = some bad →
      asksNoStop s .commonBus = true →
      exec (.loadLensTable e 0 table a) s =
        .next ((u.fault .commonBus .none 2 (BitVec.ofNat 32 bad)).finishEntry .refusedParam)) ∧
    (s.ldu.link = .online → a.toNat % 4 = 0 → u.busError a.toNat 68 = none →
      (table = 0 → (∀ i, i < 17 → 500 ≤ word i ∧ word i ≤ 60000) → (∀ i, i < 16 → word i ≤ word (i + 1)) →
        exec (.loadLensTable e 0 table a) s = .next (State.finishEntry
          { u with ldu := { s.ldu with scale := ⟨true, unsignedPoints⟩ } } .done)) ∧
      (table = 1 → (∀ p ∈ signedPoints, -2048 ≤ p ∧ p ≤ 2047) →
        exec (.loadLensTable e 0 table a) s = .next (State.finishEntry
          { u with ldu := { s.ldu with track := ⟨true, signedPoints⟩ } } .done)) ∧
      (table = 0 → asksNoStop s .lensTable = true → ∀ i, i < 17 →
        (∀ k, k < i → 500 ≤ word k ∧ word k ≤ 60000) → (∀ k, k + 1 < i → word k ≤ word (k + 1)) →
        (word i < 500 ∨ 60000 < word i ∨ (0 < i ∧ word i < word (i - 1))) →
        exec (.loadLensTable e 0 table a) s =
          .next ((u.fault .lensTable .none 0 (BitVec.ofNat 32 i)).finishEntry .refusedParam))))) ∧
  ((∀ (e : Env) (s : State), dispatches s .immediate 0x28 0 [] = true →
    let busy := s.ldu.focus.moving = true ∨ s.ldu.shot.running = true
    (s.ldu.link ≠ .online → exec (.trackingOn e 0) s = .next ((s.arrive e).finishEntry .refusedState)) ∧
    (s.ldu.link = .online → (s.ldu.track.valid = false ∨ busy) →
      exec (.trackingOn e 0) s = .next ((s.arrive e).finishEntry .refusedState)) ∧
    (s.ldu.link = .online → s.ldu.track.valid = true → ¬busy → s.ldu.focusBased = false →
      s.ldu.focus.st ≠ .stalled → s.ldu.view.focusManual = false →
      exec (.trackingOn e 0) s = .next (State.finishEntry
        { s.arrive e with ldu := { s.ldu with
            tracking := true, focusBased := true
            focus := { s.ldu.focus with
              demand := (s.ldu.focus.sent - s.ldu.track.value s.ldu.zoom.sent) * 500 } } } .done)) ∧
    (s.ldu.link = .online → s.ldu.track.valid = true → ¬busy →
      (s.ldu.focusBased = true ∨ s.ldu.focus.st = .stalled ∨ s.ldu.view.focusManual = true) →
      exec (.trackingOn e 0) s = .next (State.finishEntry
        { s.arrive e with ldu := { s.ldu with tracking := true } } .done))) ∧
  (∀ (e : Env) (s : State), dispatches s .immediate 0x29 0 [] = true →
    let busy := s.ldu.focus.moving = true ∨ s.ldu.shot.running = true
    (busy → exec (.trackingOff e 0) s = .next ((s.arrive e).finishEntry .refusedState)) ∧
    (¬busy → s.ldu.focusBased = true → exec (.trackingOff e 0) s = .next (State.finishEntry
      { s.arrive e with ldu := { s.ldu with
          tracking := false, focusBased := false
          focus := { s.ldu.focus with demand := s.ldu.focus.sent * 500 } } } .done)) ∧
    (¬busy → s.ldu.focusBased = false → exec (.trackingOff e 0) s = .next (State.finishEntry
      { s.arrive e with ldu := { s.ldu with tracking := false } } .done))) ∧
  (∀ (e : Env) (s : State) (k : Byte), dispatches s .immediate 0x2A 0 (p1 k) = true →
    (s.ldu.link ≠ .online → exec (.axisRecover e 0 k) s = .next ((s.arrive e).finishEntry .refusedState)) ∧
    (s.ldu.link = .online → 2 < k.toNat →
      exec (.axisRecover e 0 k) s = .next ((s.arrive e).finishEntry .refusedParam)) ∧
    (∀ x, s.ldu.link = .online → axisOf k = some x → (s.ldu.axis x).st ≠ .stalled →
      exec (.axisRecover e 0 k) s = .next ((s.arrive e).finishEntry .refusedState)) ∧
    (∀ x, s.ldu.link = .online → axisOf k = some x → (s.ldu.axis x).st = .stalled →
      (x = .focus → s.ldu.tracking = false) →
      exec (.axisRecover e 0 k) s = .next (State.finishEntry
        { s.arrive e with ldu := s.ldu.setAxis x { s.ldu.axis x with st := .idle, vel := 0, stallCount := 0 } }
        .done)))) ∧
  (Keeps scaleInRange ∧ ∀ s, scaleInRange s → 500 ≤ s.ldu.scaleOffered ∧ s.ldu.scaleOffered ≤ 60000)

/-- SHOT_STORE and SHOT_MODE (R65; the shot index is numeric, log 26; a value not used does not count for CLAMPED, log
48). SHOT_TRIGGER is refused in its cases; accepted, the glide to its target shot begins, with the axes that are neither
STALLED nor in MANUAL, each from its demand to the shot's position, its step kept (R57, R65, R66, log 49). The axes in
flight carry no tag, and no sequence tag is replaced. A lens update with a reply that shows nothing new advances a glide
by its share, ends it in a dwell or in HOLDING with the sequence tag COMPLETE, and counts a dwell on to the next glide
(R54, R66 to R68). -/
def Obligations.ShotsStoredAndTriggered : Prop :=
  ((∀ (e : Env) (s : State) (n source : Byte) (z f i travel dwell : Half),
    dispatches s .immediate 0x2B 0 (p1 n ++ p1 source ++ p2 z ++ p2 f ++ p2 i ++ p2 travel ++ p2 dwell) = true →
    let kept := n.toNat ≤ 3 ∧ 1 ≤ travel.toNat ∧ travel.toNat ≤ 600
    let stored (h : Shot) : State := { s.arrive e with
      ldu := { s.ldu with shots := s.ldu.shots.set (min n.toNat 3) h } }
    (source = 0 → exec (.shotStore e 0 n source z f i travel dwell) s = .next (State.finishEntry
      (stored { valid := true, zoom := clampInt 0 4095 z.toNat, focus := clampInt 0 4095 f.toNat,
                iris := clampInt 0 1023 i.toNat, travel := clampNat 1 600 travel.toNat, dwell := dwell.toNat })
      (if kept ∧ z.toNat ≤ 4095 ∧ f.toNat ≤ 4095 ∧ i.toNat ≤ 1023 then .done else .clamped))) ∧
    (source = 1 → s.ldu.link = .online →
      exec (.shotStore e 0 n source z f i travel dwell) s = .next (State.finishEntry
        (stored { valid := true, zoom := s.ldu.view.zoom, focus := s.ldu.view.focus, iris := s.ldu.view.iris,
                  travel := clampNat 1 600 travel.toNat, dwell := dwell.toNat })
        (if kept then .done else .clamped))) ∧
    (source = 1 → s.ldu.link ≠ .online →
      exec (.shotStore e 0 n source z f i travel dwell) s = .next ((s.arrive e).finishEntry .refusedState)) ∧
    (1 < source.toNat →
      exec (.shotStore e 0 n source z f i travel dwell) s = .next ((s.arrive e).finishEntry .refusedParam))) ∧
  (∀ (e : Env) (s : State) (mode count policy : Byte),
    dispatches s .immediate 0x2C 0 (p1 mode ++ p1 count ++ p1 policy) = true →
    ((1 < mode.toNat ∨ 1 < policy.toNat) →
      exec (.shotMode e 0 mode count policy) s = .next ((s.arrive e).finishEntry .refusedParam)) ∧
    (mode.toNat ≤ 1 → policy.toNat ≤ 1 → s.ldu.shot.running = true →
      exec (.shotMode e 0 mode count policy) s = .next ((s.arrive e).finishEntry .refusedState)) ∧
    (mode.toNat ≤ 1 → policy.toNat ≤ 1 → s.ldu.shot.running = false →
      exec (.shotMode e 0 mode count policy) s = .next (State.finishEntry
        { s.arrive e with ldu := { s.ldu with
            shotMode := if mode = 0 then .chain else .step
            shotCount := clampNat 1 4 count.toNat
            shotPolicy := if policy = 0 then .ignore else .restart
            shot := .idle } }
        (if 1 ≤ count.toNat ∧ count.toNat ≤ 4 then .done else .clamped))))) ∧
  (∀ (e : Env) (s : State) (tag : Byte), dispatches s .optional 0x2D tag [] = true →
    (s.ldu.link ≠ .online → exec (.shotTrigger e tag) s = .next ((s.arrive e).finishEntry .refusedState)) ∧
    (s.ldu.link = .online → s.ldu.triggerTarget = none →
      exec (.shotTrigger e tag) s = .next ((s.arrive e).finishEntry .refusedState)) ∧
    (∀ n, s.ldu.link = .online → s.ldu.triggerTarget = some n →
      (s.ldu.gripRefuses = true → exec (.shotTrigger e tag) s = .next ((s.arrive e).finishEntry .refusedGrip)) ∧
      (s.ldu.gripRefuses = false → s.ldu.shotMode = .chain → s.ldu.shotPolicy = .ignore →
        s.ldu.shot.running = true →
        exec (.shotTrigger e tag) s = .next (State.finishEntry
          { s.arrive e with ldu := { s.ldu with ignored := min 65535 (s.ldu.ignored + 1) } } .refusedState)) ∧
      (s.ldu.gripRefuses = false →
        ¬(s.ldu.shotMode = .chain ∧ s.ldu.shotPolicy = .ignore ∧ s.ldu.shot.running = true) →
        s.ldu.seqTag = 0 → (∀ x, (s.ldu.axis x).tag = 0) → s.ldu.focusBased = false →
        ∃ t, exec (.shotTrigger e tag) s = .next t ∧ t.ldu.owner = .order ∧ t.ldu.seqTag = tag.toNat ∧
          t.ldu.shot = .gliding n 0 (max 1 (s.ftu.format.rate.updates (s.ldu.shotRec n).travel)) ∧
          (∀ x, (s.ldu.axis x).st ≠ .stalled → s.ldu.manual x = false →
            t.ldu.axis x = { s.ldu.axis x with
              st := .moving
              move := .glide (s.ldu.axis x).demand ((s.ldu.shotRec n).position x * 500) }) ∧
          (∀ x, ((s.ldu.axis x).st = .stalled ∨ s.ldu.manual x = true) → t.ldu.axis x = s.ldu.axis x) ∧
          t.shc = (((s.arrive e).acceptTag 0x2D tag).finishEntry (if tag = 0 then .done else .accepted)).shc ∧
          t.flt = s.flt ∧ t.stop = s.stop ∧ t.mem = Memory.apply s.mem e.writes))) ∧
  (∀ (e : Env) (s : State) (due : Nat) (r : LensReply), s.ldu.timer = some due → s.ldu.link = .online →
    s.ldu.reply = some r → r.attached = true → r.rocker.toInt.natAbs ≤ 8 → r.button = false → s.stop.requests = [] →
    let seen : Ldu := { s.ldu with view := viewOf r }
    let updates (frames : Nat) : Nat := s.ftu.format.rate.updates frames
    (∀ x, (((s.ldu.axis x).sent - seen.actual x).natAbs : Int) ≤ s.ldu.stallWindow) →
    (∀ n k total, s.ldu.shot = .gliding n k total → k + 1 < total →
      ∃ t, exec (.lensUpdate e) s = .next t ∧ t.ldu.shot = .gliding n (k + 1) total ∧ t.ldu.seqTag = s.ldu.seqTag ∧
        t.flt = s.flt ∧
        ∀ x a b, (s.ldu.axis x).move = .glide a b → (s.ldu.axis x).st ≠ .stalled → seen.manual x = false →
          let d := a + (b - a) * (k + 1) / total
          (t.ldu.axis x).demand = d ∧ (t.ldu.axis x).vel = d - (s.ldu.axis x).demand ∧
          (t.ldu.axis x).move = .glide a b) ∧
    (∀ n k total, s.ldu.shot = .gliding n k total → total ≤ k + 1 →
      let dwells := s.ldu.shotMode = .chain ∧ s.ldu.nextValid n ≠ none
      ∃ t, exec (.lensUpdate e) s = .next t ∧ t.flt = s.flt ∧
        (dwells → t.ldu.shot = .dwelling n 0 (updates (s.ldu.shotRec n).dwell) ∧ t.ldu.seqTag = s.ldu.seqTag) ∧
        (¬ dwells → t.ldu.shot = .holding n ∧ t.ldu.seqTag = 0 ∧
          (s.shc.job = none → s.inFlight s.ldu.seqTag = true → (∀ x, (s.ldu.axis x).tag ≠ s.ldu.seqTag) →
            t.tagRec s.ldu.seqTag = s.ended s.ldu.seqTag .done .complete (BitVec.ofNat 32 n)
              (BitVec.ofNat 32 s.ldu.ignored) 1)) ∧
        ∀ x a b, (s.ldu.axis x).move = .glide a b → (s.ldu.axis x).st ≠ .stalled → seen.manual x = false →
          (x = .focus → s.ldu.tracking = false) →
          (t.ldu.axis x).demand = b ∧ (t.ldu.axis x).vel = 0 ∧ (t.ldu.axis x).move = .none ∧
          (t.ldu.axis x).st = .idle) ∧
    (∀ n k total, s.ldu.shot = .dwelling n k total → k < total →
      ∃ t, exec (.lensUpdate e) s = .next t ∧ t.ldu.shot = .dwelling n (k + 1) total ∧ t.flt = s.flt) ∧
    (∀ n k total m, s.ldu.shot = .dwelling n k total → total ≤ k → s.ldu.nextValid n = some m →
      let h := s.ldu.shotRec m
      let N := updates h.travel
      1 < N →
      ∃ t, exec (.lensUpdate e) s = .next t ∧ t.ldu.shot = .gliding m 1 N ∧ t.flt = s.flt ∧
        ∀ x, (s.ldu.axis x).st ≠ .stalled → (s.ldu.axis x).move = .none → seen.manual x = false →
          s.ldu.manual x = false → s.ldu.focusBased = false → s.ldu.tracking = false →
          let d := (s.ldu.axis x).demand
          (t.ldu.axis x).move = .glide d (h.position x * 500) ∧
          (t.ldu.axis x).demand = d + (h.position x * 500 - d) / N))

/-- An update of a position move whose velocity does not point away from the target takes the demand toward the target
and never past it; the move ends exactly when the demand is the target (R51). -/
def Obligations.PositionMoveNeverPassesItsTarget : Prop :=
  ∀ (a : Axis) (lo hi p cap : Int), a.move = .position p cap → 1 ≤ a.step → 1 ≤ cap → lo ≤ p → p ≤ hi →
    lo ≤ a.demand → a.demand ≤ hi → 0 ≤ a.vel * (p - a.demand) →
    let r := a.update (lo, hi)
    (a.demand ≤ p → a.demand ≤ r.1.demand ∧ r.1.demand ≤ p) ∧
    (p ≤ a.demand → p ≤ r.1.demand ∧ r.1.demand ≤ a.demand) ∧
    (r.2 = some 1 ↔ r.1.demand = p) ∧ (r.2 = none ∨ r.2 = some 1) ∧ (r.2 = some 1 → r.1.vel = 0)

/-! ## Stabiliser (04) and stream orders (06) -/

/-- A sample reaches the MST: discarded outside RUNNING and RESETTING; with neither axis overranged, worked by the
mode (R73, R75, R76, R83); an overrange with the quiet count run out is logged (R77). The loss timer expires (R75). -/
def Obligations.GyroSamplesActByTheMode : Prop :=
  (∀ (e : Env) (s : State) (yaw pitch : Half), s.active = false →
    exec (.gyroSample e yaw pitch) s = .next (s.arrive e)) ∧
  (∀ (e : Env) (s : State) (yaw pitch : Half), s.active = true → s.stop.requests = [] →
    let now := s.now + e.elapsed
    let m := s.mst
    let noted : Mst := { m with lastArrival := some now, samples := m.samples + 1, sampleSinceOn := true }
    let count := match m.lastArrival with
      | none => 1
      | some t => if now - t ≤ 5000 then m.resumption + 1 else 1
    let worked (v : Mst) : Mst :=
      { v with
        mode := .on, quiet := m.quiet - 1, recentre := false, lossTimer := some (now + 5000)
        yaw := m.yaw.work m s.ldu.surge m.recentre (max (-32767) yaw.toInt)
        pitch := m.pitch.work m s.ldu.surge m.recentre (max (-32767) pitch.toInt) }
    let plain := yaw.toInt ≠ -32768 ∧ yaw.toInt ≠ 32767 ∧ pitch.toInt ≠ -32768 ∧ pitch.toInt ≠ 32767
    (m.mode = .off → plain → exec (.gyroSample e yaw pitch) s = .next { s.arrive e with
      mst := { noted with
        quiet := m.quiet - 1
        yaw := m.yaw.trackBias m.still m.biasShift (max (-32767) yaw.toInt)
        pitch := m.pitch.trackBias m.still m.biasShift (max (-32767) pitch.toInt) } }) ∧
    (m.mode = .on → plain → exec (.gyroSample e yaw pitch) s = .next { s.arrive e with mst := worked noted }) ∧
    (m.mode = .hold → count < 20 → exec (.gyroSample e yaw pitch) s = .next { s.arrive e with
      mst := { noted with resumption := count } }) ∧
    (m.mode = .hold → 20 ≤ count → plain → exec (.gyroSample e yaw pitch) s = .next { s.arrive e with
      mst := worked { noted with resumption := 0 } }) ∧
    (m.mode ≠ .hold → ¬plain → m.quiet ≤ 1 → asksNoStop s .gyroOverrange = true → s.flt.kinds.length = 26 →
      ∃ t, exec (.gyroSample e yaw pitch) s = .next t ∧ t.mst.quiet = 1000 ∧ t.mst.mode = m.mode ∧
        t.flt.stands .gyroOverrange = true ∧
        (t.flt.entry .gyroOverrange).count = min 255 ((s.flt.entry .gyroOverrange).count + 1))) ∧
  ∀ (e : Env) (s : State) (due : Nat), s.mst.lossTimer = some due → s.stop.requests = [] →
    asksNoStop s .gyroLost = true →
    exec (.lossTimerExpiry e) s = .next (State.fault
      { s.arrive e with
        now := max (s.now + e.elapsed) due
        mst := { s.mst with
          mode := .hold, resumption := 0, lossTimer := none
          yaw := { s.mst.yaw with enterRun := 0, exitRun := 0 }
          pitch := { s.mst.pitch with enterRun := 0, exitRun := 0 } } }
      .gyroLost .yaw (BitVec.ofNat 32 s.mst.samples) (if s.mst.sampleSinceOn then 1 else 0))

/-- The arithmetic of a sample on an axis: the bias, the corrected rate, the leak and the sum (R78, R79, R81 to R83),
and the pan state (R80). -/
def Obligations.SampleArithmetic : Prop :=
  ∀ (m : Mst) (surge recentre : Bool) (r0 : Int) (a : StabAxis),
    let c := a.work m surge recentre r0
    let b := if a.pan = .steady ∧ |r0 - a.bias / 256| ≤ m.still then a.bias + (256 * r0 - a.bias) / 2 ^ m.biasShift
      else a.bias
    let r := max (-32767) (min 32767 (r0 - b / 256))
    let run := if m.panEnter < |r| then a.enterRun + 1 else 0
    let out := if |r| < m.panExit then a.exitRun + 1 else 0
    let k := min (min (match c.pan with | .steady => 11 | .settling => 9 | .panning => 6) (if a.edge then 7 else 11))
      (if surge then 9 else 11)
    let acc := if recentre then 0 else a.acc
    c.bias = b ∧ c.edge = a.edge ∧
    c.acc = max (-2147483647) (min 2147483647 (acc - acc.sign * (|acc| / 2 ^ k) + r)) ∧
    (a.pan = .steady → c.pan = (if run < 50 then .steady else .panning) ∧
      c.enterRun = (if run < 50 then run else 0) ∧ c.exitRun = (if run < 50 then a.exitRun else 0)) ∧
    (a.pan = .panning → c.pan = (if out < 100 then .panning else .settling) ∧
      c.exitRun = (if out < 100 then out else 0) ∧ c.settle = (if out < 100 then a.settle else 0)) ∧
    (a.pan = .settling → c.pan = (if 50 ≤ run then .panning else if a.settle + 1 < 500 then .settling else .steady) ∧
      c.settle = (if run < 50 ∧ a.settle + 1 < 500 then a.settle + 1 else 0) ∧
      c.enterRun = (if run < 50 ∧ a.settle + 1 < 500 then run else 0))

/-- The MST takes a frame start: the crop message and the crop record, named for the frame after the one opened, by
the mode: (0, 0) in OFF, from the accumulators in ON, the newest again in HOLD (R85 to R91), and in HOLD with no record
yet made (0, 0) with scale 0 (log 28). The margins and the scale offered are not negative, as every step keeps them. -/
def Obligations.CropSentAtAFrameStart : Prop :=
  ∀ (e : Env) (s : State) (x : FrameStart) (rest : List FrameStart), s.mst.arriving = x :: rest →
    let m := s.mst
    let f := s.ldu.scaleOffered
    let named := x.opened.frame + 1
    let last := (m.crops.getLast?).getD (.none 0)
    let shift (acc : Int) : Int := acc.sign * f.sign * ((|acc| * |f| + 8192000) / 16384000)
    let after (cx cy scale : Int) (n : Mst) : State := { s.arrive e with
      mst := { n with
        arriving := rest, samples := 0, sent := some ⟨BitVec.ofInt 16 cx, BitVec.ofInt 16 cy, named⟩
        kept := keepCopy s.copyNeeded x.ended.frame m.part m.kept
        crops := (fun l => l.drop (l.length - 3)) (m.crops ++
          [{ frame := named, x := cx, y := cy, scale := scale, mode := n.mode, yawPan := n.yaw.pan,
             pitchPan := n.pitch.pan, yawEdge := n.yaw.edge, pitchEdge := n.pitch.edge }]) } }
    (m.mode = .off → exec (.mstFrameStart e) s = .next (after 0 0 0 m)) ∧
    (m.mode = .hold → exec (.mstFrameStart e) s =
      .next (after (clampInt (-m.marginX) m.marginX last.x) (clampInt (-m.marginY) m.marginY last.y) last.scale m)) ∧
    (m.mode = .on → 0 ≤ m.marginX → 0 ≤ m.marginY → 0 ≤ f → exec (.mstFrameStart e) s =
      .next (after (-clampInt (-m.marginX) m.marginX (shift m.yaw.acc))
        (clampInt (-m.marginY) m.marginY (shift m.pitch.acc)) f
        { m with yaw := { m.yaw with edge := decide (m.marginX < |shift m.yaw.acc|) }
                 pitch := { m.pitch with edge := decide (m.marginY < |shift m.pitch.acc|) } }))

/-- STAB_MODE, STAB_RECENTER and STAB_CONFIG (R74, R83, R84); STREAM_CONFIG and PRE_RECORD (R121, R131, R132). -/
def Obligations.StabiliserAndStreamOrders : Prop :=
  ((∀ (e : Env) (s : State) (mode : Byte), dispatches s .immediate 0x40 0 (p1 mode) = true →
    let clear (a : StabAxis) : StabAxis :=
      { a with acc := 0, edge := false, pan := .steady, enterRun := 0, exitRun := 0, settle := 0 }
    (1 < mode.toNat → exec (.stabMode e 0 mode) s = .next ((s.arrive e).finishEntry .refusedParam)) ∧
    (mode = 0 → s.mst.mode ≠ .off → exec (.stabMode e 0 mode) s = .next (State.finishEntry
      { s.arrive e with mst := { s.mst with
          mode := .off, yaw := clear s.mst.yaw, pitch := clear s.mst.pitch, recentre := false, resumption := 0
          lossTimer := none } } .done)) ∧
    (mode = 1 → s.mst.mode = .off → exec (.stabMode e 0 mode) s = .next (State.finishEntry
      { s.arrive e with mst := { s.mst with
          mode := .on, lossTimer := some (s.now + e.elapsed + 5000), sampleSinceOn := false } } .done)) ∧
    ((mode = 0 ∧ s.mst.mode = .off ∨ mode = 1 ∧ s.mst.mode ≠ .off) →
      exec (.stabMode e 0 mode) s = .next ((s.arrive e).finishEntry .done))) ∧
  (∀ (e : Env) (s : State), dispatches s .immediate 0x41 0 [] = true →
    exec (.stabRecenter e 0) s = .next (State.finishEntry
      { s.arrive e with mst := { s.mst with recentre := s.mst.recentre || s.mst.mode != .off } } .done)) ∧
  (∀ (e : Env) (s : State) (x : Half) (y : Byte) (still : Half) (shift : Byte) (enter exit : Half),
    dispatches s .immediate 0x42 0 (p2 x ++ p1 y ++ p2 still ++ p1 shift ++ p2 enter ++ p2 exit) = true →
    let n := clampInt 1 32767 enter.toNat
    let moves := clampInt 0 256 x.toNat ≠ s.mst.marginX ∨ clampInt 0 144 y.toNat ≠ s.mst.marginY
    let inRange := x.toNat ≤ 256 ∧ y.toNat ≤ 144 ∧ still.toNat ≤ 1000 ∧ (8 ≤ shift.toNat ∧ shift.toNat ≤ 16) ∧
      (1 ≤ enter.toNat ∧ enter.toNat ≤ 32767) ∧ (exit.toNat : Int) ≤ n
    (s.clipOpen = true → moves →
      exec (.stabConfig e 0 x y still shift enter exit) s = .next ((s.arrive e).finishEntry .refusedRecording)) ∧
    (¬(s.clipOpen = true ∧ moves) →
      exec (.stabConfig e 0 x y still shift enter exit) s = .next (State.finishEntry
        { s.arrive e with mst := { s.mst with
            marginX := clampInt 0 256 x.toNat, marginY := clampInt 0 144 y.toNat, still := clampInt 0 1000 still.toNat
            biasShift := clampNat 8 16 shift.toNat, panEnter := n, panExit := clampInt 0 n exit.toNat } }
        (if inRange then .done else .clamped))))) ∧
  ((∀ (e : Env) (s : State) (delay : Byte), dispatches s .immediate 0x50 0 (p1 delay) = true →
    ((s.clipOpen = true ∨ s.sta.preOn = true) →
      exec (.streamConfig e 0 delay) s = .next ((s.arrive e).finishEntry .refusedRecording)) ∧
    (s.clipOpen = false → s.sta.preOn = false → exec (.streamConfig e 0 delay) s = .next (State.finishEntry
      { s.arrive e with sta := { s.sta with delay := clampNat 1 6 delay.toNat } }
      (if 1 ≤ delay.toNat ∧ delay.toNat ≤ 6 then .done else .clamped)))) ∧
  (∀ (e : Env) (s : State) (code : Byte) (count : Half),
    dispatches s .immediate 0x51 0 (p1 code ++ p2 count) = true →
    let n := min 600 count.toNat
    let result : Result := if count.toNat ≤ 600 then .done else .clamped
    (1 < code.toNat → exec (.preRecord e 0 code count) s = .next ((s.arrive e).finishEntry .refusedParam)) ∧
    (code = 1 → s.ftu.mode = .recordRun →
      exec (.preRecord e 0 code count) s = .next ((s.arrive e).finishEntry .refusedState)) ∧
    (code = 0 → exec (.preRecord e 0 code count) s = .next (State.finishEntry (State.release
      { s.arrive e with sta := { s.sta with preOn := false, preCount := n } }) result)) ∧
    (code = 1 → s.ftu.mode = .freeRun → s.sta.preOn = true →
      exec (.preRecord e 0 code count) s = .next (State.finishEntry (State.release
        { s.arrive e with sta := { s.sta with preCount := n } }) result)) ∧
    (code = 1 → s.ftu.mode = .freeRun → s.sta.preOn = false →
      exec (.preRecord e 0 code count) s = .next (State.finishEntry (State.release
        { s.arrive e with sta := { s.sta with
            preOn := true, preCount := n
            floor := match s.sta.index.getLast? with
              | some r => raiseFloor s.sta.floor r.frame
              | none => s.sta.floor } }) result))))

/-! ## Audio (05) -/

/-- A set reaches the ACU: discarded outside RUNNING and RESETTING, appended to a FIFO of fewer than 4,096 sets, and
with the FIFO full discarded with AUDIO_OVERRUN once in a frame (R94, R95). The clock timer expires (R96). The detail
words count from the last frame start the ACU took (log 29), and before the first since the entry to RUNNING those of
AUDIO_CLOCK count the sets since that entry (log 67). -/
def Obligations.AudioSetsFillTheFifo : Prop :=
  (∀ (e : Env) (s : State) (a b c d : BitVec 24), s.active = false →
    exec (.audioSet e a b c d) s = .next (s.arrive e)) ∧
  (∀ (e : Env) (s : State) (a b c d : BitVec 24), s.active = true → s.stop.requests = [] →
    let taken : Acu := { s.acu with
      clockTimer := some (s.now + e.elapsed + 2000), clockLost := false, setsSince := s.acu.setsSince + 1 }
    (s.acu.fifo.length < 4096 → exec (.audioSet e a b c d) s = .next { s.arrive e with
      acu := { taken with fifo := s.acu.fifo ++ [⟨a.toInt, b.toInt, c.toInt, d.toInt⟩] } }) ∧
    (4096 ≤ s.acu.fifo.length → s.acu.overrunLogged = true → exec (.audioSet e a b c d) s = .next
      { s.arrive e with acu := { taken with slipMark := true } }) ∧
    (∀ t, 4096 ≤ s.acu.fifo.length → s.acu.overrunLogged = false → s.acu.lastStart = some t →
      asksNoStop s .audioOverrun = true →
      exec (.audioSet e a b c d) s = .next (State.fault
        { s.arrive e with acu := { taken with slipMark := true, overrunLogged := true } }
        .audioOverrun .none (BitVec.ofNat 32 s.acu.fillAfterTake) (BitVec.ofNat 32 (s.now + e.elapsed - t))))) ∧
  ∀ (e : Env) (s : State) (due : Nat), s.acu.clockTimer = some due → s.stop.requests = [] →
    asksNoStop s .audioClock = true →
    exec (.audioClockExpiry e) s = .next (State.fault
      { s.arrive e with
        now := max (s.now + e.elapsed) due
        acu := { s.acu with clockTimer := none, clockLost := true, lostMark := true } }
      .audioClock .none (BitVec.ofNat 32 s.acu.fifo.length) (BitVec.ofNat 32 s.acu.setsSince))

/-- AUDIO_SOURCE, AUDIO_GAIN, AUDIO_LIMITER and TONE_LEVEL set pending settings of the channels they name: 0 for all
four, 1 to 4 for one (R99, R100). -/
def Obligations.AudioOrdersSetPendingSettings : Prop :=
  let with_ (a : Acu) (n : Nat) (g : ChannelSet → ChannelSet) : Acu := { a with channels :=
    { c1 := if n = 0 ∨ n = 1 then { a.channels.c1 with pending := g a.channels.c1.pending } else a.channels.c1
      c2 := if n = 0 ∨ n = 2 then { a.channels.c2 with pending := g a.channels.c2.pending } else a.channels.c2
      c3 := if n = 0 ∨ n = 3 then { a.channels.c3 with pending := g a.channels.c3.pending } else a.channels.c3
      c4 := if n = 0 ∨ n = 4 then { a.channels.c4 with pending := g a.channels.c4.pending } else a.channels.c4 } }
  (∀ (e : Env) (s : State) (ch source : Byte), dispatches s .immediate 0x48 0 (p1 ch ++ p1 source) = true →
    ((4 < ch.toNat ∨ 2 < source.toNat) →
      exec (.audioSource e 0 ch source) s = .next ((s.arrive e).finishEntry .refusedParam)) ∧
    (ch.toNat ≤ 4 → source.toNat ≤ 2 → exec (.audioSource e 0 ch source) s = .next (State.finishEntry
      { s.arrive e with acu := with_ s.acu ch.toNat fun k => { k with
          source := if source = 0 then .converter else if source = 1 then .tone else .mute } } .done))) ∧
  (∀ (e : Env) (s : State) (ch gain : Byte), dispatches s .immediate 0x49 0 (p1 ch ++ p1 gain) = true →
    (4 < ch.toNat → exec (.audioGain e 0 ch gain) s = .next ((s.arrive e).finishEntry .refusedParam)) ∧
    (ch.toNat ≤ 4 → exec (.audioGain e 0 ch gain) s = .next (State.finishEntry
      { s.arrive e with acu := with_ s.acu ch.toNat fun k => { k with gain := min 84 gain.toNat } }
      (if gain.toNat ≤ 84 then .done else .clamped)))) ∧
  (∀ (e : Env) (s : State) (ch threshold release : Byte),
    dispatches s .immediate 0x4A 0 (p1 ch ++ p1 threshold ++ p1 release) = true →
    (4 < ch.toNat →
      exec (.audioLimiter e 0 ch threshold release) s = .next ((s.arrive e).finishEntry .refusedParam)) ∧
    (ch.toNat ≤ 4 → exec (.audioLimiter e 0 ch threshold release) s = .next (State.finishEntry
      { s.arrive e with acu := with_ s.acu ch.toNat fun k => { k with
          threshold := clampInt (-20) 0 threshold.toInt, release := clampNat 1 64 release.toNat } }
      (if (-20 ≤ threshold.toInt ∧ threshold.toInt ≤ 0) ∧ (1 ≤ release.toNat ∧ release.toNat ≤ 64) then .done
       else .clamped)))) ∧
  (∀ (e : Env) (s : State) (level : Byte), dispatches s .immediate 0x4B 0 (p1 level) = true →
    (1 < level.toNat → exec (.toneLevel e 0 level) s = .next ((s.arrive e).finishEntry .refusedParam)) ∧
    (level.toNat ≤ 1 → exec (.toneLevel e 0 level) s = .next (State.finishEntry
      { s.arrive e with acu := { s.acu with pendingTone := level.toNat } } .done)))

/-- A sample through a channel, by its source: the output and the limiter gain after (R101 to R104); a block's sets are
worked in order, the tone phase shared by the channels, each limiter gain going on to the next set (R101, R102). The
meter thresholds M[1] to M[120] are those of R105: 8,388,607 times ten to the power of (m − 120)/40, rounded. -/
def Obligations.SampleThroughAChannel : Prop :=
  (∀ (level p : Nat) (q : Quad Channel), workSets level [] p q = ([], p, q)) ∧
  (∀ (level p : Nat) (q : Quad Channel) (x : AudioSet) (rest : List AudioSet),
    let tone : Int := if level = 0 then toneTable20.getD p 0 else toneTable18.getD p 0
    let worked (c : Channel) (v : Int) : Int := (c.chain tone v).1
    let after (c : Channel) (v : Int) : Channel := { c with limiter := (c.chain tone v).2 }
    let w := workSets level rest ((p + 1) % 48)
      ⟨after q.c1 x.c1, after q.c2 x.c2, after q.c3 x.c3, after q.c4 x.c4⟩
    workSets level (x :: rest) p q =
      (⟨worked q.c1 x.c1, worked q.c2 x.c2, worked q.c3 x.c3, worked q.c4 x.c4⟩ :: w.1, w.2)) ∧
  (meterTable.length = 120 ∧ ∀ m, 1 ≤ m → m ≤ 120 →
    let v := meterTable.getD (m - 1) 0
    (2 * v - 1) ^ 40 * 10 ^ (120 - m) ≤ (2 * 8388607) ^ 40 ∧
      (2 * 8388607) ^ 40 < (2 * v + 1) ^ 40 * 10 ^ (120 - m)) ∧
  ∀ (c : Channel) (tone x : Int),
    let y1 := x * gainTable.getD c.now.gain 65536 / 65536
    let y2 := y1 * c.limiter / 32768
    let limit := limitTable.getD (c.now.threshold + 20).toNat 8388607
    (c.now.source = .mute → c.chain tone x = (0, c.limiter)) ∧
    (c.now.source = .tone → c.chain tone x = (tone, c.limiter)) ∧
    (c.now.source = .converter → 0 ≤ limit → 0 ≤ c.limiter →
      (limit < |y2| → c.chain tone x = (y1.sign * limit, limit * 32768 / |y1|)) ∧
      (|y2| ≤ limit → c.chain tone x = (y2, min 32768 (c.limiter + c.now.release)))) ∧
    gainTable.length = 85 ∧ gainTable.getD 24 0 = 65536 ∧ limitTable.length = 21 ∧ limitTable.getD 20 0 = 8388607

/-- A frame start reaches the ACU with no block in writing: after the first, in FLOWING with enough sets, they leave
the FIFO in order, the settings come into force, the meters follow, and the block's write to the staging slot it claims
begins (R97 to R99, R105 to R110, R119); what AUDIO_OVERRUN and AUDIO_CLOCK count begins anew (log 29). In PRIMING the
first makes no block, and a later one makes a block of silence, SILENT, and UNDERRUN after a padded frame, the FIFO
standing; then the take follows the clock (R97). In FLOWING with too few sets all of them are taken, and padded: with
the last set taken or silence, AUDIO_UNDERRUN logged, or with silence alone under CLOCK_LOST; the take is PRIMING
(R98). The write completes: the block stands in memory and nothing else changes there, and the record is joined or
held; at a bus error the bytes below the failing address stand, and the record is marked not staged (R108, R118, log
9). A frame start that comes during a write is held and taken as the write ends; a second one stops the write, of which
no byte then stands (log 29): its record goes not staged, the held one is taken, and the second is held (R108). -/
def Obligations.AudioBlocksMadeAndStaged : Prop :=
  (∀ (e : Env) (s : State) (x : FrameStart) (rest : List FrameStart), s.acu.arriving = x :: rest →
    s.acu.writing = none → s.acu.heldStart = none → s.flowsAt x → quiet s = true →
    ∃ t, exec (.acuFrameStart e) s = .next t ∧ blockMade s t x (s.now + e.elapsed) ∧ t.acu.arriving = rest ∧
      t.acu.heldStart = none ∧ t.sta.pending = s.sta.pending ∧
      t.mem = Memory.apply s.mem e.writes ∧ t.shc = s.shc ∧ t.ftu = s.ftu ∧ t.ldu = s.ldu ∧ t.mst = s.mst ∧
      t.slotA = s.slotA ∧ t.slotB = s.slotB ∧ t.deck = s.deck ∧ t.cgd = s.cgd ∧ t.stop = s.stop ∧ t.vfl = s.vfl ∧
      t.flt = s.flt) ∧
  (∀ (e : Env) (s : State) (x : FrameStart) (rest : List FrameStart), s.acu.arriving = x :: rest →
    s.acu.writing = none → s.acu.heldStart = none → quiet s = true →
    let c := x.ended.cadCount
    let k := s.acu.fifo.length
    let silence : AudioSet := ⟨0, 0, 0, 0⟩
    let pad := (s.acu.fifo.getLast?.or s.acu.lastSet).getD silence
    (x.first = true → s.acu.take = .priming →
      ∃ t, exec (.acuFrameStart e) s = .next t ∧ t.acu.arriving = rest ∧ t.acu.writing = none ∧
        t.acu.fifo = s.acu.fifo ∧ t.acu.take = s.takeByClock ∧ t.acu.slipMark = false ∧
        t.acu.lostMark = s.acu.clockLost ∧ t.acu.toneLevel = s.acu.pendingTone ∧ t.acu.phase = s.acu.phase ∧
        t.acu.channels = (s.acu.channels.map fun k =>
          { k with now := k.pending, limiter := if k.pending.source = k.now.source then k.limiter else 32768 }) ∧
        t.acu.overrunLogged = false ∧ t.acu.setsSince = 0 ∧ t.acu.lastStart = some (s.now + e.elapsed) ∧
        t.sta.claims = s.sta.claims ∧ t.sta.pending = s.sta.pending ∧ t.flt = s.flt ∧
        t.mem = Memory.apply s.mem e.writes) ∧
    (s.blockAt x → s.acu.take = .priming →
      ∃ t, exec (.acuFrameStart e) s = .next t ∧ t.acu.arriving = rest ∧
        blockFrom s t x (s.now + e.elapsed) ⟨[], List.replicate c silence, s.acu.padded, true, s.takeByClock,
          s.acu.padded && s.acu.clockLost⟩ ∧
        t.sta.pending = s.sta.pending ∧ t.flt = s.flt ∧ t.mem = Memory.apply s.mem e.writes) ∧
    (s.blockAt x → s.acu.take = .flowing → k < c → s.acu.lostMark = true →
      ∃ t, exec (.acuFrameStart e) s = .next t ∧ t.acu.arriving = rest ∧
        blockFrom s t x (s.now + e.elapsed)
          ⟨s.acu.fifo, List.replicate (c - k) silence, false, k == 0, .priming, true⟩ ∧
        t.sta.pending = s.sta.pending ∧ t.flt = s.flt ∧ t.mem = Memory.apply s.mem e.writes) ∧
    (s.blockAt x → s.acu.take = .flowing → k < c → s.acu.lostMark = false → asksNoStop s .audioUnderrun = true →
      s.flt.kinds.length = 26 →
      ∃ t, exec (.acuFrameStart e) s = .next t ∧ t.acu.arriving = rest ∧
        blockFrom s t x (s.now + e.elapsed)
          ⟨s.acu.fifo, List.replicate (c - k) pad, true, k == 0 && pad == silence, .priming, true⟩ ∧
        logged s t .audioUnderrun .none (BitVec.ofNat 32 k) (BitVec.ofNat 32 c) 0 ∧
        t.sta.pending = s.sta.pending ∧ t.mem = Memory.apply s.mem e.writes)) ∧
  (∀ (e : Env) (s : State) (x : FrameStart) (rest : List FrameStart) (j : StagingJob), s.acu.arriving = x :: rest →
    s.acu.writing = some j → s.acu.heldStart = none → quiet s = true →
    exec (.acuFrameStart e) s = .next (State.release { s.arrive e with
      acu := { s.acu with arriving := rest, heldStart := some x } })) ∧
  (∀ (e : Env) (s : State) (x h : FrameStart) (rest : List FrameStart) (j : StagingJob), s.acu.arriving = x :: rest →
    s.acu.writing = some j → s.acu.heldStart = some h → s.flowsAt h → quiet s = true → s.sta.pending = [] →
    s.sta.early = [] → notNewer s.sta.newest j.record.frame = true →
    ∃ t, exec (.acuFrameStart e) s = .next t ∧ blockMade s t h (s.now + e.elapsed) ∧ t.acu.arriving = rest ∧
      t.acu.heldStart = some x ∧ t.sta.early = [{ j.record with staged := false }] ∧
      t.mem = Memory.apply s.mem e.writes ∧ t.flt = s.flt) ∧
  (∀ (e : Env) (s : State) (h : FrameStart) (j : StagingJob), s.acu.writing = some j → s.acu.heldStart = some h →
    s.flowsAt h → quiet s = true → s.sta.pending = [] → s.sta.early = [] →
    notNewer s.sta.newest j.record.frame = true → (s.arrive e).busError j.address j.block.length = none →
    ∃ t, exec (.stagingWriteDone e) s = .next t ∧ blockMade s t h (s.now + e.elapsed) ∧
      t.acu.arriving = s.acu.arriving ∧ t.acu.heldStart = none ∧ t.sta.early = [j.record] ∧
      t.mem = Memory.writeAll (s.arrive e).mem j.address j.block ∧ t.flt = s.flt) ∧
  (∀ (e : Env) (s : State) (j : StagingJob), s.acu.writing = some j → s.acu.heldStart = none → quiet s = true →
    Memory.wf s.mem = true →
    let u := s.arrive e
    (∀ p, u.busError j.address j.block.length = none → s.sta.pending = [p] → p.frame.frame = j.record.frame →
      j.record.staged = true → s.sta.due p.frame.frame = false →
      exec (.stagingWriteDone e) s = .next (State.release { u with
        mem := Memory.writeAll u.mem j.address j.block
        acu := { s.acu with writing := none }
        sta := { s.sta with pending := [{ p with audio := some j.record }] } })) ∧
    (u.busError j.address j.block.length = none → s.sta.pending = [] → s.sta.early = [] →
      notNewer s.sta.newest j.record.frame = true →
      exec (.stagingWriteDone e) s = .next (State.release { u with
        mem := Memory.writeAll u.mem j.address j.block
        acu := { s.acu with writing := none }
        sta := { s.sta with early := [j.record] } })) ∧
    (∀ bad, u.busError j.address j.block.length = some bad → s.sta.pending = [] → s.sta.early = [] →
      notNewer s.sta.newest j.record.frame = true → asksNoStop s .commonBus = true →
      exec (.stagingWriteDone e) s = .next (State.release
        { (State.fault { u with
            mem := Memory.writeAll u.mem j.address (j.block.take (bad - j.address))
            acu := { s.acu with writing := none } } .commonBus .none 3 (BitVec.ofNat 32 bad)) with
          sta := { s.sta with early := [{ j.record with staged := false }] } })) ∧
    ∀ a, (a < j.address ∨ j.address + j.block.length ≤ a) →
      Memory.read (Memory.writeAll u.mem j.address j.block) a = Memory.read u.mem a)

/-! ## Stream (06) -/

/-- A frame start reaches the STA: the first after the entry to RUNNING appends nothing; after it the record of the
frame just ended is appended, or, with 8 records in the list, the frame is dropped with STREAM_BEHIND (R117, R133);
then the STA looks at the head of the list. A head that is not due, waits for its audio record or finds a copy in
flight stays (R120). One that is due leaves the list: with no clip open and pre-record off its units are given back
(R124), and the next record is handled at once (R120); else its group is assembled from the unit table, late and second
units first (R123, log 50), and its copy starts, without its picture where space is short, or the frame is dropped
(R125), and each slot RECORDING from that frame or an earlier one is told to close (R133, R158); the records behind it
wait for the next look, also where it is dropped (R120). -/
def Obligations.PendingRecordAppended : Prop :=
  (∀ (e : Env) (s : State) (x : FrameStart) (rest : List FrameStart), s.sta.arriving = x :: rest → quiet s = true →
    s.sta.early = [] → (s.sta.copy ≠ none ∨ ∀ p, s.sta.pending.head? = some p → p.audio = none) →
    let taken : Sta := { s.sta with
      arriving := rest, newest := x.opened.frame
      kept := keepCopy s.copyNeeded x.ended.frame s.streamPart s.sta.kept }
    (x.first = true → exec (.staFrameStart e) s = .next (State.release { s.arrive e with sta := taken })) ∧
    (x.first = false → s.sta.pending.length < 8 → exec (.staFrameStart e) s = .next (State.release { s.arrive e with
      sta := { taken with pending := s.sta.pending ++
        [{ frame := x.ended
           lens := ⟨s.ldu.view.zoom, s.ldu.view.focus, s.ldu.view.iris, s.ldu.shot.code.1, s.ldu.shot.code.2⟩
           crop := s.mst.cropOf x.ended.frame
           audio := none }] } })) ∧
    (x.first = false → 8 ≤ s.sta.pending.length → asksNoStop s .streamBehind = true → s.flt.kinds.length = 26 →
      ∃ t, exec (.staFrameStart e) s = .next t ∧ t.sta.pending = s.sta.pending ∧
        t.sta.dropped = min 65535 (s.sta.dropped + 1) ∧ t.sta.floor = raiseFloor s.sta.floor x.ended.frame ∧
        t.sta.copy = s.sta.copy ∧ t.flt.stands .streamBehind = true ∧
        (t.flt.entry .streamBehind).count = min 255 ((s.flt.entry .streamBehind).count + 1) ∧
        t.mem = Memory.apply s.mem e.writes ∧ t.shc = s.shc ∧ t.ldu = s.ldu ∧ t.acu = s.acu)) ∧
  (∀ (e : Env) (s : State) (x : FrameStart) (rest : List FrameStart), s.sta.arriving = x :: rest → x.first = false →
    s.sta.pending.length < 8 → s.sta.early = [] →
    exec (.staFrameStart e) s = .next (((State.lookAtHead { s.arrive e with sta := { s.sta with
      arriving := rest, newest := x.opened.frame
      kept := keepCopy s.copyNeeded x.ended.frame s.streamPart s.sta.kept
      pending := s.sta.pending ++
        [{ frame := x.ended
           lens := ⟨s.ldu.view.zoom, s.ldu.view.focus, s.ldu.view.iris, s.ldu.shot.code.1, s.ldu.shot.code.2⟩
           crop := s.mst.cropOf x.ended.frame
           audio := none }] } }).settle).judgeSlots (s.arrive e))) ∧
  (∀ s : State, (s.sta.copy ≠ none ∨ ∀ p, s.sta.pending.head? = some p → p.audio = none ∨
    (s.sta.newest - p.frame.frame).toNat < s.sta.delay) → s.lookAtHead = s) ∧
  (∀ (s : State) (p : PendingRec) (rest : List PendingRec) (audio : AudioRec), s.sta.pending = p :: rest →
    p.audio = some audio → s.sta.copy = none → s.sta.delay ≤ (s.sta.newest - p.frame.frame).toNat →
    let F := p.frame.frame
    let u := { s with sta := { s.sta with pending := rest } }
    let emptied (w : State) (k : UnitEntry) : State :=
      { w with mem := Memory.writeAll w.mem (s.shc.partBase.toNat + 0x3400 + 32 * k.index) (leBytes 4 0) }
    let claims := if s.sta.claims.getD (F.toNat % 8) none = some F then s.sta.claims.set (F.toNat % 8) none
      else s.sta.claims
    (∀ bad, s.readUnits = .error bad →
      let f := u.fault .commonBus .none 4 (BitVec.ofNat 32 bad)
      (s.clipOpen = false → s.sta.preOn = false →
        s.lookAtHead = State.lookAtHead { f with sta := { u.sta with claims := claims } }) ∧
      ((s.clipOpen = true ∨ s.sta.preOn = true) → s.lookAtHead = f.startCopy ⟨p, audio, none, false, false⟩)) ∧
    (∀ l, s.readUnits = .ok l → s.busErrors = [] → s.shc.partBase.toNat + 16384 ≤ 4294967296 →
      (s.clipOpen = false → s.sta.preOn = false →
        s.lookAtHead = State.lookAtHead { (l.filter fun k => notNewer k.frame F).foldl emptied u with
          sta := { u.sta with claims := claims } }) ∧
      ((s.clipOpen = true ∨ s.sta.preOn = true) →
        let candidate := l.find? fun k => k.frame == F
        let spent := l.filter fun k =>
          olderFrame k.frame F || (k.frame == F && candidate.any fun c => c.index != k.index)
        let j := spent.foldl (fun w k => (emptied w k).fault (if olderFrame k.frame F then .unitLate else .unitDup)
          .none (BitVec.ofNat 32 k.index) k.frame) u
        (candidate = none → s.lookAtHead = j.startCopy ⟨p, audio, none, false, false⟩) ∧
        ∀ k, candidate = some k →
          (1 ≤ k.length.toNat → k.length.toNat ≤ 1048576 → k.damaged = false →
            s.lookAtHead = j.startCopy ⟨p, audio, some ⟨k.index, k.address, k.length⟩, false, false⟩) ∧
          ((k.length = 0 ∨ 1048576 < k.length.toNat ∨ k.damaged = true) →
            s.lookAtHead = ((emptied j k).fault .unitDamaged .none (BitVec.ofNat 32 k.index) k.length).startCopy
              ⟨p, audio, none, true, false⟩)))) ∧
  (∀ (s : State) (g : GroupCopy),
    let F := g.source.frame.frame
    let need (unit : Nat) : Nat := 2 * (82 + unit + 12 * g.audio.count) + 64
    let starts (w : State) (h : GroupCopy) : State := { w with sta := { w.sta with copy := some h } }
    (1024 ≤ s.sta.index.length → s.startCopy g = (s.fault .streamFull .none F 1024).dropFrame F g.unit) ∧
    (s.sta.index.length < 1024 →
      (g.unit = none → s.startCopy g = if need 0 ≤ s.freeSpace then starts s g
        else (s.fault .streamFull .none F (BitVec.ofNat 32 s.freeSpace)).dropFrame F none) ∧
      ∀ v, g.unit = some v →
        (need v.length.toNat ≤ s.freeSpace → s.startCopy g = starts s g) ∧
        (s.freeSpace < need v.length.toNat → s.busErrors = [] →
          s.shc.partBase.toNat + 0x3400 + 32 * v.entry + 4 ≤ 4294967296 →
          let w := { s with
            mem := Memory.writeAll s.mem (s.shc.partBase.toNat + 0x3400 + 32 * v.entry) (leBytes 4 0) }
          s.startCopy g = if need 0 ≤ s.freeSpace then starts w { g with unit := none, gapDamaged := true }
            else (w.fault .streamFull .none F (BitVec.ofNat 32 s.freeSpace)).dropFrame F none))) ∧
  (∀ (s : State) (F : FrameNo) (x : SlotId) (c : Clip), (s.slot x).st = .recording → (s.slot x).clip = some c →
    let v := (s.dropFrame F none).slot x
    (olderFrame F c.first = true → v = s.slot x) ∧
    (olderFrame F c.first = false → v = { s.slot x with
      st := .closing
      clip := some { c with
        endPoint := some (match s.sta.index.getLast? with | some k => k.frame | none => c.first - 1)
        retry := c.paused, paused := false } }))

/-- The group copy in flight completes in one step (log 31), where it does not wrap: the group stands at the write
position, its index record is appended, its unit is given back, and no other byte changes; the oldest records go while
pre-record does not retain them (R115, R126, R128, R129, R132). With a clip open whose reader is at this group and whose
room is enough, the writer places it, and the oldest records go while the reader does not need them (R128, R150). With
the room open and too small, the writer pauses before it, EXTENT_STARVED is logged, and the record stays (R152). -/
def Obligations.GroupCopiedAndIndexed : Prop :=
  ∀ (e : Env) (s : State) (g : GroupCopy) (picture sound : List Byte), s.sta.copy = some g → s.sta.pending = [] →
    e.errors = [] → Memory.wf s.mem = true → (∀ v, g.unit = some v → v.entry < 8) →
    s.shc.partBase.toNat + 16384 ≤ 4294967296 → s.shc.streamBase.toNat + s.shc.streamSize.toNat ≤ 4294967296 →
    let u := s.arrive e
    let b := g.bytes picture sound
    let at_ := s.shc.streamBase.toNat + s.sta.writePos
    let entry (v : UsedUnit) := s.shc.partBase.toNat + 0x3400 + 32 * v.entry
    let r : IndexRec :=
      { frame := g.source.frame.frame, offset := s.sta.writePos, length := b.length, damage := g.damage,
        tcFlags := g.source.frame.tcFlags }
    let index := s.sta.index ++ [r]
    let copied (t : State) : Prop := t.sta.copy = none ∧ t.sta.pending = [] ∧
      t.sta.writePos = (s.sta.writePos + b.length) % s.shc.streamSize.toNat ∧
      t.sta.history = (fun l => l.drop (l.length - 64)) (s.sta.history ++ [b.length]) ∧
      t.mem = (let m := Memory.writeAll u.mem at_ b
        match g.unit with
        | some v => Memory.writeAll m (entry v) (leBytes 4 0)
        | none => m) ∧
      (∀ a, (a < at_ ∨ at_ + b.length ≤ a) → (∀ v, g.unit = some v → a < entry v ∨ entry v + 4 ≤ a) →
        Memory.read t.mem a = Memory.read u.mem a) ∧
      (s.sta.claims.getD (r.frame.toNat % 8) none = some r.frame →
        t.sta.claims = s.sta.claims.set (r.frame.toNat % 8) none) ∧
      t.shc = s.shc ∧ t.ftu = s.ftu ∧ t.acu = s.acu ∧ t.stop = s.stop
    u.readPicture g = .ok picture → u.readSound g = .ok sound →
    s.sta.writePos + b.length ≤ s.shc.streamSize.toNat →
    (quiet s = true →
      let retained := if s.sta.preOn = true ∧ s.clipOpen = false then
        newest s.sta.preCount (index.filter fun k => aboveFloor s.sta.floor k.frame) else []
      ∃ t, exec (.groupCopyDone e) s = .next t ∧ copied t ∧ t.flt = s.flt ∧ t.slotA = s.slotA ∧ t.slotB = s.slotB ∧
        t.sta.index = (index.dropWhile fun k => !(retained.any fun m => m.frame == k.frame)) ∧
        (s.sta.preOn = true → 0 < s.sta.preCount → aboveFloor s.sta.floor r.frame = true → s.clipOpen = false →
          t.sta.index.getLast? = some r)) ∧
    (∀ x c, (s.slot x).st = .recording → (s.slot x).clip = some c → c.openPlaced = true → c.closePlaced = false →
      c.paused = false → c.endPoint = none → c.next = r.frame → (s.slot x).command ≠ none →
      (∀ k ∈ s.sta.index, k.frame ≠ r.frame ∧ k.frame ≠ r.frame + 1) → (s.slot (otherSlot x)).idle = true →
      (s.slot (otherSlot x)).clipOpen = false → s.stop.requests = [] → s.stop.stopping = false →
      let room := (s.slot x).heldRoom c
      (b.length + 512 ≤ room.bytes → ∃ t, exec (.groupCopyDone e) s = .next t ∧ copied t ∧ t.flt = s.flt ∧
        t.slot (otherSlot x) = s.slot (otherSlot x) ∧
        (t.slot x).st = .recording ∧ (t.slot x).command = (s.slot x).command ∧ ∃ d, (t.slot x).clip = some d ∧
        d.next = r.frame + 1 ∧ d.placed = c.placed + b.length ∧ d.sent = c.sent ∧ d.acked = c.acked ∧
        d.counts.groups = c.counts.groups + 1 ∧
        d.counts.gaps = c.counts.gaps + (if g.unit.isNone then 1 else 0) ∧
        t.sta.index = (index.dropWhile fun k => !d.needs k.frame) ∧
        (c.acked ≤ c.placed → notNewer c.first r.frame = true → t.sta.index.getLast? = some r)) ∧
      (room.bytes < b.length + 512 → room.bound = none → c.retry = false → asksNoStop s .extentStarved = true →
        s.flt.kinds.length = 26 →
        ∃ t, exec (.groupCopyDone e) s = .next t ∧ copied t ∧ t.slot (otherSlot x) = s.slot (otherSlot x) ∧
          (t.slot x).st = .recording ∧ (t.slot x).command = (s.slot x).command ∧
          (t.slot x).clip = some { c with paused := true } ∧ (t.slot x).queue = (s.slot x).queue ∧
          logged s t .extentStarved (match x with | .a => .slotA | .b => .slotB) r.frame
            (BitVec.ofNat 32 room.bytes) 0 ∧
          t.sta.index = (index.dropWhile fun k => !c.needs k.frame) ∧
          (notNewer c.first r.frame = true → t.sta.index.getLast? = some r)))

/-- A common bus error in the group copy in flight: at the unit its picture is given up for a GAP marked DAMAGED; at
the staging slot its sound is; at the stream buffer the frame is dropped, a unit in use is written EMPTY (R127, R133),
and the pending list stays as it is, for a write error is none of the occasions at which the STA looks at its head
(R120). No byte of the group stands in the stream buffer, for its bytes move in the step in which the copy ends (log
31). -/
def Obligations.GroupCopyBusErrors : Prop :=
  ∀ (e : Env) (s : State) (g : GroupCopy) (a : Word), s.sta.copy = some g → quiet s = true →
    asksNoStop s .commonBus = true →
    let f := (s.arrive e).fault .commonBus .none 4 a
    (∀ v, g.unit = some v → v.entry < 8 → e.errors = [] → s.shc.partBase.toNat + 16384 ≤ 4294967296 →
      exec (.groupCopyBusError e .unit a) s = .next (State.release { f with
        mem := Memory.writeAll f.mem (s.shc.partBase.toNat + 0x3400 + 32 * v.entry) (leBytes 4 0)
        sta := { s.sta with copy := some { g with unit := none, gapDamaged := true } } })) ∧
    (g.audio.staged = true → g.audioBad = false →
      exec (.groupCopyBusError e .staging a) s = .next (State.release { f with
        sta := { s.sta with copy := some { g with audioBad := true } } })) ∧
    ((∀ v, g.unit = some v → v.entry < 8 ∧ e.errors = [] ∧ s.shc.partBase.toNat + 16384 ≤ 4294967296) →
      let F := g.source.frame.frame
      ∃ t, exec (.groupCopyBusError e .stream a) s = .next t ∧ t.sta.copy = none ∧ t.sta.pending = s.sta.pending ∧
        t.sta.dropped = min 65535 (s.sta.dropped + 1) ∧ t.sta.floor = raiseFloor s.sta.floor F ∧
        (s.sta.claims.getD (F.toNat % 8) none = some F → t.sta.claims = s.sta.claims.set (F.toNat % 8) none) ∧
        t.sta.writePos = s.sta.writePos ∧ t.flt = f.flt ∧
        t.mem = (match g.unit with
          | some v => Memory.writeAll f.mem (s.shc.partBase.toNat + 0x3400 + 32 * v.entry) (leBytes 4 0)
          | none => f.mem) ∧
        t.shc = s.shc ∧ t.slotA = s.slotA ∧ t.slotB = s.slotB)

/-! ## Card slots (07) -/

/-- The detect switch goes to present: an EMPTY slot of a part that takes events probes the card with IDENTIFY, and
any other slot stays as it is (R136). The reply to IDENTIFY (R136). -/
def Obligations.CardInsertedAndIdentified : Prop :=
  (∀ (e : Env) (x : SlotId) (s : State), (s.active = false ∨ (s.slot x).st ≠ .empty) →
    exec (.cardInserted e x) s = .next ((s.arrive e).setSlot x { s.slot x with detect := true })) ∧
  (∀ (e : Env) (x : SlotId) (s : State), s.active = true → (s.slot x).st = .empty → quiet s = true →
    s.cgd.st ≠ .watching →
    exec (.cardInserted e x) s = .next (State.release ((s.arrive e).setSlot x { s.slot x with
      detect := true, st := .probing, capacity := 0, command := some .identify
      timer := some (s.now + e.elapsed + 500000), waiting := none }))) ∧
  ∀ (e : Env) (x : SlotId) (s : State), (s.slot x).command = some .identify → (s.slot x).st = .probing →
    quiet s = true → s.cgd.st ≠ .watching →
    let answered (st : SlotState) (capacity : Nat) (wp : Bool) : State := (s.arrive e).setSlot x { s.slot x with
      command := none, timer := none, waiting := none, st := st, capacity := capacity, writeProtected := wp }
    (∀ capacity wp, exec (.identifyReply e x (.ok capacity wp)) s =
      .next (State.release (answered (if wp then .guarded else .ready) capacity.toNat wp))) ∧
    (∀ code, exec (.identifyReply e x (.error code)) s =
      .next (State.release (answered .faulted (s.slot x).capacity (s.slot x).writeProtected)))

/-- The detect switch goes to absent: the slot is EMPTY and holds nothing; from RECORDING, CLOSING and SCANNING
CARD_PULLED is logged, an open clip is broken, and the tags of the slot end (R132, R141, R142, R162; the words of the
captured tag, log 34). The command timer expires, whatever the command: CARD_TIMEOUT, the slot is FAULTED, and a clip, a
release or a scan ends, its tag with the scan's results (R140, R141, R162, R167). The other slot is idle and stays as it
is, but for a tag that both held. A fault that captures tags on a slot: a tag shared by both slots ends there once, and
the other slot, whatever it does, holds it no more (R141). -/
def Obligations.CardRemovedOrTimedOut : Prop :=
  (∀ (e : Env) (x : SlotId) (s : State), (s.active = false ∨ (s.slot x).st = .empty) →
    exec (.cardRemoved e x) s = .next ((s.arrive e).setSlot x { s.slot x with detect := false })) ∧
  (∀ (e : Env) (x : SlotId) (s : State), s.active = true →
    (s.slot x).st ∈ [.probing, .ready, .guarded, .full, .faulted] → quiet s = true → s.cgd.st ≠ .watching →
    exec (.cardRemoved e x) s = .next (State.release ((s.arrive e).setSlot x { s.slot x with
      detect := false, st := .empty, capacity := 0, command := none, timer := none, waiting := none
      releasePending := false, releaseSent := false, current := none, queue := []
      scan := { (s.slot x).scan with ended := true } }))) ∧
  (∀ (e : Env) (x : SlotId) (s : State), s.active = true → (s.slot x).st ∈ [.recording, .closing, .scanning] →
    (s.slot (otherSlot x)).idle = true → (s.slot (otherSlot x)).clipOpen = false → s.stop.requests = [] →
    s.stop.stopping = false → s.shc.job = none → asksNoStop s .cardPulled = true → s.flt.kinds.length = 26 →
    let v := s.slot x
    let recorded := match v.clip with | some c => c.recorded | none => 0
    ∃ t, exec (.cardRemoved e x) s = .next t ∧
      t.slot x = { v with
        detect := false, st := .empty, capacity := 0, command := none, timer := none, waiting := none
        releasePending := false, releaseSent := false, current := none, queue := [], clip := none
        openTag := 0, closeTag := 0, scanTag := 0, scan := { v.scan with ended := true } } ∧
      faultOnSlot s t x .cardPulled (if v.st = .recording then 1 else if v.st = .closing then 2 else 3)
        (BitVec.ofNat 32 (if v.st = .scanning then v.scan.sectorsRead else recorded)) (0, 0, 0) ∧
      t.sta.floor = (match v.clip.bind fun c => c.begun with
        | some f => raiseFloor s.sta.floor f
        | none => s.sta.floor) ∧
      t.cgd.st = (if s.cgd.st = .watching then .armed else s.cgd.st) ∧
      t.slot (otherSlot x) = s.sharedDropped x ∧ { t.shc with tags := s.shc.tags } = s.shc ∧ t.deck = s.deck ∧
      t.stop = s.stop ∧ t.mem = Memory.apply s.mem e.writes) ∧
  (∀ (e : Env) (x : SlotId) (s : State) (due : Nat) (c : CardCommand), (s.slot x).timer = some due →
    (s.slot x).command = some c → (s.slot (otherSlot x)).idle = true → (s.slot (otherSlot x)).clipOpen = false →
    s.stop.requests = [] → s.stop.stopping = false → s.shc.job = none → asksNoStop s .cardTimeout = true →
    s.flt.kinds.length = 26 →
    let v := s.slot x
    ∃ t, exec (.cardCommandTimeout e x) s = .next t ∧ t.now = max (s.now + e.elapsed) due ∧
      t.slot x = { v with
        st := .faulted, command := none, timer := none, waiting := none, releasePending := false, releaseSent := false
        current := if v.clip = none then v.current else none, clip := none
        openTag := 0, closeTag := 0, scanTag := 0, scan := { v.scan with ended := true } } ∧
      faultOnSlot s t x .cardTimeout
        (match c with | .identify => 1 | .write _ _ _ => 2 | .read _ _ => 3 | .flush => 4)
        (match c with | .write n _ _ => BitVec.ofNat 32 n | .read n _ => BitVec.ofNat 32 n | _ => 0)
        (if v.closeTag = 0 ∧ v.openTag = 0 then
          (BitVec.ofNat 32 v.scan.validEnd, v.scan.lastGroup, BitVec.ofNat 32 v.scan.groups) else (0, 0, 0)) ∧
      t.sta.floor = (match v.clip.bind fun c => c.begun with
        | some f => raiseFloor s.sta.floor f
        | none => s.sta.floor) ∧
      t.cgd.st = (if s.cgd.st = .watching then .armed else s.cgd.st) ∧
      t.slot (otherSlot x) = s.sharedDropped x ∧ { t.shc with tags := s.shc.tags } = s.shc ∧ t.deck = s.deck ∧
      t.stop = s.stop ∧ t.mem = Memory.apply s.mem e.writes) ∧
  (∀ (x : SlotId) (s : State) (k : FaultKind) (d1 d2 : Word) (scanned : Bool), s.shc.job = none →
    s.flt.kinds.length = 26 →
    let t := s.slotFault x k d1 d2 scanned
    faultOnSlot s t x k d1 d2 (if scanned = true ∧ (s.slot x).closeTag = 0 ∧ (s.slot x).openTag = 0 then
      (BitVec.ofNat 32 (s.slot x).scan.validEnd, (s.slot x).scan.lastGroup, BitVec.ofNat 32 (s.slot x).scan.groups)
      else (0, 0, 0)) ∧
    t.slot x = { s.slot x with openTag := 0, closeTag := 0, scanTag := 0 } ∧
    t.slot (otherSlot x) = s.sharedDropped x ∧ t.deck = s.deck ∧ t.sta = s.sta ∧ t.cgd = s.cgd ∧ t.mem = s.mem) ∧
  ∀ (e : Env) (x : SlotId) (s : State) (due : Nat) (c : CardCommand), (s.slot x).timer = some due →
    (s.slot x).command = some c → (s.slot x).openTag = 0 → (s.slot x).closeTag = 0 → (s.slot x).scanTag = 0 →
    quiet s = true → s.cgd.st ≠ .watching → asksNoStop s .cardTimeout = true → (s.slot x).clipOpen = false →
    let f := State.fault { s.arrive e with now := max (s.now + e.elapsed) due } .cardTimeout
      (if x = .a then .slotA else .slotB)
      (match c with | .identify => 1 | .write _ _ _ => 2 | .read _ _ => 3 | .flush => 4)
      (match c with | .write n _ _ => BitVec.ofNat 32 n | .read n _ => BitVec.ofNat 32 n | _ => 0)
    exec (.cardCommandTimeout e x) s = .next (State.release (f.setSlot x { s.slot x with
      st := .faulted, command := none, timer := none, waiting := none, releasePending := false, releaseSent := false
      scan := { (s.slot x).scan with ended := true } }))

/-- WRITE and FLUSH answered, the other slot idle: the last WRITE of a close is followed by FLUSH; an ERROR with no tag
in flight on the slot is CARD_WRITE, and the slot is FAULTED; the FLUSH of a release ends it; the FLUSH of a close ends
the close, with the slot FULL or READY (R138, R139, R154, R160, R161, R163). The open of a slot is done at the WRITE
that carries the last byte of its OPEN block, or else at that FLUSH, and the close at the FLUSH; with the last slot of
the order its tag ends COMPLETE with the words of R154 or R157, and before that the order waits for the other slot. -/
def Obligations.WriteAndFlushAnswered : Prop :=
  (∀ (e : Env) (x : SlotId) (s : State), (s.slot (otherSlot x)).idle = true →
    (s.slot (otherSlot x)).clipOpen = false → s.stop.requests = [] → s.stop.stopping = false →
    let v := s.slot x
    (∀ c a n d, v.command = some (.write a n d) → v.st = .closing → v.clip = some c → c.closePlaced = true →
      c.sent = c.placed → c.openDone = true → c.flushSent = false →
      ∃ t, exec (.writeReply e x .ok) s = .next t ∧
        t.slot x = { v with
          clip := some { c with
            acked := c.sent, flushSent := true
            recorded := c.recorded +
              ((groupsWithin c.sent c.items).length - (groupsWithin c.acked c.items).length) }
          command := some .flush, timer := some (s.now + e.elapsed + 1000000), waiting := none } ∧
        t.slot (otherSlot x) = s.slot (otherSlot x) ∧ t.shc = s.shc ∧ t.flt = s.flt ∧ t.deck = s.deck ∧
        t.cgd = s.cgd ∧ t.mem = Memory.apply s.mem e.writes) ∧
    (∀ c a n d code, v.command = some (.write a n d) → v.clip = some c → v.clipOpen = true → v.openTag = 0 →
      v.closeTag = 0 → v.scanTag = 0 → asksNoStop s .cardWrite = true →
      ∃ t, exec (.writeReply e x (.error code)) s = .next t ∧ (t.slot x).st = .faulted ∧ (t.slot x).clip = none ∧
        (t.slot x).command = none ∧ (t.slot x).current = none ∧ (t.slot x).queue = v.queue ∧
        t.flt = ((s.arrive e).fault .cardWrite (if x = .a then .slotA else .slotB) code (BitVec.ofNat 32 a)).flt ∧
        t.slot (otherSlot x) = s.slot (otherSlot x) ∧ t.shc = s.shc ∧ t.deck = s.deck ∧
        t.mem = Memory.apply s.mem e.writes) ∧
    (v.command = some .flush → v.clip = none → v.releasePending = true → (v.st = .ready ∨ v.st = .full) →
      s.cgd.st ≠ .watching →
      exec (.flushReply e x .ok) s = .next (State.release ((s.arrive e).setSlot x { v with
        st := .ready, command := none, timer := none, waiting := none, releasePending := false
        releaseSent := false }))) ∧
    ∀ c, v.command = some .flush → v.clip = some c → v.st = .closing → c.openDone = true → v.closeTag = 0 →
      v.openTag = 0 → v.releasePending = false →
      ∃ t, exec (.flushReply e x .ok) s = .next t ∧
        t.slot x = { v with
          st := if c.fullAfter then .full else .ready
          clip := none, command := none, timer := none, waiting := none
          current := match v.current with
            | some k => if k.pos < k.extent.start + k.extent.count then some k else none
            | none => none } ∧
        t.cgd.st = (if s.cgd.st = .watching then .armed else s.cgd.st) ∧
        t.sta.floor = (match c.begun with | some f => raiseFloor s.sta.floor f | none => s.sta.floor) ∧
        t.slot (otherSlot x) = s.slot (otherSlot x) ∧ t.shc = s.shc ∧ t.flt = s.flt ∧ t.deck = s.deck ∧
        t.mem = Memory.apply s.mem e.writes) ∧
  (∀ (e : Env) (x : SlotId) (s : State) (c : Clip) (a n : Nat) (d : List Byte) (o : OpenOrder),
    (s.slot (otherSlot x)).idle = true → (s.slot (otherSlot x)).clipOpen = false → s.stop.requests = [] →
    s.stop.stopping = false → s.shc.job = none →
    let v := s.slot x
    v.command = some (.write a n d) → v.st = .recording → v.clip = some c → c.openPlaced = true →
    c.openDone = false → c.openLength ≤ c.sent → v.openTag ≠ 0 →
    s.deck.openOrder = some o → o.waits (otherSlot x) = false → c.closePlaced = false → c.placed - c.sent < 131072 → c.endPoint = none →
    (c.paused = true ∨ ∀ r ∈ s.sta.index, r.frame ≠ c.next) →
    ∃ t, exec (.writeReply e x .ok) s = .next t ∧
      t.slot x = { v with
        clip := some { c with
          acked := c.sent, openDone := true
          recorded := c.recorded + ((groupsWithin c.sent c.items).length - (groupsWithin c.acked c.items).length) }
        command := none, timer := none, waiting := none, openTag := 0 } ∧
      t.deck = { s.deck with openOrder := none } ∧ t.flt = s.flt ∧ openEnded s t o ∧
      ∀ i, 1 ≤ i → i ≠ o.tag → t.tagRec i = s.tagRec i) ∧
  (∀ (e : Env) (x : SlotId) (s : State) (c : Clip),
    (s.slot (otherSlot x)).idle = true → (s.slot (otherSlot x)).clipOpen = false → s.stop.requests = [] →
    s.stop.stopping = false → s.shc.job = none →
    let v := s.slot x
    v.command = some .flush → v.clip = some c → v.st = .closing → v.releasePending = false →
    ∃ t, exec (.flushReply e x .ok) s = .next t ∧
      t.slot x = { v with
        st := if c.fullAfter then .full else .ready
        clip := none, command := none, timer := none, waiting := none, openTag := 0, closeTag := 0
        current := match v.current with
          | some k => if k.pos < k.extent.start + k.extent.count then some k else none
          | none => none } ∧
      (∀ o, c.openDone = false → v.openTag ≠ 0 → s.deck.openOrder = some o → o.waits (otherSlot x) = false →
        t.deck.openOrder = none ∧ openEnded s t o) ∧
      (∀ o, v.closeTag ≠ 0 → s.deck.closeOrder = some o → o.waits (otherSlot x) = false →
        (∀ p, s.deck.openOrder = some p → p.tag ≠ o.tag) →
        t.deck.closeOrder = none ∧ closeEnded s t (o.closed x c.recorded)) ∧
      (∀ i, 1 ≤ i → (∀ o, s.deck.openOrder = some o → o.tag ≠ i) → (∀ o, s.deck.closeOrder = some o → o.tag ≠ i) →
        t.tagRec i = s.tagRec i) ∧
      t.flt = s.flt ∧ t.mem = Memory.apply s.mem e.writes) ∧
  (∀ (x : SlotId) (s : State) (c : Clip) (o : OpenOrder), (s.slot x).clip = some c → (s.slot x).openTag ≠ 0 →
    s.deck.openOrder = some o → o.waits (otherSlot x) = true →
    s.openDone x = State.setSlot { s with deck := { s.deck with openOrder := some (o.opened x) } } x
      { s.slot x with clip := some { c with openDone := true } }) ∧
  ∀ (x : SlotId) (s : State) (frames : Nat) (o : CloseOrder), (s.slot x).closeTag ≠ 0 → s.deck.closeOrder = some o →
    o.waits (otherSlot x) = true →
    s.closeDone x frames = { s with deck := { s.deck with closeOrder := some (o.closed x frames) } }

/-- READ answered with the other slot idle and no sheet in dispatch: ERROR ends the scan and its tag CARD_FAILED; the
data go to the recogniser, and the scan goes on with the next READ, or ends, its tag COMPLETE with the result words
(R164, R165, R167). The recogniser works on the bytes read until it waits for more or the scan ends (log 35). In SEARCH
a block begins a candidate, and a byte that is no lead is passed. In PROBE a block is valid when another stands at its
end, and fails when a byte that is no lead does (near the extent's end too, log 54); in LOCKED it is valid when its
check matches; a wrong check, or a lead byte that no zero follows, sends the recogniser back to the byte after the
lead, with a bad block in LOCKED. A valid block moves the valid end, and META, a picture and AUDIO of one frame make a
group. What follows it is the next block, padding, or a bad block (R165, R166). -/
def Obligations.ReadAnsweredDuringAScan : Prop :=
  (∀ (e : Env) (x : SlotId) (s : State) (a n : Nat), (s.slot x).st = .scanning → (s.slot x).clip = none →
    (s.slot x).releasePending = false → (s.slot x).command = some (.read a n) → (s.slot x).scan.ended = false →
    (s.slot (otherSlot x)).idle = true → s.stop.requests = [] → s.stop.stopping = false → s.shc.job = none →
    s.cgd.st ≠ .watching → s.inFlight (s.slot x).scanTag = true →
    let v := s.slot x
    let ends (outcome : TagOutcome) (k : Scan) : State :=
      ((s.arrive e).setTag v.scanTag { s.tagRec v.scanTag with
        st := .done, outcome := outcome, word1 := BitVec.ofNat 32 k.validEnd, word2 := k.lastGroup
        word3 := BitVec.ofNat 32 k.groups, frame := s.ftu.counter }).setSlot x { v with
          st := .ready, command := none, timer := none, waiting := none, scanTag := 0
          scan := { k with ended := true } }
    (∀ code, exec (.readReply e x (.error code)) s = .next (State.release (ends .cardFailed v.scan))) ∧
    ∀ data, data.length = n * 512 →
      let k := v.scan.take n data
      (k.ended = true → exec (.readReply e x (.ok data)) s = .next (State.release (ends .complete k))) ∧
      (k.ended = false → k.sectorsRead < k.count →
        exec (.readReply e x (.ok data)) s = .next (State.release ((s.arrive e).setSlot x { v with
          command := some (.read (k.start + k.sectorsRead) (min 64 (k.count - k.sectorsRead)))
          timer := some (s.now + e.elapsed + 500000), waiting := none, scan := k })))) ∧
  (∀ (c : Scan) (n : Nat) (data : List Byte),
    let k := c.take n data
    Relation.ReflTransGen (fun a b : Scan => a.step = some b)
      { c with sectorsRead := c.sectorsRead + n, bytes := c.bytes ++ data } k ∧ k.step = none) ∧
  ∀ (c : Scan) (kind flags : Byte) (f : FrameNo) (p rest : List Byte), c.ended = false → 1 ≤ kind.toNat →
    kind.toNat ≤ 7 → p.length < 4294967296 →
    let block := streamBlock kind f p flags
    let head (length : Nat) : List Byte := headerBytes kind f length flags ++ [headerCheck (headerBytes kind f length flags)]
    let whole := kind = 4 ∧ c.progress = .pictured f
    let passed (m : RecogMode) : Scan := { c with
      mode := m, pos := c.pos + block.length, bytes := rest, validEnd := c.pos + block.length
      progress := if kind = 1 then .opened f
        else if (kind = 2 ∨ kind = 3) ∧ c.progress = .opened f then .pictured f else .none
      groups := if whole then c.groups + 1 else c.groups
      lastGroup := if whole then f else c.lastGroup
      sectorClean := (c.pos + block.length) % 512 == 0 }
    let sectorEnd := (c.pos + 1) % 512 = 0
    let back : Scan := { c with
      mode := .search, pos := c.pos + 1, bytes := c.bytes.drop 1, progress := .none
      sectorClean := decide sectorEnd, ended := decide (sectorEnd ∧ 64 ≤ c.blank) }
    let bad (d : Scan) : Scan := { d with badBlocks := d.badBlocks + 1 }
    let damaged := (∃ w : BitVec 16, w ≠ payloadCheck p ∧
        c.bytes = 0xA7 :: kind :: stuff ((head p.length).drop 1 ++ p ++ leBytes 2 w.toNat) ++ rest) ∨
      (∃ n b, p.length < n + 2 ∧ n < 4294967296 ∧ b ≠ 0 ∧
        c.bytes = 0xA7 :: kind :: stuff ((head n).drop 1 ++ p) ++ 0xA7 :: b :: rest)
    (c.mode = .search →
      (c.bytes = block ++ rest → c.step = some { c with mode := .probe, blank := 0, sectorClean := false }) ∧
      (∀ b, c.bytes = b :: rest → b ≠ 0xA7 →
        let blank := if sectorEnd ∧ c.sectorClean = true then c.blank + 1 else c.blank
        c.step = some { c with
          pos := c.pos + 1, bytes := rest, progress := .none, blank := blank
          sectorClean := decide sectorEnd || c.sectorClean, ended := decide (sectorEnd ∧ 64 ≤ blank) })) ∧
    (c.mode = .probe →
      (∀ k g q x r, c.bytes = block ++ rest → rest = streamBlock k g q x ++ r → 1 ≤ k.toNat → k.toNat ≤ 7 →
        c.step = some (passed .locked)) ∧
      (∀ b r, c.bytes = block ++ rest → rest = b :: r → b ≠ 0xA7 → c.step = some back) ∧
      (damaged → c.step = some back)) ∧
    (c.mode = .locked →
      (c.bytes = block ++ rest → c.step = some (passed .after)) ∧
      (damaged → c.step = some (bad back))) ∧
    (c.mode = .after →
      (c.bytes = block ++ rest → c.step = some { c with mode := .locked }) ∧
      (c.bytes = 0 :: rest → c.step = some { c with mode := .search, progress := .none }) ∧
      (∀ b, c.bytes = b :: rest → b ≠ 0 → b ≠ 0xA7 →
        c.step = some (bad { c with mode := .search, progress := .none }))) ∧
    (c.bytes = [] → c.count ≤ c.sectorsRead → c.mode ≠ .probe → c.step = some { c with ended := true })

/-- GRANT_EXTENT: refused in its order, or the extent, clamped to the card, joins the queue (R144). RECORD_MODE (R145);
SIMUL leaves the mode's slot as it stands (log 43). The part is quiet. -/
def Obligations.ExtentsGrantedAndModeSet : Prop :=
  (∀ (e : Env) (s : State) (x : SlotId) (slot final : Byte) (a n : Word),
    dispatches s .immediate 0x60 0 (p1 slot ++ p4 a ++ p4 n ++ p1 final) = true → quiet s = true →
    let v := s.slot x
    let u := s.arrive e
    let takes := (v.st = .ready ∨ v.st = .recording ∨ v.st = .closing) ∧ v.releasePending = false ∧
      v.holdsFinal = false ∧ 64 ≤ v.capacity
    let start := min a.toNat (v.capacity - 64)
    let g : Extent :=
      { start := start, count := clampNat 64 (v.capacity - start) n.toNat, final := final == 1 }
    ((1 < slot.toNat ∨ 1 < final.toNat) →
      exec (.grantExtent e 0 slot a n final) s = .next (u.finishEntry .refusedParam)) ∧
    (slotOf slot = some x → final.toNat ≤ 1 →
      (¬takes → exec (.grantExtent e 0 slot a n final) s = .next (u.finishEntry .refusedState)) ∧
      (takes → 8 ≤ v.queue.length →
        exec (.grantExtent e 0 slot a n final) s = .next (u.finishEntry .refusedFull)) ∧
      (takes → v.queue.length < 8 → (∃ h ∈ v.held, g.start < h.start + h.count ∧ h.start < g.start + g.count) →
        exec (.grantExtent e 0 slot a n final) s = .next (u.finishEntry .refusedOverlap)) ∧
      (takes → v.queue.length < 8 → (∀ h ∈ v.held, ¬(g.start < h.start + h.count ∧ h.start < g.start + g.count)) →
        exec (.grantExtent e 0 slot a n final) s = .next (State.finishEntry
          (State.release (u.setSlot x { v with queue := v.queue ++ [g] }))
          (if g.start = a.toNat ∧ g.count = n.toNat then .done else .clamped))))) ∧
  ∀ (e : Env) (s : State) (mode slot : Byte), dispatches s .immediate 0x61 0 (p1 mode ++ p1 slot) = true →
    let u := s.arrive e
    ((2 < mode.toNat ∨ (mode ≠ 1 ∧ 1 < slot.toNat)) →
      exec (.recordMode e 0 mode slot) s = .next (u.finishEntry .refusedParam)) ∧
    (mode.toNat ≤ 2 → (mode = 1 ∨ slot.toNat ≤ 1) → s.clipOpen = true →
      exec (.recordMode e 0 mode slot) s = .next (u.finishEntry .refusedRecording)) ∧
    (∀ x, slotOf slot = some x → s.clipOpen = false →
      (mode = 0 → exec (.recordMode e 0 mode slot) s = .next (State.finishEntry
        { u with deck := { s.deck with mode := .single, slot := x } } .done)) ∧
      (mode = 2 → exec (.recordMode e 0 mode slot) s = .next (State.finishEntry
        { u with deck := { s.deck with mode := .relay, slot := x } } .done))) ∧
    (mode = 1 → s.clipOpen = false → exec (.recordMode e 0 mode slot) s = .next (State.finishEntry
      { u with deck := { s.deck with mode := .simul } } .done))

/-- SLOT_RELEASE takes the grants back and sends FLUSH (R163); SCAN_EXTENT begins a scan with its first READ (R164), of
at least one sector also on a card of capacity 0 (log 36). The part is quiet, and no command is in flight on the slot. -/
def Obligations.ReleaseAndScanBegin : Prop :=
  ∀ (e : Env) (s : State) (x : SlotId) (slot : Byte), quiet s = true → s.cgd.st ≠ .watching →
    let v := s.slot x
    let u := s.arrive e
    (dispatches s .immediate 0x64 0 (p1 slot) = true →
      (1 < slot.toNat → exec (.slotRelease e 0 slot) s = .next (u.finishEntry .refusedParam)) ∧
      (slotOf slot = some x → v.st ≠ .ready → v.st ≠ .full →
        exec (.slotRelease e 0 slot) s = .next (u.finishEntry .refusedState)) ∧
      (slotOf slot = some x → (v.st = .ready ∨ v.st = .full) → v.command = none →
        exec (.slotRelease e 0 slot) s = .next (State.finishEntry
          (State.release (u.setSlot x { v with
            current := none, queue := [], releasePending := true, releaseSent := true, command := some .flush
            timer := some (s.now + e.elapsed + 1000000) })) .done))) ∧
    ∀ (tag : Byte) (a n : Word), dispatches s .required 0x65 tag (p1 slot ++ p4 a ++ p4 n) = true →
      let start := min a.toNat (v.capacity - 1)
      let count := max 1 (min n.toNat (v.capacity - start))
      (1 < slot.toNat → exec (.scanExtent e tag slot a n) s = .next (u.finishEntry .refusedParam)) ∧
      (slotOf slot = some x → v.st ≠ .ready →
        exec (.scanExtent e tag slot a n) s = .next (u.finishEntry .refusedState)) ∧
      (slotOf slot = some x → v.st = .ready → v.command = none →
        exec (.scanExtent e tag slot a n) s = .next (State.finishEntry
          (State.release ((u.acceptTag 0x65 tag).setSlot x { v with
            st := .scanning, scanTag := tag.toNat, scan := { Scan.reset with start := start, count := count }
            command := some (.read start (min 64 count)), timer := some (s.now + e.elapsed + 500000) }))
          (if start = a.toNat ∧ count = n.toNat then .accepted else .clamped)))

/-- CLIP_OPEN: refused in its order, and carried out on the slot of the mode, or in SIMUL on both, each holding one
queued extent: RECORDING, the clip record begun with the start frame (log 53), the OPEN block placed, the guard
WATCHING if it was ARMED (R146 to R149, R170). CLIP_CLOSE on one recording slot whose groups are all placed, its
command still in flight: CLOSING, with the CLOSE block and its padding placed up to the end of a sector (R157, R159,
R160). The writer of a RECORDING slot at a group, or at its OPEN block, that does not fit: with the room open it
pauses, and EXTENT_STARVED is logged once (R152); with the room bounded, by a final mark before the limit (log 63), the
clip closes there (R155), with CLIP_LIMIT where the extents beyond the 64th would have given room (R151, log 55). In
RELAY the other slot then opens a continuation under the relay id, or RELAY_FAILED is logged and ends the open tag
(R156; the other slot's state code, log 51; the words of the tag, log 34). -/
def Obligations.ClipOpenedAndClosed : Prop :=
  (∀ (e : Env) (s : State) (tag : Byte) (id cont : Word), dispatches s .required 0x62 tag (p4 id ++ p4 cont) = true →
    let u := s.arrive e
    let badIds := id = 0 ∨ (s.deck.mode = .relay ∧ (cont = 0 ∨ cont = id))
    let x := s.deck.slot
    (s.cgd.st = .tripped → exec (.clipOpen e tag id cont) s = .next (u.finishEntry .refusedGuard)) ∧
    (s.cgd.st ≠ .tripped → badIds → exec (.clipOpen e tag id cont) s = .next (u.finishEntry .refusedParam)) ∧
    (s.cgd.st ≠ .tripped → ¬badIds → (s.clipOpen = true ∨ (s.slot x).canOpen = false) →
      exec (.clipOpen e tag id cont) s = .next (u.finishEntry .refusedState)) ∧
    (s.cgd.st ≠ .tripped → ¬badIds → s.deck.mode = .simul → (s.slotA.canOpen = false ∨ s.slotB.canOpen = false) →
      exec (.clipOpen e tag id cont) s = .next (u.finishEntry .refusedState)) ∧
    (∀ g h, s.cgd.st ≠ .tripped → ¬badIds → s.clipOpen = false → s.deck.mode = .simul → s.slotA.st = .ready →
      s.slotB.st = .ready → s.slotA.current = none → s.slotB.current = none → s.slotA.queue = [g] →
      s.slotB.queue = [h] → 64 ≤ g.count → 64 ≤ h.count → quiet s = true → s.sta.index = [] →
      let begun (c : Clip) (start : Nat) : Prop := c.id = id ∧ c.prev = 0 ∧ c.continuation = false ∧
        c.first = s.startFrame ∧ c.openFrame = s.ftu.counter ∧ c.openPlaced = true ∧ c.placed = c.openLength ∧
        c.openSector = start ∧ c.sent = 0 ∧ c.closePlaced = false ∧ c.endPoint = none ∧ c.counts.groups = 0
      ∃ t a b, exec (.clipOpen e tag id cont) s = .next t ∧ t.slotA.st = .recording ∧ t.slotB.st = .recording ∧
        t.slotA.clip = some a ∧ t.slotB.clip = some b ∧ begun a g.start ∧ begun b h.start ∧
        t.slotA.openTag = tag.toNat ∧ t.slotB.openTag = tag.toNat ∧ t.slotA.queue = [] ∧ t.slotB.queue = [] ∧
        t.cgd.st = (if s.cgd.st = .armed then .watching else s.cgd.st) ∧
        t.deck.openOrder = some
          { tag := tag.toNat, clipId := id, first := s.startFrame, waitA := true, waitB := true
            usesA := true, sectorA := g.start, sectorB := h.start } ∧
        t.shc = ((u.acceptTag 0x62 tag).finishEntry .accepted).shc ∧ t.flt = s.flt ∧
        t.mem = Memory.apply s.mem e.writes) ∧
    (∀ g, s.cgd.st ≠ .tripped → ¬badIds → s.clipOpen = false → s.deck.mode ≠ .simul → (s.slot x).st = .ready →
      (s.slot x).current = none → (s.slot x).queue = [g] → 64 ≤ g.count → quiet s = true → s.sta.index = [] →
      ∃ t c, exec (.clipOpen e tag id cont) s = .next t ∧ (t.slot x).st = .recording ∧ (t.slot x).clip = some c ∧
        (t.slot x).openTag = tag.toNat ∧ (t.slot x).queue = [] ∧ (t.slot x).command = (s.slot x).command ∧
        c.id = id ∧ c.prev = 0 ∧ c.continuation = false ∧ c.first = s.startFrame ∧ c.openFrame = s.ftu.counter ∧
        c.openPlaced = true ∧ c.placed = c.openLength ∧ c.openSector = g.start ∧ c.sent = 0 ∧
        c.closePlaced = false ∧ c.endPoint = none ∧ c.counts.groups = 0 ∧
        t.cgd.st = (if s.cgd.st = .armed then .watching else s.cgd.st) ∧
        t.deck.openOrder = some
          { tag := tag.toNat, clipId := id, first := s.startFrame, waitA := x == .a, waitB := x == .b
            usesA := x == .a, sectorA := if x = .a then g.start else 0, sectorB := if x = .b then g.start else 0 } ∧
        t.deck.relayId = (if s.deck.mode = .relay then cont else s.deck.relayId) ∧
        t.shc = ((u.acceptTag 0x62 tag).finishEntry .accepted).shc ∧
        t.slot (otherSlot x) = s.slot (otherSlot x) ∧ t.flt = s.flt ∧ t.mem = Memory.apply s.mem e.writes)) ∧
  (∀ (s : State) (x : SlotId) (c : Clip) (k : FrameNo) (need : Nat), (s.slot x).st = .recording →
    (s.slot x).clip = some c → c.closePlaced = false → c.paused = false → c.endPoint = none →
    ((c.openPlaced = true ∧ k = c.next ∧
        (s.sta.index.find? fun r => r.frame == k).map (fun r => r.length + 512) = some need) ∨
      (c.openPlaced = false ∧ k = c.first ∧ need = (c.openBlock x s.deck.mode).length + 512)) →
    s.flt.kinds.length = 26 → s.shc.job = none →
    let v := s.slot x
    let room := v.heldRoom c
    room.bytes < need →
    let w := s.slot (otherSlot x)
    let source : FaultSource := match x with | .a => .slotA | .b => .slotB
    let closed (d : Clip) : Slot := { v with st := .closing, clip := some { d with
      endPoint := some (k - 1), retry := false, fullAfter := room.bound == some .final } }
    let limited := room.bound = some .limit ∧ 0 < room.beyond ∧ need ≤ room.bytes + room.beyond
    let goesOn := w.st = .ready ∧ w.releasePending = false ∧ (w.current ≠ none ∨ w.queue ≠ []) ∧ s.cgd.st ≠ .tripped
    (room.bound = none →
      let p := s.setSlot x { v with clip := some { c with paused := true } }
      s.writerStep x = some (if c.retry then p
        else p.fault .extentStarved source k (BitVec.ofNat 32 room.bytes))) ∧
    (room.bound ≠ none → ∃ t, s.writerStep x = some t ∧ (limited → logged s t .clipLimit source k 64 0) ∧
      (¬limited → t.flt.entry .clipLimit = s.flt.entry .clipLimit) ∧
      (s.deck.mode ≠ .relay → t.slot x = closed c ∧ t.slot (otherSlot x) = w ∧ t.deck = s.deck ∧
        (¬limited → t.flt = s.flt)) ∧
      (s.deck.mode = .relay → goesOn →
        t.slot x = closed { c with relayContinued := true, nextId := s.deck.relayId } ∧
        t.deck = { s.deck with relayId := if s.deck.relayId = 0xFFFFFFFF#32 then 1 else s.deck.relayId + 1 } ∧
        (t.slot (otherSlot x)).st = .recording ∧ (t.slot (otherSlot x)).openTag = 0 ∧ (¬limited → t.flt = s.flt) ∧
        ∃ d, (t.slot (otherSlot x)).clip = some d ∧ d.id = s.deck.relayId ∧ d.prev = c.id ∧ d.continuation = true ∧
          d.first = k ∧ d.next = k ∧ d.openFrame = s.ftu.counter ∧ d.openPlaced = false ∧ d.counts.groups = 0) ∧
      (s.deck.mode = .relay → ¬goesOn →
        t.slot x = { closed c with openTag := 0 } ∧ t.slot (otherSlot x) = w ∧ t.deck.relayId = s.deck.relayId ∧
        logged s t .relayFailed source (BitVec.ofNat 32 w.st.code) k v.openTag ∧
        (s.inFlight v.openTag = true → t.tagRec v.openTag =
          s.ended v.openTag (if s.flt.stands .relayFailed then .done else .held) .relayFailed 0 0 0)))) ∧
  ∀ (e : Env) (s : State) (tag : Byte), dispatches s .required 0x63 tag [] = true →
    (s.slotA.st ≠ .recording → s.slotB.st ≠ .recording →
      exec (.clipClose e tag) s = .next ((s.arrive e).finishEntry .refusedState)) ∧
    (∀ x c r, (s.slot x).st = .recording → (s.slot x).clip = some c → (s.slot x).command ≠ none →
      c.openPlaced = true → c.closePlaced = false → s.sta.index.getLast? = some r →
      (∀ k ∈ s.sta.index, k.frame ≠ c.next) → (s.slot (otherSlot x)).idle = true →
      (s.slot (otherSlot x)).clipOpen = false → s.stop.stopping = false →
      ∃ t d, exec (.clipClose e tag) s = .next t ∧ (t.slot x).st = .closing ∧ (t.slot x).clip = some d ∧
        (t.slot x).closeTag = tag.toNat ∧ (t.slot x).command = (s.slot x).command ∧
        d.endPoint = some r.frame ∧ d.closePlaced = true ∧ d.placed % 512 = 0 ∧ c.placed < d.placed ∧
        d.counts = c.counts ∧ d.sent = c.sent ∧ d.id = c.id ∧
        t.deck.closeOrder = some
          { tag := tag.toNat, waitA := x == .a, waitB := x == .b, framesA := 0, framesB := 0
            endPoint := r.frame } ∧
        t.shc = (((s.arrive e).acceptTag 0x63 tag).finishEntry .accepted).shc ∧
        t.slot (otherSlot x) = s.slot (otherSlot x) ∧ t.flt = s.flt ∧ t.cgd = s.cgd ∧
        t.mem = Memory.apply s.mem e.writes)

/-! ## Guard and safe stop (08) -/

/-- GUARD_ARM, GUARD_DISARM and SAFE_STOP_ENABLE (R171, R172, R181); the keep word of a taken sheet (R173), a
starvation frame (R174) and the trip (R175). -/
def Obligations.GuardArmsWatchesAndTrips : Prop :=
  (∀ (e : Env) (s : State) (limit : Byte), dispatches s .immediate 0x70 0 (p1 limit) = true →
    (s.cgd.st ≠ .off → exec (.guardArm e 0 limit) s = .next ((s.arrive e).finishEntry .refusedState)) ∧
    (s.cgd.st = .off → exec (.guardArm e 0 limit) s = .next (State.finishEntry
      { s.arrive e with cgd := { s.cgd with
          st := if s.slotA.st = .recording ∨ s.slotB.st = .recording then .watching else .armed
          expected := 0x6E19, count := 0, limit := clampNat 2 120 limit.toNat, starved := false } }
      (if 2 ≤ limit.toNat ∧ limit.toNat ≤ 120 then .done else .clamped)))) ∧
  (∀ (e : Env) (s : State), dispatches s .immediate 0x71 0 [] = true →
    (s.cgd.st ≠ .armed → exec (.guardDisarm e 0) s = .next ((s.arrive e).finishEntry .refusedState)) ∧
    (s.cgd.st = .armed → exec (.guardDisarm e 0) s = .next (State.finishEntry
      { s.arrive e with cgd := { s.cgd with st := .off, count := 0, starved := false } } .done))) ∧
  (∀ (e : Env) (s : State), dispatches s .immediate 0x75 0 [] = true →
    exec (.safeStopEnable e 0) s = .next (State.finishEntry
      { s.arrive e with stop := { s.stop with enable := true } } .done)) ∧
  (∀ (s : State) (w : Word),
    let accepted : State := { s with cgd := { s.cgd with
      expected := if s.cgd.expected = 0x6E19 then 0x91E6 else 0x6E19, count := 0, starved := false } }
    ((s.cgd.st = .off ∨ s.cgd.st = .tripped) → s.keepWord w = (s, false)) ∧
    ((s.cgd.st = .armed ∨ s.cgd.st = .watching) → w = s.cgd.expected → s.keepWord w = (accepted, false)) ∧
    (s.cgd.st = .armed → w ≠ s.cgd.expected →
      s.keepWord w = (s.fault .guardKey .none w s.cgd.expected, false)) ∧
    (s.cgd.st = .watching → w ≠ s.cgd.expected → s.keepWord w = (s.trip 1 w, true))) ∧
  (∀ s : State,
    let n := min 65535 (s.cgd.count + 1)
    let counted (starved : Bool) : State := { s with cgd := { s.cgd with count := n, starved := starved } }
    ((s.shc.part ≠ .running ∨ s.cgd.st = .off ∨ s.cgd.st = .tripped) → s.starve = s) ∧
    (s.shc.part = .running → s.cgd.st = .armed → n = s.cgd.limit → s.cgd.starved = false →
      s.starve = (counted true).fault .guardStarved .none (BitVec.ofNat 32 n) (BitVec.ofNat 32 s.cgd.limit)) ∧
    (s.shc.part = .running → s.cgd.st = .armed → (n ≠ s.cgd.limit ∨ s.cgd.starved = true) →
      s.starve = counted s.cgd.starved) ∧
    (s.shc.part = .running → s.cgd.st = .watching → n < s.cgd.limit → s.starve = counted s.cgd.starved) ∧
    (s.shc.part = .running → s.cgd.st = .watching → s.cgd.limit ≤ n →
      s.starve = (counted s.cgd.starved).trip 2 (BitVec.ofNat 32 n))) ∧
  ∀ (s : State) (cause detail : Word), s.trip cause detail = State.fault
    { s with cgd := { s.cgd with st := .tripped }
             stop := { s.stop with requests := s.stop.requests ++ [.guard] } } .guardTrip .none cause detail

/-- SAFE_STOP in a part with no clip open and no move in flight: the request is taken in the step that sends it (log
14), and the stop starts and ends in it, with its record, the enable cleared and the SAFE cause raised (R178, R180,
R181). A request that comes while STOPPING is merged (R179); one that starts a stop closes every RECORDING slot's clip
at the newest group and marks it (R158, R178). The requests of one step make one stop, the first as its source and the
others merged into it (R177, log 65). The stop ends when no slot is CLOSING, in RESETTING with the reset (R180). -/
def Obligations.SafeStopTakesRequests : Prop :=
  (∀ (e : Env) (s : State), dispatches s .immediate 0x74 0 [] = true → quiet s = true → s.clipOpen = false →
    s.shc.part = .running → (∀ x, (s.ldu.axis x).move = .none) → s.ldu.shot = .idle →
    ∃ t, exec (.safeStop e 0) s = .next t ∧
      t.stop = { stopping := false, enable := false, requests := [], kept := s.stop.kept
                 record := some { source := .order, startFrame := s.ftu.counter, endFrame := some s.ftu.counter
                                  merged := 0 } } ∧
      t.shc = { (s.finishEntry .done).shc with attSafe := true } ∧
      t.ldu = { s.ldu with owner := .order, releaseWait := s.ldu.releaseWait || !s.ldu.lockout } ∧
      t.slotA = s.slotA ∧ t.slotB = s.slotB ∧ t.deck = s.deck ∧ t.cgd = s.cgd ∧ t.flt = s.flt ∧ t.vfl = s.vfl ∧
      t.ftu = s.ftu ∧ t.mst = s.mst ∧ t.acu = s.acu ∧ t.mem = Memory.apply s.mem e.writes) ∧
  (∀ (s : State) (r : StopSource) (k : StopRecord), s.stop.stopping = true → s.stop.record = some k →
    s.takeStop r = { s with stop := { s.stop with record := some { k with merged := min 255 (k.merged + 1) } } }) ∧
  (∀ (s : State) (r : StopSource) (x : SlotId) (c : Clip) (g : IndexRec), s.stop.stopping = false →
    (s.slot x).st = .recording → (s.slot x).clip = some c → s.sta.index.getLast? = some g →
    let t := s.takeStop r
    t.stop.stopping = true ∧ t.stop.enable = false ∧
      t.stop.record = some { source := r, startFrame := s.ftu.counter, endFrame := none, merged := 0 } ∧
      (t.slot x).st = .closing ∧
      (t.slot x).clip = some { c with
        safeStopped := true, endPoint := some g.frame, retry := c.paused, paused := false } ∧
      t.shc.attSafe = s.shc.attSafe ∧ t.mem = s.mem) ∧
  (∀ (s : State) (r : StopSource) (rs : List StopSource), s.stop.stopping = false → s.stop.requests = r :: rs →
    s.takeStops =
      { State.takeStop { s with stop := { s.stop with requests := [] } } r with
        stop := { stopping := true, enable := false, requests := [], kept := s.stop.kept
                  record := some { source := r, startFrame := s.ftu.counter, endFrame := none
                                   merged := min 255 rs.length } } }) ∧
  (∀ (s : State) (k : StopRecord), s.stop.stopping = true → s.stop.record = some k →
    s.slotA.st ≠ .closing → s.slotB.st ≠ .closing →
    let t : State := { s with
      stop := { s.stop with stopping := false, record := some { k with endFrame := some s.ftu.counter } }
      shc := { s.shc with attSafe := true } }
    s.judgeStop = if s.shc.part = .resetting then t.softReset else t) ∧
  ∀ s : State, (s.stop.stopping = false ∨ s.slotA.st = .closing ∨ s.slotB.st = .closing) → s.judgeStop = s

/-! ## Viewfinder (09) -/

/-- A status byte reaches the VFL: it is kept, it brings a link that is down up, and the rows are all marked dirty
when the link comes up or the refresh flag is set; the flag's bit is a free value (R183, log 37). The VFL takes a
frame start once the owners of its values have taken it: the link is judged, the warnings age, the page is composed,
the rows that changed are marked (in row order, log 52), and up to four are sent, or an idle message (R183 to R186,
R194, log 38). -/
def Obligations.ViewfinderStatusAndFrames : Prop :=
  (∀ (e : Env) (s : State) (b : Byte),
    let v := s.vfl
    let all := v.dirty ++ (List.range 16).filter (fun r => !v.dirty.contains r)
    (s.active = false → exec (.vfStatus e b) s = .next (s.arrive e)) ∧
    (s.active = true → v.up = false → exec (.vfStatus e b) s = .next { s.arrive e with
      vfl := { v with status := some b, received := true, up := true, misses := 0, dirty := all } }) ∧
    (s.active = true → v.up = true → exec (.vfStatus e b) s = .next { s.arrive e with
      vfl := { v with status := some b, received := true
                      dirty := if b.getLsbD Config.refreshFlagBit then all else v.dirty } })) ∧
  ∀ (e : Env) (s : State) (x : FrameStart) (rest : List FrameStart), s.vfl.arriving = x :: rest →
    (s.ownersReady x.opened.frame = false → exec (.vflFrameStart e) s = .next (s.arrive e)) ∧
    (s.ownersReady x.opened.frame = true →
      let v := s.vfl
      let up := v.received || (v.up && decide (v.misses + 1 < 10))
      ∃ t, exec (.vflFrameStart e) s = .next t ∧ t.vfl.arriving = rest ∧ t.vfl.received = false ∧
        (v.received = true → v.up = true → t.vfl.up = true ∧ t.vfl.misses = 0) ∧
        (v.received = false → v.up = true → t.vfl.up = up ∧ t.vfl.misses = v.misses + 1) ∧
        (v.up = false → t.vfl.up = false) ∧
        t.vfl.warnings = (v.warnings.filter fun w => w.life != 1).map
          (fun w => if w.life = 0 then w else { w with life := w.life - 1 }) ∧
        t.vfl.items = v.items ∧ t.vfl.texts = v.texts ∧ t.vfl.status = v.status ∧
        t.vfl.page = t.vfl.compose (s.offer x.opened) ∧
        (let d := v.dirty ++
          (List.range 16).filter (fun r => v.page.getD r [] != t.vfl.page.getD r [] && !v.dirty.contains r)
         ((t.vfl.up = false ∨ d = []) → t.vfl.sent = [.idle] ∧ t.vfl.dirty = d) ∧
         (t.vfl.up = true → d ≠ [] → t.vfl.dirty = d.drop 4 ∧
           t.vfl.sent = (d.take 4).map fun r => .row r (t.vfl.page.getD r []))) ∧
        { t with vfl := s.vfl } = s.arrive e)

/-- VF_ITEM and VF_TEXT, whose COMMON_BUS names the lowest failing address (R187, R188, log 9). -/
def Obligations.ItemsAndTextsSet : Prop :=
  (∀ (e : Env) (s : State) (index enable row column width blink inverse colour kind k1 k2 : Byte),
    dispatches s .immediate 0x78 0 (p1 index ++ p1 enable ++ p1 row ++ p1 column ++ p1 width ++ p1 blink ++
      p1 inverse ++ p1 colour ++ p1 kind ++ p1 k1 ++ p1 k2) = true →
    let flags := enable.toNat ≤ 1 ∧ blink.toNat ≤ 1 ∧ inverse.toNat ≤ 1
    let form : Option ItemKind :=
      if kind = 0 then some (.text (min k1.toNat 63))
      else if kind = 1 ∧ k1.toNat ≤ 14 ∧ k2.toNat ≤ 2 then some (.value k1.toNat k2.toNat)
      else if kind = 2 ∧ 1 ≤ k1.toNat ∧ k1.toNat ≤ 4 then some (.meter k1.toNat (clampNat 1 40 k2.toNat))
      else if kind = 3 then some .warning
      else none
    let col := min column.toNat 39
    let w := min (clampNat 1 40 width.toNat) (40 - col)
    let kept := index.toNat ≤ 31 ∧ row.toNat ≤ 15 ∧ column.toNat ≤ 39 ∧ w = width.toNat ∧ colour.toNat ≤ 3 ∧
      (kind = 0 → k1.toNat ≤ 63) ∧ (kind = 2 → 1 ≤ k2.toNat ∧ k2.toNat ≤ 40)
    ((¬flags ∨ form = none) →
      exec (.vfItem e 0 index enable row column width blink inverse colour kind k1 k2) s =
        .next ((s.arrive e).finishEntry .refusedParam)) ∧
    (∀ k, flags → form = some k →
      exec (.vfItem e 0 index enable row column width blink inverse colour kind k1 k2) s =
        .next (State.finishEntry { s.arrive e with vfl := { s.vfl with
            items := s.vfl.items.set (min index.toNat 31)
              { enabled := enable == 1, row := min row.toNat 15, column := col, width := w, blink := blink == 1
                inverse := inverse == 1, colour := min colour.toNat 3, kind := k } } }
          (if kept then .done else .clamped)))) ∧
  ∀ (e : Env) (s : State) (first count : Byte) (a : Word),
    dispatches s .immediate 0x79 0 (p1 first ++ p1 count ++ p4 a) = true →
    let u := s.arrive e
    let f := min first.toNat 63
    let n := clampNat 1 (64 - f) count.toNat
    let code (b : Byte) : Byte :=
      if (0x20 ≤ b.toNat ∧ b.toNat ≤ 0x7E) ∨ (0x80 ≤ b.toNat ∧ b.toNat ≤ 0x9F) then b else 0x20
    (a.toNat % 4 ≠ 0 → exec (.vfText e 0 first count a) s = .next (u.finishEntry .refusedParam)) ∧
    (∀ bad, a.toNat % 4 = 0 → u.busError a.toNat (16 * n) = some bad → asksNoStop s .commonBus = true →
      exec (.vfText e 0 first count a) s =
        .next ((u.fault .commonBus .none 7 (BitVec.ofNat 32 bad)).finishEntry .refusedParam)) ∧
    (a.toNat % 4 = 0 → u.busError a.toNat (16 * n) = none → s.vfl.texts.length = 64 →
      exec (.vfText e 0 first count a) s = .next (State.finishEntry { u with vfl := { s.vfl with
          texts := (List.range 64).map fun i =>
            if f ≤ i ∧ i < f + n then (Memory.readAll u.mem (a.toNat + 16 * (i - f)) 16).map code
            else s.vfl.texts.getD i [] } }
        (if first.toNat ≤ 63 ∧ n = count.toNat then .done else .clamped)))

/-- VF_WARNING posts, refreshes and removes warnings, and refuses what does not fit (R194, R195); VF_TALLY sets the
named tally outputs, which are judged at once; an output that is not named stands (R197, R198). -/
def Obligations.WarningsAndTallySet : Prop :=
  (∀ (e : Env) (s : State) (action code priority text : Byte) (life : Half),
    dispatches s .immediate 0x7A 0 (p1 action ++ p1 code ++ p1 priority ++ p1 text ++ p2 life) = true →
    let u := s.arrive e
    let l := s.vfl.warnings
    let w : Warning :=
      { code := code.toNat, priority := min priority.toNat 7, text := min text.toNat 63, posted := true
        life := life.toNat }
    let listed := ∃ x ∈ l, x.code = code.toNat
    let result : Result := if priority.toNat ≤ 7 ∧ text.toNat ≤ 63 then .done else .clamped
    let after (k : List Warning) : State := { u with vfl := { s.vfl with warnings := k } }
    ((1 < action.toNat ∨ code.toNat < 32) →
      exec (.vfWarning e 0 action code priority text life) s = .next (u.finishEntry .refusedParam)) ∧
    (32 ≤ code.toNat → action = 0 →
      (listed → exec (.vfWarning e 0 action code priority text life) s = .next (State.finishEntry
        (after (l.map fun x => if x.code = code.toNat then
          { x with priority := w.priority, text := w.text, life := w.life } else x)) result)) ∧
      (¬listed → l.length < 16 →
        exec (.vfWarning e 0 action code priority text life) s = .next (State.finishEntry (after (l ++ [w])) result)) ∧
      (¬listed → 16 ≤ l.length → (∀ x ∈ l, w.priority ≤ x.priority) →
        exec (.vfWarning e 0 action code priority text life) s = .next (u.finishEntry .refusedFull)) ∧
      (∀ old x new, ¬listed → 16 ≤ l.length → l = old ++ x :: new → x.priority < w.priority →
        (∀ y ∈ old, x.priority < y.priority) → (∀ y ∈ new, x.priority ≤ y.priority) →
        exec (.vfWarning e 0 action code priority text life) s =
          .next (State.finishEntry (after (old ++ new ++ [w])) result))) ∧
    (32 ≤ code.toNat → action = 1 →
      (listed → exec (.vfWarning e 0 action code priority text life) s = .next (State.finishEntry
        (after (l.filter fun x => x.code != code.toNat)) .done)) ∧
      (¬listed → exec (.vfWarning e 0 action code priority text life) s = .next (u.finishEntry .refusedState)))) ∧
  ∀ (e : Env) (s : State) (output setting : Byte), dispatches s .immediate 0x7B 0 (p1 output ++ p1 setting) = true →
    let x : TallySetting := if setting = 0 then .auto else if setting = 1 then .off else if setting = 2 then .on else .blink
    let state (y : TallySetting) : TallyState :=
      match y with | .auto => s.autoTally | .off => .off | .on => .on | .blink => .blink
    ((2 < output.toNat ∨ 3 < setting.toNat) →
      exec (.vfTally e 0 output setting) s = .next ((s.arrive e).finishEntry .refusedParam)) ∧
    (output.toNat ≤ 2 → setting.toNat ≤ 3 → ∃ t, exec (.vfTally e 0 output setting) s = .next t ∧
      t.vfl.front.setting = (if output = 2 then s.vfl.front.setting else x) ∧
      t.vfl.rear.setting = (if output = 1 then s.vfl.rear.setting else x) ∧
      (output = 2 → t.vfl.front = s.vfl.front) ∧ (output ≠ 2 → t.vfl.front.st = state x) ∧
      (output = 1 → t.vfl.rear = s.vfl.rear) ∧ (output ≠ 1 → t.vfl.rear.st = state x) ∧
      (t.vfl.front.st = .blink → s.vfl.front.st ≠ .blink → t.vfl.front.blinkCount = 0) ∧
      (t.vfl.rear.st = .blink → s.vfl.rear.st ≠ .blink → t.vfl.rear.blinkCount = 0) ∧
      { t.vfl with front := s.vfl.front, rear := s.vfl.rear } = s.vfl ∧
      { t with vfl := s.vfl } = (s.arrive e).finishEntry .done)

/-! ## Faults (10) -/

/-- An occurrence: it is counted and placed, it fills the capture of a kind that did not stand, its completion is held
by that capture, and its route asks for a safe stop; the other kinds stay as they are (R202 to R204). A kind that enters
a set with a mapping is told to the VFL: its warning is refreshed in its place, or joins the list, which may evict the
oldest of the lowest priority, or is dropped and counted (R193, R195). -/
def Obligations.OccurrenceIsLogged : Prop :=
  ∀ (s : State) (o : Occurrence), s.flt.kinds.length = 26 → s.shc.tags.length = 32 →
    let k := o.kind
    let t := s.occur o
    let before := s.flt.entry k
    let after := t.flt.entry k
    let fresh : Capture :=
      { frame := s.ftu.counter, source := o.source, detail1 := o.detail1, detail2 := o.detail2, tag := 0 }
    after.count = min 255 (before.count + 1) ∧ after.route = before.route ∧ after.mapping = before.mapping ∧
    t.flt.stands k = true ∧
    (s.flt.first = none → t.flt.first = some k ∧ after.inNext = before.inNext) ∧
    (∀ f, s.flt.first = some f → t.flt.first = some f ∧ after.inNext = true) ∧
    (∀ i, i ≠ k → t.flt.entry i = s.flt.entry i) ∧
    (s.flt.stands k = true → after.capture = before.capture) ∧
    (s.flt.stands k = false → o.completion = none → after.capture = fresh) ∧
    (∀ c, s.flt.stands k = false → o.completion = some c → s.openedByJob c.tag = false →
      (s.inFlight c.tag = false → after.capture = fresh) ∧
      (s.inFlight c.tag = true → after.capture = { fresh with tag := c.tag } ∧
        t.tagRec c.tag = { st := .held, kind := (s.tagRec c.tag).kind, outcome := c.outcome, word1 := c.word1
                           word2 := c.word2, word3 := c.word3, frame := s.ftu.counter })) ∧
    t.stop = { s.stop with requests := s.stop.requests ++
      (if before.route = .safeStop ∧ k ≠ .guardTrip ∧ s.stop.enable = true then [.fault k] else []) } ∧
    (let enters := s.flt.first = none ∨ before.inNext = false
     let l := s.vfl.warnings
     let listed := ∃ x ∈ l, x.code = k.number
     let w (m : Mapping) : Warning :=
      { code := k.number, priority := m.priority, text := m.text, posted := false, life := 0 }
     ((s.active = false ∨ before.mapping = none ∨ ¬enters) → t.vfl = s.vfl) ∧
     (∀ m, s.active = true → before.mapping = some m → enters →
      (listed → t.vfl = { s.vfl with warnings := l.map fun x => if x.code = k.number then
        { x with priority := m.priority, text := m.text, life := 0 } else x }) ∧
      (¬listed → l.length < 16 → t.vfl = { s.vfl with warnings := l ++ [w m] }) ∧
      (¬listed → 16 ≤ l.length → (∀ x ∈ l, m.priority ≤ x.priority) →
        t.vfl = { s.vfl with droppedWarnings := min 65535 (s.vfl.droppedWarnings + 1) }) ∧
      (∀ old x new, ¬listed → 16 ≤ l.length → l = old ++ x :: new → x.priority < m.priority →
        (∀ y ∈ old, x.priority < y.priority) → (∀ y ∈ new, x.priority ≤ y.priority) →
        t.vfl = { s.vfl with warnings := old ++ new ++ [w m] }))) ∧
    t.mem = s.mem ∧ t.ftu = s.ftu ∧ t.ldu = s.ldu ∧ t.mst = s.mst ∧ t.acu = s.acu ∧ t.sta = s.sta ∧
    t.slotA = s.slotA ∧ t.slotB = s.slotB ∧ t.deck = s.deck ∧ t.cgd = s.cgd

/-- CLEAR_FAULTS with one used place: refused when the place is not allowed; CLEAR_HELD and CLEAR_STALE change nothing;
else the kind leaves the sets named, and with the last of them its count and its capture are cleared and its warning is
removed, and a completion that waits to be held by it waits without hold (R193, R203, R207, R208, log 42).
SET_FAULT_ROUTE sets the route and the mapping of a kind, GUARD_TRIP's excepted (R210). -/
def Obligations.FaultsClearedAndRouted : Prop :=
  (∀ (e : Env) (s : State) (p : ClearPlace) (z2 z3 z4 z5 z6 : ClearPlace), z2.kind = 0 → z3.kind = 0 → z4.kind = 0 →
    z5.kind = 0 → z6.kind = 0 → p.kind ≠ 0 → s.flt.kinds.length = 26 →
    dispatches s .immediate 0x7C 0 (p3 p ++ p3 z2 ++ p3 z3 ++ p3 z4 ++ p3 z5 ++ p3 z6) = true →
    let u := s.arrive e
    ((26 < p.kind.toNat ∨ p.set = 0 ∨ 3 < p.set.toNat) →
      exec (.clearFaults e 0 p z2 z3 z4 z5 z6) s = .next (u.finishEntry .refusedParam)) ∧
    let unheld (k : FaultKind) : Shc := { s.shc with job := s.shc.job.map fun j =>
      { j with late := j.late.map fun h => if h.hold = some k then { h with hold := none } else h } }
    (∀ k : FaultKind, p.kind.toNat = k.number → 1 ≤ p.set.toNat → p.set.toNat ≤ 3 →
      let r := s.flt.entry k
      (r.capture.tag ≠ 0 → exec (.clearFaults e 0 p z2 z3 z4 z5 z6) s = .next (u.finishEntry .clearHeld)) ∧
      (r.capture.tag = 0 → r.count ≠ p.seen.toNat →
        exec (.clearFaults e 0 p z2 z3 z4 z5 z6) s = .next (u.finishEntry .clearStale)) ∧
      (r.capture.tag = 0 → r.count = p.seen.toNat →
        ∃ t, exec (.clearFaults e 0 p z2 z3 z4 z5 z6) s = .next t ∧
          t.flt.first = (if p.set ≠ 2 ∧ s.flt.first = some k then none else s.flt.first) ∧
          (t.flt.entry k).inNext = (if p.set = 1 then r.inNext else false) ∧
          (s.flt.stands k = true → t.flt.stands k = false → (t.flt.entry k).count = 0 ∧
            (t.flt.entry k).capture = { frame := 0, source := .none, detail1 := 0, detail2 := 0, tag := 0 }) ∧
          ((s.flt.stands k = false ∨ t.flt.stands k = true) →
            (t.flt.entry k).count = r.count ∧ (t.flt.entry k).capture = r.capture) ∧
          t.vfl = (if s.flt.stands k = true ∧ t.flt.stands k = false ∧ s.active = true then
            { s.vfl with warnings := s.vfl.warnings.filter fun w => w.code != k.number } else s.vfl) ∧
          (t.flt.entry k).route = r.route ∧ (t.flt.entry k).mapping = r.mapping ∧
          (∀ i, i ≠ k → t.flt.entry i = s.flt.entry i) ∧
          t.shc = (State.finishEntry { s with
            shc := if s.flt.stands k = true ∧ t.flt.stands k = false then unheld k else s.shc } .done).shc ∧
          t.stop = s.stop ∧ t.ldu = s.ldu ∧ t.slotA = s.slotA ∧ t.slotB = s.slotB ∧ t.mem = Memory.apply s.mem e.writes))) ∧
  ∀ (e : Env) (s : State) (kind route mapping priority text : Byte),
    dispatches s .immediate 0x7D 0 (p1 kind ++ p1 route ++ p1 mapping ++ p1 priority ++ p1 text) = true →
    let u := s.arrive e
    ((kind = 0 ∨ 26 < kind.toNat ∨ kind = 7 ∨ 2 < route.toNat ∨ 1 < mapping.toNat) →
      exec (.setFaultRoute e 0 kind route mapping priority text) s = .next (u.finishEntry .refusedParam)) ∧
    (∀ k : FaultKind, kind.toNat = k.number → k ≠ .guardTrip → route.toNat ≤ 2 →
      let r : Route := if route = 0 then .none else if route = 1 then .attention else .safeStop
      let with_ (m : Option Mapping) : State := { u with flt := { s.flt with
        kinds := s.flt.kinds.set (k.number - 1) { s.flt.entry k with route := r, mapping := m } } }
      (mapping = 0 → exec (.setFaultRoute e 0 kind route mapping priority text) s =
        .next ((with_ none).finishEntry .done)) ∧
      (mapping = 1 → exec (.setFaultRoute e 0 kind route mapping priority text) s =
        .next ((with_ (some ⟨min priority.toNat 7, min text.toNat 63⟩)).finishEntry
          (if priority.toNat ≤ 7 ∧ text.toNat ≤ 63 then .done else .clamped))))
end

