-- ==== Sys2Proof/Laws/Audio.lean ====
section
/-! SUPPORT. The meters of a channel: the frame peak, the meter value, and the holds after a block (R105 to R107); and
that no sample of a block is larger than full scale (R104). -/

namespace Sys2Proof.Machine

/-- No sample is larger than the frame peak. -/
theorem le_peakOf {l : List Int} {v : Int} (h : v ∈ l) : v.natAbs ≤ peakOf l := by
  induction l with
  | nil => cases h
  | cons a r ih =>
    rcases List.mem_cons.mp h with rfl | h
    · exact Nat.le_max_left _ _
    · exact (ih h).trans (Nat.le_max_right _ _)

/-- The frame peak is 0 or the size of a sample. -/
theorem peakOf_attained (l : List Int) : peakOf l = 0 ∨ ∃ v ∈ l, v.natAbs = peakOf l := by
  induction l with
  | nil => exact Or.inl rfl
  | cons a r ih =>
    rcases Nat.le_total (peakOf r) a.natAbs with h | h
    · exact Or.inr ⟨a, List.mem_cons_self, (Nat.max_eq_left h).symm⟩
    · have e : peakOf (a :: r) = peakOf r := Nat.max_eq_right h
      rcases ih with z | ⟨v, hv, k⟩
      · exact Or.inl (e.trans z)
      · exact Or.inr ⟨v, List.mem_cons_of_mem _ hv, k.trans e.symm⟩

/-- In a rising list the entries up to a bound come first, so their number tells which they are. -/
theorem lt_length_filter_le {l : List Nat} (h : l.Pairwise (· < ·)) (p i : Nat) (hi : i < l.length) :
    i < (l.filter fun m => decide (m ≤ p)).length ↔ l.getD i 0 ≤ p := by
  induction l generalizing i with
  | nil => simp at hi
  | cons a r ih =>
    obtain ⟨ha, hr⟩ := List.pairwise_cons.mp h
    by_cases hp : a ≤ p
    · cases i with
      | zero => simp [hp]
      | succ i => simpa [hp] using ih hr i (by simpa using hi)
    · have none : r.filter (fun m => decide (m ≤ p)) = [] :=
        List.filter_eq_nil_iff.mpr fun m hm => by simpa using (Nat.lt_of_not_le hp).trans (ha m hm)
      have above : ¬ (a :: r).getD i 0 ≤ p := by
        cases i with
        | zero => simpa using hp
        | succ i =>
          have hi : i < r.length := by simpa using hi
          rw [List.getD_cons_succ, List.getD_eq_getElem _ _ hi]
          exact Nat.not_le.mpr ((Nat.lt_of_not_le hp).trans (ha _ (List.getElem_mem hi)))
      rw [List.filter_cons_of_neg (by simpa using hp), none]
      simp only [List.length_nil, Nat.not_lt_zero, above]

/-- The thresholds rise. -/
theorem meterTable_rises : meterTable.Pairwise (· < ·) := by decide

/-- The meter value of a peak is the number of thresholds it reaches (R105). -/
theorem lt_meterOf_iff (p i : Nat) (hi : i < 120) : i < meterOf p ↔ meterTable.getD i 0 ≤ p :=
  lt_length_filter_le meterTable_rises p i hi

theorem meterOf_le (p : Nat) : meterOf p ≤ 120 := List.length_filter_le _ meterTable

/-- A channel is over where its frame peak is full scale, no sample being larger (R107). -/
theorem overIn_eq {out : List Int} (h : ∀ v ∈ out, v.natAbs ≤ 8388607) : overIn out = (peakOf out == 8388607) := by
  rw [Bool.eq_iff_iff, overIn, List.any_eq_true]
  constructor
  · rintro ⟨v, hv, e⟩
    have e : v.natAbs = 8388607 := by simpa using e
    rcases peakOf_attained out with z | ⟨w, hw, k⟩
    · have := le_peakOf hv
      omega
    · have := le_peakOf hv
      have := h w hw
      simp only [beq_iff_eq]
      omega
  · intro e
    have e : peakOf out = 8388607 := by simpa using e
    rcases peakOf_attained out with z | ⟨w, hw, k⟩
    · omega
    · exact ⟨w, hw, by simpa using k.trans e⟩

/-- The meters after a block follow its output (R105 to R107). -/
theorem Channel.meterBlock_follows (k : Channel) (n : Nat) {out : List Int} (h : ∀ v ∈ out, v.natAbs ≤ 8388607) :
    metersFollow n out k (k.meterBlock n (peakOf out)) := by
  have full := overIn_eq h
  have meter : (k.meterBlock n (peakOf out)).meter = meterOf (peakOf out) := by
    unfold Channel.meterBlock
    dsimp only
    repeat' split
    all_goals rfl
  refine ⟨⟨peakOf out, fun v => le_peakOf, peakOf_attained out, ?_, ?_⟩, ?_, ?_⟩
  · rw [meter]; exact meterOf_le _
  · intro i hi
    rw [meter]
    exact lt_meterOf_iff _ i hi
  · rw [meter]
    unfold Channel.meterBlock
    dsimp only
    by_cases a : k.held ≤ meterOf (peakOf out)
    · simp only [a, true_or, if_true]
      repeat' split
      all_goals rfl
    · by_cases b : k.holdCount ≤ 1
      · have b' : k.holdCount - 1 = 0 := by omega
        simp only [a, b, b', or_true, if_true, if_false]
        repeat' split
        all_goals rfl
      · have b' : ¬ k.holdCount - 1 = 0 := by omega
        simp only [a, b, b', or_self, if_false]
        repeat' split
        all_goals rfl
  · rw [full]
    unfold Channel.meterBlock
    dsimp only
    by_cases a : peakOf out = 8388607
    · simp only [a, beq_self_eq_true, if_true]
    · have a' : (peakOf out == 8388607) = false := by simpa using a
      simp only [a', Bool.false_eq_true, if_false]
      by_cases b : k.overCount = 0
      · simp only [b, lt_irrefl, if_false, if_true]
        repeat' split
        all_goals simp
      · have b' : 0 < k.overCount := Nat.pos_of_ne_zero b
        simp only [b, b', if_true, if_false]
        have c : (k.overCount != 1) = decide (1 < k.overCount) := by
          rw [Bool.eq_iff_iff]; simp; omega
        simp_all

/-! ## The channel output (R101 to R104) -/

/-- An entry of a list, or the default, has what all entries and the default have. -/
theorem getD_of_forall {α : Type} {P : α → Prop} {l : List α} {d : α} (hl : ∀ v ∈ l, P v) (hd : P d) (i : Nat) :
    P (l.getD i d) := by
  by_cases h : i < l.length
  · rw [List.getD_eq_getElem _ _ h]
    exact hl _ (List.getElem_mem h)
  · rw [List.getD_eq_default _ _ (Nat.le_of_not_lt h)]
    exact hd

/-- A limit is a sample size (R104). -/
theorem limitOf_bounds (t : Int) : 0 ≤ limitOf t ∧ limitOf t ≤ 8388607 :=
  getD_of_forall (P := fun v : Int => 0 ≤ v ∧ v ≤ 8388607) (by decide) (by decide) _

/-- A tone sample is a sample (R102). -/
theorem toneSample_le (level phase : Nat) : (toneSample level phase).natAbs ≤ 8388607 := by
  unfold toneSample
  split
  all_goals exact getD_of_forall (P := fun v : Int => v.natAbs ≤ 8388607) (by decide) (by decide) _

/-- The limiter's output is no larger than its limit (R104). -/
theorem limit_le (t release l y : Int) (h : 0 ≤ t) : ((limit t release l y).1.natAbs : Int) ≤ t := by
  unfold limit signed size
  dsimp only
  split
  · split <;> simp only <;> omega
  · simp only; omega

/-- A channel's output is a sample, where the tone is one (R104). -/
theorem Channel.chain_le (c : Channel) (tone x : Int) (h : tone.natAbs ≤ 8388607) :
    (c.chain tone x).1.natAbs ≤ 8388607 := by
  unfold Channel.chain
  split
  · have a := limit_le (limitOf c.now.threshold) c.now.release c.limiter (gained (gainOf c.now.gain) x)
      (limitOf_bounds _).1
    have b := (limitOf_bounds c.now.threshold).2
    omega
  · exact h
  · simp

/-- Every sample of a block is no larger than full scale. -/
theorem workSets_le (level : Nat) (sets : List AudioSet) (p : Nat) (q : Quad Channel) :
    ∀ x ∈ (workSets level sets p q).1, ∀ v ∈ x.list, v.natAbs ≤ 8388607 := by
  induction sets generalizing p q with
  | nil => simp [workSets]
  | cons a r ih =>
    intro x hx
    rcases List.mem_cons.mp hx with rfl | hx
    · intro v hv
      simp only [Quad.list, Quad.map, Quad.zip, List.mem_cons, List.not_mem_nil, or_false] at hv
      rcases hv with rfl | rfl | rfl | rfl
      all_goals exact Channel.chain_le _ _ _ (toneSample_le _ _)
    · exact ih _ _ x hx

end Sys2Proof.Machine
end

