-- ==== Sys2Proof/Laws/Memory.lean ====
section
/-! SUPPORT. The canonical form of common memory: every operation keeps it, and a byte written reads back. -/

namespace Sys2Proof.Machine

theorem Memory.wfFrom_mono {lo hi : Nat} (h : lo ≤ hi) : ∀ {m : List Host.Cell},
    Memory.wfFrom hi m = true → Memory.wfFrom lo m = true
  | [], _ => rfl
  | (a, v) :: r, w => by
    simp only [Memory.wfFrom, Bool.and_eq_true, decide_eq_true_eq] at w ⊢
    exact ⟨⟨by omega, w.1.2⟩, w.2⟩

/-- A write keeps the form from any bound below the address. -/
theorem Memory.wfFrom_write {lo a : Nat} {v : Byte} (h : lo ≤ a) : ∀ {m : List Host.Cell},
    Memory.wfFrom lo m = true → Memory.wfFrom lo (Memory.write a v m) = true
  | [], _ => by
    by_cases hv : v = Memory.unlisted
    · simp [Memory.write, hv, Memory.wfFrom]
    · simp [Memory.write, hv, Memory.wfFrom, h]
  | (b, w) :: r, hm => by
    simp only [Memory.wfFrom, Bool.and_eq_true, decide_eq_true_eq] at hm
    obtain ⟨⟨hb, hw⟩, hr⟩ := hm
    unfold Memory.write
    split
    next hab =>
      split
      · simp only [Memory.wfFrom, Bool.and_eq_true, decide_eq_true_eq]
        exact ⟨⟨hb, hw⟩, hr⟩
      next hv =>
        simp only [Memory.wfFrom, Bool.and_eq_true, decide_eq_true_eq]
        exact ⟨⟨h, by simp [hv]⟩, ⟨by omega, hw⟩, hr⟩
    · split
      next hab =>
        subst hab
        split
        · exact Memory.wfFrom_mono (by omega) hr
        next hv =>
          simp only [Memory.wfFrom, Bool.and_eq_true, decide_eq_true_eq]
          exact ⟨⟨hb, by simp [hv]⟩, hr⟩
      next hlt hne =>
        simp only [Memory.wfFrom, Bool.and_eq_true, decide_eq_true_eq]
        exact ⟨⟨hb, hw⟩, Memory.wfFrom_write (by omega) hr⟩

theorem Memory.wf_write {a : Nat} {v : Byte} {m : List Host.Cell} (h : Memory.wf m = true) :
    Memory.wf (Memory.write a v m) = true := Memory.wfFrom_write (Nat.zero_le a) h

theorem Memory.wf_writeAll : ∀ {l : List Byte} {a : Nat} {m : List Host.Cell},
    Memory.wf m = true → Memory.wf (Memory.writeAll m a l) = true
  | [], _, _, h => h
  | _ :: r, _, _, h => by
    rw [Memory.writeAll]
    exact Memory.wf_writeAll (l := r) (Memory.wf_write h)

theorem Memory.wf_apply : ∀ {l : List Host.Cell} {m : List Host.Cell},
    Memory.wf m = true → Memory.wf (Memory.apply m l) = true
  | [], _, h => h
  | (_, _) :: r, _, h => by
    rw [Memory.apply]
    exact Memory.wf_apply (l := r) (Memory.wf_write h)

/-- Below the bound of the form every address reads as unlisted. -/
theorem Memory.read_below : ∀ {m : List Host.Cell} {lo a : Nat}, Memory.wfFrom lo m = true → a < lo →
    Memory.read m a = Memory.unlisted
  | [], _, _, _, _ => rfl
  | (b, w) :: r, lo, a, h, ha => by
    simp only [Memory.wfFrom, Bool.and_eq_true, decide_eq_true_eq] at h
    have hne : a ≠ b := by omega
    simp only [Memory.read, hne, if_false]
    exact Memory.read_below h.2 (by omega)

/-- A byte written reads back, and every other byte reads as before. -/
theorem Memory.read_write {v : Byte} : ∀ {m : List Host.Cell} {lo a x : Nat}, Memory.wfFrom lo m = true →
    Memory.read (Memory.write a v m) x = if x = a then v else Memory.read m x
  | [], _, a, x, _ => by
    by_cases hv : v = Memory.unlisted <;> by_cases hx : x = a <;> simp [Memory.write, Memory.read, hv, hx]
  | (b, w) :: r, lo, a, x, h => by
    simp only [Memory.wfFrom, Bool.and_eq_true, decide_eq_true_eq] at h
    obtain ⟨⟨hb, hw⟩, hr⟩ := h
    unfold Memory.write
    split
    next hab =>
      split
      next hv =>
        by_cases hx : x = a
        · subst hx
          have hne : x ≠ b := by omega
          simp only [Memory.read, hne, if_false, if_true, hv]
          exact Memory.read_below hr (by omega)
        · simp [hx]
      next hv => by_cases hx : x = a <;> simp [Memory.read, hx]
    · split
      next hab =>
        subst hab
        split
        next hv =>
          by_cases hx : x = a
          · subst hx
            simp only [if_true, hv]
            exact Memory.read_below hr (by omega)
          · simp [Memory.read, hx]
        next hv => by_cases hx : x = a <;> simp [Memory.read, hx]
      next hlt hne =>
        by_cases hx : x = b
        · subst hx
          have hxa : x ≠ a := by omega
          simp [Memory.read, hxa]
        · simp only [Memory.read, hx, if_false]
          exact Memory.read_write hr

/-- Bytes written outside an address leave it as it was. -/
theorem Memory.read_writeAll_outside : ∀ {l : List Byte} {m : List Host.Cell} {a x : Nat},
    Memory.wf m = true → (x < a ∨ a + l.length ≤ x) → Memory.read (Memory.writeAll m a l) x = Memory.read m x
  | [], _, _, _, _, _ => rfl
  | v :: r, m, a, x, h, hx => by
    simp only [List.length_cons] at hx
    rw [Memory.writeAll, Memory.read_writeAll_outside (Memory.wf_write h) (by omega), Memory.read_write h]
    have hne : x ≠ a := by omega
    simp [hne]

theorem State.reset_wf : Memory.wf State.reset.mem = true := rfl

theorem State.arrive_wf {s : State} {e : Env} (h : Memory.wf s.mem = true) : Memory.wf (s.arrive e).mem = true :=
  Memory.wf_apply h

/-- A write on the bus keeps the form, whether or not it fails. -/
theorem State.busWrite_wf {s : State} {a : Nat} {b : List Byte} (h : Memory.wf s.mem = true) :
    Memory.wf (s.busWrite a b).1.mem = true := by
  unfold State.busWrite
  split
  · exact h
  · exact Memory.wf_writeAll h

end Sys2Proof.Machine
end

