-- ==== Sys2Proof/Laws/State.lean ====
section
/-! SUPPORT. What each update of the state leaves of each field: every lemma is true by unfolding once. -/

namespace Sys2Proof.Machine

/-! ### arrive -/

@[simp] theorem State.arrive_now (s : State) (e : Env) : (s.arrive e).now = s.now + e.elapsed := rfl
@[simp] theorem State.arrive_busErrors (s : State) (e : Env) : (s.arrive e).busErrors = e.errors := rfl
@[simp] theorem State.arrive_draws (s : State) (e : Env) : (s.arrive e).draws = s.draws := rfl
@[simp] theorem State.arrive_mem (s : State) (e : Env) : (s.arrive e).mem = Memory.apply s.mem e.writes := rfl
@[simp] theorem State.arrive_shc (s : State) (e : Env) : (s.arrive e).shc = s.shc := rfl
@[simp] theorem State.arrive_ftu (s : State) (e : Env) : (s.arrive e).ftu = s.ftu := rfl
@[simp] theorem State.arrive_ldu (s : State) (e : Env) : (s.arrive e).ldu = s.ldu := rfl
@[simp] theorem State.arrive_mst (s : State) (e : Env) : (s.arrive e).mst = s.mst := rfl
@[simp] theorem State.arrive_acu (s : State) (e : Env) : (s.arrive e).acu = s.acu := rfl
@[simp] theorem State.arrive_sta (s : State) (e : Env) : (s.arrive e).sta = s.sta := rfl
@[simp] theorem State.arrive_slotA (s : State) (e : Env) : (s.arrive e).slotA = s.slotA := rfl
@[simp] theorem State.arrive_slotB (s : State) (e : Env) : (s.arrive e).slotB = s.slotB := rfl
@[simp] theorem State.arrive_deck (s : State) (e : Env) : (s.arrive e).deck = s.deck := rfl
@[simp] theorem State.arrive_cgd (s : State) (e : Env) : (s.arrive e).cgd = s.cgd := rfl
@[simp] theorem State.arrive_stop (s : State) (e : Env) : (s.arrive e).stop = s.stop := rfl
@[simp] theorem State.arrive_vfl (s : State) (e : Env) : (s.arrive e).vfl = s.vfl := rfl
@[simp] theorem State.arrive_flt (s : State) (e : Env) : (s.arrive e).flt = s.flt := rfl
@[simp] theorem State.arrive_pending (s : State) (e : Env) : (s.arrive e).pending = s.pending := rfl

/-! ### expireAt -/

@[simp] theorem State.expireAt_now (s : State) (due : Nat) : (s.expireAt due).now = max s.now due := rfl
@[simp] theorem State.expireAt_busErrors (s : State) (due : Nat) : (s.expireAt due).busErrors = s.busErrors := rfl
@[simp] theorem State.expireAt_draws (s : State) (due : Nat) : (s.expireAt due).draws = s.draws := rfl
@[simp] theorem State.expireAt_mem (s : State) (due : Nat) : (s.expireAt due).mem = s.mem := rfl
@[simp] theorem State.expireAt_shc (s : State) (due : Nat) : (s.expireAt due).shc = s.shc := rfl
@[simp] theorem State.expireAt_ftu (s : State) (due : Nat) : (s.expireAt due).ftu = s.ftu := rfl
@[simp] theorem State.expireAt_ldu (s : State) (due : Nat) : (s.expireAt due).ldu = s.ldu := rfl
@[simp] theorem State.expireAt_mst (s : State) (due : Nat) : (s.expireAt due).mst = s.mst := rfl
@[simp] theorem State.expireAt_acu (s : State) (due : Nat) : (s.expireAt due).acu = s.acu := rfl
@[simp] theorem State.expireAt_sta (s : State) (due : Nat) : (s.expireAt due).sta = s.sta := rfl
@[simp] theorem State.expireAt_slotA (s : State) (due : Nat) : (s.expireAt due).slotA = s.slotA := rfl
@[simp] theorem State.expireAt_slotB (s : State) (due : Nat) : (s.expireAt due).slotB = s.slotB := rfl
@[simp] theorem State.expireAt_deck (s : State) (due : Nat) : (s.expireAt due).deck = s.deck := rfl
@[simp] theorem State.expireAt_cgd (s : State) (due : Nat) : (s.expireAt due).cgd = s.cgd := rfl
@[simp] theorem State.expireAt_stop (s : State) (due : Nat) : (s.expireAt due).stop = s.stop := rfl
@[simp] theorem State.expireAt_vfl (s : State) (due : Nat) : (s.expireAt due).vfl = s.vfl := rfl
@[simp] theorem State.expireAt_flt (s : State) (due : Nat) : (s.expireAt due).flt = s.flt := rfl
@[simp] theorem State.expireAt_pending (s : State) (due : Nat) : (s.expireAt due).pending = s.pending := rfl

/-! ### setShc -/

@[simp] theorem State.setShc_now (s : State) (c : Shc) : (s.setShc c).now = s.now := rfl
@[simp] theorem State.setShc_busErrors (s : State) (c : Shc) : (s.setShc c).busErrors = s.busErrors := rfl
@[simp] theorem State.setShc_draws (s : State) (c : Shc) : (s.setShc c).draws = s.draws := rfl
@[simp] theorem State.setShc_mem (s : State) (c : Shc) : (s.setShc c).mem = s.mem := rfl
@[simp] theorem State.setShc_shc (s : State) (c : Shc) : (s.setShc c).shc = c := rfl
@[simp] theorem State.setShc_ftu (s : State) (c : Shc) : (s.setShc c).ftu = s.ftu := rfl
@[simp] theorem State.setShc_ldu (s : State) (c : Shc) : (s.setShc c).ldu = s.ldu := rfl
@[simp] theorem State.setShc_mst (s : State) (c : Shc) : (s.setShc c).mst = s.mst := rfl
@[simp] theorem State.setShc_acu (s : State) (c : Shc) : (s.setShc c).acu = s.acu := rfl
@[simp] theorem State.setShc_sta (s : State) (c : Shc) : (s.setShc c).sta = s.sta := rfl
@[simp] theorem State.setShc_slotA (s : State) (c : Shc) : (s.setShc c).slotA = s.slotA := rfl
@[simp] theorem State.setShc_slotB (s : State) (c : Shc) : (s.setShc c).slotB = s.slotB := rfl
@[simp] theorem State.setShc_deck (s : State) (c : Shc) : (s.setShc c).deck = s.deck := rfl
@[simp] theorem State.setShc_cgd (s : State) (c : Shc) : (s.setShc c).cgd = s.cgd := rfl
@[simp] theorem State.setShc_stop (s : State) (c : Shc) : (s.setShc c).stop = s.stop := rfl
@[simp] theorem State.setShc_vfl (s : State) (c : Shc) : (s.setShc c).vfl = s.vfl := rfl
@[simp] theorem State.setShc_flt (s : State) (c : Shc) : (s.setShc c).flt = s.flt := rfl
@[simp] theorem State.setShc_pending (s : State) (c : Shc) : (s.setShc c).pending = s.pending := rfl

/-! ### setFtu -/

@[simp] theorem State.setFtu_now (s : State) (c : Ftu) : (s.setFtu c).now = s.now := rfl
@[simp] theorem State.setFtu_busErrors (s : State) (c : Ftu) : (s.setFtu c).busErrors = s.busErrors := rfl
@[simp] theorem State.setFtu_draws (s : State) (c : Ftu) : (s.setFtu c).draws = s.draws := rfl
@[simp] theorem State.setFtu_mem (s : State) (c : Ftu) : (s.setFtu c).mem = s.mem := rfl
@[simp] theorem State.setFtu_shc (s : State) (c : Ftu) : (s.setFtu c).shc = s.shc := rfl
@[simp] theorem State.setFtu_ftu (s : State) (c : Ftu) : (s.setFtu c).ftu = c := rfl
@[simp] theorem State.setFtu_ldu (s : State) (c : Ftu) : (s.setFtu c).ldu = s.ldu := rfl
@[simp] theorem State.setFtu_mst (s : State) (c : Ftu) : (s.setFtu c).mst = s.mst := rfl
@[simp] theorem State.setFtu_acu (s : State) (c : Ftu) : (s.setFtu c).acu = s.acu := rfl
@[simp] theorem State.setFtu_sta (s : State) (c : Ftu) : (s.setFtu c).sta = s.sta := rfl
@[simp] theorem State.setFtu_slotA (s : State) (c : Ftu) : (s.setFtu c).slotA = s.slotA := rfl
@[simp] theorem State.setFtu_slotB (s : State) (c : Ftu) : (s.setFtu c).slotB = s.slotB := rfl
@[simp] theorem State.setFtu_deck (s : State) (c : Ftu) : (s.setFtu c).deck = s.deck := rfl
@[simp] theorem State.setFtu_cgd (s : State) (c : Ftu) : (s.setFtu c).cgd = s.cgd := rfl
@[simp] theorem State.setFtu_stop (s : State) (c : Ftu) : (s.setFtu c).stop = s.stop := rfl
@[simp] theorem State.setFtu_vfl (s : State) (c : Ftu) : (s.setFtu c).vfl = s.vfl := rfl
@[simp] theorem State.setFtu_flt (s : State) (c : Ftu) : (s.setFtu c).flt = s.flt := rfl
@[simp] theorem State.setFtu_pending (s : State) (c : Ftu) : (s.setFtu c).pending = s.pending := rfl

/-! ### setLdu -/

@[simp] theorem State.setLdu_now (s : State) (c : Ldu) : (s.setLdu c).now = s.now := rfl
@[simp] theorem State.setLdu_busErrors (s : State) (c : Ldu) : (s.setLdu c).busErrors = s.busErrors := rfl
@[simp] theorem State.setLdu_draws (s : State) (c : Ldu) : (s.setLdu c).draws = s.draws := rfl
@[simp] theorem State.setLdu_mem (s : State) (c : Ldu) : (s.setLdu c).mem = s.mem := rfl
@[simp] theorem State.setLdu_shc (s : State) (c : Ldu) : (s.setLdu c).shc = s.shc := rfl
@[simp] theorem State.setLdu_ftu (s : State) (c : Ldu) : (s.setLdu c).ftu = s.ftu := rfl
@[simp] theorem State.setLdu_ldu (s : State) (c : Ldu) : (s.setLdu c).ldu = c := rfl
@[simp] theorem State.setLdu_mst (s : State) (c : Ldu) : (s.setLdu c).mst = s.mst := rfl
@[simp] theorem State.setLdu_acu (s : State) (c : Ldu) : (s.setLdu c).acu = s.acu := rfl
@[simp] theorem State.setLdu_sta (s : State) (c : Ldu) : (s.setLdu c).sta = s.sta := rfl
@[simp] theorem State.setLdu_slotA (s : State) (c : Ldu) : (s.setLdu c).slotA = s.slotA := rfl
@[simp] theorem State.setLdu_slotB (s : State) (c : Ldu) : (s.setLdu c).slotB = s.slotB := rfl
@[simp] theorem State.setLdu_deck (s : State) (c : Ldu) : (s.setLdu c).deck = s.deck := rfl
@[simp] theorem State.setLdu_cgd (s : State) (c : Ldu) : (s.setLdu c).cgd = s.cgd := rfl
@[simp] theorem State.setLdu_stop (s : State) (c : Ldu) : (s.setLdu c).stop = s.stop := rfl
@[simp] theorem State.setLdu_vfl (s : State) (c : Ldu) : (s.setLdu c).vfl = s.vfl := rfl
@[simp] theorem State.setLdu_flt (s : State) (c : Ldu) : (s.setLdu c).flt = s.flt := rfl
@[simp] theorem State.setLdu_pending (s : State) (c : Ldu) : (s.setLdu c).pending = s.pending := rfl

/-! ### setMst -/

@[simp] theorem State.setMst_now (s : State) (c : Mst) : (s.setMst c).now = s.now := rfl
@[simp] theorem State.setMst_busErrors (s : State) (c : Mst) : (s.setMst c).busErrors = s.busErrors := rfl
@[simp] theorem State.setMst_draws (s : State) (c : Mst) : (s.setMst c).draws = s.draws := rfl
@[simp] theorem State.setMst_mem (s : State) (c : Mst) : (s.setMst c).mem = s.mem := rfl
@[simp] theorem State.setMst_shc (s : State) (c : Mst) : (s.setMst c).shc = s.shc := rfl
@[simp] theorem State.setMst_ftu (s : State) (c : Mst) : (s.setMst c).ftu = s.ftu := rfl
@[simp] theorem State.setMst_ldu (s : State) (c : Mst) : (s.setMst c).ldu = s.ldu := rfl
@[simp] theorem State.setMst_mst (s : State) (c : Mst) : (s.setMst c).mst = c := rfl
@[simp] theorem State.setMst_acu (s : State) (c : Mst) : (s.setMst c).acu = s.acu := rfl
@[simp] theorem State.setMst_sta (s : State) (c : Mst) : (s.setMst c).sta = s.sta := rfl
@[simp] theorem State.setMst_slotA (s : State) (c : Mst) : (s.setMst c).slotA = s.slotA := rfl
@[simp] theorem State.setMst_slotB (s : State) (c : Mst) : (s.setMst c).slotB = s.slotB := rfl
@[simp] theorem State.setMst_deck (s : State) (c : Mst) : (s.setMst c).deck = s.deck := rfl
@[simp] theorem State.setMst_cgd (s : State) (c : Mst) : (s.setMst c).cgd = s.cgd := rfl
@[simp] theorem State.setMst_stop (s : State) (c : Mst) : (s.setMst c).stop = s.stop := rfl
@[simp] theorem State.setMst_vfl (s : State) (c : Mst) : (s.setMst c).vfl = s.vfl := rfl
@[simp] theorem State.setMst_flt (s : State) (c : Mst) : (s.setMst c).flt = s.flt := rfl
@[simp] theorem State.setMst_pending (s : State) (c : Mst) : (s.setMst c).pending = s.pending := rfl

/-! ### setAcu -/

@[simp] theorem State.setAcu_now (s : State) (c : Acu) : (s.setAcu c).now = s.now := rfl
@[simp] theorem State.setAcu_busErrors (s : State) (c : Acu) : (s.setAcu c).busErrors = s.busErrors := rfl
@[simp] theorem State.setAcu_draws (s : State) (c : Acu) : (s.setAcu c).draws = s.draws := rfl
@[simp] theorem State.setAcu_mem (s : State) (c : Acu) : (s.setAcu c).mem = s.mem := rfl
@[simp] theorem State.setAcu_shc (s : State) (c : Acu) : (s.setAcu c).shc = s.shc := rfl
@[simp] theorem State.setAcu_ftu (s : State) (c : Acu) : (s.setAcu c).ftu = s.ftu := rfl
@[simp] theorem State.setAcu_ldu (s : State) (c : Acu) : (s.setAcu c).ldu = s.ldu := rfl
@[simp] theorem State.setAcu_mst (s : State) (c : Acu) : (s.setAcu c).mst = s.mst := rfl
@[simp] theorem State.setAcu_acu (s : State) (c : Acu) : (s.setAcu c).acu = c := rfl
@[simp] theorem State.setAcu_sta (s : State) (c : Acu) : (s.setAcu c).sta = s.sta := rfl
@[simp] theorem State.setAcu_slotA (s : State) (c : Acu) : (s.setAcu c).slotA = s.slotA := rfl
@[simp] theorem State.setAcu_slotB (s : State) (c : Acu) : (s.setAcu c).slotB = s.slotB := rfl
@[simp] theorem State.setAcu_deck (s : State) (c : Acu) : (s.setAcu c).deck = s.deck := rfl
@[simp] theorem State.setAcu_cgd (s : State) (c : Acu) : (s.setAcu c).cgd = s.cgd := rfl
@[simp] theorem State.setAcu_stop (s : State) (c : Acu) : (s.setAcu c).stop = s.stop := rfl
@[simp] theorem State.setAcu_vfl (s : State) (c : Acu) : (s.setAcu c).vfl = s.vfl := rfl
@[simp] theorem State.setAcu_flt (s : State) (c : Acu) : (s.setAcu c).flt = s.flt := rfl
@[simp] theorem State.setAcu_pending (s : State) (c : Acu) : (s.setAcu c).pending = s.pending := rfl

/-! ### setSta -/

@[simp] theorem State.setSta_now (s : State) (c : Sta) : (s.setSta c).now = s.now := rfl
@[simp] theorem State.setSta_busErrors (s : State) (c : Sta) : (s.setSta c).busErrors = s.busErrors := rfl
@[simp] theorem State.setSta_draws (s : State) (c : Sta) : (s.setSta c).draws = s.draws := rfl
@[simp] theorem State.setSta_mem (s : State) (c : Sta) : (s.setSta c).mem = s.mem := rfl
@[simp] theorem State.setSta_shc (s : State) (c : Sta) : (s.setSta c).shc = s.shc := rfl
@[simp] theorem State.setSta_ftu (s : State) (c : Sta) : (s.setSta c).ftu = s.ftu := rfl
@[simp] theorem State.setSta_ldu (s : State) (c : Sta) : (s.setSta c).ldu = s.ldu := rfl
@[simp] theorem State.setSta_mst (s : State) (c : Sta) : (s.setSta c).mst = s.mst := rfl
@[simp] theorem State.setSta_acu (s : State) (c : Sta) : (s.setSta c).acu = s.acu := rfl
@[simp] theorem State.setSta_sta (s : State) (c : Sta) : (s.setSta c).sta = c := rfl
@[simp] theorem State.setSta_slotA (s : State) (c : Sta) : (s.setSta c).slotA = s.slotA := rfl
@[simp] theorem State.setSta_slotB (s : State) (c : Sta) : (s.setSta c).slotB = s.slotB := rfl
@[simp] theorem State.setSta_deck (s : State) (c : Sta) : (s.setSta c).deck = s.deck := rfl
@[simp] theorem State.setSta_cgd (s : State) (c : Sta) : (s.setSta c).cgd = s.cgd := rfl
@[simp] theorem State.setSta_stop (s : State) (c : Sta) : (s.setSta c).stop = s.stop := rfl
@[simp] theorem State.setSta_vfl (s : State) (c : Sta) : (s.setSta c).vfl = s.vfl := rfl
@[simp] theorem State.setSta_flt (s : State) (c : Sta) : (s.setSta c).flt = s.flt := rfl
@[simp] theorem State.setSta_pending (s : State) (c : Sta) : (s.setSta c).pending = s.pending := rfl

/-! ### setCgd -/

@[simp] theorem State.setCgd_now (s : State) (c : Cgd) : (s.setCgd c).now = s.now := rfl
@[simp] theorem State.setCgd_busErrors (s : State) (c : Cgd) : (s.setCgd c).busErrors = s.busErrors := rfl
@[simp] theorem State.setCgd_draws (s : State) (c : Cgd) : (s.setCgd c).draws = s.draws := rfl
@[simp] theorem State.setCgd_mem (s : State) (c : Cgd) : (s.setCgd c).mem = s.mem := rfl
@[simp] theorem State.setCgd_shc (s : State) (c : Cgd) : (s.setCgd c).shc = s.shc := rfl
@[simp] theorem State.setCgd_ftu (s : State) (c : Cgd) : (s.setCgd c).ftu = s.ftu := rfl
@[simp] theorem State.setCgd_ldu (s : State) (c : Cgd) : (s.setCgd c).ldu = s.ldu := rfl
@[simp] theorem State.setCgd_mst (s : State) (c : Cgd) : (s.setCgd c).mst = s.mst := rfl
@[simp] theorem State.setCgd_acu (s : State) (c : Cgd) : (s.setCgd c).acu = s.acu := rfl
@[simp] theorem State.setCgd_sta (s : State) (c : Cgd) : (s.setCgd c).sta = s.sta := rfl
@[simp] theorem State.setCgd_slotA (s : State) (c : Cgd) : (s.setCgd c).slotA = s.slotA := rfl
@[simp] theorem State.setCgd_slotB (s : State) (c : Cgd) : (s.setCgd c).slotB = s.slotB := rfl
@[simp] theorem State.setCgd_deck (s : State) (c : Cgd) : (s.setCgd c).deck = s.deck := rfl
@[simp] theorem State.setCgd_cgd (s : State) (c : Cgd) : (s.setCgd c).cgd = c := rfl
@[simp] theorem State.setCgd_stop (s : State) (c : Cgd) : (s.setCgd c).stop = s.stop := rfl
@[simp] theorem State.setCgd_vfl (s : State) (c : Cgd) : (s.setCgd c).vfl = s.vfl := rfl
@[simp] theorem State.setCgd_flt (s : State) (c : Cgd) : (s.setCgd c).flt = s.flt := rfl
@[simp] theorem State.setCgd_pending (s : State) (c : Cgd) : (s.setCgd c).pending = s.pending := rfl

/-! ### setVfl -/

@[simp] theorem State.setVfl_now (s : State) (c : Vfl) : (s.setVfl c).now = s.now := rfl
@[simp] theorem State.setVfl_busErrors (s : State) (c : Vfl) : (s.setVfl c).busErrors = s.busErrors := rfl
@[simp] theorem State.setVfl_draws (s : State) (c : Vfl) : (s.setVfl c).draws = s.draws := rfl
@[simp] theorem State.setVfl_mem (s : State) (c : Vfl) : (s.setVfl c).mem = s.mem := rfl
@[simp] theorem State.setVfl_shc (s : State) (c : Vfl) : (s.setVfl c).shc = s.shc := rfl
@[simp] theorem State.setVfl_ftu (s : State) (c : Vfl) : (s.setVfl c).ftu = s.ftu := rfl
@[simp] theorem State.setVfl_ldu (s : State) (c : Vfl) : (s.setVfl c).ldu = s.ldu := rfl
@[simp] theorem State.setVfl_mst (s : State) (c : Vfl) : (s.setVfl c).mst = s.mst := rfl
@[simp] theorem State.setVfl_acu (s : State) (c : Vfl) : (s.setVfl c).acu = s.acu := rfl
@[simp] theorem State.setVfl_sta (s : State) (c : Vfl) : (s.setVfl c).sta = s.sta := rfl
@[simp] theorem State.setVfl_slotA (s : State) (c : Vfl) : (s.setVfl c).slotA = s.slotA := rfl
@[simp] theorem State.setVfl_slotB (s : State) (c : Vfl) : (s.setVfl c).slotB = s.slotB := rfl
@[simp] theorem State.setVfl_deck (s : State) (c : Vfl) : (s.setVfl c).deck = s.deck := rfl
@[simp] theorem State.setVfl_cgd (s : State) (c : Vfl) : (s.setVfl c).cgd = s.cgd := rfl
@[simp] theorem State.setVfl_stop (s : State) (c : Vfl) : (s.setVfl c).stop = s.stop := rfl
@[simp] theorem State.setVfl_vfl (s : State) (c : Vfl) : (s.setVfl c).vfl = c := rfl
@[simp] theorem State.setVfl_flt (s : State) (c : Vfl) : (s.setVfl c).flt = s.flt := rfl
@[simp] theorem State.setVfl_pending (s : State) (c : Vfl) : (s.setVfl c).pending = s.pending := rfl

/-! ### askStop -/

@[simp] theorem State.askStop_now (s : State) (r : StopSource) : (s.askStop r).now = s.now := rfl
@[simp] theorem State.askStop_busErrors (s : State) (r : StopSource) : (s.askStop r).busErrors = s.busErrors := rfl
@[simp] theorem State.askStop_draws (s : State) (r : StopSource) : (s.askStop r).draws = s.draws := rfl
@[simp] theorem State.askStop_mem (s : State) (r : StopSource) : (s.askStop r).mem = s.mem := rfl
@[simp] theorem State.askStop_shc (s : State) (r : StopSource) : (s.askStop r).shc = s.shc := rfl
@[simp] theorem State.askStop_ftu (s : State) (r : StopSource) : (s.askStop r).ftu = s.ftu := rfl
@[simp] theorem State.askStop_ldu (s : State) (r : StopSource) : (s.askStop r).ldu = s.ldu := rfl
@[simp] theorem State.askStop_mst (s : State) (r : StopSource) : (s.askStop r).mst = s.mst := rfl
@[simp] theorem State.askStop_acu (s : State) (r : StopSource) : (s.askStop r).acu = s.acu := rfl
@[simp] theorem State.askStop_sta (s : State) (r : StopSource) : (s.askStop r).sta = s.sta := rfl
@[simp] theorem State.askStop_slotA (s : State) (r : StopSource) : (s.askStop r).slotA = s.slotA := rfl
@[simp] theorem State.askStop_slotB (s : State) (r : StopSource) : (s.askStop r).slotB = s.slotB := rfl
@[simp] theorem State.askStop_deck (s : State) (r : StopSource) : (s.askStop r).deck = s.deck := rfl
@[simp] theorem State.askStop_cgd (s : State) (r : StopSource) : (s.askStop r).cgd = s.cgd := rfl
@[simp] theorem State.askStop_stop (s : State) (r : StopSource) : (s.askStop r).stop = { s.stop with requests := s.stop.requests ++ [r] } := rfl
@[simp] theorem State.askStop_vfl (s : State) (r : StopSource) : (s.askStop r).vfl = s.vfl := rfl
@[simp] theorem State.askStop_flt (s : State) (r : StopSource) : (s.askStop r).flt = s.flt := rfl
@[simp] theorem State.askStop_pending (s : State) (r : StopSource) : (s.askStop r).pending = s.pending := rfl

/-! ### finishEntry -/

@[simp] theorem State.finishEntry_now (s : State) (r : Result) : (s.finishEntry r).now = s.now := rfl
@[simp] theorem State.finishEntry_busErrors (s : State) (r : Result) : (s.finishEntry r).busErrors = s.busErrors := rfl
@[simp] theorem State.finishEntry_draws (s : State) (r : Result) : (s.finishEntry r).draws = s.draws := rfl
@[simp] theorem State.finishEntry_mem (s : State) (r : Result) : (s.finishEntry r).mem = s.mem := rfl
@[simp] theorem State.finishEntry_ftu (s : State) (r : Result) : (s.finishEntry r).ftu = s.ftu := rfl
@[simp] theorem State.finishEntry_ldu (s : State) (r : Result) : (s.finishEntry r).ldu = s.ldu := rfl
@[simp] theorem State.finishEntry_mst (s : State) (r : Result) : (s.finishEntry r).mst = s.mst := rfl
@[simp] theorem State.finishEntry_acu (s : State) (r : Result) : (s.finishEntry r).acu = s.acu := rfl
@[simp] theorem State.finishEntry_sta (s : State) (r : Result) : (s.finishEntry r).sta = s.sta := rfl
@[simp] theorem State.finishEntry_slotA (s : State) (r : Result) : (s.finishEntry r).slotA = s.slotA := rfl
@[simp] theorem State.finishEntry_slotB (s : State) (r : Result) : (s.finishEntry r).slotB = s.slotB := rfl
@[simp] theorem State.finishEntry_deck (s : State) (r : Result) : (s.finishEntry r).deck = s.deck := rfl
@[simp] theorem State.finishEntry_cgd (s : State) (r : Result) : (s.finishEntry r).cgd = s.cgd := rfl
@[simp] theorem State.finishEntry_stop (s : State) (r : Result) : (s.finishEntry r).stop = s.stop := rfl
@[simp] theorem State.finishEntry_vfl (s : State) (r : Result) : (s.finishEntry r).vfl = s.vfl := rfl
@[simp] theorem State.finishEntry_flt (s : State) (r : Result) : (s.finishEntry r).flt = s.flt := rfl
@[simp] theorem State.finishEntry_pending (s : State) (r : Result) : (s.finishEntry r).pending = s.pending := rfl

/-! ### setAxis -/

@[simp] theorem State.setAxis_now (s : State) (x : AxisId) (a : Axis) : (s.setAxis x a).now = s.now := rfl
@[simp] theorem State.setAxis_busErrors (s : State) (x : AxisId) (a : Axis) : (s.setAxis x a).busErrors = s.busErrors := rfl
@[simp] theorem State.setAxis_draws (s : State) (x : AxisId) (a : Axis) : (s.setAxis x a).draws = s.draws := rfl
@[simp] theorem State.setAxis_mem (s : State) (x : AxisId) (a : Axis) : (s.setAxis x a).mem = s.mem := rfl
@[simp] theorem State.setAxis_shc (s : State) (x : AxisId) (a : Axis) : (s.setAxis x a).shc = s.shc := rfl
@[simp] theorem State.setAxis_ftu (s : State) (x : AxisId) (a : Axis) : (s.setAxis x a).ftu = s.ftu := rfl
@[simp] theorem State.setAxis_ldu (s : State) (x : AxisId) (a : Axis) : (s.setAxis x a).ldu = s.ldu.setAxis x a := rfl
@[simp] theorem State.setAxis_mst (s : State) (x : AxisId) (a : Axis) : (s.setAxis x a).mst = s.mst := rfl
@[simp] theorem State.setAxis_acu (s : State) (x : AxisId) (a : Axis) : (s.setAxis x a).acu = s.acu := rfl
@[simp] theorem State.setAxis_sta (s : State) (x : AxisId) (a : Axis) : (s.setAxis x a).sta = s.sta := rfl
@[simp] theorem State.setAxis_slotA (s : State) (x : AxisId) (a : Axis) : (s.setAxis x a).slotA = s.slotA := rfl
@[simp] theorem State.setAxis_slotB (s : State) (x : AxisId) (a : Axis) : (s.setAxis x a).slotB = s.slotB := rfl
@[simp] theorem State.setAxis_deck (s : State) (x : AxisId) (a : Axis) : (s.setAxis x a).deck = s.deck := rfl
@[simp] theorem State.setAxis_cgd (s : State) (x : AxisId) (a : Axis) : (s.setAxis x a).cgd = s.cgd := rfl
@[simp] theorem State.setAxis_stop (s : State) (x : AxisId) (a : Axis) : (s.setAxis x a).stop = s.stop := rfl
@[simp] theorem State.setAxis_vfl (s : State) (x : AxisId) (a : Axis) : (s.setAxis x a).vfl = s.vfl := rfl
@[simp] theorem State.setAxis_flt (s : State) (x : AxisId) (a : Axis) : (s.setAxis x a).flt = s.flt := rfl
@[simp] theorem State.setAxis_pending (s : State) (x : AxisId) (a : Axis) : (s.setAxis x a).pending = s.pending := rfl

/-! ### waitLate -/

@[simp] theorem State.waitLate_now (s : State) (h : HeldCompletion) : (s.waitLate h).now = s.now := rfl
@[simp] theorem State.waitLate_busErrors (s : State) (h : HeldCompletion) : (s.waitLate h).busErrors = s.busErrors := rfl
@[simp] theorem State.waitLate_draws (s : State) (h : HeldCompletion) : (s.waitLate h).draws = s.draws := rfl
@[simp] theorem State.waitLate_mem (s : State) (h : HeldCompletion) : (s.waitLate h).mem = s.mem := rfl
@[simp] theorem State.waitLate_ftu (s : State) (h : HeldCompletion) : (s.waitLate h).ftu = s.ftu := rfl
@[simp] theorem State.waitLate_ldu (s : State) (h : HeldCompletion) : (s.waitLate h).ldu = s.ldu := rfl
@[simp] theorem State.waitLate_mst (s : State) (h : HeldCompletion) : (s.waitLate h).mst = s.mst := rfl
@[simp] theorem State.waitLate_acu (s : State) (h : HeldCompletion) : (s.waitLate h).acu = s.acu := rfl
@[simp] theorem State.waitLate_sta (s : State) (h : HeldCompletion) : (s.waitLate h).sta = s.sta := rfl
@[simp] theorem State.waitLate_slotA (s : State) (h : HeldCompletion) : (s.waitLate h).slotA = s.slotA := rfl
@[simp] theorem State.waitLate_slotB (s : State) (h : HeldCompletion) : (s.waitLate h).slotB = s.slotB := rfl
@[simp] theorem State.waitLate_deck (s : State) (h : HeldCompletion) : (s.waitLate h).deck = s.deck := rfl
@[simp] theorem State.waitLate_cgd (s : State) (h : HeldCompletion) : (s.waitLate h).cgd = s.cgd := rfl
@[simp] theorem State.waitLate_stop (s : State) (h : HeldCompletion) : (s.waitLate h).stop = s.stop := rfl
@[simp] theorem State.waitLate_vfl (s : State) (h : HeldCompletion) : (s.waitLate h).vfl = s.vfl := rfl
@[simp] theorem State.waitLate_flt (s : State) (h : HeldCompletion) : (s.waitLate h).flt = s.flt := rfl
@[simp] theorem State.waitLate_pending (s : State) (h : HeldCompletion) : (s.waitLate h).pending = s.pending := rfl

/-! ### dropHolds -/

@[simp] theorem State.dropHolds_now (s : State) (k : FaultKind) : (s.dropHolds k).now = s.now := rfl
@[simp] theorem State.dropHolds_busErrors (s : State) (k : FaultKind) : (s.dropHolds k).busErrors = s.busErrors := rfl
@[simp] theorem State.dropHolds_draws (s : State) (k : FaultKind) : (s.dropHolds k).draws = s.draws := rfl
@[simp] theorem State.dropHolds_mem (s : State) (k : FaultKind) : (s.dropHolds k).mem = s.mem := rfl
@[simp] theorem State.dropHolds_ftu (s : State) (k : FaultKind) : (s.dropHolds k).ftu = s.ftu := rfl
@[simp] theorem State.dropHolds_ldu (s : State) (k : FaultKind) : (s.dropHolds k).ldu = s.ldu := rfl
@[simp] theorem State.dropHolds_mst (s : State) (k : FaultKind) : (s.dropHolds k).mst = s.mst := rfl
@[simp] theorem State.dropHolds_acu (s : State) (k : FaultKind) : (s.dropHolds k).acu = s.acu := rfl
@[simp] theorem State.dropHolds_sta (s : State) (k : FaultKind) : (s.dropHolds k).sta = s.sta := rfl
@[simp] theorem State.dropHolds_slotA (s : State) (k : FaultKind) : (s.dropHolds k).slotA = s.slotA := rfl
@[simp] theorem State.dropHolds_slotB (s : State) (k : FaultKind) : (s.dropHolds k).slotB = s.slotB := rfl
@[simp] theorem State.dropHolds_deck (s : State) (k : FaultKind) : (s.dropHolds k).deck = s.deck := rfl
@[simp] theorem State.dropHolds_cgd (s : State) (k : FaultKind) : (s.dropHolds k).cgd = s.cgd := rfl
@[simp] theorem State.dropHolds_stop (s : State) (k : FaultKind) : (s.dropHolds k).stop = s.stop := rfl
@[simp] theorem State.dropHolds_vfl (s : State) (k : FaultKind) : (s.dropHolds k).vfl = s.vfl := rfl
@[simp] theorem State.dropHolds_flt (s : State) (k : FaultKind) : (s.dropHolds k).flt = s.flt := rfl
@[simp] theorem State.dropHolds_pending (s : State) (k : FaultKind) : (s.dropHolds k).pending = s.pending := rfl

/-! ### judgeTally -/

@[simp] theorem State.judgeTally_now (s : State) (half : Option Nat) : (s.judgeTally half).now = s.now := rfl
@[simp] theorem State.judgeTally_busErrors (s : State) (half : Option Nat) : (s.judgeTally half).busErrors = s.busErrors := rfl
@[simp] theorem State.judgeTally_draws (s : State) (half : Option Nat) : (s.judgeTally half).draws = s.draws := rfl
@[simp] theorem State.judgeTally_mem (s : State) (half : Option Nat) : (s.judgeTally half).mem = s.mem := rfl
@[simp] theorem State.judgeTally_shc (s : State) (half : Option Nat) : (s.judgeTally half).shc = s.shc := rfl
@[simp] theorem State.judgeTally_ftu (s : State) (half : Option Nat) : (s.judgeTally half).ftu = s.ftu := rfl
@[simp] theorem State.judgeTally_ldu (s : State) (half : Option Nat) : (s.judgeTally half).ldu = s.ldu := rfl
@[simp] theorem State.judgeTally_mst (s : State) (half : Option Nat) : (s.judgeTally half).mst = s.mst := rfl
@[simp] theorem State.judgeTally_acu (s : State) (half : Option Nat) : (s.judgeTally half).acu = s.acu := rfl
@[simp] theorem State.judgeTally_sta (s : State) (half : Option Nat) : (s.judgeTally half).sta = s.sta := rfl
@[simp] theorem State.judgeTally_slotA (s : State) (half : Option Nat) : (s.judgeTally half).slotA = s.slotA := rfl
@[simp] theorem State.judgeTally_slotB (s : State) (half : Option Nat) : (s.judgeTally half).slotB = s.slotB := rfl
@[simp] theorem State.judgeTally_deck (s : State) (half : Option Nat) : (s.judgeTally half).deck = s.deck := rfl
@[simp] theorem State.judgeTally_cgd (s : State) (half : Option Nat) : (s.judgeTally half).cgd = s.cgd := rfl
@[simp] theorem State.judgeTally_stop (s : State) (half : Option Nat) : (s.judgeTally half).stop = s.stop := rfl
@[simp] theorem State.judgeTally_flt (s : State) (half : Option Nat) : (s.judgeTally half).flt = s.flt := rfl
@[simp] theorem State.judgeTally_pending (s : State) (half : Option Nat) : (s.judgeTally half).pending = s.pending := rfl

/-! ### judgeSlots -/

@[simp] theorem State.judgeSlots_now (s t : State) : (s.judgeSlots t).now = s.now := by
  unfold State.judgeSlots; split <;> rfl
@[simp] theorem State.judgeSlots_busErrors (s t : State) : (s.judgeSlots t).busErrors = s.busErrors := by
  unfold State.judgeSlots; split <;> rfl
@[simp] theorem State.judgeSlots_draws (s t : State) : (s.judgeSlots t).draws = s.draws := by
  unfold State.judgeSlots; split <;> rfl
@[simp] theorem State.judgeSlots_mem (s t : State) : (s.judgeSlots t).mem = s.mem := by
  unfold State.judgeSlots; split <;> rfl
@[simp] theorem State.judgeSlots_shc (s t : State) : (s.judgeSlots t).shc = s.shc := by
  unfold State.judgeSlots; split <;> rfl
@[simp] theorem State.judgeSlots_ftu (s t : State) : (s.judgeSlots t).ftu = s.ftu := by
  unfold State.judgeSlots; split <;> rfl
@[simp] theorem State.judgeSlots_ldu (s t : State) : (s.judgeSlots t).ldu = s.ldu := by
  unfold State.judgeSlots; split <;> rfl
@[simp] theorem State.judgeSlots_mst (s t : State) : (s.judgeSlots t).mst = s.mst := by
  unfold State.judgeSlots; split <;> rfl
@[simp] theorem State.judgeSlots_acu (s t : State) : (s.judgeSlots t).acu = s.acu := by
  unfold State.judgeSlots; split <;> rfl
@[simp] theorem State.judgeSlots_sta (s t : State) : (s.judgeSlots t).sta = s.sta := by
  unfold State.judgeSlots; split <;> rfl
@[simp] theorem State.judgeSlots_slotA (s t : State) : (s.judgeSlots t).slotA = s.slotA := by
  unfold State.judgeSlots; split <;> rfl
@[simp] theorem State.judgeSlots_slotB (s t : State) : (s.judgeSlots t).slotB = s.slotB := by
  unfold State.judgeSlots; split <;> rfl
@[simp] theorem State.judgeSlots_deck (s t : State) : (s.judgeSlots t).deck = s.deck := by
  unfold State.judgeSlots; split <;> rfl
@[simp] theorem State.judgeSlots_cgd (s t : State) : (s.judgeSlots t).cgd = s.cgd := by
  unfold State.judgeSlots; split <;> rfl
@[simp] theorem State.judgeSlots_stop (s t : State) : (s.judgeSlots t).stop = s.stop := by
  unfold State.judgeSlots; split <;> rfl
@[simp] theorem State.judgeSlots_flt (s t : State) : (s.judgeSlots t).flt = s.flt := by
  unfold State.judgeSlots; split <;> rfl
@[simp] theorem State.judgeSlots_pending (s t : State) : (s.judgeSlots t).pending = s.pending := by
  unfold State.judgeSlots; split <;> rfl

/-- Nothing is judged where no slot has entered or left RECORDING. -/
theorem State.judgeSlots_same {s t : State} (h : s.sameRecording t = true) : s.judgeSlots t = s := by
  simp [State.judgeSlots, h]

/-- The outputs are judged where a slot has entered or left RECORDING. -/
theorem State.judgeSlots_moved {s t : State} (h : s.sameRecording t = false) : s.judgeSlots t = s.judgeTally none := by
  simp [State.judgeSlots, h]

/-- The two slots alone decide. -/
theorem State.sameRecording_of_slots {s t : State} (ha : s.slotA.st = t.slotA.st) (hb : s.slotB.st = t.slotB.st) :
    s.sameRecording t = true := by
  simp [State.sameRecording, ha, hb]

@[simp] theorem State.judgeSlots_self (s : State) : s.judgeSlots s = s :=
  State.judgeSlots_same (State.sameRecording_of_slots rfl rfl)

/-- A step that leaves the slots' states judges nothing. -/
theorem State.judgeSlots_of_slots {s t : State} (ha : s.slotA.st = t.slotA.st) (hb : s.slotB.st = t.slotB.st) :
    s.judgeSlots t = s := State.judgeSlots_same (State.sameRecording_of_slots ha hb)

/-! ### keepParts -/

@[simp] theorem State.keepParts_now (s : State) (f : FrameNo) : (s.keepParts f).now = s.now := rfl
@[simp] theorem State.keepParts_busErrors (s : State) (f : FrameNo) : (s.keepParts f).busErrors = s.busErrors := rfl
@[simp] theorem State.keepParts_draws (s : State) (f : FrameNo) : (s.keepParts f).draws = s.draws := rfl
@[simp] theorem State.keepParts_mem (s : State) (f : FrameNo) : (s.keepParts f).mem = s.mem := rfl
@[simp] theorem State.keepParts_shc (s : State) (f : FrameNo) : (s.keepParts f).shc = { s.shc with
    kept := if s.shc.dispatches f then s.shc.kept else keepCopy s.copyNeeded f s.shc.ownPart s.shc.kept } := rfl
@[simp] theorem State.keepParts_ftu (s : State) (f : FrameNo) : (s.keepParts f).ftu = s.ftu := rfl
@[simp] theorem State.keepParts_ldu (s : State) (f : FrameNo) : (s.keepParts f).ldu = s.ldu := rfl
@[simp] theorem State.keepParts_mst (s : State) (f : FrameNo) : (s.keepParts f).mst = s.mst := rfl
@[simp] theorem State.keepParts_acu (s : State) (f : FrameNo) : (s.keepParts f).acu = s.acu := rfl
@[simp] theorem State.keepParts_sta (s : State) (f : FrameNo) : (s.keepParts f).sta = s.sta := rfl
@[simp] theorem State.keepParts_slotA (s : State) (f : FrameNo) : (s.keepParts f).slotA = s.slotA := rfl
@[simp] theorem State.keepParts_slotB (s : State) (f : FrameNo) : (s.keepParts f).slotB = s.slotB := rfl
@[simp] theorem State.keepParts_deck (s : State) (f : FrameNo) : (s.keepParts f).deck = s.deck := rfl
@[simp] theorem State.keepParts_cgd (s : State) (f : FrameNo) : (s.keepParts f).cgd = { s.cgd with kept := keepCopy s.copyNeeded f s.cgd.part s.cgd.kept } := rfl
@[simp] theorem State.keepParts_stop (s : State) (f : FrameNo) : (s.keepParts f).stop = { s.stop with
    kept := keepCopy s.copyNeeded f s.stop.part s.stop.kept } := rfl
@[simp] theorem State.keepParts_vfl (s : State) (f : FrameNo) : (s.keepParts f).vfl = s.vfl := rfl
@[simp] theorem State.keepParts_flt (s : State) (f : FrameNo) : (s.keepParts f).flt = s.flt := rfl
@[simp] theorem State.keepParts_pending (s : State) (f : FrameNo) : (s.keepParts f).pending = s.pending := rfl

/-! ### setSlot, updSlot and updClip -/

@[simp] theorem State.setSlot_now (s : State) (x : SlotId) (v : Slot) : (s.setSlot x v).now = s.now := by
  cases x <;> rfl
@[simp] theorem State.updSlot_now (s : State) (x : SlotId) (g : Slot → Slot) : (s.updSlot x g).now = s.now := by
  cases x <;> rfl
@[simp] theorem State.updClip_now (s : State) (x : SlotId) (g : Clip → Clip) : (s.updClip x g).now = s.now := by
  cases x <;> rfl
@[simp] theorem State.setSlot_busErrors (s : State) (x : SlotId) (v : Slot) : (s.setSlot x v).busErrors = s.busErrors := by
  cases x <;> rfl
@[simp] theorem State.updSlot_busErrors (s : State) (x : SlotId) (g : Slot → Slot) : (s.updSlot x g).busErrors = s.busErrors := by
  cases x <;> rfl
@[simp] theorem State.updClip_busErrors (s : State) (x : SlotId) (g : Clip → Clip) : (s.updClip x g).busErrors = s.busErrors := by
  cases x <;> rfl
@[simp] theorem State.setSlot_draws (s : State) (x : SlotId) (v : Slot) : (s.setSlot x v).draws = s.draws := by
  cases x <;> rfl
@[simp] theorem State.updSlot_draws (s : State) (x : SlotId) (g : Slot → Slot) : (s.updSlot x g).draws = s.draws := by
  cases x <;> rfl
@[simp] theorem State.updClip_draws (s : State) (x : SlotId) (g : Clip → Clip) : (s.updClip x g).draws = s.draws := by
  cases x <;> rfl
@[simp] theorem State.setSlot_mem (s : State) (x : SlotId) (v : Slot) : (s.setSlot x v).mem = s.mem := by
  cases x <;> rfl
@[simp] theorem State.updSlot_mem (s : State) (x : SlotId) (g : Slot → Slot) : (s.updSlot x g).mem = s.mem := by
  cases x <;> rfl
@[simp] theorem State.updClip_mem (s : State) (x : SlotId) (g : Clip → Clip) : (s.updClip x g).mem = s.mem := by
  cases x <;> rfl
@[simp] theorem State.setSlot_shc (s : State) (x : SlotId) (v : Slot) : (s.setSlot x v).shc = s.shc := by
  cases x <;> rfl
@[simp] theorem State.updSlot_shc (s : State) (x : SlotId) (g : Slot → Slot) : (s.updSlot x g).shc = s.shc := by
  cases x <;> rfl
@[simp] theorem State.updClip_shc (s : State) (x : SlotId) (g : Clip → Clip) : (s.updClip x g).shc = s.shc := by
  cases x <;> rfl
@[simp] theorem State.setSlot_ftu (s : State) (x : SlotId) (v : Slot) : (s.setSlot x v).ftu = s.ftu := by
  cases x <;> rfl
@[simp] theorem State.updSlot_ftu (s : State) (x : SlotId) (g : Slot → Slot) : (s.updSlot x g).ftu = s.ftu := by
  cases x <;> rfl
@[simp] theorem State.updClip_ftu (s : State) (x : SlotId) (g : Clip → Clip) : (s.updClip x g).ftu = s.ftu := by
  cases x <;> rfl
@[simp] theorem State.setSlot_ldu (s : State) (x : SlotId) (v : Slot) : (s.setSlot x v).ldu = s.ldu := by
  cases x <;> rfl
@[simp] theorem State.updSlot_ldu (s : State) (x : SlotId) (g : Slot → Slot) : (s.updSlot x g).ldu = s.ldu := by
  cases x <;> rfl
@[simp] theorem State.updClip_ldu (s : State) (x : SlotId) (g : Clip → Clip) : (s.updClip x g).ldu = s.ldu := by
  cases x <;> rfl
@[simp] theorem State.setSlot_mst (s : State) (x : SlotId) (v : Slot) : (s.setSlot x v).mst = s.mst := by
  cases x <;> rfl
@[simp] theorem State.updSlot_mst (s : State) (x : SlotId) (g : Slot → Slot) : (s.updSlot x g).mst = s.mst := by
  cases x <;> rfl
@[simp] theorem State.updClip_mst (s : State) (x : SlotId) (g : Clip → Clip) : (s.updClip x g).mst = s.mst := by
  cases x <;> rfl
@[simp] theorem State.setSlot_acu (s : State) (x : SlotId) (v : Slot) : (s.setSlot x v).acu = s.acu := by
  cases x <;> rfl
@[simp] theorem State.updSlot_acu (s : State) (x : SlotId) (g : Slot → Slot) : (s.updSlot x g).acu = s.acu := by
  cases x <;> rfl
@[simp] theorem State.updClip_acu (s : State) (x : SlotId) (g : Clip → Clip) : (s.updClip x g).acu = s.acu := by
  cases x <;> rfl
@[simp] theorem State.setSlot_sta (s : State) (x : SlotId) (v : Slot) : (s.setSlot x v).sta = s.sta := by
  cases x <;> rfl
@[simp] theorem State.updSlot_sta (s : State) (x : SlotId) (g : Slot → Slot) : (s.updSlot x g).sta = s.sta := by
  cases x <;> rfl
@[simp] theorem State.updClip_sta (s : State) (x : SlotId) (g : Clip → Clip) : (s.updClip x g).sta = s.sta := by
  cases x <;> rfl
@[simp] theorem State.setSlot_deck (s : State) (x : SlotId) (v : Slot) : (s.setSlot x v).deck = s.deck := by
  cases x <;> rfl
@[simp] theorem State.updSlot_deck (s : State) (x : SlotId) (g : Slot → Slot) : (s.updSlot x g).deck = s.deck := by
  cases x <;> rfl
@[simp] theorem State.updClip_deck (s : State) (x : SlotId) (g : Clip → Clip) : (s.updClip x g).deck = s.deck := by
  cases x <;> rfl
@[simp] theorem State.setSlot_cgd (s : State) (x : SlotId) (v : Slot) : (s.setSlot x v).cgd = s.cgd := by
  cases x <;> rfl
@[simp] theorem State.updSlot_cgd (s : State) (x : SlotId) (g : Slot → Slot) : (s.updSlot x g).cgd = s.cgd := by
  cases x <;> rfl
@[simp] theorem State.updClip_cgd (s : State) (x : SlotId) (g : Clip → Clip) : (s.updClip x g).cgd = s.cgd := by
  cases x <;> rfl
@[simp] theorem State.setSlot_stop (s : State) (x : SlotId) (v : Slot) : (s.setSlot x v).stop = s.stop := by
  cases x <;> rfl
@[simp] theorem State.updSlot_stop (s : State) (x : SlotId) (g : Slot → Slot) : (s.updSlot x g).stop = s.stop := by
  cases x <;> rfl
@[simp] theorem State.updClip_stop (s : State) (x : SlotId) (g : Clip → Clip) : (s.updClip x g).stop = s.stop := by
  cases x <;> rfl
@[simp] theorem State.setSlot_vfl (s : State) (x : SlotId) (v : Slot) : (s.setSlot x v).vfl = s.vfl := by
  cases x <;> rfl
@[simp] theorem State.updSlot_vfl (s : State) (x : SlotId) (g : Slot → Slot) : (s.updSlot x g).vfl = s.vfl := by
  cases x <;> rfl
@[simp] theorem State.updClip_vfl (s : State) (x : SlotId) (g : Clip → Clip) : (s.updClip x g).vfl = s.vfl := by
  cases x <;> rfl
@[simp] theorem State.setSlot_flt (s : State) (x : SlotId) (v : Slot) : (s.setSlot x v).flt = s.flt := by
  cases x <;> rfl
@[simp] theorem State.updSlot_flt (s : State) (x : SlotId) (g : Slot → Slot) : (s.updSlot x g).flt = s.flt := by
  cases x <;> rfl
@[simp] theorem State.updClip_flt (s : State) (x : SlotId) (g : Clip → Clip) : (s.updClip x g).flt = s.flt := by
  cases x <;> rfl
@[simp] theorem State.setSlot_pending (s : State) (x : SlotId) (v : Slot) : (s.setSlot x v).pending = s.pending := by
  cases x <;> rfl
@[simp] theorem State.updSlot_pending (s : State) (x : SlotId) (g : Slot → Slot) : (s.updSlot x g).pending = s.pending := by
  cases x <;> rfl
@[simp] theorem State.updClip_pending (s : State) (x : SlotId) (g : Clip → Clip) : (s.updClip x g).pending = s.pending := by
  cases x <;> rfl

@[simp] theorem State.slot_setSlot (s : State) (x : SlotId) (v : Slot) : (s.setSlot x v).slot x = v := by
  cases x <;> rfl
@[simp] theorem State.slot_setSlot_other (s : State) (x : SlotId) (v : Slot) :
    (s.setSlot x v).slot (otherSlot x) = s.slot (otherSlot x) := by
  cases x <;> rfl
@[simp] theorem State.slot_updSlot (s : State) (x : SlotId) (g : Slot → Slot) :
    (s.updSlot x g).slot x = g (s.slot x) := by
  cases x <;> rfl
@[simp] theorem State.slot_updSlot_other (s : State) (x : SlotId) (g : Slot → Slot) :
    (s.updSlot x g).slot (otherSlot x) = s.slot (otherSlot x) := by
  cases x <;> rfl
@[simp] theorem State.setSlot_a_slotB (s : State) (v : Slot) : (s.setSlot .a v).slotB = s.slotB := rfl
@[simp] theorem State.setSlot_b_slotA (s : State) (v : Slot) : (s.setSlot .b v).slotA = s.slotA := rfl
@[simp] theorem State.setSlot_a_slotA (s : State) (v : Slot) : (s.setSlot .a v).slotA = v := rfl
@[simp] theorem State.setSlot_b_slotB (s : State) (v : Slot) : (s.setSlot .b v).slotB = v := rfl

/-! ### dropTag -/

@[simp] theorem Slot.dropTag_detect (n : Nat) (v : Slot) : (v.dropTag n).detect = v.detect := rfl
@[simp] theorem Slot.dropTag_st (n : Nat) (v : Slot) : (v.dropTag n).st = v.st := rfl
@[simp] theorem Slot.dropTag_capacity (n : Nat) (v : Slot) : (v.dropTag n).capacity = v.capacity := rfl
@[simp] theorem Slot.dropTag_writeProtected (n : Nat) (v : Slot) : (v.dropTag n).writeProtected = v.writeProtected := rfl
@[simp] theorem Slot.dropTag_command (n : Nat) (v : Slot) : (v.dropTag n).command = v.command := rfl
@[simp] theorem Slot.dropTag_timer (n : Nat) (v : Slot) : (v.dropTag n).timer = v.timer := rfl
@[simp] theorem Slot.dropTag_waiting (n : Nat) (v : Slot) : (v.dropTag n).waiting = v.waiting := rfl
@[simp] theorem Slot.dropTag_releasePending (n : Nat) (v : Slot) : (v.dropTag n).releasePending = v.releasePending := rfl
@[simp] theorem Slot.dropTag_releaseSent (n : Nat) (v : Slot) : (v.dropTag n).releaseSent = v.releaseSent := rfl
@[simp] theorem Slot.dropTag_current (n : Nat) (v : Slot) : (v.dropTag n).current = v.current := rfl
@[simp] theorem Slot.dropTag_queue (n : Nat) (v : Slot) : (v.dropTag n).queue = v.queue := rfl
@[simp] theorem Slot.dropTag_clip (n : Nat) (v : Slot) : (v.dropTag n).clip = v.clip := rfl
@[simp] theorem Slot.dropTag_scan (n : Nat) (v : Slot) : (v.dropTag n).scan = v.scan := rfl
@[simp] theorem Slot.dropTag_kept (n : Nat) (v : Slot) : (v.dropTag n).kept = v.kept := rfl
@[simp] theorem Slot.dropTag_clipOpen (n : Nat) (v : Slot) : (v.dropTag n).clipOpen = v.clipOpen := rfl

/-- A tag of 0 names none, so nothing is dropped. -/
@[simp] theorem Slot.dropTag_zero (v : Slot) : v.dropTag 0 = v := by
  have h (m : Nat) : (if m = 0 then 0 else m) = m := by split <;> simp_all
  simp [Slot.dropTag, h]

/-- A slot that holds no tag drops none. -/
theorem Slot.dropTag_none {n : Nat} {v : Slot} (ho : v.openTag = 0) (hc : v.closeTag = 0) (hs : v.scanTag = 0) :
    v.dropTag n = v := by
  cases v; simp_all [Slot.dropTag]

/-- What a fault on a slot leaves of the other slot: all but the tags that have ended (R141). -/
theorem Slot.dropTag_ne {n : Nat} {v : Slot} (ho : v.openTag ≠ n) (hc : v.closeTag ≠ n) (hs : v.scanTag ≠ n) :
    v.dropTag n = v := by
  simp [Slot.dropTag, ho, hc, hs]

end Sys2Proof.Machine
end

