-- ==== Sys2Proof/Laws/Faults.lean ====
section
/-! SUPPORT. What the shared operations over tags, occurrences and the bus leave as it was. -/

namespace Sys2Proof.Machine

/-! ### setTag -/

@[simp] theorem State.setTag_now (s : State) (n : Nat) (r : TagRec) : (s.setTag n r).now = s.now := by
  unfold State.setTag
  split <;> rfl
@[simp] theorem State.setTag_busErrors (s : State) (n : Nat) (r : TagRec) : (s.setTag n r).busErrors = s.busErrors := by
  unfold State.setTag
  split <;> rfl
@[simp] theorem State.setTag_draws (s : State) (n : Nat) (r : TagRec) : (s.setTag n r).draws = s.draws := by
  unfold State.setTag
  split <;> rfl
@[simp] theorem State.setTag_mem (s : State) (n : Nat) (r : TagRec) : (s.setTag n r).mem = s.mem := by
  unfold State.setTag
  split <;> rfl
@[simp] theorem State.setTag_ftu (s : State) (n : Nat) (r : TagRec) : (s.setTag n r).ftu = s.ftu := by
  unfold State.setTag
  split <;> rfl
@[simp] theorem State.setTag_ldu (s : State) (n : Nat) (r : TagRec) : (s.setTag n r).ldu = s.ldu := by
  unfold State.setTag
  split <;> rfl
@[simp] theorem State.setTag_mst (s : State) (n : Nat) (r : TagRec) : (s.setTag n r).mst = s.mst := by
  unfold State.setTag
  split <;> rfl
@[simp] theorem State.setTag_acu (s : State) (n : Nat) (r : TagRec) : (s.setTag n r).acu = s.acu := by
  unfold State.setTag
  split <;> rfl
@[simp] theorem State.setTag_sta (s : State) (n : Nat) (r : TagRec) : (s.setTag n r).sta = s.sta := by
  unfold State.setTag
  split <;> rfl
@[simp] theorem State.setTag_slotA (s : State) (n : Nat) (r : TagRec) : (s.setTag n r).slotA = s.slotA := by
  unfold State.setTag
  split <;> rfl
@[simp] theorem State.setTag_slotB (s : State) (n : Nat) (r : TagRec) : (s.setTag n r).slotB = s.slotB := by
  unfold State.setTag
  split <;> rfl
@[simp] theorem State.setTag_deck (s : State) (n : Nat) (r : TagRec) : (s.setTag n r).deck = s.deck := by
  unfold State.setTag
  split <;> rfl
@[simp] theorem State.setTag_cgd (s : State) (n : Nat) (r : TagRec) : (s.setTag n r).cgd = s.cgd := by
  unfold State.setTag
  split <;> rfl
@[simp] theorem State.setTag_stop (s : State) (n : Nat) (r : TagRec) : (s.setTag n r).stop = s.stop := by
  unfold State.setTag
  split <;> rfl
@[simp] theorem State.setTag_vfl (s : State) (n : Nat) (r : TagRec) : (s.setTag n r).vfl = s.vfl := by
  unfold State.setTag
  split <;> rfl
@[simp] theorem State.setTag_flt (s : State) (n : Nat) (r : TagRec) : (s.setTag n r).flt = s.flt := by
  unfold State.setTag
  split <;> rfl
@[simp] theorem State.setTag_pending (s : State) (n : Nat) (r : TagRec) : (s.setTag n r).pending = s.pending := by
  unfold State.setTag
  split <;> rfl

/-! ### openTag -/

@[simp] theorem State.openTag_now (s : State) (n : Nat) (k : Byte) : (s.openTag n k).now = s.now := by
  simp [State.openTag]
@[simp] theorem State.openTag_busErrors (s : State) (n : Nat) (k : Byte) : (s.openTag n k).busErrors = s.busErrors := by
  simp [State.openTag]
@[simp] theorem State.openTag_draws (s : State) (n : Nat) (k : Byte) : (s.openTag n k).draws = s.draws := by
  simp [State.openTag]
@[simp] theorem State.openTag_mem (s : State) (n : Nat) (k : Byte) : (s.openTag n k).mem = s.mem := by
  simp [State.openTag]
@[simp] theorem State.openTag_ftu (s : State) (n : Nat) (k : Byte) : (s.openTag n k).ftu = s.ftu := by
  simp [State.openTag]
@[simp] theorem State.openTag_ldu (s : State) (n : Nat) (k : Byte) : (s.openTag n k).ldu = s.ldu := by
  simp [State.openTag]
@[simp] theorem State.openTag_mst (s : State) (n : Nat) (k : Byte) : (s.openTag n k).mst = s.mst := by
  simp [State.openTag]
@[simp] theorem State.openTag_acu (s : State) (n : Nat) (k : Byte) : (s.openTag n k).acu = s.acu := by
  simp [State.openTag]
@[simp] theorem State.openTag_sta (s : State) (n : Nat) (k : Byte) : (s.openTag n k).sta = s.sta := by
  simp [State.openTag]
@[simp] theorem State.openTag_slotA (s : State) (n : Nat) (k : Byte) : (s.openTag n k).slotA = s.slotA := by
  simp [State.openTag]
@[simp] theorem State.openTag_slotB (s : State) (n : Nat) (k : Byte) : (s.openTag n k).slotB = s.slotB := by
  simp [State.openTag]
@[simp] theorem State.openTag_deck (s : State) (n : Nat) (k : Byte) : (s.openTag n k).deck = s.deck := by
  simp [State.openTag]
@[simp] theorem State.openTag_cgd (s : State) (n : Nat) (k : Byte) : (s.openTag n k).cgd = s.cgd := by
  simp [State.openTag]
@[simp] theorem State.openTag_stop (s : State) (n : Nat) (k : Byte) : (s.openTag n k).stop = s.stop := by
  simp [State.openTag]
@[simp] theorem State.openTag_vfl (s : State) (n : Nat) (k : Byte) : (s.openTag n k).vfl = s.vfl := by
  simp [State.openTag]
@[simp] theorem State.openTag_flt (s : State) (n : Nat) (k : Byte) : (s.openTag n k).flt = s.flt := by
  simp [State.openTag]
@[simp] theorem State.openTag_pending (s : State) (n : Nat) (k : Byte) : (s.openTag n k).pending = s.pending := by
  simp [State.openTag]

/-! ### acceptTag -/

@[simp] theorem State.acceptTag_now (s : State) (k t : Byte) : (s.acceptTag k t).now = s.now := by
  unfold State.acceptTag
  split <;> simp
@[simp] theorem State.acceptTag_busErrors (s : State) (k t : Byte) : (s.acceptTag k t).busErrors = s.busErrors := by
  unfold State.acceptTag
  split <;> simp
@[simp] theorem State.acceptTag_draws (s : State) (k t : Byte) : (s.acceptTag k t).draws = s.draws := by
  unfold State.acceptTag
  split <;> simp
@[simp] theorem State.acceptTag_mem (s : State) (k t : Byte) : (s.acceptTag k t).mem = s.mem := by
  unfold State.acceptTag
  split <;> simp
@[simp] theorem State.acceptTag_ftu (s : State) (k t : Byte) : (s.acceptTag k t).ftu = s.ftu := by
  unfold State.acceptTag
  split <;> simp
@[simp] theorem State.acceptTag_ldu (s : State) (k t : Byte) : (s.acceptTag k t).ldu = s.ldu := by
  unfold State.acceptTag
  split <;> simp
@[simp] theorem State.acceptTag_mst (s : State) (k t : Byte) : (s.acceptTag k t).mst = s.mst := by
  unfold State.acceptTag
  split <;> simp
@[simp] theorem State.acceptTag_acu (s : State) (k t : Byte) : (s.acceptTag k t).acu = s.acu := by
  unfold State.acceptTag
  split <;> simp
@[simp] theorem State.acceptTag_sta (s : State) (k t : Byte) : (s.acceptTag k t).sta = s.sta := by
  unfold State.acceptTag
  split <;> simp
@[simp] theorem State.acceptTag_slotA (s : State) (k t : Byte) : (s.acceptTag k t).slotA = s.slotA := by
  unfold State.acceptTag
  split <;> simp
@[simp] theorem State.acceptTag_slotB (s : State) (k t : Byte) : (s.acceptTag k t).slotB = s.slotB := by
  unfold State.acceptTag
  split <;> simp
@[simp] theorem State.acceptTag_deck (s : State) (k t : Byte) : (s.acceptTag k t).deck = s.deck := by
  unfold State.acceptTag
  split <;> simp
@[simp] theorem State.acceptTag_cgd (s : State) (k t : Byte) : (s.acceptTag k t).cgd = s.cgd := by
  unfold State.acceptTag
  split <;> simp
@[simp] theorem State.acceptTag_stop (s : State) (k t : Byte) : (s.acceptTag k t).stop = s.stop := by
  unfold State.acceptTag
  split <;> simp
@[simp] theorem State.acceptTag_vfl (s : State) (k t : Byte) : (s.acceptTag k t).vfl = s.vfl := by
  unfold State.acceptTag
  split <;> simp
@[simp] theorem State.acceptTag_flt (s : State) (k t : Byte) : (s.acceptTag k t).flt = s.flt := by
  unfold State.acceptTag
  split <;> simp
@[simp] theorem State.acceptTag_pending (s : State) (k t : Byte) : (s.acceptTag k t).pending = s.pending := by
  unfold State.acceptTag
  split <;> simp

/-! ### recordCompletion -/

@[simp] theorem State.recordCompletion_now (s : State) (h : HeldCompletion) : (s.recordCompletion h).now = s.now := by
  unfold State.recordCompletion
  dsimp only
  repeat' split
  all_goals simp
@[simp] theorem State.recordCompletion_busErrors (s : State) (h : HeldCompletion) : (s.recordCompletion h).busErrors = s.busErrors := by
  unfold State.recordCompletion
  dsimp only
  repeat' split
  all_goals simp
@[simp] theorem State.recordCompletion_draws (s : State) (h : HeldCompletion) : (s.recordCompletion h).draws = s.draws := by
  unfold State.recordCompletion
  dsimp only
  repeat' split
  all_goals simp
@[simp] theorem State.recordCompletion_mem (s : State) (h : HeldCompletion) : (s.recordCompletion h).mem = s.mem := by
  unfold State.recordCompletion
  dsimp only
  repeat' split
  all_goals simp
@[simp] theorem State.recordCompletion_ftu (s : State) (h : HeldCompletion) : (s.recordCompletion h).ftu = s.ftu := by
  unfold State.recordCompletion
  dsimp only
  repeat' split
  all_goals simp
@[simp] theorem State.recordCompletion_ldu (s : State) (h : HeldCompletion) : (s.recordCompletion h).ldu = s.ldu := by
  unfold State.recordCompletion
  dsimp only
  repeat' split
  all_goals simp
@[simp] theorem State.recordCompletion_mst (s : State) (h : HeldCompletion) : (s.recordCompletion h).mst = s.mst := by
  unfold State.recordCompletion
  dsimp only
  repeat' split
  all_goals simp
@[simp] theorem State.recordCompletion_acu (s : State) (h : HeldCompletion) : (s.recordCompletion h).acu = s.acu := by
  unfold State.recordCompletion
  dsimp only
  repeat' split
  all_goals simp
@[simp] theorem State.recordCompletion_sta (s : State) (h : HeldCompletion) : (s.recordCompletion h).sta = s.sta := by
  unfold State.recordCompletion
  dsimp only
  repeat' split
  all_goals simp
@[simp] theorem State.recordCompletion_slotA (s : State) (h : HeldCompletion) : (s.recordCompletion h).slotA = s.slotA := by
  unfold State.recordCompletion
  dsimp only
  repeat' split
  all_goals simp
@[simp] theorem State.recordCompletion_slotB (s : State) (h : HeldCompletion) : (s.recordCompletion h).slotB = s.slotB := by
  unfold State.recordCompletion
  dsimp only
  repeat' split
  all_goals simp
@[simp] theorem State.recordCompletion_deck (s : State) (h : HeldCompletion) : (s.recordCompletion h).deck = s.deck := by
  unfold State.recordCompletion
  dsimp only
  repeat' split
  all_goals simp
@[simp] theorem State.recordCompletion_cgd (s : State) (h : HeldCompletion) : (s.recordCompletion h).cgd = s.cgd := by
  unfold State.recordCompletion
  dsimp only
  repeat' split
  all_goals simp
@[simp] theorem State.recordCompletion_stop (s : State) (h : HeldCompletion) : (s.recordCompletion h).stop = s.stop := by
  unfold State.recordCompletion
  dsimp only
  repeat' split
  all_goals simp
@[simp] theorem State.recordCompletion_vfl (s : State) (h : HeldCompletion) : (s.recordCompletion h).vfl = s.vfl := by
  unfold State.recordCompletion
  dsimp only
  repeat' split
  all_goals simp
@[simp] theorem State.recordCompletion_pending (s : State) (h : HeldCompletion) : (s.recordCompletion h).pending = s.pending := by
  unfold State.recordCompletion
  dsimp only
  repeat' split
  all_goals simp

/-! ### complete -/

@[simp] theorem State.complete_now (s : State) (h : HeldCompletion) : (s.complete h).now = s.now := by
  unfold State.complete
  split <;> simp
@[simp] theorem State.complete_busErrors (s : State) (h : HeldCompletion) : (s.complete h).busErrors = s.busErrors := by
  unfold State.complete
  split <;> simp
@[simp] theorem State.complete_draws (s : State) (h : HeldCompletion) : (s.complete h).draws = s.draws := by
  unfold State.complete
  split <;> simp
@[simp] theorem State.complete_mem (s : State) (h : HeldCompletion) : (s.complete h).mem = s.mem := by
  unfold State.complete
  split <;> simp
@[simp] theorem State.complete_ftu (s : State) (h : HeldCompletion) : (s.complete h).ftu = s.ftu := by
  unfold State.complete
  split <;> simp
@[simp] theorem State.complete_ldu (s : State) (h : HeldCompletion) : (s.complete h).ldu = s.ldu := by
  unfold State.complete
  split <;> simp
@[simp] theorem State.complete_mst (s : State) (h : HeldCompletion) : (s.complete h).mst = s.mst := by
  unfold State.complete
  split <;> simp
@[simp] theorem State.complete_acu (s : State) (h : HeldCompletion) : (s.complete h).acu = s.acu := by
  unfold State.complete
  split <;> simp
@[simp] theorem State.complete_sta (s : State) (h : HeldCompletion) : (s.complete h).sta = s.sta := by
  unfold State.complete
  split <;> simp
@[simp] theorem State.complete_slotA (s : State) (h : HeldCompletion) : (s.complete h).slotA = s.slotA := by
  unfold State.complete
  split <;> simp
@[simp] theorem State.complete_slotB (s : State) (h : HeldCompletion) : (s.complete h).slotB = s.slotB := by
  unfold State.complete
  split <;> simp
@[simp] theorem State.complete_deck (s : State) (h : HeldCompletion) : (s.complete h).deck = s.deck := by
  unfold State.complete
  split <;> simp
@[simp] theorem State.complete_cgd (s : State) (h : HeldCompletion) : (s.complete h).cgd = s.cgd := by
  unfold State.complete
  split <;> simp
@[simp] theorem State.complete_stop (s : State) (h : HeldCompletion) : (s.complete h).stop = s.stop := by
  unfold State.complete
  split <;> simp
@[simp] theorem State.complete_vfl (s : State) (h : HeldCompletion) : (s.complete h).vfl = s.vfl := by
  unfold State.complete
  split <;> simp
@[simp] theorem State.complete_pending (s : State) (h : HeldCompletion) : (s.complete h).pending = s.pending := by
  unfold State.complete
  split <;> simp

/-! ### endTag -/

@[simp] theorem State.endTag_now (s : State) (n : Nat) (o : TagOutcome) (w1 w2 w3 : Word) : (s.endTag n o w1 w2 w3).now = s.now := by
  simp [State.endTag]
@[simp] theorem State.endTag_busErrors (s : State) (n : Nat) (o : TagOutcome) (w1 w2 w3 : Word) : (s.endTag n o w1 w2 w3).busErrors = s.busErrors := by
  simp [State.endTag]
@[simp] theorem State.endTag_draws (s : State) (n : Nat) (o : TagOutcome) (w1 w2 w3 : Word) : (s.endTag n o w1 w2 w3).draws = s.draws := by
  simp [State.endTag]
@[simp] theorem State.endTag_mem (s : State) (n : Nat) (o : TagOutcome) (w1 w2 w3 : Word) : (s.endTag n o w1 w2 w3).mem = s.mem := by
  simp [State.endTag]
@[simp] theorem State.endTag_ftu (s : State) (n : Nat) (o : TagOutcome) (w1 w2 w3 : Word) : (s.endTag n o w1 w2 w3).ftu = s.ftu := by
  simp [State.endTag]
@[simp] theorem State.endTag_ldu (s : State) (n : Nat) (o : TagOutcome) (w1 w2 w3 : Word) : (s.endTag n o w1 w2 w3).ldu = s.ldu := by
  simp [State.endTag]
@[simp] theorem State.endTag_mst (s : State) (n : Nat) (o : TagOutcome) (w1 w2 w3 : Word) : (s.endTag n o w1 w2 w3).mst = s.mst := by
  simp [State.endTag]
@[simp] theorem State.endTag_acu (s : State) (n : Nat) (o : TagOutcome) (w1 w2 w3 : Word) : (s.endTag n o w1 w2 w3).acu = s.acu := by
  simp [State.endTag]
@[simp] theorem State.endTag_sta (s : State) (n : Nat) (o : TagOutcome) (w1 w2 w3 : Word) : (s.endTag n o w1 w2 w3).sta = s.sta := by
  simp [State.endTag]
@[simp] theorem State.endTag_slotA (s : State) (n : Nat) (o : TagOutcome) (w1 w2 w3 : Word) : (s.endTag n o w1 w2 w3).slotA = s.slotA := by
  simp [State.endTag]
@[simp] theorem State.endTag_slotB (s : State) (n : Nat) (o : TagOutcome) (w1 w2 w3 : Word) : (s.endTag n o w1 w2 w3).slotB = s.slotB := by
  simp [State.endTag]
@[simp] theorem State.endTag_deck (s : State) (n : Nat) (o : TagOutcome) (w1 w2 w3 : Word) : (s.endTag n o w1 w2 w3).deck = s.deck := by
  simp [State.endTag]
@[simp] theorem State.endTag_cgd (s : State) (n : Nat) (o : TagOutcome) (w1 w2 w3 : Word) : (s.endTag n o w1 w2 w3).cgd = s.cgd := by
  simp [State.endTag]
@[simp] theorem State.endTag_stop (s : State) (n : Nat) (o : TagOutcome) (w1 w2 w3 : Word) : (s.endTag n o w1 w2 w3).stop = s.stop := by
  simp [State.endTag]
@[simp] theorem State.endTag_vfl (s : State) (n : Nat) (o : TagOutcome) (w1 w2 w3 : Word) : (s.endTag n o w1 w2 w3).vfl = s.vfl := by
  simp [State.endTag]
@[simp] theorem State.endTag_pending (s : State) (n : Nat) (o : TagOutcome) (w1 w2 w3 : Word) : (s.endTag n o w1 w2 w3).pending = s.pending := by
  simp [State.endTag]

/-! ### noticeEntered -/

@[simp] theorem State.noticeEntered_now (s : State) (k : FaultKind) : (s.noticeEntered k).now = s.now := by
  unfold State.noticeEntered
  split <;> rfl
@[simp] theorem State.noticeEntered_busErrors (s : State) (k : FaultKind) : (s.noticeEntered k).busErrors = s.busErrors := by
  unfold State.noticeEntered
  split <;> rfl
@[simp] theorem State.noticeEntered_draws (s : State) (k : FaultKind) : (s.noticeEntered k).draws = s.draws := by
  unfold State.noticeEntered
  split <;> rfl
@[simp] theorem State.noticeEntered_mem (s : State) (k : FaultKind) : (s.noticeEntered k).mem = s.mem := by
  unfold State.noticeEntered
  split <;> rfl
@[simp] theorem State.noticeEntered_shc (s : State) (k : FaultKind) : (s.noticeEntered k).shc = s.shc := by
  unfold State.noticeEntered
  split <;> rfl
@[simp] theorem State.noticeEntered_ftu (s : State) (k : FaultKind) : (s.noticeEntered k).ftu = s.ftu := by
  unfold State.noticeEntered
  split <;> rfl
@[simp] theorem State.noticeEntered_ldu (s : State) (k : FaultKind) : (s.noticeEntered k).ldu = s.ldu := by
  unfold State.noticeEntered
  split <;> rfl
@[simp] theorem State.noticeEntered_mst (s : State) (k : FaultKind) : (s.noticeEntered k).mst = s.mst := by
  unfold State.noticeEntered
  split <;> rfl
@[simp] theorem State.noticeEntered_acu (s : State) (k : FaultKind) : (s.noticeEntered k).acu = s.acu := by
  unfold State.noticeEntered
  split <;> rfl
@[simp] theorem State.noticeEntered_sta (s : State) (k : FaultKind) : (s.noticeEntered k).sta = s.sta := by
  unfold State.noticeEntered
  split <;> rfl
@[simp] theorem State.noticeEntered_slotA (s : State) (k : FaultKind) : (s.noticeEntered k).slotA = s.slotA := by
  unfold State.noticeEntered
  split <;> rfl
@[simp] theorem State.noticeEntered_slotB (s : State) (k : FaultKind) : (s.noticeEntered k).slotB = s.slotB := by
  unfold State.noticeEntered
  split <;> rfl
@[simp] theorem State.noticeEntered_deck (s : State) (k : FaultKind) : (s.noticeEntered k).deck = s.deck := by
  unfold State.noticeEntered
  split <;> rfl
@[simp] theorem State.noticeEntered_cgd (s : State) (k : FaultKind) : (s.noticeEntered k).cgd = s.cgd := by
  unfold State.noticeEntered
  split <;> rfl
@[simp] theorem State.noticeEntered_stop (s : State) (k : FaultKind) : (s.noticeEntered k).stop = s.stop := by
  unfold State.noticeEntered
  split <;> rfl
@[simp] theorem State.noticeEntered_flt (s : State) (k : FaultKind) : (s.noticeEntered k).flt = s.flt := by
  unfold State.noticeEntered
  split <;> rfl
@[simp] theorem State.noticeEntered_pending (s : State) (k : FaultKind) : (s.noticeEntered k).pending = s.pending := by
  unfold State.noticeEntered
  split <;> rfl

/-! ### capture -/

@[simp] theorem State.capture_now (s : State) (b : Bool) (o : Occurrence) : (s.capture b o).now = s.now := by
  unfold State.capture
  dsimp only
  repeat' split
  all_goals simp
@[simp] theorem State.capture_busErrors (s : State) (b : Bool) (o : Occurrence) : (s.capture b o).busErrors = s.busErrors := by
  unfold State.capture
  dsimp only
  repeat' split
  all_goals simp
@[simp] theorem State.capture_draws (s : State) (b : Bool) (o : Occurrence) : (s.capture b o).draws = s.draws := by
  unfold State.capture
  dsimp only
  repeat' split
  all_goals simp
@[simp] theorem State.capture_mem (s : State) (b : Bool) (o : Occurrence) : (s.capture b o).mem = s.mem := by
  unfold State.capture
  dsimp only
  repeat' split
  all_goals simp
@[simp] theorem State.capture_ftu (s : State) (b : Bool) (o : Occurrence) : (s.capture b o).ftu = s.ftu := by
  unfold State.capture
  dsimp only
  repeat' split
  all_goals simp
@[simp] theorem State.capture_ldu (s : State) (b : Bool) (o : Occurrence) : (s.capture b o).ldu = s.ldu := by
  unfold State.capture
  dsimp only
  repeat' split
  all_goals simp
@[simp] theorem State.capture_mst (s : State) (b : Bool) (o : Occurrence) : (s.capture b o).mst = s.mst := by
  unfold State.capture
  dsimp only
  repeat' split
  all_goals simp
@[simp] theorem State.capture_acu (s : State) (b : Bool) (o : Occurrence) : (s.capture b o).acu = s.acu := by
  unfold State.capture
  dsimp only
  repeat' split
  all_goals simp
@[simp] theorem State.capture_sta (s : State) (b : Bool) (o : Occurrence) : (s.capture b o).sta = s.sta := by
  unfold State.capture
  dsimp only
  repeat' split
  all_goals simp
@[simp] theorem State.capture_slotA (s : State) (b : Bool) (o : Occurrence) : (s.capture b o).slotA = s.slotA := by
  unfold State.capture
  dsimp only
  repeat' split
  all_goals simp
@[simp] theorem State.capture_slotB (s : State) (b : Bool) (o : Occurrence) : (s.capture b o).slotB = s.slotB := by
  unfold State.capture
  dsimp only
  repeat' split
  all_goals simp
@[simp] theorem State.capture_deck (s : State) (b : Bool) (o : Occurrence) : (s.capture b o).deck = s.deck := by
  unfold State.capture
  dsimp only
  repeat' split
  all_goals simp
@[simp] theorem State.capture_cgd (s : State) (b : Bool) (o : Occurrence) : (s.capture b o).cgd = s.cgd := by
  unfold State.capture
  dsimp only
  repeat' split
  all_goals simp
@[simp] theorem State.capture_stop (s : State) (b : Bool) (o : Occurrence) : (s.capture b o).stop = s.stop := by
  unfold State.capture
  dsimp only
  repeat' split
  all_goals simp
@[simp] theorem State.capture_vfl (s : State) (b : Bool) (o : Occurrence) : (s.capture b o).vfl = s.vfl := by
  unfold State.capture
  dsimp only
  repeat' split
  all_goals simp
@[simp] theorem State.capture_pending (s : State) (b : Bool) (o : Occurrence) : (s.capture b o).pending = s.pending := by
  unfold State.capture
  dsimp only
  repeat' split
  all_goals simp

/-! ### route -/

@[simp] theorem State.route_now (s : State) (k : FaultKind) : (s.route k).now = s.now := by
  unfold State.route
  split <;> rfl
@[simp] theorem State.route_busErrors (s : State) (k : FaultKind) : (s.route k).busErrors = s.busErrors := by
  unfold State.route
  split <;> rfl
@[simp] theorem State.route_draws (s : State) (k : FaultKind) : (s.route k).draws = s.draws := by
  unfold State.route
  split <;> rfl
@[simp] theorem State.route_mem (s : State) (k : FaultKind) : (s.route k).mem = s.mem := by
  unfold State.route
  split <;> rfl
@[simp] theorem State.route_shc (s : State) (k : FaultKind) : (s.route k).shc = s.shc := by
  unfold State.route
  split <;> rfl
@[simp] theorem State.route_ftu (s : State) (k : FaultKind) : (s.route k).ftu = s.ftu := by
  unfold State.route
  split <;> rfl
@[simp] theorem State.route_ldu (s : State) (k : FaultKind) : (s.route k).ldu = s.ldu := by
  unfold State.route
  split <;> rfl
@[simp] theorem State.route_mst (s : State) (k : FaultKind) : (s.route k).mst = s.mst := by
  unfold State.route
  split <;> rfl
@[simp] theorem State.route_acu (s : State) (k : FaultKind) : (s.route k).acu = s.acu := by
  unfold State.route
  split <;> rfl
@[simp] theorem State.route_sta (s : State) (k : FaultKind) : (s.route k).sta = s.sta := by
  unfold State.route
  split <;> rfl
@[simp] theorem State.route_slotA (s : State) (k : FaultKind) : (s.route k).slotA = s.slotA := by
  unfold State.route
  split <;> rfl
@[simp] theorem State.route_slotB (s : State) (k : FaultKind) : (s.route k).slotB = s.slotB := by
  unfold State.route
  split <;> rfl
@[simp] theorem State.route_deck (s : State) (k : FaultKind) : (s.route k).deck = s.deck := by
  unfold State.route
  split <;> rfl
@[simp] theorem State.route_cgd (s : State) (k : FaultKind) : (s.route k).cgd = s.cgd := by
  unfold State.route
  split <;> rfl
@[simp] theorem State.route_vfl (s : State) (k : FaultKind) : (s.route k).vfl = s.vfl := by
  unfold State.route
  split <;> rfl
@[simp] theorem State.route_flt (s : State) (k : FaultKind) : (s.route k).flt = s.flt := by
  unfold State.route
  split <;> rfl
@[simp] theorem State.route_pending (s : State) (k : FaultKind) : (s.route k).pending = s.pending := by
  unfold State.route
  split <;> rfl

/-! ### occur -/

@[simp] theorem State.occur_now (s : State) (o : Occurrence) : (s.occur o).now = s.now := by
  unfold State.occur
  dsimp only
  split <;> simp
@[simp] theorem State.occur_busErrors (s : State) (o : Occurrence) : (s.occur o).busErrors = s.busErrors := by
  unfold State.occur
  dsimp only
  split <;> simp
@[simp] theorem State.occur_draws (s : State) (o : Occurrence) : (s.occur o).draws = s.draws := by
  unfold State.occur
  dsimp only
  split <;> simp
@[simp] theorem State.occur_mem (s : State) (o : Occurrence) : (s.occur o).mem = s.mem := by
  unfold State.occur
  dsimp only
  split <;> simp
@[simp] theorem State.occur_ftu (s : State) (o : Occurrence) : (s.occur o).ftu = s.ftu := by
  unfold State.occur
  dsimp only
  split <;> simp
@[simp] theorem State.occur_ldu (s : State) (o : Occurrence) : (s.occur o).ldu = s.ldu := by
  unfold State.occur
  dsimp only
  split <;> simp
@[simp] theorem State.occur_mst (s : State) (o : Occurrence) : (s.occur o).mst = s.mst := by
  unfold State.occur
  dsimp only
  split <;> simp
@[simp] theorem State.occur_acu (s : State) (o : Occurrence) : (s.occur o).acu = s.acu := by
  unfold State.occur
  dsimp only
  split <;> simp
@[simp] theorem State.occur_sta (s : State) (o : Occurrence) : (s.occur o).sta = s.sta := by
  unfold State.occur
  dsimp only
  split <;> simp
@[simp] theorem State.occur_slotA (s : State) (o : Occurrence) : (s.occur o).slotA = s.slotA := by
  unfold State.occur
  dsimp only
  split <;> simp
@[simp] theorem State.occur_slotB (s : State) (o : Occurrence) : (s.occur o).slotB = s.slotB := by
  unfold State.occur
  dsimp only
  split <;> simp
@[simp] theorem State.occur_deck (s : State) (o : Occurrence) : (s.occur o).deck = s.deck := by
  unfold State.occur
  dsimp only
  split <;> simp
@[simp] theorem State.occur_cgd (s : State) (o : Occurrence) : (s.occur o).cgd = s.cgd := by
  unfold State.occur
  dsimp only
  split <;> simp
@[simp] theorem State.occur_pending (s : State) (o : Occurrence) : (s.occur o).pending = s.pending := by
  unfold State.occur
  dsimp only
  split <;> simp

/-! ### fault -/

@[simp] theorem State.fault_now (s : State) (k : FaultKind) (x : FaultSource) (d1 d2 : Word) : (s.fault k x d1 d2).now = s.now := by
  simp [State.fault]
@[simp] theorem State.fault_busErrors (s : State) (k : FaultKind) (x : FaultSource) (d1 d2 : Word) : (s.fault k x d1 d2).busErrors = s.busErrors := by
  simp [State.fault]
@[simp] theorem State.fault_draws (s : State) (k : FaultKind) (x : FaultSource) (d1 d2 : Word) : (s.fault k x d1 d2).draws = s.draws := by
  simp [State.fault]
@[simp] theorem State.fault_mem (s : State) (k : FaultKind) (x : FaultSource) (d1 d2 : Word) : (s.fault k x d1 d2).mem = s.mem := by
  simp [State.fault]
@[simp] theorem State.fault_ftu (s : State) (k : FaultKind) (x : FaultSource) (d1 d2 : Word) : (s.fault k x d1 d2).ftu = s.ftu := by
  simp [State.fault]
@[simp] theorem State.fault_ldu (s : State) (k : FaultKind) (x : FaultSource) (d1 d2 : Word) : (s.fault k x d1 d2).ldu = s.ldu := by
  simp [State.fault]
@[simp] theorem State.fault_mst (s : State) (k : FaultKind) (x : FaultSource) (d1 d2 : Word) : (s.fault k x d1 d2).mst = s.mst := by
  simp [State.fault]
@[simp] theorem State.fault_acu (s : State) (k : FaultKind) (x : FaultSource) (d1 d2 : Word) : (s.fault k x d1 d2).acu = s.acu := by
  simp [State.fault]
@[simp] theorem State.fault_sta (s : State) (k : FaultKind) (x : FaultSource) (d1 d2 : Word) : (s.fault k x d1 d2).sta = s.sta := by
  simp [State.fault]
@[simp] theorem State.fault_slotA (s : State) (k : FaultKind) (x : FaultSource) (d1 d2 : Word) : (s.fault k x d1 d2).slotA = s.slotA := by
  simp [State.fault]
@[simp] theorem State.fault_slotB (s : State) (k : FaultKind) (x : FaultSource) (d1 d2 : Word) : (s.fault k x d1 d2).slotB = s.slotB := by
  simp [State.fault]
@[simp] theorem State.fault_deck (s : State) (k : FaultKind) (x : FaultSource) (d1 d2 : Word) : (s.fault k x d1 d2).deck = s.deck := by
  simp [State.fault]
@[simp] theorem State.fault_cgd (s : State) (k : FaultKind) (x : FaultSource) (d1 d2 : Word) : (s.fault k x d1 d2).cgd = s.cgd := by
  simp [State.fault]
@[simp] theorem State.fault_pending (s : State) (k : FaultKind) (x : FaultSource) (d1 d2 : Word) : (s.fault k x d1 d2).pending = s.pending := by
  simp [State.fault]

/-! ### slotFault -/

@[simp] theorem State.slotFault_now (s : State) (x : SlotId) (k : FaultKind) (d1 d2 : Word) (b : Bool) :
    (s.slotFault x k d1 d2 b).now = s.now := by
  simp [State.slotFault]
@[simp] theorem State.slotFault_busErrors (s : State) (x : SlotId) (k : FaultKind) (d1 d2 : Word) (b : Bool) :
    (s.slotFault x k d1 d2 b).busErrors = s.busErrors := by
  simp [State.slotFault]
@[simp] theorem State.slotFault_draws (s : State) (x : SlotId) (k : FaultKind) (d1 d2 : Word) (b : Bool) :
    (s.slotFault x k d1 d2 b).draws = s.draws := by
  simp [State.slotFault]
@[simp] theorem State.slotFault_mem (s : State) (x : SlotId) (k : FaultKind) (d1 d2 : Word) (b : Bool) :
    (s.slotFault x k d1 d2 b).mem = s.mem := by
  simp [State.slotFault]
@[simp] theorem State.slotFault_ftu (s : State) (x : SlotId) (k : FaultKind) (d1 d2 : Word) (b : Bool) :
    (s.slotFault x k d1 d2 b).ftu = s.ftu := by
  simp [State.slotFault]
@[simp] theorem State.slotFault_ldu (s : State) (x : SlotId) (k : FaultKind) (d1 d2 : Word) (b : Bool) :
    (s.slotFault x k d1 d2 b).ldu = s.ldu := by
  simp [State.slotFault]
@[simp] theorem State.slotFault_mst (s : State) (x : SlotId) (k : FaultKind) (d1 d2 : Word) (b : Bool) :
    (s.slotFault x k d1 d2 b).mst = s.mst := by
  simp [State.slotFault]
@[simp] theorem State.slotFault_acu (s : State) (x : SlotId) (k : FaultKind) (d1 d2 : Word) (b : Bool) :
    (s.slotFault x k d1 d2 b).acu = s.acu := by
  simp [State.slotFault]
@[simp] theorem State.slotFault_sta (s : State) (x : SlotId) (k : FaultKind) (d1 d2 : Word) (b : Bool) :
    (s.slotFault x k d1 d2 b).sta = s.sta := by
  simp [State.slotFault]
@[simp] theorem State.slotFault_deck (s : State) (x : SlotId) (k : FaultKind) (d1 d2 : Word) (b : Bool) :
    (s.slotFault x k d1 d2 b).deck = s.deck := by
  simp [State.slotFault]
@[simp] theorem State.slotFault_cgd (s : State) (x : SlotId) (k : FaultKind) (d1 d2 : Word) (b : Bool) :
    (s.slotFault x k d1 d2 b).cgd = s.cgd := by
  simp [State.slotFault]
@[simp] theorem State.slotFault_pending (s : State) (x : SlotId) (k : FaultKind) (d1 d2 : Word) (b : Bool) :
    (s.slotFault x k d1 d2 b).pending = s.pending := by
  simp [State.slotFault]

/-- The slot of the fault holds no tag afterwards, and is else as it was (R141). -/
theorem State.slotFault_slot (s : State) (x : SlotId) (k : FaultKind) (d1 d2 : Word) (b : Bool) :
    (s.slotFault x k d1 d2 b).slot x = { s.slot x with openTag := 0, closeTag := 0, scanTag := 0 } := by
  cases x <;> simp [State.slotFault, State.updSlot, State.setSlot, State.slot, otherSlot]

/-- The other slot drops the tags that have ended, and is else as it was (R141). -/
theorem State.slotFault_other (s : State) (x : SlotId) (k : FaultKind) (d1 d2 : Word) (b : Bool) :
    (s.slotFault x k d1 d2 b).slot (otherSlot x) =
      ((s.slot (otherSlot x)).dropTag (s.slot x).capturedTag).dropTag
        (if (s.slot x).closeTag ≠ 0 then (s.slot x).openTag else 0) := by
  cases x <;> simp [State.slotFault, State.updSlot, State.setSlot, State.slot, otherSlot]

/-! ### busFault -/

@[simp] theorem State.busFault_now (s : State) (b : BusBlock) (n : Nat) : (s.busFault b n).now = s.now := by
  simp [State.busFault]
@[simp] theorem State.busFault_busErrors (s : State) (b : BusBlock) (n : Nat) : (s.busFault b n).busErrors = s.busErrors := by
  simp [State.busFault]
@[simp] theorem State.busFault_draws (s : State) (b : BusBlock) (n : Nat) : (s.busFault b n).draws = s.draws := by
  simp [State.busFault]
@[simp] theorem State.busFault_mem (s : State) (b : BusBlock) (n : Nat) : (s.busFault b n).mem = s.mem := by
  simp [State.busFault]
@[simp] theorem State.busFault_ftu (s : State) (b : BusBlock) (n : Nat) : (s.busFault b n).ftu = s.ftu := by
  simp [State.busFault]
@[simp] theorem State.busFault_ldu (s : State) (b : BusBlock) (n : Nat) : (s.busFault b n).ldu = s.ldu := by
  simp [State.busFault]
@[simp] theorem State.busFault_mst (s : State) (b : BusBlock) (n : Nat) : (s.busFault b n).mst = s.mst := by
  simp [State.busFault]
@[simp] theorem State.busFault_acu (s : State) (b : BusBlock) (n : Nat) : (s.busFault b n).acu = s.acu := by
  simp [State.busFault]
@[simp] theorem State.busFault_sta (s : State) (b : BusBlock) (n : Nat) : (s.busFault b n).sta = s.sta := by
  simp [State.busFault]
@[simp] theorem State.busFault_slotA (s : State) (b : BusBlock) (n : Nat) : (s.busFault b n).slotA = s.slotA := by
  simp [State.busFault]
@[simp] theorem State.busFault_slotB (s : State) (b : BusBlock) (n : Nat) : (s.busFault b n).slotB = s.slotB := by
  simp [State.busFault]
@[simp] theorem State.busFault_deck (s : State) (b : BusBlock) (n : Nat) : (s.busFault b n).deck = s.deck := by
  simp [State.busFault]
@[simp] theorem State.busFault_cgd (s : State) (b : BusBlock) (n : Nat) : (s.busFault b n).cgd = s.cgd := by
  simp [State.busFault]
@[simp] theorem State.busFault_pending (s : State) (b : BusBlock) (n : Nat) : (s.busFault b n).pending = s.pending := by
  simp [State.busFault]

/-! ### Writes by a block -/

@[simp] theorem State.busWrite_now (s : State) (a : Nat) (b : List Byte) : (s.busWrite a b).1.now = s.now := by
  unfold State.busWrite
  split <;> rfl
@[simp] theorem State.blockWrite_now (s : State) (x : BusBlock) (a : Nat) (b : List Byte) :
    (s.blockWrite x a b).1.now = s.now := by
  unfold State.blockWrite
  have h := State.busWrite_now s a b
  split <;> simp_all
@[simp] theorem State.busWrite_busErrors (s : State) (a : Nat) (b : List Byte) : (s.busWrite a b).1.busErrors = s.busErrors := by
  unfold State.busWrite
  split <;> rfl
@[simp] theorem State.blockWrite_busErrors (s : State) (x : BusBlock) (a : Nat) (b : List Byte) :
    (s.blockWrite x a b).1.busErrors = s.busErrors := by
  unfold State.blockWrite
  have h := State.busWrite_busErrors s a b
  split <;> simp_all
@[simp] theorem State.busWrite_draws (s : State) (a : Nat) (b : List Byte) : (s.busWrite a b).1.draws = s.draws := by
  unfold State.busWrite
  split <;> rfl
@[simp] theorem State.blockWrite_draws (s : State) (x : BusBlock) (a : Nat) (b : List Byte) :
    (s.blockWrite x a b).1.draws = s.draws := by
  unfold State.blockWrite
  have h := State.busWrite_draws s a b
  split <;> simp_all
@[simp] theorem State.busWrite_ftu (s : State) (a : Nat) (b : List Byte) : (s.busWrite a b).1.ftu = s.ftu := by
  unfold State.busWrite
  split <;> rfl
@[simp] theorem State.blockWrite_ftu (s : State) (x : BusBlock) (a : Nat) (b : List Byte) :
    (s.blockWrite x a b).1.ftu = s.ftu := by
  unfold State.blockWrite
  have h := State.busWrite_ftu s a b
  split <;> simp_all
@[simp] theorem State.busWrite_ldu (s : State) (a : Nat) (b : List Byte) : (s.busWrite a b).1.ldu = s.ldu := by
  unfold State.busWrite
  split <;> rfl
@[simp] theorem State.blockWrite_ldu (s : State) (x : BusBlock) (a : Nat) (b : List Byte) :
    (s.blockWrite x a b).1.ldu = s.ldu := by
  unfold State.blockWrite
  have h := State.busWrite_ldu s a b
  split <;> simp_all
@[simp] theorem State.busWrite_mst (s : State) (a : Nat) (b : List Byte) : (s.busWrite a b).1.mst = s.mst := by
  unfold State.busWrite
  split <;> rfl
@[simp] theorem State.blockWrite_mst (s : State) (x : BusBlock) (a : Nat) (b : List Byte) :
    (s.blockWrite x a b).1.mst = s.mst := by
  unfold State.blockWrite
  have h := State.busWrite_mst s a b
  split <;> simp_all
@[simp] theorem State.busWrite_acu (s : State) (a : Nat) (b : List Byte) : (s.busWrite a b).1.acu = s.acu := by
  unfold State.busWrite
  split <;> rfl
@[simp] theorem State.blockWrite_acu (s : State) (x : BusBlock) (a : Nat) (b : List Byte) :
    (s.blockWrite x a b).1.acu = s.acu := by
  unfold State.blockWrite
  have h := State.busWrite_acu s a b
  split <;> simp_all
@[simp] theorem State.busWrite_sta (s : State) (a : Nat) (b : List Byte) : (s.busWrite a b).1.sta = s.sta := by
  unfold State.busWrite
  split <;> rfl
@[simp] theorem State.blockWrite_sta (s : State) (x : BusBlock) (a : Nat) (b : List Byte) :
    (s.blockWrite x a b).1.sta = s.sta := by
  unfold State.blockWrite
  have h := State.busWrite_sta s a b
  split <;> simp_all
@[simp] theorem State.busWrite_slotA (s : State) (a : Nat) (b : List Byte) : (s.busWrite a b).1.slotA = s.slotA := by
  unfold State.busWrite
  split <;> rfl
@[simp] theorem State.blockWrite_slotA (s : State) (x : BusBlock) (a : Nat) (b : List Byte) :
    (s.blockWrite x a b).1.slotA = s.slotA := by
  unfold State.blockWrite
  have h := State.busWrite_slotA s a b
  split <;> simp_all
@[simp] theorem State.busWrite_slotB (s : State) (a : Nat) (b : List Byte) : (s.busWrite a b).1.slotB = s.slotB := by
  unfold State.busWrite
  split <;> rfl
@[simp] theorem State.blockWrite_slotB (s : State) (x : BusBlock) (a : Nat) (b : List Byte) :
    (s.blockWrite x a b).1.slotB = s.slotB := by
  unfold State.blockWrite
  have h := State.busWrite_slotB s a b
  split <;> simp_all
@[simp] theorem State.busWrite_deck (s : State) (a : Nat) (b : List Byte) : (s.busWrite a b).1.deck = s.deck := by
  unfold State.busWrite
  split <;> rfl
@[simp] theorem State.blockWrite_deck (s : State) (x : BusBlock) (a : Nat) (b : List Byte) :
    (s.blockWrite x a b).1.deck = s.deck := by
  unfold State.blockWrite
  have h := State.busWrite_deck s a b
  split <;> simp_all
@[simp] theorem State.busWrite_cgd (s : State) (a : Nat) (b : List Byte) : (s.busWrite a b).1.cgd = s.cgd := by
  unfold State.busWrite
  split <;> rfl
@[simp] theorem State.blockWrite_cgd (s : State) (x : BusBlock) (a : Nat) (b : List Byte) :
    (s.blockWrite x a b).1.cgd = s.cgd := by
  unfold State.blockWrite
  have h := State.busWrite_cgd s a b
  split <;> simp_all
@[simp] theorem State.busWrite_pending (s : State) (a : Nat) (b : List Byte) : (s.busWrite a b).1.pending = s.pending := by
  unfold State.busWrite
  split <;> rfl
@[simp] theorem State.blockWrite_pending (s : State) (x : BusBlock) (a : Nat) (b : List Byte) :
    (s.blockWrite x a b).1.pending = s.pending := by
  unfold State.blockWrite
  have h := State.busWrite_pending s a b
  split <;> simp_all
@[simp] theorem State.busWrite_shc (s : State) (a : Nat) (b : List Byte) : (s.busWrite a b).1.shc = s.shc := by
  unfold State.busWrite
  split <;> rfl
@[simp] theorem State.busWrite_flt (s : State) (a : Nat) (b : List Byte) : (s.busWrite a b).1.flt = s.flt := by
  unfold State.busWrite
  split <;> rfl
@[simp] theorem State.busWrite_vfl (s : State) (a : Nat) (b : List Byte) : (s.busWrite a b).1.vfl = s.vfl := by
  unfold State.busWrite
  split <;> rfl
@[simp] theorem State.busWrite_stop (s : State) (a : Nat) (b : List Byte) : (s.busWrite a b).1.stop = s.stop := by
  unfold State.busWrite
  split <;> rfl

/-- A block's write keeps the canonical form of memory. -/
theorem State.blockWrite_wf {s : State} {x : BusBlock} {a : Nat} {b : List Byte} (h : Memory.wf s.mem = true) :
    Memory.wf (s.blockWrite x a b).1.mem = true := by
  have hw := State.busWrite_wf (s := s) (a := a) (b := b) h
  unfold State.blockWrite
  split <;> simp_all

/-- With no failing address the bytes stand and nothing else changes. -/
theorem State.blockWrite_ok {s : State} {x : BusBlock} {a : Nat} {b : List Byte} (h : s.busError a b.length = none) :
    s.blockWrite x a b = ({ s with mem := Memory.writeAll s.mem a b }, true) := by
  unfold State.blockWrite State.busWrite
  rw [h]

/-- With no address that fails, an access below the top of the bus has no error. -/
theorem State.busError_none {s : State} {a n : Nat} (h : s.busErrors = []) (ht : a + n ≤ 4294967296) :
    s.busError a n = none := by
  unfold State.busError
  rw [h, if_neg (by omega)]
  rfl

/-- Accesses of which none fails have no error together. -/
theorem State.spansError_none {s : State} {l : List (Nat × Nat)} (h : ∀ x ∈ l, s.busError x.1 x.2 = none) :
    s.spansError l = none := by
  induction l with
  | nil => rfl
  | cons x r ih =>
    have h1 := h x (List.mem_cons_self ..)
    have h2 := ih fun y hy => h y (List.mem_cons_of_mem _ hy)
    show lowestOf (s.busError x.1 x.2) (s.spansError r).toList = none
    rw [h1, h2]
    rfl

/-- The parameters of an entry lie within its 32 bytes. -/
theorem paramBytes_le (k : Byte) : paramBytes k ≤ 28 := by
  have h : ∀ x ∈ paramSizes, x.2 ≤ 28 := by decide
  unfold paramBytes
  split
  · next x hx => exact h x (List.mem_of_find?_eq_some hx)
  · omega

end Sys2Proof.Machine
end

