-- ==== Sys2Proof/Laws/Orders.lean ====
section
/-! SUPPORT. What the dispatch of an entry comes to, for each decision of the owning block, what the end of a step does
to the requests that wait for Safe Stop, and what leaving the fault sets changes. -/

namespace Sys2Proof.Machine

/-! ## The end of a step -/

/-- With no request waiting, the end of a step changes nothing. -/
theorem State.serve_none {s : State} (h : s.stop.requests = []) : s.serve = s := by
  simp [State.serve, h]

/-- With no request waiting, Safe Stop takes none. -/
theorem State.takeStops_none {s : State} (h : s.stop.requests = []) : s.takeStops = s := by
  have : ({ s.stop with requests := [] } : SafeStop) = s.stop := by rw [← h]
  simp [State.takeStops, h, this]

/-- An order that is not the next entry changes nothing. -/
theorem State.takeOrder_other {s : State} {c : TagClass} {kind tag : Byte} {params : List Byte}
    {decide : State → Decision} (h : s.awaits kind tag params = false) :
    s.takeOrder c kind tag params decide = s := by
  simp [State.takeOrder, h]

/-- A tag check that refuses gives the result, whatever the owning block would decide. -/
theorem State.takeOrder_refusedTag {s : State} {c : TagClass} {kind tag : Byte} {params : List Byte}
    {decide : State → Decision} {r : Result} (h : s.awaits kind tag params = true) (ht : s.tagCheck c tag = some r) :
    s.takeOrder c kind tag params decide = s.finishEntry r := by
  simp [State.takeOrder, h, ht]

/-- The three parts of `dispatches`. -/
theorem dispatches_iff {s : State} {c : TagClass} {kind tag : Byte} {params : List Byte} :
    dispatches s c kind tag params = true ↔
      s.awaits kind tag params = true ∧ s.tagCheck c tag = none ∧ s.stop.requests = [] := by
  simp [dispatches, and_assoc]

/-- A refusal of the owning block. -/
theorem State.takeOrder_refuse {s : State} {c : TagClass} {kind tag : Byte} {params : List Byte}
    {decide : State → Decision} {r : Result} (h : dispatches s c kind tag params = true) (hd : decide s = .refuse r) :
    s.takeOrder c kind tag params decide = s.finishEntry r := by
  obtain ⟨ha, ht, hr⟩ := dispatches_iff.mp h
  have hj : (s.finishEntry r).judgeSlots s = s.finishEntry r := State.judgeSlots_of_slots (by simp) (by simp)
  simp [State.takeOrder, ha, ht, hd, State.applyDecision, State.serve_none, hr, hj]

/-- A result of the owning block's own, with its effect. -/
theorem State.takeOrder_answer {s : State} {c : TagClass} {kind tag : Byte} {params : List Byte}
    {decide : State → Decision} {r : Result} {run : State → State} (h : dispatches s c kind tag params = true)
    (hd : decide s = .answer r run) :
    s.takeOrder c kind tag params decide = ((run s).finishEntry r).serve.judgeSlots s := by
  obtain ⟨ha, ht, _⟩ := dispatches_iff.mp h
  simp [State.takeOrder, ha, ht, hd, State.applyDecision]

/-- An order carried out. -/
theorem State.takeOrder_carry {s : State} {c : TagClass} {kind tag : Byte} {params : List Byte}
    {decide : State → Decision} {clamped : Bool} {run : State → State} (h : dispatches s c kind tag params = true)
    (hd : decide s = .carry clamped run) :
    s.takeOrder c kind tag params decide =
      ((run (s.acceptTag kind tag)).finishEntry (carriedResult clamped tag)).serve.judgeSlots s := by
  obtain ⟨ha, ht, _⟩ := dispatches_iff.mp h
  simp [State.takeOrder, ha, ht, hd, State.applyDecision]

/-- An order with tag field 0 makes no tag IN_FLIGHT. -/
@[simp] theorem State.acceptTag_zero (s : State) (kind : Byte) : s.acceptTag kind 0 = s := rfl

/-- An untagged order carried out, with no request to Safe Stop and no slot entering or leaving RECORDING in its
effect. -/
theorem State.takeOrder_done {s : State} {c : TagClass} {kind : Byte} {params : List Byte}
    {decide : State → Decision} {clamped : Bool} {run : State → State} (h : dispatches s c kind 0 params = true)
    (hd : decide s = .carry clamped run) (hr : (run s).stop.requests = []) (hs : (run s).sameRecording s = true) :
    s.takeOrder c kind 0 params decide = (run s).finishEntry (if clamped then .clamped else .done) := by
  rw [State.takeOrder_carry h hd, State.acceptTag_zero, State.serve_none (by simpa using hr),
    State.judgeSlots_same (by simpa [State.sameRecording] using hs)]
  rfl

/-- What arrives with a command does not touch what an order's dispatch reads. -/
@[simp] theorem dispatches_arrive (s : State) (e : Env) (c : TagClass) (kind tag : Byte) (params : List Byte) :
    dispatches (s.arrive e) c kind tag params = dispatches s c kind tag params := rfl

@[simp] theorem State.awaits_arrive (s : State) (e : Env) (kind tag : Byte) (params : List Byte) :
    (s.arrive e).awaits kind tag params = s.awaits kind tag params := rfl

/-! ## Requests to Safe Stop -/

/-- Judging the stop asks for none. -/
theorem State.judgeStop_requests (s : State) (h : s.stop.requests = []) : s.judgeStop.stop.requests = [] := by
  unfold State.judgeStop
  split
  · split
    · rfl
    · exact h
  · exact h

/-! ## Leaving the fault sets (R203, R208) -/

@[simp] theorem State.leaveSets_now (s : State) (p : UsedPlace) : (s.leaveSets p).now = s.now := by
  unfold State.leaveSets State.noticeLeft
  dsimp only
  split
  · split <;> rfl
  · rfl
@[simp] theorem State.leaveSets_busErrors (s : State) (p : UsedPlace) : (s.leaveSets p).busErrors = s.busErrors := by
  unfold State.leaveSets State.noticeLeft
  dsimp only
  split
  · split <;> rfl
  · rfl
@[simp] theorem State.leaveSets_draws (s : State) (p : UsedPlace) : (s.leaveSets p).draws = s.draws := by
  unfold State.leaveSets State.noticeLeft
  dsimp only
  split
  · split <;> rfl
  · rfl
@[simp] theorem State.leaveSets_mem (s : State) (p : UsedPlace) : (s.leaveSets p).mem = s.mem := by
  unfold State.leaveSets State.noticeLeft
  dsimp only
  split
  · split <;> rfl
  · rfl
@[simp] theorem State.leaveSets_ftu (s : State) (p : UsedPlace) : (s.leaveSets p).ftu = s.ftu := by
  unfold State.leaveSets State.noticeLeft
  dsimp only
  split
  · split <;> rfl
  · rfl
@[simp] theorem State.leaveSets_ldu (s : State) (p : UsedPlace) : (s.leaveSets p).ldu = s.ldu := by
  unfold State.leaveSets State.noticeLeft
  dsimp only
  split
  · split <;> rfl
  · rfl
@[simp] theorem State.leaveSets_mst (s : State) (p : UsedPlace) : (s.leaveSets p).mst = s.mst := by
  unfold State.leaveSets State.noticeLeft
  dsimp only
  split
  · split <;> rfl
  · rfl
@[simp] theorem State.leaveSets_acu (s : State) (p : UsedPlace) : (s.leaveSets p).acu = s.acu := by
  unfold State.leaveSets State.noticeLeft
  dsimp only
  split
  · split <;> rfl
  · rfl
@[simp] theorem State.leaveSets_sta (s : State) (p : UsedPlace) : (s.leaveSets p).sta = s.sta := by
  unfold State.leaveSets State.noticeLeft
  dsimp only
  split
  · split <;> rfl
  · rfl
@[simp] theorem State.leaveSets_slotA (s : State) (p : UsedPlace) : (s.leaveSets p).slotA = s.slotA := by
  unfold State.leaveSets State.noticeLeft
  dsimp only
  split
  · split <;> rfl
  · rfl
@[simp] theorem State.leaveSets_slotB (s : State) (p : UsedPlace) : (s.leaveSets p).slotB = s.slotB := by
  unfold State.leaveSets State.noticeLeft
  dsimp only
  split
  · split <;> rfl
  · rfl
@[simp] theorem State.leaveSets_deck (s : State) (p : UsedPlace) : (s.leaveSets p).deck = s.deck := by
  unfold State.leaveSets State.noticeLeft
  dsimp only
  split
  · split <;> rfl
  · rfl
@[simp] theorem State.leaveSets_cgd (s : State) (p : UsedPlace) : (s.leaveSets p).cgd = s.cgd := by
  unfold State.leaveSets State.noticeLeft
  dsimp only
  split
  · split <;> rfl
  · rfl
@[simp] theorem State.leaveSets_stop (s : State) (p : UsedPlace) : (s.leaveSets p).stop = s.stop := by
  unfold State.leaveSets State.noticeLeft
  dsimp only
  split
  · split <;> rfl
  · rfl
@[simp] theorem State.leaveSets_pending (s : State) (p : UsedPlace) : (s.leaveSets p).pending = s.pending := by
  unfold State.leaveSets State.noticeLeft
  dsimp only
  split
  · split <;> rfl
  · rfl

/-- The tag table stands. -/
@[simp] theorem State.leaveSets_tags (s : State) (p : UsedPlace) : (s.leaveSets p).shc.tags = s.shc.tags := by
  unfold State.leaveSets State.noticeLeft
  dsimp only
  split
  · split <;> rfl
  · rfl

/-- The SHC drops the holds of the kind where the kind stood and stands no more, and is else as it was (R203, R208). -/
theorem State.leaveSets_shc (s : State) (p : UsedPlace) :
    (s.leaveSets p).shc =
      if s.flt.stands p.kind && !(s.flt.leave p).stands p.kind then (s.dropHolds p.kind).shc else s.shc := by
  unfold State.leaveSets State.noticeLeft
  dsimp only
  split
  · split <;> rfl
  · rfl

/-- The tags stand, and with them what is IN_FLIGHT. -/
@[simp] theorem State.dropHolds_tagRec (s : State) (k : FaultKind) (n : Nat) :
    (s.dropHolds k).tagRec n = s.tagRec n := rfl
@[simp] theorem State.dropHolds_inFlight (s : State) (k : FaultKind) (n : Nat) :
    (s.dropHolds k).inFlight n = s.inFlight n := rfl

/-- No completion that waits is to be held by the kind. -/
theorem State.dropHolds_late (s : State) (k : FaultKind) (j : SheetJob) (h : HeldCompletion)
    (hj : (s.dropHolds k).shc.job = some j) (hh : h ∈ j.late) : h.hold ≠ some k := by
  unfold State.dropHolds at hj
  obtain ⟨i, _, rfl⟩ := Option.map_eq_some_iff.mp hj
  obtain ⟨g, _, rfl⟩ := List.mem_map.mp hh
  split
  · simp
  · assumption

end Sys2Proof.Machine
end

