-- ==== Sys2Proof/Laws/Steps.lean ====
section
/-! SUPPORT. What the end of a step comes to in a quiet part, what an occurrence that asks for no safe stop leaves
alone, and what the requests of a step make of Safe Stop. -/

namespace Sys2Proof.Machine

/-! ## Quiet parts -/

/-- What an idle slot is. -/
theorem Slot.idle_parts {v : Slot} (h : v.idle = true) :
    v.clip = none ∧ v.releasePending = false ∧ v.st ≠ .scanning ∧ v.waiting = none := by
  simpa [Slot.idle, and_assoc] using h

/-- What a quiet part is. -/
theorem quiet_parts {s : State} (h : quiet s = true) :
    s.slotA.idle = true ∧ s.slotB.idle = true ∧ s.stop.requests = [] ∧ s.stop.stopping = false := by
  simpa [quiet, and_assoc] using h

/-- An idle slot has nothing to send behind its command. -/
theorem Slot.idle_behind {v : Slot} (h : v.idle = true) : v.behind = none := by
  obtain ⟨h1, h2, _, _⟩ := Slot.idle_parts h
  simp [Slot.behind, h1, h2]

@[simp] theorem Slot.dropTag_idle (n : Nat) (v : Slot) : (v.dropTag n).idle = v.idle := rfl

/-- A slot put back changes nothing. -/
theorem State.setSlot_slot (s : State) (x : SlotId) : s.setSlot x (s.slot x) = s := by cases x <;> rfl

/-- An idle slot sends nothing. -/
theorem State.sendDue_idle {s : State} {x : SlotId} (h : (s.slot x).idle = true) : s.sendDue x = s := by
  obtain ⟨h1, h2, h3, h4⟩ := Slot.idle_parts h
  unfold State.sendDue
  dsimp only
  split
  · have : ({ s.slot x with waiting := (s.slot x).behind } : Slot) = s.slot x := by
      rw [Slot.idle_behind h, ← h4]
    rw [State.updSlot, this, State.setSlot_slot]
  · have h5 : (s.slot x).readDue = false := by simp [Slot.readDue, h3]
    simp [h1, h2, h5]

/-- A slot with no clip has no writer. -/
theorem State.writerStep_noClip {s : State} {x : SlotId} (h : (s.slot x).clip = none) : s.writerStep x = none := by
  simp [State.writerStep, h]

/-- With no clip no writer runs. -/
theorem State.runWriters_noClip {s : State} (ha : s.slotA.clip = none) (hb : s.slotB.clip = none) (n : Nat) :
    State.runWriters n s = s := by
  cases n with
  | zero => rfl
  | succ n =>
    simp [State.runWriters, State.writerStep_noClip (s := s) (x := .a) ha, State.writerStep_noClip (s := s) (x := .b) hb]

/-- With both slots idle only records that nothing needs are released. -/
theorem State.work_idle {s : State} (ha : s.slotA.idle = true) (hb : s.slotB.idle = true) : s.work = s.release := by
  have hw : ∀ n, State.runWriters n s = s :=
    State.runWriters_noClip (Slot.idle_parts ha).1 (Slot.idle_parts hb).1
  have h1 : (s.sendDue .a).sendDue .b = s := by
    rw [State.sendDue_idle (x := .a) ha, State.sendDue_idle (x := .b) hb]
  simp [State.work, hw, h1]

/-- The end of a step in a quiet part. -/
theorem State.settle_quiet {s : State} (h : quiet s = true) : s.settle = s.release := by
  obtain ⟨ha, hb, hr, hs⟩ := quiet_parts h
  have h1 : State.settleLoop 64 s = s.release := by
    rw [State.settleLoop]
    simp [State.takeStops_none hr, State.work_idle ha hb, State.release, hr]
  rw [State.settle, h1]
  simp [State.judgeStop, State.release, hs]

/-- After the reset of R11 there is nothing to judge: no slot is RECORDING and both outputs are AUTO and OFF. -/
@[simp] theorem State.judgeSlots_softReset (s t : State) : s.softReset.judgeSlots t = s.softReset := by
  have ha : (s.softReset.slotA.st == .recording) = false := by
    show ((Slot.reset s.slotA.detect).st == .recording) = false
    cases s.slotA.detect <;> rfl
  have hb : (s.softReset.slotB.st == .recording) = false := by
    show ((Slot.reset s.slotB.detect).st == .recording) = false
    cases s.slotB.detect <;> rfl
  have hj : s.softReset.judgeTally none = s.softReset := by
    have hx : s.softReset.autoTally = .off := by simp [State.autoTally, State.anyRecording, ha, hb]
    simp only [State.judgeTally, hx]
    rfl
  unfold State.judgeSlots
  split
  · rfl
  · exact hj

/-! ## Copies of report parts (R23) -/

/-- The copy just kept is the one offered. -/
theorem offered_keepCopy {α : Type} (need : FrameNo → Bool) (f : FrameNo) (p c : α) (l : List (Kept α)) :
    offered f c (keepCopy need f p l) = p := by
  simp [offered, keepCopy]

/-- A copy of another frame that may still be read stands. -/
theorem offered_keepCopy_ne {α : Type} {need : FrameNo → Bool} {f k : FrameNo} (p c : α) (l : List (Kept α))
    (hf : k ≠ f) (hk : need k = true) : offered k c (keepCopy need f p l) = offered k c l := by
  have hf' : (f == k) = false := by simpa using fun h : f = k => hf h.symm
  have h : (l.filter fun x => x.frame != f && need x.frame).find? (fun x => x.frame == k)
      = l.find? fun x => x.frame == k := by
    rw [List.find?_filter]
    congr 1
    funext x
    by_cases hx : x.frame = k
    · simp [hx, hf, hk]
    · simp [hx]
  simp [offered, keepCopy, hf', h]

/-- The newest entries of a list lie in its second part, when none of the first part is among them. -/
theorem newest_append {α : Type} (n : Nat) (p l : List α) (h : ∀ a ∈ p, a ∉ newest n (p ++ l)) :
    newest n (p ++ l) = newest n l := by
  unfold newest at *
  by_cases hp : p.length ≤ (p ++ l).length - n
  · have h1 : (p ++ l).length - n = p.length + (l.length - n) := by
      simp only [List.length_append] at *; omega
    rw [h1, List.drop_append, List.drop_eq_nil_of_le (Nat.le_add_right _ _), Nat.add_sub_cancel_left, List.nil_append]
  · exfalso
    have hlt : (p ++ l).length - n < p.length := by omega
    refine h (p[(p ++ l).length - n]) (List.getElem_mem _) ?_
    rw [List.mem_iff_getElem]
    refine ⟨0, ?_, ?_⟩
    · simp only [List.length_drop, List.length_append] at *; omega
    · simp only [List.getElem_drop, Nat.add_zero]
      exact List.getElem_append_left hlt

/-- Releasing twice releases no more. -/
theorem State.release_release (s : State) : s.release.release = s.release := by
  have hA : s.release.slotA = s.slotA := rfl
  have hB : s.release.slotB = s.slotB := rfl
  have hi : s.sta.index = (s.sta.index.takeWhile fun r => !s.needed r) ++ s.release.sta.index :=
    (List.takeWhile_append_dropWhile).symm
  have hr : s.release.retained = s.retained := by
    unfold State.retained
    have h1 : (s.release.sta.preOn && !s.release.clipOpen) = (s.sta.preOn && !s.clipOpen) := rfl
    rw [h1]
    split
    · rename_i hc
      show newest s.sta.preCount (s.release.sta.index.filter fun r => aboveFloor s.sta.floor r.frame) = _
      rw [hi, List.filter_append]
      refine (newest_append _ _ _ ?_).symm
      intro a ha hm
      have hn := List.mem_takeWhile_imp (List.mem_of_mem_filter ha)
      rw [← List.filter_append, ← hi] at hm
      have : s.needed a = true := by
        have hret : a ∈ s.retained := by unfold State.retained; rw [if_pos hc]; exact hm
        have : (s.retained.any fun k => k.frame == a.frame) = true := List.any_eq_true.mpr ⟨a, hret, by simp⟩
        simp [State.needed, this]
      simp [this] at hn
    · rfl
  have hn : ∀ r, s.release.needed r = s.needed r := by
    intro r; unfold State.needed; rw [hr, hA, hB]
  have hd : s.release.sta.index.dropWhile (fun r => !s.release.needed r) = s.release.sta.index := by
    simp only [hn]
    show (s.sta.index.dropWhile fun r => !s.needed r).dropWhile (fun r => !s.needed r) = _
    exact List.dropWhile_idempotent _ _
  show ({ s.release with sta := { s.release.sta with index := s.release.sta.index.dropWhile fun r => !s.release.needed r } } : State) = s.release
  rw [hd]

/-! ## Occurrences -/

/-- An entry that is replaced reads as its replacement, in a log of 26 kinds or more. -/
theorem Flt.entry_setEntry (f : Flt) (k : FaultKind) (r : FaultRec) :
    (f.setEntry k r).entry k = r ∨ (f.setEntry k r).entry k = .reset .none none ∧ f.entry k = .reset .none none := by
  unfold Flt.entry Flt.setEntry
  by_cases h : k.number - 1 < f.kinds.length
  · left; simp [List.getD_eq_getElem?_getD, h]
  · right; simp [List.getD_eq_getElem?_getD, h]

/-- A replacement with the route of the entry keeps the route. -/
theorem Flt.route_setEntry (f : Flt) (k : FaultKind) (r : FaultRec) (h : r.route = (f.entry k).route) :
    ((f.setEntry k r).entry k).route = (f.entry k).route := by
  rcases Flt.entry_setEntry f k r with h1 | h1
  · rw [h1, h]
  · rw [h1.1, h1.2]

/-- Replacing an entry leaves the others. -/
theorem Flt.entry_setEntry_ne (f : Flt) (k i : FaultKind) (r : FaultRec) (h : i ≠ k) : (f.setEntry k r).entry i = f.entry i := by
  unfold Flt.entry Flt.setEntry
  have : k.number - 1 ≠ i.number - 1 := by
    intro hh; apply h; revert hh; cases k <;> cases i <;> simp [FaultKind.number]
  simp [List.getD_eq_getElem?_getD, this]

/-- An occurrence that asks for no safe stop leaves Safe Stop. -/
theorem State.fault_stop {s : State} {k : FaultKind} (x : FaultSource) (d1 d2 : Word) (h : asksNoStop s k = true) : (s.fault k x d1 d2).stop = s.stop := by
  unfold State.fault State.occur
  dsimp only
  have hr : ((State.capture (if s.flt.enters k then ({ s with flt := s.flt.countAndPlace k } : State).noticeEntered k else { s with flt := s.flt.countAndPlace k }) (s.flt.stands k) ⟨k, x, d1, d2, none⟩).flt.entry k).route = (s.flt.entry k).route := by
    have h1 : ((if s.flt.enters k then ({ s with flt := s.flt.countAndPlace k } : State).noticeEntered k else { s with flt := s.flt.countAndPlace k }).flt) = s.flt.countAndPlace k := by
      split <;> simp
    have h2 : ((s.flt.countAndPlace k).entry k).route = (s.flt.entry k).route := by
      unfold Flt.countAndPlace; dsimp only; split
      · exact Flt.route_setEntry _ _ _ rfl
      · exact Flt.route_setEntry _ _ _ rfl
    unfold State.capture; dsimp only
    split
    · rw [h1, h2]
    · dsimp only; rw [h1]; refine Eq.trans (Flt.route_setEntry _ k _ ?_) h2; rfl
  have hs : (State.capture (if s.flt.enters k then ({ s with flt := s.flt.countAndPlace k } : State).noticeEntered k else { s with flt := s.flt.countAndPlace k }) (s.flt.stands k) ⟨k, x, d1, d2, none⟩).stop = s.stop := by
    rw [State.capture_stop]; split <;> simp
  unfold State.route
  rw [hr, hs]
  rw [if_neg]
  · exact hs
  · rintro ⟨a, b, c⟩; simp [asksNoStop, a, c] at h

/-! ## Safe Stop takes its requests (R177 to R179) -/

@[simp] theorem State.stopClose_stop (s : State) (newest : Option FrameNo) (x : SlotId) :
    (s.stopClose newest x).stop = s.stop := by
  unfold State.stopClose State.closeClip
  split
  · simp [State.setSlotState]
  · split <;> simp
  · rfl

@[simp] theorem State.endAxisTag_stop (s : State) (x : AxisId) (o : TagOutcome) (cause : Nat) :
    (s.endAxisTag x o cause).stop = s.stop := by
  simp [State.endAxisTag]

@[simp] theorem State.endSequenceTag_stop (s : State) (o : TagOutcome) (cause : Nat) :
    (s.endSequenceTag o cause).stop = s.stop := by
  simp [State.endSequenceTag]

@[simp] theorem State.rest_stop (s : State) (x : AxisId) : (s.rest x).stop = s.stop := rfl

@[simp] theorem State.restGlides_stop (s : State) : s.restGlides.stop = s.stop := by
  unfold State.restGlides
  dsimp only
  repeat' split
  all_goals rfl

/-- Cancelling a shot sequence asks Safe Stop for nothing its finish does not ask for. -/
theorem State.cancelShot_stop {s : State} {finish : State → State} (h : (finish s).stop = s.stop) :
    (s.cancelShot finish).stop = s.stop := by
  unfold State.cancelShot
  split
  · rfl
  · rfl
  · simp [h]

@[simp] theorem State.stopAxis_stop (s : State) (x : AxisId) : (s.stopAxis x).stop = s.stop := by
  unfold State.stopAxis
  split <;> simp

@[simp] theorem State.stopLens_stop (s : State) : s.stopLens.stop = s.stop := by
  simp [State.stopLens, State.cancelShot_stop]

/-- What starting a stop makes of Safe Stop: the enable clear, a new record, STOPPING (R178). -/
@[simp] theorem State.startStop_stop (s : State) (r : StopSource) :
    (s.startStop r).stop = { s.stop with
      stopping := true, enable := false
      record := some { source := r, startFrame := s.frame, endFrame := none, merged := 0 } } := by
  simp [State.startStop]

/-- A request that finds Safe Stop STOPPING is merged (R179). -/
theorem State.takeStop_merges {s : State} {r : StopSource} {k : StopRecord} (h : s.stop.stopping = true)
    (hk : s.stop.record = some k) :
    s.takeStop r = { s with stop := { s.stop with record := some { k with merged := satSucc 255 k.merged } } } := by
  simp [State.takeStop, State.mergeStop, h, hk]

/-- A request that finds Safe Stop IDLE starts a stop (R178). -/
theorem State.takeStop_starts {s : State} {r : StopSource} (h : s.stop.stopping = false) :
    s.takeStop r = s.startStop r := by
  simp [State.takeStop, h]

/-- Counting up with saturation, from a count within the limit. -/
theorem satSucc_of_le {limit m : Nat} (h : m ≤ limit) : satSucc limit m = min limit (m + 1) := by
  unfold satSucc
  split <;> omega

/-- Every request that finds Safe Stop STOPPING is merged, and nothing else changes (R177, R179). -/
theorem State.foldl_takeStop_merges (rs : List StopSource) {s : State} {k : StopRecord} (h : s.stop.stopping = true)
    (hk : s.stop.record = some k) (hm : k.merged ≤ 255) :
    rs.foldl State.takeStop s =
      { s with stop := { s.stop with record := some { k with merged := min 255 (k.merged + rs.length) } } } := by
  induction rs generalizing s k with
  | nil =>
    have : min 255 k.merged = k.merged := by omega
    simp [this, ← hk]
  | cons r rs ih =>
    rw [List.foldl_cons, State.takeStop_merges h hk, satSucc_of_le hm, ih (by exact h) rfl (Nat.min_le_left _ _)]
    have : min 255 (min 255 (k.merged + 1) + rs.length) = min 255 (k.merged + (rs.length + 1)) := by omega
    simp [this]

end Sys2Proof.Machine
end

