-- ==== Sys2Proof/Laws/Stream.lean ====
section
/-! SUPPORT. What a look at the head of the pending list comes to: it stays, it is assembled, or it is discarded and the
next record is looked at (R120). -/

namespace Sys2Proof.Machine

/-! ## What giving units back leaves of the STA (R122, R124) -/

@[simp] theorem State.emptyUnit_sta (s : State) (i : Nat) : (s.emptyUnit i).sta = s.sta :=
  State.blockWrite_sta ..

@[simp] theorem State.emptyUsed_sta (s : State) (u : Option UsedUnit) : (s.emptyUsed u).sta = s.sta := by
  cases u <;> simp [State.emptyUsed]

theorem State.emptyUnits_sta (l : List UnitEntry) (s : State) :
    (l.foldl (fun s u => s.emptyUnit u.index) s).sta = s.sta := by
  induction l generalizing s with
  | nil => rfl
  | cons u r ih => rw [List.foldl_cons, ih, State.emptyUnit_sta]

@[simp] theorem State.giveBack_sta (s : State) (f : FrameNo) : (s.giveBack f).sta = s.sta := by
  unfold State.giveBack
  split
  · exact State.busFault_sta ..
  · exact State.emptyUnits_sta ..

@[simp] theorem Sta.releaseClaim_pending (t : Sta) (f : FrameNo) : (t.releaseClaim f).pending = t.pending := by
  unfold Sta.releaseClaim
  split <;> rfl

@[simp] theorem State.discardPending_sta (s : State) (f : FrameNo) :
    (s.discardPending f).sta = s.sta.releaseClaim f := by
  simp [State.discardPending]

/-! ## The look at the head (R120) -/

/-- With a copy in flight nothing is handled. -/
theorem State.lookAtHead_copy {s : State} (h : s.sta.copy ≠ none) : s.lookAtHead = s := by
  unfold State.lookAtHead State.handleHead
  split
  · rfl
  · split
    · next hc => exact absurd hc h
    · rfl

/-- A head that waits for its audio record or is not due stays, and so do the records behind it. -/
theorem State.lookAtHead_waits {s : State}
    (h : ∀ p, s.sta.pending.head? = some p → p.audio = none ∨ s.sta.due p.frame.frame = false) :
    s.lookAtHead = s := by
  unfold State.lookAtHead
  cases hp : s.sta.pending with
  | nil => rfl
  | cons p r =>
    rcases h p (by rw [hp]; rfl) with hw | hw
    · simp [State.handleHead, hw]
    · unfold State.handleHead
      split
      · simp [hw]
      · rfl

variable {s : State} {p : PendingRec} {r : List PendingRec} {a : AudioRec}

/-- A due head is assembled while a clip is open or pre-record is on, and the records behind it wait. -/
theorem State.lookAtHead_assembles (hp : s.sta.pending = p :: r) (ha : p.audio = some a) (hc : s.sta.copy = none)
    (hd : s.sta.due p.frame.frame = true) (ho : (s.clipOpen || s.sta.preOn) = true) :
    s.lookAtHead = (s.setSta { s.sta with pending := r }).assemble p a := by
  simp only [State.lookAtHead, hp, State.handleHead, ha, hc, hd, ho, if_true]

/-- A due head is discarded with no clip open and pre-record off, and the STA looks at the record behind it. -/
theorem State.lookAtHead_discards (hp : s.sta.pending = p :: r) (ha : p.audio = some a) (hc : s.sta.copy = none)
    (hd : s.sta.due p.frame.frame = true) (ho : (s.clipOpen || s.sta.preOn) = false) :
    s.lookAtHead = ((s.setSta { s.sta with pending := r }).discardPending p.frame.frame).lookAtHead := by
  simp [State.lookAtHead, hp, State.handleHead, ha, hc, hd, ho]

end Sys2Proof.Machine
end

