-- ==== Sys2Proof/Tests/Slice0.lean ====
section
/-! SUPPORT. Small tests of the model, and for every statement of Certificates/Slice0/Obligations.lean that has
hypotheses a state and operands that meet them, clause by clause, at the ends of the ranges. -/

set_option maxRecDepth 20000

namespace Sys2Proof.Tests

open Sys2Proof.Machine

/-! ## Small states -/

/-- Nothing happens outside the part. -/
def e0 : Env := ⟨0, [], []⟩

/-- 10 µs pass. -/
def e10 : Env := ⟨10, [], []⟩

/-- The bus fails one address. -/
def bad (a : Nat) : Env := ⟨0, [], [a]⟩

/-- A part in STARTING, its control page at 0x100000. -/
def starting : State :=
  { State.reset with shc := { Shc.reset with part := .starting, run := true, partBase := 0x100000 } }

/-- A directory of the format 0x4D41 with two areas. -/
def directoryBytes (streamBase streamSize : Nat) : List Byte :=
  [0x41, 0x4D, 0, 0] ++ leBytes 4 streamBase ++ leBytes 4 streamSize ++ leBytes 4 0x2000000 ++ leBytes 4 192512

/-- A part in STARTING with a directory in its control page. -/
def checking (streamBase streamSize : Nat) : State :=
  { starting with mem := Memory.writeAll [] 0x100000 (directoryBytes streamBase streamSize) }

/-- A part in RUNNING. -/
def base : State :=
  { State.reset with
    shc := { Shc.reset with
      part := .running, run := true, partBase := 0x100000, streamBase := 0x1000000, streamSize := 4194304 },
    ftu := { Ftu.reset with flywheel := some 40000 },
    ldu := { Ldu.reset with timer := some 2000 },
    acu := { Acu.reset with stagingBase := 0x2000000, clockTimer := some 2000 } }

/-- A sheet in dispatch whose next entry is this. -/
def order (kind tag : Byte) (params : List Byte) (s : State) : State :=
  let j : SheetJob :=
    { sheet := .a, seq := 1, frame := 5, tripped := false, todo := [⟨kind, tag, 0, params⟩], results := [],
      opened := [], late := [] }
  { s with shc := { s.shc with job := some j } }

/-- The frame start that ends frame `n`. -/
def frameStart (n : Nat) (first : Bool) : FrameStart :=
  ⟨{ FrameRec.reset with frame := BitVec.ofNat 32 (n + 1) }, { FrameRec.reset with frame := BitVec.ofNat 32 n },
    first⟩

/-- Frame 7 ends, and the SHC has not taken that yet. -/
def shcDue (s : State) : State := { s with shc := { s.shc with arriving := [frameStart 7 false] } }

/-- Sheet A with a header that is POSTED and counts `n` entries. -/
def posted (n : Nat) : State :=
  shcDue { base with mem := Memory.writeAll (Memory.writeAll [] 0x100100 (leBytes 4 1)) 0x10010C (leBytes 4 n) }

/-- The link is ONLINE. -/
def online (s : State) : State := { s with ldu := { s.ldu with link := .online } }

/-- The reply of a lens at rest. -/
def restReply : LensReply := ⟨2000, 1000, 500, 0, false, false, false, true⟩

/-- Tag 3 is IN_FLIGHT. -/
def tag3 (s : State) : State := s.setTag 3 { TagRec.free with st := .inFlight, kind := 0x20 }

/-- A tripped sheet whose two entries have their results. -/
def doneJob : SheetJob :=
  { sheet := .b, seq := 1, frame := 5, tripped := true, todo := [], results := [.refusedGuard, .refusedGuard],
    opened := [], late := [] }

/-- Its results wait to be written. -/
def sDone : State := { base with shc := { base.shc with job := some doneJob } }

/-- The report of frame 7 is in writing. -/
def sRep : State := { base with shc := { base.shc with reports := [⟨7, none⟩] } }

/-- Every axis is STALLED. -/
def stalledAll : State :=
  { online base with
    ldu := { (online base).ldu with
      zoom := { Axis.reset with st := .stalled }, focus := { Axis.reset with st := .stalled },
      iris := { Axis.reset with st := .stalled } } }

/-- Focus and iris are in MANUAL, and the rocker is outside the deadband. -/
def manualAll : State :=
  { online base with
    ldu := { (online base).ldu with
      view := { zoom := 0, focus := 0, iris := 0, rocker := 9, button := false, focusManual := true, irisManual := true } } }

/-- The link is ONLINE, and a reply has arrived. -/
def hears (r : LensReply) (l : Ldu) : State :=
  { base with ldu := { l with link := .online, timer := some 2000, reply := some r } }

/-- A reply of no lens. -/
def gone : LensReply := { restReply with attached := false }

/-- A reply that shows the iris in MANUAL. -/
def byHand : LensReply := { restReply with irisManual := true }

/-- A reply with the rocker just outside the deadband. -/
def pushed : LensReply := { restReply with rocker := 9 }

/-- A reply with the rocker just inside it. -/
def released : LensReply := { restReply with rocker := 8 }

/-- The tracking is on, and the zoom moves. -/
def trackMoving : Ldu :=
  { Ldu.reset with tracking := true, missing := 4, zoom := { Axis.reset with st := .moving, move := .rate 100, tag := 3 } }

/-- The iris moves. -/
def irisMoving : Ldu :=
  { Ldu.reset with iris := { Axis.reset with st := .moving, demand := 7, move := .position 500 4, tag := 3 } }

/-- The zoom is just beyond the window for the stall time, and the focus just inside it. -/
def stalling : Ldu :=
  { Ldu.reset with
    zoom := { Axis.reset with st := .moving, move := .position 2047500 4, stallCount := 100, tag := 3, sent := 2065 },
    focus := { Axis.reset with stallCount := 100, sent := 1064 }, iris := { Axis.reset with sent := 500 } }

/-- The zoom moves by an order. -/
def zoomOrdered : Ldu :=
  { Ldu.reset with
    zoom := { Axis.reset with
      st := .moving, demand := 2047400, vel := 500, move := .rate 500, tag := 3, sent := 2064 } }

/-- The zoom moves by the grip. -/
def zoomGripped : Ldu :=
  { Ldu.reset with
    owner := .grip, releaseWait := true,
    zoom := { Axis.reset with st := .moving, vel := -40, move := .grip 500, sent := 1936 } }

/-- A scale table that rises from its least to near its greatest point. -/
def table0 : List Byte := (List.range 17).flatMap fun i => leBytes 4 (500 + 3718 * i)

/-- A scale table whose second point falls. -/
def tableDown : List Byte := leBytes 4 600 ++ leBytes 4 599

/-- A valid tracking table. -/
def tracked : State := { online base with ldu := { (online base).ldu with track := ⟨true, List.replicate 17 5⟩ } }

/-- Shots 1 and 3 stored, with the iris STALLED. -/
def shotBase : State :=
  { online base with
    ldu := { (online base).ldu with
      shots := [Shot.reset, ⟨true, 4095, 0, 1023, 600, 10⟩, Shot.reset, ⟨true, 1, 2, 3, 4, 5⟩],
      iris := { Axis.reset with st := .stalled } } }

/-- A shot sequence with the zoom in its glide. -/
def framed (st : ShotState) : Ldu :=
  { shotBase.ldu with
    shot := st, seqTag := 3, zoom := { Axis.reset with st := .moving, move := .glide 0 2047500, sent := 2000 },
    focus := { Axis.reset with sent := 1000 }, iris := { Axis.reset with sent := 500 } }

/-- A shot sequence with the axes at rest. -/
def atRest (st : ShotState) : Ldu := { framed st with zoom := { Axis.reset with sent := 2000 } }

/-- The MST in ON. -/
def mstOn : State := { base with mst := { base.mst with mode := .on, lossTimer := some 9 } }

/-- The MST in HOLD, a sample exactly 5 ms ago, `r` samples into its resumption. -/
def mstHold (r : Nat) : State :=
  { base with now := 5000, mst := { base.mst with mode := .hold, resumption := r, lastArrival := some 0 } }

/-- Slot A is RECORDING. -/
def recordingA : State := { base with slotA := { Slot.reset true with st := .recording, capacity := 1000 } }

/-- Pre-record is on. -/
def preOn : State := { base with sta := { base.sta with preOn := true, preCount := 3 } }

/-- A group in the index. -/
def ix : IndexRec := ⟨3, 0, 512, 0, 0⟩

/-- The FIFO is full. -/
def full : State :=
  { base with acu := { base.acu with fifo := List.replicate 4096 ⟨0,0,0,0⟩, lastStart := some 0 } }

/-- A channel at the greatest gain and the least threshold. -/
def loud : Channel := { Channel.reset with now := { ChannelSet.reset with gain := 84, threshold := -20 } }

/-- FLOWING with a set to spare, and frame 7 ends. -/
def flowing : State :=
  { base with
    acu := { base.acu with
      take := .flowing, fifo := [⟨1, -2, 8388607, -8388608⟩, ⟨1, 2, 3, 4⟩, ⟨5, 6, 7, 8⟩],
      arriving := [⟨{ FrameRec.reset with
        frame := 8 }, { FrameRec.reset with frame := 7, cadCount := 2 }, false⟩] } }

/-- An audio record of two samples. -/
def arec : AudioRec :=
  ⟨7, 2, true, false, false, false, false, ⟨false, false, false, false⟩, ⟨0,0,0,0⟩, ⟨24,24,24,24⟩⟩

/-- A staging write. -/
def sjob : StagingJob := ⟨0x2000000 + 24064 * 7, [1, 2, 3, 4], arec⟩

/-- A pending record without its audio. -/
def pend : PendingRec :=
  ⟨{ FrameRec.reset with frame := 7 }, ⟨0,0,0,0,0⟩, ⟨7,0,0,0,.off,.steady,.steady,false,false⟩, none⟩

/-- The staging write is in flight. -/
def staging : State := { base with acu := { base.acu with writing := some sjob } }

/-- Its frame waits in the list. -/
def stagingP : State := { staging with sta := { staging.sta with newest := 8, pending := [pend] } }

/-- The STA has a frame start to take. -/
def due (p : List PendingRec) (first : Bool) : State :=
  { base with sta := { base.sta with pending := p, arriving := [frameStart 7 first] } }

/-- The pending record with its audio. -/
def heard : PendingRec := { pend with audio := some arec }

/-- The record of the next frame, without its audio. -/
def next8 : PendingRec := { pend with frame := { pend.frame with frame := 8 } }

/-- The STA is due to look at the pending list. -/
def handled (mem : List Host.Cell) (on : Bool) : State :=
  { base with
    mem := mem,
    sta := { base.sta with
      pending := [heard, next8], newest := 10, preOn := on, claims := base.sta.claims.set 7 (some 7) } }

/-- A FILLED entry of the unit table. -/
def unitBytes (frame length : Nat) (damaged : Byte) : List Byte :=
  leBytes 4 1 ++ leBytes 4 frame ++ leBytes 4 0x900000 ++ leBytes 4 length ++ [damaged] ++ List.replicate 15 0

/-- Common memory with a unit table. -/
def table (l : List Byte) : List Host.Cell := Memory.writeAll [] 0x103400 l

/-- A late entry, the candidate of the greatest length, a second one, and one of a newer frame. -/
def goodTable : List Host.Cell :=
  table (unitBytes 6 300 0 ++ unitBytes 7 1048576 0 ++ unitBytes 7 1 0 ++ unitBytes 8 5 0)

/-- Entry 1, of frame 7. -/
def entry1 (length : Nat) : UnitEntry := ⟨1, 7, 0x900000, BitVec.ofNat 32 length, false⟩

/-- The entries of the table. -/
def goodUnits : List UnitEntry :=
  [⟨0, 6, 0x900000, 300, false⟩, entry1 1048576, ⟨2, 7, 0x900000, 1, false⟩, ⟨3, 8, 0x900000, 5, false⟩]

/-- The table has one entry, one byte too long. -/
def longTable : List Host.Cell := table (List.replicate 32 0 ++ unitBytes 7 1048577 0)

/-- A group without a picture or sound. -/
def gap : GroupCopy :=
  { source := pend, audio := { arec with staged := false }, unit := none, gapDamaged := false, audioBad := false }

/-- Its copy is in flight. -/
def copying : State :=
  { base with
    sta := { base.sta with
      copy := some gap, preOn := true, preCount := 5, claims := base.sta.claims.set 7 (some 7) } }

/-- A copy with a unit and sound. -/
def withUnit : State :=
  { copying with
    sta := { copying.sta with copy := some { gap with audio := arec, unit := some ⟨7, 0x900000, 3⟩ } } }

/-- A group with a picture of three bytes. -/
def unitCopy : GroupCopy := { gap with unit := some ⟨7, 0x900000, 3⟩ }

/-- The record of frame 8 with its audio. -/
def heard8 : PendingRec := { next8 with audio := some { arec with frame := 8 } }

/-- Two records are due and have their audio. -/
def bothDue (on : Bool) : State :=
  { handled [] on with sta := { (handled [] on).sta with pending := [heard, heard8], newest := 11 } }

/-- A due record with its audio waits behind the copy in flight. -/
def copyingAhead : State := { copying with sta := { copying.sta with pending := [heard8], newest := 12 } }

/-- A stream buffer of `n` bytes. -/
def sized (n : Nat) : State := { base with shc := { base.shc with streamSize := BitVec.ofNat 32 n } }

/-- Slot A holds this. -/
def slotIn (v : Slot) : State := { base with slotA := v }

/-- Slot A is PROBING. -/
def probing : State := slotIn { Slot.reset true with command := some .identify, timer := some 500000 }

/-- A clip with two groups recorded. -/
def clip0 : Clip :=
  { id := 9, prev := 0, continuation := false, first := 3, openFrame := 3, rate := .r25, recorded := 2,
    counts := ⟨2, 0, 0, .zero, .zero⟩, extents := [⟨⟨0, 500, false⟩, 0, 4⟩], relayContinued := false,
    safeStopped := false, nextId := 0, next := 5, endPoint := none, items := [], placed := 2048, sent := 2048,
    acked := 512, begun := some 3, openPlaced := true, openLength := 512, openSector := 0, openDone := true,
    closePlaced := false, flushSent := false, paused := false, retry := false, fullAfter := false }

/-- A slot that records it. -/
def recSlot : Slot :=
  { Slot.reset true with
    st := .recording, capacity := 1000, clip := some clip0, current := some ⟨⟨0, 500, false⟩, 4⟩,
    command := some (.write 1 3 []), timer := some 500000 }

/-- The clip is at the group in copy. -/
def reads7 : Clip := { clip0 with next := 7 }

/-- Its slot records while the copy is in flight. -/
def openCopy : State := { copying with slotA := { recSlot with clip := some reads7 } }

/-- Slot A records, with the tag of its CLIP_OPEN in flight, and SAFE_STOP is not enabled. -/
def opening : State :=
  { tag3 (slotIn { recSlot with openTag := 3 }) with stop := { base.stop with enable := false } }

/-- Slot A closes, with the tag of its CLIP_CLOSE in flight. -/
def closingTag : State := tag3 (slotIn { recSlot with st := .closing, closeTag := 3 })

/-- Slot A has read the extent it scans. -/
def scanned : State :=
  tag3 (slotIn { Slot.reset true with
    st := .scanning, scanTag := 3, scan := { Scan.reset with count := 64, sectorsRead := 64 } })

/-- Slot A scans, a READ in flight, and SAFE_STOP is not enabled. -/
def reading : State :=
  { tag3 (slotIn { Slot.reset true with
      st := .scanning, command := some (.read 7 64), timer := some 500000, scanTag := 3 }) with
    stop := { base.stop with enable := false } }

/-- Slot A is READY with a FLUSH in flight, and SAFE_STOP is not enabled. -/
def flushing : State :=
  { slotIn { Slot.reset true with
      st := .ready, capacity := 1000, command := some .flush, timer := some 500000, releasePending := false } with
    stop := { base.stop with enable := false } }

/-- The clip with its CLOSE block placed. -/
def closing : Clip := { clip0 with closePlaced := true, endPoint := some 4 }

/-- Slot A is CLOSING, with a command in flight. -/
def closeState (k : Clip) (c : CardCommand) : State :=
  slotIn { recSlot with st := .closing, clip := some k, command := some c }

/-- A slot scanning `n` sectors. -/
def scanSlot (n : Nat) : Slot :=
  { Slot.reset true with
    st := .scanning, capacity := 1000, command := some (.read 0 1), timer := some 5, scanTag := 3,
    scan := { Scan.reset with count := n } }

/-- A READY slot of 1,000 sectors. -/
def rdy : Slot := { Slot.reset true with st := .ready, capacity := 1000 }

/-- The parameters of GRANT_EXTENT. -/
def g1 (slot final : Byte) (a n : Word) : List Byte := p1 slot ++ p4 a ++ p4 n ++ p1 final

/-- CLIP_OPEN is the next entry, and the guard is ARMED. -/
def openState (id : Nat) (v : Slot) : State :=
  order 0x62 3 (p4 (BitVec.ofNat 32 id) ++ p4 0) { base with slotA := v, cgd := { base.cgd with st := .armed } }

/-- A group in the index. -/
def ix4 : IndexRec := ⟨4, 0, 512, 0, 0⟩

/-- CLIP_CLOSE is the next entry, and slot A records. -/
def closingA : State := order 0x63 3 [] { base with slotA := recSlot, sta := { base.sta with index := [ix4] } }

/-- The guard in a state. -/
def guarded (st : GuardState) (count : Nat) (starved : Bool) : State :=
  { base with cgd := { base.cgd with st := st, count := count, starved := starved } }

/-- The viewfinder link is up with nine misses, and a frame start waits. -/
def vDue : State := { base with vfl := { base.vfl with up := true, misses := 9, arriving := [frameStart 7 false] } }

/-- VF_ITEM is the next entry. -/
def it (l : List Byte) : State := order 0x78 0 l base

/-- VF_WARNING is the next entry, with these warnings listed. -/
def wn (l : List Warning) (p : List Byte) : State :=
  order 0x7A 0 p { base with vfl := { base.vfl with warnings := l } }

/-- A warning of priority 3. -/
def w3 : Warning := ⟨40, 3, 1, true, 7⟩

/-- An unused place. -/
def z : ClearPlace := ⟨0, 0, 0⟩

/-- CLIP_LIMIT stands in both sets. -/
def standing : State :=
  { base with
    flt := { (base.flt) with
      first := some .clipLimit, kinds := base.flt.kinds.set 25 ⟨true, 3, ⟨5, .slotA, 1, 2, 0⟩, .attention, none⟩ } }

/-- CLEAR_FAULTS of one place is the next entry. -/
def clear (p : ClearPlace) (s : State) : State := order 0x7C 0 (p3 p ++ p3 z ++ p3 z ++ p3 z ++ p3 z ++ p3 z) s

/-- A sheet in dispatch whose results wait, a frame start to take, and perhaps one held. -/
def behind (h : Option FrameStart) (arriving : List FrameStart) : State :=
  { sDone with shc := { sDone.shc with heldStart := h, arriving := arriving } }

/-- A completion that waits for the results of the sheet in dispatch. -/
def lateEnd : HeldCompletion := ⟨none, ⟨3, .complete, 1, 2, 3⟩⟩

/-- A sheet of no entries whose keep word tripped the guard, and that completion. -/
def lateJob : SheetJob := { doneJob with results := [], late := [lateEnd] }

/-- Its results wait to be written, tag 3 in flight. -/
def lateDone : State := tag3 { base with shc := { base.shc with job := some lateJob } }

/-- A soft reset request waits behind the sheet, and a frame start is held. -/
def resetDone : State :=
  { sDone with shc := { sDone.shc with resetWaiting := true, heldStart := some (frameStart 7 false) } }

/-- A frame start is held behind the sheet, and sheet A is POSTED. -/
def heldPosted : State :=
  { behind (some (frameStart 7 false)) [] with mem := Memory.writeAll [] 0x100100 (leBytes 4 1) }

/-- The frame start of two samples that ends frame `n`. -/
def soundStart (n : Nat) : FrameStart :=
  ⟨{ FrameRec.reset with frame := BitVec.ofNat 32 (n + 1) },
    { FrameRec.reset with frame := BitVec.ofNat 32 n, cadCount := 2 }, false⟩

/-- A write in flight while the take is FLOWING, and perhaps a frame start held. -/
def writingWith (h : Option FrameStart) (arriving : List FrameStart) : State :=
  { flowing with acu := { flowing.acu with writing := some sjob, heldStart := h, arriving := arriving } }

/-- The clip at the group in copy, its extent used up. -/
def starvedClip : Clip := { reads7 with extents := [⟨⟨0, 4, false⟩, 0, 4⟩] }

/-- Its slot records while the copy is in flight. -/
def starvedCopy : State := { copying with slotA := { recSlot with clip := some starvedClip } }

/-- Slots A and B hold one tag of a clip that both record. -/
def sharedTag : State :=
  { opening with slotB := { recSlot with openTag := 3 } }

/-- A block of the stream, with no payload. -/
def blockOf (kind : Byte) : List Byte := streamBlock kind 7 [] 0

/-- The same with a payload of two bytes. -/
def block2 : List Byte := streamBlock 1 7 [5, 0xA7] 0

/-- A payload check that does not match. -/
def wrongCheck : List Byte := leBytes 2 (payloadCheck [5, 0xA7] + 1).toNat

/-- That block with the wrong check. -/
def badBlock : List Byte :=
  0xA7 :: 1 :: stuff ((headerBytes 1 7 2 0 ++ [headerCheck (headerBytes 1 7 2 0)]).drop 1 ++ [5, 0xA7] ++ wrongCheck)

/-- That block cut off after a byte of its payload. -/
def cutBlock : List Byte :=
  0xA7 :: 1 :: stuff ((headerBytes 1 7 2 0 ++ [headerCheck (headerBytes 1 7 2 0)]).drop 1 ++ [5])

/-- The recogniser in a mode, over these bytes. -/
def scanIn (m : RecogMode) (l : List Byte) : Scan := { Scan.reset with count := 4, sectorsRead := 4, mode := m, bytes := l }

/-- CLIP_OPEN is the next entry in SIMUL, and each slot holds one extent. -/
def openSimul : State :=
  order 0x62 3 (p4 9 ++ p4 0) { base with
    slotA := { rdy with queue := [⟨100, 64, false⟩] }, slotB := { rdy with queue := [⟨200, 64, true⟩] }
    cgd := { base.cgd with st := .armed }, deck := { base.deck with mode := .simul } }

/-- A clip at group 5 with this extent list, used up. -/
def clipIn (l : List ClipExtent) : Clip := { clip0 with extents := l, placed := (l.map ClipExtent.room).sum }

/-- Slot A records it at a group of 512 bytes, and slot B is READY with this queue. -/
def fullUp (l : List ClipExtent) (mode : RecordMode) (qa qb : List Extent) : State :=
  tag3 { base with
    slotA := { recSlot with clip := some (clipIn l), queue := qa, openTag := 3 }
    slotB := { rdy with queue := qb }, deck := { base.deck with mode := mode, relayId := 12 }
    sta := { base.sta with index := [⟨5, 0, 512, 0, 0⟩] } }

/-- A clip whose OPEN block is not placed. -/
def unopened : Clip := { clipIn [⟨⟨0, 4, false⟩, 0, 4⟩] with openPlaced := false }

/-- Slot A records it. -/
def waitsToOpen : State := slotIn { recSlot with clip := some unopened, queue := [] }

/-- An extent list that ends with the final extent. -/
def lastGrant : List ClipExtent := [⟨⟨0, 4, true⟩, 0, 4⟩]

/-- An extent list of 64 entries. -/
def limitReached : List ClipExtent := ⟨⟨0, 4, false⟩, 0, 4⟩ :: List.replicate 63 ⟨⟨9, 1, false⟩, 9, 1⟩

/-- An extent list of one entry. -/
def oneGrant : List ClipExtent := [⟨⟨0, 4, false⟩, 0, 4⟩]

/-- CLIP_LIMIT is mapped to a warning of priority 3, with this warning list. -/
def warned (l : List Warning) : State :=
  { base with
    vfl := { base.vfl with warnings := l }
    flt := { base.flt with kinds := base.flt.kinds.set 25 { base.flt.entry .clipLimit with mapping := some ⟨3, 5⟩ } } }

/-- Sixteen warnings of one priority. -/
def sixteen (priority : Nat) : List Warning := (List.range 16).map fun i => ⟨100 + i, priority, 1, true, 7⟩

/-- The link is LOST with tracking on, the iris STALLED and the zoom one update short of the stall time. -/
def lostWith (r : Option LensReply) : State :=
  { tracked with
    ldu := { tracked.ldu with
      link := .lost, missing := 10, tracking := true, focusBased := true, reply := r,
      zoom := { Axis.reset with stallCount := 99 }, iris := { Axis.reset with st := .stalled } } }

/-- Frame 7 ends for the ACU in this take, with these sets in its FIFO. -/
def takes (m : TakeMode) (sets : List AudioSet) : State :=
  { flowing with acu := { flowing.acu with take := m, fifo := sets, padded := true } }

/-- The sheet is POSTED, the part RESETTING and the guard WATCHING. -/
def resetting : State :=
  { posted 1 with shc := { (posted 1).shc with part := .resetting }, cgd := { base.cgd with st := .watching } }

/-- The clip with its OPEN block sent and not yet answered. -/
def opened : Clip := { clip0 with openDone := false }

/-- The CLIP_OPEN of tag 3, which waits for slot A, and for slot B if so told. -/
def opens (b : Bool) : OpenOrder := ⟨3, 9, 3, true, b, true, 0, 0⟩

/-- The CLIP_CLOSE of tag 4, which waits for slot A, and for slot B if so told. -/
def closes (b : Bool) : CloseOrder := ⟨4, true, b, 0, 0, 4⟩

/-- Slot A holds these tags, and both orders wait. -/
def ordered (b : Bool) (v : Slot) : State :=
  { (tag3 (slotIn { v with openTag := 3, closeTag := 4 })).setTag 4 { TagRec.free with st := .inFlight, kind := 0x63 } with
    deck := { base.deck with openOrder := some (opens b), closeOrder := some (closes b) } }

/-- The last WRITE of the clip is in flight, with its OPEN block. -/
def writingOpen : State := ordered false { recSlot with clip := some opened }

/-- The FLUSH of the clip is in flight. -/
def flushed : Clip := { closing with openDone := false, flushSent := true, acked := 2048 }

/-- Both its tags end with it. -/
def flushingBoth : State := ordered false { recSlot with st := .closing, clip := some flushed, command := some .flush }

/-! ## Terms of the statements, named -/

/-- The directory in the control page. -/
def directoryAt (s : State) (e : Env) : Directory :=
  directoryOf (Memory.readAll (s.arrive e).mem s.shc.partBase.toNat 256)

/-- The samples of a resumption, with the one that arrives. -/
def resumed (s : State) (e : Env) : Nat :=
  match s.mst.lastArrival with
  | none => 1
  | some t => if s.now + e.elapsed - t ≤ 5000 then s.mst.resumption + 1 else 1

/-- A word of the lens table at `a`. -/
def pointAt (s : State) (e : Env) (a : Word) (i : Nat) : Nat :=
  ofLe (((Memory.readAll (s.arrive e).mem a.toNat 68).drop (4 * i)).take 4)

/-- The points of a tracking table at `a`. -/
def signedPoints (s : State) (e : Env) (a : Word) : List Int :=
  (List.range 17).map fun i =>
    if pointAt s e a i < 2147483648 then (pointAt s e a i : Int) else (pointAt s e a i : Int) - 4294967296

/-- The kind of an item by the parameters of VF_ITEM. -/
def formOf (kind k1 k2 : Byte) : Option ItemKind :=
  if kind = 0 then some (.text (min k1.toNat 63))
  else if kind = 1 ∧ k1.toNat ≤ 14 ∧ k2.toNat ≤ 2 then some (.value k1.toNat k2.toNat)
  else if kind = 2 ∧ 1 ≤ k1.toNat ∧ k1.toNat ≤ 4 then some (.meter k1.toNat (clampNat 1 40 k2.toNat))
  else if kind = 3 then some .warning
  else none

/-- The LDU with what a reply shows. -/
def seenBy (s : State) (r : LensReply) : Ldu := { s.ldu with view := viewOf r }

/-- What holds of each axis holds of all. -/
theorem forall_axis {P : AxisId → Prop} (z : P .zoom) (f : P .focus) (i : P .iris) : ∀ x, P x := by
  intro x; cases x <;> assumption

/-! ## Ill-formed commands -/

theorem test_wf_outside_write : (Instr.framePulse ⟨0, [(4294967296, 1)], []⟩).wf = false := by decide
theorem test_wf_outside_write_on_bus : (Instr.framePulse ⟨0, [(4294967295, 1)], []⟩).wf = true := by decide
theorem test_wf_bus_error : (Instr.framePulse ⟨0, [], [4294967296]⟩).wf = false := by decide
theorem test_wf_run_set : (Instr.runSet e0 0x70).wf = false ∧ (Instr.runSet e0 0x71).wf = true := by decide
theorem test_wf_run_clear : (Instr.runClear e0 1).wf = false ∧ (Instr.runClear e0 0).wf = true := by decide
theorem test_wf_soft_reset : (Instr.softReset e0 1).wf = false ∧ (Instr.softReset e0 2).wf = true := by decide
theorem test_wf_report_clear : (Instr.reportClear e0 4).wf = false ∧ (Instr.reportClear e0 1).wf = true := by decide
theorem test_wf_safe_clear : (Instr.safeClear e0 1).wf = false ∧ (Instr.safeClear e0 4).wf = true := by decide
theorem test_wf_ignored_write :
    (Instr.ignoredRegisterWrite e0 .partBase 0).wf = false ∧
    (Instr.ignoredRegisterWrite e0 .partControl 0x10).wf = false ∧
    (Instr.ignoredRegisterWrite e0 .attention 4).wf = false ∧
    (Instr.ignoredRegisterWrite e0 .partControl 0x0C).wf = true ∧
    (Instr.ignoredRegisterWrite e0 .partStatus 0xFFFFFFFF).wf = true ∧
    (Instr.ignoredRegisterWrite e0 .attention 2).wf = true := by decide
theorem test_wf_read_reply :
    (Instr.readReply e0 .a (.ok [])).wf = false ∧ (Instr.readReply e0 .a (.ok [1])).wf = false ∧
    (Instr.readReply e0 .a (.error 0)).wf = true := by decide
theorem test_wf_read_reply_sector : (Instr.readReply e0 .a (.ok (List.replicate 512 0))).wf = true := by decide

/-! ## The queue -/

theorem test_no_word_spells_a_command : decodeTableWord 8 0x20 = none := by decide
theorem test_idle_step : step State.reset = .next State.reset := rfl
theorem test_front_first :
    step { State.reset with pending := [.partBaseWrite e0 0x4000, .partBaseWrite e0 0x8000] } =
      .next { State.reset with shc := { Shc.reset with partBase := 0x4000 }, pending := [.partBaseWrite e0 0x8000] } :=
  rfl

/-! ## Values the manual writes out -/

theorem test_crop_message_bytes :
    CropMsg.bytes ⟨0xFFFE, 0x0102, 0x01020304⟩ = [0xFE, 0xFF, 0x02, 0x01, 0x04, 0x03, 0x02, 0x01] := by decide
theorem test_drop_frame_minute : (Timecode.mk 0 0 59 29).advance ⟨.r29, true⟩ = ⟨0, 1, 0, 2⟩ := by decide
theorem test_drop_frame_tenth_minute : (Timecode.mk 0 9 59 29).advance ⟨.r29, true⟩ = ⟨0, 10, 0, 0⟩ := by decide
theorem test_drop_frame_sixty : (Timecode.mk 0 0 59 59).advance ⟨.r59, true⟩ = ⟨0, 1, 0, 4⟩ := by decide
theorem test_cadence_five_frames : ((List.range 5).map Rate.r29.cadence).sum = 8008 := by decide
theorem test_period : Rate.r25.period = 40000 ∧ Rate.r50.period = 20000 := by decide
theorem test_payload_check : payloadCheck [0x31, 0x32, 0x33, 0x34, 0x35, 0x36, 0x37, 0x38, 0x39] = 0x29B1#16 := by
  decide
theorem test_bytes_least_first : leBytes 4 0x12345678 = [0x78, 0x56, 0x34, 0x12] := by decide
theorem test_signed_field : leSigned 2 (-1) = [0xFF, 0xFF] ∧ signedOf 2 0x8000 = -32768 := by decide

/-! ## Memory -/

theorem test_unlisted_byte : Memory.read [] 5 = 0 := by decide
theorem test_zero_leaves_no_entry : Memory.writeAll [(4, 7)] 4 [0, 9] = [(5, 9)] := by decide

/-! ## Commands -/

/-- One word at PART_CONTROL carries RUN and the enables. -/
theorem test_enable_write_carries_run :
    (match execAttentionEnableWrite e0 0x21 { State.reset with shc := { Shc.reset with partBase := 4 } } with
     | .next t => decide (t.shc.part = .starting ∧ t.shc.run = true ∧ t.readPartControl = 0x21#32)
     | _ => false) = true := by decide

theorem test_run_set_starts : exec (.runSet e0 0x11) State.reset =
    .next { State.reset with shc := { Shc.reset with run := true, part := .starting, reportEn := true } } := rfl
theorem test_pulse_in_free : exec (.framePulse e10) base =
    .next { base with now := 10, ftu := { base.ftu with lastPulse := 10, good := 1, lock := .locking } } := rfl
theorem test_loss_timer_stops_the_stabiliser :
    (match exec (.lossTimerExpiry e0) { base with mst := { base.mst with mode := .on, lossTimer := some 9 } } with
     | .next t => t.mst.mode == .hold && (t.flt.entry .gyroLost).count == 1
     | _ => false) = true := by decide
theorem test_unknown_tag_is_refused :
    (match exec (.clipClose e0 33) (order 0x63 33 [] base) with
     | .next t => t.shc.job.map (fun j => j.results) == some [.refusedParam]
     | _ => false) = true := by decide
theorem test_zoom_rate_is_clamped :
    (match exec (.zoomRate e0 3 4001) (order 0x20 3 (p2 4001) (online base)) with
     | .next t => t.ldu.zoom.move == .rate 4000 && (t.tagRec 3).st == .inFlight &&
         t.shc.job.map (fun j => j.results) == some [.clamped]
     | _ => false) = true := by decide
theorem test_card_inserted_is_probed :
    (match exec (.cardInserted e0 .b) base with
     | .next t => t.slotB.st == .probing && t.slotB.command == some .identify && t.slotB.timer == some 500000
     | _ => false) = true := by decide
theorem test_guard_arms_with_the_first_keep_word :
    (match exec (.guardArm e0 0 1) (order 0x70 0 [1] base) with
     | .next t => t.cgd.st == .armed && t.cgd.expected == 0x6E19 && t.cgd.limit == 2
     | _ => false) = true := by decide

/-! ## Clauses within a conclusion -/

/-- A waiting completion of a tag in flight (R20, log 42). -/
theorem test_late_completion : lateJob.late = [lateEnd] ∧ lateDone.inFlight lateEnd.completion.tag = true := by decide

/-- The held room of the clips of the writer's clauses: open, final, and of 64 entries with an extent held beyond them. -/
theorem test_held_room :
    (fullUp oneGrant .single [] []).slotA.heldRoom (clipIn oneGrant) = ⟨0, none, 0⟩ ∧
    (fullUp lastGrant .relay [] []).slotA.heldRoom (clipIn lastGrant) = ⟨0, some .final, 0⟩ ∧
    (fullUp limitReached .single [⟨500, 64, false⟩] []).slotA.heldRoom (clipIn limitReached) =
      ⟨0, some .limit, 32768⟩ := by decide

/-- The relay goes on in slot B, and the open tag stays in flight (R156). -/
theorem test_relay_goes_on :
    (match (fullUp lastGrant .relay [] [⟨100, 64, false⟩]).writerStep .a with
     | some t => t.slotA.st == .closing && t.slotB.st == .recording && t.slotB.clip.map (fun d => (d.id, d.prev)) ==
         some (12, 9) && t.deck.relayId == 13 && t.inFlight 3
     | none => false) = true := by decide

/-- A tag that both slots hold ends once, and neither slot holds it then (R141). -/
theorem test_shared_tag_ends_once :
    let t := sharedTag.slotFault .a .cardPulled 1 0 false
    (t.slotA.openTag, t.slotB.openTag, (t.tagRec 3).st) = (0, 0, .held) := by decide

/-- A completion that waits to be held by LENS_STALL loses its hold as the kind is cleared, and another of the kind that
comes after it is held in its place (R203, log 42). -/
theorem test_hold_of_a_cleared_kind :
    let job : SheetJob := { doneJob with opened := [3, 4], late := [⟨some .lensStall, ⟨3, .stalled, 1, 2, 7⟩⟩] }
    let s := (tag3 ({ base with shc := { base.shc with job := some job } }.fault .lensStall .zoom 1 2)).setTag 4
      { TagRec.free with st := .inFlight, kind := 0x21 }
    let t := (s.leaveSets ⟨.lensStall, 1, true, true⟩).occur ⟨.lensStall, .zoom, 1, 2, some ⟨4, .stalled, 5, 6, 7⟩⟩
    let u := t.takeLate ((t.shc.job.map fun j => j.late).getD [])
    ((u.tagRec 3).st, (u.tagRec 4).st, (u.flt.entry .lensStall).capture.tag) = (.done, .held, 4) := by decide

/-- The open and the close tag of a clip end with its FLUSH (R154, R157, R161). -/
theorem test_both_tags_end_with_the_flush :
    flushingBoth.inFlight 3 = true ∧ flushingBoth.inFlight 4 = true ∧
    (match exec (.flushReply e0 .a .ok) flushingBoth with
     | .next t => decide (((t.tagRec 3).word1, (t.tagRec 3).word2, (t.tagRec 4).word1, (t.tagRec 4).word3) =
         (9, 3, 2, 4) ∧ (t.tagRec 3).outcome = .complete ∧ (t.tagRec 4).outcome = .complete)
     | _ => false) = true := by decide

/-- Two routes that both read the enable make one stop, the second merged into the first (R177). -/
theorem test_two_requests_make_one_stop :
    let t := ((base.fault .streamFull .none 1 2).fault .cardWrite .slotA 3 4).settle
    (t.stop, t.shc.attSafe) = ({
      stopping := false, enable := false, requests := [], kept := []
      record := some ⟨.fault .streamFull, base.frame, some base.frame, 1⟩ }, true) := by decide

/-- A route acted on after the first request was taken finds the enable clear and sends none (R177). -/
theorem test_route_after_the_stop_sends_none :
    let t := ((base.fault .streamFull .none 1 2).settle.fault .cardWrite .slotA 3 4).settle
    t.stop.record = some ⟨.fault .streamFull, base.frame, some base.frame, 0⟩ := by decide

/-- A discard goes on to the next record at once (R120). -/
theorem test_discard_goes_on :
    let t := (bothDue false).lookAtHead
    (t.sta.pending, t.sta.claims.getD 7 none) = ([], none) := by decide

/-- After a frame is dropped for want of space the next record waits for the next look (R120, R125). -/
theorem test_drop_leaves_the_next_record :
    let s := { bothDue true with shc := { base.shc with streamSize := 64 } }
    let t := s.lookAtHead
    (t.sta.pending, t.sta.dropped, t.sta.copy, t.lookAtHead.sta.pending) = ([heard8], 1, none, []) := by decide

/-- A write error ends the copy and leaves the due record behind it where it is (R120, R127). -/
theorem test_write_error_gives_no_look :
    copyingAhead.sta.due 8 = true ∧
    (match exec (.groupCopyBusError e0 .stream 0x1000000) copyingAhead with
     | .next t => t.sta.pending == [heard8] && t.sta.copy == none && t.sta.dropped == 1
     | _ => false) = true := by decide

/-! ## What the statements assume can be met -/

/-- A step that writes to a memory with one listed byte. -/
theorem witness_MemoryStaysCanonical :
    ∃ s t : State, Memory.wf s.mem = true ∧ s.mem ≠ [] ∧ step s = .next t :=
  ⟨{ base with mem := [(5, 1)], pending := [.framePulse ⟨10, [(4294967295, 1)], []⟩] }, _, by decide, by decide, rfl⟩

/-- A step that would set the route of GUARD_TRIP. -/
theorem witness_GuardTripRouteStaysFixed :
    ∃ s t : State, (s.flt.entry .guardTrip).route = .safeStop ∧ (s.flt.entry .guardTrip).mapping = some ⟨7, 63⟩ ∧
      step s = .next t :=
  ⟨{ order 0x7D 0 [7, 0, 0, 0, 0] base with pending := [.setFaultRoute e0 0 7 0 0 0 0] }, _, by decide, by decide, rfl⟩

/-- LENS_STALL stands, and its capture names tag 3. -/
def captured : State :=
  let s := (tag3 base).setTag 3 { TagRec.free with st := .held, kind := 0x20 }
  { s with flt := { s.flt with
      first := some .lensStall, kinds := s.flt.kinds.set 8 ⟨false, 1, ⟨5, .zoom, 1, 2, 3⟩, .attention, none⟩ } }

/-- A step that releases a captured tag, and one that keeps a copy of the tag table. -/
theorem witness_CapturedTagsStayHeld :
    (∃ s t : State, capturesHeld s ∧ (s.flt.entry .lensStall).capture.tag = 3 ∧ step s = .next t) ∧
    ∃ s t : State, tagTableWhole s ∧ s.shc.kept ≠ [] ∧ step s = .next t :=
  ⟨⟨{ order 0x01 0 [3] captured with pending := [.releaseTag e0 0 3] }, _,
    fun k => by cases k <;> decide, by decide, rfl⟩,
   ⟨{ shcDue base with
      shc := { (shcDue base).shc with kept := [⟨6, base.shc.ownPart⟩] }, pending := [.shcFrameStart e0] }, _,
    by decide, by decide, rfl⟩⟩

/-- A step that loads a scale table. -/
theorem witness_scale_in_range : ∃ s t : State, scaleInRange s ∧ step s = .next t :=
  ⟨{ order 0x27 0 (p1 0 ++ p4 0x5000) (online base) with pending := [.loadLensTable e0 0 0 0x5000] }, _, by decide, rfl⟩

/-- A step that sends a request. -/
theorem witness_SafeStopRequestsTakenInTheirStep :
    ∃ s t : State, s.stop.requests = [] ∧ step s = .next t :=
  ⟨{ order 0x74 0 [] base with pending := [.safeStop e0 0] }, _, by decide, rfl⟩

theorem witness_StepRunsFrontCommand :
  ∃ (s : State),
    s.pending = [] :=
  ⟨State.reset, by decide⟩

theorem witness_PartBaseWrittenWhileHalted :
  (∃ (s : State),
    s.shc.part = .halted) ∧
  (∃ (s : State),
    s.shc.part ≠ .halted) :=
  ⟨⟨State.reset, by decide⟩,
   ⟨base, by decide⟩⟩

theorem witness_PartControlWrites :
  (∃ (v : Word) (s : State),
    v.getLsbD 1 = false ∧
    (v.getLsbD 0 = true ∧ s.shc.part ≠ .halted ∨ v.getLsbD 0 = false ∧ s.shc.part = .halted)) ∧
  (∃ (v : Word) (s : State),
    v.getLsbD 1 = false ∧
    (v.getLsbD 0 = true ∧ s.shc.part ≠ .halted ∨ v.getLsbD 0 = false ∧ s.shc.part = .halted)) ∧
  (∃ (v : Word) (s : State),
    v.getLsbD 0 = true ∧ v.getLsbD 1 = false ∧ s.shc.part = .halted) ∧
  (∃ (v : Word) (s : State),
    v.getLsbD 0 = true ∧ v.getLsbD 1 = false ∧ s.shc.part ≠ .halted) ∧
  (∃ (v : Word),
    v.getLsbD 0 = false ∧ v.getLsbD 1 = false) ∧
  (∃ (v : Word),
    v.getLsbD 1 = true) ∧
  (∃ (v : Word),
    v.getLsbD 0 = true ∧ v.getLsbD 1 = true) ∧
  (∃ (v : Word),
    v.getLsbD 0 = false ∧ v.getLsbD 1 = true) :=
  ⟨⟨0x71, base, by decide⟩,
   ⟨0x70, State.reset, by decide⟩,
   ⟨0x11, State.reset, by decide⟩,
   ⟨0x11, base, by decide⟩,
   ⟨0x10, by decide⟩,
   ⟨0x2, by decide⟩,
   ⟨0x3, by decide⟩,
   ⟨0x2, by decide⟩⟩

theorem witness_SoftResetRequestWaitsOrIsServed :
  (∃ (s : State),
    s.shc.part = .running ∧ (s.shc.job ≠ none ∨ s.shc.reports ≠ [])) ∧
  (∃ (s : State),
    s.shc.part = .running ∧ s.shc.job = none ∧ s.shc.reports = [] ∧ s.clipOpen = false) ∧
  (∃ (s : State),
    s.shc.part = .running ∧ s.shc.job = none ∧ s.shc.reports = [] ∧ s.clipOpen = true) :=
  ⟨⟨order 1 0 [3] base, by decide⟩,
   ⟨base, by decide⟩,
   ⟨{ base with slotA := { Slot.reset true with st := .recording } }, by decide⟩⟩

theorem witness_AttentionAndIgnoredWrites :
  (∃ (v : Word),
    v.getLsbD 0 = true) ∧
  (∃ (v : Word),
    v.getLsbD 2 = true) ∧
  (∃ (v : Word),
    v.getLsbD 0 = false ∧ v.getLsbD 2 = false) ∧
  (∃ (v : Word),
    v &&& 115#32 = 0#32) ∧
  (∃ (s : State),
    s.shc.reason < 8) :=
  ⟨⟨1, by decide⟩,
   ⟨4, by decide⟩,
   ⟨2, by decide⟩,
   ⟨0x80, by decide⟩,
   ⟨base, by decide⟩⟩

theorem witness_BadDirectoryStopsTheStart :
  (∃ (s : State),
    s.shc.part = .starting ∧ s.stop.requests = [] ∧ s.shc.partBase.toNat % 16384 ≠ 0) ∧
  (∃ (e : Env) (s : State) (bad : Nat),
    s.shc.part = .starting ∧ s.stop.requests = [] ∧ s.shc.partBase.toNat % 16384 = 0 ∧
    (s.arrive e).busError s.shc.partBase.toNat 256 = some bad ∧ asksNoStop s .commonBus = true) ∧
  (∃ (e : Env) (s : State),
    s.shc.part = .starting ∧ s.stop.requests = [] ∧ s.shc.partBase.toNat % 16384 = 0 ∧
    (s.arrive e).busError s.shc.partBase.toNat 256 = none ∧ (directoryAt s e).format ≠ 19777) ∧
  (∃ (e : Env) (s : State),
    s.shc.part = .starting ∧ s.stop.requests = [] ∧ s.shc.partBase.toNat % 16384 = 0 ∧
    (s.arrive e).busError s.shc.partBase.toNat 256 = none ∧ (directoryAt s e).format = 19777 ∧
    ¬((directoryAt s e).streamSize.toNat % 65536 = 0 ∧ 4194304 ≤ (directoryAt s e).streamSize.toNat ∧
      (directoryAt s e).streamSize.toNat ≤ 268435456 ∧ (directoryAt s e).stagingSize.toNat = 192512)) ∧
  (∃ (e : Env) (s : State),
    s.shc.part = .starting ∧ s.stop.requests = [] ∧ s.shc.partBase.toNat % 16384 = 0 ∧
    (s.arrive e).busError s.shc.partBase.toNat 256 = none ∧ (directoryAt s e).format = 19777 ∧
    (directoryAt s e).sizesGood = true ∧ (directoryAt s e).areasGood s.shc.partBase.toNat = false) :=
  ⟨⟨{ starting with shc := { starting.shc with partBase := 1 } }, by decide⟩,
   ⟨bad 0x1000FF, starting, 0x1000FF, by decide⟩,
   ⟨e0, starting, by decide⟩,
   ⟨e0, checking 0x1000000 65536, by decide⟩,
   ⟨e0, checking 0x100000 4194304, by decide⟩⟩

theorem witness_GoodDirectoryPutsThePartInRunning :
  ∃ (e : Env) (s : State) (d : Directory),
    s.shc.part = .starting ∧ s.stop.requests = [] ∧ (s.arrive e).checkDirectory = CheckResult.good d :=
  ⟨e0, checking 0x1000000 4194304, ⟨0x4D41, 0x1000000, 4194304, 0x2000000, 192512⟩, by decide⟩

theorem witness_FlywheelMakesFrameStarts :
  (∃ (s : State) (due : Nat),
    (s.ftu.lock = .free ∨ s.ftu.lock = .locking) ∧ s.ftu.flywheel = some due ∧ s.stop.requests = []) ∧
  (∃ (s : State) (due : Nat),
    (s.ftu.lock = .free ∨ s.ftu.lock = .locking) ∧ s.ftu.flywheel = some due ∧ s.stop.requests = []) ∧
  (∃ (s : State) (due : Nat),
    (s.ftu.lock = .free ∨ s.ftu.lock = .locking) ∧ s.ftu.flywheel = some due ∧ s.stop.requests = []) ∧
  (∃ (s : State) (due : Nat),
    s.ftu.lock = .locked ∧ s.ftu.flywheel = some due ∧ s.stop.requests = [] ∧ s.flt.kinds.length = 26 ∧
    asksNoStop s .refLost = true) :=
  ⟨⟨base, 40000, by decide⟩,
   ⟨{ base with ftu := { base.ftu with lock := .locking, good := 2 } }, 40000, by decide⟩,
   ⟨{ base with ftu := { base.ftu with lock := .locking, good := 2, sincePulse := 1 } }, 40000, by decide⟩,
   ⟨{ base with ftu := { base.ftu with lock := .locked } }, 40000, by decide⟩⟩

theorem witness_PulsesSteerTheFlywheel :
  (∃ (s : State),
    (s.shc.part = .running ∨ s.shc.part = .resetting) ∧ s.stop.requests = [] ∧
    s.ftu.lock = .free) ∧
  (∃ (e : Env) (s : State),
    (s.shc.part = .running ∨ s.shc.part = .resetting) ∧ s.stop.requests = [] ∧
    s.ftu.lock = .locking ∧
    (s.now + e.elapsed - s.ftu.lastPulse < s.ftu.format.rate.period * 98 / 100 ∨
      s.ftu.format.rate.period * 102 / 100 < s.now + e.elapsed - s.ftu.lastPulse)) ∧
  (∃ (e : Env) (s : State),
    (s.shc.part = .running ∨ s.shc.part = .resetting) ∧ s.stop.requests = [] ∧
    s.ftu.lock = .locking ∧
    (s.now + e.elapsed - s.ftu.lastPulse < s.ftu.format.rate.period * 98 / 100 ∨
      s.ftu.format.rate.period * 102 / 100 < s.now + e.elapsed - s.ftu.lastPulse)) ∧
  (∃ (e : Env) (s : State),
    (s.shc.part = .running ∨ s.shc.part = .resetting) ∧ s.stop.requests = [] ∧
    s.ftu.lock = .locking ∧ s.ftu.format.rate.period * 98 / 100 ≤ s.now + e.elapsed - s.ftu.lastPulse ∧
    s.now + e.elapsed - s.ftu.lastPulse ≤ s.ftu.format.rate.period * 102 / 100 ∧ s.ftu.good + 1 < 3) ∧
  (∃ (e : Env) (s : State),
    (s.shc.part = .running ∨ s.shc.part = .resetting) ∧ s.stop.requests = [] ∧
    s.ftu.lock = .locking ∧ s.ftu.format.rate.period * 98 / 100 ≤ s.now + e.elapsed - s.ftu.lastPulse ∧
    s.now + e.elapsed - s.ftu.lastPulse ≤ s.ftu.format.rate.period * 102 / 100 ∧ 3 ≤ s.ftu.good + 1 ∧
    s.now + e.elapsed - s.ftu.lastStart < s.ftu.format.rate.period * 50 / 100) ∧
  (∃ (e : Env) (s : State),
    (s.shc.part = .running ∨ s.shc.part = .resetting) ∧ s.stop.requests = [] ∧
    s.ftu.lock = .locking ∧ s.ftu.format.rate.period * 98 / 100 ≤ s.now + e.elapsed - s.ftu.lastPulse ∧
    s.now + e.elapsed - s.ftu.lastPulse ≤ s.ftu.format.rate.period * 102 / 100 ∧ 3 ≤ s.ftu.good + 1 ∧
    s.ftu.format.rate.period * 50 / 100 ≤ s.now + e.elapsed - s.ftu.lastStart ∧ s.ftu.pendingFormat = none) ∧
  (∃ (s : State),
    s.shc.part ≠ .running ∧ s.shc.part ≠ .resetting) ∧
  (∃ (e : Env) (s : State),
    (s.shc.part = .running ∨ s.shc.part = .resetting) ∧ s.stop.requests = [] ∧
    s.ftu.lock = .locked ∧ s.flt.kinds.length = 26 ∧
    s.ftu.format.rate.period * 98 / 100 ≤ s.now + e.elapsed - s.ftu.lastStart ∧ s.ftu.pendingFormat = none) ∧
  (∃ (e : Env) (s : State),
    (s.shc.part = .running ∨ s.shc.part = .resetting) ∧ s.stop.requests = [] ∧
    s.ftu.lock = .locked ∧ s.flt.kinds.length = 26 ∧
    s.now + e.elapsed - s.ftu.lastStart < s.ftu.format.rate.period * 98 / 100 ∧ s.ftu.policy = .ignore ∧
    asksNoStop s .refEarly = true) ∧
  (∃ (e : Env) (s : State),
    (s.shc.part = .running ∨ s.shc.part = .resetting) ∧ s.stop.requests = [] ∧
    s.ftu.lock = .locked ∧ s.flt.kinds.length = 26 ∧
    s.now + e.elapsed - s.ftu.lastStart < s.ftu.format.rate.period * 98 / 100 ∧ s.ftu.policy = .restart ∧
    s.ftu.pendingFormat = none ∧ asksNoStop s .refEarly = true) :=
  ⟨⟨base, by decide⟩,
   ⟨e10, { base with ftu := { base.ftu with lock := .locking, good := 1 } }, by decide⟩,
   ⟨e0, { base with now := 40801, ftu := { base.ftu with lock := .locking, good := 1 } }, by decide⟩,
   ⟨e0, { base with now := 39200, ftu := { base.ftu with lock := .locking, good := 1 } }, by decide⟩,
   ⟨e0, { base with now := 40800, ftu := { base.ftu with lock := .locking, good := 2, lastStart := 20801 } },
    by decide⟩,
   ⟨e0, { base with now := 40800, ftu := { base.ftu with lock := .locking, good := 2, lastStart := 20800 } },
    by decide⟩,
   ⟨State.reset, by decide⟩,
   ⟨e0, { base with now := 39200, ftu := { base.ftu with lock := .locked } }, by decide⟩,
   ⟨e0, { base with now := 39199, ftu := { base.ftu with lock := .locked } }, by decide⟩,
   ⟨e0, { base with now := 39199, ftu := { base.ftu with lock := .locked, policy := .restart } }, by decide⟩⟩

theorem witness_TimingOrders :
  (∃ (s : State) (rate drop : Byte) (r : Rate),
    dispatches s .immediate 16 0 (p1 rate ++ p1 drop) = true ∧ s.clipOpen = false ∧ s.sta.preOn = false ∧
    rateOf rate.toNat = some r ∧ (drop = 0 ∨ drop = 1 ∧ (r = Rate.r29 ∨ r = Rate.r59))) ∧
  (∃ (s : State) (rate drop : Byte) (r : Rate),
    dispatches s .immediate 16 0 (p1 rate ++ p1 drop) = true ∧ s.clipOpen = false ∧ s.sta.preOn = false ∧
    rateOf rate.toNat = some r ∧ (drop = 0 ∨ drop = 1 ∧ (r = Rate.r29 ∨ r = Rate.r59))) ∧
  (∃ (s : State) (policy : Byte),
    dispatches s .immediate 17 0 (p1 policy) = true ∧ policy = 0) ∧
  (∃ (s : State) (policy : Byte),
    dispatches s .immediate 17 0 (p1 policy) = true ∧ policy = 1) ∧
  (∃ (s : State) (mode : Byte),
    dispatches s .immediate 18 0 (p1 mode) = true ∧ mode = 0) ∧
  (∃ (s : State) (mode : Byte),
    dispatches s .immediate 18 0 (p1 mode) = true ∧ mode = 1 ∧ s.sta.preOn = false) ∧
  (∃ (s : State) (h m c f : Byte),
    dispatches s .immediate 19 0 (p1 h ++ p1 m ++ p1 c ++ p1 f) = true ∧ s.clipOpen = false) ∧
  (∃ (s : State) (rate drop : Byte),
    dispatches s .immediate 16 0 (p1 rate ++ p1 drop) = true ∧ (s.clipOpen = true ∨ s.sta.preOn = true)) ∧
  (∃ (s : State) (rate drop : Byte),
    dispatches s .immediate 16 0 (p1 rate ++ p1 drop) = true ∧ s.clipOpen = false ∧ s.sta.preOn = false ∧
    (5 < rate.toNat ∨ 1 < drop.toNat ∨ drop = 1 ∧ rate.toNat ≠ 3 ∧ rate.toNat ≠ 5)) ∧
  (∃ (s : State) (rate drop : Byte),
    dispatches s .immediate 16 0 (p1 rate ++ p1 drop) = true ∧ s.clipOpen = false ∧ s.sta.preOn = false ∧
    (5 < rate.toNat ∨ 1 < drop.toNat ∨ drop = 1 ∧ rate.toNat ≠ 3 ∧ rate.toNat ≠ 5)) ∧
  (∃ (s : State) (policy : Byte),
    dispatches s .immediate 17 0 (p1 policy) = true ∧ 1 < policy.toNat) ∧
  (∃ (s : State) (mode : Byte),
    dispatches s .immediate 18 0 (p1 mode) = true ∧ 1 < mode.toNat) ∧
  (∃ (s : State) (mode : Byte),
    dispatches s .immediate 18 0 (p1 mode) = true ∧ mode = 1 ∧ s.sta.preOn = true) ∧
  (∃ (s : State) (h m c f : Byte),
    dispatches s .immediate 19 0 (p1 h ++ p1 m ++ p1 c ++ p1 f) = true ∧ s.clipOpen = true) :=
  ⟨⟨order 0x10 0 [5, 1] base, 5, 1, .r59, by decide⟩,
   ⟨order 0x10 0 [0, 0] base, 0, 0, .r23, by decide⟩,
   ⟨order 0x11 0 [0] base, 0, by decide⟩,
   ⟨order 0x11 0 [1] base, 1, by decide⟩,
   ⟨order 0x12 0 [0] base, 0, by decide⟩,
   ⟨order 0x12 0 [1] base, 1, by decide⟩,
   ⟨order 0x13 0 [24, 59, 60, 25] base, 24, 59, 60, 25, by decide⟩,
   ⟨order 0x10 0 [3, 1] { base with sta := { base.sta with preOn := true } }, 3, 1, by decide⟩,
   ⟨order 0x10 0 [4, 1] base, 4, 1, by decide⟩,
   ⟨order 0x10 0 [6, 0] base, 6, 0, by decide⟩,
   ⟨order 0x11 0 [2] base, 2, by decide⟩,
   ⟨order 0x12 0 [2] base, 2, by decide⟩,
   ⟨order 0x12 0 [1] { base with sta := { base.sta with preOn := true } }, 1, by decide⟩,
   ⟨order 0x13 0 [1, 2, 3, 4] { base with slotB := { Slot.reset true with st := .closing } }, 1, 2, 3, 4,
    by decide⟩⟩

theorem witness_TimecodeAdvanceStaysValid :
  ∃ (f : Format) (t : Timecode),
    t.hours < 24 ∧ t.minutes < 60 ∧ t.seconds < 60 ∧ t.frames < f.rate.count ∧ t.isSkipped f = false :=
  ⟨⟨.r29, true⟩, ⟨23, 59, 59, 29⟩, by decide⟩

theorem witness_FrameStartWithNoSheetOrAMalformedOne :
  (∃ (e : Env) (s : State) (x : FrameStart) (rest : List FrameStart),
    s.shc.arriving = x :: rest ∧ s.shc.part = .running ∧ s.shc.job = none ∧ s.shc.heldStart = none ∧
    s.stop.requests = [] ∧ s.cgd.st = .off ∧
    (s.arrive e).busError (s.shc.partBase.toNat + if s.shc.turn = .a then 256 else 2560) 32 = none ∧
    ofLe (Memory.readAll (s.arrive e).mem (s.shc.partBase.toNat + if s.shc.turn = .a then 256 else 2560)
      4) ≠ 1 ∧
    (s.arrive e).busError (s.shc.partBase.toNat + 5120 + 4096 * (x.opened.frame.toNat % 2)) 4 = none) ∧
  (∃ (e : Env) (s : State) (x : FrameStart) (rest : List FrameStart),
    s.shc.arriving = x :: rest ∧ s.shc.part = .running ∧ s.shc.job = none ∧ s.shc.heldStart = none ∧
    s.stop.requests = [] ∧ s.cgd.st = .off ∧ Memory.wf s.mem = true ∧ e.errors = [] ∧
    s.shc.partBase.toNat + 16384 ≤ 4294967296 ∧ s.flt.kinds.length = 26 ∧
    asksNoStop s .sheetMalformed = true ∧
    ofLe (Memory.readAll (s.arrive e).mem (s.shc.partBase.toNat + if s.shc.turn = .a then 256 else 2560)
      4) = 1 ∧
    64 < ofLe (Memory.readAll (s.arrive e).mem ((s.shc.partBase.toNat + if s.shc.turn = .a then 256 else
      2560) + 12) 4)) ∧
  (∃ (e : Env) (s : State) (x : FrameStart) (rest : List FrameStart) (bad : Nat),
    s.shc.arriving = x :: rest ∧ s.shc.part = .running ∧ s.shc.job = none ∧ s.shc.heldStart = none ∧
    s.stop.requests = [] ∧ s.cgd.st = .off ∧ s.flt.kinds.length = 26 ∧
    asksNoStop s .commonBus = true ∧
    ((s.arrive e).busError (s.shc.partBase.toNat + if s.shc.turn = .a then 256 else 2560) 32 = some bad ∨
      (s.arrive e).busError (s.shc.partBase.toNat + if s.shc.turn = .a then 256 else 2560) 32 = none ∧
      ofLe (Memory.readAll (s.arrive e).mem (s.shc.partBase.toNat + if s.shc.turn = .a then 256 else 2560)
      4) = 1 ∧ ofLe (Memory.readAll (s.arrive e).mem ((s.shc.partBase.toNat + if s.shc.turn = .a then 256
      else 2560) + 12) 4) ≤ 64 ∧ (s.arrive e).spansError (entrySpans (s.arrive e).mem ((s.shc.partBase.toNat + if
      s.shc.turn = .a then 256 else 2560) + 32) (ofLe (Memory.readAll (s.arrive e).mem
      ((s.shc.partBase.toNat + if s.shc.turn = .a then 256 else 2560) + 12) 4))) = some bad) ∧
    (s.arrive e).busError (s.shc.partBase.toNat + 5120 + 4096 * (x.opened.frame.toNat % 2)) 4 = none) ∧
  (∃ (e : Env) (s : State) (x : FrameStart) (rest : List FrameStart) (bad : Nat),
    s.shc.arriving = x :: rest ∧ s.shc.part = .running ∧ s.shc.job = none ∧ s.shc.heldStart = none ∧
    s.stop.requests = [] ∧ s.cgd.st = .off ∧ s.flt.kinds.length = 26 ∧
    asksNoStop s .commonBus = true ∧
    ((s.arrive e).busError (s.shc.partBase.toNat + if s.shc.turn = .a then 256 else 2560) 32 = some bad ∨
      (s.arrive e).busError (s.shc.partBase.toNat + if s.shc.turn = .a then 256 else 2560) 32 = none ∧
      ofLe (Memory.readAll (s.arrive e).mem (s.shc.partBase.toNat + if s.shc.turn = .a then 256 else 2560)
      4) = 1 ∧ ofLe (Memory.readAll (s.arrive e).mem ((s.shc.partBase.toNat + if s.shc.turn = .a then 256
      else 2560) + 12) 4) ≤ 64 ∧ (s.arrive e).spansError (entrySpans (s.arrive e).mem ((s.shc.partBase.toNat + if
      s.shc.turn = .a then 256 else 2560) + 32) (ofLe (Memory.readAll (s.arrive e).mem
      ((s.shc.partBase.toNat + if s.shc.turn = .a then 256 else 2560) + 12) 4))) = some bad) ∧
    (s.arrive e).busError (s.shc.partBase.toNat + 5120 + 4096 * (x.opened.frame.toNat % 2)) 4 = none) ∧
  (∃ (e : Env) (s : State) (x : FrameStart) (rest : List FrameStart),
    s.shc.arriving = x :: rest ∧ s.shc.part = .resetting ∧ s.shc.job = none ∧ s.shc.heldStart = none ∧
    s.stop.requests = [] ∧
    (s.arrive e).busError (s.shc.partBase.toNat + 5120 + 4096 * (x.opened.frame.toNat % 2)) 4 = none) ∧
  (∃ (s : State) (x : FrameStart) (rest : List FrameStart),
    s.shc.arriving = x :: rest ∧ s.shc.job ≠ none ∧ s.shc.heldStart = none ∧ s.stop.requests = []) ∧
  (∃ (e : Env) (s : State) (x h : FrameStart) (rest : List FrameStart),
    s.shc.arriving = x :: rest ∧ s.shc.heldStart = some h ∧ s.stop.requests = [] ∧ s.cgd.st = .off ∧
    (s.arrive e).busError (s.shc.partBase.toNat + 5120 + 4096 * (h.opened.frame.toNat % 2)) 4 = none) :=
  ⟨⟨e0, shcDue base, frameStart 7 false, [], by decide⟩,
   ⟨e0, posted 65, frameStart 7 false, [], by decide⟩,
   ⟨bad 0x10011F, posted 1, frameStart 7 false, [], 0x10011F, by decide⟩,
   ⟨bad 0x100120, posted 64, frameStart 7 false, [], 0x100120, by decide⟩,
   ⟨e0, resetting, frameStart 7 false, [], by decide⟩,
   ⟨behind none [frameStart 7 false], frameStart 7 false, [], by decide⟩,
   ⟨e0, behind (some (frameStart 6 false)) [frameStart 7 false], frameStart 7 false, frameStart 6 false, [],
    by decide⟩⟩

theorem witness_PostedSheetIsTaken :
  ∃ (e : Env) (s : State) (x : FrameStart) (rest : List FrameStart),
    s.shc.arriving = x :: rest ∧ s.shc.part = .running ∧ s.shc.job = none ∧ s.shc.heldStart = none ∧
    s.stop.requests = [] ∧ s.cgd.st = .off ∧ Memory.wf s.mem = true ∧ e.errors = [] ∧
    s.shc.partBase.toNat + 16384 ≤ 4294967296 ∧
    ofLe (Memory.readAll (s.arrive e).mem (s.shc.partBase.toNat + if s.shc.turn = .a then 256 else 2560)
      4) = 1 ∧
    ofLe (Memory.readAll (s.arrive e).mem ((s.shc.partBase.toNat + if s.shc.turn = .a then 256 else 2560)
      + 12) 4) ≤ 64 :=
  ⟨e0, posted 64, frameStart 7 false, [], by decide⟩

theorem witness_SheetReturnedWithItsResults :
  (∃ (e : Env) (s : State) (j : SheetJob),
    s.shc.job = some j ∧ j.todo = [] ∧ j.results.length ≤ 64 ∧ s.stop.requests = [] ∧ Memory.wf s.mem = true ∧
    e.errors = [] ∧ s.shc.partBase.toNat + 16384 ≤ 4294967296 ∧ s.shc.resetWaiting = false ∧ s.shc.heldStart = none) ∧
  (∃ (e : Env) (s : State) (j : SheetJob),
    s.shc.job = some j ∧ j.todo = [] ∧ j.results.length ≤ 64 ∧ s.stop.requests = [] ∧ Memory.wf s.mem = true ∧
    e.errors = [] ∧ s.shc.partBase.toNat + 16384 ≤ 4294967296 ∧ s.shc.resetWaiting = false ∧ s.shc.heldStart = none) ∧
  (∃ (e : Env) (s : State) (j : SheetJob),
    s.shc.job = some j ∧ j.todo = [] ∧ j.results.length ≤ 64 ∧ s.stop.requests = [] ∧ Memory.wf s.mem = true ∧
    e.errors = [] ∧ s.shc.partBase.toNat + 16384 ≤ 4294967296 ∧ s.shc.resetWaiting = true ∧ s.shc.reports = [] ∧
    s.clipOpen = false) ∧
  (∃ (e : Env) (s : State) (j : SheetJob) (x : FrameStart),
    s.shc.job = some j ∧ j.todo = [] ∧ j.results.length ≤ 64 ∧ s.stop.requests = [] ∧ Memory.wf s.mem = true ∧
    e.errors = [] ∧ s.shc.partBase.toNat + 16384 ≤ 4294967296 ∧ s.shc.resetWaiting = false ∧
    s.shc.heldStart = some x ∧ j.late = [] ∧ s.shc.part = .running ∧ s.cgd.st = .off ∧
    s.shc.turn ≠ j.sheet ∧
    ofLe (Memory.readAll (s.arrive e).mem (s.shc.partBase.toNat + if s.shc.turn = .a then 256 else 2560)
      4) ≠ 1) ∧
  (∃ (e : Env) (s : State) (j : SheetJob) (x : FrameStart),
    s.shc.job = some j ∧ j.todo = [] ∧ j.results.length ≤ 64 ∧ s.stop.requests = [] ∧ Memory.wf s.mem = true ∧
    e.errors = [] ∧ s.shc.partBase.toNat + 16384 ≤ 4294967296 ∧ s.shc.resetWaiting = false ∧
    s.shc.heldStart = some x ∧ j.late = [] ∧ s.shc.part = .running ∧ s.cgd.st = .off ∧
    s.shc.turn ≠ j.sheet ∧
    ofLe (Memory.readAll (s.arrive e).mem (s.shc.partBase.toNat + if s.shc.turn = .a then 256 else 2560)
      4) = 1 ∧
    ofLe (Memory.readAll (s.arrive e).mem ((s.shc.partBase.toNat + if s.shc.turn = .a then 256 else 2560)
      + 12) 4) ≤ 64) :=
  ⟨⟨e0, sDone, doneJob, by decide⟩,
   ⟨e0, lateDone, lateJob, by decide⟩,
   ⟨e0, resetDone, doneJob, by decide⟩,
   ⟨e0, behind (some (frameStart 7 false)) [], doneJob, frameStart 7 false, by decide⟩,
   ⟨e0, heldPosted, doneJob, frameStart 7 false, by decide⟩⟩

theorem witness_ReportWrittenWithItsEndStamp :
  ∃ (e : Env) (s : State) (slot : BitVec 1) (r : ReportJob),
    List.find? (fun k ↦ k.frame.toNat % 2 == slot.toNat) s.shc.reports = some r ∧ s.reportReady r.frame = true ∧
    s.shc.resetWaiting = false ∧ s.shc.heldStart = none ∧ s.stop.requests = [] ∧ tagTableWhole s ∧
    Memory.wf s.mem = true ∧ e.errors = [] ∧ s.shc.partBase.toNat + 16384 ≤ 4294967296 :=
  ⟨e0, { sRep with ftu := { sRep.ftu with counter := 8 } }, 1, ⟨7, none⟩, by decide⟩

theorem witness_ReleaseTagLetsAHeldTagGo :
  (∃ (s : State) (number : Byte),
    dispatches s .immediate 1 0 (p1 number) = true ∧ (number.toNat = 0 ∨ 32 < number.toNat)) ∧
  (∃ (s : State) (number : Byte),
    dispatches s .immediate 1 0 (p1 number) = true ∧ (number.toNat = 0 ∨ 32 < number.toNat)) ∧
  (∃ (s : State) (number : Byte),
    dispatches s .immediate 1 0 (p1 number) = true ∧ 1 ≤ number.toNat ∧ number.toNat ≤ 32 ∧
    (s.tagRec number.toNat).st ≠ .held) ∧
  (∃ (s : State) (number : Byte),
    dispatches s .immediate 1 0 (p1 number) = true ∧ 1 ≤ number.toNat ∧ number.toNat ≤ 32 ∧
    (s.tagRec number.toNat).st = .held) :=
  ⟨⟨order 1 0 [0] base, 0, by decide⟩,
   ⟨order 1 0 [33] base, 33, by decide⟩,
   ⟨order 1 0 [32] base, 32, by decide⟩,
   ⟨order 1 0 [1] (base.setTag 1 { TagRec.free with st := .held }), 1, by decide⟩⟩

theorem witness_EveryEntryIsCheckedAndAnswered :
  (∃ (c : Instr) (f : OrderForm) (s : State),
    orderForm c = some f ∧ s.awaits f.kind f.tag f.params = false) ∧
  (∃ (c : Instr) (f : OrderForm) (s : State),
    orderForm c = some f ∧ s.awaits f.kind f.tag f.params = true ∧ f.cls = .immediate ∧ f.tag ≠ 0) ∧
  (∃ (c : Instr) (f : OrderForm) (s : State),
    orderForm c = some f ∧ s.awaits f.kind f.tag f.params = true ∧ f.cls = .required ∧ f.tag = 0) ∧
  (∃ (c : Instr) (f : OrderForm) (s : State),
    orderForm c = some f ∧ s.awaits f.kind f.tag f.params = true ∧ f.cls ≠ .immediate ∧ 32 < f.tag.toNat) ∧
  (∃ (c : Instr) (f : OrderForm) (s : State),
    orderForm c = some f ∧ s.awaits f.kind f.tag f.params = true ∧ f.cls ≠ .immediate ∧ 1 ≤ f.tag.toNat ∧
    f.tag.toNat ≤ 32 ∧ (s.tagRec f.tag.toNat).st = .inFlight) ∧
  (∃ (c : Instr) (f : OrderForm) (s : State),
    orderForm c = some f ∧ s.awaits f.kind f.tag f.params = true ∧ f.cls ≠ .immediate ∧ 1 ≤ f.tag.toNat ∧
    f.tag.toNat ≤ 32 ∧ (s.tagRec f.tag.toNat).st = .held) ∧
  (∃ (s : State) (j : SheetJob) (x : SheetEntry) (rest : List SheetEntry),
    s.shc.job = some j ∧ j.todo = x :: rest) :=
  ⟨⟨.trackingOn e0 0, ⟨.immediate, 0x28, 0, []⟩, base, rfl, by decide⟩,
   ⟨.trackingOn e0 1, ⟨.immediate, 0x28, 1, []⟩, order 0x28 1 [] base, rfl, by decide⟩,
   ⟨.clipClose e0 0, ⟨.required, 0x63, 0, []⟩, order 0x63 0 [] base, rfl, by decide⟩,
   ⟨.clipClose e0 33, ⟨.required, 0x63, 33, []⟩, order 0x63 33 [] base, rfl, by decide⟩,
   ⟨.clipClose e0 3, ⟨.required, 0x63, 3, []⟩, order 0x63 3 [] (tag3 base), rfl, by decide⟩,
   ⟨.clipClose e0 32, ⟨.required, 0x63, 32, []⟩,
    order 0x63 32 [] (base.setTag 32 { TagRec.free with st := .held }), rfl, by decide⟩,
   ⟨order 1 0 [0] base,
    { sheet := .a, seq := 1, frame := 5, tripped := false, todo := [⟨1, 0, 0, [0]⟩], results := [], opened := [],
      late := [] }, ⟨1, 0, 0, [0]⟩, [], by decide⟩⟩

theorem witness_CompletionsReachInFlightTagsAlone :
  (∃ (s : State) (h : HeldCompletion),
    s.shc.tags.length = 32 ∧ s.flt.kinds.length = 26 ∧
    (h.completion.tag = 0 ∨ (s.tagRec h.completion.tag).st ≠ .inFlight)) ∧
  (∃ (s : State) (h : HeldCompletion),
    s.shc.tags.length = 32 ∧ s.flt.kinds.length = 26 ∧ h.completion.tag ≠ 0 ∧
    (s.tagRec h.completion.tag).st = .inFlight ∧ h.hold = none) ∧
  (∃ (s : State) (h : HeldCompletion) (k : FaultKind),
    s.shc.tags.length = 32 ∧ s.flt.kinds.length = 26 ∧ h.completion.tag ≠ 0 ∧
    (s.tagRec h.completion.tag).st = .inFlight ∧ h.hold = some k ∧ s.flt.stands k = true ∧
    (s.flt.entry k).capture.tag = 0) :=
  ⟨⟨base, ⟨none, 3, .complete, 1, 2, 3⟩, by decide⟩,
   ⟨tag3 base, ⟨none, 3, .complete, 1, 2, 3⟩, by decide⟩,
   ⟨{ tag3 base with flt := { base.flt with first := some .lensStall } },
    ⟨some .lensStall, 3, .stalled, 1, 2, 3⟩, .lensStall, by decide⟩⟩

theorem witness_LensLinkFollowsItsReplies :
  (∃ (s : State),
    (s.shc.part = .running ∨ s.shc.part = .resetting) ∧ s.ldu.demandSent = true) ∧
  (∃ (s : State),
    s.ldu.demandSent = false) ∧
  (∃ (s : State),
    s.shc.part ≠ .running ∧ s.shc.part ≠ .resetting) ∧
  (∃ (s : State) (due : Nat),
    s.ldu.timer = some due ∧ s.ldu.link = .detached ∧ s.stop.requests = [] ∧
    (∀ (x : AxisId), (s.ldu.axis x).move = Move.none ∧ (s.ldu.axis x).st = .idle ∧
      (s.ldu.axis x).tag = 0) ∧
    s.ldu.shot = .idle ∧ (s.ldu.reply = none ∨ ∃ r, s.ldu.reply = some r ∧ r.attached = false)) ∧
  (∃ (s : State) (due : Nat) (r : LensReply),
    s.ldu.timer = some due ∧ s.ldu.link = .detached ∧ s.stop.requests = [] ∧
    (∀ (x : AxisId), (s.ldu.axis x).move = Move.none ∧ (s.ldu.axis x).st = .idle ∧
      (s.ldu.axis x).tag = 0) ∧
    s.ldu.shot = .idle ∧ s.ldu.reply = some r ∧ r.attached = true ∧ r.focusManual = false ∧
    r.irisManual = false ∧ r.rocker.toInt.natAbs ≤ 8 ∧ s.ldu.tracking = false ∧ s.ldu.stallCountsZero = true ∧
    1 ≤ s.ldu.stallTime) ∧
  (∃ (s : State) (due : Nat),
    s.ldu.timer = some due ∧ s.ldu.link = .online ∧ s.ldu.reply = none ∧ s.stop.requests = [] ∧
    s.ldu.missing + 1 < 10) ∧
  (∃ (s : State) (due : Nat),
    s.ldu.timer = some due ∧ s.ldu.link = .online ∧ s.ldu.reply = none ∧ s.stop.requests = [] ∧
    10 ≤ s.ldu.missing + 1 ∧ s.flt.kinds.length = 26 ∧ asksNoStop s .lensLink = true) ∧
  (∃ (s : State) (due : Nat),
    s.ldu.timer = some due ∧ s.ldu.link = .lost ∧ s.stop.requests = [] ∧
    (∀ (x : AxisId), (s.ldu.axis x).move = Move.none ∧ (s.ldu.axis x).st ≠ .moving ∧
      (s.ldu.axis x).tag = 0) ∧
    s.ldu.shot = .idle ∧ s.ldu.reply = none) ∧
  (∃ (s : State) (due : Nat) (r : LensReply),
    s.ldu.timer = some due ∧ s.ldu.link = .lost ∧ s.stop.requests = [] ∧
    (∀ (x : AxisId), (s.ldu.axis x).move = Move.none ∧ (s.ldu.axis x).st ≠ .moving ∧
      (s.ldu.axis x).tag = 0) ∧
    s.ldu.shot = .idle ∧ s.ldu.reply = some r ∧ r.attached = true ∧ r.focusManual = false ∧
    r.irisManual = false ∧ r.rocker.toInt.natAbs ≤ 8 ∧ (∀ (x : AxisId), (s.ldu.axis x).stallCount < s.ldu.stallTime)) ∧
  (∃ (s : State) (due : Nat) (r : LensReply),
    s.ldu.timer = some due ∧ s.ldu.link = .lost ∧ s.stop.requests = [] ∧
    (∀ (x : AxisId), (s.ldu.axis x).move = Move.none ∧ (s.ldu.axis x).st ≠ .moving ∧
      (s.ldu.axis x).tag = 0) ∧
    s.ldu.shot = .idle ∧ s.ldu.reply = some r ∧ r.attached = false) ∧
  (∃ (s : State) (due : Nat) (r : LensReply),
    s.ldu.timer = some due ∧ s.ldu.link = .online ∧ s.ldu.reply = some r ∧ s.stop.requests = [] ∧
    r.attached = false) ∧
  (∃ (s : State) (due : Nat) (r : LensReply),
    s.ldu.timer = some due ∧ s.ldu.link = .online ∧ s.ldu.reply = some r ∧ s.stop.requests = [] ∧
    r.attached = true ∧ asksNoStop s .lensStall = true) ∧
  (∃ (s : State) (due : Nat) (r : LensReply) (x : AxisId),
    s.ldu.timer = some due ∧ s.ldu.link = .online ∧ s.ldu.reply = some r ∧ s.stop.requests = [] ∧
    r.attached = true ∧ asksNoStop s .lensStall = true ∧ (seenBy s r).manual x = true) ∧
  (∃ (s : State) (due : Nat) (r : LensReply) (x : AxisId),
    s.ldu.timer = some due ∧ s.ldu.link = .online ∧ s.ldu.reply = some r ∧ s.stop.requests = [] ∧
    r.attached = true ∧ asksNoStop s .lensStall = true ∧ r.rocker.toInt.natAbs ≤ 8 ∧ r.button = false ∧
    (s.ldu.axis x).st ≠ .stalled ∧ (seenBy s r).manual x = false ∧
    s.ldu.stallWindow < ↑((s.ldu.axis x).sent - (seenBy s r).actual x).natAbs ∧
    s.ldu.stallTime < (s.ldu.axis x).stallCount + 1 ∧
    (∀ (y : AxisId), y ≠ x → ↑((s.ldu.axis y).sent - (seenBy s r).actual y).natAbs ≤ s.ldu.stallWindow) ∧
    s.flt.kinds.length = 26) :=
  ⟨⟨{ base with ldu := { base.ldu with demandSent := true } }, by decide⟩,
   ⟨base, by decide⟩,
   ⟨State.reset, by decide⟩,
   ⟨base, 2000, rfl, rfl, rfl, forall_axis (by decide) (by decide) (by decide), rfl, Or.inl rfl⟩,
   ⟨{ base with ldu := { base.ldu with reply := some restReply } }, 2000, restReply, rfl, rfl, rfl,
    forall_axis (by decide) (by decide) (by decide), by decide⟩,
   ⟨{ online base with ldu := { (online base).ldu with missing := 8 } }, 2000, by decide⟩,
   ⟨{ online base with ldu := { (online base).ldu with missing := 9 } }, 2000, by decide⟩,
   ⟨lostWith none, 2000, rfl, rfl, rfl, forall_axis (by decide) (by decide) (by decide), rfl, rfl⟩,
   ⟨lostWith (some restReply), 2000, restReply, rfl, rfl, rfl, forall_axis (by decide) (by decide) (by decide),
    rfl, rfl, rfl, rfl, rfl, by decide, forall_axis (by decide) (by decide) (by decide)⟩,
   ⟨lostWith (some gone), 2000, gone, rfl, rfl, rfl, forall_axis (by decide) (by decide) (by decide), rfl, rfl,
    rfl⟩,
   ⟨hears gone trackMoving, 2000, gone, by decide⟩,
   ⟨hears restReply { Ldu.reset with missing := 9 }, 2000, restReply, by decide⟩,
   ⟨tag3 (hears byHand irisMoving), 2000, byHand, .iris, by decide⟩,
   ⟨tag3 (hears restReply stalling), 2000, restReply, .zoom, by decide, by decide, by decide, by decide,
    by decide, by decide, by decide, by decide, by decide, by decide, by decide, by decide,
    forall_axis (by decide) (by decide) (by decide), by decide⟩⟩

theorem witness_AxisMovesBegin :
  (∃ (s : State) (tag : Byte) (rate : Half),
    dispatches s .optional 32 tag (p2 rate) = true ∧ s.ldu.link = .online ∧
    s.ldu.gripRefuses = false ∧ s.ldu.zoom.st ≠ .stalled ∧ s.ldu.zoom.tag = 0 ∧ s.ldu.shot = .idle) ∧
  (∃ (s : State) (tag : Byte) (target cap : Half),
    s.ldu.link = .online ∧ s.ldu.shot = .idle ∧
    dispatches s .optional 33 tag (p2 target ++ p2 cap) = true ∧ s.ldu.gripRefuses = false ∧
    s.ldu.zoom.st ≠ .stalled ∧ s.ldu.zoom.tag = 0) ∧
  (∃ (s : State) (tag : Byte) (target cap : Half),
    s.ldu.link = .online ∧ s.ldu.shot = .idle ∧
    dispatches s .optional 34 tag (p2 target ++ p2 cap) = true ∧ s.ldu.view.focusManual = false ∧
    s.ldu.focus.st ≠ .stalled ∧ s.ldu.focus.tag = 0) ∧
  (∃ (s : State) (tag : Byte) (target cap : Half),
    s.ldu.link = .online ∧ s.ldu.shot = .idle ∧
    dispatches s .optional 35 tag (p2 target ++ p2 cap) = true ∧ s.ldu.view.irisManual = false ∧
    s.ldu.iris.st ≠ .stalled ∧ s.ldu.iris.tag = 0) :=
  ⟨⟨order 0x20 3 (p2 4001) (online base), 3, 4001, by decide⟩,
   ⟨order 0x21 3 (p2 4095 ++ p2 4000) (online base), 3, 4095, 4000, by decide⟩,
   ⟨order 0x22 0 (p2 4096 ++ p2 0) (online base), 0, 4096, 0, by decide⟩,
   ⟨order 0x23 3 (p2 1023 ++ p2 2001) (online base), 3, 1023, 2001, by decide⟩⟩

theorem witness_AxisOrdersRefusedInOrder :
  (∃ (s : State) (tag : Byte) (rate : Half),
    dispatches s .optional 32 tag (p2 rate) = true ∧ s.ldu.link ≠ .online) ∧
  (∃ (s : State) (tag : Byte) (rate : Half),
    dispatches s .optional 32 tag (p2 rate) = true ∧ s.ldu.link = .online ∧ s.ldu.gripRefuses = true) ∧
  (∃ (s : State) (tag : Byte) (rate : Half),
    dispatches s .optional 32 tag (p2 rate) = true ∧ s.ldu.link = .online ∧
    s.ldu.gripRefuses = false ∧ s.ldu.zoom.st = .stalled) ∧
  (∃ (s : State) (tag : Byte) (target cap : Half),
    dispatches s .optional 33 tag (p2 target ++ p2 cap) = true ∧ s.ldu.link ≠ .online) ∧
  (∃ (s : State) (tag : Byte) (target cap : Half),
    dispatches s .optional 33 tag (p2 target ++ p2 cap) = true ∧ s.ldu.link = .online ∧
    s.ldu.gripRefuses = true) ∧
  (∃ (s : State) (tag : Byte) (target cap : Half),
    dispatches s .optional 33 tag (p2 target ++ p2 cap) = true ∧ s.ldu.link = .online ∧
    s.ldu.gripRefuses = false ∧ s.ldu.zoom.st = .stalled) ∧
  (∃ (s : State) (tag : Byte) (target cap : Half),
    dispatches s .optional 34 tag (p2 target ++ p2 cap) = true ∧ s.ldu.link ≠ .online) ∧
  (∃ (s : State) (tag : Byte) (target cap : Half),
    dispatches s .optional 34 tag (p2 target ++ p2 cap) = true ∧ s.ldu.link = .online ∧
    s.ldu.view.focusManual = true) ∧
  (∃ (s : State) (tag : Byte) (target cap : Half),
    dispatches s .optional 34 tag (p2 target ++ p2 cap) = true ∧ s.ldu.link = .online ∧
    s.ldu.view.focusManual = false ∧ s.ldu.focus.st = .stalled) ∧
  (∃ (s : State) (tag : Byte) (target cap : Half),
    dispatches s .optional 35 tag (p2 target ++ p2 cap) = true ∧ s.ldu.link ≠ .online) ∧
  (∃ (s : State) (tag : Byte) (target cap : Half),
    dispatches s .optional 35 tag (p2 target ++ p2 cap) = true ∧ s.ldu.link = .online ∧
    s.ldu.view.irisManual = true) ∧
  (∃ (s : State) (tag : Byte) (target cap : Half),
    dispatches s .optional 35 tag (p2 target ++ p2 cap) = true ∧ s.ldu.link = .online ∧
    s.ldu.view.irisManual = false ∧ s.ldu.iris.st = .stalled) :=
  ⟨⟨order 0x20 3 (p2 7) base, 3, 7, by decide⟩,
   ⟨order 0x20 3 (p2 7) manualAll, 3, 7, by decide⟩,
   ⟨order 0x20 3 (p2 7) stalledAll, 3, 7, by decide⟩,
   ⟨order 0x21 3 (p2 7 ++ p2 7) base, 3, 7, 7, by decide⟩,
   ⟨order 0x21 3 (p2 7 ++ p2 7) manualAll, 3, 7, 7, by decide⟩,
   ⟨order 0x21 3 (p2 7 ++ p2 7) stalledAll, 3, 7, 7, by decide⟩,
   ⟨order 0x22 3 (p2 7 ++ p2 7) base, 3, 7, 7, by decide⟩,
   ⟨order 0x22 3 (p2 7 ++ p2 7) manualAll, 3, 7, 7, by decide⟩,
   ⟨order 0x22 3 (p2 7 ++ p2 7) stalledAll, 3, 7, 7, by decide⟩,
   ⟨order 0x23 3 (p2 7 ++ p2 7) base, 3, 7, 7, by decide⟩,
   ⟨order 0x23 3 (p2 7 ++ p2 7) manualAll, 3, 7, 7, by decide⟩,
   ⟨order 0x23 3 (p2 7 ++ p2 7) stalledAll, 3, 7, 7, by decide⟩⟩

theorem witness_ZoomStopAndClaim :
  (∃ (s : State),
    dispatches s .immediate 36 0 [] = true ∧ s.ldu.link ≠ .online) ∧
  (∃ (s : State),
    dispatches s .immediate 36 0 [] = true ∧ s.ldu.link = .online ∧ s.ldu.gripRefuses = true) ∧
  (∃ (s : State),
    dispatches s .immediate 36 0 [] = true ∧ s.ldu.link = .online ∧ s.ldu.gripRefuses = false ∧
    s.ldu.zoom.st = .stalled) ∧
  (∃ (s : State),
    dispatches s .immediate 36 0 [] = true ∧ s.ldu.link = .online ∧ s.ldu.gripRefuses = false ∧
    s.ldu.zoom.st ≠ .stalled ∧ s.ldu.shot = .idle) ∧
  (∃ (s : State) (k : Byte),
    dispatches s .immediate 37 0 (p1 k) = true ∧ k = 0) ∧
  (∃ (s : State) (k : Byte),
    dispatches s .immediate 37 0 (p1 k) = true ∧ k = 1 ∧ s.ldu.owner = .order) ∧
  (∃ (s : State) (k : Byte),
    dispatches s .immediate 37 0 (p1 k) = true ∧ k = 1 ∧ s.ldu.owner = .grip) ∧
  (∃ (s : State) (k : Byte),
    dispatches s .immediate 37 0 (p1 k) = true ∧ 1 < k.toNat) ∧
  (∃ (s : State) (due : Nat) (r : LensReply),
    s.ldu.timer = some due ∧ s.ldu.link = .online ∧ s.ldu.reply = some r ∧ r.attached = true ∧
    s.stop.requests = [] ∧ asksNoStop s .lensStall = true ∧ s.ldu.lockout = false ∧
    s.ldu.zoom.st ≠ .stalled ∧ ↑(s.ldu.zoom.sent - clampInt 0 4095 r.zoom).natAbs ≤ s.ldu.stallWindow ∧
    8 < (max (-127) r.rocker.toInt).natAbs ∧ s.ldu.releaseWait = false ∧
    (∀ (k : Int), s.ldu.zoom.move ≠ Move.grip k) ∧ (s.ldu.owner = .order ∨ s.ldu.shot = .idle)) ∧
  (∃ (s : State) (due : Nat) (r : LensReply) (k : Int),
    s.ldu.timer = some due ∧ s.ldu.link = .online ∧ s.ldu.reply = some r ∧ r.attached = true ∧
    s.stop.requests = [] ∧ asksNoStop s .lensStall = true ∧ s.ldu.lockout = false ∧
    s.ldu.zoom.st ≠ .stalled ∧ ↑(s.ldu.zoom.sent - clampInt 0 4095 r.zoom).natAbs ≤ s.ldu.stallWindow ∧
    s.ldu.zoom.move = Move.grip k ∧ (s.ldu.releaseWait = false ∨ (max (-127) r.rocker.toInt).natAbs ≤ 8) ∧
    s.ldu.shot = .idle ∧ r.button = false) :=
  ⟨⟨order 0x24 0 [] base, by decide⟩,
   ⟨order 0x24 0 [] manualAll, by decide⟩,
   ⟨order 0x24 0 [] stalledAll, by decide⟩,
   ⟨order 0x24 0 [] { online base with
      ldu := { (online base).ldu with zoom := { Axis.reset with st := .moving, move := .rate 100 } } },
    by decide⟩,
   ⟨order 0x25 0 [0] base, 0, by decide⟩,
   ⟨order 0x25 0 [1] base, 1, by decide⟩,
   ⟨order 0x25 0 [1] { base with
      ldu := { base.ldu with owner := .grip, zoom := { Axis.reset with st := .moving, move := .grip 500 } } },
    1, by decide⟩,
   ⟨order 0x25 0 [2] base, 2, by decide⟩,
   ⟨tag3 (hears pushed zoomOrdered), 2000, pushed, by decide, by decide, by decide, by decide, by decide,
    by decide, by decide, by decide, by decide, by decide, by decide, (fun _ h => nomatch h), by decide⟩,
   ⟨hears released zoomGripped, 2000, released, 500, by decide⟩⟩

theorem witness_LensSettings :
  (∃ (s : State) (hard soft : Byte) (window time : Half),
    dispatches s .immediate 38 0 (p1 hard ++ p1 soft ++ p2 window ++ p2 time) = true) ∧
  (∃ (s : State) (hard soft : Byte) (window time : Half),
    dispatches s .immediate 38 0 (p1 hard ++ p1 soft ++ p2 window ++ p2 time) = true) ∧
  (∃ (s : State) (table : Byte) (a : Word),
    dispatches s .immediate 39 0 (p1 table ++ p4 a) = true ∧ s.ldu.link ≠ .online) ∧
  (∃ (s : State) (table : Byte) (a : Word),
    dispatches s .immediate 39 0 (p1 table ++ p4 a) = true ∧ s.ldu.link = .online ∧
    (1 < table.toNat ∨ a.toNat % 4 ≠ 0)) ∧
  (∃ (s : State) (table : Byte) (a : Word),
    dispatches s .immediate 39 0 (p1 table ++ p4 a) = true ∧ s.ldu.link = .online ∧
    (1 < table.toNat ∨ a.toNat % 4 ≠ 0)) ∧
  (∃ (e : Env) (s : State) (table : Byte) (a : Word) (bad : Nat),
    dispatches s .immediate 39 0 (p1 table ++ p4 a) = true ∧ s.ldu.link = .online ∧
    table.toNat ≤ 1 ∧ a.toNat % 4 = 0 ∧ (s.arrive e).busError a.toNat 68 = some bad ∧
    asksNoStop s .commonBus = true) ∧
  (∃ (e : Env) (s : State) (table : Byte) (a : Word),
    dispatches s .immediate 39 0 (p1 table ++ p4 a) = true ∧ s.ldu.link = .online ∧
    a.toNat % 4 = 0 ∧ (s.arrive e).busError a.toNat 68 = none) ∧
  (∃ (e : Env) (s : State) (table : Byte) (a : Word),
    dispatches s .immediate 39 0 (p1 table ++ p4 a) = true ∧ s.ldu.link = .online ∧
    a.toNat % 4 = 0 ∧ (s.arrive e).busError a.toNat 68 = none ∧ table = 1 ∧
    (∀ p ∈ signedPoints s e a, -2048 ≤ p ∧ p ≤ 2047)) ∧
  (∃ (e : Env) (s : State) (table : Byte) (a : Word),
    dispatches s .immediate 39 0 (p1 table ++ p4 a) = true ∧ s.ldu.link = .online ∧
    a.toNat % 4 = 0 ∧ (s.arrive e).busError a.toNat 68 = none) ∧
  (∃ (s : State),
    dispatches s .immediate 40 0 [] = true ∧ s.ldu.link ≠ .online) ∧
  (∃ (s : State),
    dispatches s .immediate 40 0 [] = true ∧ s.ldu.link = .online ∧
    (s.ldu.track.valid = false ∨ s.ldu.focus.moving = true ∨ s.ldu.shot.running = true)) ∧
  (∃ (s : State),
    dispatches s .immediate 40 0 [] = true ∧ s.ldu.link = .online ∧ s.ldu.track.valid = true ∧
    ¬(s.ldu.focus.moving = true ∨ s.ldu.shot.running = true) ∧ s.ldu.focusBased = false ∧
    s.ldu.focus.st ≠ .stalled ∧ s.ldu.view.focusManual = false) ∧
  (∃ (s : State),
    dispatches s .immediate 40 0 [] = true ∧ s.ldu.link = .online ∧ s.ldu.track.valid = true ∧
    ¬(s.ldu.focus.moving = true ∨ s.ldu.shot.running = true) ∧
    (s.ldu.focusBased = true ∨ s.ldu.focus.st = .stalled ∨ s.ldu.view.focusManual = true)) ∧
  (∃ (s : State),
    dispatches s .immediate 41 0 [] = true ∧ (s.ldu.focus.moving = true ∨ s.ldu.shot.running = true)) ∧
  (∃ (s : State),
    dispatches s .immediate 41 0 [] = true ∧ ¬(s.ldu.focus.moving = true ∨ s.ldu.shot.running = true) ∧
    s.ldu.focusBased = true) ∧
  (∃ (s : State),
    dispatches s .immediate 41 0 [] = true ∧ ¬(s.ldu.focus.moving = true ∨ s.ldu.shot.running = true) ∧
    s.ldu.focusBased = false) ∧
  (∃ (s : State) (k : Byte),
    dispatches s .immediate 42 0 (p1 k) = true ∧ s.ldu.link ≠ .online) ∧
  (∃ (s : State) (k : Byte),
    dispatches s .immediate 42 0 (p1 k) = true ∧ s.ldu.link = .online ∧ 2 < k.toNat) ∧
  (∃ (s : State) (k : Byte) (x : AxisId),
    dispatches s .immediate 42 0 (p1 k) = true ∧ s.ldu.link = .online ∧ axisOf k = some x ∧
    (s.ldu.axis x).st ≠ .stalled) ∧
  (∃ (s : State) (k : Byte) (x : AxisId),
    dispatches s .immediate 42 0 (p1 k) = true ∧ s.ldu.link = .online ∧ axisOf k = some x ∧
    (s.ldu.axis x).st = .stalled ∧ (x = .focus → s.ldu.tracking = false)) ∧
  (∃ (s : State),
    scaleInRange s) :=
  ⟨⟨order 0x26 0 (p1 0 ++ p1 201 ++ p2 16 ++ p2 1000) base, 0, 201, 16, 1000, by decide⟩,
   ⟨order 0x26 0 (p1 1 ++ p1 200 ++ p2 1023 ++ p2 10) base, 1, 200, 1023, 10, by decide⟩,
   ⟨order 0x27 0 (p1 0 ++ p4 0x5000) base, 0, 0x5000, by decide⟩,
   ⟨order 0x27 0 (p1 2 ++ p4 0x5000) (online base), 2, 0x5000, by decide⟩,
   ⟨order 0x27 0 (p1 1 ++ p4 0x5002) (online base), 1, 0x5002, by decide⟩,
   ⟨bad 0x5043, order 0x27 0 (p1 1 ++ p4 0x5000) (online base), 1, 0x5000, 0x5043, by decide⟩,
   ⟨e0, order 0x27 0 (p1 0 ++ p4 0x5000) { online base with mem := Memory.writeAll [] 0x5000 table0 }, 0,
    0x5000, by decide⟩,
   ⟨e0, order 0x27 0 (p1 1 ++ p4 0x5000) (online base), 1, 0x5000, by decide⟩,
   ⟨e0, order 0x27 0 (p1 0 ++ p4 0x5000) { online base with mem := Memory.writeAll [] 0x5000 tableDown }, 0,
    0x5000, by decide⟩,
   ⟨order 0x28 0 [] base, by decide⟩,
   ⟨order 0x28 0 [] (online base), by decide⟩,
   ⟨order 0x28 0 [] tracked, by decide⟩,
   ⟨order 0x28 0 [] { tracked with ldu := { tracked.ldu with focusBased := true } }, by decide⟩,
   ⟨order 0x29 0 [] { base with ldu := { base.ldu with shot := .gliding 0 1 9 } }, by decide⟩,
   ⟨order 0x29 0 [] { tracked with ldu := { tracked.ldu with focusBased := true } }, by decide⟩,
   ⟨order 0x29 0 [] base, by decide⟩,
   ⟨order 0x2A 0 [0] base, 0, by decide⟩,
   ⟨order 0x2A 0 [3] (online base), 3, by decide⟩,
   ⟨order 0x2A 0 [2] (online base), 2, .iris, by decide⟩,
   ⟨order 0x2A 0 [2] stalledAll, 2, .iris, by decide⟩,
   ⟨{ base with
      ldu := { base.ldu with
        scale := ⟨true, List.replicate 17 500⟩, view := { base.ldu.view with zoom := 4095 } } }, by decide⟩⟩

theorem witness_ShotsStoredAndTriggered :
  (∃ (s : State) (n source : Byte) (z f i travel dwell : Half),
    dispatches s .immediate 43 0 (p1 n ++ p1 source ++ p2 z ++ p2 f ++ p2 i ++ p2 travel ++ p2 dwell) =
      true ∧
    source = 0) ∧
  (∃ (s : State) (n source : Byte) (z f i travel dwell : Half),
    dispatches s .immediate 43 0 (p1 n ++ p1 source ++ p2 z ++ p2 f ++ p2 i ++ p2 travel ++ p2 dwell) =
      true ∧
    source = 1 ∧ s.ldu.link = .online) ∧
  (∃ (s : State) (n source : Byte) (z f i travel dwell : Half),
    dispatches s .immediate 43 0 (p1 n ++ p1 source ++ p2 z ++ p2 f ++ p2 i ++ p2 travel ++ p2 dwell) =
      true ∧
    source = 1 ∧ s.ldu.link ≠ .online) ∧
  (∃ (s : State) (n source : Byte) (z f i travel dwell : Half),
    dispatches s .immediate 43 0 (p1 n ++ p1 source ++ p2 z ++ p2 f ++ p2 i ++ p2 travel ++ p2 dwell) =
      true ∧
    1 < source.toNat) ∧
  (∃ (s : State) (mode count policy : Byte),
    dispatches s .immediate 44 0 (p1 mode ++ p1 count ++ p1 policy) = true ∧
    (1 < mode.toNat ∨ 1 < policy.toNat)) ∧
  (∃ (s : State) (mode count policy : Byte),
    dispatches s .immediate 44 0 (p1 mode ++ p1 count ++ p1 policy) = true ∧ mode.toNat ≤ 1 ∧
    policy.toNat ≤ 1 ∧ s.ldu.shot.running = true) ∧
  (∃ (s : State) (mode count policy : Byte),
    dispatches s .immediate 44 0 (p1 mode ++ p1 count ++ p1 policy) = true ∧ mode.toNat ≤ 1 ∧
    policy.toNat ≤ 1 ∧ s.ldu.shot.running = false) ∧
  (∃ (s : State) (tag : Byte),
    dispatches s .optional 45 tag [] = true ∧ s.ldu.link ≠ .online) ∧
  (∃ (s : State) (tag : Byte),
    dispatches s .optional 45 tag [] = true ∧ s.ldu.link = .online ∧ s.ldu.triggerTarget = none) ∧
  (∃ (s : State) (tag : Byte) (n : Nat),
    dispatches s .optional 45 tag [] = true ∧ s.ldu.link = .online ∧ s.ldu.triggerTarget = some n ∧
    s.ldu.gripRefuses = true) ∧
  (∃ (s : State) (tag : Byte) (n : Nat),
    dispatches s .optional 45 tag [] = true ∧ s.ldu.link = .online ∧ s.ldu.triggerTarget = some n ∧
    s.ldu.gripRefuses = false ∧ s.ldu.shotMode = .chain ∧ s.ldu.shotPolicy = .ignore ∧
    s.ldu.shot.running = true) ∧
  (∃ (s : State) (tag : Byte) (n : Nat),
    dispatches s .optional 45 tag [] = true ∧ s.ldu.link = .online ∧ s.ldu.triggerTarget = some n ∧
    s.ldu.gripRefuses = false ∧
    ¬(s.ldu.shotMode = .chain ∧ s.ldu.shotPolicy = .ignore ∧ s.ldu.shot.running = true) ∧
    s.ldu.seqTag = 0 ∧ (∀ (x : AxisId), (s.ldu.axis x).tag = 0) ∧ s.ldu.focusBased = false) ∧
  (∃ (s : State) (due : Nat) (r : LensReply) (n k total : Nat),
    s.ldu.timer = some due ∧ s.ldu.link = .online ∧ s.ldu.reply = some r ∧ r.attached = true ∧
    r.rocker.toInt.natAbs ≤ 8 ∧ r.button = false ∧ s.stop.requests = [] ∧
    (∀ (x : AxisId), ↑((s.ldu.axis x).sent - (seenBy s r).actual x).natAbs ≤ s.ldu.stallWindow) ∧
    s.ldu.shot = .gliding n k total ∧ k + 1 < total) ∧
  (∃ (s : State) (due : Nat) (r : LensReply) (n k total : Nat),
    s.ldu.timer = some due ∧ s.ldu.link = .online ∧ s.ldu.reply = some r ∧ r.attached = true ∧
    r.rocker.toInt.natAbs ≤ 8 ∧ r.button = false ∧ s.stop.requests = [] ∧
    (∀ (x : AxisId), ↑((s.ldu.axis x).sent - (seenBy s r).actual x).natAbs ≤ s.ldu.stallWindow) ∧
    s.ldu.shot = .gliding n k total ∧ total ≤ k + 1) ∧
  (∃ (s : State) (due : Nat) (r : LensReply) (n k total : Nat),
    s.ldu.timer = some due ∧ s.ldu.link = .online ∧ s.ldu.reply = some r ∧ r.attached = true ∧
    r.rocker.toInt.natAbs ≤ 8 ∧ r.button = false ∧ s.stop.requests = [] ∧
    (∀ (x : AxisId), ↑((s.ldu.axis x).sent - (seenBy s r).actual x).natAbs ≤ s.ldu.stallWindow) ∧
    s.ldu.shot = .gliding n k total ∧ total ≤ k + 1) ∧
  (∃ (s : State) (due : Nat) (r : LensReply) (n k total : Nat),
    s.ldu.timer = some due ∧ s.ldu.link = .online ∧ s.ldu.reply = some r ∧ r.attached = true ∧
    r.rocker.toInt.natAbs ≤ 8 ∧ r.button = false ∧ s.stop.requests = [] ∧
    (∀ (x : AxisId), ↑((s.ldu.axis x).sent - (seenBy s r).actual x).natAbs ≤ s.ldu.stallWindow) ∧
    s.ldu.shot = .dwelling n k total ∧ k < total) ∧
  (∃ (s : State) (due : Nat) (r : LensReply) (n k total m : Nat),
    s.ldu.timer = some due ∧ s.ldu.link = .online ∧ s.ldu.reply = some r ∧ r.attached = true ∧
    r.rocker.toInt.natAbs ≤ 8 ∧ r.button = false ∧ s.stop.requests = [] ∧
    (∀ (x : AxisId), ↑((s.ldu.axis x).sent - (seenBy s r).actual x).natAbs ≤ s.ldu.stallWindow) ∧
    s.ldu.shot = .dwelling n k total ∧ total ≤ k ∧ s.ldu.nextValid n = some m ∧
    1 < s.ftu.format.rate.updates (s.ldu.shotRec m).travel) :=
  ⟨⟨order 0x2B 0 (p1 4 ++ p1 0 ++ p2 4096 ++ p2 7 ++ p2 8 ++ p2 601 ++ p2 9) base, 4, 0, 4096, 7, 8, 601, 9,
    by decide⟩,
   ⟨order 0x2B 0 (p1 3 ++ p1 1 ++ p2 0 ++ p2 7 ++ p2 8 ++ p2 600 ++ p2 9) (online base), 3, 1, 0, 7, 8, 600, 9,
    by decide⟩,
   ⟨order 0x2B 0 (p1 3 ++ p1 1 ++ p2 0 ++ p2 7 ++ p2 8 ++ p2 600 ++ p2 9) base, 3, 1, 0, 7, 8, 600, 9, by decide⟩,
   ⟨order 0x2B 0 (p1 3 ++ p1 2 ++ p2 0 ++ p2 7 ++ p2 8 ++ p2 600 ++ p2 9) base, 3, 2, 0, 7, 8, 600, 9, by decide⟩,
   ⟨order 0x2C 0 [2, 1, 0] base, 2, 1, 0, by decide⟩,
   ⟨order 0x2C 0 [1, 1, 0] { base with ldu := { base.ldu with shot := .gliding 0 1 9 } }, 1, 1, 0, by decide⟩,
   ⟨order 0x2C 0 [1, 5, 1] base, 1, 5, 1, by decide⟩,
   ⟨order 0x2D 3 [] base, 3, by decide⟩,
   ⟨order 0x2D 3 [] (online base), 3, by decide⟩,
   ⟨order 0x2D 3 [] { shotBase with ldu := { shotBase.ldu with view := manualAll.ldu.view } }, 3, 1, by decide⟩,
   ⟨order 0x2D 3 [] { shotBase with ldu := { shotBase.ldu with shot := .gliding 0 1 9 } }, 3, 1, by decide⟩,
   ⟨order 0x2D 3 [] shotBase, 3, 1, by decide, by decide, by decide, by decide, by decide, by decide,
    forall_axis (by decide) (by decide) (by decide), by decide⟩,
   ⟨hears restReply (framed (.gliding 1 7 9)), 2000, restReply, 1, 7, 9, by decide, by decide, by decide,
    by decide, by decide, by decide, by decide, forall_axis (by decide) (by decide) (by decide), by decide,
    by decide⟩,
   ⟨hears restReply (framed (.gliding 1 8 9)), 2000, restReply, 1, 8, 9, by decide, by decide, by decide,
    by decide, by decide, by decide, by decide, forall_axis (by decide) (by decide) (by decide), by decide,
    by decide⟩,
   ⟨tag3 (hears restReply (framed (.gliding 3 0 1))), 2000, restReply, 3, 0, 1, by decide, by decide,
    by decide, by decide, by decide, by decide, by decide, forall_axis (by decide) (by decide) (by decide),
    by decide, by decide⟩,
   ⟨hears restReply (atRest (.dwelling 1 199 200)), 2000, restReply, 1, 199, 200, by decide, by decide,
    by decide, by decide, by decide, by decide, by decide, forall_axis (by decide) (by decide) (by decide),
    by decide, by decide⟩,
   ⟨hears restReply (atRest (.dwelling 1 200 200)), 2000, restReply, 1, 200, 200, 3, by decide, by decide,
    by decide, by decide, by decide, by decide, by decide, forall_axis (by decide) (by decide) (by decide),
    by decide, by decide, by decide, by decide⟩⟩

theorem witness_PositionMoveNeverPassesItsTarget :
  (∃ (a : Axis) (lo hi p cap : Int),
    a.move = Move.position p cap ∧ 1 ≤ a.step ∧ 1 ≤ cap ∧ lo ≤ p ∧ p ≤ hi ∧ lo ≤ a.demand ∧ a.demand ≤ hi ∧
    0 ≤ a.vel * (p - a.demand)) ∧
  (∃ (a : Axis) (lo hi p cap : Int),
    a.move = Move.position p cap ∧ 1 ≤ a.step ∧ 1 ≤ cap ∧ lo ≤ p ∧ p ≤ hi ∧ lo ≤ a.demand ∧ a.demand ≤ hi ∧
    0 ≤ a.vel * (p - a.demand)) :=
  ⟨⟨{ Axis.reset with move := .position 1000 1, vel := 50 }, 0, 2047500, 1000, 1, by decide⟩,
   ⟨{ Axis.reset with move := .position 1000 400, vel := -50, demand := 5000, step := 7 }, 0, 2047500, 1000,
    400, by decide⟩⟩

theorem witness_GyroSamplesActByTheMode :
  (∃ (s : State),
    s.active = false) ∧
  (∃ (s : State) (yaw pitch : Half),
    s.active = true ∧ s.stop.requests = [] ∧ s.mst.mode = .off ∧
    (yaw.toInt ≠ -32768 ∧ yaw.toInt ≠ 32767 ∧ pitch.toInt ≠ -32768 ∧ pitch.toInt ≠ 32767)) ∧
  (∃ (s : State) (yaw pitch : Half),
    s.active = true ∧ s.stop.requests = [] ∧ s.mst.mode = .on ∧
    (yaw.toInt ≠ -32768 ∧ yaw.toInt ≠ 32767 ∧ pitch.toInt ≠ -32768 ∧ pitch.toInt ≠ 32767)) ∧
  (∃ (e : Env) (s : State),
    s.active = true ∧ s.stop.requests = [] ∧ s.mst.mode = .hold ∧ (resumed s e) < 20) ∧
  (∃ (e : Env) (s : State) (yaw pitch : Half),
    s.active = true ∧ s.stop.requests = [] ∧ s.mst.mode = .hold ∧ 20 ≤ resumed s e ∧
    (yaw.toInt ≠ -32768 ∧ yaw.toInt ≠ 32767 ∧ pitch.toInt ≠ -32768 ∧ pitch.toInt ≠ 32767)) ∧
  (∃ (s : State) (yaw pitch : Half),
    s.active = true ∧ s.stop.requests = [] ∧ s.mst.mode ≠ .hold ∧
    ¬(yaw.toInt ≠ -32768 ∧ yaw.toInt ≠ 32767 ∧ pitch.toInt ≠ -32768 ∧ pitch.toInt ≠ 32767) ∧ s.mst.quiet ≤ 1 ∧
    asksNoStop s .gyroOverrange = true ∧ s.flt.kinds.length = 26) ∧
  (∃ (s : State) (yaw pitch : Half),
    s.active = true ∧ s.stop.requests = [] ∧ s.mst.mode ≠ .hold ∧
    ¬(yaw.toInt ≠ -32768 ∧ yaw.toInt ≠ 32767 ∧ pitch.toInt ≠ -32768 ∧ pitch.toInt ≠ 32767) ∧ s.mst.quiet ≤ 1 ∧
    asksNoStop s .gyroOverrange = true ∧ s.flt.kinds.length = 26) ∧
  (∃ (s : State) (due : Nat),
    s.mst.lossTimer = some due ∧ s.stop.requests = [] ∧ asksNoStop s .gyroLost = true) :=
  ⟨⟨State.reset, by decide⟩,
   ⟨base, 0x8001, 0x7FFE, by decide⟩,
   ⟨mstOn, 5, 7, by decide⟩,
   ⟨e0, mstHold 18, by decide⟩,
   ⟨e0, mstHold 19, 5, 7, by decide⟩,
   ⟨mstOn, 0x8000, 7, by decide⟩,
   ⟨base, 0, 0x7FFF, by decide⟩,
   ⟨mstOn, 9, by decide⟩⟩

theorem witness_CropSentAtAFrameStart :
  (∃ (s : State) (x : FrameStart) (rest : List FrameStart),
    s.mst.arriving = x :: rest ∧ s.mst.mode = .off) ∧
  (∃ (s : State) (x : FrameStart) (rest : List FrameStart),
    s.mst.arriving = x :: rest ∧ s.mst.mode = .hold) ∧
  (∃ (s : State) (x : FrameStart) (rest : List FrameStart),
    s.mst.arriving = x :: rest ∧ s.mst.mode = .on ∧ 0 ≤ s.mst.marginX ∧ 0 ≤ s.mst.marginY ∧
    0 ≤ s.ldu.scaleOffered) :=
  ⟨⟨{ base with mst := { base.mst with arriving := [frameStart 7 false] } }, frameStart 7 false, [], by decide⟩,
   ⟨{ base with mst := { base.mst with mode := .hold, arriving := [frameStart 7 false] } }, frameStart 7 false,
    [], by decide⟩,
   ⟨{ base with
      mst := { base.mst with
        mode := .on, yaw := { base.mst.yaw with acc := 90000000 }, marginY := 0,
        arriving := [frameStart 7 false] } }, frameStart 7 false, [], by decide⟩⟩

theorem witness_StabiliserAndStreamOrders :
  (∃ (s : State) (mode : Byte),
    dispatches s .immediate 64 0 (p1 mode) = true ∧ 1 < mode.toNat) ∧
  (∃ (s : State) (mode : Byte),
    dispatches s .immediate 64 0 (p1 mode) = true ∧ mode = 0 ∧ s.mst.mode ≠ .off) ∧
  (∃ (s : State) (mode : Byte),
    dispatches s .immediate 64 0 (p1 mode) = true ∧ mode = 1 ∧ s.mst.mode = .off) ∧
  (∃ (s : State) (mode : Byte),
    dispatches s .immediate 64 0 (p1 mode) = true ∧
    (mode = 0 ∧ s.mst.mode = .off ∨ mode = 1 ∧ s.mst.mode ≠ .off)) ∧
  (∃ (s : State) (mode : Byte),
    dispatches s .immediate 64 0 (p1 mode) = true ∧
    (mode = 0 ∧ s.mst.mode = .off ∨ mode = 1 ∧ s.mst.mode ≠ .off)) ∧
  (∃ (s : State),
    dispatches s .immediate 65 0 [] = true) ∧
  (∃ (s : State) (x : Half) (y : Byte) (still : Half) (shift : Byte) (enter exit : Half),
    dispatches s .immediate 66 0 (p2 x ++ p1 y ++ p2 still ++ p1 shift ++ p2 enter ++ p2 exit) = true ∧
    s.clipOpen = true ∧ (clampInt 0 256 ↑(x.toNat) ≠ s.mst.marginX ∨ clampInt 0 144 ↑(y.toNat) ≠ s.mst.marginY)) ∧
  (∃ (s : State) (x : Half) (y : Byte) (still : Half) (shift : Byte) (enter exit : Half),
    dispatches s .immediate 66 0 (p2 x ++ p1 y ++ p2 still ++ p1 shift ++ p2 enter ++ p2 exit) = true ∧
    ¬(s.clipOpen = true ∧ (clampInt 0 256 ↑(x.toNat) ≠ s.mst.marginX ∨ clampInt 0 144 ↑(y.toNat) ≠ s.mst.marginY))) ∧
  (∃ (s : State) (x : Half) (y : Byte) (still : Half) (shift : Byte) (enter exit : Half),
    dispatches s .immediate 66 0 (p2 x ++ p1 y ++ p2 still ++ p1 shift ++ p2 enter ++ p2 exit) = true ∧
    ¬(s.clipOpen = true ∧ (clampInt 0 256 ↑(x.toNat) ≠ s.mst.marginX ∨ clampInt 0 144 ↑(y.toNat) ≠ s.mst.marginY))) ∧
  (∃ (s : State) (delay : Byte),
    dispatches s .immediate 80 0 (p1 delay) = true ∧ s.clipOpen = false ∧ s.sta.preOn = false) ∧
  (∃ (s : State) (delay : Byte),
    dispatches s .immediate 80 0 (p1 delay) = true ∧ s.clipOpen = false ∧ s.sta.preOn = false) ∧
  (∃ (s : State) (delay : Byte),
    dispatches s .immediate 80 0 (p1 delay) = true ∧ (s.clipOpen = true ∨ s.sta.preOn = true)) ∧
  (∃ (s : State) (code : Byte) (count : Half),
    dispatches s .immediate 81 0 (p1 code ++ p2 count) = true ∧ 1 < code.toNat) ∧
  (∃ (s : State) (code : Byte) (count : Half),
    dispatches s .immediate 81 0 (p1 code ++ p2 count) = true ∧ code = 1 ∧ s.ftu.mode = .recordRun) ∧
  (∃ (s : State) (code : Byte) (count : Half),
    dispatches s .immediate 81 0 (p1 code ++ p2 count) = true ∧ code = 0) ∧
  (∃ (s : State) (code : Byte) (count : Half),
    dispatches s .immediate 81 0 (p1 code ++ p2 count) = true ∧ code = 1 ∧ s.ftu.mode = .freeRun ∧
    s.sta.preOn = true) ∧
  (∃ (s : State) (code : Byte) (count : Half),
    dispatches s .immediate 81 0 (p1 code ++ p2 count) = true ∧ code = 1 ∧ s.ftu.mode = .freeRun ∧
    s.sta.preOn = false) :=
  ⟨⟨order 0x40 0 [2] base, 2, by decide⟩,
   ⟨order 0x40 0 [0] mstOn, 0, by decide⟩,
   ⟨order 0x40 0 [1] base, 1, by decide⟩,
   ⟨order 0x40 0 [0] base, 0, by decide⟩,
   ⟨order 0x40 0 [1] mstOn, 1, by decide⟩,
   ⟨order 0x41 0 [] base, by decide⟩,
   ⟨order 0x42 0 (p2 257 ++ p1 54 ++ p2 40 ++ p1 12 ++ p2 1 ++ p2 2) recordingA, 257, 54, 40, 12, 1, 2, by decide⟩,
   ⟨order 0x42 0 (p2 256 ++ p1 144 ++ p2 1000 ++ p1 16 ++ p2 0x7FFF ++ p2 0x7FFF) base, 256, 144, 1000, 16,
    0x7FFF, 0x7FFF, by decide⟩,
   ⟨order 0x42 0 (p2 96 ++ p1 54 ++ p2 1001 ++ p1 7 ++ p2 0 ++ p2 2) recordingA, 96, 54, 1001, 7, 0, 2, by decide⟩,
   ⟨order 0x50 0 [6] base, 6, by decide⟩,
   ⟨order 0x50 0 [0] base, 0, by decide⟩,
   ⟨order 0x50 0 [6] recordingA, 6, by decide⟩,
   ⟨order 0x51 0 (p1 2 ++ p2 5) base, 2, 5, by decide⟩,
   ⟨order 0x51 0 (p1 1 ++ p2 5) { base with ftu := { base.ftu with mode := .recordRun } }, 1, 5, by decide⟩,
   ⟨order 0x51 0 (p1 0 ++ p2 600) preOn, 0, 600, by decide⟩,
   ⟨order 0x51 0 (p1 1 ++ p2 601) preOn, 1, 601, by decide⟩,
   ⟨order 0x51 0 (p1 1 ++ p2 600) { base with sta := { base.sta with index := [ix] } }, 1, 600, by decide⟩⟩

theorem witness_AudioSetsFillTheFifo :
  (∃ (s : State),
    s.active = false) ∧
  (∃ (s : State),
    s.active = true ∧ s.stop.requests = [] ∧ s.acu.fifo.length < 4096) ∧
  (∃ (s : State) (t : Nat),
    s.active = true ∧ s.stop.requests = [] ∧ 4096 ≤ s.acu.fifo.length ∧ s.acu.overrunLogged = false ∧
    s.acu.lastStart = some t ∧ asksNoStop s .audioOverrun = true) ∧
  (∃ (s : State),
    s.active = true ∧ s.stop.requests = [] ∧ 4096 ≤ s.acu.fifo.length ∧ s.acu.overrunLogged = true) ∧
  (∃ (s : State) (due : Nat),
    s.acu.clockTimer = some due ∧ s.stop.requests = [] ∧ asksNoStop s .audioClock = true) :=
  ⟨⟨State.reset, by decide⟩,
   ⟨base, by decide⟩,
   ⟨full, 0, by decide⟩,
   ⟨{ full with acu := { full.acu with overrunLogged := true } }, by decide⟩,
   ⟨base, 2000, by decide⟩⟩

theorem witness_AudioOrdersSetPendingSettings :
  (∃ (s : State) (ch source : Byte),
    dispatches s .immediate 72 0 (p1 ch ++ p1 source) = true ∧ (4 < ch.toNat ∨ 2 < source.toNat)) ∧
  (∃ (s : State) (ch source : Byte),
    dispatches s .immediate 72 0 (p1 ch ++ p1 source) = true ∧ ch.toNat ≤ 4 ∧ source.toNat ≤ 2) ∧
  (∃ (s : State) (ch source : Byte),
    dispatches s .immediate 72 0 (p1 ch ++ p1 source) = true ∧ ch.toNat ≤ 4 ∧ source.toNat ≤ 2) ∧
  (∃ (s : State) (ch gain : Byte),
    dispatches s .immediate 73 0 (p1 ch ++ p1 gain) = true ∧ 4 < ch.toNat) ∧
  (∃ (s : State) (ch gain : Byte),
    dispatches s .immediate 73 0 (p1 ch ++ p1 gain) = true ∧ ch.toNat ≤ 4) ∧
  (∃ (s : State) (ch threshold release : Byte),
    dispatches s .immediate 74 0 (p1 ch ++ p1 threshold ++ p1 release) = true ∧ 4 < ch.toNat) ∧
  (∃ (s : State) (ch threshold release : Byte),
    dispatches s .immediate 74 0 (p1 ch ++ p1 threshold ++ p1 release) = true ∧ ch.toNat ≤ 4) ∧
  (∃ (s : State) (ch threshold release : Byte),
    dispatches s .immediate 74 0 (p1 ch ++ p1 threshold ++ p1 release) = true ∧ ch.toNat ≤ 4) ∧
  (∃ (s : State) (level : Byte),
    dispatches s .immediate 75 0 (p1 level) = true ∧ 1 < level.toNat) ∧
  (∃ (s : State) (level : Byte),
    dispatches s .immediate 75 0 (p1 level) = true ∧ level.toNat ≤ 1) :=
  ⟨⟨order 0x48 0 [5, 0] base, 5, 0, by decide⟩,
   ⟨order 0x48 0 [4, 2] base, 4, 2, by decide⟩,
   ⟨order 0x48 0 [0, 1] base, 0, 1, by decide⟩,
   ⟨order 0x49 0 [5, 1] base, 5, 1, by decide⟩,
   ⟨order 0x49 0 [3, 85] base, 3, 85, by decide⟩,
   ⟨order 0x4A 0 [5, 0, 1] base, 5, 0, 1, by decide⟩,
   ⟨order 0x4A 0 [2, 0xEC, 64] base, 2, 0xEC, 64, by decide⟩,
   ⟨order 0x4A 0 [1, 0xEB, 65] base, 1, 0xEB, 65, by decide⟩,
   ⟨order 0x4B 0 [2] base, 2, by decide⟩,
   ⟨order 0x4B 0 [1] base, 1, by decide⟩⟩

theorem witness_SampleThroughAChannel :
  (∃ (m : Nat),
    1 ≤ m ∧ m ≤ 120) ∧
  (∃ (m : Nat),
    1 ≤ m ∧ m ≤ 120) ∧
  (∃ (c : Channel),
    c.now.source = .mute) ∧
  (∃ (c : Channel),
    c.now.source = .tone) ∧
  (∃ (c : Channel) (x : Int),
    c.now.source = .converter ∧ 0 ≤ limitTable.getD (c.now.threshold + 20).toNat 8388607 ∧
    0 ≤ c.limiter ∧
    limitTable.getD (c.now.threshold + 20).toNat 8388607 < |x * gainTable.getD c.now.gain 65536 / 65536 *
      c.limiter / 32768|) ∧
  (∃ (c : Channel) (x : Int),
    c.now.source = .converter ∧ 0 ≤ limitTable.getD (c.now.threshold + 20).toNat 8388607 ∧
    0 ≤ c.limiter ∧
    |x * gainTable.getD c.now.gain 65536 / 65536 * c.limiter / 32768| ≤ limitTable.getD (c.now.threshold +
      20).toNat 8388607) :=
  ⟨⟨1, by decide⟩,
   ⟨120, by decide⟩,
   ⟨{ Channel.reset with now := { ChannelSet.reset with source := .mute } }, by decide⟩,
   ⟨{ Channel.reset with now := { ChannelSet.reset with source := .tone } }, by decide⟩,
   ⟨loud, -8388608, by decide⟩,
   ⟨loud, 7, by decide⟩⟩

theorem witness_AudioBlocksMadeAndStaged :
  (∃ (s : State) (x : FrameStart) (rest : List FrameStart),
    s.acu.arriving = x :: rest ∧ s.acu.writing = none ∧ s.acu.heldStart = none ∧ s.flowsAt x ∧ quiet s = true) ∧
  (∃ (s : State) (x : FrameStart) (rest : List FrameStart),
    s.acu.arriving = x :: rest ∧ s.acu.writing = none ∧ s.acu.heldStart = none ∧ quiet s = true ∧ x.first = true ∧
    s.acu.take = .priming) ∧
  (∃ (s : State) (x : FrameStart) (rest : List FrameStart),
    s.acu.arriving = x :: rest ∧ s.acu.writing = none ∧ s.acu.heldStart = none ∧ quiet s = true ∧ s.blockAt x ∧
    s.acu.take = .priming) ∧
  (∃ (s : State) (x : FrameStart) (rest : List FrameStart),
    s.acu.arriving = x :: rest ∧ s.acu.writing = none ∧ s.acu.heldStart = none ∧ quiet s = true ∧ s.blockAt x ∧
    s.acu.take = .flowing ∧ s.acu.fifo.length < x.ended.cadCount ∧ s.acu.lostMark = true) ∧
  (∃ (s : State) (x : FrameStart) (rest : List FrameStart),
    s.acu.arriving = x :: rest ∧ s.acu.writing = none ∧ s.acu.heldStart = none ∧ quiet s = true ∧ s.blockAt x ∧
    s.acu.take = .flowing ∧ s.acu.fifo.length < x.ended.cadCount ∧ s.acu.lostMark = false ∧
    asksNoStop s .audioUnderrun = true ∧ s.flt.kinds.length = 26) ∧
  (∃ (s : State) (x : FrameStart) (rest : List FrameStart),
    s.acu.arriving = x :: rest ∧ s.acu.writing = none ∧ s.acu.heldStart = none ∧ quiet s = true ∧ s.blockAt x ∧
    s.acu.take = .flowing ∧ s.acu.fifo.length < x.ended.cadCount ∧ s.acu.lostMark = false ∧
    asksNoStop s .audioUnderrun = true ∧ s.flt.kinds.length = 26) ∧
  (∃ (s : State) (x : FrameStart) (rest : List FrameStart) (j : StagingJob),
    s.acu.arriving = x :: rest ∧ s.acu.writing = some j ∧ s.acu.heldStart = none ∧ quiet s = true) ∧
  (∃ (s : State) (x h : FrameStart) (rest : List FrameStart) (j : StagingJob),
    s.acu.arriving = x :: rest ∧ s.acu.writing = some j ∧ s.acu.heldStart = some h ∧ s.flowsAt h ∧ quiet s = true ∧
    s.sta.pending = [] ∧ s.sta.early = [] ∧ notNewer s.sta.newest j.record.frame = true) ∧
  (∃ (e : Env) (s : State) (h : FrameStart) (j : StagingJob),
    s.acu.writing = some j ∧ s.acu.heldStart = some h ∧ s.flowsAt h ∧ quiet s = true ∧ s.sta.pending = [] ∧
    s.sta.early = [] ∧ notNewer s.sta.newest j.record.frame = true ∧
    (s.arrive e).busError j.address j.block.length = none) ∧
  (∃ (e : Env) (s : State) (j : StagingJob) (p : PendingRec),
    s.acu.writing = some j ∧ s.acu.heldStart = none ∧ quiet s = true ∧ Memory.wf s.mem = true ∧
    (s.arrive e).busError j.address j.block.length = none ∧ s.sta.pending = [p] ∧ p.frame.frame = j.record.frame ∧
    j.record.staged = true ∧ s.sta.due p.frame.frame = false) ∧
  (∃ (s : State) (j : StagingJob),
    s.acu.writing = some j ∧ s.acu.heldStart = none ∧ quiet s = true ∧ Memory.wf s.mem = true) :=
  ⟨⟨flowing, ⟨{ FrameRec.reset with frame := 8 }, { FrameRec.reset with frame := 7, cadCount := 2 }, false⟩,
    [], by decide⟩,
   ⟨{ base with acu := { base.acu with arriving := [frameStart 7 true] } }, frameStart 7 true, [], by decide⟩,
   ⟨takes .priming [], soundStart 7, [], by decide⟩,
   ⟨{ takes .flowing [⟨1, 2, 3, 4⟩] with acu := { (takes .flowing [⟨1, 2, 3, 4⟩]).acu with lostMark := true } },
    soundStart 7, [], by decide⟩,
   ⟨takes .flowing [⟨1, 2, 3, 4⟩], soundStart 7, [], by decide⟩,
   ⟨takes .flowing [], soundStart 7, [], by decide⟩,
   ⟨writingWith none [soundStart 8], soundStart 8, [], sjob, by decide⟩,
   ⟨writingWith (some (soundStart 8)) [soundStart 9], soundStart 9, soundStart 8, [], sjob, by decide⟩,
   ⟨e0, writingWith (some (soundStart 8)) [], soundStart 8, sjob, by decide⟩,
   ⟨e0, stagingP, sjob, pend, by decide⟩,
   ⟨staging, sjob, by decide⟩⟩

theorem witness_PendingRecordAppended :
  (∃ (s : State) (x : FrameStart) (rest : List FrameStart),
    s.sta.arriving = x :: rest ∧ quiet s = true ∧ s.sta.early = [] ∧
    (s.sta.copy ≠ none ∨ ∀ (p : PendingRec), s.sta.pending.head? = some p → p.audio = none) ∧ x.first = true) ∧
  (∃ (s : State) (x : FrameStart) (rest : List FrameStart),
    s.sta.arriving = x :: rest ∧ quiet s = true ∧ s.sta.early = [] ∧
    (s.sta.copy ≠ none ∨ ∀ (p : PendingRec), s.sta.pending.head? = some p → p.audio = none) ∧ x.first = false ∧
    s.sta.pending.length < 8) ∧
  (∃ (s : State) (x : FrameStart) (rest : List FrameStart),
    s.sta.arriving = x :: rest ∧ quiet s = true ∧ s.sta.early = [] ∧
    (s.sta.copy ≠ none ∨ ∀ (p : PendingRec), s.sta.pending.head? = some p → p.audio = none) ∧ x.first = false ∧
    8 ≤ s.sta.pending.length ∧ asksNoStop s .streamBehind = true ∧ s.flt.kinds.length = 26) ∧
  (∃ (s : State) (x : FrameStart) (rest : List FrameStart),
    s.sta.arriving = x :: rest ∧ x.first = false ∧ s.sta.pending.length < 8 ∧ s.sta.early = []) ∧
  (∃ (s : State),
    s.sta.copy ≠ none ∨ ∀ (p : PendingRec), s.sta.pending.head? = some p → p.audio = none ∨
      BitVec.toNat (s.sta.newest - p.frame.frame) < s.sta.delay) ∧
  (∃ (s : State) (p : PendingRec) (rest : List PendingRec) (audio : AudioRec) (bad : Nat),
    s.sta.pending = p :: rest ∧ p.audio = some audio ∧ s.sta.copy = none ∧
    s.sta.delay ≤ BitVec.toNat (s.sta.newest - p.frame.frame) ∧
    s.readUnits = Except.error bad ∧
    s.clipOpen = false ∧ s.sta.preOn = false) ∧
  (∃ (s : State) (p : PendingRec) (rest : List PendingRec) (audio : AudioRec) (bad : Nat),
    s.sta.pending = p :: rest ∧ p.audio = some audio ∧ s.sta.copy = none ∧
    s.sta.delay ≤ BitVec.toNat (s.sta.newest - p.frame.frame) ∧
    s.readUnits = Except.error bad ∧
    (s.clipOpen = true ∨ s.sta.preOn = true)) ∧
  (∃ (s : State) (p : PendingRec) (rest : List PendingRec) (audio : AudioRec) (l : List UnitEntry),
    s.sta.pending = p :: rest ∧ p.audio = some audio ∧ s.sta.copy = none ∧
    s.sta.delay ≤ BitVec.toNat (s.sta.newest - p.frame.frame) ∧
    s.readUnits = Except.ok l ∧ s.busErrors = [] ∧
    s.shc.partBase.toNat + 16384 ≤ 4294967296 ∧ s.clipOpen = false ∧ s.sta.preOn = false) ∧
  (∃ (s : State) (p : PendingRec) (rest : List PendingRec) (audio : AudioRec) (l : List UnitEntry),
    s.sta.pending = p :: rest ∧ p.audio = some audio ∧ s.sta.copy = none ∧
    s.sta.delay ≤ BitVec.toNat (s.sta.newest - p.frame.frame) ∧
    s.readUnits = Except.ok l ∧ s.busErrors = [] ∧
    s.shc.partBase.toNat + 16384 ≤ 4294967296 ∧ (s.clipOpen = true ∨ s.sta.preOn = true) ∧
    List.find? (fun k ↦ k.frame == p.frame.frame) l = none) ∧
  (∃ (s : State) (p : PendingRec) (rest : List PendingRec) (audio : AudioRec) (l : List UnitEntry)
      (k : UnitEntry),
    s.sta.pending = p :: rest ∧ p.audio = some audio ∧ s.sta.copy = none ∧
    s.sta.delay ≤ BitVec.toNat (s.sta.newest - p.frame.frame) ∧
    s.readUnits = Except.ok l ∧ s.busErrors = [] ∧
    s.shc.partBase.toNat + 16384 ≤ 4294967296 ∧ (s.clipOpen = true ∨ s.sta.preOn = true) ∧
    List.find? (fun k ↦ k.frame == p.frame.frame) l = some k ∧ 1 ≤ k.length.toNat ∧ k.length.toNat ≤ 1048576 ∧
    k.damaged = false) ∧
  (∃ (s : State) (p : PendingRec) (rest : List PendingRec) (audio : AudioRec) (l : List UnitEntry)
      (k : UnitEntry),
    s.sta.pending = p :: rest ∧ p.audio = some audio ∧ s.sta.copy = none ∧
    s.sta.delay ≤ BitVec.toNat (s.sta.newest - p.frame.frame) ∧
    s.readUnits = Except.ok l ∧ s.busErrors = [] ∧
    s.shc.partBase.toNat + 16384 ≤ 4294967296 ∧ (s.clipOpen = true ∨ s.sta.preOn = true) ∧
    List.find? (fun k ↦ k.frame == p.frame.frame) l = some k ∧
    (k.length = 0 ∨ 1048576 < k.length.toNat ∨ k.damaged = true)) ∧
  (∃ (s : State),
    1024 ≤ s.sta.index.length) ∧
  (∃ (s : State) (g : GroupCopy),
    s.sta.index.length < 1024 ∧ g.unit = none) ∧
  (∃ (s : State) (g : GroupCopy) (v : UsedUnit),
    s.sta.index.length < 1024 ∧ g.unit = some v ∧ 2 * (82 + v.length.toNat + 12 * g.audio.count) + 64 ≤ s.freeSpace) ∧
  (∃ (s : State) (g : GroupCopy) (v : UsedUnit),
    s.sta.index.length < 1024 ∧ g.unit = some v ∧
    s.freeSpace < 2 * (82 + v.length.toNat + 12 * g.audio.count) + 64 ∧ s.busErrors = [] ∧
    s.shc.partBase.toNat + 13312 + 32 * v.entry + 4 ≤ 4294967296) ∧
  (∃ (s : State) (F : FrameNo) (x : SlotId) (c : Clip),
    (s.slot x).st = .recording ∧ (s.slot x).clip = some c ∧ olderFrame F c.first = false) ∧
  (∃ (s : State) (F : FrameNo) (x : SlotId) (c : Clip),
    (s.slot x).st = .recording ∧ (s.slot x).clip = some c ∧ olderFrame F c.first = true) :=
  ⟨⟨due [] true, frameStart 7 true, [], by decide⟩,
   ⟨due (List.replicate 7 { pend with frame := { pend.frame with frame := 100 } }) false, frameStart 7 false,
    [], by decide⟩,
   ⟨{ due (List.replicate 8 pend) false with stop := { base.stop with enable := false } }, frameStart 7 false,
    [], by decide⟩,
   ⟨due [] false, frameStart 7 false, [], by decide⟩,
   ⟨{ handled [] true with sta := { (handled [] true).sta with newest := 9 } }, by decide⟩,
   ⟨{ handled [] false with busErrors := [0x1034F3] }, heard, [next8], arec, 0x1034F3, by decide⟩,
   ⟨{ handled [] true with busErrors := [0x103400] }, heard, [next8], arec, 0x103400, by decide⟩,
   ⟨handled goodTable false, heard, [next8], arec, goodUnits, by decide⟩,
   ⟨handled [] true, heard, [next8], arec, [], by decide⟩,
   ⟨handled goodTable true, heard, [next8], arec, goodUnits, entry1 1048576, by decide⟩,
   ⟨handled longTable true, heard, [next8], arec, [entry1 1048577], entry1 1048577, by decide⟩,
   ⟨{ base with sta := { base.sta with index := List.replicate 1024 ⟨3, 0, 512, 0, 0⟩ } }, by decide⟩,
   ⟨sized 276, gap, by decide⟩,
   ⟨sized 282, unitCopy, ⟨7, 0x900000, 3⟩, by decide⟩,
   ⟨sized 281, unitCopy, ⟨7, 0x900000, 3⟩, by decide⟩,
   ⟨openCopy, 7, .a, reads7, by decide⟩,
   ⟨openCopy, 2, .a, reads7, by decide⟩⟩

theorem witness_GroupCopiedAndIndexed :
  (∃ (e : Env) (s : State) (g : GroupCopy) (picture sound : List Byte),
    s.sta.copy = some g ∧ s.sta.pending = [] ∧ e.errors = [] ∧ Memory.wf s.mem = true ∧
    (∀ (v : UsedUnit), g.unit = some v → v.entry < 8) ∧ s.shc.partBase.toNat + 16384 ≤ 4294967296 ∧
    s.shc.streamBase.toNat + s.shc.streamSize.toNat ≤ 4294967296 ∧ (s.arrive e).readPicture g = Except.ok picture ∧
    (s.arrive e).readSound g = Except.ok sound ∧
    s.sta.writePos + (g.bytes picture sound).length ≤ s.shc.streamSize.toNat ∧ quiet s = true) ∧
  (∃ (e : Env) (s : State) (g : GroupCopy) (picture sound : List Byte),
    s.sta.copy = some g ∧ s.sta.pending = [] ∧ e.errors = [] ∧ Memory.wf s.mem = true ∧
    (∀ (v : UsedUnit), g.unit = some v → v.entry < 8) ∧ s.shc.partBase.toNat + 16384 ≤ 4294967296 ∧
    s.shc.streamBase.toNat + s.shc.streamSize.toNat ≤ 4294967296 ∧ (s.arrive e).readPicture g = Except.ok picture ∧
    (s.arrive e).readSound g = Except.ok sound ∧
    s.sta.writePos + (g.bytes picture sound).length ≤ s.shc.streamSize.toNat ∧ quiet s = true) ∧
  (∃ (e : Env) (s : State) (g : GroupCopy) (picture sound : List Byte) (x : SlotId) (c : Clip),
    s.sta.copy = some g ∧ s.sta.pending = [] ∧ e.errors = [] ∧ Memory.wf s.mem = true ∧
    (∀ (v : UsedUnit), g.unit = some v → v.entry < 8) ∧ s.shc.partBase.toNat + 16384 ≤ 4294967296 ∧
    s.shc.streamBase.toNat + s.shc.streamSize.toNat ≤ 4294967296 ∧ (s.arrive e).readPicture g = Except.ok picture ∧
    (s.arrive e).readSound g = Except.ok sound ∧
    s.sta.writePos + (g.bytes picture sound).length ≤ s.shc.streamSize.toNat ∧ (s.slot x).st = .recording ∧
    (s.slot x).clip = some c ∧ c.openPlaced = true ∧ c.closePlaced = false ∧ c.paused = false ∧ c.endPoint = none ∧
    c.next = g.source.frame.frame ∧ (s.slot x).command ≠ none ∧
    (∀ k ∈ s.sta.index, k.frame ≠ g.source.frame.frame ∧ k.frame ≠ g.source.frame.frame + 1) ∧
    (s.slot (otherSlot x)).idle = true ∧ (s.slot (otherSlot x)).clipOpen = false ∧ s.stop.requests = [] ∧
    s.stop.stopping = false ∧ (g.bytes picture sound).length + 512 ≤ ((s.slot x).heldRoom c).bytes) ∧
  (∃ (e : Env) (s : State) (g : GroupCopy) (picture sound : List Byte) (x : SlotId) (c : Clip),
    s.sta.copy = some g ∧ s.sta.pending = [] ∧ e.errors = [] ∧ Memory.wf s.mem = true ∧
    (∀ (v : UsedUnit), g.unit = some v → v.entry < 8) ∧ s.shc.partBase.toNat + 16384 ≤ 4294967296 ∧
    s.shc.streamBase.toNat + s.shc.streamSize.toNat ≤ 4294967296 ∧ (s.arrive e).readPicture g = Except.ok picture ∧
    (s.arrive e).readSound g = Except.ok sound ∧
    s.sta.writePos + (g.bytes picture sound).length ≤ s.shc.streamSize.toNat ∧ (s.slot x).st = .recording ∧
    (s.slot x).clip = some c ∧ c.openPlaced = true ∧ c.closePlaced = false ∧ c.paused = false ∧ c.endPoint = none ∧
    c.next = g.source.frame.frame ∧ (s.slot x).command ≠ none ∧
    (∀ k ∈ s.sta.index, k.frame ≠ g.source.frame.frame ∧ k.frame ≠ g.source.frame.frame + 1) ∧
    (s.slot (otherSlot x)).idle = true ∧ (s.slot (otherSlot x)).clipOpen = false ∧ s.stop.requests = [] ∧
    s.stop.stopping = false ∧ ((s.slot x).heldRoom c).bytes < (g.bytes picture sound).length + 512 ∧
    ((s.slot x).heldRoom c).bound = none ∧ c.retry = false ∧ asksNoStop s .extentStarved = true ∧
    s.flt.kinds.length = 26) :=
  ⟨⟨e0, copying, gap, [], List.replicate 24 0, by decide⟩,
   ⟨e0, withUnit, { gap with audio := arec, unit := some ⟨7, 0x900000, 3⟩ }, [0,0,0], List.replicate 24 0,
    by decide⟩,
   ⟨e0, openCopy, gap, [], List.replicate 24 0, .a, reads7, by decide⟩,
   ⟨e0, starvedCopy, gap, [], List.replicate 24 0, .a, starvedClip, by decide⟩⟩

theorem witness_GroupCopyBusErrors :
  (∃ (e : Env) (s : State) (g : GroupCopy) (v : UsedUnit),
    s.sta.copy = some g ∧ quiet s = true ∧ asksNoStop s .commonBus = true ∧ g.unit = some v ∧ v.entry < 8 ∧
    e.errors = [] ∧ s.shc.partBase.toNat + 16384 ≤ 4294967296) ∧
  (∃ (s : State) (g : GroupCopy),
    s.sta.copy = some g ∧ quiet s = true ∧ asksNoStop s .commonBus = true ∧ g.audio.staged = true ∧
    g.audioBad = false) ∧
  (∃ (e : Env) (s : State) (g : GroupCopy),
    s.sta.pending ≠ [] ∧ s.sta.copy = some g ∧ quiet s = true ∧ asksNoStop s .commonBus = true ∧
    (∀ (v : UsedUnit), g.unit = some v → v.entry < 8 ∧ e.errors = [] ∧ s.shc.partBase.toNat + 16384 ≤ 4294967296)) ∧
  (∃ (e : Env) (s : State) (g : GroupCopy),
    s.sta.copy = some g ∧ quiet s = true ∧ asksNoStop s .commonBus = true ∧
    (∀ (v : UsedUnit), g.unit = some v → v.entry < 8 ∧ e.errors = [] ∧ s.shc.partBase.toNat + 16384 ≤ 4294967296)) :=
  ⟨⟨e0, withUnit, { gap with audio := arec, unit := some ⟨7, 0x900000, 3⟩ }, ⟨7, 0x900000, 3⟩, by decide⟩,
   ⟨withUnit, { gap with audio := arec, unit := some ⟨7, 0x900000, 3⟩ }, by decide⟩,
   ⟨e0, copyingAhead, gap, by decide⟩,
   ⟨e0, withUnit, { gap with audio := arec, unit := some ⟨7, 0x900000, 3⟩ }, by decide⟩⟩

theorem witness_CardInsertedAndIdentified :
  (∃ (x : SlotId) (s : State),
    s.active = false ∨ (s.slot x).st ≠ .empty) ∧
  (∃ (x : SlotId) (s : State),
    s.active = false ∨ (s.slot x).st ≠ .empty) ∧
  (∃ (x : SlotId) (s : State),
    s.active = true ∧ (s.slot x).st = .empty ∧ quiet s = true ∧ s.cgd.st ≠ .watching) ∧
  (∃ (x : SlotId) (s : State),
    (s.slot x).command = some .identify ∧ (s.slot x).st = .probing ∧ quiet s = true ∧
    s.cgd.st ≠ .watching) :=
  ⟨⟨.b, State.reset, by decide⟩,
   ⟨.a, slotIn { Slot.reset true with st := .full }, by decide⟩,
   ⟨.b, base, by decide⟩,
   ⟨.a, probing, by decide⟩⟩

theorem witness_CardRemovedOrTimedOut :
  (∃ (x : SlotId) (s : State),
    s.active = false ∨ (s.slot x).st = .empty) ∧
  (∃ (x : SlotId) (s : State),
    s.active = true ∧
    (s.slot x).st ∈ [.probing, .ready, .guarded, .full, .faulted] ∧
    quiet s = true ∧ s.cgd.st ≠ .watching) ∧
  (∃ (x : SlotId) (s : State),
    s.active = true ∧ (s.slot x).st ∈ [.recording, .closing, .scanning] ∧
    (s.slot (otherSlot x)).idle = true ∧ (s.slot (otherSlot x)).clipOpen = false ∧ s.stop.requests = [] ∧
    s.stop.stopping = false ∧ s.shc.job = none ∧ asksNoStop s .cardPulled = true ∧ s.flt.kinds.length = 26) ∧
  (∃ (x : SlotId) (s : State),
    s.active = true ∧ (s.slot x).st ∈ [.recording, .closing, .scanning] ∧
    (s.slot (otherSlot x)).idle = true ∧ (s.slot (otherSlot x)).clipOpen = false ∧ s.stop.requests = [] ∧
    s.stop.stopping = false ∧ s.shc.job = none ∧ asksNoStop s .cardPulled = true ∧ s.flt.kinds.length = 26) ∧
  (∃ (x : SlotId) (s : State),
    s.active = true ∧ (s.slot x).st ∈ [.recording, .closing, .scanning] ∧
    (s.slot (otherSlot x)).idle = true ∧ (s.slot (otherSlot x)).clipOpen = false ∧ s.stop.requests = [] ∧
    s.stop.stopping = false ∧ s.shc.job = none ∧ asksNoStop s .cardPulled = true ∧ s.flt.kinds.length = 26) ∧
  (∃ (x : SlotId) (s : State) (due : Nat) (c : CardCommand),
    (s.slot x).timer = some due ∧ (s.slot x).command = some c ∧ (s.slot (otherSlot x)).idle = true ∧
    (s.slot (otherSlot x)).clipOpen = false ∧ s.stop.requests = [] ∧ s.stop.stopping = false ∧ s.shc.job = none ∧
    asksNoStop s .cardTimeout = true ∧ s.flt.kinds.length = 26) ∧
  (∃ (x : SlotId) (s : State) (due : Nat) (c : CardCommand),
    (s.slot x).timer = some due ∧ (s.slot x).command = some c ∧ (s.slot (otherSlot x)).idle = true ∧
    (s.slot (otherSlot x)).clipOpen = false ∧ s.stop.requests = [] ∧ s.stop.stopping = false ∧ s.shc.job = none ∧
    asksNoStop s .cardTimeout = true ∧ s.flt.kinds.length = 26) ∧
  (∃ (s : State),
    s.shc.job = none ∧ s.flt.kinds.length = 26) ∧
  (∃ (x : SlotId) (s : State) (due : Nat) (c : CardCommand),
    (s.slot x).timer = some due ∧ (s.slot x).command = some c ∧ (s.slot x).openTag = 0 ∧ (s.slot x).closeTag = 0 ∧
    (s.slot x).scanTag = 0 ∧ quiet s = true ∧ s.cgd.st ≠ .watching ∧
    asksNoStop s .cardTimeout = true ∧ (s.slot x).clipOpen = false) :=
  ⟨⟨.a, State.reset, by decide⟩,
   ⟨.a, slotIn { Slot.reset true with st := .full }, by decide⟩,
   ⟨.a, { slotIn recSlot with cgd := { base.cgd with st := .watching } }, by decide⟩,
   ⟨.a, closingTag, by decide⟩,
   ⟨.a, scanned, by decide⟩,
   ⟨.a, reading, 500000, .read 7 64, by decide⟩,
   ⟨.a, opening, 500000, .write 1 3 [], by decide⟩,
   ⟨sharedTag, by decide⟩,
   ⟨.a, flushing, 500000, .flush, by decide⟩⟩

theorem witness_WriteAndFlushAnswered :
  (∃ (x : SlotId) (s : State) (c : Clip) (a n : Nat) (d : List Byte),
    (s.slot (otherSlot x)).idle = true ∧ (s.slot (otherSlot x)).clipOpen = false ∧ s.stop.requests = [] ∧
    s.stop.stopping = false ∧ (s.slot x).command = some (.write a n d) ∧
    (s.slot x).st = .closing ∧ (s.slot x).clip = some c ∧ c.closePlaced = true ∧ c.sent = c.placed ∧
    c.openDone = true ∧ c.flushSent = false) ∧
  (∃ (x : SlotId) (s : State) (c : Clip) (a n : Nat) (d : List Byte),
    (s.slot (otherSlot x)).idle = true ∧ (s.slot (otherSlot x)).clipOpen = false ∧ s.stop.requests = [] ∧
    s.stop.stopping = false ∧ (s.slot x).command = some (.write a n d) ∧ (s.slot x).clip = some c ∧
    (s.slot x).clipOpen = true ∧ (s.slot x).openTag = 0 ∧ (s.slot x).closeTag = 0 ∧ (s.slot x).scanTag = 0 ∧
    asksNoStop s .cardWrite = true) ∧
  (∃ (x : SlotId) (s : State),
    (s.slot (otherSlot x)).idle = true ∧ (s.slot (otherSlot x)).clipOpen = false ∧ s.stop.requests = [] ∧
    s.stop.stopping = false ∧ (s.slot x).command = some .flush ∧ (s.slot x).clip = none ∧
    (s.slot x).releasePending = true ∧ ((s.slot x).st = .ready ∨ (s.slot x).st = .full) ∧
    s.cgd.st ≠ .watching) ∧
  (∃ (x : SlotId) (s : State) (c : Clip),
    (s.slot (otherSlot x)).idle = true ∧ (s.slot (otherSlot x)).clipOpen = false ∧ s.stop.requests = [] ∧
    s.stop.stopping = false ∧ (s.slot x).command = some .flush ∧ (s.slot x).clip = some c ∧
    (s.slot x).st = .closing ∧ c.openDone = true ∧ (s.slot x).closeTag = 0 ∧ (s.slot x).openTag = 0 ∧
    (s.slot x).releasePending = false) ∧
  (∃ (x : SlotId) (s : State) (c : Clip) (a n : Nat) (d : List Byte) (o : OpenOrder),
    (s.slot (otherSlot x)).idle = true ∧ (s.slot (otherSlot x)).clipOpen = false ∧ s.stop.requests = [] ∧
    s.stop.stopping = false ∧ s.shc.job = none ∧ (s.slot x).command = some (.write a n d) ∧
    (s.slot x).st = .recording ∧ (s.slot x).clip = some c ∧ c.openPlaced = true ∧ c.openDone = false ∧
    c.openLength ≤ c.sent ∧ (s.slot x).openTag ≠ 0 ∧ s.deck.openOrder = some o ∧ o.waits (otherSlot x) = false ∧
    c.closePlaced = false ∧ c.placed - c.sent < 131072 ∧ c.endPoint = none ∧
    (c.paused = true ∨ ∀ r ∈ s.sta.index, r.frame ≠ c.next)) ∧
  (∃ (x : SlotId) (s : State) (c : Clip),
    (s.slot (otherSlot x)).idle = true ∧ (s.slot (otherSlot x)).clipOpen = false ∧ s.stop.requests = [] ∧
    s.stop.stopping = false ∧ s.shc.job = none ∧ (s.slot x).command = some .flush ∧
    (s.slot x).clip = some c ∧ (s.slot x).st = .closing ∧ (s.slot x).releasePending = false) ∧
  (∃ (x : SlotId) (s : State) (c : Clip) (o : OpenOrder),
    (s.slot x).clip = some c ∧ (s.slot x).openTag ≠ 0 ∧ s.deck.openOrder = some o ∧ o.waits (otherSlot x) = true) ∧
  (∃ (x : SlotId) (s : State) (o : CloseOrder),
    (s.slot x).closeTag ≠ 0 ∧ s.deck.closeOrder = some o ∧ o.waits (otherSlot x) = true) :=
  ⟨⟨.a, closeState closing (.write 1 3 []), closing, 1, 3, [], by decide⟩,
   ⟨.a, { slotIn recSlot with stop := { base.stop with enable := false } }, clip0, 1, 3, [], by decide⟩,
   ⟨.a, slotIn { Slot.reset true with
      st := .full, command := some .flush, timer := some 5, releasePending := true, releaseSent := true },
    by decide⟩,
   ⟨.a, { closeState { closing with flushSent := true, acked := 2048 } .flush with
      cgd := { base.cgd with st := .watching } }, { closing with flushSent := true, acked := 2048 },
    by decide⟩,
   ⟨.a, writingOpen, opened, 1, 3, [], opens false, by decide⟩,
   ⟨.a, flushingBoth, flushed, by decide⟩,
   ⟨.a, ordered true { recSlot with clip := some opened }, opened, opens true, by decide⟩,
   ⟨.a, ordered true recSlot, closes true, by decide⟩⟩

theorem witness_ReadAnsweredDuringAScan :
  (∃ (x : SlotId) (s : State) (a n : Nat),
    (s.slot x).st = .scanning ∧ (s.slot x).clip = none ∧ (s.slot x).releasePending = false ∧
    (s.slot x).command = some (.read a n) ∧ (s.slot x).scan.ended = false ∧
    (s.slot (otherSlot x)).idle = true ∧ s.stop.requests = [] ∧ s.stop.stopping = false ∧ s.shc.job = none ∧
    s.cgd.st ≠ .watching ∧ s.inFlight (s.slot x).scanTag = true) ∧
  (∃ (x : SlotId) (s : State) (a n : Nat) (data : List Byte),
    (s.slot x).st = .scanning ∧ (s.slot x).clip = none ∧ (s.slot x).releasePending = false ∧
    (s.slot x).command = some (.read a n) ∧ (s.slot x).scan.ended = false ∧
    (s.slot (otherSlot x)).idle = true ∧ s.stop.requests = [] ∧ s.stop.stopping = false ∧ s.shc.job = none ∧
    s.cgd.st ≠ .watching ∧ s.inFlight (s.slot x).scanTag = true ∧ data.length = n * 512 ∧
    ((s.slot x).scan.take n data).ended = true) ∧
  (∃ (x : SlotId) (s : State) (a n : Nat) (data : List Byte),
    (s.slot x).st = .scanning ∧ (s.slot x).clip = none ∧ (s.slot x).releasePending = false ∧
    (s.slot x).command = some (.read a n) ∧ (s.slot x).scan.ended = false ∧
    (s.slot (otherSlot x)).idle = true ∧ s.stop.requests = [] ∧ s.stop.stopping = false ∧ s.shc.job = none ∧
    s.cgd.st ≠ .watching ∧ s.inFlight (s.slot x).scanTag = true ∧ data.length = n * 512 ∧
    ((s.slot x).scan.take n data).ended = false ∧
    ((s.slot x).scan.take n data).sectorsRead < ((s.slot x).scan.take n data).count) ∧
  (∃ (c : Scan) (kind flags : Byte) (f : FrameNo) (p rest : List Byte),
    c.ended = false ∧ 1 ≤ kind.toNat ∧ kind.toNat ≤ 7 ∧ p.length < 4294967296 ∧ c.mode = RecogMode.search ∧
    c.bytes = streamBlock kind f p flags ++ rest) ∧
  (∃ (c : Scan) (kind : Byte) (p rest : List Byte) (b : Byte),
    c.ended = false ∧ 1 ≤ kind.toNat ∧ kind.toNat ≤ 7 ∧ p.length < 4294967296 ∧ c.mode = RecogMode.search ∧
    c.bytes = b :: rest ∧ b ≠ 167) ∧
  (∃ (c : Scan) (kind flags : Byte) (f : FrameNo) (p rest : List Byte) (k : Byte) (g : FrameNo)
      (q : List Byte) (x : Byte) (r : List Byte),
    c.ended = false ∧ 1 ≤ kind.toNat ∧ kind.toNat ≤ 7 ∧ p.length < 4294967296 ∧ c.mode = RecogMode.probe ∧
    c.bytes = streamBlock kind f p flags ++ rest ∧ rest = streamBlock k g q x ++ r ∧ 1 ≤ k.toNat ∧ k.toNat ≤ 7) ∧
  (∃ (c : Scan) (kind flags : Byte) (f : FrameNo) (p rest : List Byte) (b : Byte) (r : List Byte),
    c.ended = false ∧ 1 ≤ kind.toNat ∧ kind.toNat ≤ 7 ∧ p.length < 4294967296 ∧ c.mode = RecogMode.probe ∧
    c.bytes = streamBlock kind f p flags ++ rest ∧ rest = b :: r ∧ b ≠ 167) ∧
  (∃ (c : Scan) (kind flags : Byte) (f : FrameNo) (p rest : List Byte),
    c.ended = false ∧ 1 ≤ kind.toNat ∧ kind.toNat ≤ 7 ∧ p.length < 4294967296 ∧ c.mode = RecogMode.probe ∧
    ((∃ w, w ≠ payloadCheck p ∧ c.bytes = 167 :: kind :: stuff (List.drop 1 (headerBytes kind f p.length flags ++
      [headerCheck (headerBytes kind f p.length flags)]) ++ p ++ leBytes 2 w.toNat) ++ rest) ∨
      ∃ n b, p.length < n + 2 ∧ n < 4294967296 ∧ b ≠ 0 ∧ c.bytes = 167 :: kind :: stuff (List.drop 1 (headerBytes
      kind f n flags ++ [headerCheck (headerBytes kind f n flags)]) ++ p) ++ 167 :: b :: rest)) ∧
  (∃ (c : Scan) (kind flags : Byte) (f : FrameNo) (p rest : List Byte),
    c.ended = false ∧ 1 ≤ kind.toNat ∧ kind.toNat ≤ 7 ∧ p.length < 4294967296 ∧ c.mode = RecogMode.locked ∧
    c.bytes = streamBlock kind f p flags ++ rest) ∧
  (∃ (c : Scan) (kind flags : Byte) (f : FrameNo) (p rest : List Byte),
    c.ended = false ∧ 1 ≤ kind.toNat ∧ kind.toNat ≤ 7 ∧ p.length < 4294967296 ∧ c.mode = RecogMode.locked ∧
    ((∃ w, w ≠ payloadCheck p ∧ c.bytes = 167 :: kind :: stuff (List.drop 1 (headerBytes kind f p.length flags ++
      [headerCheck (headerBytes kind f p.length flags)]) ++ p ++ leBytes 2 w.toNat) ++ rest) ∨
      ∃ n b, p.length < n + 2 ∧ n < 4294967296 ∧ b ≠ 0 ∧ c.bytes = 167 :: kind :: stuff (List.drop 1 (headerBytes
      kind f n flags ++ [headerCheck (headerBytes kind f n flags)]) ++ p) ++ 167 :: b :: rest)) ∧
  (∃ (c : Scan) (kind flags : Byte) (f : FrameNo) (p rest : List Byte),
    c.ended = false ∧ 1 ≤ kind.toNat ∧ kind.toNat ≤ 7 ∧ p.length < 4294967296 ∧ c.mode = RecogMode.after ∧
    c.bytes = streamBlock kind f p flags ++ rest) ∧
  (∃ (c : Scan) (kind : Byte) (p rest : List Byte),
    c.ended = false ∧ 1 ≤ kind.toNat ∧ kind.toNat ≤ 7 ∧ p.length < 4294967296 ∧ c.mode = RecogMode.after ∧
    c.bytes = 0 :: rest) ∧
  (∃ (c : Scan) (kind : Byte) (p rest : List Byte) (b : Byte),
    c.ended = false ∧ 1 ≤ kind.toNat ∧ kind.toNat ≤ 7 ∧ p.length < 4294967296 ∧ c.mode = RecogMode.after ∧
    c.bytes = b :: rest ∧ b ≠ 0 ∧ b ≠ 167) ∧
  (∃ (c : Scan) (kind : Byte) (p : List Byte),
    c.ended = false ∧ 1 ≤ kind.toNat ∧ kind.toNat ≤ 7 ∧ p.length < 4294967296 ∧ c.bytes = [] ∧
    c.count ≤ c.sectorsRead ∧ c.mode ≠ RecogMode.probe) :=
  ⟨⟨.a, tag3 (slotIn (scanSlot 2)), 0, 1, by decide⟩,
   ⟨.a, tag3 (slotIn (scanSlot 1)), 0, 1, List.replicate 512 0, by decide⟩,
   ⟨.a, tag3 (slotIn (scanSlot 2)), 0, 1, List.replicate 512 0, by decide⟩,
   ⟨scanIn .search (blockOf 1 ++ [0xFF]), 1, 0, 7, [], [0xFF], by decide⟩,
   ⟨scanIn .search [0, 0xFF], 1, [], [0xFF], 0, by decide⟩,
   ⟨scanIn .probe (blockOf 1 ++ (blockOf 2 ++ [0xFF])), 1, 0, 7, [], blockOf 2 ++ [0xFF], 2, 7, [], 0, [0xFF],
    by decide⟩,
   ⟨scanIn .probe (blockOf 1 ++ [0xFF]), 1, 0, 7, [], [0xFF], 0xFF, [], by decide⟩,
   ⟨scanIn .probe (badBlock ++ [0xFF]), 1, 0, 7, [5, 0xA7], [0xFF], by decide, by decide, by decide, by decide,
    by decide, Or.inl ⟨payloadCheck [5, 0xA7] + 1, by decide, by decide⟩⟩,
   ⟨scanIn .locked (block2 ++ [0xFF]), 1, 0, 7, [5, 0xA7], [0xFF], by decide⟩,
   ⟨scanIn .locked (cutBlock ++ [0xA7, 1, 0xFF]), 1, 0, 7, [5], [0xFF], by decide, by decide, by decide,
    by decide, by decide, Or.inr ⟨2, 1, by decide, by decide, by decide, by decide⟩⟩,
   ⟨scanIn .after (blockOf 1 ++ [0xFF]), 1, 0, 7, [], [0xFF], by decide⟩,
   ⟨scanIn .after [0, 0xFF], 1, [], [0xFF], by decide⟩,
   ⟨scanIn .after [1, 0xFF], 1, [], [0xFF], 1, by decide⟩,
   ⟨scanIn .after [], 1, [], by decide⟩⟩

theorem witness_ExtentsGrantedAndModeSet :
  (∃ (s : State) (slot final : Byte) (a n : Word),
    dispatches s .immediate 96 0 (p1 slot ++ p4 a ++ p4 n ++ p1 final) = true ∧ quiet s = true ∧
    (1 < slot.toNat ∨ 1 < final.toNat)) ∧
  (∃ (s : State) (slot final : Byte) (a n : Word),
    dispatches s .immediate 96 0 (p1 slot ++ p4 a ++ p4 n ++ p1 final) = true ∧ quiet s = true ∧
    (1 < slot.toNat ∨ 1 < final.toNat)) ∧
  (∃ (s : State) (x : SlotId) (slot final : Byte) (a n : Word),
    dispatches s .immediate 96 0 (p1 slot ++ p4 a ++ p4 n ++ p1 final) = true ∧ quiet s = true ∧
    slotOf slot = some x ∧ final.toNat ≤ 1 ∧
    ¬(((s.slot x).st = .ready ∨ (s.slot x).st = .recording ∨ (s.slot x).st = .closing) ∧
      (s.slot x).releasePending = false ∧ (s.slot x).holdsFinal = false ∧ 64 ≤ (s.slot x).capacity)) ∧
  (∃ (s : State) (x : SlotId) (slot final : Byte) (a n : Word),
    dispatches s .immediate 96 0 (p1 slot ++ p4 a ++ p4 n ++ p1 final) = true ∧ quiet s = true ∧
    slotOf slot = some x ∧ final.toNat ≤ 1 ∧
    (((s.slot x).st = .ready ∨ (s.slot x).st = .recording ∨ (s.slot x).st = .closing) ∧
      (s.slot x).releasePending = false ∧ (s.slot x).holdsFinal = false ∧ 64 ≤ (s.slot x).capacity) ∧
    8 ≤ (s.slot x).queue.length) ∧
  (∃ (s : State) (x : SlotId) (slot final : Byte) (a n : Word),
    dispatches s .immediate 96 0 (p1 slot ++ p4 a ++ p4 n ++ p1 final) = true ∧ quiet s = true ∧
    slotOf slot = some x ∧ final.toNat ≤ 1 ∧
    (((s.slot x).st = .ready ∨ (s.slot x).st = .recording ∨ (s.slot x).st = .closing) ∧
      (s.slot x).releasePending = false ∧ (s.slot x).holdsFinal = false ∧ 64 ≤ (s.slot x).capacity) ∧
    (s.slot x).queue.length < 8 ∧
    (∃ h ∈ (s.slot x).held, (grantedExtent (s.slot x).capacity a n (final == 1)).start < h.start + h.count ∧
      h.start < (grantedExtent (s.slot x).capacity a n (final == 1)).start + (grantedExtent (s.slot x).capacity a n
      (final == 1)).count)) ∧
  (∃ (s : State) (x : SlotId) (slot final : Byte) (a n : Word),
    dispatches s .immediate 96 0 (p1 slot ++ p4 a ++ p4 n ++ p1 final) = true ∧ quiet s = true ∧
    slotOf slot = some x ∧ final.toNat ≤ 1 ∧
    (((s.slot x).st = .ready ∨ (s.slot x).st = .recording ∨ (s.slot x).st = .closing) ∧
      (s.slot x).releasePending = false ∧ (s.slot x).holdsFinal = false ∧ 64 ≤ (s.slot x).capacity) ∧
    (s.slot x).queue.length < 8 ∧
    (∀ h ∈ (s.slot x).held, ¬((grantedExtent (s.slot x).capacity a n (final == 1)).start < h.start + h.count ∧
      h.start < (grantedExtent (s.slot x).capacity a n (final == 1)).start + (grantedExtent (s.slot x).capacity a n
      (final == 1)).count))) ∧
  (∃ (s : State) (mode slot : Byte),
    dispatches s .immediate 97 0 (p1 mode ++ p1 slot) = true ∧ (2 < mode.toNat ∨ mode ≠ 1 ∧ 1 < slot.toNat)) ∧
  (∃ (s : State) (mode slot : Byte),
    dispatches s .immediate 97 0 (p1 mode ++ p1 slot) = true ∧ (2 < mode.toNat ∨ mode ≠ 1 ∧ 1 < slot.toNat)) ∧
  (∃ (s : State) (mode slot : Byte),
    dispatches s .immediate 97 0 (p1 mode ++ p1 slot) = true ∧ mode.toNat ≤ 2 ∧
    (mode = 1 ∨ slot.toNat ≤ 1) ∧ s.clipOpen = true) ∧
  (∃ (s : State) (mode slot : Byte) (x : SlotId),
    dispatches s .immediate 97 0 (p1 mode ++ p1 slot) = true ∧ slotOf slot = some x ∧ s.clipOpen = false ∧
    mode = 0) ∧
  (∃ (s : State) (mode slot : Byte) (x : SlotId),
    dispatches s .immediate 97 0 (p1 mode ++ p1 slot) = true ∧ slotOf slot = some x ∧ s.clipOpen = false ∧
    mode = 2) ∧
  (∃ (s : State) (mode slot : Byte),
    dispatches s .immediate 97 0 (p1 mode ++ p1 slot) = true ∧ mode = 1 ∧ s.clipOpen = false) :=
  ⟨⟨order 0x60 0 (g1 2 0 0 64) base, 2, 0, 0, 64, by decide⟩,
   ⟨order 0x60 0 (g1 1 2 0 64) base, 1, 2, 0, 64, by decide⟩,
   ⟨order 0x60 0 (g1 0 1 0 64) (slotIn { rdy with capacity := 63 }), .a, 0, 1, 0, 64, by decide⟩,
   ⟨order 0x60 0 (g1 0 1 0 64) (slotIn { rdy with queue := List.replicate 8 ⟨0, 64, false⟩ }), .a, 0, 1, 0, 64,
    by decide⟩,
   ⟨order 0x60 0 (g1 0 1 0 64) (slotIn { rdy with queue := [⟨63, 64, false⟩] }), .a, 0, 1, 0, 64, by decide⟩,
   ⟨order 0x60 0 (g1 0 1 937 63) (slotIn { rdy with queue := [⟨63, 64, false⟩] }), .a, 0, 1, 937, 63, by decide⟩,
   ⟨order 0x61 0 [3, 0] base, 3, 0, by decide⟩,
   ⟨order 0x61 0 [2, 2] base, 2, 2, by decide⟩,
   ⟨order 0x61 0 [1, 9] (slotIn { rdy with st := .closing }), 1, 9, by decide⟩,
   ⟨order 0x61 0 [0, 1] base, 0, 1, .b, by decide⟩,
   ⟨order 0x61 0 [2, 0] base, 2, 0, .a, by decide⟩,
   ⟨order 0x61 0 [1, 9] base, 1, 9, by decide⟩⟩

theorem witness_ReleaseAndScanBegin :
  (∃ (s : State) (slot : Byte),
    quiet s = true ∧ s.cgd.st ≠ .watching ∧ dispatches s .immediate 100 0 (p1 slot) = true ∧
    1 < slot.toNat) ∧
  (∃ (s : State) (x : SlotId) (slot : Byte),
    quiet s = true ∧ s.cgd.st ≠ .watching ∧ dispatches s .immediate 100 0 (p1 slot) = true ∧
    slotOf slot = some x ∧ (s.slot x).st ≠ .ready ∧ (s.slot x).st ≠ .full) ∧
  (∃ (s : State) (x : SlotId) (slot : Byte),
    quiet s = true ∧ s.cgd.st ≠ .watching ∧ dispatches s .immediate 100 0 (p1 slot) = true ∧
    slotOf slot = some x ∧ ((s.slot x).st = .ready ∨ (s.slot x).st = .full) ∧
    (s.slot x).command = none) ∧
  (∃ (s : State) (slot tag : Byte) (a n : Word),
    quiet s = true ∧ s.cgd.st ≠ .watching ∧
    dispatches s .required 101 tag (p1 slot ++ p4 a ++ p4 n) = true ∧ 1 < slot.toNat) ∧
  (∃ (s : State) (x : SlotId) (slot tag : Byte) (a n : Word),
    quiet s = true ∧ s.cgd.st ≠ .watching ∧
    dispatches s .required 101 tag (p1 slot ++ p4 a ++ p4 n) = true ∧ slotOf slot = some x ∧
    (s.slot x).st ≠ .ready) ∧
  (∃ (s : State) (x : SlotId) (slot tag : Byte) (a n : Word),
    quiet s = true ∧ s.cgd.st ≠ .watching ∧
    dispatches s .required 101 tag (p1 slot ++ p4 a ++ p4 n) = true ∧ slotOf slot = some x ∧
    (s.slot x).st = .ready ∧ (s.slot x).command = none) ∧
  (∃ (s : State) (x : SlotId) (slot tag : Byte) (a n : Word),
    quiet s = true ∧ s.cgd.st ≠ .watching ∧
    dispatches s .required 101 tag (p1 slot ++ p4 a ++ p4 n) = true ∧ slotOf slot = some x ∧
    (s.slot x).st = .ready ∧ (s.slot x).command = none) :=
  ⟨⟨order 0x64 0 [2] base, 2, by decide⟩,
   ⟨order 0x64 0 [0] base, .a, 0, by decide⟩,
   ⟨order 0x64 0 [0] (slotIn { rdy with st := .full }), .a, 0, by decide⟩,
   ⟨order 0x65 3 (p1 2 ++ p4 0 ++ p4 1) base, 2, 3, 0, 1, by decide⟩,
   ⟨order 0x65 3 (p1 0 ++ p4 0 ++ p4 1) base, .a, 0, 3, 0, 1, by decide⟩,
   ⟨order 0x65 32 (p1 0 ++ p4 999 ++ p4 2) (slotIn rdy), .a, 0, 32, 999, 2, by decide⟩,
   ⟨order 0x65 1 (p1 0 ++ p4 0 ++ p4 65) (slotIn rdy), .a, 0, 1, 0, 65, by decide⟩⟩

theorem witness_ClipOpenedAndClosed :
  (∃ (s : State) (tag : Byte) (id cont : Word),
    dispatches s .required 98 tag (p4 id ++ p4 cont) = true ∧ s.cgd.st = .tripped) ∧
  (∃ (s : State) (tag : Byte) (id cont : Word),
    dispatches s .required 98 tag (p4 id ++ p4 cont) = true ∧ s.cgd.st ≠ .tripped ∧
    (id = 0 ∨ s.deck.mode = .relay ∧ (cont = 0 ∨ cont = id))) ∧
  (∃ (s : State) (tag : Byte) (id cont : Word),
    dispatches s .required 98 tag (p4 id ++ p4 cont) = true ∧ s.cgd.st ≠ .tripped ∧
    (id = 0 ∨ s.deck.mode = .relay ∧ (cont = 0 ∨ cont = id))) ∧
  (∃ (s : State) (tag : Byte) (id cont : Word),
    dispatches s .required 98 tag (p4 id ++ p4 cont) = true ∧ s.cgd.st ≠ .tripped ∧
    ¬(id = 0 ∨ s.deck.mode = .relay ∧ (cont = 0 ∨ cont = id)) ∧
    (s.clipOpen = true ∨ (s.slot s.deck.slot).canOpen = false)) ∧
  (∃ (s : State) (tag : Byte) (id cont : Word),
    dispatches s .required 98 tag (p4 id ++ p4 cont) = true ∧ s.cgd.st ≠ .tripped ∧
    ¬(id = 0 ∨ s.deck.mode = .relay ∧ (cont = 0 ∨ cont = id)) ∧ s.deck.mode = .simul ∧
    (s.slotA.canOpen = false ∨ s.slotB.canOpen = false)) ∧
  (∃ (s : State) (tag : Byte) (id cont : Word) (g h : Extent),
    dispatches s .required 98 tag (p4 id ++ p4 cont) = true ∧ s.cgd.st ≠ .tripped ∧
    ¬(id = 0 ∨ s.deck.mode = .relay ∧ (cont = 0 ∨ cont = id)) ∧ s.clipOpen = false ∧
    s.deck.mode = .simul ∧ s.slotA.st = .ready ∧ s.slotB.st = .ready ∧
    s.slotA.current = none ∧ s.slotB.current = none ∧ s.slotA.queue = [g] ∧ s.slotB.queue = [h] ∧ 64 ≤ g.count ∧
    64 ≤ h.count ∧ quiet s = true ∧ s.sta.index = []) ∧
  (∃ (s : State) (tag : Byte) (id cont : Word) (g : Extent),
    dispatches s .required 98 tag (p4 id ++ p4 cont) = true ∧ s.cgd.st ≠ .tripped ∧
    ¬(id = 0 ∨ s.deck.mode = .relay ∧ (cont = 0 ∨ cont = id)) ∧ s.clipOpen = false ∧
    s.deck.mode ≠ .simul ∧ (s.slot s.deck.slot).st = .ready ∧
    (s.slot s.deck.slot).current = none ∧ (s.slot s.deck.slot).queue = [g] ∧ 64 ≤ g.count ∧ quiet s = true ∧
    s.sta.index = []) ∧
  (∃ (s : State) (tag : Byte),
    dispatches s .required 99 tag [] = true ∧ s.slotA.st ≠ .recording ∧
    s.slotB.st ≠ .recording) ∧
  (∃ (s : State) (tag : Byte) (x : SlotId) (c : Clip) (r : IndexRec),
    dispatches s .required 99 tag [] = true ∧ (s.slot x).st = .recording ∧
    (s.slot x).clip = some c ∧ (s.slot x).command ≠ none ∧ c.openPlaced = true ∧ c.closePlaced = false ∧
    s.sta.index.getLast? = some r ∧ (∀ k ∈ s.sta.index, k.frame ≠ c.next) ∧ (s.slot (otherSlot x)).idle = true ∧
    (s.slot (otherSlot x)).clipOpen = false ∧ s.stop.stopping = false) ∧
  (∃ (s : State) (x : SlotId) (c : Clip) (k : FrameNo) (need : Nat),
    (s.slot x).st = .recording ∧ (s.slot x).clip = some c ∧ c.closePlaced = false ∧ c.paused = false ∧
    c.endPoint = none ∧
    (c.openPlaced = true ∧ k = c.next ∧ Option.map (fun r ↦ r.length + 512) (List.find? (fun r ↦ r.frame == k)
      s.sta.index) = some need ∨ c.openPlaced = false ∧ k = c.first ∧
      need = (c.openBlock x s.deck.mode).length + 512) ∧
    s.flt.kinds.length = 26 ∧ s.shc.job = none ∧ ((s.slot x).heldRoom c).bytes < need ∧
    ((s.slot x).heldRoom c).bound = none) ∧
  (∃ (s : State) (x : SlotId) (c : Clip) (k : FrameNo) (need : Nat),
    (s.slot x).st = .recording ∧ (s.slot x).clip = some c ∧ c.closePlaced = false ∧ c.paused = false ∧
    c.endPoint = none ∧
    (c.openPlaced = true ∧ k = c.next ∧ Option.map (fun r ↦ r.length + 512) (List.find? (fun r ↦ r.frame == k)
      s.sta.index) = some need ∨ c.openPlaced = false ∧ k = c.first ∧
      need = (c.openBlock x s.deck.mode).length + 512) ∧
    s.flt.kinds.length = 26 ∧ s.shc.job = none ∧ ((s.slot x).heldRoom c).bytes < need ∧
    ((s.slot x).heldRoom c).bound ≠ none) ∧
  (∃ (s : State) (x : SlotId) (c : Clip) (k : FrameNo) (need : Nat),
    (s.slot x).st = .recording ∧ (s.slot x).clip = some c ∧ c.closePlaced = false ∧ c.paused = false ∧
    c.endPoint = none ∧
    (c.openPlaced = true ∧ k = c.next ∧ Option.map (fun r ↦ r.length + 512) (List.find? (fun r ↦ r.frame == k)
      s.sta.index) = some need ∨ c.openPlaced = false ∧ k = c.first ∧
      need = (c.openBlock x s.deck.mode).length + 512) ∧
    s.flt.kinds.length = 26 ∧ s.shc.job = none ∧ ((s.slot x).heldRoom c).bytes < need ∧
    ((s.slot x).heldRoom c).bound ≠ none) ∧
  (∃ (s : State) (x : SlotId) (c : Clip) (k : FrameNo) (need : Nat),
    (s.slot x).st = .recording ∧ (s.slot x).clip = some c ∧ c.closePlaced = false ∧ c.paused = false ∧
    c.endPoint = none ∧
    (c.openPlaced = true ∧ k = c.next ∧ Option.map (fun r ↦ r.length + 512) (List.find? (fun r ↦ r.frame == k)
      s.sta.index) = some need ∨ c.openPlaced = false ∧ k = c.first ∧
      need = (c.openBlock x s.deck.mode).length + 512) ∧
    s.flt.kinds.length = 26 ∧ s.shc.job = none ∧ ((s.slot x).heldRoom c).bytes < need ∧
    ((s.slot x).heldRoom c).bound ≠ none) ∧
  (∃ (s : State) (x : SlotId) (c : Clip) (k : FrameNo) (need : Nat),
    (s.slot x).st = .recording ∧ (s.slot x).clip = some c ∧ c.closePlaced = false ∧ c.paused = false ∧
    c.endPoint = none ∧
    (c.openPlaced = true ∧ k = c.next ∧ Option.map (fun r ↦ r.length + 512) (List.find? (fun r ↦ r.frame == k)
      s.sta.index) = some need ∨ c.openPlaced = false ∧ k = c.first ∧
      need = (c.openBlock x s.deck.mode).length + 512) ∧
    s.flt.kinds.length = 26 ∧ s.shc.job = none ∧ ((s.slot x).heldRoom c).bytes < need ∧
    ((s.slot x).heldRoom c).bound ≠ none) ∧
  (∃ (s : State) (x : SlotId) (c : Clip) (k : FrameNo) (need : Nat),
    (s.slot x).st = .recording ∧ (s.slot x).clip = some c ∧ c.closePlaced = false ∧ c.paused = false ∧
    c.endPoint = none ∧
    (c.openPlaced = true ∧ k = c.next ∧ Option.map (fun r ↦ r.length + 512) (List.find? (fun r ↦ r.frame == k)
      s.sta.index) = some need ∨ c.openPlaced = false ∧ k = c.first ∧
      need = (c.openBlock x s.deck.mode).length + 512) ∧
    s.flt.kinds.length = 26 ∧ s.shc.job = none ∧ ((s.slot x).heldRoom c).bytes < need ∧
    ((s.slot x).heldRoom c).bound = none) :=
  ⟨⟨{ openState 9 rdy with cgd := { base.cgd with st := .tripped } }, 3, 9, 0, by decide⟩,
   ⟨openState 0 rdy, 3, 0, 0, by decide⟩,
   ⟨{ openState 9 rdy with deck := { base.deck with mode := .relay } }, 3, 9, 0, by decide⟩,
   ⟨openState 9 rdy, 3, 9, 0, by decide⟩,
   ⟨{ openState 9 rdy with deck := { base.deck with mode := .simul } }, 3, 9, 0, by decide⟩,
   ⟨openSimul, 3, 9, 0, ⟨100, 64, false⟩, ⟨200, 64, true⟩, by decide⟩,
   ⟨openState 9 { rdy with queue := [⟨100, 64, false⟩] }, 3, 9, 0, ⟨100, 64, false⟩, by decide⟩,
   ⟨order 0x63 3 [] base, 3, by decide⟩,
   ⟨closingA, 3, .a, clip0, ix4, by decide⟩,
   ⟨fullUp oneGrant .single [] [], .a, clipIn oneGrant, 5, 1024, by decide⟩,
   ⟨fullUp lastGrant .single [] [], .a, clipIn lastGrant, 5, 1024, by decide⟩,
   ⟨fullUp limitReached .single [⟨500, 64, false⟩] [], .a, clipIn limitReached, 5, 1024, by decide⟩,
   ⟨fullUp lastGrant .relay [] [⟨100, 64, false⟩], .a, clipIn lastGrant, 5, 1024, by decide⟩,
   ⟨fullUp lastGrant .relay [] [], .a, clipIn lastGrant, 5, 1024, by decide⟩,
   ⟨waitsToOpen, .a, unopened, 3, (unopened.openBlock .a .single).length + 512, by decide⟩⟩

theorem witness_GuardArmsWatchesAndTrips :
  (∃ (s : State) (limit : Byte),
    dispatches s .immediate 112 0 (p1 limit) = true ∧ s.cgd.st ≠ .off) ∧
  (∃ (s : State) (limit : Byte),
    dispatches s .immediate 112 0 (p1 limit) = true ∧ s.cgd.st = .off) ∧
  (∃ (s : State) (limit : Byte),
    dispatches s .immediate 112 0 (p1 limit) = true ∧ s.cgd.st = .off) ∧
  (∃ (s : State),
    dispatches s .immediate 113 0 [] = true ∧ s.cgd.st ≠ .armed) ∧
  (∃ (s : State),
    dispatches s .immediate 113 0 [] = true ∧ s.cgd.st = .armed) ∧
  (∃ (s : State),
    dispatches s .immediate 117 0 [] = true) ∧
  (∃ (s : State),
    s.cgd.st = .off ∨ s.cgd.st = .tripped) ∧
  (∃ (s : State) (w : Word),
    (s.cgd.st = .armed ∨ s.cgd.st = .watching) ∧ w = s.cgd.expected) ∧
  (∃ (s : State) (w : Word),
    s.cgd.st = .armed ∧ w ≠ s.cgd.expected) ∧
  (∃ (s : State) (w : Word),
    s.cgd.st = .watching ∧ w ≠ s.cgd.expected) ∧
  (∃ (s : State),
    s.shc.part ≠ .running ∨ s.cgd.st = .off ∨ s.cgd.st = .tripped) ∧
  (∃ (s : State),
    s.shc.part = .running ∧ s.cgd.st = .armed ∧ min 65535 (s.cgd.count + 1) = s.cgd.limit ∧
    s.cgd.starved = false) ∧
  (∃ (s : State),
    s.shc.part = .running ∧ s.cgd.st = .armed ∧
    (min 65535 (s.cgd.count + 1) ≠ s.cgd.limit ∨ s.cgd.starved = true)) ∧
  (∃ (s : State),
    s.shc.part = .running ∧ s.cgd.st = .watching ∧ min 65535 (s.cgd.count + 1) < s.cgd.limit) ∧
  (∃ (s : State),
    s.shc.part = .running ∧ s.cgd.st = .watching ∧ s.cgd.limit ≤ min 65535 (s.cgd.count + 1)) :=
  ⟨⟨order 0x70 0 [5] { base with cgd := { base.cgd with st := .armed } }, 5, by decide⟩,
   ⟨order 0x70 0 [121] base, 121, by decide⟩,
   ⟨order 0x70 0 [2] { base with slotA := recSlot }, 2, by decide⟩,
   ⟨order 0x71 0 [] base, by decide⟩,
   ⟨order 0x71 0 [] { base with cgd := { base.cgd with st := .armed } }, by decide⟩,
   ⟨order 0x75 0 [] base, by decide⟩,
   ⟨base, by decide⟩,
   ⟨guarded .watching 5 true, 0x6E19, by decide⟩,
   ⟨guarded .armed 5 true, 0x6E18, by decide⟩,
   ⟨guarded .watching 5 true, 0x6E18, by decide⟩,
   ⟨base, by decide⟩,
   ⟨guarded .armed 11 false, by decide⟩,
   ⟨guarded .armed 12 false, by decide⟩,
   ⟨guarded .watching 10 false, by decide⟩,
   ⟨guarded .watching 11 false, by decide⟩⟩

theorem witness_SafeStopTakesRequests :
  (∃ (s : State),
    dispatches s .immediate 116 0 [] = true ∧ quiet s = true ∧ s.clipOpen = false ∧
    s.shc.part = .running ∧ (∀ (x : AxisId), (s.ldu.axis x).move = Move.none) ∧ s.ldu.shot = .idle) ∧
  (∃ (s : State) (k : StopRecord),
    s.stop.stopping = true ∧ s.stop.record = some k) ∧
  (∃ (s : State) (x : SlotId) (c : Clip) (g : IndexRec),
    s.stop.stopping = false ∧ (s.slot x).st = .recording ∧ (s.slot x).clip = some c ∧
    s.sta.index.getLast? = some g) ∧
  (∃ (s : State) (r : StopSource) (rs : List StopSource),
    s.stop.stopping = false ∧ s.stop.requests = r :: rs) ∧
  (∃ (s : State) (k : StopRecord),
    s.stop.stopping = true ∧ s.stop.record = some k ∧ s.slotA.st ≠ .closing ∧
    s.slotB.st ≠ .closing) ∧
  (∃ (s : State),
    s.stop.stopping = false ∨ s.slotA.st = .closing ∨ s.slotB.st = .closing) :=
  ⟨⟨order 0x74 0 [] base, by decide, by decide, by decide, by decide,
    forall_axis (by decide) (by decide) (by decide), by decide⟩,
   ⟨{ base with
      stop := { stopping := true, enable := false, record := some ⟨.guard, 3, none, 255⟩, requests := [], kept := [] } },
    ⟨.guard, 3, none, 255⟩, by decide⟩,
   ⟨{ base with slotA := recSlot, sta := { base.sta with index := [ix4] } }, .a, clip0, ix4, by decide⟩,
   ⟨{ base with stop := { base.stop with requests := [.fault .streamFull, .order, .guard] } },
    .fault .streamFull, [.order, .guard], by decide⟩,
   ⟨{ base with
      stop := { stopping := true, enable := false, record := some ⟨.guard, 3, none, 1⟩, requests := [], kept := [] } },
    ⟨.guard, 3, none, 1⟩, by decide⟩,
   ⟨base, by decide⟩⟩

theorem witness_ViewfinderStatusAndFrames :
  (∃ (s : State),
    s.active = false) ∧
  (∃ (s : State),
    s.active = true ∧ s.vfl.up = false) ∧
  (∃ (s : State),
    s.active = true ∧ s.vfl.up = true) ∧
  (∃ (s : State) (x : FrameStart) (rest : List FrameStart),
    s.vfl.arriving = x :: rest ∧ s.ownersReady x.opened.frame = false) ∧
  (∃ (s : State) (x : FrameStart) (rest : List FrameStart),
    s.vfl.arriving = x :: rest ∧ s.ownersReady x.opened.frame = true) :=
  ⟨⟨State.reset, by decide⟩,
   ⟨base, by decide⟩,
   ⟨{ base with vfl := { base.vfl with up := true, dirty := [3] } }, by decide⟩,
   ⟨{ vDue with mst := { base.mst with arriving := [frameStart 7 false] } }, frameStart 7 false, [], by decide⟩,
   ⟨vDue, frameStart 7 false, [], by decide⟩⟩

theorem witness_ItemsAndTextsSet :
  (∃ (s : State) (index enable row column width blink inverse colour kind k1 k2 : Byte),
    dispatches s .immediate 120 0 (p1 index ++ p1 enable ++ p1 row ++ p1 column ++ p1 width ++ p1 blink
      ++ p1 inverse ++ p1 colour ++ p1 kind ++ p1 k1 ++ p1 k2) = true ∧
    (¬(enable.toNat ≤ 1 ∧ blink.toNat ≤ 1 ∧ inverse.toNat ≤ 1) ∨ (formOf kind k1 k2) = none)) ∧
  (∃ (s : State) (index enable row column width blink inverse colour kind k1 k2 : Byte),
    dispatches s .immediate 120 0 (p1 index ++ p1 enable ++ p1 row ++ p1 column ++ p1 width ++ p1 blink
      ++ p1 inverse ++ p1 colour ++ p1 kind ++ p1 k1 ++ p1 k2) = true ∧
    (¬(enable.toNat ≤ 1 ∧ blink.toNat ≤ 1 ∧ inverse.toNat ≤ 1) ∨ (formOf kind k1 k2) = none)) ∧
  (∃ (s : State) (index enable row column width blink inverse colour kind k1 k2 : Byte) (k : ItemKind),
    dispatches s .immediate 120 0 (p1 index ++ p1 enable ++ p1 row ++ p1 column ++ p1 width ++ p1 blink
      ++ p1 inverse ++ p1 colour ++ p1 kind ++ p1 k1 ++ p1 k2) = true ∧
    (enable.toNat ≤ 1 ∧ blink.toNat ≤ 1 ∧ inverse.toNat ≤ 1) ∧ (formOf kind k1 k2) = some k) ∧
  (∃ (s : State) (index enable row column width blink inverse colour kind k1 k2 : Byte) (k : ItemKind),
    dispatches s .immediate 120 0 (p1 index ++ p1 enable ++ p1 row ++ p1 column ++ p1 width ++ p1 blink
      ++ p1 inverse ++ p1 colour ++ p1 kind ++ p1 k1 ++ p1 k2) = true ∧
    (enable.toNat ≤ 1 ∧ blink.toNat ≤ 1 ∧ inverse.toNat ≤ 1) ∧ (formOf kind k1 k2) = some k) ∧
  (∃ (s : State) (index enable row column width blink inverse colour kind k1 k2 : Byte) (k : ItemKind),
    dispatches s .immediate 120 0 (p1 index ++ p1 enable ++ p1 row ++ p1 column ++ p1 width ++ p1 blink
      ++ p1 inverse ++ p1 colour ++ p1 kind ++ p1 k1 ++ p1 k2) = true ∧
    (enable.toNat ≤ 1 ∧ blink.toNat ≤ 1 ∧ inverse.toNat ≤ 1) ∧ (formOf kind k1 k2) = some k) ∧
  (∃ (s : State) (index enable row column width blink inverse colour kind k1 k2 : Byte) (k : ItemKind),
    dispatches s .immediate 120 0 (p1 index ++ p1 enable ++ p1 row ++ p1 column ++ p1 width ++ p1 blink
      ++ p1 inverse ++ p1 colour ++ p1 kind ++ p1 k1 ++ p1 k2) = true ∧
    (enable.toNat ≤ 1 ∧ blink.toNat ≤ 1 ∧ inverse.toNat ≤ 1) ∧ (formOf kind k1 k2) = some k) ∧
  (∃ (s : State) (first count : Byte) (a : Word),
    dispatches s .immediate 121 0 (p1 first ++ p1 count ++ p4 a) = true ∧ a.toNat % 4 ≠ 0) ∧
  (∃ (e : Env) (s : State) (first count : Byte) (a : Word) (bad : Nat),
    dispatches s .immediate 121 0 (p1 first ++ p1 count ++ p4 a) = true ∧ a.toNat % 4 = 0 ∧
    (s.arrive e).busError a.toNat (16 * clampNat 1 (64 - min first.toNat 63) count.toNat) = some bad ∧
    asksNoStop s .commonBus = true) ∧
  (∃ (e : Env) (s : State) (first count : Byte) (a : Word),
    dispatches s .immediate 121 0 (p1 first ++ p1 count ++ p4 a) = true ∧ a.toNat % 4 = 0 ∧
    (s.arrive e).busError a.toNat (16 * clampNat 1 (64 - min first.toNat 63) count.toNat) = none ∧
    s.vfl.texts.length = 64) :=
  ⟨⟨it [0,2,0,0,1,0,0,0,0,0,0], 0, 2, 0, 0, 1, 0, 0, 0, 0, 0, 0, by decide⟩,
   ⟨it [0,1,0,0,1,0,0,0,1,15,0], 0, 1, 0, 0, 1, 0, 0, 0, 1, 15, 0, by decide⟩,
   ⟨it [32,1,16,40,41,1,1,4,2,4,41], 32, 1, 16, 40, 41, 1, 1, 4, 2, 4, 41, .meter 4 40, by decide⟩,
   ⟨it [31,1,15,39,1,1,1,3,1,14,2], 31, 1, 15, 39, 1, 1, 1, 3, 1, 14, 2, .value 14 2, by decide⟩,
   ⟨it [31,1,15,38,2,1,1,3,0,64,2], 31, 1, 15, 38, 2, 1, 1, 3, 0, 64, 2, .text 63, by decide⟩,
   ⟨it [31,1,15,38,3,1,1,3,3,64,2], 31, 1, 15, 38, 3, 1, 1, 3, 3, 64, 2, .warning, by decide⟩,
   ⟨order 0x79 0 (p1 62 ++ p1 3 ++ p4 0x5002) base, 62, 3, 0x5002, by decide⟩,
   ⟨bad 0x501F, order 0x79 0 (p1 62 ++ p1 3 ++ p4 0x5000) base, 62, 3, 0x5000, 0x501F, by decide⟩,
   ⟨e0, order 0x79 0 (p1 64 ++ p1 3 ++ p4 0x5000) { base with mem := [(0x5000, 0x41), (0x5001, 0x7F)] }, 64, 3,
    0x5000, by decide⟩⟩

theorem witness_WarningsAndTallySet :
  (∃ (s : State) (action code priority text : Byte) (life : Half),
    dispatches s .immediate 122 0 (p1 action ++ p1 code ++ p1 priority ++ p1 text ++ p2 life) = true ∧
    (1 < action.toNat ∨ code.toNat < 32)) ∧
  (∃ (s : State) (action code priority text : Byte) (life : Half),
    dispatches s .immediate 122 0 (p1 action ++ p1 code ++ p1 priority ++ p1 text ++ p2 life) = true ∧
    32 ≤ code.toNat ∧ action = 0 ∧ (∃ x ∈ s.vfl.warnings, x.code = code.toNat)) ∧
  (∃ (s : State) (action code priority text : Byte) (life : Half),
    dispatches s .immediate 122 0 (p1 action ++ p1 code ++ p1 priority ++ p1 text ++ p2 life) = true ∧
    32 ≤ code.toNat ∧ action = 0 ∧ (¬∃ x ∈ s.vfl.warnings, x.code = code.toNat) ∧ s.vfl.warnings.length < 16) ∧
  (∃ (s : State) (action code priority text : Byte) (life : Half),
    dispatches s .immediate 122 0 (p1 action ++ p1 code ++ p1 priority ++ p1 text ++ p2 life) = true ∧
    32 ≤ code.toNat ∧ action = 0 ∧ (¬∃ x ∈ s.vfl.warnings, x.code = code.toNat) ∧ 16 ≤ s.vfl.warnings.length ∧
    (∀ x ∈ s.vfl.warnings, min priority.toNat 7 ≤ x.priority)) ∧
  (∃ (s : State) (action code priority text : Byte) (life : Half) (old : List Warning) (x : Warning)
      (new : List Warning),
    dispatches s .immediate 122 0 (p1 action ++ p1 code ++ p1 priority ++ p1 text ++ p2 life) = true ∧
    32 ≤ code.toNat ∧ action = 0 ∧ (¬∃ x ∈ s.vfl.warnings, x.code = code.toNat) ∧ 16 ≤ s.vfl.warnings.length ∧
    s.vfl.warnings = old ++ x :: new ∧ x.priority < min priority.toNat 7 ∧ (∀ y ∈ old, x.priority < y.priority) ∧
    (∀ y ∈ new, x.priority ≤ y.priority)) ∧
  (∃ (s : State) (action code priority text : Byte) (life : Half),
    dispatches s .immediate 122 0 (p1 action ++ p1 code ++ p1 priority ++ p1 text ++ p2 life) = true ∧
    32 ≤ code.toNat ∧ action = 1 ∧ (∃ x ∈ s.vfl.warnings, x.code = code.toNat)) ∧
  (∃ (s : State) (action code priority text : Byte) (life : Half),
    dispatches s .immediate 122 0 (p1 action ++ p1 code ++ p1 priority ++ p1 text ++ p2 life) = true ∧
    32 ≤ code.toNat ∧ action = 1 ∧ (¬∃ x ∈ s.vfl.warnings, x.code = code.toNat)) ∧
  (∃ (s : State) (output setting : Byte),
    dispatches s .immediate 123 0 (p1 output ++ p1 setting) = true ∧ (2 < output.toNat ∨ 3 < setting.toNat)) ∧
  (∃ (s : State) (output setting : Byte),
    dispatches s .immediate 123 0 (p1 output ++ p1 setting) = true ∧ output.toNat ≤ 2 ∧ setting.toNat ≤ 3) ∧
  (∃ (s : State) (output setting : Byte),
    dispatches s .immediate 123 0 (p1 output ++ p1 setting) = true ∧ output.toNat ≤ 2 ∧ setting.toNat ≤ 3) :=
  ⟨⟨wn [] [0, 31, 7, 63, 0, 0], 0, 31, 7, 63, 0, by decide⟩,
   ⟨wn [w3] [0, 40, 7, 63, 0, 0], 0, 40, 7, 63, 0, by decide⟩,
   ⟨wn [w3] [0, 41, 8, 64, 0, 0], 0, 41, 8, 64, 0, by decide⟩,
   ⟨wn (List.replicate 16 w3) [0, 41, 3, 64, 0, 0], 0, 41, 3, 64, 0, by decide⟩,
   ⟨wn (List.replicate 16 w3) [0, 41, 4, 64, 0, 0], 0, 41, 4, 64, 0, [], w3, List.replicate 15 w3, by decide⟩,
   ⟨wn [w3] [1, 40, 7, 63, 0, 0], 1, 40, 7, 63, 0, by decide⟩,
   ⟨wn [w3] [1, 41, 7, 63, 0, 0], 1, 41, 7, 63, 0, by decide⟩,
   ⟨order 0x7B 0 [3, 0] base, 3, 0, by decide⟩,
   ⟨order 0x7B 0 [2, 3] base, 2, 3, by decide⟩,
   ⟨order 0x7B 0 [0, 2] base, 0, 2, by decide⟩⟩

theorem witness_OccurrenceIsLogged :
  (∃ (s : State),
    s.flt.kinds.length = 26 ∧ s.shc.tags.length = 32) ∧
  (∃ (s : State),
    s.flt.kinds.length = 26 ∧ s.shc.tags.length = 32) ∧
  (∃ (s : State) (o : Occurrence) (c : Completion),
    s.flt.kinds.length = 26 ∧ s.shc.tags.length = 32 ∧ s.flt.stands o.kind = false ∧ o.completion = some c ∧
    s.openedByJob c.tag = false ∧ s.inFlight c.tag = true) ∧
  (∃ (s : State) (o : Occurrence),
    s.flt.kinds.length = 26 ∧ s.shc.tags.length = 32 ∧
    (s.active = false ∨ (s.flt.entry o.kind).mapping = none ∨ ¬(s.flt.first = none ∨
      (s.flt.entry o.kind).inNext = false))) ∧
  (∃ (s : State) (o : Occurrence) (m : Mapping),
    s.flt.kinds.length = 26 ∧ s.shc.tags.length = 32 ∧ s.active = true ∧ (s.flt.entry o.kind).mapping = some m ∧
    (s.flt.first = none ∨ (s.flt.entry o.kind).inNext = false) ∧ (∃ x ∈ s.vfl.warnings, x.code = o.kind.number)) ∧
  (∃ (s : State) (o : Occurrence) (m : Mapping),
    s.flt.kinds.length = 26 ∧ s.shc.tags.length = 32 ∧ s.active = true ∧ (s.flt.entry o.kind).mapping = some m ∧
    (s.flt.first = none ∨ (s.flt.entry o.kind).inNext = false) ∧ (¬∃ x ∈ s.vfl.warnings, x.code = o.kind.number) ∧
    s.vfl.warnings.length < 16) ∧
  (∃ (s : State) (o : Occurrence) (m : Mapping),
    s.flt.kinds.length = 26 ∧ s.shc.tags.length = 32 ∧ s.active = true ∧ (s.flt.entry o.kind).mapping = some m ∧
    (s.flt.first = none ∨ (s.flt.entry o.kind).inNext = false) ∧ (¬∃ x ∈ s.vfl.warnings, x.code = o.kind.number) ∧
    16 ≤ s.vfl.warnings.length ∧ (∀ x ∈ s.vfl.warnings, m.priority ≤ x.priority)) ∧
  (∃ (s : State) (o : Occurrence) (m : Mapping) (old : List Warning) (x : Warning) (new : List Warning),
    s.flt.kinds.length = 26 ∧ s.shc.tags.length = 32 ∧ s.active = true ∧ (s.flt.entry o.kind).mapping = some m ∧
    (s.flt.first = none ∨ (s.flt.entry o.kind).inNext = false) ∧ (¬∃ x ∈ s.vfl.warnings, x.code = o.kind.number) ∧
    16 ≤ s.vfl.warnings.length ∧ s.vfl.warnings = old ++ x :: new ∧ x.priority < m.priority ∧
    (∀ y ∈ old, x.priority < y.priority) ∧ (∀ y ∈ new, x.priority ≤ y.priority)) :=
  ⟨⟨base, by decide⟩,
   ⟨tag3 { base with flt := { base.flt with first := some .commonBus } }, by decide⟩,
   ⟨tag3 base, ⟨.lensStall, .zoom, 1, 2, some ⟨3, .stalled, 1, 2, 3⟩⟩, ⟨3, .stalled, 1, 2, 3⟩, by decide⟩,
   ⟨base, ⟨.lensStall, .zoom, 1, 2, none⟩, by decide⟩,
   ⟨warned [⟨26, 0, 1, true, 7⟩], ⟨.clipLimit, .slotA, 1, 2, none⟩, ⟨3, 5⟩, by decide⟩,
   ⟨warned [], ⟨.clipLimit, .slotA, 1, 2, none⟩, ⟨3, 5⟩, by decide⟩,
   ⟨warned (sixteen 3), ⟨.clipLimit, .slotA, 1, 2, none⟩, ⟨3, 5⟩, by decide⟩,
   ⟨warned (sixteen 2), ⟨.clipLimit, .slotA, 1, 2, none⟩, ⟨3, 5⟩, [], ⟨100, 2, 1, true, 7⟩, (sixteen 2).drop 1,
    by decide⟩⟩

theorem witness_FaultsClearedAndRouted :
  (∃ (s : State) (p z2 z3 z4 z5 z6 : ClearPlace),
    z2.kind = 0 ∧ z3.kind = 0 ∧ z4.kind = 0 ∧ z5.kind = 0 ∧ z6.kind = 0 ∧ p.kind ≠ 0 ∧ s.flt.kinds.length = 26 ∧
    dispatches s .immediate 124 0 (p3 p ++ p3 z2 ++ p3 z3 ++ p3 z4 ++ p3 z5 ++ p3 z6) = true ∧
    (26 < p.kind.toNat ∨ p.set = 0 ∨ 3 < p.set.toNat)) ∧
  (∃ (s : State) (p z2 z3 z4 z5 z6 : ClearPlace),
    z2.kind = 0 ∧ z3.kind = 0 ∧ z4.kind = 0 ∧ z5.kind = 0 ∧ z6.kind = 0 ∧ p.kind ≠ 0 ∧ s.flt.kinds.length = 26 ∧
    dispatches s .immediate 124 0 (p3 p ++ p3 z2 ++ p3 z3 ++ p3 z4 ++ p3 z5 ++ p3 z6) = true ∧
    (26 < p.kind.toNat ∨ p.set = 0 ∨ 3 < p.set.toNat)) ∧
  (∃ (s : State) (p z2 z3 z4 z5 z6 : ClearPlace) (k : FaultKind),
    z2.kind = 0 ∧ z3.kind = 0 ∧ z4.kind = 0 ∧ z5.kind = 0 ∧ z6.kind = 0 ∧ p.kind ≠ 0 ∧ s.flt.kinds.length = 26 ∧
    dispatches s .immediate 124 0 (p3 p ++ p3 z2 ++ p3 z3 ++ p3 z4 ++ p3 z5 ++ p3 z6) = true ∧
    p.kind.toNat = k.number ∧ 1 ≤ p.set.toNat ∧ p.set.toNat ≤ 3 ∧ (s.flt.entry k).capture.tag ≠ 0) ∧
  (∃ (s : State) (p z2 z3 z4 z5 z6 : ClearPlace) (k : FaultKind),
    z2.kind = 0 ∧ z3.kind = 0 ∧ z4.kind = 0 ∧ z5.kind = 0 ∧ z6.kind = 0 ∧ p.kind ≠ 0 ∧ s.flt.kinds.length = 26 ∧
    dispatches s .immediate 124 0 (p3 p ++ p3 z2 ++ p3 z3 ++ p3 z4 ++ p3 z5 ++ p3 z6) = true ∧
    p.kind.toNat = k.number ∧ 1 ≤ p.set.toNat ∧ p.set.toNat ≤ 3 ∧ (s.flt.entry k).capture.tag = 0 ∧
    (s.flt.entry k).count ≠ p.seen.toNat) ∧
  (∃ (s : State) (p z2 z3 z4 z5 z6 : ClearPlace) (k : FaultKind),
    z2.kind = 0 ∧ z3.kind = 0 ∧ z4.kind = 0 ∧ z5.kind = 0 ∧ z6.kind = 0 ∧ p.kind ≠ 0 ∧ s.flt.kinds.length = 26 ∧
    dispatches s .immediate 124 0 (p3 p ++ p3 z2 ++ p3 z3 ++ p3 z4 ++ p3 z5 ++ p3 z6) = true ∧
    p.kind.toNat = k.number ∧ 1 ≤ p.set.toNat ∧ p.set.toNat ≤ 3 ∧ (s.flt.entry k).capture.tag = 0 ∧
    (s.flt.entry k).count = p.seen.toNat) ∧
  (∃ (s : State) (p z2 z3 z4 z5 z6 : ClearPlace) (k : FaultKind),
    z2.kind = 0 ∧ z3.kind = 0 ∧ z4.kind = 0 ∧ z5.kind = 0 ∧ z6.kind = 0 ∧ p.kind ≠ 0 ∧ s.flt.kinds.length = 26 ∧
    dispatches s .immediate 124 0 (p3 p ++ p3 z2 ++ p3 z3 ++ p3 z4 ++ p3 z5 ++ p3 z6) = true ∧
    p.kind.toNat = k.number ∧ 1 ≤ p.set.toNat ∧ p.set.toNat ≤ 3 ∧ (s.flt.entry k).capture.tag = 0 ∧
    (s.flt.entry k).count = p.seen.toNat) ∧
  (∃ (s : State) (p z2 z3 z4 z5 z6 : ClearPlace) (k : FaultKind),
    z2.kind = 0 ∧ z3.kind = 0 ∧ z4.kind = 0 ∧ z5.kind = 0 ∧ z6.kind = 0 ∧ p.kind ≠ 0 ∧ s.flt.kinds.length = 26 ∧
    dispatches s .immediate 124 0 (p3 p ++ p3 z2 ++ p3 z3 ++ p3 z4 ++ p3 z5 ++ p3 z6) = true ∧
    p.kind.toNat = k.number ∧ 1 ≤ p.set.toNat ∧ p.set.toNat ≤ 3 ∧ (s.flt.entry k).capture.tag = 0 ∧
    (s.flt.entry k).count = p.seen.toNat) ∧
  (∃ (s : State) (kind route mapping priority text : Byte),
    dispatches s .immediate 125 0 (p1 kind ++ p1 route ++ p1 mapping ++ p1 priority ++ p1 text) = true ∧
    (kind = 0 ∨ 26 < kind.toNat ∨ kind = 7 ∨ 2 < route.toNat ∨ 1 < mapping.toNat)) ∧
  (∃ (s : State) (kind route mapping priority text : Byte) (k : FaultKind),
    dispatches s .immediate 125 0 (p1 kind ++ p1 route ++ p1 mapping ++ p1 priority ++ p1 text) = true ∧
    kind.toNat = k.number ∧ k ≠ .guardTrip ∧ route.toNat ≤ 2 ∧ mapping = 0) ∧
  (∃ (s : State) (kind route mapping priority text : Byte) (k : FaultKind),
    dispatches s .immediate 125 0 (p1 kind ++ p1 route ++ p1 mapping ++ p1 priority ++ p1 text) = true ∧
    kind.toNat = k.number ∧ k ≠ .guardTrip ∧ route.toNat ≤ 2 ∧ mapping = 1) :=
  ⟨⟨clear ⟨26, 3, 4⟩ standing, ⟨26, 3, 4⟩, z, z, z, z, z, by decide⟩,
   ⟨clear ⟨27, 3, 3⟩ standing, ⟨27, 3, 3⟩, z, z, z, z, z, by decide⟩,
   ⟨clear ⟨26, 3, 3⟩ { standing with
      flt := { standing.flt with
        kinds := base.flt.kinds.set 25 ⟨true, 3, ⟨5, .slotA, 1, 2, 3⟩, .attention, none⟩ } }, ⟨26, 3, 3⟩,
    z, z, z, z, z, .clipLimit, by decide⟩,
   ⟨clear ⟨26, 2, 3⟩ standing, ⟨26, 2, 3⟩, z, z, z, z, z, .clipLimit, by decide⟩,
   ⟨clear ⟨26, 3, 3⟩ standing, ⟨26, 3, 3⟩, z, z, z, z, z, .clipLimit, by decide⟩,
   ⟨clear ⟨26, 3, 1⟩ standing, ⟨26, 3, 1⟩, z, z, z, z, z, .clipLimit, by decide⟩,
   ⟨clear ⟨26, 3, 2⟩ standing, ⟨26, 3, 2⟩, z, z, z, z, z, .clipLimit, by decide⟩,
   ⟨order 0x7D 0 [7, 0, 0, 0, 0] base, 7, 0, 0, 0, 0, by decide⟩,
   ⟨order 0x7D 0 [26, 2, 0, 0, 0] base, 26, 2, 0, 0, 0, .clipLimit, by decide⟩,
   ⟨order 0x7D 0 [1, 0, 1, 8, 64] base, 1, 0, 1, 8, 64, .refLost, by decide⟩⟩

end Sys2Proof.Tests
end

