-- ==== Sys2Proof/Proofs/Window.lean ====
section
/-! PROOFS. The resets, the register window, completions and the dispatch of an entry (R1 to R5, R9 to R11, R16, R17,
R20, R21): O7, O8, O10 to O14, O26 to O28. -/

namespace Sys2Proof.Machine

/-! ## The resets -/

/-- After power-on reset no capture record names a tag or holds anything (R212). -/
@[simp] theorem Flt.reset_capture (k : FaultKind) : (Flt.reset.entry k).capture = .clear := by
  cases k <;> rfl

/-- Settles O7, field by field of the reset state. -/
theorem resetMeetsTheInvariants : Obligations.ResetMeetsTheInvariants := by
  have captures : capturesHeld State.reset := fun k named =>
    absurd (congrArg Capture.tag (Flt.reset_capture k)) named
  have whole : tagTableWhole State.reset := ⟨List.length_replicate, by simp [State.reset, Shc.reset], rfl⟩
  have scale : scaleInRange State.reset := ⟨fun valid => absurd valid (by decide), by decide, by decide⟩
  exact ⟨rfl, rfl, captures, rfl, rfl, whole, scale⟩

/-- Every tag of the reset table is FREE with an empty record (R5). -/
theorem State.tagRec_free {s : State} {m : Nat} (h : s.shc.tags = List.replicate m .free) (n : Nat) :
    s.tagRec n = .free := by
  unfold State.tagRec
  rw [h, List.getD_eq_getElem?_getD, List.getElem?_replicate]
  split <;> rfl

/-- No kind of an empty Fault Log stands, so ATTENTION.FAULT reads 0 (R205). -/
theorem State.faultCause_reset {s : State} (h : s.flt = .reset) : s.faultCause = false := by
  unfold State.faultCause
  rw [h]
  rfl

/-- Settles O8: every register reads 0 because the SHC and the Fault Log are in their reset state. -/
theorem powerOnResetPutsEveryBlockInItsResetState :
    Obligations.PowerOnResetPutsEveryBlockInItsResetState := by
  intro e s
  have tags := State.tagRec_free (s := (s.arrive e).powerOn) (m := 32) rfl
  have quietLog : (s.arrive e).powerOn.faultCause = false := State.faultCause_reset rfl
  have attention : (s.arrive e).powerOn.readAttention = 0 := by
    unfold State.readAttention
    rw [quietLog]
    rfl
  have line : (s.arrive e).powerOn.attentionLine = false := by
    unfold State.attentionLine
    rw [quietLog]
    rfl
  exact ⟨_, rfl, rfl, rfl, rfl, rfl, attention, line, rfl, tags, rfl, rfl, rfl, rfl, rfl, rfl, rfl, rfl, rfl, rfl,
    rfl, rfl, rfl, rfl, rfl⟩

/-- A tag through the reset of R11: a HELD tag keeps its record and any other is FREE. -/
theorem TagRec.afterReset_of_held {r : TagRec} (h : r.st = .held) : r.afterReset = r := if_pos h

theorem TagRec.afterReset_of_not_held {r : TagRec} (h : r.st ≠ .held) : r.afterReset = .free := if_neg h

/-- Where the whole table goes through the reset of R11, each tag does. -/
theorem State.tagRec_afterReset {s t : State} (h : t.shc.tags = s.shc.tags.map TagRec.afterReset) (n : Nat) :
    t.tagRec n = (s.tagRec n).afterReset := by
  unfold State.tagRec
  rw [h]
  exact List.getD_map (f := TagRec.afterReset) (d := TagRec.free) ..

/-- Settles O13: the tags go through the reset one by one, and every other field is the reset's own. -/
theorem softResetKeepsTheRecordOfFaultsAndHeldTags :
    Obligations.SoftResetKeepsTheRecordOfFaultsAndHeldTags := by
  intro s
  have tags := State.tagRec_afterReset (s := s) (t := s.softReset) rfl
  have held (n : Nat) (h : (s.tagRec n).st = .held) : s.softReset.tagRec n = s.tagRec n :=
    (tags n).trans (TagRec.afterReset_of_held h)
  have freed (n : Nat) (h : (s.tagRec n).st ≠ .held) : s.softReset.tagRec n = .free :=
    (tags n).trans (TagRec.afterReset_of_not_held h)
  exact ⟨rfl, rfl, rfl, rfl, rfl, rfl, rfl, rfl, rfl, rfl, rfl, rfl, rfl, rfl, held, freed, rfl, rfl, rfl, rfl, rfl,
    rfl, rfl, rfl, rfl, rfl, rfl⟩

/-! ## The register window -/

/-- Settles O10. -/
theorem partBaseWrittenWhileHalted : Obligations.PartBaseWrittenWhileHalted := by
  refine ⟨?halted, ?otherwise, fun s => ⟨rfl, rfl, rfl⟩⟩
  case halted =>
    intro e v s halted
    exact congrArg Host.Outcome.next (if_pos halted)
  case otherwise =>
    intro e v s running
    exact congrArg Host.Outcome.next (if_neg running)

/-- Setting a bit that is set changes no word. -/
theorem or_twoPow_of_bit {v : Word} {i : Nat} (h : v.getLsbD i = true) : v ||| BitVec.twoPow 32 i = v := by
  ext j hj
  by_cases e : j = i
  · subst e
    have set : v[j] = true := by simpa [BitVec.getLsbD_eq_getElem hj] using h
    simp [set]
  · simp [BitVec.getElem_twoPow, e]

/-- Clearing a bit that is clear changes no word. -/
theorem and_not_twoPow_of_bit {v : Word} {i : Nat} (h : v.getLsbD i = false) :
    v &&& ~~~BitVec.twoPow 32 i = v := by
  ext j hj
  by_cases e : j = i
  · subst e
    have clear : v[j] = false := by simpa [BitVec.getLsbD_eq_getElem hj] using h
    simp [clear]
  · simp [BitVec.getElem_twoPow, e]

/-- Each command that writes PART_CONTROL is the write of its word, where the word has the bit that names the command
(R2). -/
theorem execRunSet_eq (e : Env) {v : Word} (s : State) (h : v.getLsbD 0 = true) :
    exec (.runSet e v) s = .next ((s.arrive e).writePartControl v) := by
  show Host.Outcome.next ((s.arrive e).writePartControl (v ||| BitVec.twoPow 32 0)) = _
  rw [or_twoPow_of_bit h]

theorem execRunClear_eq (e : Env) {v : Word} (s : State) (h : v.getLsbD 0 = false) :
    exec (.runClear e v) s = .next ((s.arrive e).writePartControl v) := by
  show Host.Outcome.next ((s.arrive e).writePartControl (v &&& ~~~BitVec.twoPow 32 0)) = _
  rw [and_not_twoPow_of_bit h]

theorem execSoftReset_eq (e : Env) {v : Word} (s : State) (h : v.getLsbD 1 = true) :
    exec (.softReset e v) s = .next ((s.arrive e).writePartControl v) := by
  show Host.Outcome.next ((s.arrive e).writePartControl (v ||| BitVec.twoPow 32 1)) = _
  rw [or_twoPow_of_bit h]

/-- What a write to PART_CONTROL leaves before a reset request of it acts: the enables, RUN and the part state
(R2). -/
def State.controlWritten (s : State) (v : Word) : State :=
  { s with
    shc := { s.shc with
      reportEn := v.getLsbD 4, faultEn := v.getLsbD 5, safeEn := v.getLsbD 6
      run := s.shc.nextRun (v.getLsbD 0)
      part := if v.getLsbD 0 && s.shc.part == .halted then .starting else s.shc.part } }

theorem State.writePartControl_eq (s : State) (v : Word) :
    s.writePartControl v =
      if s.shc.asksReset (v.getLsbD 0) (v.getLsbD 1) then (s.controlWritten v).requestReset.judgeSlots s
      else s.controlWritten v := rfl

/-- RUN as 1 starts a HALTED part, and has no effect elsewhere (R2). -/
theorem State.controlWritten_start {s : State} {v : Word} (run : v.getLsbD 0 = true) (p : s.shc.part = .halted) :
    s.controlWritten v = { s with
      shc := { s.shc with
        run := true, part := .starting
        reportEn := v.getLsbD 4, faultEn := v.getLsbD 5, safeEn := v.getLsbD 6 } } := by
  unfold State.controlWritten
  rw [run, p]
  simp [Shc.nextRun, p]

theorem State.controlWritten_run {s : State} {v : Word} (run : v.getLsbD 0 = true) (p : s.shc.part ≠ .halted) :
    s.controlWritten v = { s with
      shc := { s.shc with
        reportEn := v.getLsbD 4, faultEn := v.getLsbD 5, safeEn := v.getLsbD 6 } } := by
  unfold State.controlWritten
  rw [run]
  simp [Shc.nextRun, p]

/-- RUN as 0 leaves it as it stands in HALTED, and makes it 0 elsewhere (R2). -/
theorem State.controlWritten_halted {s : State} {v : Word} (run : v.getLsbD 0 = false) (p : s.shc.part = .halted) :
    s.controlWritten v = { s with
      shc := { s.shc with
        reportEn := v.getLsbD 4, faultEn := v.getLsbD 5, safeEn := v.getLsbD 6 } } := by
  unfold State.controlWritten
  rw [run]
  simp [Shc.nextRun, p]

theorem State.controlWritten_stop {s : State} {v : Word} (run : v.getLsbD 0 = false) (p : s.shc.part ≠ .halted) :
    s.controlWritten v = { s with
      shc := { s.shc with
        run := false, reportEn := v.getLsbD 4, faultEn := v.getLsbD 5, safeEn := v.getLsbD 6 } } := by
  unfold State.controlWritten
  rw [run]
  simp [Shc.nextRun, p]

/-- With SOFT_RESET 0, a write asks for a reset where RUN is 0 in a part that is not HALTED (R2, R9). -/
theorem Shc.asksReset_iff {c : Shc} {run : Bool} :
    c.asksReset run false = true ↔ run = false ∧ c.part ≠ .halted := by
  simp [Shc.asksReset]

/-- A soft reset request outside RUNNING and RESETTING is the reset (R9). -/
theorem State.requestReset_stopped {s : State} (hr : s.shc.part ≠ .running) (hs : s.shc.part ≠ .resetting) :
    s.requestReset = s.softReset := by
  unfold State.requestReset
  cases h : s.shc.part <;> simp_all

/-- A soft reset request in RESETTING has no effect (R9). -/
theorem State.requestReset_resetting {s : State} (h : s.shc.part = .resetting) : s.requestReset = s := by
  unfold State.requestReset
  rw [h]

/-- A write for the enables acts on RUN and SOFT_RESET as the command for those bits does (log 5). -/
theorem exec_enables_eq (e : Env) (v : Word) (s : State) : exec (.attentionEnableWrite e v) s =
    if v.getLsbD 1 then exec (.softReset e v) s
    else if v.getLsbD 0 then exec (.runSet e v) s else exec (.runClear e v) s := by
  show Host.Outcome.next ((s.arrive e).writePartControl v) = _
  split
  next reset => exact (execSoftReset_eq e s reset).symm
  next =>
    split
    next run => exact (execRunSet_eq e s run).symm
    next run => exact (execRunClear_eq e s (by simpa using run)).symm

/-- A write that asks for no reset leaves the word's fields alone. -/
theorem State.writePartControl_noReset {s : State} {v : Word} (reset : v.getLsbD 1 = false)
    (h : v.getLsbD 0 = true ∨ s.shc.part = .halted) : s.writePartControl v = s.controlWritten v := by
  rw [State.writePartControl_eq, reset, if_neg]
  rw [Shc.asksReset_iff]
  rintro ⟨run, p⟩
  rcases h with h | h
  · rw [run] at h
    cases h
  · exact p h

/-- A write for the enables, RUN written as it stands. -/
theorem exec_enables_only (e : Env) (v : Word) (s : State) (reset : v.getLsbD 1 = false)
    (run : (v.getLsbD 0 = true ∧ s.shc.part ≠ .halted) ∨ (v.getLsbD 0 = false ∧ s.shc.part = .halted)) :
    exec (.attentionEnableWrite e v) s = .next { s.arrive e with
      shc := { s.shc with reportEn := v.getLsbD 4, faultEn := v.getLsbD 5, safeEn := v.getLsbD 6 } } := by
  have noReset : (s.arrive e).writePartControl v = (s.arrive e).controlWritten v :=
    State.writePartControl_noReset reset (run.imp And.left And.right)
  refine congrArg Host.Outcome.next (noReset.trans ?_)
  rcases run with ⟨run, p⟩ | ⟨run, p⟩
  · exact State.controlWritten_run run p
  · exact State.controlWritten_halted run p

/-- A write that asks for a reset: the fields of the word, then the request, then the tally outputs (R2, R9, R197). -/
theorem State.writePartControl_asks {s : State} {v : Word} {u : State}
    (asks : s.shc.asksReset (v.getLsbD 0) (v.getLsbD 1) = true) (written : s.controlWritten v = u) :
    s.writePartControl v = u.requestReset.judgeSlots u := by
  rw [State.writePartControl_eq, if_pos asks, ← written]
  rfl

/-- RUN as 0 is a soft reset request but where the part state gives none (R2, R9). -/
theorem exec_runClear (e : Env) (v : Word) (s : State) (run : v.getLsbD 0 = false) (reset : v.getLsbD 1 = false) :
    let c : Shc := { s.shc with reportEn := v.getLsbD 4, faultEn := v.getLsbD 5, safeEn := v.getLsbD 6 }
    let u : State := { s.arrive e with shc := { c with run := false } }
    exec (.runClear e v) s = .next
      (match s.shc.part with
       | .halted => { s.arrive e with shc := c }
       | .resetting => u
       | .running => u.requestReset.judgeSlots u
       | .starting => u.softReset
       | .startFailed => u.softReset) := by
  intro c u
  rw [execRunClear_eq e s run]
  refine congrArg Host.Outcome.next ?_
  by_cases halted : s.shc.part = .halted
  · rw [State.writePartControl_noReset (s := s.arrive e) reset (.inr halted),
      State.controlWritten_halted (s := s.arrive e) run halted, halted]
    rfl
  · have written : (s.arrive e).controlWritten v = u := State.controlWritten_stop run halted
    rw [State.writePartControl_asks (by rw [reset]; exact Shc.asksReset_iff.mpr ⟨run, halted⟩) written]
    have part : u.shc.part = s.shc.part := rfl
    cases p : s.shc.part with
    | halted => exact absurd p halted
    | running => rfl
    | resetting => rw [State.requestReset_resetting (part.trans p), State.judgeSlots_self]
    | starting | startFailed =>
      rw [State.requestReset_stopped (by simp [part, p]) (by simp [part, p]), State.judgeSlots_softReset]

/-- SOFT_RESET as 1 is a soft reset request, after RUN has taken its bit; in HALTED the reset wins (R9, log 5). -/
theorem exec_softReset (e : Env) (v : Word) (s : State) (reset : v.getLsbD 1 = true) :
    let u : State := { s.arrive e with
      shc := { s.shc with run := s.shc.run && v.getLsbD 0, reportEn := v.getLsbD 4, faultEn := v.getLsbD 5,
                          safeEn := v.getLsbD 6 } }
    exec (.softReset e v) s = .next
      (match s.shc.part with
       | .resetting => u
       | .running => u.requestReset.judgeSlots u
       | _ => u.softReset) := by
  intro u
  rw [execSoftReset_eq e s reset]
  refine congrArg Host.Outcome.next ?_
  rw [State.writePartControl_asks (by rw [reset]; rfl) rfl]
  have resets (hr : s.shc.part ≠ .running) (hs : s.shc.part ≠ .resetting) :
      ((s.arrive e).controlWritten v).requestReset.judgeSlots ((s.arrive e).controlWritten v) = u.softReset := by
    rw [State.requestReset_stopped, State.judgeSlots_softReset]
    · rfl
    all_goals
      unfold State.controlWritten
      dsimp only
      split <;> simp_all
  have written (running : s.shc.part ≠ .halted) : (s.arrive e).controlWritten v = u := by
    cases run : v.getLsbD 0 with
    | true => simp only [State.controlWritten_run run (s := s.arrive e) running, u, run, Bool.and_true]; rfl
    | false => simp only [State.controlWritten_stop run (s := s.arrive e) running, u, run, Bool.and_false]; rfl
  cases p : s.shc.part with
  | halted | starting | startFailed => exact resets (by simp [p]) (by simp [p])
  | running => rw [written (by simp [p])]
  | resetting =>
    rw [written (by simp [p]), State.requestReset_resetting (s := u) p, State.judgeSlots_self]

/-- Settles O11, one lemma for each of its clauses. -/
theorem partControlWrites : Obligations.PartControlWrites := by
  refine ⟨⟨exec_enables_only, exec_enables_eq, ?starts, ?stands⟩, exec_runClear, exec_softReset, ?both, ?cleared⟩
  case starts =>
    intro e v s run reset halted
    rw [execRunSet_eq e s run, State.writePartControl_noReset (s := s.arrive e) reset (.inl run),
      State.controlWritten_start (s := s.arrive e) run halted]
    rfl
  case stands =>
    intro e v s run reset running
    rw [execRunSet_eq e s run, State.writePartControl_noReset (s := s.arrive e) reset (.inl run),
      State.controlWritten_run (s := s.arrive e) run running]
    rfl
  case both =>
    intro e v s run reset
    rw [execRunSet_eq e s run, execSoftReset_eq e s reset]
  case cleared =>
    intro e v s run reset
    rw [execRunClear_eq e s run, execSoftReset_eq e s reset]

/-- The part is busy while a sheet is in dispatch or a report in writing (R9). -/
theorem State.shcBusy_eq_true {s : State} : s.shcBusy = true ↔ s.shc.job ≠ none ∨ s.shc.reports ≠ [] := by
  simp [State.shcBusy, Option.isSome_iff_ne_none]

theorem State.shcBusy_eq_false {s : State} : s.shcBusy = false ↔ s.shc.job = none ∧ s.shc.reports = [] := by
  simp [State.shcBusy]

/-- A soft reset request in RUNNING waits or is served (R9). -/
theorem State.requestReset_running {s : State} (h : s.shc.part = .running) :
    s.requestReset = if s.shcBusy then { s with shc := { s.shc with resetWaiting := true } } else s.serveReset := by
  unfold State.requestReset
  rw [h]

/-- Settles O12. -/
theorem softResetRequestWaitsOrIsServed : Obligations.SoftResetRequestWaitsOrIsServed := by
  intro s running
  rw [State.requestReset_running running]
  refine ⟨fun busy => if_pos (State.shcBusy_eq_true.mpr busy), fun job reports closed => ?_,
    fun job reports opened => ?_⟩
  · rw [if_neg (by simp [State.shcBusy_eq_false.mpr ⟨job, reports⟩])]
    exact if_neg (by simp [closed])
  · rw [if_neg (by simp [State.shcBusy_eq_false.mpr ⟨job, reports⟩])]
    exact if_pos opened

/-! ## ATTENTION and PART_STATUS -/

/-- ATTENTION reads its three causes at bits 0 to 2, and PART_CONTROL the enables at bits 4 to 6 (R2, R4, R216). -/
theorem State.readAttention_bits (s : State) :
    s.readAttention.getLsbD 0 = s.shc.attReport ∧ s.readAttention.getLsbD 1 = s.faultCause ∧
      s.readAttention.getLsbD 2 = s.shc.attSafe := by
  unfold State.readAttention
  cases s.shc.attReport <;> cases s.faultCause <;> cases s.shc.attSafe <;> decide

theorem State.readPartControl_enables (s : State) :
    s.readPartControl.getLsbD 4 = s.shc.reportEn ∧ s.readPartControl.getLsbD 5 = s.shc.faultEn ∧
      s.readPartControl.getLsbD 6 = s.shc.safeEn := by
  unfold State.readPartControl
  cases s.shc.run <;> cases s.shc.reportEn <;> cases s.shc.faultEn <;> cases s.shc.safeEn <;> decide

/-- A write to ATTENTION that clears no cause changes nothing (R4). -/
theorem State.writeAttention_none {s : State} {v : Word} (h0 : v.getLsbD 0 = false) (h2 : v.getLsbD 2 = false) :
    s.writeAttention v = s := by
  unfold State.writeAttention
  rw [h0, h2]
  simp [State.setShc]

/-- A word of which a mask leaves nothing has no bit of the mask. -/
theorem getLsbD_of_and_eq_zero {v m : Word} (h : v &&& m = 0#32) {i : Nat} (hm : m.getLsbD i = true) :
    v.getLsbD i = false := by
  have bit := congrArg (fun w => w.getLsbD i) h
  simpa [hm] using bit

/-- A write to PART_CONTROL depends on the bits of RUN, SOFT_RESET and the enables alone (R216). -/
theorem State.writePartControl_congr (s : State) {v w : Word}
    (h : ∀ i ∈ [0, 1, 4, 5, 6], v.getLsbD i = w.getLsbD i) : s.writePartControl v = s.writePartControl w := by
  have named (i : Nat) (hi : i ∈ [0, 1, 4, 5, 6]) := h i hi
  have written : s.controlWritten v = s.controlWritten w := by
    unfold State.controlWritten
    rw [named 0 (by decide), named 4 (by decide), named 5 (by decide), named 6 (by decide)]
  rw [State.writePartControl_eq, State.writePartControl_eq, written, named 0 (by decide), named 1 (by decide)]

/-- PART_STATUS packs the part state, the reason and the frame counter into fields of their own (R3). -/
theorem State.readPartStatus_toNat (s : State) (h : s.shc.reason < 8) :
    s.readPartStatus.toNat = s.shc.part.code + 16 * s.shc.reason + 65536 * (s.ftu.counter.toNat % 65536) := by
  have code : s.shc.part.code < 16 := by cases s.shc.part <;> decide
  unfold State.readPartStatus wordOfNat
  rw [BitVec.toNat_ofNat]
  omega

/-- Settles O14, clause by clause. -/
theorem attentionAndIgnoredWrites : Obligations.AttentionAndIgnoredWrites := by
  refine ⟨⟨?report, ?safe, ?line⟩, fun e v s => rfl, ?attention, ?control, fun e v s => rfl, ?status⟩
  case report =>
    intro e v s set
    show Host.Outcome.next ((s.arrive e).writeAttention (v ||| BitVec.twoPow 32 0)) = _
    rw [or_twoPow_of_bit set]
    unfold State.writeAttention
    rw [set, Bool.not_true, Bool.and_false]
    rfl
  case safe =>
    intro e v s set
    show Host.Outcome.next ((s.arrive e).writeAttention (v ||| BitVec.twoPow 32 2)) = _
    rw [or_twoPow_of_bit set]
    unfold State.writeAttention
    rw [set, Bool.not_true, Bool.and_false]
    rfl
  case line =>
    intro s
    obtain ⟨report, fault, safe⟩ := s.readAttention_bits
    obtain ⟨reportEn, faultEn, safeEn⟩ := s.readPartControl_enables
    rw [report, fault, safe, reportEn, faultEn, safeEn]
    rfl
  case attention =>
    intro e v s h0 h2
    exact congrArg Host.Outcome.next (State.writeAttention_none h0 h2)
  case control =>
    intro e v s named
    refine congrArg Host.Outcome.next (State.writePartControl_congr _ fun i hi => ?_)
    have inMask : (0x73#32).getLsbD i = true := by
      revert i
      decide
    rw [getLsbD_of_and_eq_zero named inMask]
    exact (getLsbD_of_and_eq_zero (v := 0 &&& 0xFFFFFFFE#32) (by decide) inMask).symm
  case status =>
    intro s
    have code : s.shc.part.code < 16 := by cases s.shc.part <;> decide
    refine ⟨code, fun reason => ?_⟩
    rw [State.readPartStatus_toNat s reason]
    omega

/-! ## Tags, captures and completions -/

/-- A tag's record after one record of the table is replaced. -/
theorem State.tagRec_setTag (s : State) {m n : Nat} (hm : m ≠ 0) (hn : n ≠ 0) (r : TagRec) :
    (s.setTag m r).tagRec n = if n = m ∧ n ≤ s.shc.tags.length then r else s.tagRec n := by
  unfold State.setTag State.tagRec
  rw [if_neg hm]
  simp only [List.getD_eq_getElem?_getD, List.getElem?_set]
  by_cases e : n = m
  · subst e
    by_cases l : n ≤ s.shc.tags.length
    · simp [l, show n - 1 < s.shc.tags.length by omega]
    · simp [l, show ¬ n - 1 < s.shc.tags.length by omega]
  · simp [e, show m - 1 ≠ n - 1 by omega]

/-- A tag beyond the table reads as FREE, so a tag in another state has its record in the table. -/
theorem State.le_tags_of_st {s : State} {n : Nat} (h : (s.tagRec n).st ≠ .free) : n ≤ s.shc.tags.length := by
  by_contra beyond
  refine h ?_
  unfold State.tagRec
  rw [List.getD_eq_default _ _ (by omega)]
  rfl

theorem State.inFlight_iff {s : State} {n : Nat} : s.inFlight n = true ↔ n ≠ 0 ∧ (s.tagRec n).st = .inFlight := by
  simp [State.inFlight]

/-- The capture record of a completion's hold takes the tag (R203). -/
def State.takesHold (s : State) (h : HeldCompletion) : Bool := h.hold.any fun k => s.flt.takesTag k

/-- Replacing a tag's record leaves the Fault Log, so putting it back changes nothing. -/
theorem State.setTag_keepFlt (s : State) (n : Nat) (r : TagRec) : { s.setTag n r with flt := s.flt } = s.setTag n r := by
  unfold State.setTag
  split <;> rfl

/-- What a completion for an IN_FLIGHT tag does: it ends the tag, and the capture record that takes it names it (R20,
R203). -/
theorem State.recordCompletion_of_inFlight {s : State} {h : HeldCompletion}
    (flying : s.inFlight h.completion.tag = true) :
    s.recordCompletion h = { s.setTag h.completion.tag
        ((s.tagRec h.completion.tag).completed (if s.takesHold h then .held else .done) h.completion s.frame) with
      flt := match h.hold with
        | some k => if s.flt.takesTag k then s.flt.nameTag k h.completion.tag else s.flt
        | none => s.flt } := by
  obtain ⟨hold, c⟩ := h
  unfold State.recordCompletion
  dsimp only
  rw [if_pos flying]
  cases hold with
  | none => exact (State.setTag_keepFlt ..).symm
  | some k =>
    cases takes : s.flt.takesTag k with
    | false => simpa [State.takesHold, takes] using (State.setTag_keepFlt ..).symm
    | true => simp [State.takesHold, takes]

/-- Any other completion is discarded (R20). -/
theorem State.recordCompletion_discards {s : State} {h : HeldCompletion}
    (idle : s.inFlight h.completion.tag = false) : s.recordCompletion h = s := by
  unfold State.recordCompletion
  exact if_neg (by simp [idle])

/-- The record of the tag that a completion ends (R20). -/
theorem State.tagRec_recordCompletion_same {s : State} {h : HeldCompletion}
    (flying : s.inFlight h.completion.tag = true) :
    (s.recordCompletion h).tagRec h.completion.tag =
      s.ended h.completion.tag (if s.takesHold h then .held else .done) h.completion.outcome h.completion.word1
        h.completion.word2 h.completion.word3 := by
  obtain ⟨named, st⟩ := State.inFlight_iff.mp flying
  rw [State.recordCompletion_of_inFlight flying]
  refine (State.tagRec_setTag s named named _).trans (if_pos ⟨rfl, State.le_tags_of_st ?_⟩)
  simp [st]

/-- Every other tag stands. -/
theorem State.tagRec_recordCompletion_ne {s : State} {h : HeldCompletion} {n : Nat} (hn : n ≠ 0)
    (other : n ≠ h.completion.tag) : (s.recordCompletion h).tagRec n = s.tagRec n := by
  cases flying : s.inFlight h.completion.tag with
  | false => rw [State.recordCompletion_discards flying]
  | true =>
    rw [State.recordCompletion_of_inFlight flying]
    refine (State.tagRec_setTag s (State.inFlight_iff.mp flying).1 hn _).trans (if_neg ?_)
    exact fun same => other same.1

theorem FaultKind.number_le (k : FaultKind) : k.number - 1 < 26 := by cases k <;> decide

/-- In a whole Fault Log an entry that is replaced reads as its replacement. -/
theorem Flt.entry_setEntry_whole {f : Flt} (whole : f.kinds.length = 26) (k : FaultKind) (r : FaultRec) :
    (f.setEntry k r).entry k = r := by
  have inRange : k.number - 1 < f.kinds.length := whole ▸ k.number_le
  simp [Flt.entry, Flt.setEntry, List.getD_eq_getElem?_getD, inRange]

theorem Flt.takesTag_iff {f : Flt} {k : FaultKind} :
    f.takesTag k = true ↔ f.stands k = true ∧ (f.entry k).capture.tag = 0 := by
  simp [Flt.takesTag]

/-- Settles O28 from what a completion does to its tag, to the capture record and to every other tag. -/
theorem completionsReachInFlightTagsAlone : Obligations.CompletionsReachInFlightTagsAlone := by
  rintro s h - whole c done
  refine ⟨fun idle => ?discarded, fun named st hold => ?direct, fun k named st hold stands free => ?held,
    fun n hn other => State.tagRec_recordCompletion_ne (by omega) other⟩
  case discarded =>
    refine State.recordCompletion_discards (Bool.eq_false_iff.mpr fun flying => ?_)
    obtain ⟨named, st⟩ := State.inFlight_iff.mp flying
    exact idle.elim named (absurd st)
  case direct =>
    have flying : s.inFlight c.tag = true := State.inFlight_iff.mpr ⟨named, st⟩
    have direct : s.takesHold h = false := by simp [State.takesHold, hold]
    refine ⟨(State.tagRec_recordCompletion_same flying).trans ?_, ?_⟩
    · rw [direct]
      rfl
    · rw [State.recordCompletion_of_inFlight flying, hold]
  case held =>
    have flying : s.inFlight c.tag = true := State.inFlight_iff.mpr ⟨named, st⟩
    have takes : s.flt.takesTag k = true := Flt.takesTag_iff.mpr ⟨stands, free⟩
    have held : s.takesHold h = true := by simp [State.takesHold, hold, takes]
    have log : (s.recordCompletion h).flt = s.flt.nameTag k c.tag := by
      rw [State.recordCompletion_of_inFlight flying, hold]
      exact if_pos takes
    refine ⟨(State.tagRec_recordCompletion_same flying).trans ?_, ?_, fun i other => ?_⟩
    · rw [held]
      rfl
    · rw [log]
      exact congrArg FaultRec.capture (Flt.entry_setEntry_whole whole k _)
    · rw [log]
      exact Flt.entry_setEntry_ne _ _ _ _ other

/-! ## The dispatch of an entry -/

/-- Settles O26: the block refuses, or the tag and its capture record let go of each other. -/
theorem releaseTagLetsAHeldTagGo : Obligations.ReleaseTagLetsAHeldTagGo := by
  intro e s number due n u
  have due : dispatches u .immediate 0x01 0 (p1 number) = true := due
  refine ⟨fun bad => ?_, fun low high loose => ?_, fun low high held => ?_⟩
  · exact congrArg Host.Outcome.next (State.takeOrder_refuse due (if_pos bad))
  · refine congrArg Host.Outcome.next (State.takeOrder_refuse due ?_)
    exact (if_neg (by omega)).trans (if_neg loose)
  · have carries : decideReleaseTag number u = .carry false fun s => s.releaseTag n :=
      (if_neg (by omega)).trans (if_pos held)
    have asks : (u.releaseTag n).stop.requests = [] := by
      simpa [State.releaseTag] using (dispatches_iff.mp due).2.2
    have slots : (u.releaseTag n).sameRecording u = true := by
      simp [State.sameRecording, State.releaseTag]
    have named : n ≠ 0 := by omega
    refine congrArg Host.Outcome.next ((State.takeOrder_done due carries asks slots).trans ?_)
    unfold State.releaseTag State.setTag
    rw [if_neg named]
    rfl

/-- The command of an order is the dispatch of its form, whatever its block decides (R16). -/
theorem exec_order {c : Instr} {f : OrderForm} (h : orderForm c = some f) :
    ∃ decide, ∀ s, exec c s = .next ((s.arrive c.env).takeOrder f.cls f.kind f.tag f.params decide) := by
  cases c <;> cases h <;> exact ⟨_, fun s => rfl⟩

/-- The tag check of each class (R17). -/
theorem State.tagCheck_immediate {s : State} {tag : Byte} (h : tag ≠ 0) :
    s.tagCheck .immediate tag = some .refusedParam :=
  if_neg (by simpa [BitVec.toNat_eq] using h)

theorem State.tagCheck_beyond {s : State} {c : TagClass} {tag : Byte} (hc : c ≠ .immediate) (h : 32 < tag.toNat) :
    s.tagCheck c tag = some .refusedParam := by
  cases c with
  | immediate => exact absurd rfl hc
  | optional | required => exact (if_neg (by omega)).trans (if_neg (by omega))

theorem State.tagCheck_named {s : State} {c : TagClass} {tag : Byte} (hc : c ≠ .immediate) (low : 1 ≤ tag.toNat)
    (high : tag.toNat ≤ 32) : s.tagCheck c tag = (s.tagRec tag.toNat).check := by
  cases c with
  | immediate => exact absurd rfl hc
  | optional | required => exact (if_neg (by omega)).trans (if_pos high)

/-- The entry behind the longest head that has a property does not have it. -/
theorem not_of_drop_takeWhile {α : Type} {p : α → Bool} {l : List α} {y : α} {ys : List α}
    (h : l.drop (l.takeWhile p).length = y :: ys) : p y = false := by
  induction l with
  | nil => simp at h
  | cons a r ih =>
    cases pa : p a with
    | true => exact ih (by simpa [pa] using h)
    | false =>
      obtain ⟨rfl, rfl⟩ : a = y ∧ r = ys := by simpa [pa] using h
      exact pa

/-- The entries of unknown kinds at the head are skipped, and no others (R16). -/
theorem SheetJob.skipUnknown_eq (j : SheetJob) :
    ∃ k, j.skipUnknown = { j with todo := j.todo.drop k, results := j.results ++ List.replicate k .refusedUnknown } ∧
      k ≤ j.todo.length ∧ (∀ y ∈ j.todo.take k, isKnown y.kind = false) ∧
      ∀ y ys, j.todo.drop k = y :: ys → isKnown y.kind = true := by
  refine ⟨_, rfl, (List.takeWhile_prefix _).length_le, fun y hy => ?_, fun y ys head => ?_⟩
  · rw [← List.prefix_iff_eq_take.mp (List.takeWhile_prefix _)] at hy
    simpa using List.mem_takeWhile_imp hy
  · simpa using not_of_drop_takeWhile head

/-- Settles O27. -/
theorem everyEntryIsCheckedAndAnswered : Obligations.EveryEntryIsCheckedAndAnswered := by
  refine ⟨fun c f s form => ?_, fun s j x rest r job head => ?_⟩
  · obtain ⟨decide, runs⟩ := exec_order form
    have refused {r : Result} (next : s.awaits f.kind f.tag f.params = true)
        (check : s.tagCheck f.cls f.tag = some r) : exec c s = .next ((s.arrive c.env).finishEntry r) :=
      (runs s).trans (congrArg Host.Outcome.next (State.takeOrder_refusedTag next check))
    refine ⟨fun other => (runs s).trans (congrArg Host.Outcome.next (State.takeOrder_other other)), fun next =>
      ⟨fun cls tag => refused next ?_, fun cls tag => refused next ?_, fun cls beyond => refused next ?_,
        fun cls low high st => refused next ?_, fun cls low high st => refused next ?_⟩⟩
    · rw [cls]
      exact State.tagCheck_immediate tag
    · rw [cls, tag]
      rfl
    · exact State.tagCheck_beyond cls beyond
    · rw [State.tagCheck_named cls low high, TagRec.check, st]
    · rw [State.tagCheck_named cls low high, TagRec.check, st]
  · obtain ⟨k, skipped, -, unknown, known⟩ :=
      ({ j with todo := j.todo.drop 1, results := j.results ++ [r] } : SheetJob).skipUnknown_eq
    simp only [head, List.drop_succ_cons, List.drop_zero] at skipped unknown known
    refine ⟨k, ?_, unknown, known⟩
    unfold State.finishEntry
    rw [job, Option.map_some, head]
    simp [skipped]

end Sys2Proof.Machine
end

