-- ==== Sys2Proof/Proofs/Books.lean ====
section
/-! PROOFS. What a step can do to the tag table, to its copies and to the Fault Log, said once; every command of the
part is a chain of these moves, and each move keeps the invariants of O5. -/

namespace Sys2Proof.Machine

/-! ## The moves -/

/-- The tag table, the copies the SHC keeps of it, and the Fault Log. -/
structure Books where
  flt : Flt
  tags : List TagRec
  kept : List (Kept ShcPart)

def State.books (s : State) : Books := ⟨s.flt, s.shc.tags, s.shc.kept⟩

/-- Every way in which the part changes its books: an occurrence is counted and placed, and fills a capture (R202,
R203); a completion is recorded (R20); an order is accepted with a tag its class lets it have (R17, R19); a HELD tag is
released (R21); a copy is kept (R23); a reset or the entry to RUNNING frees the tags that are not HELD (R11);
power-on reset (R5); a place of CLEAR_FAULTS is worked (R208); a route is set (R210). -/
inductive BookMove : Books → Books → Prop
  | counts (b : Books) (k : FaultKind) : BookMove b { b with flt := b.flt.countAndPlace k }
  | fills (b : Books) (k : FaultKind) (c : Capture) (free : c.tag = 0) :
    BookMove b { b with flt := b.flt.setEntry k { b.flt.entry k with capture := c } }
  | completes (s : State) (h : HeldCompletion) : BookMove s.books (s.recordCompletion h).books
  | accepts (s : State) (c : TagClass) (kind tag : Byte) (free : s.tagCheck c tag = none) :
    BookMove s.books (s.acceptTag kind tag).books
  | releases (s : State) (n : Nat) : BookMove s.books (s.releaseTag n).books
  | keeps (b : Books) (need : FrameNo → Bool) (f : FrameNo) (p : ShcPart) (table : p.tags = b.tags) :
    BookMove b { b with kept := keepCopy need f p b.kept }
  | resets (b : Books) (kept : List (Kept ShcPart)) (fewer : kept ⊆ b.kept) :
    BookMove b ⟨b.flt, b.tags.map TagRec.afterReset, kept⟩
  | restarts (b : Books) : BookMove b State.reset.books
  | clears (s : State) (p : UsedPlace) (done : s.flt.placeResult p = .done) : BookMove s.books (s.leaveSets p).books
  | routes (b : Books) (k : FaultKind) (r : Route) (m : Option Mapping) (other : k ≠ .guardTrip) :
    BookMove b { b with flt := b.flt.setEntry k { b.flt.entry k with route := r, mapping := m } }

/-- From `s` the part came to `t` by moves of its books alone, whatever else changed. -/
def Moves (s t : State) : Prop := Relation.ReflTransGen BookMove s.books t.books

theorem Moves.refl (s : State) : Moves s s := Relation.ReflTransGen.refl

/-- What leaves the tag table, its copies and the Fault Log as they were adds no move. -/
theorem Moves.frame {r s t : State} (h : Moves r s) (same : t.books = s.books) : Moves r t := by
  unfold Moves
  rw [same]
  exact h

theorem Moves.one {r s t : State} (m : BookMove s.books t.books) (h : Moves r s) : Moves r t :=
  Relation.ReflTransGen.tail h m

theorem Moves.trans {r s t : State} (h : Moves r s) (k : Moves s t) : Moves r t := Relation.ReflTransGen.trans h k

/-- A fold of steps that each make moves makes moves. -/
theorem Moves.foldl {α : Type} {r : State} {f : State → α → State}
    (step : ∀ {s} (a : α), Moves r s → Moves r (f s a)) (l : List α) {s : State} (h : Moves r s) :
    Moves r (l.foldl f s) := by
  induction l generalizing s with
  | nil => exact h
  | cons a l ih => exact ih (step a h)

end Sys2Proof.Machine
end

