-- ==== Sys2Proof/Proofs/Moves.lean ====
section
/-! PROOFS. Every operation of a block is a chain of moves of the books: one lemma for each. -/

namespace Sys2Proof.Machine

variable {r s : State}

/-! ## What replaces one block or one slot -/

theorem Moves.arrive (h : Moves r s) (e : Env) : Moves r (s.arrive e) := h
theorem Moves.expireAt (h : Moves r s) (n : Nat) : Moves r (s.expireAt n) := h
theorem Moves.setFtu (h : Moves r s) (v : Ftu) : Moves r (s.setFtu v) := h
theorem Moves.setLdu (h : Moves r s) (v : Ldu) : Moves r (s.setLdu v) := h
theorem Moves.setMst (h : Moves r s) (v : Mst) : Moves r (s.setMst v) := h
theorem Moves.setAcu (h : Moves r s) (v : Acu) : Moves r (s.setAcu v) := h
theorem Moves.setSta (h : Moves r s) (v : Sta) : Moves r (s.setSta v) := h
theorem Moves.setCgd (h : Moves r s) (v : Cgd) : Moves r (s.setCgd v) := h
theorem Moves.setVfl (h : Moves r s) (v : Vfl) : Moves r (s.setVfl v) := h
theorem Moves.setAxis (h : Moves r s) (x : AxisId) (a : Axis) : Moves r (s.setAxis x a) := h
theorem Moves.beginMove (h : Moves r s) (x : AxisId) (m : Move) (n : Int) (t : Nat) : Moves r (s.beginMove x m n t) := h
theorem Moves.askStop (h : Moves r s) (q : StopSource) : Moves r (s.askStop q) := h
theorem Moves.loadFlywheel (h : Moves r s) (n : Nat) : Moves r (s.loadFlywheel n) := h
theorem Moves.release (h : Moves r s) : Moves r s.release := h

theorem Moves.setSlot (h : Moves r s) (x : SlotId) (v : Slot) : Moves r (s.setSlot x v) :=
  h.frame (by cases x <;> rfl)

theorem Moves.updSlot (h : Moves r s) (x : SlotId) (g : Slot → Slot) : Moves r (s.updSlot x g) := h.setSlot ..

theorem Moves.updClip (h : Moves r s) (x : SlotId) (g : Clip → Clip) : Moves r (s.updClip x g) := h.updSlot ..

theorem Moves.setSlotState (h : Moves r s) (x : SlotId) (st : SlotState) : Moves r (s.setSlotState x st) :=
  (h.setSlot x { s.slot x with st := st }).frame rfl

theorem Moves.send (h : Moves r s) (x : SlotId) (c : CardCommand) : Moves r (s.send x c) := h.updSlot ..

theorem Moves.raiseFloor (h : Moves r s) (f : Option FrameNo) : Moves r (s.raiseFloor f) := by
  cases f with
  | none => exact h
  | some f => exact h.frame rfl

theorem Moves.judgeSlots (h : Moves r s) (t : State) : Moves r (s.judgeSlots t) := by
  unfold State.judgeSlots
  split
  · exact h
  · exact h.frame rfl

theorem Moves.busWrite (h : Moves r s) (a : Nat) (l : List Byte) : Moves r (s.busWrite a l).1 := by
  unfold State.busWrite
  split
  · exact h
  · exact h.frame rfl

/-! ## Completions and occurrences -/

theorem Moves.complete (h : Moves r s) (c : HeldCompletion) : Moves r (s.complete c) := by
  unfold State.complete
  split
  · exact h.frame rfl
  · exact h.one (.completes s c)

theorem Moves.endTag (h : Moves r s) (n : Nat) (o : TagOutcome) (w1 w2 w3 : Word) :
    Moves r (s.endTag n o w1 w2 w3) := h.complete _

theorem Moves.takeLate (h : Moves r s) (l : List HeldCompletion) : Moves r (s.takeLate l) :=
  Moves.foldl (fun c h => h.one (.completes _ c)) l h

theorem Moves.noticeEntered (h : Moves r s) (k : FaultKind) : Moves r (s.noticeEntered k) := by
  unfold State.noticeEntered
  split
  · exact h.frame rfl
  · exact h

theorem Moves.capture (h : Moves r s) (stood : Bool) (o : Occurrence) : Moves r (s.capture stood o) := by
  have filled : Moves r (if stood then s else
      { s with flt := s.flt.setEntry o.kind { s.flt.entry o.kind with capture := s.captureOf o } }) := by
    split
    · exact h
    · exact h.one (.fills s.books o.kind (s.captureOf o) rfl)
  unfold State.capture
  dsimp only
  split
  · exact filled
  · exact filled.complete _

theorem Moves.route (h : Moves r s) (k : FaultKind) : Moves r (s.route k) := by
  unfold State.route
  split
  · exact h.frame rfl
  · exact h

theorem Moves.occur (h : Moves r s) (o : Occurrence) : Moves r (s.occur o) := by
  unfold State.occur
  extract_lets stood enters s1 s2
  have counted : Moves r s1 := h.one (.counts s.books o.kind)
  have told : Moves r s2 := by
    unfold s2
    split
    · exact counted.noticeEntered _
    · exact counted
  exact (told.capture _ o).route _

theorem Moves.fault (h : Moves r s) (k : FaultKind) (x : FaultSource) (d1 d2 : Word) : Moves r (s.fault k x d1 d2) :=
  h.occur _

theorem Moves.busFault (h : Moves r s) (b : BusBlock) (a : Nat) : Moves r (s.busFault b a) := h.fault ..

theorem Moves.blockWrite (h : Moves r s) (b : BusBlock) (a : Nat) (l : List Byte) :
    Moves r (s.blockWrite b a l).1 := by
  have w := h.busWrite a l
  unfold State.blockWrite
  split
  next e => rwa [e] at w
  next e =>
    rw [e] at w
    exact w.busFault ..

/-! ## The guard -/

theorem Moves.trip (h : Moves r s) (c d : Word) : Moves r (s.trip c d) := ((h.setCgd _).askStop _).fault ..

theorem Moves.keepWord (h : Moves r s) (w : Word) : Moves r (s.keepWord w).1 := by
  unfold State.keepWord
  dsimp only
  split
  · split
    · exact h.setCgd _
    · exact h.fault ..
  · split
    · exact h.setCgd _
    · exact h.trip ..
  · exact h

theorem Moves.starve (h : Moves r s) : Moves r s.starve := by
  unfold State.starve
  dsimp only
  split
  · exact h
  · split
    · split
      · exact (h.setCgd _).fault ..
      · exact h.setCgd _
    · split
      · exact (h.setCgd _).trip ..
      · exact h.setCgd _
    · exact h

theorem Moves.keepParts (h : Moves r s) (f : FrameNo) : Moves r (s.keepParts f) := by
  unfold State.keepParts
  split
  · exact h.frame rfl
  · exact h.one (.keeps s.books s.copyNeeded f s.shc.ownPart rfl)

/-! ## The lens -/

theorem Moves.endAxisTag (h : Moves r s) (x : AxisId) (o : TagOutcome) (c : Nat) : Moves r (s.endAxisTag x o c) :=
  (h.endTag ..).setAxis ..

theorem Moves.endMove (h : Moves r s) (x : AxisId) (o : TagOutcome) (c : Nat) : Moves r (s.endMove x o c) :=
  (h.endAxisTag x o c).setAxis ..

theorem Moves.endSequenceTag (h : Moves r s) (o : TagOutcome) (c : Nat) : Moves r (s.endSequenceTag o c) :=
  (h.complete _).setLdu _

theorem Moves.restGlides (h : Moves r s) : Moves r s.restGlides := by
  have one {u : State} (h : Moves r u) (x : AxisId) : Moves r (if (u.ldu.axis x).gliding then u.rest x else u) := by
    split
    · exact h.beginMove ..
    · exact h
  exact (one (one (one h .zoom) .focus) .iris).setLdu _

theorem Moves.cancelShot (h : Moves r s) {finish : State → State} (ends : Moves r (finish s)) :
    Moves r (s.cancelShot finish) := by
  unfold State.cancelShot
  split
  · exact h
  · exact h.setLdu _
  · exact (ends.setLdu _).restGlides

theorem Moves.joinGlide (h : Moves r s) (k : Shot) (x : AxisId) : Moves r (State.joinGlide k s x) := by
  unfold State.joinGlide
  extract_lets s1 s2
  have off : Moves r s2 := by
    unfold s2
    split
    · exact (h.endAxisTag ..).setLdu _
    · exact h.endAxisTag ..
  split
  · exact h
  · exact off.beginMove ..

theorem Moves.beginGlide (h : Moves r s) (n : Nat) : Moves r (s.beginGlide n) :=
  (Moves.foldl (fun x h => h.joinGlide _ x) [AxisId.zoom, .focus, .iris] h).setLdu _

theorem Moves.trigger (h : Moves r s) (n tag : Nat) : Moves r (s.trigger n tag) :=
  ((h.endSequenceTag .preempted 4).setLdu _).beginGlide n

theorem Moves.advanceAxis (h : Moves r s) (x : AxisId) : Moves r (s.advanceAxis x) := by
  unfold State.advanceAxis
  split
  · exact h
  · split
    · exact h.setAxis ..
    · exact (h.setAxis ..).endMove ..

theorem Moves.glideAxis (h : Moves r s) (k n : Nat) (x : AxisId) : Moves r (State.glideAxis k n s x) := by
  unfold State.glideAxis
  split
  · dsimp only
    split
    · exact h.setAxis ..
    · exact h.setAxis ..
  · exact h

theorem Moves.glideEnded (h : Moves r s) (n : Nat) : Moves r (s.glideEnded n) := by
  unfold State.glideEnded
  dsimp only
  split
  · exact (h.setLdu _).setLdu _
  · exact ((h.setLdu _).endSequenceTag ..).setLdu _

theorem Moves.glideStep (h : Moves r s) (shot done total : Nat) : Moves r (s.glideStep shot done total) := by
  have glided : Moves r ([AxisId.zoom, .focus, .iris].foldl (State.glideAxis (done + 1) total) s) :=
    Moves.foldl (fun x h => h.glideAxis _ _ x) _ h
  unfold State.glideStep
  extract_lets k s1
  split
  · exact glided.setLdu _
  · exact glided.glideEnded shot

theorem Moves.advanceShot (h : Moves r s) : Moves r s.advanceShot := by
  unfold State.advanceShot
  split
  · exact h.glideStep ..
  · split
    · exact h.setLdu _
    · split
      · exact h
      · dsimp only
        split
        · exact (h.beginGlide _).glideStep ..
        · exact h.beginGlide _
  · exact h

theorem Moves.abortAll (h : Moves r s) (cause : Nat) : Moves r (s.abortAll cause) := by
  unfold State.abortAll
  extract_lets s1 s2
  have sequence : Moves r s1 := by
    unfold s1
    split
    · exact h.endSequenceTag ..
    · exact h
  exact Moves.foldl (fun x h => h.endMove x .aborted cause) [AxisId.zoom, .focus, .iris] (sequence.setLdu _)

theorem Moves.lensAttach (h : Moves r s) (v : LensView) : Moves r (s.lensAttach v) := h.setLdu _

theorem Moves.lensDetach (h : Moves r s) : Moves r s.lensDetach := (h.abortAll 9).setLdu _

theorem Moves.lensLost (h : Moves r s) : Moves r s.lensLost := ((h.abortAll 8).setLdu _).fault ..

theorem Moves.judgeLink (h : Moves r s) (reply : Option LensReply) : Moves r (s.judgeLink reply) := by
  unfold State.judgeLink
  dsimp only
  split
  · split
    · exact h.lensAttach _
    · exact h
  · exact h
  · split
    · exact h.lensAttach _
    · exact h.lensDetach
  · exact h
  · split
    · exact h.setLdu _
    · exact (h.setLdu _).lensDetach
  · split
    · exact h.setLdu _
    · exact (h.setLdu _).lensLost

theorem Moves.gripTakes (h : Moves r s) : Moves r s.gripTakes :=
  ((h.endAxisTag ..).cancelShot ((h.endAxisTag ..).endSequenceTag ..)).setLdu _

theorem Moves.applyRocker (h : Moves r s) : Moves r s.applyRocker := by
  unfold State.applyRocker
  extract_lets l inside s0 ldu zoom s1
  have judged : Moves r s0 := by
    unfold s0
    split
    · exact h.setLdu _
    · exact h
  have claimed : Moves r s1 := by
    unfold s1
    split
    · exact judged.gripTakes
    · exact judged
  split
  · exact judged
  · split
    · exact judged.setLdu _
    · split
      · exact judged
      · exact claimed.beginMove ..

theorem Moves.applyManual (h : Moves r s) (was : Bool) (x : AxisId) : Moves r (State.applyManual was s x) := by
  unfold State.applyManual
  dsimp only
  split
  · refine Moves.setLdu ?_ _
    split
    · exact h.endMove ..
    · exact h
  · split
    · exact h.setLdu _
    · exact h

theorem Moves.stall (h : Moves r s) (x : AxisId) : Moves r (s.stall x) :=
  ((h.setLdu _).cancelShot ((h.setLdu _).setLdu _)).occur _

theorem Moves.checkStall (h : Moves r s) (x : AxisId) : Moves r (s.checkStall x) := by
  unfold State.checkStall
  extract_lets l a n s1
  split
  · exact h.setAxis ..
  · split
    · exact h
    · split
      · exact (h.setAxis ..).stall x
      · exact h.setAxis ..

theorem Moves.pressButton (h : Moves r s) : Moves r s.pressButton := by
  unfold State.pressButton
  split
  · exact h.trigger ..
  · exact h.setLdu _
  · exact h

theorem Moves.takeReply (h : Moves r s) (v : LensView) (entering : Bool) : Moves r (s.takeReply v entering) := by
  unfold State.takeReply
  extract_lets was l s1 s2 s3
  have claimed : Moves r s2 := ((h.setLdu _).applyRocker.applyManual _ .focus).applyManual _ .iris
  have checked : Moves r s3 := ((claimed.checkStall .zoom).checkStall .focus).checkStall .iris
  split
  · exact checked.pressButton
  · exact checked

theorem Moves.lensUpdate (h : Moves r s) : Moves r s.lensUpdate := by
  unfold State.lensUpdate
  extract_lets reply s1 s2 s3 s4 s5
  have judged : Moves r s2 := by
    unfold s2
    split
    · exact (h.judgeLink _).takeReply ..
    · exact h.judgeLink _
  have advanced : Moves r s4 := (((judged.advanceAxis .zoom).advanceAxis .focus).advanceAxis .iris).advanceShot
  exact (advanced.setLdu _).setLdu _

theorem Moves.stopAxis (h : Moves r s) (x : AxisId) : Moves r (s.stopAxis x) := by
  unfold State.stopAxis
  split
  · exact h
  · exact h
  · exact h
  · exact (h.endAxisTag ..).beginMove ..

theorem Moves.stopLens (h : Moves r s) : Moves r s.stopLens := by
  have rested := ((h.stopAxis .zoom).stopAxis .focus).stopAxis .iris
  exact (rested.cancelShot (rested.endSequenceTag ..)).setLdu _

/-! ## The stabiliser and the audio -/

theorem Moves.checkOverrange (h : Moves r s) (y p : Int) : Moves r (s.checkOverrange y p) := by
  unfold State.checkOverrange
  dsimp only
  split
  · exact ((h.setMst _).setMst _).fault ..
  · exact h.setMst _

theorem Moves.sampleOff (h : Moves r s) (y p : Int) : Moves r (s.sampleOff y p) := (h.checkOverrange y p).setMst _

theorem Moves.sampleOn (h : Moves r s) (y p : Int) : Moves r (s.sampleOn y p) := (h.checkOverrange y p).setMst _

theorem Moves.gyro (h : Moves r s) (y p : Int) : Moves r (s.gyro y p) := by
  unfold State.gyro
  dsimp only
  split
  · exact (h.setMst _).sampleOff ..
  · exact (h.setMst _).sampleOn ..
  · split
    · exact (h.setMst _).setMst _
    · exact ((h.setMst _).setMst _).sampleOn ..

theorem Moves.gyroLost (h : Moves r s) : Moves r s.gyroLost := (h.setMst _).fault ..

theorem Moves.audioOverrun (h : Moves r s) : Moves r s.audioOverrun := by
  unfold State.audioOverrun
  dsimp only
  split
  · exact h.setAcu _
  · split
    · exact (h.setAcu _).fault ..
    · exact (h.setAcu _).fault ..

theorem Moves.audioArrives (h : Moves r s) (x : AudioSet) : Moves r (s.audioArrives x) := by
  unfold State.audioArrives
  dsimp only
  split
  · exact h.setAcu _
  · exact (h.setAcu _).audioOverrun

theorem Moves.audioClockLost (h : Moves r s) : Moves r s.audioClockLost := (h.setAcu _).fault ..

/-! ## The clips -/

theorem Moves.closeClip (h : Moves r s) (x : SlotId) (newest : Option FrameNo) : Moves r (s.closeClip x newest) :=
  (h.updClip x _).setSlotState x _

theorem Moves.openClip (h : Moves r s) (x : SlotId) (id prev : Word) (c : Bool) (first : FrameNo) (tag : Nat) :
    Moves r (s.openClip x id prev c first tag) := by
  unfold State.openClip
  split
  · exact h
  · exact (h.updSlot x _).setSlotState x _

theorem Moves.dropClose (h : Moves r s) (f : FrameNo) (x : SlotId) : Moves r (s.dropClose f x) := by
  unfold State.dropClose
  split
  · split
    · exact h
    · exact h.closeClip ..
  · exact h

theorem Moves.stopClose (h : Moves r s) (newest : Option FrameNo) (x : SlotId) : Moves r (s.stopClose newest x) := by
  unfold State.stopClose
  split
  · exact (h.updClip x _).closeClip ..
  · split
    · exact h
    · exact h.updClip ..
  · exact h

theorem Moves.relayFailed (h : Moves r s) (x : SlotId) (k : FrameNo) : Moves r (s.relayFailed x k) := by
  unfold State.relayFailed
  dsimp only
  split
  · exact h.occur _
  · exact ((h.updSlot x _).frame (by rfl)).occur _

theorem Moves.relay (h : Moves r s) (x : SlotId) (id : Word) (k : FrameNo) : Moves r (s.relay x id k) := by
  unfold State.relay
  dsimp only
  split
  · exact ((h.updClip x _).frame (by rfl)).openClip ..
  · exact h.relayFailed x k

theorem Moves.closeFull (h : Moves r s) (x : SlotId) (c : Clip) (k : FrameNo) (need : Nat) (room : Room) :
    Moves r (s.closeFull x c k need room) := by
  unfold State.closeFull
  extract_lets limited s1 s2
  have logged : Moves r s1 := by
    unfold s1
    split
    · exact h.fault ..
    · exact h
  have closed : Moves r s2 := (logged.updClip x _).closeClip ..
  split
  · exact closed.relay ..
  · exact closed

theorem Moves.pauseWriter (h : Moves r s) (x : SlotId) (c : Clip) (k : FrameNo) (room : Room) :
    Moves r (s.pauseWriter x c k room) := by
  unfold State.pauseWriter
  dsimp only
  split
  · exact h.updClip x _
  · exact (h.updClip x _).fault ..

theorem Moves.placeOpen (h : Moves r s) (x : SlotId) (c : Clip) (block : List Byte) :
    Moves r (s.placeOpen x c block) := ((h.updSlot x _).updClip x _).frame rfl

theorem Moves.placeGroup (h : Moves r s) (x : SlotId) (c : Clip) (g : IndexRec) : Moves r (s.placeGroup x c g) :=
  (h.updSlot x _).updClip x _

theorem Moves.placeClose (h : Moves r s) (x : SlotId) (c : Clip) : Moves r (s.placeClose x c) := by
  unfold State.placeClose
  extract_lets block s1 pad s2
  have padded : Moves r s2 := by
    unfold s2
    split
    · exact (h.updSlot x _).updSlot x _
    · exact h.updSlot x _
  exact padded.updClip x _

/-- Every state that a writer's step may answer comes by moves. -/
def StepMoves (r : State) (o : Option State) : Prop := ∀ t, o = some t → Moves r t

theorem StepMoves.none : StepMoves r none := fun _ e => nomatch e

theorem StepMoves.some (h : Moves r s) : StepMoves r (some s) := fun _ e => Option.some.inj e ▸ h

theorem StepMoves.ite {c : Prop} [Decidable c] {o p : Option State} (ho : StepMoves r o) (hp : StepMoves r p) :
    StepMoves r (if c then o else p) := by
  split
  · exact ho
  · exact hp

theorem Moves.writerStep (h : Moves r s) (x : SlotId) : StepMoves r (s.writerStep x) := by
  unfold State.writerStep
  dsimp only
  split
  · exact .none
  · refine .ite .none (.ite ?opening (.ite (.some (h.placeClose ..)) ?going))
    case opening =>
      exact .ite (.some (h.placeOpen ..)) (.ite (.some (h.closeFull ..)) (.some (h.pauseWriter ..)))
    case going =>
      split
      · exact .ite (.some (h.placeClose ..)) .none
      · exact .ite (.some (h.placeGroup ..)) (.ite (.some (h.updClip ..))
          (.ite (.some (h.closeFull ..)) (.some (h.pauseWriter ..))))

theorem Moves.runWriters (h : Moves r s) (n : Nat) : Moves r (State.runWriters n s) := by
  induction n generalizing s with
  | zero => exact h
  | succ n ih =>
    unfold State.runWriters
    split
    next step => exact ih (h.writerStep .a _ step)
    next =>
      split
      next step => exact ih (h.writerStep .b _ step)
      next => exact h

/-! ## The cards -/

theorem Moves.writeBusError (h : Moves r s) (x : SlotId) (bad : Nat) : Moves r (s.writeBusError x bad) := by
  unfold State.writeBusError
  dsimp only
  split
  · exact ((h.busFault ..).updSlot x _).setSlotState ..
  · exact (h.busFault ..).updSlot x _

theorem Moves.sendWrite (h : Moves r s) (x : SlotId) (c : Clip) : Moves r (s.sendWrite x c) := by
  unfold State.sendWrite
  dsimp only
  split
  · exact h
  · split
    · exact h.writeBusError ..
    · exact (h.updClip x _).send ..

theorem Moves.sendDue (h : Moves r s) (x : SlotId) : Moves r (s.sendDue x) := by
  unfold State.sendDue
  dsimp only
  split
  · exact h.updSlot ..
  · split
    · split
      · exact h
      · split
        · exact h.sendWrite ..
        · split
          · exact (h.updClip x _).send ..
          · exact h
    · split
      · exact (h.updSlot x _).send ..
      · split
        · exact h.send ..
        · exact h

theorem Moves.work (h : Moves r s) : Moves r s.work := by
  have once {u : State} (h : Moves r u) : Moves r (((State.runWriters u.writerFuel u).sendDue .a).sendDue .b) :=
    ((h.runWriters _).sendDue .a).sendDue .b
  exact (once (once h)).release

theorem Moves.openDone (h : Moves r s) (x : SlotId) : Moves r (s.openDone x) := by
  unfold State.openDone
  extract_lets s1
  have opened : Moves r s1 := h.updClip x _
  split
  · exact opened
  · split
    · exact opened
    · extract_lets o1 s2
      split
      · exact opened.frame rfl
      · exact (opened.endTag ..).frame rfl

theorem Moves.closeDone (h : Moves r s) (x : SlotId) (n : Nat) : Moves r (s.closeDone x n) := by
  unfold State.closeDone
  split
  · exact h
  · split
    · exact h
    · extract_lets o1 s1
      split
      · exact h.frame rfl
      · exact (h.endTag ..).frame rfl

theorem Moves.removeReader (h : Moves r s) (x : SlotId) : Moves r (s.removeReader x) := by
  unfold State.removeReader
  split
  · exact h
  · exact (h.updSlot x _).raiseFloor _

theorem Moves.endClose (h : Moves r s) (x : SlotId) (c : Clip) : Moves r (s.endClose x c) := by
  unfold State.endClose
  extract_lets s1 s2 s3 s4
  have opened : Moves r s1 := by
    unfold s1
    split
    · exact h
    · exact h.openDone x
  have closed : Moves r s4 := ((opened.closeDone x c.recorded).removeReader x).updSlot x _
  exact (closed.setSlotState ..).release

theorem Moves.slotFault (h : Moves r s) (x : SlotId) (k : FaultKind) (d1 d2 : Word) (b : Bool) :
    Moves r (s.slotFault x k d1 d2 b) := (((h.occur _).endTag ..).updSlot ..).updSlot ..

theorem Moves.dropWork (h : Moves r s) (x : SlotId) : Moves r (s.dropWork x) := (h.removeReader x).updSlot x _

theorem Moves.failSlot (h : Moves r s) (x : SlotId) : Moves r (s.failSlot x) :=
  ((h.dropWork x).setSlotState ..).release

theorem Moves.cardWriteFails (h : Moves r s) (x : SlotId) (c : CardCommand) (n : Word) :
    Moves r (s.cardWriteFails x c n) := (h.slotFault ..).failSlot x

theorem Moves.cardTimesOut (h : Moves r s) (x : SlotId) (c : CardCommand) : Moves r (s.cardTimesOut x c) :=
  (h.slotFault ..).failSlot x

theorem Moves.removeCard (h : Moves r s) (x : SlotId) : Moves r (s.removeCard x) := by
  unfold State.removeCard
  extract_lets s1 s2
  have pulled : Moves r s1 := by
    unfold s1
    split
    · exact h.slotFault ..
    · exact h
  exact (((pulled.dropWork x).updSlot x _).setSlotState ..).release

theorem Moves.probeCard (h : Moves r s) (x : SlotId) : Moves r (s.probeCard x) :=
  ((h.updSlot x _).setSlotState ..).send ..

theorem Moves.readDetect (h : Moves r s) (x : SlotId) : Moves r (s.readDetect x) := by
  unfold State.readDetect
  split
  · exact h.probeCard x
  · exact h.setSlotState ..

theorem Moves.identified (h : Moves r s) (x : SlotId) (a : IdentifyAnswer) : Moves r (s.identified x a) := by
  unfold State.identified
  split
  · dsimp only
    split
    · exact ((h.updSlot x _).updSlot x _).setSlotState ..
    · exact (h.updSlot x _).setSlotState ..
  · exact h

theorem Moves.written (h : Moves r s) (x : SlotId) : Moves r (s.written x) := by
  unfold State.written
  dsimp only
  split
  · exact h
  · split
    · exact (h.updClip x _).openDone x
    · exact h.updClip x _

theorem Moves.writeAnswered (h : Moves r s) (x : SlotId) (a : CardAnswer) : Moves r (s.writeAnswered x a) := by
  unfold State.writeAnswered
  split
  · dsimp only
    split
    · exact ((h.updSlot x _).written x).release
    · exact (h.updSlot x _).cardWriteFails ..
  · exact h

theorem Moves.released (h : Moves r s) (x : SlotId) : Moves r (s.released x) := by
  unfold State.released
  dsimp only
  split
  · exact (h.updSlot x _).setSlotState ..
  · exact h.updSlot x _

theorem Moves.flushAnswered (h : Moves r s) (x : SlotId) (a : CardAnswer) : Moves r (s.flushAnswered x a) := by
  unfold State.flushAnswered
  split
  · dsimp only
    split
    · exact (h.updSlot x _).endClose ..
    · exact (h.updSlot x _).released x
    · exact (h.updSlot x _).cardWriteFails ..
  · exact h

theorem Moves.endScan (h : Moves r s) (x : SlotId) (o : TagOutcome) : Moves r (s.endScan x o) :=
  ((h.endTag ..).updSlot x _).setSlotState ..

theorem Moves.readAnswered (h : Moves r s) (x : SlotId) (a : ReadAnswer) : Moves r (s.readAnswered x a) := by
  unfold State.readAnswered
  split
  · dsimp only
    split
    · exact (h.updSlot x _).endScan ..
    · split
      · exact ((h.updSlot x _).updSlot x _).endScan ..
      · exact (h.updSlot x _).updSlot x _
  · exact h

end Sys2Proof.Machine
end

