-- ==== Sys2Proof/Proofs/Commands.lean ====
section
/-! PROOFS. Every command is a chain of moves of the books: the stream, the resets, the sheets and reports, the frame
starts, the decisions of the orders, and one line for each command. -/

namespace Sys2Proof.Machine

variable {r s : State}

/-! ## The stream and its staging -/

theorem Moves.emptyUnit (h : Moves r s) (i : Nat) : Moves r (s.emptyUnit i) := h.blockWrite ..

theorem Moves.emptyUsed (h : Moves r s) (u : Option UsedUnit) : Moves r (s.emptyUsed u) := by
  cases u with
  | none => exact h
  | some u => exact h.emptyUnit _

theorem Moves.judgeUnits (h : Moves r s) (f : FrameNo) (l : List UnitEntry) (c : Option UnitEntry) :
    Moves r (State.judgeUnits f l c s).1 := by
  induction l generalizing c s with
  | nil => exact h
  | cons u l ih =>
    unfold State.judgeUnits
    split
    · exact ih ((h.emptyUnit _).fault ..) c
    · split
      · split
        · exact ih h _
        · exact ih ((h.emptyUnit _).fault ..) _
      · exact ih h c

theorem Moves.useCandidate (h : Moves r s) (u : Option UnitEntry) : Moves r (s.useCandidate u).1 := by
  unfold State.useCandidate
  split
  · exact h
  · split
    · exact (h.emptyUnit _).fault ..
    · exact h

theorem Moves.giveBack (h : Moves r s) (f : FrameNo) : Moves r (s.giveBack f) := by
  unfold State.giveBack
  split
  · exact h.busFault ..
  · exact Moves.foldl (fun u h => h.emptyUnit u.index) _ h

theorem Moves.dropFrame (h : Moves r s) (f : FrameNo) (u : Option UsedUnit) : Moves r (s.dropFrame f u) :=
  ((((h.emptyUsed u).setSta _).raiseFloor (some f)).dropClose f .a |>.dropClose f .b).release

theorem Moves.startCopy (h : Moves r s) (g : GroupCopy) : Moves r (s.startCopy g) := by
  unfold State.startCopy
  dsimp only
  split
  · exact (h.fault ..).dropFrame ..
  · split
    · exact h.setSta _
    · split
      · split
        · exact (h.emptyUsed _).setSta _
        · exact ((h.emptyUsed _).fault ..).dropFrame ..
      · exact (h.fault ..).dropFrame ..

theorem Moves.assemble (h : Moves r s) (p : PendingRec) (a : AudioRec) : Moves r (s.assemble p a) := by
  unfold State.assemble
  split
  · exact (h.busFault ..).startCopy _
  · exact ((h.judgeUnits ..).useCandidate _).startCopy _

theorem Moves.discardPending (h : Moves r s) (f : FrameNo) : Moves r (s.discardPending f) := (h.giveBack f).setSta _

theorem Moves.handleHead (h : Moves r s) (l : List PendingRec) : Moves r (State.handleHead l s) := by
  induction l generalizing s with
  | nil => exact h
  | cons p l ih =>
    unfold State.handleHead
    split
    · dsimp only
      split
      · split
        · exact (h.setSta _).assemble ..
        · exact ih ((h.setSta _).discardPending _)
      · exact h
    · exact h

theorem Moves.lookAtHead (h : Moves r s) : Moves r s.lookAtHead := h.handleHead _

theorem Moves.audioRecord (h : Moves r s) (a : AudioRec) : Moves r (s.audioRecord a) := by
  unfold State.audioRecord
  dsimp only
  split
  · exact (h.setSta _).lookAtHead
  · split
    · exact h.setSta _
    · exact h.setSta _

theorem Moves.pendingFull (h : Moves r s) (f : FrameNo) : Moves r (s.pendingFull f) :=
  ((h.fault ..).setSta _).dropFrame ..

theorem Moves.appendPending (h : Moves r s) (f : FrameRec) : Moves r (s.appendPending f) := h.setSta _

theorem Moves.staTakes (h : Moves r s) (x : FrameStart) : Moves r (s.staTakes x) := by
  unfold State.staTakes
  dsimp only
  refine Moves.lookAtHead ?_
  split
  · exact h.setSta _
  · split
    · exact (h.setSta _).pendingFull _
    · exact (h.setSta _).appendPending _

theorem Moves.writeRuns (h : Moves r s) (l : List (Nat × Nat)) (b : List Byte) : Moves r (s.writeRuns l b).1 := by
  induction l generalizing s b with
  | nil => exact h
  | cons run l ih =>
    have w := h.busWrite run.1 (b.take run.2)
    unfold State.writeRuns
    split
    next e => rwa [e] at w
    next e =>
      rw [e] at w
      exact ih w _

theorem Moves.copyBusError (h : Moves r s) (g : GroupCopy) (site : CopySite) (a : Nat) :
    Moves r (s.copyBusError g site a) := by
  cases site with
  | unit => exact ((h.busFault ..).emptyUsed _).setSta _
  | staging => exact (h.busFault ..).setSta _
  | stream => exact ((h.busFault ..).setSta _).dropFrame ..

theorem Moves.copyCompletes (h : Moves r s) (g : GroupCopy) (n : Nat) : Moves r (s.copyCompletes g n) :=
  (((h.setSta _).emptyUsed _).setSta _).work.lookAtHead

theorem Moves.copyEnds (h : Moves r s) (g : GroupCopy) : Moves r (s.copyEnds g) := by
  unfold State.copyEnds
  split
  · exact h.copyBusError ..
  next picture _ =>
    split
    · exact h.copyBusError ..
    next sound _ =>
      have written := h.writeRuns (s.ringRuns s.sta.writePos (g.bytes picture sound).length) (g.bytes picture sound)
      dsimp only
      split
      next e =>
        rw [e] at written
        exact written.copyBusError ..
      next e =>
        rw [e] at written
        exact written.copyCompletes ..

theorem Moves.stageBlock (h : Moves r s) (b : List Byte) (a : AudioRec) : Moves r (s.stageBlock b a) := by
  unfold State.stageBlock
  split
  · exact h.audioRecord _
  · exact (h.setSta _).setAcu _

theorem Moves.acuTakes (h : Moves r s) (x : FrameStart) : Moves r (s.acuTakes x) := by
  unfold State.acuTakes
  dsimp only
  split
  · exact h.setAcu _
  · refine Moves.stageBlock ?_ ..
    split
    · exact (h.setAcu _).fault ..
    · exact h.setAcu _

theorem Moves.acuReached (h : Moves r s) (x : FrameStart) : Moves r (s.acuReached x) := by
  unfold State.acuReached
  split
  · exact h.acuTakes x
  · exact h.setAcu _

theorem Moves.acuTakesHeld (h : Moves r s) : Moves r s.acuTakesHeld := by
  unfold State.acuTakesHeld
  split
  · exact h
  · exact (h.setAcu _).acuTakes _

theorem Moves.acuFrame (h : Moves r s) (x : FrameStart) : Moves r (s.acuFrame x) := by
  unfold State.acuFrame
  split
  · exact ((h.setAcu _).audioRecord _).acuTakesHeld.acuReached x
  · exact h.acuReached x

theorem Moves.stagingDone (h : Moves r s) (j : StagingJob) : Moves r (s.stagingDone j) := by
  unfold State.stagingDone
  have idle := h.setAcu { s.acu with writing := none }
  dsimp only
  refine Moves.acuTakesHeld ?_
  split
  · exact (idle.frame (by rfl)).audioRecord _
  · exact ((idle.frame (by rfl)).busFault ..).audioRecord _

/-! ## The resets and Safe Stop -/

theorem Moves.softReset (h : Moves r s) : Moves r s.softReset := h.one (.resets s.books [] (List.nil_subset _))

theorem Moves.powerOn (h : Moves r s) : Moves r s.powerOn := h.one (.restarts s.books)

theorem Moves.startStop (h : Moves r s) (q : StopSource) : Moves r (s.startStop q) := by
  unfold State.startStop
  extract_lets newest stop s1 s2
  have begun : Moves r s1 := h.frame rfl
  exact ((begun.stopClose newest .a).stopClose newest .b).stopLens.frame rfl

theorem Moves.takeStop (h : Moves r s) (q : StopSource) : Moves r (s.takeStop q) := by
  unfold State.takeStop
  split
  · exact h.frame rfl
  · exact h.startStop q

theorem Moves.takeStops (h : Moves r s) : Moves r s.takeStops :=
  Moves.foldl (fun q h => h.takeStop q) s.stop.requests
    (s := { s with stop := { s.stop with requests := [] } }) (h.frame (by rfl))

theorem Moves.judgeStop (h : Moves r s) : Moves r s.judgeStop := by
  unfold State.judgeStop
  dsimp only
  split
  · split
    · exact (h.frame (by rfl)).softReset
    · exact h.frame rfl
  · exact h

theorem Moves.settleLoop (h : Moves r s) (n : Nat) : Moves r (State.settleLoop n s) := by
  induction n generalizing s with
  | zero => exact h.takeStops
  | succ n ih =>
    unfold State.settleLoop
    dsimp only
    split
    · exact h.takeStops.work
    · exact ih h.takeStops.work

theorem Moves.settle (h : Moves r s) : Moves r s.settle := (h.settleLoop 64).judgeStop

theorem Moves.serve (h : Moves r s) : Moves r s.serve := by
  unfold State.serve
  split
  · exact h
  · exact h.settle

theorem Moves.serveReset (h : Moves r s) : Moves r s.serveReset := by
  unfold State.serveReset
  split
  · exact ((h.frame (by rfl)).askStop _).settle
  · exact h.softReset

theorem Moves.requestReset (h : Moves r s) : Moves r s.requestReset := by
  unfold State.requestReset
  split
  · exact h
  · split
    · exact h.frame rfl
    · exact h.serveReset
  · exact h.softReset

theorem Moves.serveWaiting (h : Moves r s) : Moves r s.serveWaiting := by
  unfold State.serveWaiting
  split
  · exact h.serveReset
  · exact h

/-! ## Sheets and reports -/

theorem Moves.beginReport (h : Moves r s) (f : FrameNo) (n : Option SheetNote) : Moves r (s.beginReport f n) :=
  (h.frame (by rfl)).blockWrite ..

theorem Moves.writeFields (h : Moves r s) (base : Nat) (l : List ReportField) : Moves r (s.writeFields base l) :=
  Moves.foldl (fun _ h => h.blockWrite ..) l h

theorem Moves.endReport (h : Moves r s) (q : ReportJob) : Moves r (s.endReport q) := by
  unfold State.endReport
  have fields := h.writeFields (s.reportAddress q.frame) (reportFields q)
  dsimp only
  generalize s.writeFields (s.reportAddress q.frame) (reportFields q) = s1 at fields ⊢
  have unlisted : Moves r { s1 with shc := { s1.shc with
      reports := s1.shc.reports.filter fun k => k.frame != q.frame } } := fields.frame rfl
  have stamped := unlisted.blockWrite .shc (s.reportAddress q.frame + 0x590) (w32 q.frame)
  split
  next e =>
    rw [e] at stamped
    exact stamped.frame rfl
  next e => rwa [e] at stamped

theorem Moves.noSheet (h : Moves r s) (x : FrameStart) : Moves r (s.noSheet x) := h.starve.beginReport ..

theorem Moves.markTaken (h : Moves r s) (x : FrameStart) : Moves r (s.markTaken x) :=
  ((h.blockWrite ..).blockWrite ..).frame rfl

theorem Moves.writeReturned (h : Moves r s) (x : SheetId) (q : SheetResult) : Moves r (s.writeReturned x q) :=
  (h.blockWrite ..).blockWrite ..

theorem Moves.takeMalformed (h : Moves r s) (x : FrameStart) (k : SheetHeader) : Moves r (s.takeMalformed x k) :=
  ((((h.markTaken x).keepWord _).writeReturned ..).fault ..).beginReport ..

theorem Moves.takeSheet (h : Moves r s) (x : FrameStart) (k : SheetHeader) (l : List SheetEntry) :
    Moves r (s.takeSheet x k l) := (((h.markTaken x).keepWord _).frame (by rfl)).beginReport ..

theorem Moves.shcTakes (h : Moves r s) (x : FrameStart) : Moves r (s.shcTakes x) := by
  unfold State.shcTakes
  dsimp only
  split
  · split
    · exact (h.keepParts _).noSheet x
    · exact ((h.keepParts _).busFault ..).noSheet x
    · exact (h.keepParts _).takeMalformed ..
    · exact (h.keepParts _).takeSheet ..
  · exact (h.keepParts _).noSheet x

theorem Moves.shcReached (h : Moves r s) (x : FrameStart) : Moves r (s.shcReached x) := by
  unfold State.shcReached
  split
  · exact ((h.keepParts _).noSheet _).frame rfl
  · split
    · exact h.frame rfl
    · exact h.shcTakes x

theorem Moves.shcTakesHeld (h : Moves r s) : Moves r s.shcTakesHeld := by
  unfold State.shcTakesHeld
  split
  · exact h
  · split
    · exact h
    · exact (h.frame (by rfl)).shcTakes _

theorem Moves.writeResults (h : Moves r s) (base n : Nat) (l : List Result) : Moves r (s.writeResults base n l) := by
  induction l generalizing s n with
  | nil => exact h
  | cons q l ih => exact ih (h.blockWrite ..) (n + 1)

theorem Moves.keepReturned (h : Moves r s) (j : SheetJob) : Moves r (s.keepReturned j) := by
  unfold State.keepReturned
  split
  · exact h.one (.keeps s.books s.copyNeeded j.frame s.shc.ownPart rfl)
  · exact h

theorem Moves.returnSheet (h : Moves r s) (j : SheetJob) : Moves r (s.returnSheet j) :=
  ((((h.writeResults ..).writeReturned ..).frame (by rfl)).keepReturned j).takeLate _

theorem Moves.sheetDone (h : Moves r s) (j : SheetJob) : Moves r (s.sheetDone j) :=
  (h.returnSheet j).serve.serveWaiting.shcTakesHeld

theorem Moves.reportDone (h : Moves r s) (q : ReportJob) : Moves r (s.reportDone q) :=
  (h.endReport q).serve.serveWaiting.shcTakesHeld

/-! ## The register window and the start-up -/

theorem Moves.writePartControl (h : Moves r s) (v : Word) : Moves r (s.writePartControl v) := by
  have written : Moves r (s.controlWritten v) := h.frame rfl
  rw [State.writePartControl_eq]
  split
  · exact written.requestReset.judgeSlots s
  · exact written

theorem Moves.writeAttention (h : Moves r s) (v : Word) : Moves r (s.writeAttention v) := h.frame rfl

theorem Moves.writePartBase (h : Moves r s) (v : Word) : Moves r (s.writePartBase v) := by
  unfold State.writePartBase
  split
  · exact h.frame rfl
  · exact h

theorem Moves.writeRegister (h : Moves r s) (q : Register) (v : Word) : Moves r (s.writeRegister q v) := by
  cases q with
  | partBase => exact h.writePartBase v
  | partControl => exact h.writePartControl v
  | partStatus => exact h
  | attention => exact h.writeAttention v

theorem Moves.enterRunning (h : Moves r s) (d : Directory) : Moves r (s.enterRunning d) := by
  unfold State.enterRunning
  extract_lets shc ftu ldu acu s1
  have entered : Moves r s1 := h.one (.resets s.books s.books.kept (List.Subset.refl _))
  exact (entered.readDetect .a).readDetect .b

theorem Moves.directoryChecked (h : Moves r s) : Moves r s.directoryChecked := by
  unfold State.directoryChecked
  split
  · exact h.frame rfl
  · exact (h.frame (by rfl)).busFault ..
  · exact h.enterRunning _

/-! ## Frame starts -/

theorem Moves.discardRetained (h : Moves r s) (f : FrameNo) : Moves r (s.discardRetained f) := by
  unfold State.discardRetained
  split
  · exact (h.raiseFloor _).release
  · exact h

theorem Moves.makeFrameStart (h : Moves r s) : Moves r s.makeFrameStart := by
  unfold State.makeFrameStart
  dsimp only
  split
  · exact (h.frame (by rfl)).discardRetained _
  · exact h.frame rfl

theorem Moves.pulseFrame (h : Moves r s) : Moves r s.pulseFrame := (h.makeFrameStart.frame (by rfl)).loadFlywheel _

theorem Moves.flywheelExpires (h : Moves r s) : Moves r s.flywheelExpires := by
  unfold State.flywheelExpires
  split
  · have made := (h.setFtu { s.ftu with holdover := true }).makeFrameStart
    exact ((made.setFtu _).loadFlywheel _).fault ..
  · refine Moves.loadFlywheel ?_ _
    split
    · exact h.makeFrameStart.frame rfl
    · exact h.makeFrameStart.frame rfl
  · exact h.makeFrameStart.loadFlywheel _

theorem Moves.notePulse (h : Moves r s) (n : Nat) : Moves r (s.notePulse n) := h.frame rfl

theorem Moves.lockAt (h : Moves r s) : Moves r s.lockAt := by
  unfold State.lockAt
  dsimp only
  split
  · exact (h.frame (by rfl)).pulseFrame
  · exact (h.frame (by rfl)).loadFlywheel _

theorem Moves.earlyPulse (h : Moves r s) : Moves r s.earlyPulse := by
  unfold State.earlyPulse
  dsimp only
  refine Moves.fault ?_ ..
  split
  · exact h.frame rfl
  · exact h.pulseFrame

theorem Moves.pulse (h : Moves r s) : Moves r s.pulse := by
  unfold State.pulse
  dsimp only
  split
  · exact (h.notePulse 1).frame rfl
  · split
    · split
      · exact h.notePulse _
      · exact (h.notePulse _).lockAt
    · exact h.notePulse 1
  · split
    · exact (h.notePulse _).pulseFrame
    · exact (h.notePulse _).earlyPulse

end Sys2Proof.Machine
end

