-- ==== Sys2Proof/Proofs/Orders.lean ====
section
/-! PROOFS. What each order decides makes moves of the books, and so does each command. -/

namespace Sys2Proof.Machine

variable {r s : State}

/-! ## Decisions -/

/-- What a decision carries out or answers makes moves, from every state; a refusal does nothing. -/
inductive Decision.Moving : Decision → Prop
  | refuse (x : Result) : Moving (.refuse x)
  | carry {clamped : Bool} {run : State → State} (h : ∀ r s, Moves r s → Moves r (run s)) : Moving (.carry clamped run)
  | answer {x : Result} {run : State → State} (h : ∀ r s, Moves r s → Moves r (run s)) : Moving (.answer x run)

theorem Decision.moving_ite {c : Prop} [Decidable c] {d e : Decision} (hd : d.Moving) (he : e.Moving) :
    (if c then d else e).Moving := by
  split
  · exact hd
  · exact he

theorem Decision.moving_whenOnline {d : Decision} (h : d.Moving) : (s.whenOnline d).Moving :=
  moving_ite h (.refuse _)

theorem Moves.finishEntry (h : Moves r s) (x : Result) : Moves r (s.finishEntry x) := h

theorem Moves.applyDecision (h : Moves r s) {c : TagClass} {kind tag : Byte} (free : s.tagCheck c tag = none)
    {d : Decision} (moving : d.Moving) : Moves r (s.applyDecision kind tag d) := by
  cases moving with
  | refuse x => exact h.finishEntry x
  | carry run => exact (run _ _ (h.one (.accepts s c kind tag free))).finishEntry _
  | answer run => exact (run _ _ h).finishEntry _

theorem Moves.takeOrder (h : Moves r s) (c : TagClass) (kind tag : Byte) (params : List Byte)
    {decide : State → Decision} (moving : (decide s).Moving) : Moves r (s.takeOrder c kind tag params decide) := by
  unfold State.takeOrder
  split
  · split
    · exact h.finishEntry _
    next free => exact (h.applyDecision free moving).serve.judgeSlots s
  · exact h

open Decision (moving_ite moving_whenOnline)

/-! ## The decisions of the orders -/

theorem moving_decideChannel (channel : Byte) (clamped : Bool) (f : ChannelSet → ChannelSet) :
    (decideChannel channel clamped f).Moving :=
  moving_ite (.refuse _) (.carry fun _ _ h => h.setAcu _)

theorem moving_decideAudioSource (channel source : Byte) : (decideAudioSource channel source s).Moving := by
  unfold decideAudioSource
  split
  · exact .refuse _
  · exact moving_decideChannel ..

theorem moving_decideToneLevel (level : Byte) : (decideToneLevel level s).Moving :=
  moving_ite (.refuse _) (.carry fun _ _ h => h.setAcu _)

theorem moving_decideGrantExtent (slot : Byte) (start count : Word) (final : Byte) :
    (decideGrantExtent slot start count final s).Moving := by
  unfold decideGrantExtent
  split
  · exact moving_ite (.refuse _) <| moving_ite (.refuse _) <| moving_ite (.refuse _) <|
      moving_ite (.refuse _) <| moving_ite (.refuse _) <|
      .carry fun _ _ h => ((h.updSlot ..).updClip ..).work
  · exact .refuse _

theorem moving_decideRecordMode (mode slot : Byte) : (decideRecordMode mode slot s).Moving := by
  unfold decideRecordMode
  split
  · exact .refuse _
  · exact moving_ite (.refuse _) (.carry fun _ _ h => h.frame rfl)

theorem Moves.openNeeded (h : Moves r s) (id : Word) (first : FrameNo) (tag : Nat) (x : SlotId) :
    Moves r (s.openNeeded id first tag x) := by
  unfold State.openNeeded
  split
  · exact h.openClip ..
  · exact h

theorem Moves.openOrdered (h : Moves r s) (tag : Nat) (id cont : Word) : Moves r (s.openOrdered tag id cont) :=
  ((Moves.openNeeded (h.frame (by rfl)) id s.startFrame tag .a).openNeeded id s.startFrame tag .b).work

theorem moving_decideClipOpen (tag : Byte) (clipId contId : Word) : (decideClipOpen tag clipId contId s).Moving :=
  moving_ite (.refuse _) <| moving_ite (.refuse _) <| moving_ite (.refuse _) <|
    moving_ite (.refuse _) <| moving_ite (.refuse _) <| .carry fun _ _ h => h.openOrdered ..

theorem Moves.closeOrdered (h : Moves r s) (tag : Nat) (newest : Option FrameNo) (x : SlotId) :
    Moves r (s.closeOrdered tag newest x) := by
  unfold State.closeOrdered
  split
  · exact (h.updSlot ..).closeClip ..
  · exact h

theorem Moves.endWord (h : Moves r s) : Moves r s.endWord.2 := by
  unfold State.endWord
  split
  · exact h
  · exact h.frame rfl

theorem Moves.closeAll (h : Moves r s) (tag : Nat) : Moves r (s.closeAll tag) :=
  ((Moves.closeOrdered (h.endWord.frame (by rfl)) tag s.newestGroup .a).closeOrdered tag s.newestGroup .b).work

theorem moving_decideClipClose (tag : Byte) : (decideClipClose tag s).Moving :=
  moving_ite (.carry fun _ _ h => h.closeAll _) (.refuse _)

theorem moving_decideSlotRelease (slot : Byte) : (decideSlotRelease slot s).Moving := by
  unfold decideSlotRelease
  split
  · exact .refuse _
  · exact moving_ite (.carry fun _ _ h => (h.updSlot ..).work) (.refuse _)

theorem moving_decideScanExtent (tag slot : Byte) (start count : Word) :
    (decideScanExtent tag slot start count s).Moving := by
  unfold decideScanExtent
  split
  · exact .refuse _
  · exact moving_ite (.refuse _) (.carry fun _ _ h => ((h.updSlot ..).setSlotState ..).work)

theorem Moves.clearPlaces (h : Moves r s) (l : List UsedPlace) : Moves r (s.clearPlaces l).1 := by
  induction l generalizing s with
  | nil => exact h
  | cons p l ih =>
    unfold State.clearPlaces
    dsimp only
    split
    next done => exact ih (h.one (.clears s p done))
    next => exact ih h

theorem moving_decideClearFaults (places : List ClearPlace) : (decideClearFaults places s).Moving := by
  unfold decideClearFaults
  split
  · exact .refuse _
  · exact .answer fun _ _ h => h.clearPlaces _

theorem moving_decideSetFaultRoute (kind route mapping priority text : Byte) :
    (decideSetFaultRoute kind route mapping priority text s).Moving := by
  unfold decideSetFaultRoute
  split
  next k _ _ _ =>
    split
    next => exact .refuse _
    next other =>
      have sets (x : Route) (m : Option Mapping) (r s : State) (h : Moves r s) : Moves r (s.setRoute k x m) :=
        h.one (.routes s.books k x m other)
      exact moving_ite (.carry (sets _ _)) (moving_ite (.carry (sets _ _)) (.refuse _))
  next => exact .refuse _

theorem moving_decideGuardArm (limit : Byte) : (decideGuardArm limit s).Moving :=
  moving_ite (.carry fun _ _ h => h.setCgd _) (.refuse _)

theorem moving_decideGuardDisarm : (decideGuardDisarm s).Moving :=
  moving_ite (.carry fun _ _ h => h.setCgd _) (.refuse _)

theorem moving_decideSafeStop : (decideSafeStop s).Moving := .carry fun _ _ h => h.askStop _

theorem moving_decideSafeStopEnable : (decideSafeStopEnable s).Moving := .carry fun _ _ h => h.frame rfl

theorem Moves.cancelByOrder (h : Moves r s) : Moves r s.cancelByOrder := h.cancelShot (h.endSequenceTag ..)

theorem Moves.claimFor (h : Moves r s) (x : AxisId) : Moves r (s.claimFor x) := by
  unfold State.claimFor
  split
  · exact h.setLdu _
  · exact h

theorem Moves.orderMove (h : Moves r s) (x : AxisId) (m : Move) (tag : Nat) : Moves r (s.orderMove x m tag) :=
  ((h.cancelByOrder.claimFor x).endAxisTag ..).beginMove ..

theorem moving_decideAxisOrder (x : AxisId) (tag : Byte) (clamped : Bool) (m : Ldu → Move) :
    (decideAxisOrder x tag clamped m s).Moving := by
  refine moving_whenOnline ?_
  split
  · exact .refuse _
  · exact .carry fun _ _ h => h.orderMove ..

theorem moving_decidePosition (x : AxisId) (tag : Byte) (target cap : Half) :
    (decidePosition x tag target cap s).Moving := by
  unfold decidePosition
  exact moving_decideAxisOrder ..

theorem moving_decideZoomRate (tag : Byte) (rate : Half) : (decideZoomRate tag rate s).Moving := by
  unfold decideZoomRate
  exact moving_decideAxisOrder ..

theorem moving_decideZoomStop : (decideZoomStop s).Moving :=
  moving_whenOnline <| moving_ite (.refuse _) <|
    moving_ite (.carry fun _ _ h => h.setLdu _) (.carry fun _ _ h => h.cancelByOrder.setLdu _)

theorem moving_decideZoomClaim (lockout : Byte) : (decideZoomClaim lockout s).Moving :=
  moving_ite (.carry fun _ _ h => h.setLdu _) <| moving_ite (.carry fun _ _ h => h.setLdu _) (.refuse _)

theorem moving_decideLensConfig (hard soft : Byte) (window time : Half) :
    (decideLensConfig hard soft window time s).Moving := .carry fun _ _ h => h.setLdu _

theorem moving_decideLoadLensTable (table : Byte) (address : Word) : (decideLoadLensTable table address s).Moving := by
  refine moving_whenOnline ?_
  split
  · exact .refuse _
  · refine moving_ite (.refuse _) ?_
    split
    · exact .answer fun _ _ h => h.busFault ..
    · split
      · exact .answer fun _ _ h => h.fault ..
      · exact .carry fun _ _ h => h.setLdu _

theorem moving_decideTrackingOn : (decideTrackingOn s).Moving :=
  moving_whenOnline <| moving_ite (.refuse _) (.carry fun _ _ h => h.setLdu _)

theorem moving_decideTrackingOff : (decideTrackingOff s).Moving :=
  moving_ite (.refuse _) (.carry fun _ _ h => h.setLdu _)

theorem moving_decideAxisRecover (axis : Byte) : (decideAxisRecover axis s).Moving := by
  refine moving_whenOnline ?_
  split
  · exact .refuse _
  · exact moving_ite (.carry fun _ _ h => h.setLdu _) (.refuse _)

theorem moving_decideShotStore (shot source : Byte) (zoom focus iris travel dwell : Half) :
    (decideShotStore shot source zoom focus iris travel dwell s).Moving :=
  moving_ite (.carry fun _ _ h => h.setLdu _) <|
    moving_ite (moving_whenOnline (.carry fun _ _ h => h.setLdu _)) (.refuse _)

theorem moving_decideShotMode (mode count policy : Byte) : (decideShotMode mode count policy s).Moving := by
  unfold decideShotMode
  split
  · exact moving_ite (.refuse _) (.carry fun _ _ h => h.setLdu _)
  · exact .refuse _

theorem moving_decideShotTrigger (tag : Byte) : (decideShotTrigger tag s).Moving := by
  refine moving_whenOnline ?_
  split
  · exact .refuse _
  · exact .refuse _
  · exact .answer fun _ _ h => h.setLdu _
  · exact .carry fun _ _ h => h.trigger ..

theorem moving_decideStabMode (mode : Byte) : (decideStabMode mode s).Moving := by
  refine moving_ite (.carry fun _ _ h => ?_) (moving_ite (.carry fun _ _ h => ?_) (.refuse _))
  · split
    · exact h
    · exact h.setMst _
  · split
    · exact h.setMst _
    · exact h

theorem moving_decideStabRecenter : (decideStabRecenter s).Moving := .carry fun _ _ h => h.setMst _

theorem moving_decideStabConfig (marginX : Half) (marginY : Byte) (still : Half) (shift : Byte) (enter exit : Half) :
    (decideStabConfig marginX marginY still shift enter exit s).Moving :=
  moving_ite (.refuse _) (.carry fun _ _ h => h.setMst _)

theorem moving_decideStreamConfig (delay : Byte) : (decideStreamConfig delay s).Moving :=
  moving_ite (.refuse _) (.carry fun _ _ h => h.setSta _)

theorem Moves.setPreRecord (h : Moves r s) (on : Bool) (n : Nat) : Moves r (s.setPreRecord on n) := by
  unfold State.setPreRecord
  dsimp only
  split
  · exact ((h.raiseFloor _).setSta _).release
  · exact (h.setSta _).release

theorem moving_decidePreRecord (code : Byte) (count : Half) : (decidePreRecord code count s).Moving :=
  moving_ite (.carry fun _ _ h => h.setPreRecord ..) <|
    moving_ite (moving_ite (.refuse _) (.carry fun _ _ h => h.setPreRecord ..)) (.refuse _)

theorem moving_decideSetFormat (rate drop : Byte) : (decideSetFormat rate drop s).Moving := by
  refine moving_ite (.refuse _) ?_
  split
  · exact .refuse _
  · exact moving_ite (.carry fun _ _ h => h.setFtu _) <|
      moving_ite (.carry fun _ _ h => h.setFtu _) (.refuse _)

theorem moving_decideSetRefPolicy (policy : Byte) : (decideSetRefPolicy policy s).Moving := by
  unfold decideSetRefPolicy
  split
  · exact .refuse _
  · exact .carry fun _ _ h => h.setFtu _

theorem moving_decideSetTcMode (mode : Byte) : (decideSetTcMode mode s).Moving := by
  unfold decideSetTcMode
  split
  · exact .refuse _
  · exact moving_ite (.refuse _) (.carry fun _ _ h => h.setFtu _)

theorem moving_decideSetTimecode (hours minutes seconds frames : Byte) :
    (decideSetTimecode hours minutes seconds frames s).Moving :=
  moving_ite (.refuse _) (.carry fun _ _ h => h.setFtu _)

theorem moving_decideVfItem (index enable row column width blink inverse colour kind p1 p2 : Byte) :
    (decideVfItem index enable row column width blink inverse colour kind p1 p2 s).Moving := by
  unfold decideVfItem
  split
  · exact .carry fun _ _ h => h.setVfl _
  · exact .refuse _

theorem moving_decideVfText (first count : Byte) (address : Word) : (decideVfText first count address s).Moving := by
  refine moving_ite (.refuse _) ?_
  dsimp only
  split
  · exact .answer fun _ _ h => h.busFault ..
  · exact .carry fun _ _ h => h.setVfl _

theorem moving_decidePost (code priority text life : Nat) (clamped : Bool) (v : Vfl) :
    (decidePost code priority text life clamped v).Moving :=
  moving_ite (.carry fun _ _ h => h.setVfl _) <| moving_ite (.carry fun _ _ h => h.setVfl _) (.refuse _)

theorem moving_decideVfWarning (action code priority text : Byte) (life : Half) :
    (decideVfWarning action code priority text life s).Moving :=
  moving_ite (.refuse _) <| moving_ite (moving_decidePost ..) <|
    moving_ite (.carry fun _ _ h => h.setVfl _) (.refuse _)

theorem moving_decideVfTally (output setting : Byte) : (decideVfTally output setting s).Moving := by
  refine moving_ite (.refuse _) ?_
  split
  · exact .refuse _
  · exact .carry fun _ _ h => h.setVfl _

theorem moving_decideReleaseTag (number : Byte) : (decideReleaseTag number s).Moving :=
  moving_ite (.refuse _) <|
    moving_ite (.carry fun _ s h => h.one (.releases s number.toNat)) (.refuse _)

/-! ## The commands -/

/-- An outcome that goes on goes on from `r` by moves. -/
def Reaches (r : State) (o : Host.Outcome State Fault Refusal) : Prop := ∀ t, o = .next t → Moves r t

theorem Moves.next (h : Moves r s) : Reaches r (.next s) := fun _ e => Host.Outcome.next.inj e ▸ h

/-- What ends every event: the blocks take what it brought, and the slots are judged. -/
theorem Moves.settled (h : Moves r s) (t : State) : Reaches r (.next (s.settle.judgeSlots t)) :=
  (h.settle.judgeSlots t).next

theorem Moves.served (h : Moves r s) (t : State) : Reaches r (.next (s.serve.judgeSlots t)) :=
  (h.serve.judgeSlots t).next

theorem Moves.arrived (s : State) (e : Env) : Moves s (s.arrive e) := (Moves.refl s).arrive e

/-- A command that may find nothing to do. -/
theorem Reaches.ite {c : Prop} [Decidable c] {o p : Host.Outcome State Fault Refusal} (ho : Reaches r o)
    (hp : Reaches r p) : Reaches r (if c then o else p) := by
  split
  · exact ho
  · exact hp

/-- An order's entry is dispatched. -/
theorem reaches_order (e : Env) (c : TagClass) (kind tag : Byte) (params : List Byte) {decide : State → Decision}
    (moving : (decide (s.arrive e)).Moving) : Reaches s (.next ((s.arrive e).takeOrder c kind tag params decide)) :=
  ((Moves.arrived s e).takeOrder c kind tag params moving).next

theorem reaches_partControl (e : Env) (v : Word) : Reaches s (.next ((s.arrive e).writePartControl v)) :=
  ((Moves.arrived s e).writePartControl v).next

theorem reaches_directoryCheckDone (e : Env) : Reaches s (execDirectoryCheckDone e s) := by
  refine Moves.next ?_
  split
  · exact (Moves.arrived s e).directoryChecked.serve.judgeSlots _
  · exact Moves.arrived s e

theorem reaches_flywheelExpiry (e : Env) : Reaches s (execFlywheelExpiry e s) := by
  unfold execFlywheelExpiry
  dsimp only
  split
  · exact (Moves.arrived s e).next
  · exact ((Moves.arrived s e).expireAt _).flywheelExpires.served _

theorem reaches_shcFrameStart (e : Env) : Reaches s (execShcFrameStart e s) := by
  unfold execShcFrameStart
  dsimp only
  split
  · exact (Moves.arrived s e).next
  · exact (((Moves.arrived s e).frame (by rfl)).shcReached _).served _

theorem reaches_sheetReturned (e : Env) : Reaches s (execSheetReturned e s) := by
  unfold execSheetReturned
  dsimp only
  split
  · exact (Moves.arrived s e).next
  · exact .ite (((Moves.arrived s e).sheetDone _).served _) (Moves.arrived s e).next

theorem reaches_reportWriteDone (e : Env) (slot : BitVec 1) : Reaches s (execReportWriteDone e slot s) := by
  unfold execReportWriteDone
  dsimp only
  split
  · exact (Moves.arrived s e).next
  · exact .ite (((Moves.arrived s e).reportDone _).served _) (Moves.arrived s e).next

theorem reaches_lensUpdate (e : Env) : Reaches s (execLensUpdate e s) := by
  unfold execLensUpdate
  dsimp only
  split
  · exact (Moves.arrived s e).next
  · exact ((Moves.arrived s e).expireAt _).lensUpdate.served _

theorem reaches_lossTimerExpiry (e : Env) : Reaches s (execLossTimerExpiry e s) := by
  unfold execLossTimerExpiry
  dsimp only
  split
  · exact (Moves.arrived s e).next
  · exact ((Moves.arrived s e).expireAt _).gyroLost.served _

theorem reaches_mstFrameStart (e : Env) : Reaches s (execMstFrameStart e s) := by
  unfold execMstFrameStart
  dsimp only
  split
  · exact (Moves.arrived s e).next
  · exact ((Moves.arrived s e).setMst _).next

theorem reaches_audioClockExpiry (e : Env) : Reaches s (execAudioClockExpiry e s) := by
  unfold execAudioClockExpiry
  dsimp only
  split
  · exact (Moves.arrived s e).next
  · exact ((Moves.arrived s e).expireAt _).audioClockLost.served _

theorem reaches_acuFrameStart (e : Env) : Reaches s (execAcuFrameStart e s) := by
  unfold execAcuFrameStart
  dsimp only
  split
  · exact (Moves.arrived s e).next
  · exact (((Moves.arrived s e).setAcu _).acuFrame _).settled _

theorem reaches_stagingWriteDone (e : Env) : Reaches s (execStagingWriteDone e s) := by
  unfold execStagingWriteDone
  dsimp only
  split
  · exact (Moves.arrived s e).next
  · exact ((Moves.arrived s e).stagingDone _).settled _

theorem reaches_staFrameStart (e : Env) : Reaches s (execStaFrameStart e s) := by
  unfold execStaFrameStart
  dsimp only
  split
  · exact (Moves.arrived s e).next
  · exact (((Moves.arrived s e).setSta _).staTakes _).settled _

theorem reaches_groupCopyDone (e : Env) : Reaches s (execGroupCopyDone e s) := by
  unfold execGroupCopyDone
  dsimp only
  split
  · exact (Moves.arrived s e).next
  · exact ((Moves.arrived s e).copyEnds _).settled _

theorem reaches_groupCopyBusError (e : Env) (site : CopySite) (a : Word) :
    Reaches s (execGroupCopyBusError e site a s) := by
  unfold execGroupCopyBusError
  dsimp only
  split
  · exact (Moves.arrived s e).next
  · exact .ite (((Moves.arrived s e).copyBusError ..).settled _) (Moves.arrived s e).next

theorem Moves.detected (s : State) (e : Env) (x : SlotId) (level : Bool) :
    Moves s ((s.arrive e).setDetect x level) := (Moves.arrived s e).updSlot x _

theorem reaches_cardCommandTimeout (e : Env) (x : SlotId) : Reaches s (execCardCommandTimeout e x s) := by
  unfold execCardCommandTimeout
  dsimp only
  split
  · exact (((Moves.arrived s e).expireAt _).cardTimesOut ..).settled _
  · exact (Moves.arrived s e).next

theorem reaches_vflFrameStart (e : Env) : Reaches s (execVflFrameStart e s) := by
  unfold execVflFrameStart
  dsimp only
  split
  · exact (Moves.arrived s e).next
  · exact .ite (((Moves.arrived s e).setVfl _).frame (by rfl)).next (Moves.arrived s e).next

theorem reaches_exec (c : Instr) (s : State) : Reaches s (exec c s) :=
  match c with
  | .powerOnReset e => (Moves.arrived s e).powerOn.next
  | .partBaseWrite e v => ((Moves.arrived s e).writePartBase v).next
  | .runSet e _ => reaches_partControl e _
  | .runClear e _ => reaches_partControl e _
  | .softReset e _ => reaches_partControl e _
  | .attentionEnableWrite e _ => reaches_partControl e _
  | .reportClear e _ => ((Moves.arrived s e).writeAttention _).next
  | .safeClear e _ => ((Moves.arrived s e).writeAttention _).next
  | .ignoredRegisterWrite e q v => ((Moves.arrived s e).writeRegister q v).next
  | .directoryCheckDone e => reaches_directoryCheckDone e
  | .flywheelExpiry e => reaches_flywheelExpiry e
  | .framePulse e => .ite ((Moves.arrived s e).pulse.served _) (Moves.arrived s e).next
  | .shcFrameStart e => reaches_shcFrameStart e
  | .sheetReturned e => reaches_sheetReturned e
  | .reportWriteDone e slot => reaches_reportWriteDone e slot
  | .releaseTag e _ n => reaches_order e _ _ _ _ (moving_decideReleaseTag n)
  | .setFormat e _ rate drop => reaches_order e _ _ _ _ (moving_decideSetFormat rate drop)
  | .setRefPolicy e _ policy => reaches_order e _ _ _ _ (moving_decideSetRefPolicy policy)
  | .setTcMode e _ mode => reaches_order e _ _ _ _ (moving_decideSetTcMode mode)
  | .setTimecode e _ h m sec f => reaches_order e _ _ _ _ (moving_decideSetTimecode h m sec f)
  | .lensUpdate e => reaches_lensUpdate e
  | .lensReply e _ => .ite ((Moves.arrived s e).setLdu _).next (Moves.arrived s e).next
  | .zoomRate e tag rate => reaches_order e _ _ _ _ (moving_decideZoomRate tag rate)
  | .zoomTo e tag target cap => reaches_order e _ _ _ _ (moving_decidePosition .zoom tag target cap)
  | .focusTo e tag target cap => reaches_order e _ _ _ _ (moving_decidePosition .focus tag target cap)
  | .irisTo e tag target cap => reaches_order e _ _ _ _ (moving_decidePosition .iris tag target cap)
  | .zoomStop e _ => reaches_order e _ _ _ _ moving_decideZoomStop
  | .zoomClaim e _ lockout => reaches_order e _ _ _ _ (moving_decideZoomClaim lockout)
  | .lensConfig e _ hard soft window time => reaches_order e _ _ _ _ (moving_decideLensConfig hard soft window time)
  | .loadLensTable e _ table address => reaches_order e _ _ _ _ (moving_decideLoadLensTable table address)
  | .trackingOn e _ => reaches_order e _ _ _ _ moving_decideTrackingOn
  | .trackingOff e _ => reaches_order e _ _ _ _ moving_decideTrackingOff
  | .axisRecover e _ axis => reaches_order e _ _ _ _ (moving_decideAxisRecover axis)
  | .shotStore e _ shot source z f i t d => reaches_order e _ _ _ _ (moving_decideShotStore shot source z f i t d)
  | .shotMode e _ mode count policy => reaches_order e _ _ _ _ (moving_decideShotMode mode count policy)
  | .shotTrigger e tag => reaches_order e _ _ _ _ (moving_decideShotTrigger tag)
  | .gyroSample e _ _ => .ite (((Moves.arrived s e).gyro ..).served _) (Moves.arrived s e).next
  | .lossTimerExpiry e => reaches_lossTimerExpiry e
  | .mstFrameStart e => reaches_mstFrameStart e
  | .stabMode e _ mode => reaches_order e _ _ _ _ (moving_decideStabMode mode)
  | .stabRecenter e _ => reaches_order e _ _ _ _ moving_decideStabRecenter
  | .stabConfig e _ mx my still shift enter exit =>
    reaches_order e _ _ _ _ (moving_decideStabConfig mx my still shift enter exit)
  | .audioSet e _ _ _ _ => .ite (((Moves.arrived s e).audioArrives _).served _) (Moves.arrived s e).next
  | .audioClockExpiry e => reaches_audioClockExpiry e
  | .acuFrameStart e => reaches_acuFrameStart e
  | .stagingWriteDone e => reaches_stagingWriteDone e
  | .audioSource e _ channel source => reaches_order e _ _ _ _ (moving_decideAudioSource channel source)
  | .audioGain e _ channel _ => reaches_order e _ _ _ _ (moving_decideChannel channel _ _)
  | .audioLimiter e _ channel _ _ => reaches_order e _ _ _ _ (moving_decideChannel channel _ _)
  | .toneLevel e _ level => reaches_order e _ _ _ _ (moving_decideToneLevel level)
  | .staFrameStart e => reaches_staFrameStart e
  | .groupCopyDone e => reaches_groupCopyDone e
  | .groupCopyBusError e site a => reaches_groupCopyBusError e site a
  | .streamConfig e _ delay => reaches_order e _ _ _ _ (moving_decideStreamConfig delay)
  | .preRecord e _ code count => reaches_order e _ _ _ _ (moving_decidePreRecord code count)
  | .cardInserted e x => .ite (((Moves.detected s e x true).probeCard x).settled _) (Moves.detected s e x true).next
  | .cardRemoved e x => .ite (((Moves.detected s e x false).removeCard x).settled _) (Moves.detected s e x false).next
  | .identifyReply e x a => ((Moves.arrived s e).identified x a).settled _
  | .writeReply e x a => ((Moves.arrived s e).writeAnswered x a).settled _
  | .readReply e x a => ((Moves.arrived s e).readAnswered x a).settled _
  | .flushReply e x a => ((Moves.arrived s e).flushAnswered x a).settled _
  | .cardCommandTimeout e x => reaches_cardCommandTimeout e x
  | .grantExtent e _ slot start count final =>
    reaches_order e _ _ _ _ (moving_decideGrantExtent slot start count final)
  | .recordMode e _ mode slot => reaches_order e _ _ _ _ (moving_decideRecordMode mode slot)
  | .clipOpen e tag clipId contId => reaches_order e _ _ _ _ (moving_decideClipOpen tag clipId contId)
  | .clipClose e tag => reaches_order e _ _ _ _ (moving_decideClipClose tag)
  | .slotRelease e _ slot => reaches_order e _ _ _ _ (moving_decideSlotRelease slot)
  | .scanExtent e tag slot start count => reaches_order e _ _ _ _ (moving_decideScanExtent tag slot start count)
  | .guardArm e _ limit => reaches_order e _ _ _ _ (moving_decideGuardArm limit)
  | .guardDisarm e _ => reaches_order e _ _ _ _ moving_decideGuardDisarm
  | .safeStop e _ => reaches_order e _ _ _ _ moving_decideSafeStop
  | .safeStopEnable e _ => reaches_order e _ _ _ _ moving_decideSafeStopEnable
  | .vfStatus e _ => .ite ((Moves.arrived s e).setVfl _).next (Moves.arrived s e).next
  | .vflFrameStart e => reaches_vflFrameStart e
  | .vfItem e _ index enable row column width blink inverse colour kind k1 k2 =>
    reaches_order e _ _ _ _ (moving_decideVfItem index enable row column width blink inverse colour kind k1 k2)
  | .vfText e _ first count address => reaches_order e _ _ _ _ (moving_decideVfText first count address)
  | .vfWarning e _ action code priority text life =>
    reaches_order e _ _ _ _ (moving_decideVfWarning action code priority text life)
  | .vfTally e _ output setting => reaches_order e _ _ _ _ (moving_decideVfTally output setting)
  | .clearFaults e _ _ _ _ _ _ _ => reaches_order e _ _ _ _ (moving_decideClearFaults _)
  | .setFaultRoute e _ kind route mapping priority text =>
    reaches_order e _ _ _ _ (moving_decideSetFaultRoute kind route mapping priority text)

/-- A step changes the books by moves alone. -/
theorem moves_of_step {s t : State} (h : step s = .next t) : Moves s t := by
  unfold step at h
  split at h
  · exact Host.Outcome.next.inj h ▸ Moves.refl s
  · exact ((Moves.refl s).frame (by rfl)).trans (reaches_exec _ _ t h)

end Sys2Proof.Machine
end

