-- ==== Sys2Proof/Proofs/CapturedTags.lean ====
section
/-! PROOFS. O5: every move of the books keeps the captured tags HELD, and keeps the tables whole. -/

namespace Sys2Proof.Machine

/-! ## What the moves leave of the captures -/

/-- Every capture record of `g` that names a tag named it in `f`, and its kind stands in `g` if it stood in `f`. -/
def Flt.KeepsNames (f g : Flt) : Prop :=
  ∀ k, (g.entry k).capture.tag ≠ 0 →
    (g.entry k).capture.tag = (f.entry k).capture.tag ∧ (f.stands k = true → g.stands k = true)

theorem Flt.KeepsNames.refl (f : Flt) : f.KeepsNames f := fun _ _ => ⟨rfl, id⟩

theorem Flt.KeepsNames.trans {f g h : Flt} (fg : f.KeepsNames g) (gh : g.KeepsNames h) : f.KeepsNames h := by
  intro k named
  obtain ⟨sameH, standsH⟩ := gh k named
  obtain ⟨sameG, standsG⟩ := fg k (sameH ▸ named)
  exact ⟨sameH.trans sameG, standsH ∘ standsG⟩

/-- Replacing an entry keeps the names when the new record names no tag, or names the old one and stays in NEXT. -/
theorem Flt.KeepsNames.setEntry {f : Flt} {k : FaultKind} {r : FaultRec}
    (h : r.capture.tag ≠ 0 → r.capture.tag = (f.entry k).capture.tag ∧ ((f.entry k).inNext = true → r.inNext = true)) :
    f.KeepsNames (f.setEntry k r) := by
  intro i named
  by_cases same : i = k
  · subst same
    obtain e | ⟨e, _⟩ := Flt.entry_setEntry f i r
    · rw [e] at named ⊢
      obtain ⟨tag, next⟩ := h named
      refine ⟨tag, fun stands => ?_⟩
      unfold Flt.stands at stands ⊢
      rw [e]
      simp only [Bool.or_eq_true] at stands ⊢
      exact stands.imp id next
    · rw [e] at named
      exact absurd rfl named
  · unfold Flt.stands
    rw [Flt.entry_setEntry_ne f k i r same]
    exact ⟨rfl, id⟩

/-- FIRST may be filled, or emptied of a kind whose capture record names no tag. -/
theorem Flt.KeepsNames.setFirst {f : Flt} {first : Option FaultKind}
    (h : ∀ k, f.first = some k → (f.entry k).capture.tag ≠ 0 → first = some k) :
    f.KeepsNames { f with first := first } := by
  intro k named
  refine ⟨rfl, fun stands => ?_⟩
  simp only [Flt.stands, Bool.or_eq_true, beq_iff_eq] at stands ⊢
  exact stands.imp (fun e => h k e named) id

/-- Counting and placing an occurrence keeps the names (R202). -/
theorem Flt.KeepsNames.countAndPlace (f : Flt) (k : FaultKind) : f.KeepsNames (f.countAndPlace k) := by
  unfold Flt.countAndPlace
  dsimp only
  split
  next empty =>
    have counted := setEntry (f := f) (k := k) (r := { f.entry k with count := satSucc 255 (f.entry k).count })
      fun _ => ⟨rfl, id⟩
    exact counted.trans (setFirst fun i e _ => absurd (empty.symm.trans e) (by simp))
  next => exact setEntry fun _ => ⟨rfl, fun _ => rfl⟩

/-- Removing a kind whose capture record names no tag from its sets keeps the names (R208). -/
theorem Flt.KeepsNames.leave {f : Flt} {p : UsedPlace} (free : (f.entry p.kind).capture.tag = 0) :
    f.KeepsNames (f.leave p) := by
  have left : f.KeepsNames (if p.next then f.setEntry p.kind { f.entry p.kind with inNext := false } else f) := by
    split
    · exact setEntry fun named => absurd free named
    · exact .refl f
  unfold Flt.leave
  dsimp only
  generalize (if p.next then f.setEntry p.kind { f.entry p.kind with inNext := false } else f) = g at left ⊢
  refine left.trans ?_
  split
  next gone =>
    rw [Bool.and_eq_true, beq_iff_eq] at gone
    refine setFirst fun k e named => absurd ?_ named
    obtain rfl : k = p.kind := Option.some.inj (e.symm.trans gone.2)
    by_contra held
    exact held ((left p.kind held).1.trans free)
  next => exact .refl g

theorem State.flt_noticeLeft (s : State) (k : FaultKind) : (s.noticeLeft k).flt = s.flt := by
  unfold State.noticeLeft
  split <;> rfl

theorem State.shc_noticeLeft (s : State) (k : FaultKind) : (s.noticeLeft k).shc = s.shc := by
  unfold State.noticeLeft
  split <;> rfl

/-- What a place of CLEAR_FAULTS makes of the Fault Log (R208). -/
theorem State.flt_leaveSets (s : State) (p : UsedPlace) :
    (s.leaveSets p).flt =
      if s.flt.stands p.kind && !(s.flt.leave p).stands p.kind then (s.flt.leave p).clearKind p.kind
      else s.flt.leave p := by
  unfold State.leaveSets
  dsimp only
  split
  · exact State.flt_noticeLeft ..
  · rfl

/-- A place of CLEAR_FAULTS leaves the tag table and its copies. -/
theorem State.tags_leaveSets (s : State) (p : UsedPlace) :
    (s.leaveSets p).shc.tags = s.shc.tags ∧ (s.leaveSets p).shc.kept = s.shc.kept := by
  unfold State.leaveSets
  dsimp only
  split
  · rw [State.shc_noticeLeft]
    exact ⟨rfl, rfl⟩
  · exact ⟨rfl, rfl⟩

theorem Flt.KeepsNames.leaveSets {s : State} {p : UsedPlace} (free : (s.flt.entry p.kind).capture.tag = 0) :
    s.flt.KeepsNames (s.leaveSets p).flt := by
  rw [State.flt_leaveSets]
  split
  · exact (leave free).trans (setEntry fun named => absurd rfl named)
  · exact leave free

/-- A place whose outcome is DONE has a capture record that names no tag (R208). -/
theorem Flt.free_of_placeResult {f : Flt} {p : UsedPlace} (done : f.placeResult p = .done) :
    (f.entry p.kind).capture.tag = 0 := by
  unfold Flt.placeResult at done
  by_contra held
  rw [if_pos held] at done
  exact absurd done (by decide)

/-- RELEASE_TAG on one entry (R21). -/
theorem Flt.entry_releaseTag (f : Flt) (n : Nat) (k : FaultKind) :
    (f.releaseTag n).entry k =
      if (f.entry k).capture.tag = n then { f.entry k with capture := { (f.entry k).capture with tag := 0 } }
      else f.entry k := by
  unfold Flt.releaseTag Flt.entry
  simp only [List.getD_eq_getElem?_getD, List.getElem?_map]
  cases f.kinds[k.number - 1]? with
  | some r => rfl
  | none =>
    simp only [Option.map_none, Option.getD_none]
    split <;> rfl

/-- RELEASE_TAG keeps every name but its own (R21). -/
theorem Flt.KeepsNames.releaseTag (f : Flt) (n : Nat) :
    f.KeepsNames (f.releaseTag n) ∧ ∀ k, ((f.releaseTag n).entry k).capture.tag ≠ 0 →
      ((f.releaseTag n).entry k).capture.tag ≠ n := by
  have next (k : FaultKind) : ((f.releaseTag n).entry k).inNext = (f.entry k).inNext := by
    rw [Flt.entry_releaseTag]
    split <;> rfl
  refine ⟨fun k named => ⟨?_, ?_⟩, fun k named => ?_⟩
  · rw [Flt.entry_releaseTag] at named ⊢
    split at named
    · exact absurd rfl named
    next other => rw [if_neg other]
  · unfold Flt.stands
    rw [next k]
    exact id
  · rw [Flt.entry_releaseTag] at named ⊢
    split at named
    · exact absurd rfl named
    next other => rwa [if_neg other]

/-! ## Captured tags stay HELD -/

def Books.tagRec (b : Books) (n : Nat) : TagRec := b.tags.getD (n - 1) .free

/-- `capturesHeld`, of the books alone. -/
def Books.Held (b : Books) : Prop :=
  ∀ k : FaultKind, (b.flt.entry k).capture.tag ≠ 0 →
    b.flt.stands k = true ∧ (b.tagRec (b.flt.entry k).capture.tag).st = .held

theorem capturesHeld_iff {s : State} : capturesHeld s ↔ s.books.Held := Iff.rfl

/-- The names that stay are of tags that stay HELD. -/
theorem Books.Held.of_keepsNames {b c : Books} (h : b.Held) (names : b.flt.KeepsNames c.flt)
    (tags : ∀ k, (c.flt.entry k).capture.tag ≠ 0 → (b.tagRec (c.flt.entry k).capture.tag).st = .held →
      (c.tagRec (c.flt.entry k).capture.tag).st = .held) : c.Held := by
  intro k named
  obtain ⟨same, stands⟩ := names k named
  obtain ⟨stood, held⟩ := h k (same ▸ named)
  exact ⟨stands stood, tags k named (same ▸ held)⟩

/-- A completion ends a tag that no capture record names; with hold it is the one the capture record names after it
(R20, R203). -/
theorem Books.Held.recordCompletion {s : State} (h : s.books.Held) (x : HeldCompletion) :
    (s.recordCompletion x).books.Held := by
  cases flying : s.inFlight x.completion.tag with
  | false =>
    rw [State.recordCompletion_discards flying]
    exact h
  | true =>
    obtain ⟨_, st⟩ := State.inFlight_iff.mp flying
    have stillHeld (n : Nat) (named : n ≠ 0) (held : (s.tagRec n).st = .held) :
        ((s.recordCompletion x).tagRec n).st = .held := by
      rw [State.tagRec_recordCompletion_ne named fun same => absurd (st.symm.trans (same ▸ held)) (by decide)]
      exact held
    have log := congrArg State.flt (State.recordCompletion_of_inFlight flying)
    have record := congrArg TagRec.st (State.tagRec_recordCompletion_same flying)
    dsimp only at log
    split at log
    next k hold =>
      split at log
      next takes =>
        have standsNow := (Flt.takesTag_iff.mp takes).1
        have names : (s.recordCompletion x).books.flt = s.flt.nameTag k x.completion.tag := log
        intro i named
        by_cases same : i = k
        · subst same
          rw [names] at named ⊢
          obtain e | ⟨e, _⟩ := Flt.entry_setEntry s.flt i
            { s.flt.entry i with capture := { (s.flt.entry i).capture with tag := x.completion.tag } }
          · refine ⟨?_, ?_⟩
            · unfold Flt.stands Flt.nameTag
              rw [e]
              exact standsNow
            · unfold Flt.nameTag
              rw [e]
              exact record.trans (by simp [State.ended, State.takesHold, hold, takes])
          · unfold Flt.nameTag at named
            rw [e] at named
            exact absurd rfl named
        · have entry : (s.recordCompletion x).books.flt.entry i = s.flt.entry i := by
            rw [names]
            exact Flt.entry_setEntry_ne _ _ _ _ same
          rw [entry] at named ⊢
          obtain ⟨stood, held⟩ := h i named
          refine ⟨?_, stillHeld _ named held⟩
          unfold Flt.stands at stood ⊢
          rw [entry, names]
          exact stood
      next =>
        refine h.of_keepsNames ?_ fun k => stillHeld _
        rw [show (s.recordCompletion x).books.flt = s.flt from log]
        exact .refl _
    next =>
      refine h.of_keepsNames ?_ fun k => stillHeld _
      rw [show (s.recordCompletion x).books.flt = s.flt from log]
      exact .refl _

/-- An order is never accepted with a HELD tag (R17). -/
theorem State.tagRec_acceptTag_of_held {s : State} {c : TagClass} {kind tag : Byte} (free : s.tagCheck c tag = none)
    {n : Nat} (named : n ≠ 0) (held : (s.tagRec n).st = .held) : ((s.acceptTag kind tag).tagRec n).st = .held := by
  unfold State.acceptTag
  split
  · exact held
  next some =>
    have tagNamed : tag.toNat ≠ 0 := fun e => some (BitVec.eq_of_toNat_eq e)
    have other : n ≠ tag.toNat := by
      rintro rfl
      cases c with
      | immediate => simp [State.tagCheck, tagNamed] at free
      | optional =>
        simp only [State.tagCheck, tagNamed, TagRec.check, held, if_false] at free
        split at free <;> contradiction
      | required =>
        simp only [State.tagCheck, tagNamed, TagRec.check, held, if_false] at free
        split at free <;> contradiction
    have table : (s.acceptTag kind tag).tagRec n = (s.openTag tag.toNat kind).tagRec n := by
      unfold State.acceptTag
      rw [if_neg some]
      rfl
    refine (congrArg TagRec.st ((State.tagRec_setTag s tagNamed named _).trans (if_neg ?_))).trans held
    exact fun same => other same.1

theorem State.flt_acceptTag (s : State) (kind tag : Byte) : (s.acceptTag kind tag).flt = s.flt := by
  unfold State.acceptTag State.openTag State.setTag
  split
  · rfl
  · split <;> rfl

theorem BookMove.held {b c : Books} (m : BookMove b c) (h : b.Held) : c.Held := by
  cases m with
  | counts _ k => exact h.of_keepsNames (.countAndPlace _ k) fun _ _ => id
  | fills _ k x free => exact h.of_keepsNames (.setEntry fun named => absurd free named) fun _ _ => id
  | completes s x => exact h.recordCompletion x
  | accepts s order kind tag free =>
    refine h.of_keepsNames ?_ fun _ named held => State.tagRec_acceptTag_of_held free named held
    rw [show (s.acceptTag kind tag).books.flt = s.flt from State.flt_acceptTag ..]
    exact .refl _
  | releases s n =>
    obtain ⟨names, others⟩ := Flt.KeepsNames.releaseTag s.flt n
    have log : (s.releaseTag n).books.flt = s.flt.releaseTag n := by
      unfold State.releaseTag State.setTag State.books
      dsimp only
      split <;> rfl
    refine h.of_keepsNames (log ▸ names) fun k named held => ?_
    have other := others k (log ▸ named)
    rw [← log] at other
    by_cases zero : n = 0
    · subst zero
      exact held
    · exact (congrArg TagRec.st ((State.tagRec_setTag s zero named _).trans (if_neg fun same => other same.1))).trans held
  | keeps _ need f p table => exact h
  | resets b kept fewer =>
    refine h.of_keepsNames (.refl _) fun k _ held => ?_
    unfold Books.tagRec at held ⊢
    simp only [List.getD_eq_getElem?_getD, List.getElem?_map] at held ⊢
    revert held
    cases b.tags[(b.flt.entry k).capture.tag - 1]? with
    | none => exact fun held => absurd held (by decide)
    | some x => exact fun held => (congrArg TagRec.st (TagRec.afterReset_of_held held)).trans held
  | restarts _ => exact resetMeetsTheInvariants.2.2.1
  | clears s p done =>
    refine h.of_keepsNames (.leaveSets (Flt.free_of_placeResult done)) fun k named held => ?_
    unfold Books.tagRec State.books at held ⊢
    rwa [(State.tags_leaveSets s p).1]
  | routes _ k x m other => exact h.of_keepsNames (.setEntry fun _ => ⟨rfl, id⟩) fun _ _ => id

/-! ## The tables stay whole -/

/-- `tagTableWhole`, of the books alone. -/
def Books.Whole (b : Books) : Prop :=
  b.tags.length = 32 ∧ (∀ k ∈ b.kept, k.part.tags.length = 32) ∧ b.flt.kinds.length = 26

theorem tagTableWhole_iff {s : State} : tagTableWhole s ↔ s.books.Whole := Iff.rfl

/-- The tables keep their lengths, and the copies are the same. -/
theorem Books.Whole.of_lengths {b c : Books} (h : b.Whole) (tags : c.tags.length = b.tags.length)
    (kept : c.kept = b.kept) (kinds : c.flt.kinds.length = b.flt.kinds.length) : c.Whole := by
  obtain ⟨htags, hkept, hkinds⟩ := h
  exact ⟨tags.trans htags, kept ▸ hkept, kinds.trans hkinds⟩

@[simp] theorem Flt.length_setEntry (f : Flt) (k : FaultKind) (r : FaultRec) :
    (f.setEntry k r).kinds.length = f.kinds.length := List.length_set ..

theorem Flt.length_countAndPlace (f : Flt) (k : FaultKind) : (f.countAndPlace k).kinds.length = f.kinds.length := by
  unfold Flt.countAndPlace
  dsimp only
  split <;> exact Flt.length_setEntry ..

theorem Flt.length_leave (f : Flt) (p : UsedPlace) : (f.leave p).kinds.length = f.kinds.length := by
  have left : (if p.next then f.setEntry p.kind { f.entry p.kind with inNext := false } else f).kinds.length =
      f.kinds.length := by
    split
    · exact Flt.length_setEntry ..
    · rfl
  unfold Flt.leave
  dsimp only
  generalize (if p.next then f.setEntry p.kind { f.entry p.kind with inNext := false } else f) = g at left ⊢
  split <;> exact left

theorem State.setTag_lengths (s : State) (n : Nat) (r : TagRec) :
    (s.setTag n r).shc.tags.length = s.shc.tags.length ∧ (s.setTag n r).shc.kept = s.shc.kept := by
  unfold State.setTag
  split
  · exact ⟨rfl, rfl⟩
  · exact ⟨List.length_set .., rfl⟩

theorem Books.Whole.recordCompletion {s : State} (h : s.books.Whole) (x : HeldCompletion) :
    (s.recordCompletion x).books.Whole := by
  cases flying : s.inFlight x.completion.tag with
  | false =>
    rw [State.recordCompletion_discards flying]
    exact h
  | true =>
    rw [State.recordCompletion_of_inFlight flying]
    refine h.of_lengths (State.setTag_lengths ..).1 (State.setTag_lengths ..).2 ?_
    unfold State.books
    dsimp only
    split
    · split
      · exact Flt.length_setEntry ..
      · rfl
    · rfl

theorem Books.Whole.acceptTag {s : State} (h : s.books.Whole) (kind tag : Byte) :
    (s.acceptTag kind tag).books.Whole := by
  refine h.of_lengths ?_ ?_ (congrArg (fun f => f.kinds.length) (State.flt_acceptTag s kind tag)) <;>
    unfold State.books State.acceptTag <;> dsimp only <;> split
  · rfl
  · exact (State.setTag_lengths ..).1
  · rfl
  · exact (State.setTag_lengths ..).2

theorem BookMove.whole {b c : Books} (m : BookMove b c) (h : b.Whole) : c.Whole := by
  cases m with
  | counts _ k => exact h.of_lengths rfl rfl (Flt.length_countAndPlace ..)
  | fills _ k x free => exact h.of_lengths rfl rfl (Flt.length_setEntry ..)
  | completes s x => exact h.recordCompletion x
  | accepts s order kind tag free => exact h.acceptTag kind tag
  | releases s n =>
    refine h.of_lengths (State.setTag_lengths ..).1 (State.setTag_lengths ..).2 ?_
    have log : (s.setTag n { s.tagRec n with st := .done }).flt = s.flt := by
      unfold State.setTag
      split <;> rfl
    exact (List.length_map ..).trans (congrArg (fun f => f.kinds.length) log)
  | keeps _ need f p table =>
    obtain ⟨tags, kept, kinds⟩ := h
    refine ⟨tags, fun k mem => ?_, kinds⟩
    obtain rfl | old := List.mem_cons.mp mem
    · exact (congrArg List.length table).trans tags
    · exact kept k (List.mem_of_mem_filter old)
  | resets b kept fewer =>
    obtain ⟨tags, all, kinds⟩ := h
    exact ⟨(List.length_map ..).trans tags, fun k mem => all k (fewer mem), kinds⟩
  | restarts _ => exact resetMeetsTheInvariants.2.2.2.2.2.1
  | clears s p done =>
    obtain ⟨tags, kept⟩ := State.tags_leaveSets s p
    refine h.of_lengths (congrArg List.length tags) kept ?_
    unfold State.books
    rw [State.flt_leaveSets]
    split
    · exact (Flt.length_setEntry ..).trans (Flt.length_leave ..)
    · exact Flt.length_leave ..
  | routes _ k x m other => exact h.of_lengths rfl rfl (Flt.length_setEntry ..)

/-! ## O5 -/

/-- What every move of the books keeps, every step keeps. -/
theorem keeps_of_bookMove {P : Books → Prop} (kept : ∀ {b c}, BookMove b c → P b → P c) :
    Keeps fun s => P s.books := by
  have chain {b c : Books} (moved : Relation.ReflTransGen BookMove b c) (before : P b) : P c := by
    induction moved with
    | refl => exact before
    | tail _ m ih => exact kept m ih
  exact fun s t before h => chain (moves_of_step h) before

/-- Settles O5: a step is a chain of moves of the books, and each move keeps both. -/
theorem capturedTagsStayHeld : Obligations.CapturedTagsStayHeld :=
  ⟨keeps_of_bookMove BookMove.held, keeps_of_bookMove BookMove.whole⟩

end Sys2Proof.Machine
end

