-- ==== Sys2Proof/Proofs/Startup.lean ====
section
/-! PROOFS. O16 and O17: the directory check fails, or the part enters RUNNING (R6). -/

namespace Sys2Proof.Machine

theorem exec_directoryCheckDone {e : Env} {s : State} (p : s.shc.part = .starting) :
    exec (.directoryCheckDone e) s = .next ((s.arrive e).directoryChecked.serve.judgeSlots (s.arrive e)) :=
  congrArg Host.Outcome.next (if_pos p)

/-- A check that leaves the slots and asks for no safe stop ends its step. -/
theorem exec_directoryCheckDone_of {e : Env} {s t : State} (p : s.shc.part = .starting)
    (checked : (s.arrive e).directoryChecked = t) (stop : t.stop.requests = []) (a : t.slotA.st = s.slotA.st)
    (b : t.slotB.st = s.slotB.st) : exec (.directoryCheckDone e) s = .next t := by
  rw [exec_directoryCheckDone p, checked, State.serve_none stop,
    State.judgeSlots_of_slots (t := s.arrive e) a b]

theorem State.directoryChecked_bad {s : State} {reason : Nat} (h : s.checkDirectory = .bad reason) :
    s.directoryChecked = s.startFails reason := by
  unfold State.directoryChecked
  rw [h]

theorem State.directoryChecked_busError {s : State} {bad : Nat} (h : s.checkDirectory = .busError bad) :
    s.directoryChecked = (s.startFails 5).busFault .shc bad := by
  unfold State.directoryChecked
  rw [h]

theorem State.directoryChecked_good {s : State} {d : Directory} (h : s.checkDirectory = .good d) :
    s.directoryChecked = s.enterRunning d := by
  unfold State.directoryChecked
  rw [h]

/-! ## The check -/

theorem State.checkDirectory_misplaced {s : State} (h : s.shc.partBase.toNat % 16384 ≠ 0) :
    s.checkDirectory = .bad 1 := if_pos h

theorem State.checkDirectory_busError {s : State} {bad : Nat} (place : s.shc.partBase.toNat % 16384 = 0)
    (h : s.busError s.shc.partBase.toNat 256 = some bad) : s.checkDirectory = .busError bad := by
  simp [State.checkDirectory, State.busRead, place, h]

theorem State.checkDirectory_read {s : State} (place : s.shc.partBase.toNat % 16384 = 0)
    (h : s.busError s.shc.partBase.toNat 256 = none) :
    s.checkDirectory =
      (directoryOf (Memory.readAll s.mem s.shc.partBase.toNat 256)).check s.shc.partBase.toNat := by
  simp [State.checkDirectory, State.busRead, place, h]

theorem Directory.check_format {d : Directory} {base : Nat} (h : d.format ≠ 0x4D41) : d.check base = .bad 4 := if_pos h

theorem Directory.check_sizes {d : Directory} {base : Nat} (h : d.format = 0x4D41) (sizes : d.sizesGood = false) :
    d.check base = .bad 2 := by simp [Directory.check, h, sizes]

theorem Directory.check_areas {d : Directory} {base : Nat} (h : d.format = 0x4D41) (sizes : d.sizesGood = true)
    (areas : d.areasGood base = false) : d.check base = .bad 3 := by simp [Directory.check, h, sizes, areas]

theorem Directory.sizesGood_iff {d : Directory} : d.sizesGood = true ↔
    d.streamSize.toNat % 65536 = 0 ∧ 4194304 ≤ d.streamSize.toNat ∧ d.streamSize.toNat ≤ 268435456 ∧
      d.stagingSize.toNat = 192512 := by
  simp [Directory.sizesGood, and_assoc]

/-- Settles O16, step by step of the check. -/
theorem badDirectoryStopsTheStart : Obligations.BadDirectoryStopsTheStart := by
  intro e s starting quiet u base d failed
  have fails {reason : Nat} (check : u.checkDirectory = .bad reason) :
      exec (.directoryCheckDone e) s = .next (failed reason) :=
    exec_directoryCheckDone_of starting (State.directoryChecked_bad check) quiet rfl rfl
  refine ⟨fun misplaced => fails (State.checkDirectory_misplaced misplaced), fun bad place error asks => ?_,
    fun place error => ?_⟩
  · have checked : u.directoryChecked = (u.startFails 5).fault .commonBus .none 1 (BitVec.ofNat 32 bad) :=
      State.directoryChecked_busError (State.checkDirectory_busError place error)
    have stop := State.fault_stop (s := u.startFails 5) .none 1 (BitVec.ofNat 32 bad) asks
    exact exec_directoryCheckDone_of starting checked (stop ▸ quiet) (by rw [State.fault_slotA]; rfl)
      (by rw [State.fault_slotB]; rfl)
  · have read : u.checkDirectory = d.check base := State.checkDirectory_read place error
    refine ⟨fun format => fails (read.trans (Directory.check_format format)), fun format => ⟨fun sizes => ?_,
      fun sizes areas => fails (read.trans (Directory.check_areas format sizes areas))⟩⟩
    have small : d.sizesGood = false := Bool.eq_false_iff.mpr fun good => sizes (Directory.sizesGood_iff.mp good)
    exact fails (read.trans (Directory.check_sizes format small))

/-! ## The entry to RUNNING -/

/-- A slot that has just taken the level of its detect switch: it probes the card, or it is EMPTY (R136). -/
structure Slot.Detected (old : Slot) (now : Nat) (v : Slot) : Prop where
  card : old.detect = true → v.st = .probing ∧ v.command = some .identify ∧ v.timer = some (now + 500000)
  noCard : old.detect = false → v.st = .empty

/-- Reading a detect switch replaces the slot, and the guard follows; nothing else changes. -/
theorem State.readDetect_eq (s : State) (x : SlotId) :
    ∃ v g, s.readDetect x = { s.setSlot x v with cgd := g } ∧ (s.slot x).Detected s.now v := by
  unfold State.readDetect
  split
  next card =>
    cases x <;>
      exact ⟨_, _, rfl, fun _ => ⟨rfl, rfl, rfl⟩, fun none => absurd (card.symm.trans none) (by decide)⟩
  next noCard => exact ⟨_, _, rfl, fun card => absurd card noCard, fun _ => rfl⟩

/-- The VFL takes the kind in FIRST, and then each kind in NEXT (R193). -/
theorem Vfl.rebuild_eq (v : Vfl) (f : Flt) :
    v.rebuild f = (f.first.toList ++ FaultKind.all.filter fun k => (f.entry k).inNext).foldl
      (fun v k => v.kindEntered k (f.entry k).mapping) v := by
  unfold Vfl.rebuild
  cases f.first <;> rfl

/-- What the entry to RUNNING makes of every field of the state. -/
theorem State.enterRunning_eq (s : State) (d : Directory) :
    ∃ a b g, s.enterRunning d = { s with
        shc := { s.shc with
          part := .running, turn := .a, tags := s.shc.tags.map TagRec.afterReset,
          streamBase := d.streamBase, streamSize := d.streamSize }
        ftu := { s.ftu with flywheel := some (s.now + s.ftu.format.rate.period), lastStart := s.now }
        ldu := { s.ldu with timer := some s.now }
        acu := { s.acu with stagingBase := d.stagingBase, clockTimer := some (s.now + 2000) }
        vfl := s.vfl.rebuild s.flt
        slotA := a, slotB := b, cgd := g } ∧
      s.slotA.Detected s.now a ∧ s.slotB.Detected s.now b := by
  unfold State.enterRunning
  extract_lets _ _ _ _ s1
  obtain ⟨a, g, ha, detectedA⟩ := s1.readDetect_eq .a
  obtain ⟨b, g', hb, detectedB⟩ := State.readDetect_eq (s1.readDetect .a) .b
  refine ⟨a, b, g', ?_, detectedA, ?_⟩
  · rw [hb, ha]
    rfl
  · rw [ha] at detectedB
    exact detectedB

theorem State.judgeSlots_warnings (s t : State) : (s.judgeSlots t).vfl.warnings = s.vfl.warnings ∧
    (s.judgeSlots t).vfl.droppedWarnings = s.vfl.droppedWarnings := by
  unfold State.judgeSlots
  split
  · exact ⟨rfl, rfl⟩
  · exact ⟨rfl, rfl⟩

/-- Settles O17, from what the entry makes of the state; judging the tally outputs leaves all of it. -/
theorem goodDirectoryPutsThePartInRunning : Obligations.GoodDirectoryPutsThePartInRunning := by
  intro e s d starting quiet good
  obtain ⟨a, b, g, entered, detectedA, detectedB⟩ := (s.arrive e).enterRunning_eq d
  obtain ⟨warnings, dropped⟩ := ((s.arrive e).enterRunning d).judgeSlots_warnings (s.arrive e)
  refine ⟨((s.arrive e).enterRunning d).judgeSlots (s.arrive e), ?_, ?_⟩
  · rw [exec_directoryCheckDone starting, State.directoryChecked_good good,
      State.serve_none (by rw [entered]; exact quiet)]
  · generalize (s.arrive e).enterRunning d = r at entered warnings dropped
    have table : (r.judgeSlots (s.arrive e)).shc.tags = s.shc.tags.map TagRec.afterReset := by
      rw [State.judgeSlots_shc, entered]
      rfl
    have tags := State.tagRec_afterReset table
    subst entered
    rw [State.judgeSlots_shc, State.judgeSlots_acu, State.judgeSlots_ftu, State.judgeSlots_ldu,
      State.judgeSlots_slotA, State.judgeSlots_slotB, State.judgeSlots_mst, State.judgeSlots_sta,
      State.judgeSlots_deck, State.judgeSlots_flt, State.judgeSlots_stop, State.judgeSlots_mem]
    exact ⟨rfl, rfl, rfl, rfl, rfl, fun n held => (tags n).trans (TagRec.afterReset_of_held held),
      fun n free => (tags n).trans (TagRec.afterReset_of_not_held free), rfl, rfl, rfl, detectedA.card,
      detectedA.noCard, detectedB.card, detectedB.noCard,
      ⟨warnings.trans (congrArg Vfl.warnings (Vfl.rebuild_eq ..)),
        dropped.trans (congrArg Vfl.droppedWarnings (Vfl.rebuild_eq ..))⟩, rfl, rfl, rfl, rfl, rfl, rfl⟩

end Sys2Proof.Machine
end

