-- ==== Sys2Proof/Proofs/MemoryRules.lean ====
section
/-! PROOFS. What common memory reads after writes, and the writes of a block that the bus does not fail. -/

namespace Sys2Proof.Machine

/-! ## Bytes -/

@[simp] theorem length_leBytes (n v : Nat) : (leBytes n v).length = n := by
  induction n generalizing v with
  | zero => rfl
  | succ n ih => exact congrArg (· + 1) (ih _)

@[simp] theorem length_leSigned (n : Nat) (v : Int) : (leSigned n v).length = n := length_leBytes ..

@[simp] theorem length_w32 (w : Word) : (w32 w).length = 4 := length_leBytes ..

@[simp] theorem length_zeros (n : Nat) : (zeros n).length = n := List.length_replicate

theorem ofLe_lt (l : List Byte) : ofLe l < 256 ^ l.length := by
  induction l with
  | nil => exact Nat.one_pos
  | cons b l ih =>
    have low := b.isLt
    simp only [ofLe, List.length_cons, Nat.pow_succ]
    omega

@[simp] theorem length_pieces {α : Type} (n k : Nat) (l : List α) : (pieces n k l).length = k := by
  induction k generalizing l with
  | zero => rfl
  | succ k ih => exact congrArg (· + 1) (ih _)

@[simp] theorem length_entriesOf (n : Nat) (b : List Byte) : (entriesOf n b).length = n :=
  (List.length_map ..).trans (length_pieces ..)

/-! ## Reading -/

@[simp] theorem Memory.length_readAll (m : List Host.Cell) (a n : Nat) : (Memory.readAll m a n).length = n := by
  induction n generalizing a with
  | zero => rfl
  | succ n ih => exact congrArg (· + 1) (ih _)

/-- Bytes that read alike one by one read alike together. -/
theorem Memory.readAll_congr {m m' : List Host.Cell} {a n : Nat}
    (h : ∀ x, a ≤ x → x < a + n → Memory.read m x = Memory.read m' x) :
    Memory.readAll m a n = Memory.readAll m' a n := by
  induction n generalizing a with
  | zero => rfl
  | succ n ih =>
    unfold Memory.readAll
    rw [h a le_rfl (by omega), ih fun x low high => h x (by omega) (by omega)]

theorem Memory.drop_readAll (m : List Host.Cell) (a n i : Nat) (h : i ≤ n) :
    (Memory.readAll m a n).drop i = Memory.readAll m (a + i) (n - i) := by
  induction i generalizing a n with
  | zero => rfl
  | succ i ih =>
    obtain ⟨n, rfl⟩ : ∃ k, n = k + 1 := ⟨n - 1, by omega⟩
    rw [Memory.readAll, List.drop_succ_cons, ih (a + 1) n (by omega)]
    congr 1 <;> omega

theorem Memory.take_readAll (m : List Host.Cell) (a n i : Nat) (h : i ≤ n) :
    (Memory.readAll m a n).take i = Memory.readAll m a i := by
  induction i generalizing a n with
  | zero => rfl
  | succ i ih =>
    obtain ⟨n, rfl⟩ : ∃ k, n = k + 1 := ⟨n - 1, by omega⟩
    rw [Memory.readAll, List.take_succ_cons, ih (a + 1) n (by omega), Memory.readAll]

/-- A word of a block that is read is the word at its own address. -/
theorem wordAt_readAll (m : List Host.Cell) (a : Nat) {n i : Nat} (h : i + 4 ≤ n) :
    wordAt (Memory.readAll m a n) i = BitVec.ofNat 32 (ofLe (Memory.readAll m (a + i) 4)) := by
  unfold wordAt
  rw [Memory.drop_readAll m a n i (by omega), Memory.take_readAll m _ _ 4 (by omega)]

/-- The number of a word in memory. -/
theorem toNat_wordOfRead (m : List Host.Cell) (a : Nat) :
    (BitVec.ofNat 32 (ofLe (Memory.readAll m a 4))).toNat = ofLe (Memory.readAll m a 4) := by
  have small := ofLe_lt (Memory.readAll m a 4)
  rw [Memory.length_readAll] at small
  exact (BitVec.toNat_ofNat ..).trans (Nat.mod_eq_of_lt small)

/-! ## Writing -/

/-- What has been written reads back. -/
theorem Memory.readAll_writeAll_same {m : List Host.Cell} (wf : Memory.wf m = true) {a n : Nat} {l : List Byte}
    (len : l.length = n) : Memory.readAll (Memory.writeAll m a l) a n = l := by
  subst len
  induction l generalizing m a with
  | nil => rfl
  | cons v l ih =>
    rw [Memory.writeAll, List.length_cons, Memory.readAll, ih (Memory.wf_write wf),
      Memory.read_writeAll_outside (Memory.wf_write wf) (.inl (by omega)), Memory.read_write wf, if_pos rfl]

/-- What is written elsewhere changes nothing of what is read. -/
theorem Memory.readAll_writeAll_apart {m : List Host.Cell} (wf : Memory.wf m = true) {a b n : Nat} {l : List Byte}
    (apart : a + n ≤ b ∨ b + l.length ≤ a) : Memory.readAll (Memory.writeAll m b l) a n = Memory.readAll m a n :=
  Memory.readAll_congr fun x low high => Memory.read_writeAll_outside wf (by omega)

/-- A byte written alone reads back. -/
theorem Memory.read_writeAll_byte {m : List Host.Cell} (wf : Memory.wf m = true) (a : Nat) (v : Byte) :
    Memory.read (Memory.writeAll m a [v]) a = v := by
  rw [Memory.writeAll, Memory.writeAll, Memory.read_write wf, if_pos rfl]

/-! ## The window of the part (R217) -/

/-- No address fails, and the part's window lies below the top of the bus. -/
structure State.OpenBus (s : State) : Prop where
  errors : s.busErrors = []
  top : s.shc.partBase.toNat + 16384 ≤ 4294967296

/-- A write into the part's window stands. -/
theorem State.OpenBus.blockWrite {s : State} (h : s.OpenBus) (x : BusBlock) {a : Nat} {b : List Byte}
    (fits : a + b.length ≤ s.shc.partBase.toNat + 16384) :
    s.blockWrite x a b = ({ s with mem := Memory.writeAll s.mem a b }, true) :=
  State.blockWrite_ok (State.busError_none h.errors (fits.trans h.top))

theorem State.OpenBus.withMem {s : State} (h : s.OpenBus) (m : List Host.Cell) :
    State.OpenBus { s with mem := m } := ⟨h.errors, h.top⟩

theorem State.sheetAddress_eq (s : State) (x : SheetId) :
    s.sheetAddress x = s.shc.partBase.toNat + (if x = .a then 0x100 else 0xA00) := by
  cases x <;> rfl

/-- A sheet lies in the window, below the report slots. -/
theorem State.sheetAddress_bounds (s : State) (x : SheetId) :
    s.shc.partBase.toNat + 0x100 ≤ s.sheetAddress x ∧ s.sheetAddress x + 0x900 ≤ s.shc.partBase.toNat + 0x1300 := by
  cases x <;> simp [State.sheetAddress]

/-- The two sheets lie apart. -/
theorem State.sheetAddress_apart (s : State) {x y : SheetId} (h : x ≠ y) :
    s.sheetAddress x + 0x900 ≤ s.sheetAddress y ∨ s.sheetAddress y + 0x900 ≤ s.sheetAddress x := by
  cases x <;> cases y <;> simp_all [State.sheetAddress]

theorem State.reportAddress_bounds (s : State) (f : FrameNo) :
    s.shc.partBase.toNat + 0x1400 ≤ s.reportAddress f ∧ s.reportAddress f + 0x1000 ≤ s.shc.partBase.toNat + 0x3400 := by
  unfold State.reportAddress reportSlot
  omega

/-! ## An occurrence without a completion (R202, R203) -/

theorem State.flt_noticeEntered (s : State) (k : FaultKind) : (s.noticeEntered k).flt = s.flt := by
  unfold State.noticeEntered
  split <;> rfl

theorem State.shc_noticeEntered (s : State) (k : FaultKind) : (s.noticeEntered k).shc = s.shc := by
  unfold State.noticeEntered
  split <;> rfl

theorem State.flt_route (s : State) (k : FaultKind) : (s.route k).flt = s.flt := by
  unfold State.route
  split <;> rfl

theorem State.shc_route (s : State) (k : FaultKind) : (s.route k).shc = s.shc := by
  unfold State.route
  split <;> rfl

@[simp] theorem State.fault_shc (s : State) (k : FaultKind) (x : FaultSource) (d1 d2 : Word) :
    (s.fault k x d1 d2).shc = s.shc := by
  unfold State.fault State.occur State.capture
  dsimp only
  rw [State.shc_route]
  split <;> split <;> simp only [State.shc_noticeEntered]

/-- The Fault Log after an occurrence: counted and placed, and the capture of a kind that did not stand is filled. -/
theorem State.fault_flt (s : State) (k : FaultKind) (x : FaultSource) (d1 d2 : Word) :
    (s.fault k x d1 d2).flt =
      if s.flt.stands k then s.flt.countAndPlace k
      else (s.flt.countAndPlace k).setEntry k
        { (s.flt.countAndPlace k).entry k with capture := ⟨s.frame, x, d1, d2, 0⟩ } := by
  have frame (u : State) : (u.noticeEntered k).frame = u.frame := by
    unfold State.noticeEntered
    split <;> rfl
  unfold State.fault State.occur State.capture State.captureOf
  dsimp only
  rw [State.flt_route]
  split <;> split <;> simp only [State.flt_noticeEntered, frame] <;> rfl

theorem Flt.entry_countAndPlace_ne (f : Flt) {k i : FaultKind} (h : i ≠ k) :
    (f.countAndPlace k).entry i = f.entry i := by
  unfold Flt.countAndPlace
  dsimp only
  split <;> exact Flt.entry_setEntry_ne _ _ _ _ h

/-- The entry of a kind that is counted and placed. -/
theorem Flt.entry_countAndPlace {f : Flt} (whole : f.kinds.length = 26) (k : FaultKind) :
    (f.countAndPlace k).entry k =
      { f.entry k with count := satSucc 255 (f.entry k).count, inNext := (f.entry k).inNext || f.first.isSome } := by
  unfold Flt.countAndPlace
  dsimp only
  split
  next empty =>
    rw [empty, Option.isSome_none, Bool.or_false]
    exact Flt.entry_setEntry_whole whole ..
  next some =>
    rw [some, Option.isSome_some, Bool.or_true]
    exact Flt.entry_setEntry_whole whole ..

/-- A kind that is counted and placed stands. -/
theorem Flt.stands_countAndPlace {f : Flt} (whole : f.kinds.length = 26) (k : FaultKind) :
    (f.countAndPlace k).stands k = true := by
  unfold Flt.stands
  rw [Flt.entry_countAndPlace whole]
  cases first : f.first with
  | none => simp [Flt.countAndPlace, first]
  | some i => simp

theorem satSucc_eq (n v : Nat) : satSucc n v = min n (v + 1) := by
  unfold satSucc
  split <;> omega

/-- An occurrence without a completion leaves every other kind's entry. -/
theorem State.entry_fault_ne (s : State) {k i : FaultKind} (x : FaultSource) (d1 d2 : Word) (h : i ≠ k) :
    (s.fault k x d1 d2).flt.entry i = s.flt.entry i := by
  rw [State.fault_flt]
  split
  · exact Flt.entry_countAndPlace_ne _ h
  · rw [Flt.entry_setEntry_ne _ _ _ _ h, Flt.entry_countAndPlace_ne _ h]

/-- An occurrence without a completion is logged, naming no tag. -/
theorem State.logged_fault {s : State} (whole : s.flt.kinds.length = 26) (k : FaultKind) (x : FaultSource)
    (d1 d2 : Word) : logged s (s.fault k x d1 d2) k x d1 d2 0 := by
  have placed := Flt.entry_countAndPlace whole k
  have stands := Flt.stands_countAndPlace whole k
  unfold logged
  rw [State.fault_flt]
  cases stood : s.flt.stands k with
  | true =>
    rw [if_pos rfl, if_pos rfl, placed]
    exact ⟨stands, satSucc_eq .., rfl⟩
  | false =>
    have filled (c : Capture) := Flt.entry_setEntry_whole ((Flt.length_countAndPlace s.flt k).trans whole) k
      { (s.flt.countAndPlace k).entry k with capture := c }
    rw [if_neg (by decide), if_neg (by decide), filled]
    refine ⟨?_, ?_, rfl⟩
    · unfold Flt.stands at stands ⊢
      rw [filled]
      exact stands
    · rw [placed]
      exact satSucc_eq ..

end Sys2Proof.Machine
end

