-- ==== Sys2Proof/Proofs/FrameStarts.lean ====
section
/-! PROOFS. O22 and O23: a frame start at the SHC (R12 to R15, R22, R23). -/

namespace Sys2Proof.Machine

/-! ## What taking a frame start writes -/

/-- The reports in writing once one for `f` has begun: one in the same slot stops (R23, R24). -/
def Shc.reportsWith (c : Shc) (f : FrameNo) (note : Option SheetNote) : List ReportJob :=
  c.reports.filter (fun r => r.frame.toNat % 2 != f.toNat % 2) ++ [⟨f, note⟩]

/-- A report begins, and its start stamp stands. -/
theorem State.beginReport_ok {s : State} {f : FrameNo} (h : s.busError (s.reportAddress f) 4 = none)
    (note : Option SheetNote) :
    s.beginReport f note = { s with
      shc := { s.shc with reports := s.shc.reportsWith f note }
      mem := Memory.writeAll s.mem (s.reportAddress f) (w32 f) } := by
  unfold State.beginReport
  dsimp only
  rw [State.blockWrite_ok h]
  rfl

theorem State.starve_off {s : State} (off : s.cgd.st = .off) : s.starve = s := by
  unfold State.starve
  rw [off]
  exact ite_self s

theorem State.keepWord_off {s : State} (off : s.cgd.st = .off) (w : Word) : s.keepWord w = (s, false) := by
  unfold State.keepWord
  dsimp only
  rw [off]

/-- A frame start at which no sheet is taken, where the guard has nothing to count. -/
theorem State.noSheet_ok {s : State} {x : FrameStart} (idle : s.starve = s)
    (h : s.busError (s.reportAddress x.opened.frame) 4 = none) :
    s.noSheet x = { s with
      shc := { s.shc with reports := s.shc.reportsWith x.opened.frame none }
      mem := Memory.writeAll s.mem (s.reportAddress x.opened.frame) (w32 x.opened.frame) } := by
  unfold State.noSheet
  rw [idle, State.beginReport_ok h]

/-- Outside RUNNING the guard counts no starvation (R174). -/
theorem State.starve_notRunning {s : State} (h : s.shc.part ≠ .running) : s.starve = s := by
  unfold State.starve
  exact if_pos h

/-- A sheet is taken: TAKEN and the take frame are written, and the turn flips. -/
theorem State.markTaken_ok {s : State} (bus : s.OpenBus) (x : FrameStart) :
    s.markTaken x = { s with
      shc := { s.shc with turn := s.shc.turn.other }
      mem := Memory.writeAll (Memory.writeAll s.mem (s.sheetAddress s.shc.turn) (leBytes 4 2))
        (s.sheetAddress s.shc.turn + 0x10) (w32 x.opened.frame) } := by
  have ⟨_, high⟩ := s.sheetAddress_bounds s.shc.turn
  unfold State.markTaken
  dsimp only
  rw [bus.blockWrite .shc (by rw [length_leBytes]; omega)]
  dsimp only
  rw [(bus.withMem _).blockWrite]
  · rfl
  · rw [length_w32]
    dsimp only
    omega

/-- A sheet is returned with its result. -/
theorem State.writeReturned_ok {s : State} (bus : s.OpenBus) (y : SheetId) (r : SheetResult) :
    s.writeReturned y r = { s with
      mem := Memory.writeAll (Memory.writeAll s.mem (s.sheetAddress y + 0x14) [b8 r.code])
        (s.sheetAddress y) (leBytes 4 3) } := by
  have ⟨_, high⟩ := s.sheetAddress_bounds y
  unfold State.writeReturned
  dsimp only
  rw [bus.blockWrite .shc (by rw [List.length_singleton]; omega)]
  dsimp only
  rw [(bus.withMem _).blockWrite]
  rw [length_leBytes]
  dsimp only
  omega

/-! ## What reading the turn sheet gives -/

/-- The number of a word at an address. -/
def State.wordIn (s : State) (a : Nat) : Nat := ofLe (Memory.readAll s.mem a 4)

/-- The header at an address. -/
def State.headerIn (s : State) (a : Nat) : SheetHeader := headerOf (Memory.readAll s.mem a 32)

theorem State.st_headerIn (s : State) (a : Nat) : (s.headerIn a).st.toNat = s.wordIn a :=
  (congrArg BitVec.toNat (wordAt_readAll s.mem a (by omega))).trans (toNat_wordOfRead ..)

theorem State.count_headerIn (s : State) (a : Nat) : (s.headerIn a).count.toNat = s.wordIn (a + 12) :=
  (congrArg BitVec.toNat (wordAt_readAll s.mem a (by omega))).trans (toNat_wordOfRead ..)

theorem State.seq_headerIn (s : State) (a : Nat) : (s.headerIn a).seq = BitVec.ofNat 32 (s.wordIn (a + 4)) :=
  wordAt_readAll s.mem a (by omega)

theorem State.posted_headerIn {s : State} {a : Nat} : (s.headerIn a).st = 1 ↔ s.wordIn a = 1 := by
  rw [← State.st_headerIn, ← BitVec.toNat_inj]
  rfl

/-- Which accesses fail depends on the addresses that fail alone. -/
theorem State.spansError_congr {s t : State} (h : s.busErrors = t.busErrors) (l : List (Nat × Nat)) :
    s.spansError l = t.spansError l := by
  induction l with
  | nil => rfl
  | cons span l ih =>
    unfold State.spansError State.busError
    rw [ih, h]

/-- The copies kept for a frame are not in what the sheet read looks at. -/
theorem State.readSheet_keepParts (s : State) (f : FrameNo) : (s.keepParts f).readSheet = s.readSheet := by
  unfold State.readSheet
  simp only [State.spansError_congr (State.keepParts_busErrors s f)]
  rfl

theorem State.readSheet_failedHeader {s : State} {bad : Nat}
    (h : s.busError (s.sheetAddress s.shc.turn) 32 = some bad) : s.readSheet = .failed bad := by
  simp [State.readSheet, State.busRead, h]

/-- The turn sheet once its header is read. -/
theorem State.readSheet_ok {s : State} (h : s.busError (s.sheetAddress s.shc.turn) 32 = none) :
    s.readSheet =
      if (s.headerIn (s.sheetAddress s.shc.turn)).st ≠ 1 then .notPosted
      else if 64 < (s.headerIn (s.sheetAddress s.shc.turn)).count.toNat then
        .malformed (s.headerIn (s.sheetAddress s.shc.turn))
      else
        match s.spansError (entrySpans s.mem (s.sheetAddress s.shc.turn + 0x20)
            (s.headerIn (s.sheetAddress s.shc.turn)).count.toNat) with
        | some bad => .failed bad
        | none => .whole (s.headerIn (s.sheetAddress s.shc.turn))
          (entriesOf (s.headerIn (s.sheetAddress s.shc.turn)).count.toNat
            (Memory.readAll s.mem (s.sheetAddress s.shc.turn + 0x20)
              (32 * (s.headerIn (s.sheetAddress s.shc.turn)).count.toNat))) := by
  unfold State.readSheet State.busRead
  dsimp only
  rw [h]
  rfl

section
variable {s : State} (read : s.busError (s.sheetAddress s.shc.turn) 32 = none)
include read

theorem State.readSheet_notPosted (h : s.wordIn (s.sheetAddress s.shc.turn) ≠ 1) : s.readSheet = .notPosted :=
  (State.readSheet_ok read).trans (if_pos (State.posted_headerIn.not.mpr h))

variable (posted : s.wordIn (s.sheetAddress s.shc.turn) = 1)
include posted

theorem State.readSheet_malformed (h : 64 < s.wordIn (s.sheetAddress s.shc.turn + 12)) :
    s.readSheet = .malformed (s.headerIn (s.sheetAddress s.shc.turn)) := by
  rw [State.readSheet_ok read, if_neg (not_not_intro (State.posted_headerIn.mpr posted)),
    if_pos (by rwa [State.count_headerIn])]

variable (few : s.wordIn (s.sheetAddress s.shc.turn + 12) ≤ 64)
include few

theorem State.readSheet_failedEntries {bad : Nat}
    (h : s.spansError (entrySpans s.mem (s.sheetAddress s.shc.turn + 32)
      (s.wordIn (s.sheetAddress s.shc.turn + 12))) = some bad) : s.readSheet = .failed bad := by
  rw [State.readSheet_ok read, if_neg (not_not_intro (State.posted_headerIn.mpr posted)), State.count_headerIn,
    if_neg (by omega), h]

theorem State.readSheet_whole
    (h : s.spansError (entrySpans s.mem (s.sheetAddress s.shc.turn + 32)
      (s.wordIn (s.sheetAddress s.shc.turn + 12))) = none) :
    s.readSheet = .whole (s.headerIn (s.sheetAddress s.shc.turn))
      (entriesOf (s.wordIn (s.sheetAddress s.shc.turn + 12)) (Memory.readAll s.mem (s.sheetAddress s.shc.turn + 32)
        (32 * s.wordIn (s.sheetAddress s.shc.turn + 12)))) := by
  rw [State.readSheet_ok read, if_neg (not_not_intro (State.posted_headerIn.mpr posted)), State.count_headerIn,
    if_neg (by omega), h]

end

/-- The entries of a sheet lie in the window. -/
theorem State.OpenBus.spansError {s : State} (h : s.OpenBus) {n : Nat} (few : n ≤ 64) :
    s.spansError (entrySpans s.mem (s.sheetAddress s.shc.turn + 32) n) = none := by
  have ⟨_, high⟩ := s.sheetAddress_bounds s.shc.turn
  have top := h.top
  refine State.spansError_none fun span mem => ?_
  obtain ⟨i, hi, rfl⟩ := List.mem_map.mp mem
  have small := List.mem_range.mp hi
  have params := paramBytes_le (Memory.read s.mem (s.sheetAddress s.shc.turn + 32 + 32 * i))
  exact State.busError_none h.errors (by omega)

/-- The header of a sheet lies in the window. -/
theorem State.OpenBus.readHeader {s : State} (h : s.OpenBus) (x : SheetId) :
    s.busError (s.sheetAddress x) 32 = none := by
  have ⟨_, high⟩ := s.sheetAddress_bounds x
  have top := h.top
  exact State.busError_none h.errors (by omega)

/-- The start stamp of a report lies in the window. -/
theorem State.OpenBus.stamp {s : State} (h : s.OpenBus) (f : FrameNo) : s.busError (s.reportAddress f) 4 = none := by
  have ⟨_, high⟩ := s.reportAddress_bounds f
  have top := h.top
  exact State.busError_none h.errors (by omega)

/-! ## Taking a frame start -/

/-- A frame start at which no sheet is taken, in full: the copies for the frame that ends, and the report begun. -/
def State.tookNone (s : State) (x : FrameStart) : State :=
  { s.keepParts x.ended.frame with
    shc := { (s.keepParts x.ended.frame).shc with reports := s.shc.reportsWith x.opened.frame none }
    mem := Memory.writeAll s.mem (s.reportAddress x.opened.frame) (w32 x.opened.frame) }

/-- The memory after a sheet is marked TAKEN. -/
def State.takenMem (s : State) (x : FrameStart) : List Host.Cell :=
  Memory.writeAll (Memory.writeAll s.mem (s.sheetAddress s.shc.turn) (leBytes 4 2))
    (s.sheetAddress s.shc.turn + 0x10) (w32 x.opened.frame)

/-- The memory after a malformed sheet is taken and returned. -/
def State.malformedMem (s : State) (x : FrameStart) : List Host.Cell :=
  Memory.writeAll (Memory.writeAll (s.takenMem x) (s.sheetAddress s.shc.turn + 0x14) [b8 SheetResult.malformed.code])
    (s.sheetAddress s.shc.turn) (leBytes 4 3)

/-- The entries of a sheet taken, as they wait for their dispatch. -/
def State.jobOf (s : State) (x : FrameStart) (k : SheetHeader) (l : List SheetEntry) : SheetJob :=
  { sheet := s.shc.turn, seq := k.seq, frame := x.opened.frame, tripped := false, todo := l, results := [],
    opened := [], late := [] }

/-- A frame start at which a sheet is taken, in full. -/
def State.tookSheet (s : State) (x : FrameStart) (k : SheetHeader) (l : List SheetEntry) : State :=
  { s.keepParts x.ended.frame with
    shc := { (s.keepParts x.ended.frame).shc with
      turn := s.shc.turn.other, job := some (s.jobOf x k l).skipUnknown
      reports := s.shc.reportsWith x.opened.frame (some ⟨s.shc.turn, k.seq, .ok⟩) }
    mem := Memory.writeAll (s.takenMem x) (s.reportAddress x.opened.frame) (w32 x.opened.frame) }

section
variable {s : State} {x : FrameStart}

theorem State.shcTakes_resetting (p : s.shc.part ≠ .running)
    (stamp : s.busError (s.reportAddress x.opened.frame) 4 = none) : s.shcTakes x = s.tookNone x := by
  unfold State.shcTakes
  dsimp only
  rw [if_neg p]
  exact State.noSheet_ok (State.starve_notRunning p) stamp

theorem State.shcOvertaken_off (off : s.cgd.st = .off)
    (stamp : s.busError (s.reportAddress x.opened.frame) 4 = none) : s.shcOvertaken x = s.tookNone x :=
  State.noSheet_ok (s := s.keepParts x.ended.frame) (State.starve_off off) stamp

variable (p : s.shc.part = .running) (off : s.cgd.st = .off)
include p off

theorem State.shcTakes_notPosted (h : s.readSheet = .notPosted)
    (stamp : s.busError (s.reportAddress x.opened.frame) 4 = none) : s.shcTakes x = s.tookNone x := by
  unfold State.shcTakes
  dsimp only
  rw [if_pos p, State.readSheet_keepParts, h]
  exact State.noSheet_ok (s := s.keepParts x.ended.frame) (State.starve_off off) stamp

/-- A posted sheet that is read whole is taken, with the guard's check out of the way. -/
theorem State.shcTakes_whole (bus : s.OpenBus) {k : SheetHeader} {l : List SheetEntry}
    (h : s.readSheet = .whole k l) :
    s.shcTakes x = s.tookSheet x k l := by
  unfold State.shcTakes
  dsimp only
  rw [if_pos p, State.readSheet_keepParts, h]
  unfold State.takeSheet
  dsimp only
  rw [State.markTaken_ok (s := s.keepParts x.ended.frame) ⟨bus.errors, bus.top⟩ x]
  rw [State.keepWord_off (by exact off)]
  dsimp only [State.setShc]
  rw [State.beginReport_ok]
  · rfl
  · exact State.OpenBus.stamp ⟨bus.errors, bus.top⟩ _

/-- A malformed sheet is taken and returned, with the guard's check out of the way. -/
theorem State.shcTakes_malformed (bus : s.OpenBus) {k : SheetHeader}
    (h : s.readSheet = .malformed k) :
    s.shcTakes x = (State.fault { s.keepParts x.ended.frame with
      shc := { (s.keepParts x.ended.frame).shc with turn := s.shc.turn.other }
      mem := s.malformedMem x } .sheetMalformed .none (wordOfNat s.shc.turn.code) k.count).beginReport
      x.opened.frame (some ⟨s.shc.turn, k.seq, .malformed⟩) := by
  unfold State.shcTakes
  dsimp only
  rw [if_pos p, State.readSheet_keepParts, h]
  unfold State.takeMalformed
  dsimp only
  rw [State.markTaken_ok (s := s.keepParts x.ended.frame) ⟨bus.errors, bus.top⟩ x]
  rw [State.keepWord_off (by exact off)]
  rw [State.writeReturned_ok]
  · rfl
  · exact ⟨bus.errors, bus.top⟩

end

end Sys2Proof.Machine
end

