-- ==== Sys2Proof/Proofs/SheetsTaken.lean ====
section
/-! PROOFS. O22 and O23: the frame start command, with no sheet, a malformed one, or a posted one (R12 to R15). -/

namespace Sys2Proof.Machine

/-! ## The command -/

/-- The SHC's next frame start leaves its queue. -/
def State.reached (s : State) (e : Env) (rest : List FrameStart) : State :=
  (s.arrive e).setShc { s.shc with arriving := rest }

/-- A frame start that leaves the slots and asks for no safe stop ends its step. -/
theorem exec_shcFrameStart_of {e : Env} {s t : State} {x : FrameStart} {rest : List FrameStart}
    (queue : s.shc.arriving = x :: rest) (taken : (s.reached e rest).shcReached x = t) (stop : t.stop.requests = [])
    (a : t.slotA.st = s.slotA.st) (b : t.slotB.st = s.slotB.st) : exec (.shcFrameStart e) s = .next t := by
  have run : exec (.shcFrameStart e) s =
      .next (((s.reached e rest).shcReached x).serve.judgeSlots (s.arrive e)) := by
    show execShcFrameStart e s = _
    unfold execShcFrameStart
    dsimp only
    rw [State.arrive_shc, queue]
    rfl
  rw [run, taken, State.serve_none stop, State.judgeSlots_of_slots (t := s.arrive e) a b]

theorem State.shcReached_free {s : State} {x : FrameStart} (job : s.shc.job = none) (held : s.shc.heldStart = none) :
    s.shcReached x = s.shcTakes x := by
  unfold State.shcReached
  rw [held, job]
  rfl

theorem State.shcReached_busy {s : State} {x : FrameStart} (job : s.shc.job ≠ none) (held : s.shc.heldStart = none) :
    s.shcReached x = s.setShc { s.shc with heldStart := some x } := by
  unfold State.shcReached
  rw [held]
  exact if_pos (Option.isSome_iff_ne_none.mpr job)

theorem State.shcReached_held {s : State} {x h : FrameStart} (held : s.shc.heldStart = some h) :
    s.shcReached x = (s.shcOvertaken h).setShc { (s.shcOvertaken h).shc with heldStart := some x } := by
  unfold State.shcReached
  rw [held]

/-- With no frame start held the copies needed are those of the reports and the queues. -/
theorem State.copyNeeded_free {s : State} (held : s.shc.heldStart = none) :
    s.copyNeeded = fun f => (s.shc.reports.any fun r => r.frame == f) || awaiting f s.shc.arriving ||
      awaiting f s.vfl.arriving := by
  funext f
  simp [State.copyNeeded, held]

/-- `State.tookNone`, where no sheet is in dispatch and no frame start is held. -/
theorem State.tookNone_free {s : State} {x : FrameStart} (job : s.shc.job = none) (held : s.shc.heldStart = none) :
    s.tookNone x = { s with
      shc := { s.shc with
        reports := s.shc.reportsWith x.opened.frame none
        kept := keepCopy (fun f => (s.shc.reports.any fun r => r.frame == f) || awaiting f s.shc.arriving ||
          awaiting f s.vfl.arriving) x.ended.frame ⟨s.shc.part, s.shc.tags⟩ s.shc.kept }
      cgd := { s.cgd with
        kept := keepCopy (fun f => (s.shc.reports.any fun r => r.frame == f) || awaiting f s.shc.arriving ||
          awaiting f s.vfl.arriving) x.ended.frame ⟨s.cgd.st, s.cgd.count⟩ s.cgd.kept }
      stop := { s.stop with
        kept := keepCopy (fun f => (s.shc.reports.any fun r => r.frame == f) || awaiting f s.shc.arriving ||
          awaiting f s.vfl.arriving) x.ended.frame ⟨s.stop.stopping, s.stop.enable, s.stop.record⟩ s.stop.kept }
      mem := Memory.writeAll s.mem (s.reportAddress x.opened.frame) (w32 x.opened.frame) } := by
  have idle : s.shc.dispatches x.ended.frame = false := by
    unfold Shc.dispatches
    rw [job]
    rfl
  unfold State.tookNone State.keepParts
  rw [idle, State.copyNeeded_free held]
  rfl

theorem State.requests_tookNone (s : State) (x : FrameStart) : (s.tookNone x).stop.requests = s.stop.requests := rfl

theorem State.slotA_tookNone (s : State) (x : FrameStart) : (s.tookNone x).slotA = s.slotA := rfl

theorem State.slotB_tookNone (s : State) (x : FrameStart) : (s.tookNone x).slotB = s.slotB := rfl

/-! ## The memory after a sheet is taken -/

section
variable {s : State} (wf : Memory.wf s.mem = true) (x : FrameStart)
include wf

theorem State.wf_takenMem : Memory.wf (s.takenMem x) = true := Memory.wf_writeAll (Memory.wf_writeAll wf)

theorem State.wf_malformedMem : Memory.wf (s.malformedMem x) = true :=
  Memory.wf_writeAll (Memory.wf_writeAll (State.wf_takenMem wf x))

theorem State.state_takenMem : Memory.readAll (s.takenMem x) (s.sheetAddress s.shc.turn) 4 = leBytes 4 2 :=
  (Memory.readAll_writeAll_apart (Memory.wf_writeAll wf) (.inl (by omega))).trans
    (Memory.readAll_writeAll_same wf (length_leBytes ..))

theorem State.frame_takenMem :
    Memory.readAll (s.takenMem x) (s.sheetAddress s.shc.turn + 16) 4 = w32 x.opened.frame :=
  Memory.readAll_writeAll_same (Memory.wf_writeAll wf) (length_w32 _)

/-- Marking a sheet TAKEN writes its state word and its take frame alone. -/
theorem State.read_takenMem {a : Nat} (word : a < s.sheetAddress s.shc.turn ∨ s.sheetAddress s.shc.turn + 4 ≤ a)
    (frame : a < s.sheetAddress s.shc.turn + 16 ∨ s.sheetAddress s.shc.turn + 20 ≤ a) :
    Memory.read (s.takenMem x) a = Memory.read s.mem a :=
  (Memory.read_writeAll_outside (Memory.wf_writeAll wf) (by rw [length_w32]; omega)).trans
    (Memory.read_writeAll_outside wf (by rw [length_leBytes]; omega))

theorem State.state_malformedMem :
    Memory.readAll (s.malformedMem x) (s.sheetAddress s.shc.turn) 4 = leBytes 4 3 :=
  Memory.readAll_writeAll_same (Memory.wf_writeAll (State.wf_takenMem wf x)) (length_leBytes ..)

theorem State.frame_malformedMem :
    Memory.readAll (s.malformedMem x) (s.sheetAddress s.shc.turn + 16) 4 = w32 x.opened.frame := by
  have taken := State.wf_takenMem wf x
  unfold State.malformedMem
  rw [Memory.readAll_writeAll_apart (Memory.wf_writeAll taken) (.inr (by rw [length_leBytes]; omega)),
    Memory.readAll_writeAll_apart taken (.inl (by omega)), State.frame_takenMem wf]

theorem State.result_malformedMem : Memory.read (s.malformedMem x) (s.sheetAddress s.shc.turn + 20) = 2 := by
  have taken := State.wf_takenMem wf x
  unfold State.malformedMem
  rw [Memory.read_writeAll_outside (Memory.wf_writeAll taken) (.inr (by rw [length_leBytes]; omega)),
    Memory.read_writeAll_byte taken]
  rfl

/-- A malformed sheet's entries stand. -/
theorem State.read_malformedMem {a : Nat} (entry : s.sheetAddress s.shc.turn + 32 ≤ a) :
    Memory.read (s.malformedMem x) a = Memory.read s.mem a := by
  have taken := State.wf_takenMem wf x
  unfold State.malformedMem
  rw [Memory.read_writeAll_outside (Memory.wf_writeAll taken) (.inr (by rw [length_leBytes]; omega)),
    Memory.read_writeAll_outside taken (.inr (by rw [List.length_singleton]; omega)),
    State.read_takenMem wf x (.inr (by omega)) (.inr (by omega))]

end

/-! ## O22, clause by clause -/

/-- The head of the queue is taken, where nothing is in dispatch and nothing is held. -/
theorem exec_shcFrameStart_takes {e : Env} {s t : State} {x : FrameStart} {rest : List FrameStart}
    (queue : s.shc.arriving = x :: rest) (job : s.shc.job = none) (held : s.shc.heldStart = none)
    (took : (s.reached e rest).shcTakes x = t) (quiet : t.stop.requests = []) (a : t.slotA = s.slotA)
    (b : t.slotB = s.slotB) : exec (.shcFrameStart e) s = .next t :=
  exec_shcFrameStart_of queue ((State.shcReached_free (s := s.reached e rest) job held).trans took) quiet
    (congrArg Slot.st a) (congrArg Slot.st b)

section
variable {e : Env} {s : State} {x : FrameStart} {rest : List FrameStart}

/-- The turn sheet's address, as the statements name it. -/
theorem State.reached_sheet (s : State) (e : Env) (rest : List FrameStart) :
    (s.reached e rest).sheetAddress (s.reached e rest).shc.turn =
      s.shc.partBase.toNat + (if s.shc.turn = .a then 0x100 else 0xA00) :=
  State.sheetAddress_eq ..

theorem frameStart_takesNone (queue : s.shc.arriving = x :: rest) (job : s.shc.job = none)
    (held : s.shc.heldStart = none) (quiet : s.stop.requests = [])
    (took : (s.reached e rest).shcTakes x = (s.reached e rest).tookNone x) :
    exec (.shcFrameStart e) s = .next ((s.reached e rest).tookNone x) :=
  exec_shcFrameStart_takes queue job held took ((State.requests_tookNone ..).trans quiet) (State.slotA_tookNone ..)
    (State.slotB_tookNone ..)

/-- The turn sheet is not POSTED: nothing is taken. -/
theorem frameStart_notPosted (queue : s.shc.arriving = x :: rest) (p : s.shc.part = .running)
    (job : s.shc.job = none) (held : s.shc.heldStart = none) (quiet : s.stop.requests = []) (off : s.cgd.st = .off)
    (read : (s.reached e rest).busError ((s.reached e rest).sheetAddress s.shc.turn) 32 = none)
    (notPosted : (s.reached e rest).wordIn ((s.reached e rest).sheetAddress s.shc.turn) ≠ 1)
    (stamp : (s.reached e rest).busError ((s.reached e rest).reportAddress x.opened.frame) 4 = none) :
    exec (.shcFrameStart e) s = .next ((s.reached e rest).tookNone x) := by
  have sheet : (s.reached e rest).readSheet = .notPosted :=
    State.readSheet_notPosted (s := s.reached e rest) read notPosted
  exact frameStart_takesNone queue job held quiet (State.shcTakes_notPosted (s := s.reached e rest) p off sheet stamp)

/-- A malformed sheet is taken and returned. -/
def State.returnedMalformed (s : State) (x : FrameStart) : State :=
  { s.keepParts x.ended.frame with
    shc := { (s.keepParts x.ended.frame).shc with turn := s.shc.turn.other }
    mem := s.malformedMem x }

/-- A malformed sheet is taken and returned, and SHEET_MALFORMED is logged. -/
def State.tookMalformed (s : State) (x : FrameStart) : State :=
  (s.returnedMalformed x).fault .sheetMalformed .none (wordOfNat s.shc.turn.code)
    (s.headerIn (s.sheetAddress s.shc.turn)).count

/-- A bus error while the sheet is read is logged, and nothing is taken. -/
def State.tookFailed (s : State) (x : FrameStart) (bad : Nat) : State :=
  (s.keepParts x.ended.frame).fault .commonBus .none 1 (BitVec.ofNat 32 bad)

theorem State.OpenBus.tookMalformed {s : State} (bus : s.OpenBus) (x : FrameStart) : (s.tookMalformed x).OpenBus := by
  refine ⟨(State.fault_busErrors ..).trans bus.errors, ?_⟩
  unfold State.tookMalformed
  rw [State.fault_shc]
  exact bus.top

theorem SheetId.other_ne (x : SheetId) : x.other ≠ x := by cases x <;> decide

end

section
variable {s : State} {x : FrameStart}

theorem State.shc_tookMalformed (s : State) (x : FrameStart) :
    (s.tookMalformed x).shc = { (s.keepParts x.ended.frame).shc with turn := s.shc.turn.other } :=
  State.fault_shc (s.returnedMalformed x) ..

theorem State.stop_tookMalformed (asks : asksNoStop s .sheetMalformed = true) :
    (s.tookMalformed x).stop = (s.keepParts x.ended.frame).stop :=
  State.fault_stop (s := s.returnedMalformed x) _ _ _ asks

theorem State.logged_tookMalformed (whole : s.flt.kinds.length = 26) :
    logged s (s.tookMalformed x) .sheetMalformed .none (wordOfNat s.shc.turn.code)
      (s.headerIn (s.sheetAddress s.shc.turn)).count 0 :=
  State.logged_fault (s := s.returnedMalformed x) whole ..

theorem State.shc_tookFailed (s : State) (x : FrameStart) (bad : Nat) :
    (s.tookFailed x bad).shc = (s.keepParts x.ended.frame).shc := State.fault_shc ..

theorem State.cgd_tookFailed (s : State) (x : FrameStart) (bad : Nat) :
    (s.tookFailed x bad).cgd = (s.keepParts x.ended.frame).cgd := State.fault_cgd ..

theorem State.stop_tookFailed {bad : Nat} (asks : asksNoStop s .commonBus = true) :
    (s.tookFailed x bad).stop = (s.keepParts x.ended.frame).stop :=
  State.fault_stop (s := s.keepParts x.ended.frame) _ _ _ asks

/-- After a malformed sheet is taken and returned its report begins. -/
def State.begunMalformed (s : State) (x : FrameStart) : State :=
  { s.tookMalformed x with
    shc := { (s.tookMalformed x).shc with
      reports := (s.tookMalformed x).shc.reportsWith x.opened.frame
        (some ⟨s.shc.turn, (s.headerIn (s.sheetAddress s.shc.turn)).seq, .malformed⟩) }
    mem := Memory.writeAll (s.malformedMem x) (s.reportAddress x.opened.frame) (w32 x.opened.frame) }

/-- After a bus error of the sheet read the report begins, with no sheet. -/
def State.begunFailed (s : State) (x : FrameStart) (bad : Nat) : State :=
  { s.tookFailed x bad with
    shc := { (s.keepParts x.ended.frame).shc with reports := s.shc.reportsWith x.opened.frame none }
    mem := Memory.writeAll s.mem (s.reportAddress x.opened.frame) (w32 x.opened.frame) }

/-- The beginning of a report leaves the queue of Safe Stop, the slots and the Fault Log. -/
theorem State.fields_begunMalformed (s : State) (x : FrameStart) :
    (s.begunMalformed x).stop = (s.tookMalformed x).stop ∧ (s.begunMalformed x).slotA = (s.tookMalformed x).slotA ∧
    (s.begunMalformed x).slotB = (s.tookMalformed x).slotB ∧ (s.begunMalformed x).flt = (s.tookMalformed x).flt ∧
    (s.begunMalformed x).shc.job = (s.tookMalformed x).shc.job ∧
    (s.begunMalformed x).shc.turn = (s.tookMalformed x).shc.turn ∧
    (s.begunMalformed x).shc.tags = (s.tookMalformed x).shc.tags := by
  dsimp only [State.begunMalformed]
  exact ⟨rfl, rfl, rfl, rfl, rfl, rfl, rfl⟩

theorem State.fields_begunFailed (s : State) (x : FrameStart) (bad : Nat) :
    (s.begunFailed x bad).stop = (s.tookFailed x bad).stop ∧
    (s.begunFailed x bad).slotA = (s.tookFailed x bad).slotA ∧
    (s.begunFailed x bad).slotB = (s.tookFailed x bad).slotB ∧ (s.begunFailed x bad).flt = (s.tookFailed x bad).flt ∧
    (s.begunFailed x bad).cgd = (s.tookFailed x bad).cgd ∧
    (s.begunFailed x bad).shc = { (s.keepParts x.ended.frame).shc with
      reports := s.shc.reportsWith x.opened.frame none } ∧
    (s.begunFailed x bad).mem = Memory.writeAll s.mem (s.reportAddress x.opened.frame) (w32 x.opened.frame) := by
  dsimp only [State.begunFailed]
  exact ⟨rfl, rfl, rfl, rfl, rfl, rfl, rfl⟩

theorem State.shcTakes_malformed_ok (p : s.shc.part = .running) (off : s.cgd.st = .off) (bus : s.OpenBus)
    (h : s.readSheet = .malformed (s.headerIn (s.sheetAddress s.shc.turn))) : s.shcTakes x = s.begunMalformed x := by
  have took : s.shcTakes x = (s.tookMalformed x).beginReport x.opened.frame
      (some ⟨s.shc.turn, (s.headerIn (s.sheetAddress s.shc.turn)).seq, .malformed⟩) :=
    State.shcTakes_malformed p off bus h
  have mem : (s.tookMalformed x).mem = s.malformedMem x := State.fault_mem ..
  have address : (s.tookMalformed x).reportAddress x.opened.frame = s.reportAddress x.opened.frame := by
    unfold State.reportAddress State.tookMalformed
    rw [State.fault_shc]
    rfl
  rw [took, State.beginReport_ok ((bus.tookMalformed x).stamp _), mem, address]
  rfl

theorem State.shcTakes_failed_ok (p : s.shc.part = .running) (off : s.cgd.st = .off) {bad : Nat}
    (h : s.readSheet = .failed bad)
    (stamp : s.busError (s.reportAddress x.opened.frame) 4 = none) : s.shcTakes x = s.begunFailed x bad := by
  have took : s.shcTakes x = (s.tookFailed x bad).noSheet x := by
    unfold State.shcTakes
    dsimp only
    rw [if_pos p, State.readSheet_keepParts, h]
    rfl
  have shc := State.shc_tookFailed s x bad
  have mem : (s.tookFailed x bad).mem = s.mem := State.fault_mem ..
  have guard := State.cgd_tookFailed s x bad
  have errors : (s.tookFailed x bad).busErrors = s.busErrors := State.fault_busErrors ..
  have address : (s.tookFailed x bad).reportAddress x.opened.frame = s.reportAddress x.opened.frame := by
    unfold State.reportAddress
    rw [shc]
    rfl
  have still : (s.tookFailed x bad).starve = s.tookFailed x bad := State.starve_off (by rw [guard]; exact off)
  rw [took, State.noSheet_ok still (by unfold State.busError at stamp ⊢; rwa [address, errors]), shc, mem, address]
  rfl

/-- What stands in memory after a malformed sheet is taken and returned and its report has begun. -/
theorem State.mem_begunMalformed (wf : Memory.wf s.mem = true) (x : FrameStart) :
    Memory.readAll (s.begunMalformed x).mem (s.sheetAddress s.shc.turn) 4 = leBytes 4 3 ∧
    Memory.readAll (s.begunMalformed x).mem (s.sheetAddress s.shc.turn + 16) 4 = w32 x.opened.frame ∧
    Memory.read (s.begunMalformed x).mem (s.sheetAddress s.shc.turn + 20) = 2 ∧
    ∀ a, s.sheetAddress s.shc.turn + 32 ≤ a → a < s.sheetAddress s.shc.turn + 2080 →
      Memory.read (s.begunMalformed x).mem a = Memory.read s.mem a := by
  have ⟨low, high⟩ := s.sheetAddress_bounds s.shc.turn
  have ⟨stampLow, _⟩ := s.reportAddress_bounds x.opened.frame
  have wfTaken := State.wf_malformedMem wf x
  dsimp only [State.begunMalformed]
  refine ⟨?_, ?_, ?_, fun a first last => ?_⟩
  · exact (Memory.readAll_writeAll_apart wfTaken (.inl (by omega))).trans (State.state_malformedMem wf x)
  · exact (Memory.readAll_writeAll_apart wfTaken (.inl (by omega))).trans (State.frame_malformedMem wf x)
  · exact (Memory.read_writeAll_outside wfTaken (.inl (by omega))).trans (State.result_malformedMem wf x)
  · exact (Memory.read_writeAll_outside wfTaken (.inl (by omega))).trans (State.read_malformedMem wf x first)

end

section
variable {e : Env} {s : State} {x : FrameStart} {rest : List FrameStart} (queue : s.shc.arriving = x :: rest)
  (p : s.shc.part = .running) (job : s.shc.job = none) (held : s.shc.heldStart = none)
  (quiet : s.stop.requests = []) (off : s.cgd.st = .off)
include queue p job held quiet off

theorem exec_shcFrameStart_malformed (bus : (s.reached e rest).OpenBus)
    (asks : asksNoStop s .sheetMalformed = true)
    (h : (s.reached e rest).readSheet =
      .malformed ((s.reached e rest).headerIn ((s.reached e rest).sheetAddress s.shc.turn))) :
    exec (.shcFrameStart e) s = .next ((s.reached e rest).begunMalformed x) := by
  obtain ⟨stop, slotA, slotB, -⟩ := (s.reached e rest).fields_begunMalformed x
  have kept := stop.trans (State.stop_tookMalformed (s := s.reached e rest) asks)
  exact exec_shcFrameStart_takes queue job held (State.shcTakes_malformed_ok (s := s.reached e rest) p off bus h)
    ((congrArg SafeStop.requests kept).trans quiet)
    (slotA.trans (State.fault_slotA ((s.reached e rest).returnedMalformed x) ..))
    (slotB.trans (State.fault_slotB ((s.reached e rest).returnedMalformed x) ..))

theorem exec_shcFrameStart_failed {bad : Nat} (asks : asksNoStop s .commonBus = true)
    (h : (s.reached e rest).readSheet = .failed bad)
    (stamp : (s.reached e rest).busError ((s.reached e rest).reportAddress x.opened.frame) 4 = none) :
    exec (.shcFrameStart e) s = .next ((s.reached e rest).begunFailed x bad) := by
  obtain ⟨stop, slotA, slotB, -⟩ := (s.reached e rest).fields_begunFailed x bad
  have kept := stop.trans (State.stop_tookFailed (s := s.reached e rest) asks)
  exact exec_shcFrameStart_takes queue job held (State.shcTakes_failed_ok (s := s.reached e rest) p off h stamp)
    ((congrArg SafeStop.requests kept).trans quiet)
    (slotA.trans (State.fault_slotA ((s.reached e rest).keepParts x.ended.frame) ..))
    (slotB.trans (State.fault_slotB ((s.reached e rest).keepParts x.ended.frame) ..))

end

/-! ## A posted sheet -/

section
variable {s : State} {x : FrameStart}

/-- The entries that the turn sheet counts. -/
def State.turnEntries (s : State) : List SheetEntry :=
  entriesOf (s.wordIn (s.sheetAddress s.shc.turn + 12)) (Memory.readAll s.mem (s.sheetAddress s.shc.turn + 32)
    (32 * s.wordIn (s.sheetAddress s.shc.turn + 12)))

/-- The frame start at which the turn sheet is taken, in full. -/
def State.tookTurn (s : State) (x : FrameStart) : State :=
  s.tookSheet x (s.headerIn (s.sheetAddress s.shc.turn)) s.turnEntries

theorem State.shcTakes_posted (p : s.shc.part = .running) (off : s.cgd.st = .off) (bus : s.OpenBus)
    (posted : s.wordIn (s.sheetAddress s.shc.turn) = 1) (few : s.wordIn (s.sheetAddress s.shc.turn + 12) ≤ 64) :
    s.shcTakes x = s.tookTurn x :=
  State.shcTakes_whole p off bus
    (State.readSheet_whole (bus.readHeader _) posted few (bus.spansError few))

/-- The job of a sheet taken: the entries behind those of unknown kinds at the head, which have their results (R16). -/
theorem State.job_tookTurn (s : State) (x : FrameStart) :
    ∃ j k, (s.tookTurn x).shc.job = some j ∧ j.sheet = s.shc.turn ∧ j.frame = x.opened.frame ∧ j.tripped = false ∧
      j.todo = s.turnEntries.drop k ∧ j.results = List.replicate k .refusedUnknown ∧
      k ≤ s.wordIn (s.sheetAddress s.shc.turn + 12) ∧ (∀ y ∈ s.turnEntries.take k, isKnown y.kind = false) ∧
      ∀ y ys, s.turnEntries.drop k = y :: ys → isKnown y.kind = true := by
  obtain ⟨k, skipped, small, unknown, known⟩ :=
    (s.jobOf x (s.headerIn (s.sheetAddress s.shc.turn)) s.turnEntries).skipUnknown_eq
  refine ⟨_, k, congrArg some skipped, rfl, rfl, rfl, rfl, rfl, ?_, unknown, known⟩
  exact small.trans (length_entriesOf ..).le

/-- What stands in memory after a sheet is taken and its report has begun. -/
theorem State.mem_tookTurn (wf : Memory.wf s.mem = true) (x : FrameStart) :
    Memory.readAll (s.tookTurn x).mem (s.sheetAddress s.shc.turn) 4 = leBytes 4 2 ∧
    Memory.readAll (s.tookTurn x).mem (s.sheetAddress s.shc.turn + 16) 4 = w32 x.opened.frame ∧
    Memory.readAll (s.tookTurn x).mem (s.reportAddress x.opened.frame) 4 = w32 x.opened.frame ∧
    ∀ a, (a < s.sheetAddress s.shc.turn ∨ s.sheetAddress s.shc.turn + 4 ≤ a) →
      (a < s.sheetAddress s.shc.turn + 16 ∨ s.sheetAddress s.shc.turn + 20 ≤ a) →
      (a < s.reportAddress x.opened.frame ∨ s.reportAddress x.opened.frame + 4 ≤ a) →
      Memory.read (s.tookTurn x).mem a = Memory.read s.mem a := by
  have ⟨low, high⟩ := s.sheetAddress_bounds s.shc.turn
  have ⟨stampLow, _⟩ := s.reportAddress_bounds x.opened.frame
  have wfTaken := State.wf_takenMem wf x
  dsimp only [State.tookTurn, State.tookSheet]
  refine ⟨?_, ?_, Memory.readAll_writeAll_same wfTaken (length_w32 _), fun a word frame stamp => ?_⟩
  · exact (Memory.readAll_writeAll_apart wfTaken (.inl (by omega))).trans (State.state_takenMem wf x)
  · exact (Memory.readAll_writeAll_apart wfTaken (.inl (by omega))).trans (State.frame_takenMem wf x)
  · exact (Memory.read_writeAll_outside wfTaken (by rwa [length_w32])).trans (State.read_takenMem wf x word frame)

end

end Sys2Proof.Machine
end

