-- ==== Sys2Proof/Proofs/FrameStartCommand.lean ====
section
/-! PROOFS. O22 and O23, from what taking a frame start does to the state. -/

namespace Sys2Proof.Machine

/-- Settles O22: the clauses in which no sheet is taken end in `State.tookNone`, a malformed sheet in
`State.begunMalformed`, and a bus error of the sheet read in `State.begunFailed`. -/
theorem frameStartWithNoSheetOrAMalformedOne : Obligations.FrameStartWithNoSheetOrAMalformedOne := by
  refine ⟨?_, ?_, ?_, ?_, ?_, ?_⟩
  · intro e s x rest queue p job held quiet off u sheet stamp need read notPosted stampOk
    have address := State.reached_sheet s e rest
    rw [frameStart_notPosted queue p job held quiet off (address ▸ read) (address ▸ notPosted) stampOk,
      State.tookNone_free (s := s.reached e rest) job held]
    dsimp only [State.reached, State.setShc, State.arrive_shc, State.arrive_cgd]
    rw [p, off]
    rfl
  · intro e s x rest queue p job held quiet off wf errors top whole asks u sheet n posted many
    have bus : (s.reached e rest).OpenBus := ⟨errors, top⟩
    have address : (s.reached e rest).sheetAddress (s.reached e rest).shc.turn = sheet := State.reached_sheet s e rest
    have malformed := State.readSheet_malformed (bus.readHeader _) (address ▸ posted) (address ▸ many)
    have shc := State.shc_tookMalformed (s.reached e rest) x
    obtain ⟨stands, count, -⟩ := State.logged_tookMalformed (s := s.reached e rest) (x := x) whole
    have mem := State.mem_begunMalformed (s := s.reached e rest) (State.arrive_wf wf) x
    rw [address] at mem
    obtain ⟨-, -, -, log, jobNow, turn, tags⟩ := (s.reached e rest).fields_begunMalformed x
    rw [shc] at jobNow turn tags
    rw [← log] at stands count
    exact ⟨_, exec_shcFrameStart_malformed queue p job held quiet off bus asks malformed, jobNow.trans job,
      fun same => SheetId.other_ne _ (turn.symm.trans same), tags, stands, count, mem⟩
  · intro e s x rest bad queue p job held quiet off whole asks u sheet stamp n fails stampOk
    have address : (s.reached e rest).sheetAddress (s.reached e rest).shc.turn = sheet := State.reached_sheet s e rest
    have failed : (s.reached e rest).readSheet = .failed bad := by
      obtain header | ⟨header, posted, few, entries⟩ := fails
      · exact State.readSheet_failedHeader (address ▸ header)
      · refine State.readSheet_failedEntries (address ▸ header) (address ▸ posted) (address ▸ few) ?_
        rw [address]
        exact (State.spansError_congr (s := s.reached e rest) (t := u) rfl _).trans entries
    have guard := State.cgd_tookFailed (s.reached e rest) x bad
    obtain ⟨-, -, -, log, cgd, shc, mem⟩ := (s.reached e rest).fields_begunFailed x bad
    refine ⟨_, exec_shcFrameStart_failed queue p job held quiet off asks failed stampOk, ?_⟩
    unfold logged
    rw [shc, mem, log, cgd, guard]
    exact ⟨job, rfl, rfl, held, p, rfl, rfl,
      State.logged_fault (s := (s.reached e rest).keepParts x.ended.frame) whole ..,
      fun k other => State.entry_fault_ne ((s.reached e rest).keepParts x.ended.frame) _ _ _ other, off, rfl, rfl⟩
  · intro e s x rest queue p job held quiet u stamp need stampOk
    have resetting : (s.reached e rest).shc.part ≠ .running := fun running => absurd (p.symm.trans running) (by decide)
    rw [frameStart_takesNone queue job held quiet (State.shcTakes_resetting resetting stampOk),
      State.tookNone_free (s := s.reached e rest) job held]
    dsimp only [State.reached, State.setShc, State.arrive_shc, State.arrive_cgd]
    rw [p]
    rfl
  · intro e s x rest queue job held quiet
    exact exec_shcFrameStart_of queue (State.shcReached_busy (s := s.reached e rest) job held) quiet rfl rfl
  · intro e s x h rest queue held quiet off u stamp need stampOk
    have took : (s.reached e rest).shcOvertaken h = (s.reached e rest).tookNone h := State.shcOvertaken_off off stampOk
    have reached := State.shcReached_held (s := s.reached e rest) (x := x) held
    rw [took] at reached
    refine exec_shcFrameStart_of queue (reached.trans ?_) quiet rfl rfl
    have needs : (s.reached e rest).copyNeeded = need := by
      funext f
      simp only [State.copyNeeded]
      rw [show (s.reached e rest).shc.heldStart = some h from held]
      rfl
    unfold State.tookNone State.keepParts
    rw [needs]
    dsimp only [State.reached, State.setShc, State.arrive_shc, State.arrive_cgd, State.cgd, Cgd.part]
    rw [off]
    rfl

/-- Settles O23, from what taking a posted sheet does to the state. -/
theorem postedSheetIsTaken : Obligations.PostedSheetIsTaken := by
  intro e s x rest queue p job held quiet off wf errors top u sheet stamp n posted few
  have bus : (s.reached e rest).OpenBus := ⟨errors, top⟩
  have address : (s.reached e rest).sheetAddress (s.reached e rest).shc.turn = sheet := State.reached_sheet s e rest
  have took : (s.reached e rest).shcTakes x = (s.reached e rest).tookTurn x :=
    State.shcTakes_posted (s := s.reached e rest) p off bus (address ▸ posted) (address ▸ few)
  obtain ⟨j, k, jobNow, sheetIs, frame, tripped, todo, results, small, unknown, known⟩ :=
    (s.reached e rest).job_tookTurn x
  have mem := State.mem_tookTurn (s := s.reached e rest) (State.arrive_wf wf) x
  unfold State.turnEntries at todo unknown known
  rw [address] at small todo unknown known mem
  obtain ⟨state, taken, stamped, others⟩ := mem
  refine ⟨_, j, exec_shcFrameStart_takes queue job held took quiet rfl rfl, jobNow, sheetIs, frame, tripped,
    ⟨k, todo, results, small, unknown, known⟩, SheetId.other_ne _, rfl, rfl, off, ?_, state, taken, stamped, others⟩
  show ((s.reached e rest).shc.reportsWith _ _).getLast?.map _ = _
  unfold Shc.reportsWith
  rw [List.getLast?_concat]
  rfl

end Sys2Proof.Machine
end

