-- ==== Sys2Proof/Proofs/SheetsReturned.lean ====
section
/-! PROOFS. O24: the dispatch of a sheet completes (R14, R18, R20). -/

namespace Sys2Proof.Machine

/-! ## The completions that waited -/

/-- What a completion does to the tags and to the Fault Log depends on those and on the frame counter alone. -/
theorem State.recordCompletion_eq {s u : State} (flt : u.flt = s.flt) (tags : u.shc.tags = s.shc.tags)
    (counter : u.ftu.counter = s.ftu.counter) (h : HeldCompletion) :
    u.recordCompletion h = { u with
      flt := (s.recordCompletion h).flt
      shc := { u.shc with tags := (s.recordCompletion h).shc.tags } } := by
  have record (n : Nat) : u.tagRec n = s.tagRec n := by
    unfold State.tagRec
    rw [tags]
  have flies : u.inFlight h.completion.tag = s.inFlight h.completion.tag := by
    unfold State.inFlight
    rw [record]
  cases flying : s.inFlight h.completion.tag with
  | false =>
    rw [State.recordCompletion_discards flying, State.recordCompletion_discards (flies.trans flying), ← flt, ← tags]
  | true =>
    have named := (State.inFlight_iff.mp flying).1
    rw [State.recordCompletion_of_inFlight flying, State.recordCompletion_of_inFlight (flies.trans flying)]
    unfold State.setTag State.takesHold State.frame
    rw [if_neg named, if_neg named, record, flt, tags, counter]

/-- A completion leaves the frame counter. -/
theorem State.counter_recordCompletion (s : State) (h : HeldCompletion) :
    (s.recordCompletion h).ftu.counter = s.ftu.counter := by
  rw [State.recordCompletion_eq (s := s) rfl rfl rfl]

/-- The completions that waited change the tags and the Fault Log, and nothing else. -/
theorem State.takeLate_eq {s u : State} (flt : u.flt = s.flt) (tags : u.shc.tags = s.shc.tags)
    (counter : u.ftu.counter = s.ftu.counter) (l : List HeldCompletion) :
    u.takeLate l = { u with
      flt := (s.takeLate l).flt
      shc := { u.shc with tags := (s.takeLate l).shc.tags } } := by
  induction l generalizing s u with
  | nil =>
    show u = _
    rw [show s.takeLate [] = s from rfl, ← flt, ← tags]
  | cons h l ih =>
    have next := State.recordCompletion_eq flt tags counter h
    have rest := ih (s := s.recordCompletion h) (u := u.recordCompletion h) (by rw [next]) (by rw [next])
      (by rw [State.counter_recordCompletion, State.counter_recordCompletion, counter])
    show (u.recordCompletion h).takeLate l = _
    rw [rest, next]
    rfl

/-- A tag of which no completion waited stands. -/
theorem State.tagRec_takeLate_ne {n : Nat} (hn : n ≠ 0) {l : List HeldCompletion}
    (other : ∀ h ∈ l, h.completion.tag ≠ n) (s : State) : (s.takeLate l).tagRec n = s.tagRec n := by
  induction l generalizing s with
  | nil => rfl
  | cons h l ih =>
    obtain ⟨first, rest⟩ := List.forall_mem_cons.mp other
    exact (ih rest (s.recordCompletion h)).trans (State.tagRec_recordCompletion_ne hn first.symm)

/-! ## The result bytes -/

/-- The memory after the result bytes of a sheet are written, from entry `n` on. -/
def resultsMem (m : List Host.Cell) (base : Nat) : Nat → List Result → List Host.Cell
  | _, [] => m
  | n, r :: l => resultsMem (Memory.writeAll m (base + 0x22 + 32 * n) [b8 r.code]) base (n + 1) l

theorem State.writeResults_ok {s : State} (bus : s.OpenBus) (base : Nat) {n : Nat} {l : List Result}
    (fits : base + 0x22 + 32 * (n + l.length) ≤ s.shc.partBase.toNat + 16384) :
    s.writeResults base n l = { s with mem := resultsMem s.mem base n l } := by
  induction l generalizing s n with
  | nil => rfl
  | cons r l ih =>
    rw [List.length_cons] at fits
    unfold State.writeResults
    rw [bus.blockWrite .shc (by rw [List.length_singleton]; omega), ih (bus.withMem _) (by dsimp only; omega)]
    rfl

theorem wf_resultsMem {m : List Host.Cell} (wf : Memory.wf m = true) (base n : Nat) (l : List Result) :
    Memory.wf (resultsMem m base n l) = true := by
  induction l generalizing m n with
  | nil => exact wf
  | cons r l ih => exact ih (Memory.wf_writeAll wf) (n + 1)

/-- The result bytes are all that is written. -/
theorem read_resultsMem_other {m : List Host.Cell} (wf : Memory.wf m = true) (base : Nat) {n a : Nat} {l : List Result}
    (other : ∀ i, i < l.length → a ≠ base + 34 + 32 * (n + i)) :
    Memory.read (resultsMem m base n l) a = Memory.read m a := by
  induction l generalizing m n with
  | nil => rfl
  | cons r l ih =>
    have first := other 0 (Nat.succ_pos _)
    unfold resultsMem
    rw [ih (Memory.wf_writeAll wf) fun i hi => by
      have next := other (i + 1) (Nat.succ_lt_succ hi)
      omega]
    exact Memory.read_writeAll_outside wf (by rw [List.length_singleton]; omega)

/-- Every entry's result stands in its byte (R18). -/
theorem read_resultsMem_result {m : List Host.Cell} (wf : Memory.wf m = true) (base : Nat) {n i : Nat} {r : Result}
    {l : List Result} (h : l[i]? = some r) :
    Memory.read (resultsMem m base n l) (base + 34 + 32 * (n + i)) = b8 r.code := by
  induction l generalizing m n i with
  | nil => exact absurd h (by simp)
  | cons q l ih =>
    unfold resultsMem
    cases i with
    | zero =>
      obtain rfl : q = r := Option.some.inj h
      rw [read_resultsMem_other (Memory.wf_writeAll wf) base fun i _ => by omega, Nat.add_zero]
      exact Memory.read_writeAll_byte wf _ _
    | succ i =>
      have step := ih (Memory.wf_writeAll (a := base + 0x22 + 32 * n) (l := [b8 q.code]) wf) (n := n + 1) (i := i) h
      rwa [show n + 1 + i = n + (i + 1) by omega] at step

/-! ## The sheet in memory once it is RETURNED -/

/-- The memory after a sheet is RETURNED. -/
def State.returnedMem (s : State) (j : SheetJob) : List Host.Cell :=
  Memory.writeAll
    (Memory.writeAll (resultsMem s.mem (s.sheetAddress j.sheet) 0 j.results) (s.sheetAddress j.sheet + 0x14)
      [b8 j.result.code])
    (s.sheetAddress j.sheet) (leBytes 4 3)

/-- What the host reads of a RETURNED sheet (R18). -/
def ReturnedIn (m : List Host.Cell) (sheet : Nat) (j : SheetJob) : Prop :=
  (∀ n r, j.results[n]? = some r → Memory.read m (sheet + 32 + 32 * n + 2) = BitVec.ofNat 8 r.code) ∧
    Memory.read m (sheet + 20) = (if j.tripped then 3 else 1) ∧ Memory.readAll m sheet 4 = leBytes 4 3

/-- Memory that stands in the sheet keeps it RETURNED. -/
theorem ReturnedIn.of_same {m m' : List Host.Cell} {sheet : Nat} {j : SheetJob} (h : ReturnedIn m sheet j)
    (few : j.results.length ≤ 64)
    (same : ∀ a, sheet ≤ a → a < sheet + 0x900 → Memory.read m' a = Memory.read m a) : ReturnedIn m' sheet j := by
  obtain ⟨results, result, state⟩ := h
  refine ⟨fun n r hr => ?_, ?_, ?_⟩
  · have small := (List.getElem?_eq_some_iff.mp hr).1
    exact (same _ (by omega) (by omega)).trans (results n r hr)
  · exact (same _ (by omega) (by omega)).trans result
  · exact (Memory.readAll_congr fun a low high => same a low (by omega)).trans state

section
variable {s : State} (wf : Memory.wf s.mem = true) (j : SheetJob)
include wf

theorem State.wf_returnedMem : Memory.wf (s.returnedMem j) = true :=
  Memory.wf_writeAll (Memory.wf_writeAll (wf_resultsMem wf ..))

theorem State.returnedIn_returnedMem : ReturnedIn (s.returnedMem j) (s.sheetAddress j.sheet) j := by
  have wfResults := wf_resultsMem wf (s.sheetAddress j.sheet) 0 j.results
  have wfResult := Memory.wf_writeAll (a := s.sheetAddress j.sheet + 0x14) (l := [b8 j.result.code]) wfResults
  unfold State.returnedMem
  refine ⟨fun n r hr => ?_, ?_, Memory.readAll_writeAll_same wfResult (length_leBytes ..)⟩
  · rw [Memory.read_writeAll_outside wfResult (.inr (by rw [length_leBytes]; omega)),
      Memory.read_writeAll_outside wfResults (.inr (by rw [List.length_singleton]; omega))]
    have at_ := read_resultsMem_result wf (s.sheetAddress j.sheet) (n := 0) hr
    rwa [show s.sheetAddress j.sheet + 34 + 32 * (0 + n) = s.sheetAddress j.sheet + 32 + 32 * n + 2 by omega] at at_
  · rw [Memory.read_writeAll_outside wfResult (.inr (by rw [length_leBytes]; omega)),
      Memory.read_writeAll_byte wfResults]
    unfold SheetJob.result
    split <;> rfl

/-- Returning a sheet writes its state word, its result and its result bytes alone. -/
theorem State.read_returnedMem {a : Nat} (word : a < s.sheetAddress j.sheet ∨ s.sheetAddress j.sheet + 4 ≤ a)
    (result : a ≠ s.sheetAddress j.sheet + 20)
    (results : ∀ n, n < j.results.length → a ≠ s.sheetAddress j.sheet + 32 + 32 * n + 2) :
    Memory.read (s.returnedMem j) a = Memory.read s.mem a := by
  have wfResults := wf_resultsMem wf (s.sheetAddress j.sheet) 0 j.results
  unfold State.returnedMem
  rw [Memory.read_writeAll_outside (Memory.wf_writeAll wfResults) (by rwa [length_leBytes]),
    Memory.read_writeAll_outside wfResults (by rw [List.length_singleton]; omega)]
  refine read_resultsMem_other wf _ fun i hi => ?_
  have byte := results i hi
  omega

end

/-! ## The sheet is RETURNED -/

/-- What returning a sheet makes of the state: `kept` are the copies of the tag table then. -/
def State.gaveBack (s : State) (j : SheetJob) (kept : List (Kept ShcPart)) : State :=
  { s with
    shc := { s.shc with job := none, kept := kept, tags := (s.takeLate j.late).shc.tags }
    flt := (s.takeLate j.late).flt
    mem := s.returnedMem j }

/-- Returning a sheet may keep a copy of the tag table. -/
theorem State.keepReturned_eq (s : State) (j : SheetJob) :
    ∃ kept, s.keepReturned j = s.setShc { s.shc with kept := kept } := by
  unfold State.keepReturned
  split
  · exact ⟨_, rfl⟩
  · exact ⟨s.shc.kept, rfl⟩

theorem State.returnSheet_ok {s : State} (bus : s.OpenBus) {j : SheetJob} (few : j.results.length ≤ 64) :
    ∃ kept, s.returnSheet j = s.gaveBack j kept := by
  have ⟨_, high⟩ := s.sheetAddress_bounds j.sheet
  have results := State.writeResults_ok bus (s.sheetAddress j.sheet) (n := 0) (l := j.results) (by omega)
  have written := State.writeReturned_ok (bus.withMem (resultsMem s.mem (s.sheetAddress j.sheet) 0 j.results))
    j.sheet j.result
  unfold State.returnSheet
  dsimp only
  rw [results, written]
  generalize given : State.setShc _ _ = w
  obtain ⟨kept, keeps⟩ := State.keepReturned_eq w j
  subst given
  refine ⟨kept, ?_⟩
  rw [keeps, State.takeLate_eq (s := s)]
  all_goals rfl

theorem State.OpenBus.gaveBack {s : State} (bus : s.OpenBus) (j : SheetJob) (kept : List (Kept ShcPart)) :
    (s.gaveBack j kept).OpenBus := ⟨bus.errors, bus.top⟩

/-- The command, where the entries of a sheet in dispatch are all answered. -/
theorem exec_sheetReturned {e : Env} {s : State} {j : SheetJob} (job : s.shc.job = some j) (done : j.todo = []) :
    exec (.sheetReturned e) s = .next (((s.arrive e).sheetDone j).serve.judgeSlots (s.arrive e)) := by
  show execSheetReturned e s = _
  unfold execSheetReturned
  dsimp only
  rw [State.arrive_shc, job]
  dsimp only
  rw [done]
  rfl

/-- A completed dispatch that leaves the slots and asks for no safe stop ends its step. -/
theorem exec_sheetReturned_of {e : Env} {s t : State} {j : SheetJob} (job : s.shc.job = some j) (done : j.todo = [])
    (finished : (s.arrive e).sheetDone j = t) (quiet : t.stop.requests = []) (a : t.slotA = s.slotA)
    (b : t.slotB = s.slotB) : exec (.sheetReturned e) s = .next t := by
  rw [exec_sheetReturned job done, finished, State.serve_none quiet,
    State.judgeSlots_of_slots (t := s.arrive e) (congrArg Slot.st a) (congrArg Slot.st b)]

/-! ## What follows the return -/

section
variable {s : State} {j : SheetJob} {kept : List (Kept ShcPart)} (back : s.returnSheet j = s.gaveBack j kept)
  (quiet : s.stop.requests = [])
include back quiet

/-- No soft reset request waits: a held frame start is all that is left to take. -/
theorem State.sheetDone_noReset (waits : s.shc.resetWaiting = false) :
    s.sheetDone j = (s.gaveBack j kept).shcTakesHeld := by
  have still : (s.gaveBack j kept).serveWaiting = s.gaveBack j kept := by
    unfold State.serveWaiting
    rw [show (s.gaveBack j kept).shc.resetWaiting = false from waits]
    rfl
  unfold State.sheetDone
  rw [back, State.serve_none (s := s.gaveBack j kept) quiet, still]

theorem State.sheetDone_idle (waits : s.shc.resetWaiting = false) (held : s.shc.heldStart = none) :
    s.sheetDone j = s.gaveBack j kept := by
  rw [State.sheetDone_noReset back quiet waits]
  unfold State.shcTakesHeld
  rw [show (s.gaveBack j kept).shc.heldStart = none from held]

/-- A held frame start is taken (R14). -/
theorem State.sheetDone_held {x : FrameStart} (waits : s.shc.resetWaiting = false)
    (held : s.shc.heldStart = some x) :
    s.sheetDone j =
      ((s.gaveBack j kept).setShc { (s.gaveBack j kept).shc with heldStart := none }).shcTakes x := by
  rw [State.sheetDone_noReset back quiet waits]
  unfold State.shcTakesHeld
  rw [show (s.gaveBack j kept).shc.heldStart = some x from held,
    show (s.gaveBack j kept).shc.resetWaiting = false from waits]
  rfl

/-- A soft reset request that waited is served, and drops a held frame start (R9, R11). -/
theorem State.sheetDone_reset (waits : s.shc.resetWaiting = true) (reports : s.shc.reports = [])
    (noClip : s.clipOpen = false) : s.sheetDone j = (s.gaveBack j kept).softReset := by
  have idle : (s.gaveBack j kept).shcBusy = false := State.shcBusy_eq_false.mpr ⟨rfl, reports⟩
  have closed : (s.gaveBack j kept).clipOpen = false := noClip
  have served : (s.gaveBack j kept).serveWaiting = (s.gaveBack j kept).softReset := by
    unfold State.serveWaiting State.serveReset
    rw [show (s.gaveBack j kept).shc.resetWaiting = true from waits, idle, closed]
    rfl
  unfold State.sheetDone
  rw [back, State.serve_none (s := s.gaveBack j kept) quiet, served]
  rfl

end

/-! ## A held frame start is taken behind the sheet -/

/-- The part once a sheet is RETURNED behind which frame start `x` was held: the frame start is to be taken. -/
def State.unheld (s : State) (j : SheetJob) (kept : List (Kept ShcPart)) : State :=
  (s.gaveBack j kept).setShc { (s.gaveBack j kept).shc with heldStart := none }

section
variable {s : State} {j : SheetJob} (wf : Memory.wf s.mem = true) (few : j.results.length ≤ 64)
include wf few

/-- Outside its own sheet a RETURNED sheet leaves memory. -/
theorem State.read_unheld {kept : List (Kept ShcPart)} {a : Nat}
    (outside : a < s.sheetAddress j.sheet ∨ s.sheetAddress j.sheet + 0x900 ≤ a) :
    Memory.read (s.unheld j kept).mem a = Memory.read s.mem a :=
  State.read_returnedMem wf j (by omega) (by omega) fun n hn => by omega

/-- A word of the other sheet is as it was. -/
theorem State.wordIn_unheld {kept : List (Kept ShcPart)} {y : SheetId} (other : y ≠ j.sheet) {i : Nat}
    (inside : i + 4 ≤ 0x900) :
    (s.unheld j kept).wordIn (s.sheetAddress y + i) = s.wordIn (s.sheetAddress y + i) := by
  have apart := s.sheetAddress_apart other
  exact congrArg ofLe (Memory.readAll_congr fun a low high => State.read_unheld wf few (by omega))

/-- Memory that stands in the sheet RETURNED keeps it RETURNED. -/
theorem State.returnedIn_of_unheld {kept : List (Kept ShcPart)} {m : List Host.Cell}
    (same : ∀ a, s.sheetAddress j.sheet ≤ a → a < s.sheetAddress j.sheet + 0x900 →
      Memory.read m a = Memory.read (s.unheld j kept).mem a) : ReturnedIn m (s.sheetAddress j.sheet) j :=
  (State.returnedIn_returnedMem wf j).of_same few same

end

/-- Settles O24: the sheet is RETURNED with its results, and what follows depends on what waited behind it. -/
theorem sheetReturnedWithItsResults : Obligations.SheetReturnedWithItsResults := by
  intro e s j job done few quiet wf errors top u sheet returned
  have bus : u.OpenBus := ⟨errors, top⟩
  have wfNow : Memory.wf u.mem = true := State.arrive_wf wf
  have address : u.sheetAddress j.sheet = sheet := State.sheetAddress_eq ..
  obtain ⟨kept, back⟩ := State.returnSheet_ok bus few
  have inMemory : ReturnedIn (u.returnedMem j) sheet j := address ▸ State.returnedIn_returnedMem wfNow j
  have late := State.takeLate_eq (s := s) (u := u) rfl rfl rfl j.late
  have log : (u.gaveBack j kept).flt = (s.takeLate j.late).flt := congrArg (fun v => v.flt) late
  have tags : (u.gaveBack j kept).shc.tags = (s.takeLate j.late).shc.tags := congrArg (fun v => v.shc.tags) late
  refine ⟨fun waits held => ?_, fun waits reports noClip => ?_, ?_⟩
  · have finished := State.sheetDone_idle back quiet waits held
    have record (n : Nat) : (u.gaveBack j kept).tagRec n = (s.takeLate j.late).tagRec n := by
      unfold State.tagRec
      rw [tags]
    refine ⟨u.gaveBack j kept, exec_sheetReturned_of job done finished quiet rfl rfl, rfl, rfl, tags,
      log, fun n low other => ?_, fun h single flying => ?_, inMemory,
      fun a word result results => ?_⟩
    · exact (record n).trans (State.tagRec_takeLate_ne (by omega) other s)
    · rw [record, single]
      exact State.tagRec_recordCompletion_same flying
    · rw [← address] at word result results
      exact State.read_returnedMem wfNow j word result results
  · have finished := State.sheetDone_reset back quiet waits reports noClip
    refine ⟨((u.gaveBack j kept).softReset).judgeSlots u, ?_, ?_, ?_, ?_, ?_⟩
    · rw [exec_sheetReturned job done, finished]
      rfl
    · rw [State.judgeSlots_shc]
      rfl
    · rw [State.judgeSlots_shc]
      rfl
    · rw [State.judgeSlots_shc]
      rfl
    · show ReturnedIn _ sheet j
      rw [State.judgeSlots_mem]
      exact inMemory
  · intro x waits held none p off other next stamp begun
    rw [none] at log tags
    have finished := State.sheetDone_held back quiet waits held
    have unheldBus : (u.unheld j kept).OpenBus := ⟨errors, top⟩
    have turnAddress : (u.unheld j kept).sheetAddress (u.unheld j kept).shc.turn = next := State.sheetAddress_eq ..
    have word (i : Nat) (inside : i + 4 ≤ 0x900) : (u.unheld j kept).wordIn (next + i) = u.wordIn (next + i) := by
      rw [← turnAddress]
      exact State.wordIn_unheld wfNow few other inside
    have ⟨low, high⟩ := u.sheetAddress_bounds j.sheet
    have stampLow : u.shc.partBase.toNat + 0x1400 ≤ (u.unheld j kept).reportAddress x.opened.frame :=
      ((u.unheld j kept).reportAddress_bounds _).1
    have wfBack : Memory.wf (u.unheld j kept).mem = true := State.wf_returnedMem wfNow j
    refine ⟨fun notPosted => ?_, fun posted count => ?_⟩
    · have took : (u.unheld j kept).shcTakes x = (u.unheld j kept).tookNone x :=
        State.shcTakes_notPosted (s := u.unheld j kept) p off
          (State.readSheet_notPosted (unheldBus.readHeader _)
            (by rw [turnAddress, ← Nat.add_zero next, word 0 (by omega)]; exact notPosted))
          (unheldBus.stamp _)
      refine ⟨(u.unheld j kept).tookNone x, exec_sheetReturned_of job done (finished.trans took) quiet rfl rfl, rfl,
        rfl, rfl, tags, log, rfl, Memory.readAll_writeAll_same wfBack (length_w32 _), ?_⟩
      have same := State.returnedIn_of_unheld wfNow few (kept := kept) (m := ((u.unheld j kept).tookNone x).mem)
        fun a from_ to_ => Memory.read_writeAll_outside wfBack (.inl (by omega))
      rwa [address] at same
    · have took : (u.unheld j kept).shcTakes x = (u.unheld j kept).tookTurn x :=
        State.shcTakes_posted (s := u.unheld j kept) p off unheldBus
          (by rw [turnAddress, ← Nat.add_zero next, word 0 (by omega)]; exact posted)
          (by rw [turnAddress, word 12 (by omega)]; exact count)
      obtain ⟨k, _, newJob, sheetIs, frame, tripped, -⟩ := (u.unheld j kept).job_tookTurn x
      obtain ⟨state, taken, stamped, others⟩ := State.mem_tookTurn wfBack x
      have seq : ((u.unheld j kept).headerIn ((u.unheld j kept).sheetAddress (u.unheld j kept).shc.turn)).seq =
          BitVec.ofNat 32 (u.wordIn (next + 4)) := by
        rw [State.seq_headerIn, turnAddress, word 4 (by omega)]
      have apart : next + 0x900 ≤ u.sheetAddress j.sheet ∨ u.sheetAddress j.sheet + 0x900 ≤ next :=
        turnAddress ▸ u.sheetAddress_apart other
      have same := State.returnedIn_of_unheld wfNow few (kept := kept) (m := ((u.unheld j kept).tookTurn x).mem)
        fun a from_ to_ => others a (by omega) (by omega) (.inl (by omega))
      rw [address] at same
      rw [turnAddress] at state taken
      refine ⟨(u.unheld j kept).tookTurn x, k, exec_sheetReturned_of job done (finished.trans took) quiet rfl rfl,
        newJob, sheetIs, frame, tripped, ?_, ⟨rfl, tags, log, ?_, stamped, same⟩, state, taken⟩
      · show s.shc.turn.other = j.sheet
        revert other
        cases s.shc.turn <;> cases j.sheet <;> decide
      · show (u.unheld j kept).shc.reportsWith _ (some ⟨_, (State.headerIn _ _).seq, _⟩) = _
        rw [seq]
        rfl

end Sys2Proof.Machine
end

