-- ==== Sys2Proof/Proofs/ReportsWritten.lean ====
section
/-! PROOFS. O25: a report is written field by field, and its end stamp after them (R22, R23, R223). -/

namespace Sys2Proof.Machine

/-! ## The lengths of the records (R223) -/

theorem length_flatMap_const {α β : Type} {f : α → List β} {n : Nat} (h : ∀ x, (f x).length = n) (l : List α) :
    (l.flatMap f).length = n * l.length := by
  induction l with
  | nil => rfl
  | cons x l ih =>
    rw [List.flatMap_cons, List.length_append, h, ih, List.length_cons]
    ring

@[simp] theorem TagRec.length_bytes (r : TagRec) : r.bytes.length = 20 := by simp [TagRec.bytes]

@[simp] theorem Capture.length_bytes (c : Capture) : c.bytes.length = 16 := by simp [Capture.bytes]

@[simp] theorem AxisPart.length_bytes (a : AxisPart) : a.bytes.length = 8 := by simp [AxisPart.bytes]

@[simp] theorem LensPart.length_bytes (l : LensPart) : l.bytes.length = 48 := by simp [LensPart.bytes]

@[simp] theorem StabPart.length_bytes (p : StabPart) : p.bytes.length = 16 := by simp [StabPart.bytes]

@[simp] theorem MeterPart.length_bytes (p : MeterPart) : p.bytes.length = 4 := by simp [MeterPart.bytes]

@[simp] theorem SlotPart.length_bytes (p : SlotPart) : p.bytes.length = 32 := by simp [SlotPart.bytes]

@[simp] theorem DeckPart.length_bytes (d : DeckPart) : d.bytes.length = 8 := by simp [DeckPart.bytes]

@[simp] theorem StreamPart.length_bytes (p : StreamPart) : p.bytes.length = 28 := by simp [StreamPart.bytes]

@[simp] theorem GuardPart.length_bytes (p : GuardPart) : p.bytes.length = 4 := by simp [GuardPart.bytes]

@[simp] theorem VfPart.length_bytes (p : VfPart) : p.bytes.length = 12 := by simp [VfPart.bytes]

@[simp] theorem length_stopRecordBytes (r : Option StopRecord) : (stopRecordBytes r).length = 14 := by
  cases r <;> simp [stopRecordBytes]

@[simp] theorem StopPart.length_bytes (p : StopPart) : p.bytes.length = 16 := by simp [StopPart.bytes]

@[simp] theorem FaultRec.length_routeBytes (r : FaultRec) : r.routeBytes.length = 4 := by
  unfold FaultRec.routeBytes
  split <;> rfl

/-! ## The fields -/

/-- A field lies in the body, between the stamps, and shows nothing of common memory. -/
structure FieldSound (s : State) (f : ReportField) : Prop where
  low : 4 ≤ f.1
  high : f.1 + (f.2 s).length ≤ 0x590
  still : ∀ m, f.2 { s with mem := m } = f.2 s

/-- What the SHC offers for a frame has a whole tag table. -/
theorem State.length_tagsOffered {s : State} (whole : tagTableWhole s) (f : FrameNo) :
    (s.shcOffered f).tags.length = 32 := by
  obtain ⟨own, kept, -⟩ := whole
  unfold State.shcOffered offered
  split
  next copy found => exact kept copy (List.mem_of_find?_eq_some found)
  next => exact own

/-- A field of `n` bytes is sound where it ends before the end stamp. -/
theorem FieldSound.of {s : State} {offset : Nat} {bytes : State → List Byte} (n : Nat) (low : 4 ≤ offset)
    (high : offset + n ≤ 0x590) (length : (bytes s).length = n) (still : ∀ m, bytes { s with mem := m } = bytes s) :
    FieldSound s (offset, bytes) :=
  ⟨low, by dsimp only; omega, still⟩

theorem sound_headFields {s : State} (whole : tagTableWhole s) (r : ReportJob) :
    ∀ f ∈ r.headFields, FieldSound s f := by
  have tags : ((s.shcOffered r.frame).tags.flatMap TagRec.bytes).length = 640 := by
    rw [length_flatMap_const TagRec.length_bytes, State.length_tagsOffered whole]
  simp only [ReportJob.headFields, List.forall_mem_cons]
  exact ⟨.of 1 (by decide) (by decide) rfl fun _ => rfl, .of 4 (by decide) (by decide) rfl fun _ => rfl,
    .of 1 (by decide) (by decide) rfl fun _ => rfl, .of 1 (by decide) (by decide) rfl fun _ => rfl,
    .of 4 (by decide) (by decide) (length_w32 _) fun _ => rfl, .of 1 (by decide) (by decide) rfl fun _ => rfl,
    .of 640 (by decide) (by decide) tags fun _ => rfl, List.forall_mem_nil _⟩

theorem sound_recordFields (s : State) (r : ReportJob) : ∀ f ∈ r.recordFields, FieldSound s f := by
  simp only [ReportJob.recordFields, List.forall_mem_cons]
  exact ⟨.of 48 (by decide) (by decide) (LensPart.length_bytes _) fun _ => rfl,
    .of 16 (by decide) (by decide) (StabPart.length_bytes _) fun _ => rfl,
    .of 16 (by decide) (by decide) (length_flatMap_const MeterPart.length_bytes _) fun _ => rfl,
    .of 32 (by decide) (by decide) (SlotPart.length_bytes _) fun _ => rfl,
    .of 32 (by decide) (by decide) (SlotPart.length_bytes _) fun _ => rfl,
    .of 8 (by decide) (by decide) (DeckPart.length_bytes _) fun _ => rfl,
    .of 28 (by decide) (by decide) (StreamPart.length_bytes _) fun _ => rfl, List.forall_mem_nil _⟩

theorem sound_faultFields {s : State} (whole : s.flt.kinds.length = 26) : ∀ f ∈ faultFields, FieldSound s f := by
  have counts : ((s.flt.kinds.map fun k => b8 k.count) ++ zeros 2).length = 28 := by simp [whole]
  have routes : (s.flt.kinds.flatMap FaultRec.routeBytes).length = 104 := by
    rw [length_flatMap_const FaultRec.length_routeBytes, whole]
  have captures : (s.flt.kinds.flatMap fun k => k.capture.bytes).length = 416 := by
    rw [length_flatMap_const fun k : FaultRec => k.capture.length_bytes, whole]
  simp only [faultFields, List.forall_mem_cons]
  exact ⟨.of 4 (by decide) (by decide) rfl fun _ => rfl,
    .of 4 (by decide) (by decide) (length_leBytes ..) fun _ => rfl,
    .of 28 (by decide) (by decide) counts fun _ => rfl, .of 104 (by decide) (by decide) routes fun _ => rfl,
    .of 416 (by decide) (by decide) captures fun _ => rfl, List.forall_mem_nil _⟩

theorem sound_tailFields (s : State) (r : ReportJob) : ∀ f ∈ r.tailFields, FieldSound s f := by
  simp only [ReportJob.tailFields, List.forall_mem_cons]
  exact ⟨.of 16 (by decide) (by decide) (StopPart.length_bytes _) fun _ => rfl,
    .of 4 (by decide) (by decide) (GuardPart.length_bytes _) fun _ => rfl,
    .of 12 (by decide) (by decide) (VfPart.length_bytes _) fun _ => rfl, List.forall_mem_nil _⟩

theorem sound_reportFields {s : State} (whole : tagTableWhole s) (r : ReportJob) :
    ∀ f ∈ reportFields r, FieldSound s f := by
  simp only [reportFields, List.forall_mem_append]
  have ⟨_, _, kinds⟩ := whole
  exact ⟨⟨⟨sound_headFields whole r, sound_recordFields s r⟩, sound_faultFields kinds⟩, sound_tailFields s r⟩

/-! ## Writing the fields -/

/-- The memory after fields are written, each as it stands in `s`. -/
def fieldsMem (s : State) (base : Nat) (l : List ReportField) (m : List Host.Cell) : List Host.Cell :=
  l.foldl (fun m f => Memory.writeAll m (base + f.1) (f.2 s)) m

/-- Sound fields of a report in the window are written as they stand. -/
theorem State.writeFields_ok {s : State} (bus : s.OpenBus) {base : Nat}
    (inWindow : base + 0x590 ≤ s.shc.partBase.toNat + 16384) {l : List ReportField}
    (sound : ∀ f ∈ l, FieldSound s f) (m : List Host.Cell) :
    State.writeFields { s with mem := m } base l = { s with mem := fieldsMem s base l m } := by
  induction l generalizing m with
  | nil => rfl
  | cons f l ih =>
    obtain ⟨first, rest⟩ := List.forall_mem_cons.mp sound
    have fits := first.high
    have write : State.blockWrite { s with mem := m } .shc (base + f.1) (f.2 { s with mem := m }) =
        ({ s with mem := Memory.writeAll m (base + f.1) (f.2 s) }, true) := by
      rw [first.still]
      exact (bus.withMem m).blockWrite .shc (by dsimp only; omega)
    show State.writeFields (State.blockWrite { s with mem := m } .shc (base + f.1) (f.2 { s with mem := m })).1 base l = _
    rw [write, ih rest]
    rfl

theorem wf_fieldsMem {m : List Host.Cell} (wf : Memory.wf m = true) (s : State) (base : Nat) (l : List ReportField) :
    Memory.wf (fieldsMem s base l m) = true := by
  induction l generalizing m with
  | nil => exact wf
  | cons f l ih => exact ih (Memory.wf_writeAll wf)

/-- Sound fields leave what is outside the body. -/
theorem read_fieldsMem {s : State} {base a : Nat} (outside : a < base + 4 ∨ base + 0x590 ≤ a) {l : List ReportField}
    (sound : ∀ f ∈ l, FieldSound s f) {m : List Host.Cell} (wf : Memory.wf m = true) :
    Memory.read (fieldsMem s base l m) a = Memory.read m a := by
  induction l generalizing m with
  | nil => rfl
  | cons f l ih =>
    obtain ⟨first, rest⟩ := List.forall_mem_cons.mp sound
    have low := first.low
    have high := first.high
    exact (ih rest (Memory.wf_writeAll wf)).trans (Memory.read_writeAll_outside wf (by omega))

/-! ## The report ends -/

/-- The memory after a report is written whole. -/
def State.reportMem (s : State) (r : ReportJob) : List Host.Cell :=
  Memory.writeAll (fieldsMem s (s.reportAddress r.frame) (reportFields r) s.mem) (s.reportAddress r.frame + 0x590)
    (w32 r.frame)

/-- What stands in memory after a report is written whole. -/
theorem State.mem_reportMem {s : State} (wf : Memory.wf s.mem = true) (whole : tagTableWhole s) (r : ReportJob) :
    Memory.readAll (s.reportMem r) (s.reportAddress r.frame + 0x590) 4 = w32 r.frame ∧
    ∀ a, (a < s.reportAddress r.frame + 4 ∨ s.reportAddress r.frame + 0x594 ≤ a) →
      Memory.read (s.reportMem r) a = Memory.read s.mem a := by
  have wfFields := wf_fieldsMem wf s (s.reportAddress r.frame) (reportFields r)
  refine ⟨Memory.readAll_writeAll_same wfFields (length_w32 _), fun a outside => ?_⟩
  have same := read_fieldsMem (base := s.reportAddress r.frame) (a := a) (by omega) (sound_reportFields whole r) wf
  exact (Memory.read_writeAll_outside wfFields (by rw [length_w32]; omega)).trans same

theorem State.endReport_ok {s : State} (bus : s.OpenBus) (whole : tagTableWhole s) (r : ReportJob) :
    s.endReport r = { s with
      shc := { s.shc with reports := s.shc.reports.filter (fun k => k.frame != r.frame), attReport := true }
      mem := s.reportMem r } := by
  have ⟨_, high⟩ := s.reportAddress_bounds r.frame
  have fields := State.writeFields_ok bus (base := s.reportAddress r.frame) (by omega) (sound_reportFields whole r)
    s.mem
  have stamp : (s.reportAddress r.frame + 0x590) + (w32 r.frame).length ≤ s.shc.partBase.toNat + 16384 := by
    rw [length_w32]
    omega
  unfold State.endReport State.reportMem
  generalize fieldsMem s (s.reportAddress r.frame) (reportFields r) s.mem = m at fields ⊢
  dsimp only at fields ⊢
  rw [show s.writeFields (s.reportAddress r.frame) (reportFields r) = { s with mem := m } from fields,
    State.OpenBus.blockWrite]
  · exact ⟨bus.errors, bus.top⟩
  · exact stamp

/-- With nothing waiting behind it the report is all that ends (R9, R14). -/
theorem State.reportDone_idle {s t : State} {r : ReportJob} (ended : s.endReport r = t)
    (quiet : t.stop.requests = []) (waits : t.shc.resetWaiting = false) (held : t.shc.heldStart = none) :
    s.reportDone r = t := by
  unfold State.reportDone
  rw [ended, State.serve_none quiet]
  unfold State.serveWaiting State.shcTakesHeld
  rw [waits, Bool.false_and, if_neg Bool.false_ne_true, held]

/-- A report that ends and leaves the slots and Safe Stop ends its step. -/
theorem exec_reportWriteDone {e : Env} {s t : State} {slot : BitVec 1} {r : ReportJob}
    (found : s.shc.reportIn slot.toNat = some r) (ready : s.reportReady r.frame = true)
    (done : (s.arrive e).reportDone r = t) (quiet : t.stop.requests = []) (a : t.slotA = s.slotA)
    (b : t.slotB = s.slotB) : exec (.reportWriteDone e slot) s = .next t := by
  have ready' : (s.arrive e).reportReady r.frame = true := ready
  show execReportWriteDone e slot s = _
  unfold execReportWriteDone
  dsimp only
  rw [State.arrive_shc, found]
  dsimp only
  rw [if_pos ready', done, State.serve_none quiet,
    State.judgeSlots_of_slots (t := s.arrive e) (congrArg Slot.st a) (congrArg Slot.st b)]

/-- Settles O25: the fields are written as they stand, and nothing waits behind the report. -/
theorem reportWrittenWithItsEndStamp : Obligations.ReportWrittenWithItsEndStamp := by
  intro e s slot r found ready waits held quiet whole wf errors top u base
  have bus : u.OpenBus := ⟨errors, top⟩
  have wfNow : Memory.wf u.mem = true := State.arrive_wf wf
  have done := State.reportDone_idle (State.endReport_ok (s := u) bus whole r) quiet waits held
  have address : u.reportAddress r.frame = base := rfl
  obtain ⟨stamp, others⟩ := State.mem_reportMem (s := u) wfNow whole r
  rw [address] at stamp others
  have mem : u.reportMem r = Memory.writeAll ((reportFields r).foldl
      (fun m f => Memory.writeAll m (base + f.1) (f.2 u)) u.mem) (base + 0x590) (w32 r.frame) := by
    unfold State.reportMem fieldsMem
    rw [address]
  refine ⟨_, exec_reportWriteDone found ready done quiet rfl rfl, rfl, rfl, ?_⟩
  dsimp only
  exact ⟨mem, stamp, others, rfl, rfl, rfl⟩

end Sys2Proof.Machine
end

