-- ==== Sys2Proof/Proofs/Timecode.lean ====
section
/-! PROOFS. O21: the timecode advanced (R35). -/

namespace Sys2Proof.Machine

/-- Fewer numbers are skipped than a second holds. -/
theorem Format.skipped_lt_count (f : Format) : f.skipped < f.rate.count := by
  obtain ⟨rate, drop⟩ := f
  cases rate <;> cases drop <;> decide

theorem Rate.count_pos (r : Rate) : 0 < r.count := by cases r <;> decide

theorem Timecode.isSkipped_eq_false_iff {t : Timecode} {f : Format} :
    t.isSkipped f = false ↔ (t.frames < f.skipped → t.seconds = 0 → t.minutes % 10 = 0) := by
  simp [Timecode.isSkipped]

/-- A timecode that a frame may carry: its fields are in range, and its number is not skipped (R35). -/
structure Timecode.Valid (t : Timecode) (f : Format) : Prop where
  hours : t.hours < 24
  minutes : t.minutes < 60
  seconds : t.seconds < 60
  frames : t.frames < f.rate.count
  carried : t.isSkipped f = false

/-- A number moved past the skipped ones is not skipped, and its fields stay in range. -/
theorem Timecode.valid_unskip {t : Timecode} {f : Format} (hours : t.hours < 24) (minutes : t.minutes < 60)
    (seconds : t.seconds < 60) (frames : t.frames < f.rate.count) : (t.unskip f).Valid f := by
  unfold Timecode.unskip
  split
  · exact ⟨hours, minutes, seconds, f.skipped_lt_count,
      Timecode.isSkipped_eq_false_iff.mpr fun low => absurd low (Nat.lt_irrefl _)⟩
  next carried => exact ⟨hours, minutes, seconds, frames, Bool.eq_false_iff.mpr carried⟩

/-! ## The cases of an advance -/

section
variable {t : Timecode} {f : Format}

theorem Timecode.advance_frames (h : t.frames + 1 < f.rate.count) :
    t.advance f = { t with frames := t.frames + 1 } := if_pos h

theorem Timecode.advance_midnight (h : t = ⟨23, 59, 59, f.rate.count - 1⟩) : t.advance f = ⟨0, 0, 0, 0⟩ := by
  have last : ¬ f.rate.count - 1 + 1 < f.rate.count := by omega
  subst h
  exact if_neg last

/-- An advance keeps a timecode valid: only the first second of a minute has skipped numbers, and a minute that a
multiple of ten begins has none (R35). -/
theorem Timecode.valid_advance (h : t.Valid f) : (t.advance f).Valid f := by
  obtain ⟨hours, minutes, seconds, _, carried⟩ := h
  have first := f.rate.count_pos
  unfold Timecode.advance
  split
  next within =>
    have kept := Timecode.isSkipped_eq_false_iff.mp carried
    exact ⟨hours, minutes, seconds, within,
      Timecode.isSkipped_eq_false_iff.mpr fun low => kept (Nat.lt_of_succ_lt low)⟩
  split
  next second =>
    exact ⟨hours, minutes, second, first, Timecode.isSkipped_eq_false_iff.mpr fun _ start => nomatch start⟩
  split
  next minute => exact Timecode.valid_unskip hours minute (Nat.zero_lt_succ _) first
  split
  next hour =>
    exact ⟨hour, Nat.zero_lt_succ _, Nat.zero_lt_succ _, first, Timecode.isSkipped_eq_false_iff.mpr fun _ _ => rfl⟩
  next =>
    exact ⟨Nat.zero_lt_succ _, Nat.zero_lt_succ _, Nat.zero_lt_succ _, first,
      Timecode.isSkipped_eq_false_iff.mpr fun _ _ => rfl⟩

end

/-- Settles O21, from the validity that an advance keeps. -/
theorem timecodeAdvanceStaysValid : Obligations.TimecodeAdvanceStaysValid := by
  intro f t hours minutes seconds frames carried
  have next := Timecode.valid_advance (t := t) (f := f) ⟨hours, minutes, seconds, frames, carried⟩
  exact ⟨next.hours, next.minutes, next.seconds, next.frames, next.carried, Timecode.advance_frames,
    Timecode.advance_midnight⟩

end Sys2Proof.Machine
end

