-- ==== Sys2Proof/Proofs/TimingOrders.lean ====
section
/-! PROOFS. O20: the orders of the Frame Timing Unit (R26, R32, R36, R37). -/

namespace Sys2Proof.Machine

/-! ## Codes -/

theorem Rate.allowsDrop_iff {r : Rate} : r.allowsDrop = true ↔ r = .r29 ∨ r = .r59 := by
  cases r <;> simp [Rate.allowsDrop]

theorem rateOf_beyond {n : Nat} (h : 5 < n) : rateOf n = none := by
  obtain ⟨k, rfl⟩ := Nat.exists_eq_add_of_lt h
  rw [show 5 + k + 1 = k + 6 by omega]
  rfl

/-- The code of a rate is its place in the table of R25. -/
theorem code_of_rateOf {n : Nat} {r : Rate} (h : rateOf n = some r) : r.code = n := by
  have low : n ≤ 5 := by
    by_contra high
    rw [rateOf_beyond (by omega)] at h
    cases h
  interval_cases n <;> cases h <;> rfl

/-! ## An order of the FTU -/

section
variable {e : Env} {s : State} {c : Instr} {kind : Byte} {params : List Byte}

/-- An order refused by the FTU changes nothing but its result. -/
theorem exec_refused {decide : State → Decision} {r : Result}
    (order : exec c s = .next ((s.arrive e).takeOrder .immediate kind 0 params decide))
    (due : dispatches s .immediate kind 0 params = true) (refuses : decide (s.arrive e) = .refuse r) :
    exec c s = .next ((s.arrive e).finishEntry r) :=
  order.trans (congrArg Host.Outcome.next (State.takeOrder_refuse due refuses))

/-- An order that replaces the FTU alone ends its step with its result. -/
theorem exec_setsFtu {decide : State → Decision} {clamped : Bool} {g : State → Ftu}
    (order : exec c s = .next ((s.arrive e).takeOrder .immediate kind 0 params decide))
    (due : dispatches s .immediate kind 0 params = true)
    (carries : decide (s.arrive e) = .carry clamped fun u => u.setFtu (g u)) :
    exec c s = .next (State.finishEntry { s.arrive e with ftu := g (s.arrive e) }
      (if clamped then .clamped else .done)) := by
  have due : dispatches (s.arrive e) .immediate kind 0 params = true := due
  obtain ⟨_, _, quiet⟩ := dispatches_iff.mp due
  exact order.trans (congrArg Host.Outcome.next
    (State.takeOrder_done due carries quiet (State.sameRecording_of_slots rfl rfl)))

/-- CLAMPED says that a field was changed (R37). -/
theorem result_of_changed (a b : Timecode) :
    (if (a != b) = true then Result.clamped else .done) = if a = b then .done else .clamped := by
  by_cases same : a = b
  · simp [same]
  · simp [same]

end

/-! ## What each order decides -/

section
variable {s : State}

theorem decideSetFormat_recording {rate drop : Byte} (h : s.clipOpen = true ∨ s.sta.preOn = true) :
    decideSetFormat rate drop s = .refuse .refusedRecording := if_pos h

theorem decideSetFormat_unknown {rate drop : Byte} (clip : s.clipOpen = false) (pre : s.sta.preOn = false)
    (unknown : rateOf rate.toNat = none) : decideSetFormat rate drop s = .refuse .refusedParam := by
  simp [decideSetFormat, clip, pre, unknown]

theorem decideSetFormat_known {rate drop : Byte} {r : Rate} (clip : s.clipOpen = false) (pre : s.sta.preOn = false)
    (known : rateOf rate.toNat = some r) :
    decideSetFormat rate drop s =
      if drop.toNat = 0 then .carry false fun s => s.setFtu { s.ftu with pendingFormat := some ⟨r, false⟩ }
      else if drop.toNat = 1 ∧ r.allowsDrop = true then
        .carry false fun s => s.setFtu { s.ftu with pendingFormat := some ⟨r, true⟩ }
      else .refuse .refusedParam := by
  simp [decideSetFormat, clip, pre, known]

/-- A rate with a drop-frame choice that it allows becomes the pending format (R26). -/
theorem decideSetFormat_takes {rate drop : Byte} {r : Rate} (clip : s.clipOpen = false) (pre : s.sta.preOn = false)
    (known : rateOf rate.toNat = some r) (allowed : drop = 0 ∨ drop = 1 ∧ (r = .r29 ∨ r = .r59)) :
    decideSetFormat rate drop s =
      .carry false fun s => s.setFtu { s.ftu with pendingFormat := some ⟨r, drop == 1⟩ } := by
  rw [decideSetFormat_known clip pre known]
  obtain rfl | ⟨rfl, dropping⟩ := allowed
  · rfl
  · exact (if_neg (by decide)).trans (if_pos ⟨rfl, Rate.allowsDrop_iff.mpr dropping⟩)

/-- A code out of its range, or drop-frame at a rate that does not allow it (R26). -/
theorem decideSetFormat_badParam {rate drop : Byte} (clip : s.clipOpen = false) (pre : s.sta.preOn = false)
    (bad : 5 < rate.toNat ∨ 1 < drop.toNat ∨ drop = 1 ∧ rate.toNat ≠ 3 ∧ rate.toNat ≠ 5) :
    decideSetFormat rate drop s = .refuse .refusedParam := by
  cases known : rateOf rate.toNat with
  | none => exact decideSetFormat_unknown clip pre known
  | some r =>
    rw [decideSetFormat_known clip pre known]
    have code := code_of_rateOf known
    have low : ¬ 5 < rate.toNat := fun high => by rw [rateOf_beyond high] at known; cases known
    obtain high | high | ⟨rfl, other⟩ := bad
    · exact absurd high low
    · exact (if_neg (by omega)).trans (if_neg fun one => by omega)
    · refine (if_neg (by decide)).trans (if_neg fun dropping => ?_)
      obtain rfl | rfl := Rate.allowsDrop_iff.mp dropping.2
      · exact other.1 code.symm
      · exact other.2 code.symm

theorem decideSetRefPolicy_ignore :
    decideSetRefPolicy 0 s = .carry false fun s => s.setFtu { s.ftu with policy := .ignore } := rfl

theorem decideSetRefPolicy_restart :
    decideSetRefPolicy 1 s = .carry false fun s => s.setFtu { s.ftu with policy := .restart } := rfl

theorem decideSetRefPolicy_badParam {policy : Byte} (h : 1 < policy.toNat) :
    decideSetRefPolicy policy s = .refuse .refusedParam := by
  have unknown : policyOf policy = none := (if_neg (by omega)).trans (if_neg (by omega))
  unfold decideSetRefPolicy
  rw [unknown]

theorem decideSetTcMode_badParam {mode : Byte} (h : 1 < mode.toNat) :
    decideSetTcMode mode s = .refuse .refusedParam := by
  have unknown : countModeOf mode = none := (if_neg (by omega)).trans (if_neg (by omega))
  unfold decideSetTcMode
  rw [unknown]

theorem decideSetTcMode_freeRun :
    decideSetTcMode 0 s = .carry false fun s => s.setFtu { s.ftu with mode := .freeRun } := rfl

theorem decideSetTcMode_recordRun (pre : s.sta.preOn = false) :
    decideSetTcMode 1 s = .carry false fun s => s.setFtu { s.ftu with mode := .recordRun } :=
  if_neg (by simp [pre])

theorem decideSetTcMode_preRecord (pre : s.sta.preOn = true) :
    decideSetTcMode 1 s = .refuse .refusedState := if_pos ⟨rfl, pre⟩

theorem decideSetTimecode_recording {h m c f : Byte} (clip : s.clipOpen = true) :
    decideSetTimecode h m c f s = .refuse .refusedRecording := if_pos clip

theorem decideSetTimecode_takes {h m c f : Byte} (clip : s.clipOpen = false) :
    decideSetTimecode h m c f s =
      .carry (loadedTimecode s.ftu.nextFormat h m c f != ⟨h.toNat, m.toNat, c.toNat, f.toNat⟩) fun u =>
        u.setFtu { u.ftu with pendingTc := some (loadedTimecode s.ftu.nextFormat h m c f) } :=
  if_neg (by simp [clip])

end

/-! ## The orders carried out, and refused -/

/-- Settles O20, order by order. -/
theorem timingOrders : Obligations.TimingOrders := by
  refine ⟨⟨?format, ?policy, ?mode, ?timecode⟩, ?noFormat, ?noPolicy, ?noMode, ?noTimecode⟩
  case format =>
    intro e s rate drop r due clip pre known allowed
    exact exec_setsFtu (by rfl) due (decideSetFormat_takes (s := s.arrive e) clip pre known allowed)
  case policy =>
    refine fun e s policy due => ⟨?_, ?_⟩
    · rintro rfl
      exact exec_setsFtu (by rfl) due decideSetRefPolicy_ignore
    · rintro rfl
      exact exec_setsFtu (by rfl) due decideSetRefPolicy_restart
  case mode =>
    refine fun e s mode due => ⟨?_, ?_⟩
    · rintro rfl
      exact exec_setsFtu (by rfl) due decideSetTcMode_freeRun
    · rintro rfl pre
      exact exec_setsFtu (by rfl) due (decideSetTcMode_recordRun (s := s.arrive e) pre)
  case timecode =>
    intro e s h m c f due clip fmt held load
    have taken := exec_setsFtu (c := .setTimecode e 0 h m c f) (by rfl) due
      (decideSetTimecode_takes (s := s.arrive e) clip)
    rw [result_of_changed] at taken
    exact taken
  case noFormat =>
    refine fun e s rate drop due => ⟨fun recording => ?_, fun clip pre bad => ?_⟩
    · exact exec_refused (by rfl) due (decideSetFormat_recording (s := s.arrive e) recording)
    · exact exec_refused (by rfl) due (decideSetFormat_badParam (s := s.arrive e) clip pre bad)
  case noPolicy =>
    exact fun e s policy due bad => exec_refused (by rfl) due (decideSetRefPolicy_badParam bad)
  case noMode =>
    refine fun e s mode due => ⟨fun bad => ?_, ?_⟩
    · exact exec_refused (by rfl) due (decideSetTcMode_badParam bad)
    · rintro rfl pre
      exact exec_refused (by rfl) due (decideSetTcMode_preRecord (s := s.arrive e) pre)
  case noTimecode =>
    exact fun e s h m c f due clip =>
      exec_refused (by rfl) due (decideSetTimecode_recording (s := s.arrive e) clip)

end Sys2Proof.Machine
end

