-- ==== Sys2Proof/Proofs/MadeFrames.lean ====
section
/-! PROOFS. O18: a frame start made, and the flywheel that makes it (R27 to R29, R31, R33 to R36). -/

namespace Sys2Proof.Machine

/-! ## A frame start made (R34) -/

/-- The frame start as it goes on to the blocks. -/
def State.startOf (s : State) : FrameStart := ⟨s.ftu.nextRec s.counts, s.ftu.openRec, !s.ftu.started⟩

/-- The FTU once it has made a frame start. -/
def State.ftuOpened (s : State) : Ftu := s.ftu.makeFrame s.now s.counts s.copyNeeded

/-- The discard of what is retained moves the index and the floor of the STA alone. -/
theorem State.discardRetained_eq (s : State) (f : FrameNo) :
    ∃ v, s.discardRetained f = s.setSta v ∧ v.arriving = s.sta.arriving := by
  unfold State.discardRetained
  split
  · exact ⟨_, rfl, rfl⟩
  · exact ⟨s.sta, rfl, rfl⟩

/-- The FTU has opened its frame, the blocks have their copies and the frame start, and the STA has not yet
discarded. -/
def State.passedStart (s : State) : State :=
  { s.keepAtFrame s.ftu.counter with
    ftu := s.ftuOpened
    shc := { s.shc with arriving := s.shc.arriving ++ [s.startOf] }
    mst := { s.mst with arriving := s.mst.arriving ++ [s.startOf] }
    acu := { s.acu with arriving := s.acu.arriving ++ [s.startOf] }
    sta := { s.sta with arriving := s.sta.arriving ++ [s.startOf] }
    vfl := { s.vfl with arriving := s.vfl.arriving ++ [s.startOf] } }

/-- A frame start made moves what the frame start moves, and what else the STA discards for a load (R34, R37). -/
theorem State.makeFrameStart_eq (s : State) :
    ∃ v, s.makeFrameStart = s.passedStart.setSta v ∧ v.arriving = s.sta.arriving ++ [s.startOf] := by
  have made : s.makeFrameStart =
    if s.ftu.pendingTc.isSome then s.passedStart.discardRetained s.ftu.counter else s.passedStart := rfl
  rw [made]
  split
  · exact s.passedStart.discardRetained_eq s.ftu.counter
  · exact ⟨s.passedStart.sta, rfl, rfl⟩

section
variable (s : State)

@[simp] theorem State.makeFrameStart_now : s.makeFrameStart.now = s.now := by
  obtain ⟨_, made, _⟩ := s.makeFrameStart_eq
  rw [made]
  rfl
@[simp] theorem State.makeFrameStart_mem : s.makeFrameStart.mem = s.mem := by
  obtain ⟨_, made, _⟩ := s.makeFrameStart_eq
  rw [made]
  rfl
@[simp] theorem State.makeFrameStart_ftu : s.makeFrameStart.ftu = s.ftuOpened := by
  obtain ⟨_, made, _⟩ := s.makeFrameStart_eq
  rw [made]
  rfl
@[simp] theorem State.makeFrameStart_flt : s.makeFrameStart.flt = s.flt := by
  obtain ⟨_, made, _⟩ := s.makeFrameStart_eq
  rw [made]
  rfl
@[simp] theorem State.makeFrameStart_stop : s.makeFrameStart.stop = s.stop := by
  obtain ⟨_, made, _⟩ := s.makeFrameStart_eq
  rw [made]
  rfl
@[simp] theorem State.makeFrameStart_cgd : s.makeFrameStart.cgd = s.cgd := by
  obtain ⟨_, made, _⟩ := s.makeFrameStart_eq
  rw [made]
  rfl
@[simp] theorem State.makeFrameStart_tags : s.makeFrameStart.shc.tags = s.shc.tags := by
  obtain ⟨_, made, _⟩ := s.makeFrameStart_eq
  rw [made]
  rfl
@[simp] theorem State.makeFrameStart_slotA_st : s.makeFrameStart.slotA.st = s.slotA.st := by
  obtain ⟨_, made, _⟩ := s.makeFrameStart_eq
  rw [made]
  rfl
@[simp] theorem State.makeFrameStart_slotB_st : s.makeFrameStart.slotB.st = s.slotB.st := by
  obtain ⟨_, made, _⟩ := s.makeFrameStart_eq
  rw [made]
  rfl

/-- The frame start joins the queue of each block that takes it (log 10). -/
theorem State.makeFrameStart_arriving :
    s.makeFrameStart.shc.arriving = s.shc.arriving ++ [s.startOf] ∧
      s.makeFrameStart.mst.arriving = s.mst.arriving ++ [s.startOf] ∧
      s.makeFrameStart.acu.arriving = s.acu.arriving ++ [s.startOf] ∧
      s.makeFrameStart.sta.arriving = s.sta.arriving ++ [s.startOf] ∧
      s.makeFrameStart.vfl.arriving = s.vfl.arriving ++ [s.startOf] := by
  obtain ⟨_, made, arriving⟩ := s.makeFrameStart_eq
  rw [made]
  exact ⟨rfl, rfl, rfl, arriving, rfl⟩

end

/-! ## The frame that is opened -/

section
variable {f : Ftu}

theorem Ftu.nextTc_load {c : Timecode} (load : f.pendingTc = some c) (counts : Bool) :
    f.nextTc counts = c.bringIn f.nextFormat := by
  simp [Ftu.nextTc, load]

theorem Ftu.nextTc_format (load : f.pendingTc = none) (change : f.pendingFormat ≠ none) (counts : Bool) :
    f.nextTc counts = f.tc.bringIn f.nextFormat := by
  simp [Ftu.nextTc, load, Option.isSome_iff_ne_none, change]

theorem Ftu.nextTc_counted (load : f.pendingTc = none) (change : f.pendingFormat = none) (counts : Bool) :
    f.nextTc counts = if f.started = true ∧ counts = true then f.tc.advance f.format else f.tc := by
  simp [Ftu.nextTc, load, change]

theorem Ftu.nextCadence_eq (f : Ftu) :
    f.nextCadence = if f.started = false ∨ f.pendingFormat.isSome then 0 else (f.openRec.cadIndex + 1) % 5 := by
  simp [Ftu.nextCadence]

/-- A format change makes the FTU FREE, with the good count 0; else both stand (R27). -/
theorem State.ftuOpened_lock (s : State) :
    s.ftuOpened.lock = if s.ftu.pendingFormat = none then s.ftu.lock else .free := by
  cases change : s.ftu.pendingFormat <;> simp [State.ftuOpened, Ftu.makeFrame, change]

theorem State.ftuOpened_good (s : State) :
    s.ftuOpened.good = if s.ftu.pendingFormat = none then s.ftu.good else 0 := by
  cases change : s.ftu.pendingFormat <;> simp [State.ftuOpened, Ftu.makeFrame, change]

end

/-! ## The flywheel expires -/

section
variable {s : State}

/-- The flywheel is loaded after a frame start, counting from it. -/
theorem State.loadFlywheel_made (s : State) (g : Ftu) (period : Nat) :
    (s.makeFrameStart.setFtu g).loadFlywheel period =
      s.makeFrameStart.setFtu { g with flywheel := some (s.now + period) } :=
  congrArg (fun now => s.makeFrameStart.setFtu { g with flywheel := some (now + period) }) s.makeFrameStart_now

theorem State.flywheelExpires_free (h : s.ftu.lock = .free) :
    s.flywheelExpires = s.makeFrameStart.setFtu { s.ftuOpened with
      flywheel := some (s.now + s.ftu.nextFormat.rate.period) } := by
  have expired : s.flywheelExpires =
      (s.makeFrameStart.setFtu s.ftuOpened).loadFlywheel s.ftuOpened.format.rate.period := by
    unfold State.flywheelExpires
    rw [h, ← State.makeFrameStart_ftu]
    rfl
  exact expired.trans (s.loadFlywheel_made ..)

/-- The first frame start of the flywheel since the last pulse leaves the lock state (R29). -/
theorem State.flywheelExpires_first (h : s.ftu.lock = .locking) (fresh : s.ftu.sincePulse = 0) :
    s.flywheelExpires = s.makeFrameStart.setFtu { s.ftuOpened with
      flywheel := some (s.now + s.ftu.nextFormat.rate.period), sincePulse := 1 } := by
  have first : ¬ 0 < s.ftuOpened.sincePulse := fresh ▸ Nat.lt_irrefl 0
  have one : s.ftuOpened.sincePulse + 1 = 1 := congrArg Nat.succ fresh
  have expired : s.flywheelExpires =
      (s.makeFrameStart.setFtu { s.ftuOpened with sincePulse := 1 }).loadFlywheel s.ftuOpened.format.rate.period := by
    unfold State.flywheelExpires
    rw [h]
    dsimp only
    rw [State.makeFrameStart_ftu, if_neg first, one]
    rfl
  exact expired.trans (s.loadFlywheel_made ..)

/-- The second one returns LOCKING to FREE (R29). -/
theorem State.flywheelExpires_second (h : s.ftu.lock = .locking) (again : 0 < s.ftu.sincePulse) :
    s.flywheelExpires = s.makeFrameStart.setFtu { s.ftuOpened with
      flywheel := some (s.now + s.ftu.nextFormat.rate.period), lock := .free, good := 0 } := by
  have second : 0 < s.ftuOpened.sincePulse := again
  have expired : s.flywheelExpires =
      (s.makeFrameStart.setFtu { s.ftuOpened with lock := .free, good := 0 }).loadFlywheel
        s.ftuOpened.format.rate.period := by
    unfold State.flywheelExpires
    rw [h]
    dsimp only
    rw [State.makeFrameStart_ftu, if_pos second]
    rfl
  exact expired.trans (s.loadFlywheel_made ..)

/-- The FTU stays LOCKING through a frame start of the flywheel: it is the first since the last pulse, and no format
change takes effect (R27, R29). -/
abbrev Ftu.staysLocking (f : Ftu) : Prop := f.lock = .locking ∧ f.pendingFormat = none ∧ f.sincePulse = 0

/-- In FREE and LOCKING an expiry makes a frame start, loads the flywheel with N, and judges LOCKING (R28, R29). -/
theorem State.flywheelExpires_unlocked (h : s.ftu.lock = .free ∨ s.ftu.lock = .locking) :
    ∃ lock good since, s.flywheelExpires = s.makeFrameStart.setFtu { s.ftuOpened with
        flywheel := some (s.now + s.ftu.nextFormat.rate.period), lock := lock, good := good, sincePulse := since } ∧
      lock = (if s.ftu.staysLocking then .locking else .free) ∧
      (s.ftu.lock = .locking → good = if s.ftu.staysLocking then s.ftu.good else 0) ∧
      since = if s.ftu.lock = .locking ∧ s.ftu.sincePulse = 0 then 1 else s.ftu.sincePulse := by
  obtain free | locking := h
  · refine ⟨_, _, _, State.flywheelExpires_free free, ?_, ?_, ?_⟩
    · simp [s.ftuOpened_lock, free]
    · simp [free]
    · exact (if_neg (by simp [free])).symm
  obtain fresh | again := Nat.eq_zero_or_pos s.ftu.sincePulse
  · refine ⟨_, _, _, State.flywheelExpires_first locking fresh, ?_, ?_, ?_⟩
    · simp [s.ftuOpened_lock, Ftu.staysLocking, locking, fresh]
    · simp [s.ftuOpened_good, Ftu.staysLocking, locking, fresh]
    · simp [locking, fresh]
  · refine ⟨_, _, _, State.flywheelExpires_second locking again, ?_, ?_, ?_⟩
    · simp [again.ne']
    · simp [again.ne']
    · exact (if_neg (by simp [again.ne'])).symm

/-- The reference is lost: the holdover mark is set, the frame start is made, and the lock state is FREE (R31). -/
def State.loseReference (s : State) : State :=
  let u := s.setFtu { s.ftu with holdover := true }
  u.makeFrameStart.setFtu { u.ftuOpened with
    lock := .free, good := 0, flywheel := some (s.now + s.ftu.nextFormat.rate.period) }

/-- The loss is logged once the frame start is made (log 19). -/
theorem State.flywheelExpires_locked (h : s.ftu.lock = .locked) :
    s.flywheelExpires =
      s.loseReference.fault .refLost .none s.ftu.lastPulseFrame (BitVec.ofNat 32 (s.now - s.ftu.lastPulse)) := by
  let u := s.setFtu { s.ftu with holdover := true }
  have expired : s.flywheelExpires = State.fault
      ((u.makeFrameStart.setFtu { u.ftuOpened with lock := .free, good := 0 }).loadFlywheel
        s.ftu.nextFormat.rate.period)
      .refLost .none s.ftu.lastPulseFrame (BitVec.ofNat 32 (s.now - s.ftu.lastPulse)) := by
    unfold State.flywheelExpires
    rw [h]
    dsimp only
    rw [State.makeFrameStart_ftu]
    rfl
  rw [expired, State.loadFlywheel_made]
  rfl

/-- An expiry that leaves the slots and asks for no safe stop ends its step. -/
theorem exec_flywheelExpiry_of {e : Env} {t : State} {due : Nat} (runs : s.ftu.flywheel = some due)
    (expired : ((s.arrive e).expireAt due).flywheelExpires = t) (stop : t.stop.requests = [])
    (a : t.slotA.st = s.slotA.st) (b : t.slotB.st = s.slotB.st) : exec (.flywheelExpiry e) s = .next t := by
  have run : exec (.flywheelExpiry e) s =
      .next (((s.arrive e).expireAt due).flywheelExpires.serve.judgeSlots (s.arrive e)) := by
    show execFlywheelExpiry e s = _
    unfold execFlywheelExpiry
    dsimp only
    rw [State.arrive_ftu, runs]
  rw [run, expired, State.serve_none stop, State.judgeSlots_of_slots (t := s.arrive e) a b]

end

/-- Whether an occurrence asks for a safe stop depends on the Fault Log and on Safe Stop alone (R204). -/
theorem asksNoStop_congr {s t : State} (flt : s.flt = t.flt) (stop : s.stop = t.stop) (k : FaultKind) :
    asksNoStop s k = asksNoStop t k := by
  unfold asksNoStop
  rw [flt, stop]

/-- Settles O18: in FREE and LOCKING the frame start is made and LOCKING judged; in LOCKED the reference is lost. -/
theorem flywheelMakesFrameStarts : Obligations.FlywheelMakesFrameStarts := by
  refine ⟨?unlocked, ?locked⟩
  case unlocked =>
    intro e s due unlocked runs quiet now stays f counts
    let u := (s.arrive e).expireAt due
    obtain ⟨lock, good, since, expired, lock_eq, good_eq, since_eq⟩ :=
      State.flywheelExpires_unlocked (s := u) unlocked
    obtain ⟨shc, mst, acu, sta, vfl⟩ := u.makeFrameStart_arriving
    refine ⟨_, exec_flywheelExpiry_of runs expired
      ((congrArg SafeStop.requests u.makeFrameStart_stop).trans quiet) u.makeFrameStart_slotA_st
      u.makeFrameStart_slotB_st, ?_⟩
    exact ⟨u.makeFrameStart_now, rfl, rfl, lock_eq, good_eq, since_eq, rfl, rfl, rfl, rfl, rfl, rfl, rfl, rfl, rfl,
      rfl, rfl, rfl, rfl, Ftu.nextCadence_eq _, rfl, fun load change => Ftu.nextTc_counted load change _,
      fun load change => Ftu.nextTc_format load change _, fun c load => Ftu.nextTc_load load _,
      ⟨shc, mst, acu, sta, vfl⟩, u.makeFrameStart_tags, u.makeFrameStart_flt, u.makeFrameStart_stop,
      u.makeFrameStart_cgd, u.makeFrameStart_mem⟩
  case locked =>
    intro e s due locked runs quiet whole asks now
    let u := (s.arrive e).expireAt due
    have flt : u.loseReference.flt = s.flt := State.makeFrameStart_flt _
    have stop : u.loseReference.stop = s.stop := State.makeFrameStart_stop _
    have time : u.loseReference.now = now := State.makeFrameStart_now _
    have asks : asksNoStop u.loseReference .refLost = true := (asksNoStop_congr flt stop _).trans asks
    obtain ⟨stands, count, capture⟩ := State.logged_fault (flt ▸ whole) .refLost .none s.ftu.lastPulseFrame
      (BitVec.ofNat 32 (now - s.ftu.lastPulse))
    rw [flt] at count capture
    refine ⟨_, exec_flywheelExpiry_of runs (State.flywheelExpires_locked (s := u) locked) ?_ ?_ ?_, ?_⟩
    · rw [State.fault_stop _ _ _ asks, stop]
      exact quiet
    · rw [State.fault_slotA]
      exact State.makeFrameStart_slotA_st _
    · rw [State.fault_slotB]
      exact State.makeFrameStart_slotB_st _
    · rw [State.fault_now, State.fault_ftu, time]
      exact ⟨rfl, rfl, rfl, rfl, Bool.true_and _, Bool.true_and _, rfl, stands, count,
        fun stood => capture.trans (if_neg (Bool.eq_false_iff.mp stood)), fun stood => capture.trans (if_pos stood)⟩

end Sys2Proof.Machine
end

