-- ==== Sys2Proof/Proofs/FramePulses.lean ====
section
/-! PROOFS. O19: the pulses on the frame pulse input (R28 to R32). -/

namespace Sys2Proof.Machine

section
variable {s : State}

/-! ## A frame start made by a pulse -/

/-- In LOCKED, with no format pending, a pulse makes a frame start and loads the flywheel limit (R31). -/
theorem State.pulseFrame_locked (locked : s.ftu.lock = .locked) (kept : s.ftu.pendingFormat = none) :
    s.pulseFrame = s.makeFrameStart.setFtu { s.ftuOpened with
      lock := .locked
      lastPulseFrame := s.ftu.counter + 1
      flywheel := some (s.now + s.ftu.format.rate.flywheelLimit) } := by
  have lock : s.ftuOpened.lock = .locked := by rw [State.ftuOpened_lock, if_pos kept, locked]
  have format : s.ftuOpened.format = s.ftu.format := congrArg (Option.getD · s.ftu.format) kept
  unfold State.pulseFrame
  dsimp only
  rw [State.makeFrameStart_ftu, lock, if_neg (by decide), format]
  exact s.loadFlywheel_made ..

/-- The FTU after such a frame start. -/
theorem State.pulseFrame_locked_ftu (locked : s.ftu.lock = .locked) (kept : s.ftu.pendingFormat = none) :
    s.pulseFrame.ftu.lock = .locked ∧ s.pulseFrame.ftu.counter = s.ftu.counter + 1 ∧
      s.pulseFrame.ftu.flywheel = some (s.now + s.ftu.format.rate.flywheelLimit) ∧
      s.pulseFrame.ftu.droppedPulses = s.ftu.droppedPulses := by
  rw [State.pulseFrame_locked locked kept]
  exact ⟨rfl, rfl, rfl, rfl⟩

/-- A frame start made by a pulse leaves Safe Stop and the slots' states. -/
theorem State.pulseFrame_stop (s : State) : s.pulseFrame.stop = s.stop := s.makeFrameStart_stop
theorem State.pulseFrame_slotA_st (s : State) : s.pulseFrame.slotA.st = s.slotA.st := s.makeFrameStart_slotA_st
theorem State.pulseFrame_slotB_st (s : State) : s.pulseFrame.slotB.st = s.slotB.st := s.makeFrameStart_slotB_st
theorem State.pulseFrame_flt (s : State) : s.pulseFrame.flt = s.flt := s.makeFrameStart_flt

/-! ## The locking pulse (R30) -/

/-- The FTU locks, and the holdover mark is cleared (log 60). -/
def Ftu.locks (f : Ftu) : Ftu := { f with lock := .locked, holdover := false }

theorem State.lockAt_soon (h : s.sinceFrameStart < s.ftu.format.rate.halfPeriod) :
    s.lockAt = s.setFtu { s.ftu.locks with flywheel := some (s.now + s.ftu.format.rate.flywheelLimit) } := by
  have early : ¬ decide (s.ftu.format.rate.halfPeriod ≤ s.sinceFrameStart) = true := by simpa using h
  exact if_neg early

theorem State.lockAt_late (h : s.ftu.format.rate.halfPeriod ≤ s.sinceFrameStart) :
    s.lockAt = (s.setFtu s.ftu.locks).pulseFrame :=
  if_pos (decide_eq_true h)

/-! ## The cases of a pulse -/

theorem Rate.tolerates_iff {r : Rate} {n : Nat} :
    r.tolerates n = true ↔ r.earlyLimit ≤ n ∧ n ≤ r.upperTolerance := by
  simp [Rate.tolerates]

theorem State.pulse_free (h : s.ftu.lock = .free) :
    s.pulse = s.setFtu { s.ftu with lastPulse := s.now, sincePulse := 0, good := 1, lock := .locking } := by
  unfold State.pulse
  rw [h]
  rfl

section
variable (locking : s.ftu.lock = .locking)
include locking

theorem State.pulse_restarts (h : s.ftu.format.rate.tolerates s.sinceLastPulse = false) :
    s.pulse = s.notePulse 1 := by
  unfold State.pulse
  rw [locking]
  exact if_neg (Bool.eq_false_iff.mp h)

theorem State.pulse_counts (h : s.ftu.format.rate.tolerates s.sinceLastPulse = true) (few : s.ftu.good + 1 < 3) :
    s.pulse = s.notePulse (s.ftu.good + 1) := by
  unfold State.pulse
  rw [locking]
  exact (if_pos h).trans (if_pos few)

theorem State.pulse_locks (h : s.ftu.format.rate.tolerates s.sinceLastPulse = true) (third : 3 ≤ s.ftu.good + 1) :
    s.pulse = (s.notePulse (s.ftu.good + 1)).lockAt := by
  unfold State.pulse
  rw [locking]
  exact (if_pos h).trans (if_neg (Nat.not_lt.mpr third))

end

section
variable (locked : s.ftu.lock = .locked)
include locked

theorem State.pulse_onTime (h : s.ftu.format.rate.earlyLimit ≤ s.sinceFrameStart) :
    s.pulse = (s.notePulse s.ftu.good).pulseFrame := by
  unfold State.pulse
  rw [locked]
  exact if_pos h

theorem State.pulse_early (h : s.sinceFrameStart < s.ftu.format.rate.earlyLimit) :
    s.pulse = (s.notePulse s.ftu.good).earlyPulse := by
  unfold State.pulse
  rw [locked]
  exact if_neg (Nat.not_le.mpr h)

end

theorem State.earlyPulse_ignore (h : s.ftu.policy = .ignore) :
    s.earlyPulse = (s.setFtu { s.ftu with droppedPulses := min 65535 (s.ftu.droppedPulses + 1) }).fault .refEarly .none
      (BitVec.ofNat 32 s.sinceFrameStart) (BitVec.ofNat 32 (min 65535 (s.ftu.droppedPulses + 1))) := by
  unfold State.earlyPulse
  rw [h, satSucc_eq]
  rfl

theorem State.earlyPulse_restart (h : s.ftu.policy = .restart) :
    s.earlyPulse = s.pulseFrame.fault .refEarly .none (BitVec.ofNat 32 s.sinceFrameStart)
      (BitVec.ofNat 32 s.pulseFrame.ftu.droppedPulses) := by
  unfold State.earlyPulse
  rw [h]
  rfl

/-! ## The command -/

theorem State.active_iff : s.active = true ↔ s.shc.part = .running ∨ s.shc.part = .resetting := by
  simp [State.active]

/-- A pulse that leaves the slots and asks for no safe stop ends its step. -/
theorem exec_framePulse_of {e : Env} {t : State} (part : s.shc.part = .running ∨ s.shc.part = .resetting)
    (pulsed : (s.arrive e).pulse = t) (stop : t.stop.requests = []) (a : t.slotA.st = s.slotA.st)
    (b : t.slotB.st = s.slotB.st) : exec (.framePulse e) s = .next t := by
  have run : exec (.framePulse e) s = .next ((s.arrive e).pulse.serve.judgeSlots (s.arrive e)) :=
    if_pos (State.active_iff (s := s.arrive e).mpr part)
  rw [run, pulsed, State.serve_none stop, State.judgeSlots_of_slots (t := s.arrive e) a b]

/-- A pulse whose last effect is an occurrence that asks for no safe stop ends its step with it. -/
theorem exec_framePulse_logs {e : Env} {t : State} {k : FaultKind} {x : FaultSource} {d1 d2 : Word}
    (part : s.shc.part = .running ∨ s.shc.part = .resetting) (pulsed : (s.arrive e).pulse = t.fault k x d1 d2)
    (quiet : s.stop.requests = []) (asks : asksNoStop s k = true) (flt : t.flt = s.flt) (stop : t.stop = s.stop)
    (a : t.slotA.st = s.slotA.st) (b : t.slotB.st = s.slotB.st) :
    exec (.framePulse e) s = .next (t.fault k x d1 d2) := by
  have asks : asksNoStop t k = true := (asksNoStop_congr flt stop k).trans asks
  refine exec_framePulse_of part pulsed ?_ ?_ ?_
  · rw [State.fault_stop _ _ _ asks, stop, quiet]
  · rw [State.fault_slotA, a]
  · rw [State.fault_slotB, b]

theorem exec_framePulse_ignored {e : Env} (running : s.shc.part ≠ .running) (resetting : s.shc.part ≠ .resetting) :
    exec (.framePulse e) s = .next (s.arrive e) :=
  if_neg fun active => (State.active_iff (s := s.arrive e).mp active).elim running resetting

end

/-- Settles O19, case by case of the pulse. -/
theorem pulsesSteerTheFlywheel : Obligations.PulsesSteerTheFlywheel := by
  refine ⟨?unlocked, fun e s running resetting => exec_framePulse_ignored running resetting, ?locked⟩
  case unlocked =>
    intro e s part quiet now n interval noted
    let u := s.arrive e
    have good (low : n * 98 / 100 ≤ interval) (high : interval ≤ n * 102 / 100) :
        u.ftu.format.rate.tolerates u.sinceLastPulse = true := Rate.tolerates_iff.mpr ⟨low, high⟩
    have bad (outside : interval < n * 98 / 100 ∨ n * 102 / 100 < interval) :
        u.ftu.format.rate.tolerates u.sinceLastPulse = false := by
      refine Bool.eq_false_iff.mpr fun within => ?_
      obtain ⟨low, high⟩ := Rate.tolerates_iff.mp within
      exact outside.elim (Nat.not_lt.mpr low) (Nat.not_lt.mpr high)
    refine ⟨fun free => ?first, fun locking outside => ?outside, fun locking low high few => ?counts,
      fun locking low high third soon => ?soon, fun locking low high third late kept => ?late⟩
    case first => exact exec_framePulse_of part (State.pulse_free (s := u) free) quiet rfl rfl
    case outside => exact exec_framePulse_of part (State.pulse_restarts (s := u) locking (bad outside)) quiet rfl rfl
    case counts => exact exec_framePulse_of part (State.pulse_counts (s := u) locking (good low high) few) quiet rfl rfl
    case soon =>
      have locks := State.pulse_locks (s := u) locking (good low high) third
      exact exec_framePulse_of part (locks.trans (State.lockAt_soon soon)) quiet rfl rfl
    case late =>
      let v := (u.notePulse (s.ftu.good + 1)).setFtu (u.notePulse (s.ftu.good + 1)).ftu.locks
      have locks : u.pulse = v.pulseFrame :=
        (State.pulse_locks (s := u) locking (good low high) third).trans (State.lockAt_late late)
      refine ⟨_, exec_framePulse_of part locks ?_ v.pulseFrame_slotA_st v.pulseFrame_slotB_st, ?_⟩
      · rw [v.pulseFrame_stop]
        exact quiet
      · rw [State.pulseFrame_locked (s := v) rfl kept]
        exact ⟨rfl, rfl, rfl, rfl, rfl, rfl, rfl, v.makeFrameStart_flt⟩
  case locked =>
    intro e s part quiet locked whole now n since
    let u := s.arrive e
    let v := u.notePulse u.ftu.good
    refine ⟨fun due kept => ?onTime, fun early ignore asks => ?ignore, fun early restart kept asks => ?restart⟩
    case onTime =>
      refine ⟨_, exec_framePulse_of part (State.pulse_onTime (s := u) locked due) ?_ v.pulseFrame_slotA_st
        v.pulseFrame_slotB_st, ?_⟩
      · rw [v.pulseFrame_stop]
        exact quiet
      · obtain ⟨lock, counter, flywheel, dropped⟩ := State.pulseFrame_locked_ftu (s := v) locked kept
        exact ⟨lock, counter, flywheel, dropped, v.pulseFrame_flt⟩
    case ignore =>
      intro dropped
      have pulsed := (State.pulse_early (s := u) locked early).trans (State.earlyPulse_ignore ignore)
      exact exec_framePulse_logs part pulsed quiet asks rfl rfl rfl rfl
    case restart =>
      have pulsed := (State.pulse_early (s := u) locked early).trans (State.earlyPulse_restart restart)
      have flt : v.pulseFrame.flt = s.flt := v.pulseFrame_flt
      obtain ⟨lock, counter, flywheel, dropped⟩ := State.pulseFrame_locked_ftu (s := v) locked kept
      obtain ⟨stands, count, _⟩ := State.logged_fault (flt ▸ whole) .refEarly .none (BitVec.ofNat 32 since)
        (BitVec.ofNat 32 v.pulseFrame.ftu.droppedPulses)
      rw [flt] at count
      refine ⟨_, exec_framePulse_logs part pulsed quiet asks flt v.pulseFrame_stop v.pulseFrame_slotA_st
        v.pulseFrame_slotB_st, ?_⟩
      rw [State.fault_ftu]
      exact ⟨lock, counter, flywheel, dropped, stands, count⟩

end Sys2Proof.Machine
end

