-- ==== Sys2Proof/Proofs/LensLink.lean ====
section
/-! PROOFS. O29 fails: a state in which an axis is STALLED with a glide left to it, as no step from reset leaves one. -/

namespace Sys2Proof.Machine

/-- A reply with the focus in MANUAL and the rocker outside the deadband. -/
def byHandWithRocker : LensReply :=
  { attached := true, zoom := 0, focus := 0, iris := 0, rocker := 100, button := false, focusManual := true,
    irisManual := false }

/-- A glide runs, and the focus in it is STALLED. -/
def stalledInGlide : State :=
  { State.reset with
    ldu := { Ldu.reset with
      timer := some 2000, link := .online, reply := some byHandWithRocker, shot := .gliding 0 0 1
      focus := { Ldu.reset.focus with st := .stalled, move := .glide 0 0 } } }

/-- Refutes O29, in its clause on an axis in MANUAL: the grip takes the zoom and cancels the glide, the focus is left in
a rest move whatever its state was (R69), and so the mode MANUAL leaves it IDLE (R58), where the clause has an axis that
was STALLED before the update STALLED after it. -/
theorem not_lensLinkFollowsItsReplies : ¬ Obligations.LensLinkFollowsItsReplies := by
  rintro ⟨-, -, -, -, received⟩
  obtain ⟨-, attached⟩ := received ⟨0, [], []⟩ stalledInGlide 2000 byHandWithRocker rfl rfl rfl rfl
  obtain ⟨-, manual, -⟩ := attached rfl rfl
  obtain ⟨t, run, -, -, -, -, -, -, stands, -⟩ := manual .focus rfl
  have idle : t.ldu.focus.st = .idle := by
    obtain rfl := Host.Outcome.next.inj run
    rfl
  exact absurd (idle.symm.trans stands) (by decide)

end Sys2Proof.Machine
end

