-- ==== Sys2Proof/Proofs/AxisMoves.lean ====
section
/-! PROOFS. The arithmetic of one axis at an update (R48, R50, R51): O35. -/

namespace Sys2Proof.Machine

/-! ## The speed of a position move (R51) -/

/-- The speed after step 3 of R51 is at least 1, so that a position move always goes on. -/
theorem one_le_positionSpeed {speed step cap remainder : Int} (hs : 0 ≤ speed) (hstep : 1 ≤ step) (hcap : 1 ≤ cap) :
    1 ≤ positionSpeed speed step cap remainder := by
  unfold positionSpeed
  split
  · exact le_max_of_le_left hstep
  · split
    · exact le_max_of_le_left hcap
    · exact le_min hcap (by omega)

/-- The move after its speed is worked: the demand, where it does not end, goes by less than what remains. -/
theorem Axis.rise_within {a : Axis} {lo hi : Int} (low : lo ≤ a.demand + a.vel) (high : a.demand + a.vel ≤ hi) :
    a.rise (lo, hi) = { a with demand := a.demand + a.vel } :=
  (if_neg (not_lt.mpr low)).trans (if_neg (not_lt.mpr high))

section
variable {a : Axis} {p cap : Int} (position : a.move = .position p cap) (along : 0 ≤ a.vel * (p - a.demand))
include position along

/-- The speed that a position move takes at this update. -/
theorem Axis.update_position (range : Int × Int) :
    let v := positionSpeed (size a.vel) a.step cap (size (p - a.demand))
    a.update range =
      if size (p - a.demand) ≤ v then ({ a with demand := p, vel := 0 }, some 1)
      else (({ a with vel := signed (p - a.demand) v } : Axis).rise range, none) := by
  unfold Axis.update
  rw [position]
  exact if_neg (not_lt.mpr along)

theorem Axis.update_position_ends (range : Int × Int)
    (h : size (p - a.demand) ≤ positionSpeed (size a.vel) a.step cap (size (p - a.demand))) :
    a.update range = ({ a with demand := p, vel := 0 }, some 1) :=
  (Axis.update_position position along range).trans (if_pos h)

/-- A position move that does not end goes on by its speed, inside the range that holds its demand and its target. -/
theorem Axis.update_position_goesOn {lo hi : Int} (low : lo ≤ p) (high : p ≤ hi) (above : lo ≤ a.demand)
    (below : a.demand ≤ hi) {v : Int} (worked : positionSpeed (size a.vel) a.step cap (size (p - a.demand)) = v)
    (speed : 1 ≤ v) (h : v < size (p - a.demand)) :
    a.update (lo, hi) =
      ({ a with demand := a.demand + signed (p - a.demand) v, vel := signed (p - a.demand) v }, none) := by
  refine (Axis.update_position position along _).trans ((if_neg (by omega)).trans ?_)
  rw [worked, Axis.rise_within] <;> dsimp only <;> unfold signed size at * <;> split <;> omega

end

/-- Settles O35: the speed is at least 1, and a move that does not end goes by less than what remains. -/
theorem positionMoveNeverPassesItsTarget : Obligations.PositionMoveNeverPassesItsTarget := by
  intro a lo hi p cap position step_pos cap_pos low high above below along
  have speed := one_le_positionSpeed (speed := size a.vel) (remainder := size (p - a.demand))
    (by unfold size; omega) step_pos cap_pos
  by_cases ends : size (p - a.demand) ≤ positionSpeed (size a.vel) a.step cap (size (p - a.demand))
  · rw [Axis.update_position_ends position along _ ends]
    exact ⟨fun h => ⟨h, le_rfl⟩, fun h => ⟨le_rfl, h⟩, ⟨fun _ => rfl, fun _ => rfl⟩, .inr rfl, fun _ => rfl⟩
  · rw [Axis.update_position_goesOn position along low high above below rfl speed (not_le.mp ends)]
    generalize positionSpeed _ _ _ _ = v at *
    unfold size at ends
    unfold signed
    refine ⟨?_, ?_, ⟨fun h => (nomatch h), ?_⟩, .inl rfl, fun h => nomatch h⟩ <;> dsimp only <;> split <;> omega

end Sys2Proof.Machine
end

