-- ==== Sys2Proof/Proofs/AxisOrders.lean ====
section
/-! PROOFS. The orders that move an axis (R46, R49 to R52, R57, R58, R62, R63): O30 and O31. -/

namespace Sys2Proof.Machine

/-! ## An order of the LDU -/

section
variable {e : Env} {s : State} {c : Instr} {cls : TagClass} {kind tag : Byte} {params : List Byte}
  {decide : State → Decision}

/-- An order refused by its block changes nothing but its result. -/
theorem exec_orderRefused {r : Result}
    (order : exec c s = .next ((s.arrive e).takeOrder cls kind tag params decide))
    (due : dispatches s cls kind tag params = true) (refuses : decide (s.arrive e) = .refuse r) :
    exec c s = .next ((s.arrive e).finishEntry r) :=
  order.trans (congrArg Host.Outcome.next (State.takeOrder_refuse due refuses))

/-- An order carried out ends its step with its result, where its effect leaves the slots and asks for no safe
stop. -/
theorem exec_orderCarried {clamped : Bool} {run : State → State} {t : State}
    (order : exec c s = .next ((s.arrive e).takeOrder cls kind tag params decide))
    (due : dispatches s cls kind tag params = true) (carries : decide (s.arrive e) = .carry clamped run)
    (ran : run ((s.arrive e).acceptTag kind tag) = t) (stop : t.stop = s.stop) (a : t.slotA = s.slotA)
    (b : t.slotB = s.slotB) : exec c s = .next (t.finishEntry (carriedResult clamped tag)) := by
  have due : dispatches (s.arrive e) cls kind tag params = true := due
  obtain ⟨_, _, quiet⟩ := dispatches_iff.mp due
  rw [order, State.takeOrder_carry due carries, ran, State.serve_none, State.judgeSlots_of_slots]
  · simp [a]
  · simp [b]
  · simpa [stop] using quiet

/-- An order that replaces the LDU alone ends its step with its result. -/
theorem exec_orderSetsLdu {clamped : Bool} {run : State → State} {l : Ldu}
    (order : exec c s = .next ((s.arrive e).takeOrder cls kind tag params decide))
    (due : dispatches s cls kind tag params = true) (carries : decide (s.arrive e) = .carry clamped run)
    (ran : run ((s.arrive e).acceptTag kind tag) = ((s.arrive e).acceptTag kind tag).setLdu l) :
    exec c s = .next (State.finishEntry { (s.arrive e).acceptTag kind tag with ldu := l } (carriedResult clamped tag)) :=
  exec_orderCarried order due carries ran (by simp) (by simp) (by simp)

end

/-! ## What refuses an order of an axis (R46, R57, R58, R63) -/

section
variable {s : State} {l : Ldu} {x : AxisId}

theorem State.whenOnline_offline (h : s.ldu.link ≠ .online) (d : Decision) :
    s.whenOnline d = .refuse .refusedState := if_neg h

theorem State.whenOnline_online (h : s.ldu.link = .online) (d : Decision) : s.whenOnline d = d := if_pos h

theorem Ldu.gripRefuses_iff :
    l.gripRefuses = true ↔ l.lockout = false ∧ l.releaseWait = false ∧ 8 < l.view.rocker.natAbs := by
  simp [Ldu.gripRefuses, and_assoc]

theorem Ldu.axisRefusal_grip (grip : l.gripRefuses = true) : l.axisRefusal .zoom = some .refusedGrip :=
  if_pos ⟨rfl, grip⟩

theorem Ldu.axisRefusal_unclaimed (free : x = .zoom → l.gripRefuses = false) :
    l.axisRefusal x =
      if l.manual x = true then some .refusedManual
      else if (l.axis x).st = .stalled then some .refusedStalled else none :=
  if_neg fun claimed => Bool.eq_false_iff.mp (free claimed.1) claimed.2

theorem Ldu.axisRefusal_manual (free : x = .zoom → l.gripRefuses = false) (manual : l.manual x = true) :
    l.axisRefusal x = some .refusedManual := (Ldu.axisRefusal_unclaimed free).trans (if_pos manual)

theorem Ldu.axisRefusal_servo (free : x = .zoom → l.gripRefuses = false) (servo : l.manual x = false) :
    l.axisRefusal x = if (l.axis x).st = .stalled then some .refusedStalled else none :=
  (Ldu.axisRefusal_unclaimed free).trans (if_neg (Bool.eq_false_iff.mp servo))

theorem Ldu.axisRefusal_none (free : x = .zoom → l.gripRefuses = false) (servo : l.manual x = false)
    (notStalled : (l.axis x).st ≠ .stalled) : l.axisRefusal x = none :=
  (Ldu.axisRefusal_servo free servo).trans (if_neg notStalled)

end

section
variable {e : Env} {s : State} {c : Instr} {kind tag : Byte} {params : List Byte} {x : AxisId} {clamped : Bool}
  {m : Ldu → Move} (order : exec c s = .next ((s.arrive e).takeOrder .optional kind tag params
    (decideAxisOrder x tag clamped m))) (due : dispatches s .optional kind tag params = true)
include order due

/-- The refusals of an order of the zoom, in their order. -/
theorem zoomOrder_refused (zoom : x = .zoom) :
    (s.ldu.link ≠ .online → exec c s = .next ((s.arrive e).finishEntry .refusedState)) ∧
      (s.ldu.link = .online → s.ldu.gripRefuses = true →
        exec c s = .next ((s.arrive e).finishEntry .refusedGrip)) ∧
      (s.ldu.link = .online → s.ldu.gripRefuses = false → s.ldu.zoom.st = .stalled →
        exec c s = .next ((s.arrive e).finishEntry .refusedStalled)) := by
  subst zoom
  have refused {r : Result} (online : s.ldu.link = .online) (h : s.ldu.axisRefusal .zoom = some r) :
      exec c s = .next ((s.arrive e).finishEntry r) := by
    refine exec_orderRefused order due ((State.whenOnline_online online _).trans ?_)
    rw [State.arrive_ldu, h]
  exact ⟨fun offline => exec_orderRefused order due (State.whenOnline_offline offline _),
    fun online grip => refused online (Ldu.axisRefusal_grip grip),
    fun online free stalled => refused online ((Ldu.axisRefusal_servo (fun _ => free) rfl).trans (if_pos stalled))⟩

/-- The refusals of an order of an axis that has a manual mode, in their order. -/
theorem axisOrder_refused (other : x ≠ .zoom) :
    (s.ldu.link ≠ .online → exec c s = .next ((s.arrive e).finishEntry .refusedState)) ∧
      (s.ldu.link = .online → s.ldu.manual x = true →
        exec c s = .next ((s.arrive e).finishEntry .refusedManual)) ∧
      (s.ldu.link = .online → s.ldu.manual x = false → (s.ldu.axis x).st = .stalled →
        exec c s = .next ((s.arrive e).finishEntry .refusedStalled)) := by
  have refused {r : Result} (online : s.ldu.link = .online) (h : s.ldu.axisRefusal x = some r) :
      exec c s = .next ((s.arrive e).finishEntry r) := by
    refine exec_orderRefused order due ((State.whenOnline_online online _).trans ?_)
    rw [State.arrive_ldu, h]
  have free (zoom : x = .zoom) : s.ldu.gripRefuses = false := absurd zoom other
  exact ⟨fun offline => exec_orderRefused order due (State.whenOnline_offline offline _),
    fun online manual => refused online (Ldu.axisRefusal_manual free manual),
    fun online servo stalled => refused online ((Ldu.axisRefusal_servo free servo).trans (if_pos stalled))⟩

end

/-- ZOOM_RATE is an axis order of the zoom (R50). -/
theorem exec_zoomRate (e : Env) (s : State) (tag : Byte) (rate : Half) :
    exec (.zoomRate e tag rate) s = .next ((s.arrive e).takeOrder .optional 0x20 tag (p2 rate)
      (decideAxisOrder .zoom tag (clampInt (-4000) 4000 rate.toInt != rate.toInt)
        fun _ => .rate (clampInt (-4000) 4000 rate.toInt))) := rfl

/-- The move of a position order, and whether a parameter was clamped (R51). -/
def positionMove (x : AxisId) (target cap : Half) (l : Ldu) : Move :=
  .position (l.targetOf x (clampInt 0 x.max (u16 target))) (clampInt 1 x.vmax (u16 cap))

def positionClamped (x : AxisId) (target cap : Half) : Bool :=
  clampInt 0 x.max (u16 target) != u16 target || clampInt 1 x.vmax (u16 cap) != u16 cap

/-- ZOOM_TO, FOCUS_TO and IRIS_TO are axis orders of their axes (R51). -/
theorem exec_zoomTo (e : Env) (s : State) (tag : Byte) (target cap : Half) :
    exec (.zoomTo e tag target cap) s = .next ((s.arrive e).takeOrder .optional 0x21 tag (p2 target ++ p2 cap)
      (decideAxisOrder .zoom tag (positionClamped .zoom target cap) (positionMove .zoom target cap))) := rfl

theorem exec_focusTo (e : Env) (s : State) (tag : Byte) (target cap : Half) :
    exec (.focusTo e tag target cap) s = .next ((s.arrive e).takeOrder .optional 0x22 tag (p2 target ++ p2 cap)
      (decideAxisOrder .focus tag (positionClamped .focus target cap) (positionMove .focus target cap))) := rfl

theorem exec_irisTo (e : Env) (s : State) (tag : Byte) (target cap : Half) :
    exec (.irisTo e tag target cap) s = .next ((s.arrive e).takeOrder .optional 0x23 tag (p2 target ++ p2 cap)
      (decideAxisOrder .iris tag (positionClamped .iris target cap) (positionMove .iris target cap))) := rfl

/-- Settles O31: each of the four orders is an axis order, which refuses as its axis does. -/
theorem axisOrdersRefusedInOrder : Obligations.AxisOrdersRefusedInOrder := fun _ _ _ _ _ _ =>
  ⟨fun due => zoomOrder_refused (exec_zoomRate ..) due rfl, fun due => zoomOrder_refused (exec_zoomTo ..) due rfl,
    fun due => axisOrder_refused (exec_focusTo ..) due (by decide),
    fun due => axisOrder_refused (exec_irisTo ..) due (by decide)⟩

/-! ## The move that an order begins (R49, R52) -/

/-- A completion of tag 0 is none (R20). -/
theorem State.complete_untagged (s : State) {h : HeldCompletion} (untagged : h.completion.tag = 0) :
    s.complete h = s := by
  have late : s.openedByJob h.completion.tag = false := by
    unfold State.openedByJob
    rw [untagged]
    split <;> rfl
  have idle : s.inFlight h.completion.tag = false := by
    rw [untagged]
    rfl
  unfold State.complete
  rw [if_neg (Bool.eq_false_iff.mp late), State.recordCompletion_discards idle]

/-- An axis put back changes nothing. -/
theorem Ldu.setAxis_axis (l : Ldu) (x : AxisId) : l.setAxis x (l.axis x) = l := by cases x <;> rfl

/-- Where an axis carries no tag, nothing ends. -/
theorem State.endAxisTag_untagged {s : State} {x : AxisId} (untagged : (s.ldu.axis x).tag = 0) (o : TagOutcome)
    (cause : Nat) : s.endAxisTag x o cause = s := by
  have same : { s.ldu.axis x with tag := 0 } = s.ldu.axis x := by rw [← untagged]
  unfold State.endAxisTag State.endTag
  dsimp only
  rw [State.complete_untagged s untagged]
  unfold State.setAxis
  rw [same, Ldu.setAxis_axis]
  rfl

/-- The step follows the slots (R49). -/
theorem State.moveStep_eq (s : State) :
    s.moveStep = if s.slotA.st = .recording ∨ s.slotB.st = .recording then s.ldu.softStep else s.ldu.hardStep := by
  simp [State.moveStep, State.anyRecording]

/-- An order makes the owner of the zoom ORDER (R57). -/
def Ldu.claimedFor (l : Ldu) (x : AxisId) : Ldu := if x = .zoom then { l with owner := .order } else l

theorem State.claimFor_eq (s : State) (x : AxisId) : s.claimFor x = s.setLdu (s.ldu.claimedFor x) := by
  cases x <;> rfl

theorem Ldu.axis_claimedFor (l : Ldu) (x : AxisId) : (l.claimedFor x).axis x = l.axis x := by cases x <;> rfl

section
variable {s : State} {x : AxisId} (idle : s.ldu.shot = .idle)
include idle

/-- With no sequence an order cancels none. -/
theorem State.cancelByOrder_idle : s.cancelByOrder = s := by
  unfold State.cancelByOrder State.cancelShot
  rw [idle]

/-- The move of an order begins, with no sequence to cancel and no tag to replace. -/
theorem State.orderMove_fresh (untagged : (s.ldu.axis x).tag = 0) (m : Move) (tag : Nat) :
    s.orderMove x m tag = s.setLdu ((s.ldu.claimedFor x).setAxis x { s.ldu.axis x with
      st := .moving, move := m, tag := tag
      step := if s.slotA.st = .recording ∨ s.slotB.st = .recording then s.ldu.softStep else s.ldu.hardStep }) := by
  have owned : ((s.setLdu (s.ldu.claimedFor x)).ldu.axis x) = s.ldu.axis x := s.ldu.axis_claimedFor x
  unfold State.orderMove
  rw [State.cancelByOrder_idle idle, State.claimFor_eq, State.endAxisTag_untagged (owned ▸ untagged)]
  unfold State.beginMove
  dsimp only
  rw [owned, State.moveStep_eq]
  cases x <;> rfl

end

/-- An axis order accepted, with no sequence to cancel and no tag to replace. -/
theorem exec_axisOrder {e : Env} {s : State} {c : Instr} {kind tag : Byte} {params : List Byte} {x : AxisId}
    {clamped : Bool} {m : Ldu → Move}
    (order : exec c s = .next ((s.arrive e).takeOrder .optional kind tag params (decideAxisOrder x tag clamped m)))
    (due : dispatches s .optional kind tag params = true) (online : s.ldu.link = .online)
    (idle : s.ldu.shot = .idle) (accepted : s.ldu.axisRefusal x = none) (untagged : (s.ldu.axis x).tag = 0) :
    exec c s = .next (State.finishEntry { (s.arrive e).acceptTag kind tag with
      ldu := (s.ldu.claimedFor x).setAxis x { s.ldu.axis x with
        st := .moving, move := m s.ldu, tag := tag.toNat
        step := if s.slotA.st = .recording ∨ s.slotB.st = .recording then s.ldu.softStep else s.ldu.hardStep } }
      (carriedResult clamped tag)) := by
  refine exec_orderSetsLdu order due ((State.whenOnline_online online _).trans (by rw [State.arrive_ldu, accepted])) ?_
  rw [State.cancelByOrder_idle (by simpa using idle), State.orderMove_fresh] <;> simp [idle, untagged]

/-! ## Clamped parameters -/

theorem clampInt_eq_self_iff {lo hi v : Int} (_ : lo ≤ hi) : clampInt lo hi v = v ↔ lo ≤ v ∧ v ≤ hi := by
  unfold clampInt
  split
  · omega
  · split <;> omega

/-- CLAMPED says that a parameter was changed (R16). -/
theorem carriedResult_of_changed {clamped : Bool} {p : Prop} [Decidable p] (h : clamped = true ↔ ¬ p) (tag : Byte) :
    carriedResult clamped tag = if p then (if tag = 0 then .done else .accepted) else .clamped := by
  unfold carriedResult
  by_cases hp : p
  · rw [if_neg (by simpa [hp] using h), if_pos hp]
  · rw [if_pos (h.mpr hp), if_neg hp]

/-- The result of a position order (R51). -/
theorem result_of_position (x : AxisId) (target cap : Half) (tag : Byte) :
    carriedResult (positionClamped x target cap) tag =
      if (target.toNat : Int) ≤ x.max ∧ (1 : Int) ≤ cap.toNat ∧ (cap.toNat : Int) ≤ x.vmax then
        (if tag = 0 then .done else .accepted)
      else .clamped := by
  have top : 0 ≤ x.max := by cases x <;> decide
  have vmax : 1 ≤ x.vmax := by cases x <;> decide
  refine carriedResult_of_changed ?_ tag
  unfold positionClamped
  rw [Bool.or_eq_true, bne_iff_ne, bne_iff_ne, ← not_and_or, not_iff_not, clampInt_eq_self_iff top,
    clampInt_eq_self_iff vmax]
  exact and_congr_left' (and_iff_right (Int.natCast_nonneg _))

/-- Settles O30: each order is an axis order that nothing refuses, and its result is that of its parameters. -/
theorem axisMovesBegin : Obligations.AxisMovesBegin := by
  refine ⟨?rate, ?position⟩
  case rate =>
    intro e s tag rate due online free notStalled untagged idle v step
    have begun := exec_axisOrder (exec_zoomRate e s tag rate) due online idle
      (Ldu.axisRefusal_none (x := .zoom) (fun _ => free) rfl notStalled) untagged
    have result : carriedResult (v != rate.toInt) tag =
        if v ≠ rate.toInt then .clamped else if tag = 0 then .done else .accepted := by
      rw [carriedResult_of_changed (p := v = rate.toInt) bne_iff_ne, ite_not]
    exact result ▸ begun
  case position =>
    intro e s tag target cap online idle step moved answer p c
    have result (x : AxisId) : carriedResult (positionClamped x target cap) tag = answer x.max x.vmax :=
      result_of_position x target cap tag
    refine ⟨?zoom, ?focus, ?iris⟩
    case zoom =>
      intro due free notStalled untagged
      exact result .zoom ▸ exec_axisOrder (exec_zoomTo e s tag target cap) due online idle
        (Ldu.axisRefusal_none (x := .zoom) (fun _ => free) rfl notStalled) untagged
    case focus =>
      intro due servo notStalled untagged base
      have begun := exec_axisOrder (exec_focusTo e s tag target cap) due online idle
        (Ldu.axisRefusal_none (x := .focus) nofun servo notStalled) untagged
      have move : positionMove .focus target cap s.ldu = .position (base * 500) (c 4000) := by
        cases based : s.ldu.focusBased <;>
          simp [positionMove, Ldu.targetOf, Ldu.correction, base, based, p, c, u16, AxisId.max, AxisId.vmax]
      rw [result .focus, move] at begun
      exact begun
    case iris =>
      intro due servo notStalled untagged
      exact result .iris ▸ exec_axisOrder (exec_irisTo e s tag target cap) due online idle
        (Ldu.axisRefusal_none (x := .iris) nofun servo notStalled) untagged

end Sys2Proof.Machine
end

