-- ==== Sys2Proof/Proofs/LensOrders.lean ====
section
/-! PROOFS. The orders that set the lens up and the orders of the shots, case by case of their decisions (R46, R49, R53,
R57, R60, R62, R64, R65). -/

namespace Sys2Proof.Machine

/-- An order answered with a result of its block's own, where the effect leaves the slots and asks for no safe stop. -/
theorem exec_orderAnswered {e : Env} {s t : State} {c : Instr} {cls : TagClass} {kind tag : Byte} {params : List Byte}
    {decide : State → Decision} {r : Result} {run : State → State}
    (order : exec c s = .next ((s.arrive e).takeOrder cls kind tag params decide))
    (due : dispatches s cls kind tag params = true) (answers : decide (s.arrive e) = .answer r run)
    (ran : run (s.arrive e) = t) (stop : t.stop = s.stop) (a : t.slotA = s.slotA) (b : t.slotB = s.slotB) :
    exec c s = .next (t.finishEntry r) := by
  have due : dispatches (s.arrive e) cls kind tag params = true := due
  obtain ⟨_, _, quiet⟩ := dispatches_iff.mp due
  rw [order, State.takeOrder_answer due answers, ran, State.serve_none, State.judgeSlots_of_slots]
  · simp [a]
  · simp [b]
  · simpa [stop] using quiet

/-- The result of an untagged order says whether a parameter was changed (R16). -/
theorem carriedResult_untagged {clamped : Bool} {p : Prop} [Decidable p] (h : clamped = true ↔ ¬ p) :
    carriedResult clamped 0 = if p then .done else .clamped := carriedResult_of_changed h 0

theorem clampNat_eq_self_iff {lo hi v : Nat} (_ : lo ≤ hi) : clampNat lo hi v = v ↔ lo ≤ v ∧ v ≤ hi := by
  unfold clampNat
  split
  · omega
  · split <;> omega

section
variable {s : State}

/-! ## LENS_CONFIG (R49) -/

/-- A parameter of LENS_CONFIG was clamped. -/
theorem lensConfig_clamped {hard soft : Byte} {window time : Half} :
    (clampInt 1 200 (u8 hard) != u8 hard || clampInt 1 200 (u8 soft) != u8 soft ||
      clampInt 16 1023 (u16 window) != u16 window || clampNat 10 1000 time.toNat != time.toNat) = true ↔
      ¬ ((1 ≤ hard.toNat ∧ hard.toNat ≤ 200) ∧ (1 ≤ soft.toNat ∧ soft.toNat ≤ 200) ∧
        (16 ≤ window.toNat ∧ window.toNat ≤ 1023) ∧ (10 ≤ time.toNat ∧ time.toNat ≤ 1000)) := by
  simp only [Bool.or_eq_true, bne_iff_ne, ne_eq, clampInt_eq_self_iff (show (1 : Int) ≤ 200 by decide),
    clampInt_eq_self_iff (show (16 : Int) ≤ 1023 by decide), clampNat_eq_self_iff (show 10 ≤ 1000 by decide), u8, u16]
  omega

/-! ## LOAD_LENS_TABLE (R60) -/

/-- A list cut into pieces, piece by piece. -/
theorem pieces_eq {α : Type} (n k : Nat) (l : List α) :
    pieces n k l = (List.range k).map fun i => (l.drop (n * i)).take n := by
  induction k generalizing l with
  | zero => rfl
  | succ k ih =>
    rw [List.range_succ_eq_map, List.map_cons, List.map_map, pieces, ih]
    refine congrArg _ (List.map_congr_left fun i _ => ?_)
    rw [List.drop_drop]
    exact congrArg (fun j => (l.drop j).take n) (by rw [Nat.mul_succ, Nat.add_comm])

/-- A point that a table may have after `before` (R60). -/
def TableKind.Passes (k : TableKind) (before p : Int) : Prop := k.lo ≤ p ∧ p ≤ k.hi ∧ (k.rising = true → before ≤ p)

theorem firstOffending_passes {k : TableKind} {before p : Int} (h : k.Passes before p) (i : Nat) (l : List Int) :
    firstOffending k.lo k.hi k.rising i before (p :: l) = firstOffending k.lo k.hi k.rising (i + 1) p l := by
  obtain ⟨low, high, rises⟩ := h
  refine if_neg ?_
  rintro (below | above | ⟨rising, falls⟩)
  · omega
  · omega
  · have := rises rising
    omega

theorem firstOffending_fails {k : TableKind} {before p : Int} (h : ¬ k.Passes before p) (i : Nat) (l : List Int) :
    firstOffending k.lo k.hi k.rising i before (p :: l) = some i := by
  refine if_pos ?_
  by_contra within
  push Not at within
  exact h within

/-- The first point of a table that offends is the one whose predecessors all pass; `prev j` is the point before
point `j`. -/
theorem firstOffending_range {k : TableKind} {f prev : Nat → Int} (before : ∀ j, prev (j + 1) = f j) {m n i : Nat}
    (low : i ≤ m) (passes : ∀ j, i ≤ j → j < m → k.Passes (prev j) (f j))
    (ends : m = i + n ∨ m < i + n ∧ ¬ k.Passes (prev m) (f m)) :
    firstOffending k.lo k.hi k.rising i (prev i) ((List.range' i n).map f) = if m < i + n then some m else none := by
  induction n generalizing i with
  | zero => exact (if_neg (by omega)).symm
  | succ n ih =>
    rw [List.range'_succ, List.map_cons]
    obtain rfl | later := Nat.eq_or_lt_of_le low
    · obtain whole | ⟨inside, fails⟩ := ends
      · omega
      · rw [firstOffending_fails fails, if_pos inside]
    · rw [firstOffending_passes (passes i le_rfl later), ← before,
        ih later (fun j above => passes j (by omega)) (ends.imp (by omega) (And.imp_left (by omega)))]
      simp only [show i + 1 + n = i + (n + 1) by omega]

/-- A table in which no point offends has its points in their range. -/
theorem within_of_firstOffending_none {k : TableKind} {i : Nat} {before : Int} {l : List Int}
    (h : firstOffending k.lo k.hi k.rising i before l = none) : ∀ p ∈ l, k.lo ≤ p ∧ p ≤ k.hi := by
  induction l generalizing i before with
  | nil => exact fun _ mem => nomatch mem
  | cons p l ih =>
    by_cases passes : k.Passes before p
    · rw [firstOffending_passes passes] at h
      exact List.forall_mem_cons.mpr ⟨⟨passes.1, passes.2.1⟩, ih h⟩
    · rw [firstOffending_fails passes] at h
      cases h

/-- The scale table and the tracking table (R60). -/
abbrev TableKind.scale : TableKind := ⟨0, 500, 60000, true⟩
abbrev TableKind.tracking : TableKind := ⟨1, -2048, 2047, false⟩

theorem tableKind_beyond {table : Byte} (h : 1 < table.toNat) : tableKind table = none :=
  (if_neg (by omega)).trans (if_neg (by omega))

theorem tableKind_known {table : Byte} (h : table.toNat ≤ 1) : ∃ k, tableKind table = some k := by
  unfold tableKind
  split
  · exact ⟨_, rfl⟩
  · exact ⟨_, if_pos (by omega)⟩

/-- Point `i` of a table, as the number in its four bytes. -/
def pointWord (b : List Byte) (i : Nat) : Nat := ofLe ((b.drop (4 * i)).take 4)

theorem tablePoints_scale (b : List Byte) :
    tablePoints .scale b = (List.range 17).map fun i => (pointWord b i : Int) := by
  unfold tablePoints
  rw [pieces_eq, List.map_map]
  rfl

theorem tablePoints_tracking (b : List Byte) :
    tablePoints .tracking b = (List.range 17).map fun i =>
      if pointWord b i < 2147483648 then (pointWord b i : Int) else (pointWord b i : Int) - 4294967296 := by
  unfold tablePoints
  rw [pieces_eq, List.map_map]
  rfl

section
variable {table : Byte} {a : Word}

theorem decideLoadLensTable_badParam (online : s.ldu.link = .online) (bad : 1 < table.toNat ∨ a.toNat % 4 ≠ 0) :
    decideLoadLensTable table a s = .refuse .refusedParam := by
  refine (State.whenOnline_online online _).trans ?_
  cases kind : tableKind table with
  | none => rfl
  | some k =>
    refine if_pos (bad.resolve_left fun beyond => ?_)
    rw [tableKind_beyond beyond] at kind
    cases kind

/-- A LOAD_LENS_TABLE that may read its points (R60). -/
theorem decideLoadLensTable_reads {k : TableKind} (online : s.ldu.link = .online) (kind : tableKind table = some k)
    (aligned : a.toNat % 4 = 0) :
    decideLoadLensTable table a s =
      match s.busRead a.toNat 68 with
      | .error bad => .answer .refusedParam fun s => s.busFault .ldu bad
      | .ok b =>
        match firstOffending k.lo k.hi k.rising 0 0 (tablePoints k b) with
        | some i => .answer .refusedParam fun s => s.fault .lensTable .none (wordOfNat k.id) (wordOfNat i)
        | none => .carry false fun s => s.setLdu (s.ldu.loadTable k (tablePoints k b)) := by
  refine (State.whenOnline_online online _).trans ?_
  rw [kind]
  exact if_neg (not_not_intro aligned)

theorem decideLoadLensTable_busError {bad : Nat} (online : s.ldu.link = .online) (known : table.toNat ≤ 1)
    (aligned : a.toNat % 4 = 0) (failed : s.busError a.toNat 68 = some bad) :
    decideLoadLensTable table a s = .answer .refusedParam fun s => s.busFault .ldu bad := by
  obtain ⟨k, kind⟩ := tableKind_known known
  rw [decideLoadLensTable_reads online kind aligned, State.busRead, failed]

section
variable {k : TableKind} (online : s.ldu.link = .online) (kind : tableKind table = some k)
  (aligned : a.toNat % 4 = 0) (read : s.busError a.toNat 68 = none)
include online kind aligned read

theorem decideLoadLensTable_offends {i : Nat} (offends : firstOffending k.lo k.hi k.rising 0 0
      (tablePoints k (Memory.readAll s.mem a.toNat 68)) = some i) :
    decideLoadLensTable table a s =
      .answer .refusedParam fun s => s.fault .lensTable .none (wordOfNat k.id) (wordOfNat i) := by
  rw [decideLoadLensTable_reads online kind aligned, State.busRead, read]
  dsimp only
  rw [offends]

theorem decideLoadLensTable_loads (passes : firstOffending k.lo k.hi k.rising 0 0
      (tablePoints k (Memory.readAll s.mem a.toNat 68)) = none) :
    decideLoadLensTable table a s = .carry false fun u =>
      u.setLdu (u.ldu.loadTable k (tablePoints k (Memory.readAll s.mem a.toNat 68))) := by
  rw [decideLoadLensTable_reads online kind aligned, State.busRead, read]
  dsimp only
  rw [passes]

end

end

/-- The point before point `j` of a table; a scale table begins above 0 (R60). -/
def pointBefore (b : List Byte) : Nat → Int
  | 0 => 0
  | j + 1 => pointWord b j

/-- The first offending point of a scale table is the one that its predecessors do not reach. -/
theorem firstOffending_scale {b : List Byte} {i : Nat} (low : i ≤ 17)
    (within : ∀ j, j < i → 500 ≤ pointWord b j ∧ pointWord b j ≤ 60000)
    (rises : ∀ j, j + 1 < i → pointWord b j ≤ pointWord b (j + 1))
    (ends : i < 17 → pointWord b i < 500 ∨ 60000 < pointWord b i ∨ (0 < i ∧ pointWord b i < pointWord b (i - 1))) :
    firstOffending 500 60000 true 0 0 (tablePoints .scale b) = if i < 17 then some i else none := by
  rw [tablePoints_scale, List.range_eq_range']
  refine (firstOffending_range (k := .scale) (prev := pointBefore b) (fun _ => rfl) (Nat.zero_le i) ?_ ?_).trans
    (by rw [Nat.zero_add])
  · intro j _ before
    have ⟨above, below⟩ := within j before
    refine ⟨Int.ofNat_le.mpr above, Int.ofNat_le.mpr below, fun _ => ?_⟩
    cases j with
    | zero => exact Int.natCast_nonneg _
    | succ j => exact Int.ofNat_le.mpr (rises j before)
  · obtain rfl | inside := Nat.eq_or_lt_of_le low
    · exact .inl rfl
    · refine .inr ⟨by omega, fun ⟨above, below, reached⟩ => ?_⟩
      have above : (500 : Int) ≤ pointWord b i := above
      have below : (pointWord b i : Int) ≤ 60000 := below
      obtain small | large | ⟨pos, falls⟩ := ends inside
      · omega
      · omega
      · obtain ⟨j, rfl⟩ : ∃ j, i = j + 1 := ⟨i - 1, by omega⟩
        have reached : (pointWord b j : Int) ≤ pointWord b (j + 1) := reached rfl
        rw [Nat.add_sub_cancel] at falls
        omega

/-- No point of a tracking table within its range offends. -/
theorem firstOffending_tracking {l : List Int} (within : ∀ p ∈ l, -2048 ≤ p ∧ p ≤ 2047) (i : Nat) (before : Int) :
    firstOffending (-2048) 2047 false i before l = none := by
  induction l generalizing i before with
  | nil => rfl
  | cons p l ih =>
    obtain ⟨⟨low, high⟩, rest⟩ := List.forall_mem_cons.mp within
    exact (firstOffending_passes (k := .tracking) ⟨low, high, fun rising => nomatch rising⟩ i l).trans (ih rest _ _)

/-! ## TRACKING_ON, TRACKING_OFF and AXIS_RECOVER (R62, R64) -/

theorem Ldu.trackingBusy_iff {l : Ldu} :
    l.trackingBusy = true ↔ l.focus.moving = true ∨ l.shot.running = true := by
  simp [Ldu.trackingBusy]

theorem Ldu.trackOn_stands {l : Ldu} (h : l.focusBased = true ∨ l.focus.st = .stalled ∨ l.view.focusManual = true) :
    l.trackOn = { l with tracking := true } :=
  if_pos (by simpa [or_assoc] using h)

theorem Ldu.trackOn_bases {l : Ldu} (based : l.focusBased = false) (notStalled : l.focus.st ≠ .stalled)
    (servo : l.view.focusManual = false) :
    l.trackOn = { l with
      tracking := true, focusBased := true
      focus := { l.focus with demand := (l.focus.sent - l.track.value l.zoom.sent) * 500 } } :=
  if_neg (by simp [based, notStalled, servo])

theorem decideTrackingOn_refuses (online : s.ldu.link = .online)
    (h : s.ldu.track.valid = false ∨ s.ldu.trackingBusy = true) : decideTrackingOn s = .refuse .refusedState :=
  (State.whenOnline_online online _).trans (if_pos h)

theorem decideTrackingOn_carries (online : s.ldu.link = .online) (valid : s.ldu.track.valid = true)
    (free : ¬ s.ldu.trackingBusy = true) : decideTrackingOn s = .carry false fun s => s.setLdu s.ldu.trackOn :=
  (State.whenOnline_online online _).trans (if_neg (by simp [valid, free]))

/-- Off its base the focus demand is the position last sent (R62). -/
theorem Ldu.unbase_based {l : Ldu} (based : l.focusBased = true) :
    l.unbase = { l with focusBased := false, focus := { l.focus with demand := l.focus.sent * 500 } } := if_pos based

theorem Ldu.unbase_off {l : Ldu} (off : l.focusBased = false) : l.unbase = l := if_neg (by simp [off])

/-- With tracking off nothing puts the focus demand on the base (R62). -/
theorem Ldu.rebase_untracked {l : Ldu} (off : l.tracking = false) : l.rebase = l := if_neg (by simp [off])

theorem axisOf_beyond {k : Byte} (h : 2 < k.toNat) : axisOf k = none :=
  (if_neg (by omega)).trans ((if_neg (by omega)).trans (if_neg (by omega)))

theorem decideAxisRecover_unknown {k : Byte} (online : s.ldu.link = .online) (h : 2 < k.toNat) :
    decideAxisRecover k s = .refuse .refusedParam := by
  refine (State.whenOnline_online online _).trans ?_
  rw [axisOf_beyond h]

theorem decideAxisRecover_known {k : Byte} {x : AxisId} (online : s.ldu.link = .online) (axis : axisOf k = some x) :
    decideAxisRecover k s =
      if (s.ldu.axis x).st = .stalled then .carry false fun s => s.recoverAxis x else .refuse .refusedState := by
  refine (State.whenOnline_online online _).trans ?_
  rw [axis]

@[simp] theorem Ldu.tracking_setAxis (l : Ldu) (x : AxisId) (a : Axis) : (l.setAxis x a).tracking = l.tracking := by
  cases x <;> rfl

theorem State.recoverAxis_untracked {x : AxisId} (h : x = .focus → s.ldu.tracking = false) :
    s.recoverAxis x =
      s.setLdu (s.ldu.setAxis x { s.ldu.axis x with st := .idle, vel := 0, stallCount := 0 }) := by
  unfold State.recoverAxis
  dsimp only
  split
  next focus => rw [Ldu.rebase_untracked ((Ldu.tracking_setAxis ..).trans (h focus))]
  next => rfl

end

end Sys2Proof.Machine
end

