-- ==== Sys2Proof/Proofs/LensSteps.lean ====
section
/-! PROOFS. What a lens update can do once the link and the view stand, said once: it sets axes, claim and sequence, it
ends tags, and it logs stalls. Each operation that drives the axes is a chain of these. -/

namespace Sys2Proof.Machine

/-! ## The chain -/

/-- What driving the axes leaves of the LDU: all but the axes, the claim and the sequence. -/
def Ldu.settings (l : Ldu) : Ldu :=
  { l with
    zoom := Ldu.reset.zoom, focus := Ldu.reset.focus, iris := Ldu.reset.iris, focusBased := false, owner := .order,
    releaseWait := false, shot := .idle, seqTag := 0, ignored := 0 }

/-- Driving the axes: the LDU is set without its settings, a tag ends, or, where `stalls` says so, an axis stalls. -/
inductive DriveMove (stalls : Bool) : State → State → Prop
  | sets (s : State) (l : Ldu) (same : l.settings = s.ldu.settings) : DriveMove stalls s (s.setLdu l)
  | ends (s : State) (c : Completion) : DriveMove stalls s (s.complete ⟨none, c⟩)
  | logs (s : State) (o : Occurrence) (kind : o.kind = .lensStall) (may : stalls = true) :
    DriveMove stalls s (s.occur o)

/-- From `s` the LDU came to `t` by driving its axes. -/
def Drives (stalls : Bool) (s t : State) : Prop := Relation.ReflTransGen (DriveMove stalls) s t

section
variable {b : Bool} {r s t : State}

theorem Drives.refl (s : State) : Drives b s s := Relation.ReflTransGen.refl

theorem Drives.trans (h : Drives b r s) (k : Drives b s t) : Drives b r t := Relation.ReflTransGen.trans h k

theorem Drives.sets (h : Drives b r s) {l : Ldu} (same : l.settings = s.ldu.settings) : Drives b r (s.setLdu l) :=
  Relation.ReflTransGen.tail h (.sets s l same)

theorem Drives.ends (h : Drives b r s) (c : Completion) : Drives b r (s.complete ⟨none, c⟩) :=
  Relation.ReflTransGen.tail h (.ends s c)

theorem Drives.logs (h : Drives true r s) (o : Occurrence) (kind : o.kind = .lensStall) : Drives true r (s.occur o) :=
  Relation.ReflTransGen.tail h (.logs s o kind rfl)

/-- What every such step keeps, the chain keeps. -/
theorem Drives.keeps {α : Type} (f : State → α) (kept : ∀ {s t}, DriveMove b s t → f t = f s) (h : Drives b s t) :
    f t = f s := by
  induction h with
  | refl => rfl
  | tail _ move ih => exact (kept move).trans ih

/-! ## What the chain leaves -/

theorem Drives.settings (h : Drives b s t) : t.ldu.settings = s.ldu.settings :=
  h.keeps (fun s => s.ldu.settings) fun move => by
    cases move with
    | sets _ same => exact same
    | ends => rw [State.complete_ldu]
    | logs => rw [State.occur_ldu]

theorem Drives.ftu (h : Drives b s t) : t.ftu = s.ftu :=
  h.keeps State.ftu fun move => by cases move <;> simp

theorem Drives.slotA (h : Drives b s t) : t.slotA = s.slotA :=
  h.keeps State.slotA fun move => by cases move <;> simp

theorem Drives.slotB (h : Drives b s t) : t.slotB = s.slotB :=
  h.keeps State.slotB fun move => by cases move <;> simp

/-- A completion without hold leaves the Fault Log. -/
theorem State.complete_flt (s : State) (c : Completion) : (s.complete ⟨none, c⟩).flt = s.flt := by
  unfold State.complete
  split
  · rfl
  · unfold State.recordCompletion
    dsimp only
    split
    · exact State.setTag_flt ..
    · rfl

theorem Drives.flt (h : Drives false s t) : t.flt = s.flt :=
  h.keeps State.flt fun move => by
    cases move with
    | sets => rfl
    | ends => exact State.complete_flt ..
    | logs _ _ may => cases may

theorem Drives.stop_calm (h : Drives false s t) : t.stop = s.stop :=
  h.keeps State.stop fun move => by
    cases move with
    | sets => rfl
    | ends => exact State.complete_stop ..
    | logs _ _ may => cases may

end

/-! ## The Fault Log's routes through an occurrence (R204) -/

/-- An entry that is replaced by one with its route leaves every route. -/
theorem Flt.routes_setEntry (f : Flt) (i k : FaultKind) (r : FaultRec) (h : r.route = (f.entry i).route) :
    ((f.setEntry i r).entry k).route = (f.entry k).route := by
  by_cases same : k = i
  · subst same
    exact f.route_setEntry k r h
  · rw [f.entry_setEntry_ne i k r same]

theorem Flt.routes_countAndPlace (f : Flt) (i k : FaultKind) :
    ((f.countAndPlace i).entry k).route = (f.entry k).route := by
  unfold Flt.countAndPlace
  dsimp only
  split <;> exact f.routes_setEntry i k _ rfl

theorem State.routes_complete (s : State) (h : HeldCompletion) (k : FaultKind) :
    ((s.complete h).flt.entry k).route = (s.flt.entry k).route := by
  unfold State.complete
  split
  · rfl
  · cases flying : s.inFlight h.completion.tag with
    | false => rw [State.recordCompletion_discards flying]
    | true =>
      rw [State.recordCompletion_of_inFlight flying]
      dsimp only
      split
      · split
        · exact s.flt.routes_setEntry _ k _ rfl
        · rfl
      · rfl

theorem State.routes_capture (s : State) (stood : Bool) (o : Occurrence) (k : FaultKind) :
    ((s.capture stood o).flt.entry k).route = (s.flt.entry k).route := by
  have filled : ((if stood then s else
      { s with flt := s.flt.setEntry o.kind { s.flt.entry o.kind with capture := s.captureOf o } }).flt.entry
        k).route = (s.flt.entry k).route := by
    split
    · rfl
    · exact s.flt.routes_setEntry o.kind k _ rfl
  unfold State.capture
  dsimp only
  split
  · exact filled
  · exact (State.routes_complete ..).trans filled

/-- The kind of an occurrence is told to the viewfinder, whatever else its first step does (R199, R202). -/
theorem State.told_eq (s : State) (o : Occurrence) (enters : Bool) :
    let s1 : State := { s with flt := s.flt.countAndPlace o.kind }
    (if enters then s1.noticeEntered o.kind else s1).flt = s.flt.countAndPlace o.kind ∧
      (if enters then s1.noticeEntered o.kind else s1).shc = s.shc ∧
      (if enters then s1.noticeEntered o.kind else s1).stop = s.stop ∧
      (if enters then s1.noticeEntered o.kind else s1).ftu = s.ftu := by
  cases enters
  · exact ⟨rfl, rfl, rfl, rfl⟩
  · exact ⟨State.noticeEntered_flt .., State.noticeEntered_shc .., State.noticeEntered_stop ..,
      State.noticeEntered_ftu ..⟩

theorem State.routes_occur (s : State) (o : Occurrence) (k : FaultKind) :
    ((s.occur o).flt.entry k).route = (s.flt.entry k).route := by
  unfold State.occur
  dsimp only
  obtain ⟨flt, -, -, -⟩ := s.told_eq o (s.flt.enters o.kind)
  rw [State.route_flt, State.routes_capture, flt, Flt.routes_countAndPlace]

/-- An occurrence that asks for no safe stop leaves Safe Stop. -/
theorem State.occur_stop {s : State} {o : Occurrence} (asks : asksNoStop s o.kind = true) :
    (s.occur o).stop = s.stop := by
  unfold State.occur
  dsimp only
  obtain ⟨flt, -, stop, -⟩ := s.told_eq o (s.flt.enters o.kind)
  unfold State.route
  rw [State.capture_stop, State.routes_capture, flt, Flt.routes_countAndPlace, stop, if_neg, State.capture_stop, stop]
  rintro ⟨route, -, enable⟩
  simp [asksNoStop, route, enable] at asks

section
variable {b : Bool} {s t : State}

/-- Stalls that ask for no safe stop leave Safe Stop. -/
theorem Drives.stop (h : Drives b s t) (asks : asksNoStop s .lensStall = true) : t.stop = s.stop := by
  have still : t.stop = s.stop ∧ asksNoStop t .lensStall = true := by
    induction h with
    | refl => exact ⟨rfl, asks⟩
    | tail _ move ih =>
      obtain ⟨stop, asks⟩ := ih
      cases move with
      | sets => exact ⟨stop, asks⟩
      | ends c =>
        exact ⟨(State.complete_stop ..).trans stop,
          (asksNoStop_congr (State.complete_flt ..) (State.complete_stop ..) _).trans asks⟩
      | logs o kind =>
        have same := State.occur_stop (kind ▸ asks)
        refine ⟨same.trans stop, ?_⟩
        unfold asksNoStop at asks ⊢
        rw [State.routes_occur, same]
        exact asks
  exact still.1

/-! ## The tags -/

theorem State.tagRec_congr {s t : State} (h : t.shc = s.shc) (n : Nat) : t.tagRec n = s.tagRec n := by
  unfold State.tagRec
  rw [h]

theorem State.inFlight_congr {s t : State} {n : Nat} (h : t.tagRec n = s.tagRec n) : t.inFlight n = s.inFlight n := by
  unfold State.inFlight
  rw [h]

/-- A completion of another tag, or of one that is not IN_FLIGHT, leaves the tag (R20). -/
theorem State.tagRec_complete {s : State} {h : HeldCompletion} {n : Nat} (named : n ≠ 0)
    (spared : n ≠ h.completion.tag ∨ s.inFlight n = false) : (s.complete h).tagRec n = s.tagRec n := by
  unfold State.complete
  split
  · rfl
  · by_cases other : n = h.completion.tag
    · have idle := spared.resolve_left (not_not_intro other)
      rw [State.recordCompletion_discards (other ▸ idle)]
    · exact State.tagRec_recordCompletion_ne named other

/-- A tag that is not IN_FLIGHT stands through an occurrence. -/
theorem State.tagRec_occur {s : State} {n : Nat} (named : n ≠ 0) (idle : s.inFlight n = false) (o : Occurrence) :
    (s.occur o).tagRec n = s.tagRec n := by
  unfold State.occur
  dsimp only
  obtain ⟨-, told, -, -⟩ := s.told_eq o (s.flt.enters o.kind)
  rw [State.tagRec_congr (State.route_shc ..), ← State.tagRec_congr told n]
  rw [← State.inFlight_congr (State.tagRec_congr told n)] at idle
  unfold State.capture
  dsimp only
  split
  · split <;> rfl
  · refine (State.tagRec_complete named (.inr ?_)).trans ?_
    · split <;> exact idle
    · split <;> rfl

/-- A tag that is not IN_FLIGHT stands through the chain. -/
theorem Drives.landed (h : Drives b s t) {n : Nat} (named : n ≠ 0) (idle : s.inFlight n = false) :
    t.tagRec n = s.tagRec n := by
  induction h with
  | refl => rfl
  | tail _ move ih =>
    have idle := (State.inFlight_congr ih).trans idle
    refine Eq.trans ?_ ih
    cases move with
    | sets => rfl
    | ends => exact State.tagRec_complete named (.inr idle)
    | logs o => exact State.tagRec_occur named idle o

/-- With no sheet in dispatch a completion reaches the tag table at once (R17). -/
theorem State.complete_direct {s : State} (direct : s.shc.job = none) (h : HeldCompletion) :
    s.complete h = s.recordCompletion h := by
  unfold State.complete State.openedByJob
  rw [direct]
  rfl

theorem State.job_setTag (s : State) (n : Nat) (r : TagRec) : (s.setTag n r).shc.job = s.shc.job := by
  unfold State.setTag
  split <;> rfl

theorem State.job_recordCompletion (s : State) (h : HeldCompletion) :
    (s.recordCompletion h).shc.job = s.shc.job := by
  cases flying : s.inFlight h.completion.tag with
  | false => rw [State.recordCompletion_discards flying]
  | true =>
    rw [State.recordCompletion_of_inFlight flying]
    exact s.job_setTag ..

/-- With no sheet in dispatch there is none after a completion, nor after an occurrence. -/
theorem State.direct_complete {s : State} (direct : s.shc.job = none) (h : HeldCompletion) :
    (s.complete h).shc.job = none := by
  rw [State.complete_direct direct, State.job_recordCompletion, direct]

theorem State.direct_occur {s : State} (direct : s.shc.job = none) (o : Occurrence) :
    (s.occur o).shc.job = none := by
  unfold State.occur
  dsimp only
  obtain ⟨-, told, -, -⟩ := s.told_eq o (s.flt.enters o.kind)
  have told := (congrArg Shc.job told).trans direct
  rw [State.route_shc]
  unfold State.capture
  dsimp only
  split
  · split <;> exact told
  · refine State.direct_complete ?_ _
    split <;> exact told

theorem Drives.direct (h : Drives b s t) (direct : s.shc.job = none) : t.shc.job = none := by
  induction h with
  | refl => exact direct
  | tail _ move ih =>
    cases move with
    | sets => exact ih
    | ends => exact State.direct_complete ih _
    | logs => exact State.direct_occur ih _

/-- The tag that a completion ends, with no sheet in dispatch. -/
theorem State.tagRec_complete_same {s : State} (direct : s.shc.job = none) {c : Completion}
    (flying : s.inFlight c.tag = true) :
    (s.complete ⟨none, c⟩).tagRec c.tag = s.ended c.tag .done c.outcome c.word1 c.word2 c.word3 := by
  rw [State.complete_direct direct]
  exact State.tagRec_recordCompletion_same (h := ⟨none, c⟩) flying

/-- A tag that a completion has ended is no longer IN_FLIGHT. -/
theorem State.inFlight_of_ended {s t : State} {n : Nat} {o : TagOutcome} {w1 w2 w3 : Word}
    (h : t.tagRec n = s.ended n .done o w1 w2 w3) : t.inFlight n = false := by
  simp [State.inFlight, h, State.ended]

end

end Sys2Proof.Machine
end

