-- ==== Sys2Proof/Proofs/LensDrives.lean ====
section
/-! PROOFS. Each operation on the axes, the claim and the sequence is a chain of the steps of `Drives`. -/

namespace Sys2Proof.Machine

/-! ## What the settings leave out -/

section
variable (l : Ldu)

@[simp] theorem Ldu.settings_setAxis (x : AxisId) (a : Axis) : (l.setAxis x a).settings = l.settings := by
  cases x <;> rfl

@[simp] theorem Ldu.settings_rebase : l.rebase.settings = l.settings := by
  unfold Ldu.rebase
  split <;> rfl

@[simp] theorem Ldu.settings_unbase : l.unbase.settings = l.settings := by
  unfold Ldu.unbase
  split <;> rfl

end

section
variable {b : Bool} {r s : State}

theorem Drives.setAxis (h : Drives b r s) (x : AxisId) (a : Axis) : Drives b r (s.setAxis x a) :=
  h.sets (s.ldu.settings_setAxis x a)

/-! ## Ends and beginnings of moves -/

theorem Drives.endAxisTag (h : Drives b r s) (x : AxisId) (o : TagOutcome) (cause : Nat) :
    Drives b r (s.endAxisTag x o cause) := (h.ends _).setAxis ..

theorem Drives.endMove (h : Drives b r s) (x : AxisId) (o : TagOutcome) (cause : Nat) :
    Drives b r (s.endMove x o cause) := (h.endAxisTag x o cause).setAxis ..

theorem Drives.endSequenceTag (h : Drives b r s) (o : TagOutcome) (cause : Nat) :
    Drives b r (s.endSequenceTag o cause) := (h.ends _).sets rfl

theorem Drives.beginMove (h : Drives b r s) (x : AxisId) (m : Move) (step : Int) (tag : Nat) :
    Drives b r (s.beginMove x m step tag) := h.setAxis ..

theorem Drives.restGlides (h : Drives b r s) : Drives b r s.restGlides := by
  have one {u : State} (h : Drives b r u) (x : AxisId) :
      Drives b r (if (u.ldu.axis x).gliding then u.rest x else u) := by
    split
    · exact h.beginMove ..
    · exact h
  exact (one (one (one h .zoom) .focus) .iris).sets (Ldu.settings_rebase _)

theorem Drives.cancelShot (h : Drives b r s) {finish : State → State} (ends : Drives b r (finish s)) :
    Drives b r (s.cancelShot finish) := by
  unfold State.cancelShot
  split
  · exact h
  · exact h.sets rfl
  · exact (ends.sets (l := { (finish s).ldu with shot := .idle }) rfl).restGlides

/-! ## Glides -/

theorem Drives.joinGlide (h : Drives b r s) (k : Shot) (x : AxisId) : Drives b r (State.joinGlide k s x) := by
  unfold State.joinGlide
  extract_lets s1 s2
  have off : Drives b r s2 := by
    unfold s2
    split
    · exact (h.endAxisTag ..).sets (Ldu.settings_unbase _)
    · exact h.endAxisTag ..
  split
  · exact h
  · exact off.beginMove ..

theorem Drives.foldl {α : Type} {f : State → α → State} (step : ∀ {s} (a : α), Drives b r s → Drives b r (f s a))
    (l : List α) {s : State} (h : Drives b r s) : Drives b r (l.foldl f s) := by
  induction l generalizing s with
  | nil => exact h
  | cons a l ih => exact ih (step a h)

theorem Drives.beginGlide (h : Drives b r s) (n : Nat) : Drives b r (s.beginGlide n) :=
  (Drives.foldl (fun x h => h.joinGlide _ x) [AxisId.zoom, .focus, .iris] h).sets rfl

theorem Drives.trigger (h : Drives b r s) (n tag : Nat) : Drives b r (s.trigger n tag) :=
  ((h.endSequenceTag .preempted 4).sets (by rfl)).beginGlide n

theorem Drives.glideAxis (h : Drives b r s) (k n : Nat) (x : AxisId) : Drives b r (State.glideAxis k n s x) := by
  unfold State.glideAxis
  split
  · dsimp only
    split <;> exact h.setAxis ..
  · exact h

theorem Drives.glideEnded (h : Drives b r s) (n : Nat) : Drives b r (s.glideEnded n) := by
  have based : Drives b r (s.setLdu s.ldu.rebase) := h.sets (Ldu.settings_rebase _)
  unfold State.glideEnded
  dsimp only
  split
  · exact based.sets rfl
  · exact (based.endSequenceTag .complete 1).sets rfl

theorem Drives.glideStep (h : Drives b r s) (shot done total : Nat) : Drives b r (s.glideStep shot done total) := by
  have glided := Drives.foldl (fun x h => h.glideAxis (done + 1) total x) [AxisId.zoom, .focus, .iris] h
  unfold State.glideStep
  extract_lets k s1
  split
  · exact glided.sets rfl
  · exact glided.glideEnded shot

theorem Drives.advanceShot (h : Drives b r s) : Drives b r s.advanceShot := by
  unfold State.advanceShot
  split
  · exact h.glideStep ..
  · split
    · exact h.sets rfl
    · split
      · exact h
      · dsimp only
        split
        · exact (h.beginGlide _).glideStep ..
        · exact h.beginGlide _
  · exact h

theorem Drives.advanceAxis (h : Drives b r s) (x : AxisId) : Drives b r (s.advanceAxis x) := by
  unfold State.advanceAxis
  split
  · exact h
  · split
    · exact h.setAxis ..
    · exact (h.setAxis ..).endMove ..

/-! ## The link, the claim, the manual modes and the stalls -/

theorem Drives.abortAll (h : Drives b r s) (cause : Nat) : Drives b r (s.abortAll cause) := by
  unfold State.abortAll
  extract_lets s1 s2
  have sequence : Drives b r s1 := by
    unfold s1
    split
    · exact h.endSequenceTag ..
    · exact h
  exact Drives.foldl (fun x h => h.endMove x .aborted cause) [AxisId.zoom, .focus, .iris] (sequence.sets rfl)

theorem Drives.gripTakes (h : Drives b r s) : Drives b r s.gripTakes :=
  ((h.endAxisTag ..).cancelShot ((h.endAxisTag ..).endSequenceTag ..)).sets rfl

theorem Drives.applyRocker (h : Drives b r s) : Drives b r s.applyRocker := by
  unfold State.applyRocker
  extract_lets l inside s0 ldu zoom s1
  have judged : Drives b r s0 := by
    unfold s0
    split
    · exact h.sets rfl
    · exact h
  have claimed : Drives b r s1 := by
    unfold s1
    split
    · exact judged.gripTakes
    · exact judged
  split
  · exact judged
  · split
    · exact judged.sets rfl
    · split
      · exact judged
      · exact claimed.beginMove ..

/-- An axis in MANUAL: no move, and its demand at its actual (R58). -/
def Ldu.byHand (l : Ldu) (x : AxisId) : Ldu :=
  Ldu.setAxis { l with focusBased := if x = .focus then false else l.focusBased } x
    { (l.axis x).rested with stallCount := 0, demand := l.actual x * 500 }

@[simp] theorem Ldu.settings_byHand (l : Ldu) (x : AxisId) : (l.byHand x).settings = l.settings :=
  Ldu.settings_setAxis ..

/-- An axis in MANUAL ends its move and follows its actual. -/
theorem State.applyManual_byHand {s : State} {x : AxisId} (manual : s.ldu.manual x = true) (was : Bool) :
    State.applyManual was s x =
      let t := if (s.ldu.axis x).moving then s.endMove x .preempted 6 else s
      t.setLdu (t.ldu.byHand x) := by
  refine (if_pos manual).trans ?_
  cases x <;> rfl

/-- An axis in SERVO stands; the focus that comes back from MANUAL goes on its base (R62). -/
theorem State.applyManual_servo {s : State} {x : AxisId} (servo : s.ldu.manual x = false) (was : Bool) :
    State.applyManual was s x = if was && x == .focus then s.setLdu s.ldu.rebase else s :=
  if_neg (by simp [servo])

theorem Drives.applyManual (h : Drives b r s) (was : Bool) (x : AxisId) :
    Drives b r (State.applyManual was s x) := by
  cases manual : s.ldu.manual x with
  | true =>
    rw [State.applyManual_byHand manual]
    refine Drives.sets ?_ (Ldu.settings_byHand ..)
    split
    · exact h.endMove ..
    · exact h
  | false =>
    rw [State.applyManual_servo manual]
    split
    · exact h.sets (Ldu.settings_rebase _)
    · exact h

/-- An axis that has stalled: no move, its demand at its actual, and the focus off its base (R62, R63). -/
def Ldu.stalledAt (l : Ldu) (x : AxisId) : Ldu :=
  Ldu.setAxis { l with focusBased := if x = .focus then false else l.focusBased } x
    { l.axis x with st := .stalled, demand := l.actual x * 500, vel := 0, move := .none, tag := 0 }

@[simp] theorem Ldu.settings_stalledAt (l : Ldu) (x : AxisId) : (l.stalledAt x).settings = l.settings :=
  Ldu.settings_setAxis ..

/-- The tag that a stall ends: that of the sequence that runs, else that of the axis's move (R63, log 25). -/
def State.stallCompletion (s : State) (x : AxisId) : Option Completion :=
  if s.ldu.shot.running ∧ s.ldu.seqTag ≠ 0 then some (s.sequenceCompletion .stalled 7)
  else if (s.ldu.axis x).tag ≠ 0 then
    some ⟨(s.ldu.axis x).tag, .stalled, wordOf (s.ldu.actual x), wordOf (s.ldu.actual x), 7⟩
  else none

/-- A stall sets its axis, cancels the sequence and is logged (R63, R69). -/
theorem State.stall_eq (s : State) (x : AxisId) :
    s.stall x = ((s.setLdu (s.ldu.stalledAt x)).cancelShot fun t => t.setLdu { t.ldu with seqTag := 0 }).occur
      ⟨.lensStall, x.source, wordOf (s.ldu.axis x).sent, wordOf (s.ldu.actual x), s.stallCompletion x⟩ := by
  cases x <;> rfl

theorem Drives.stall (h : Drives true r s) (x : AxisId) : Drives true r (s.stall x) := by
  have stopped := h.sets (s.ldu.settings_stalledAt x)
  rw [State.stall_eq]
  exact (stopped.cancelShot (stopped.sets (by rfl))).logs _ rfl

theorem Drives.checkStall (h : Drives true r s) (x : AxisId) : Drives true r (s.checkStall x) := by
  unfold State.checkStall
  extract_lets l a n s1
  split
  · exact h.setAxis ..
  · split
    · exact h
    · split
      · exact (h.setAxis ..).stall x
      · exact h.setAxis ..

theorem Drives.pressButton (h : Drives b r s) : Drives b r s.pressButton := by
  unfold State.pressButton
  split
  · exact h.trigger ..
  · exact h.sets rfl
  · exact h

/-- What follows the rocker in a reply (log 23). -/
theorem State.takeReply_drives_rocker (s : State) (v : LensView) (entering : Bool) :
    Drives true (s.setLdu { s.ldu with view := v }).applyRocker (s.takeReply v entering) := by
  unfold State.takeReply
  extract_lets was l s1 s2 s3
  have judged : Drives true s1 s2 := ((Drives.refl s1).applyManual _ .focus).applyManual _ .iris
  have checked : Drives true s1 s3 := ((judged.checkStall .zoom).checkStall .focus).checkStall .iris
  split
  · exact checked.pressButton
  · exact checked

/-- The contents of a reply act once its view stands. -/
theorem State.takeReply_drives (s : State) (v : LensView) (entering : Bool) :
    Drives true (s.setLdu { s.ldu with view := v }) (s.takeReply v entering) :=
  (Drives.refl _).applyRocker.trans (s.takeReply_drives_rocker v entering)

/-! ## Safe stop (R70) -/

theorem Drives.stopAxis (h : Drives b r s) (x : AxisId) : Drives b r (s.stopAxis x) := by
  unfold State.stopAxis
  split
  · exact h
  · exact h
  · exact h
  · exact (h.endAxisTag ..).beginMove ..

theorem Drives.stopLens (h : Drives b r s) : Drives b r s.stopLens := by
  have rested := ((h.stopAxis .zoom).stopAxis .focus).stopAxis .iris
  exact (rested.cancelShot (rested.endSequenceTag ..)).sets rfl

end

end Sys2Proof.Machine
end

