-- ==== Sys2Proof/Proofs/LensAxes.lean ====
section
/-! PROOFS. What each operation of a lens update makes of the axis records, and what it leaves of the claim and of the
sequence. -/

namespace Sys2Proof.Machine

/-! ## The axis records of the LDU -/

section
variable (l : Ldu) (x y : AxisId) (a b : Axis)

@[simp] theorem Ldu.axis_setAxis : (l.setAxis x a).axis x = a := by cases x <;> rfl

variable {x y} in
theorem Ldu.axis_setAxis_ne (other : y ≠ x) : (l.setAxis x a).axis y = l.axis y := by
  revert other
  cases x <;> cases y <;> simp [Ldu.setAxis, Ldu.axis]

@[simp] theorem Ldu.setAxis_setAxis : (l.setAxis x a).setAxis x b = l.setAxis x b := by cases x <;> rfl

/-- All three records replaced. -/
def Ldu.setAxes (f : AxisId → Axis) : Ldu := { l with zoom := f .zoom, focus := f .focus, iris := f .iris }

@[simp] theorem Ldu.axis_setAxes (f : AxisId → Axis) : (l.setAxes f).axis x = f x := by cases x <;> rfl

/-- Who has the zoom, and the sequence with its tag and its count. -/
def Ldu.claim : ClaimOwner × ShotState × Nat × Nat := (l.owner, l.shot, l.seqTag, l.ignored)

@[simp] theorem Ldu.claim_setAxis : (l.setAxis x a).claim = l.claim := by cases x <;> rfl

@[simp] theorem Ldu.manual_setAxis : (l.setAxis x a).manual y = l.manual y := by cases x <;> rfl

@[simp] theorem Ldu.actual_setAxis : (l.setAxis x a).actual y = l.actual y := by cases x <;> rfl

@[simp] theorem Ldu.focusBased_setAxis : (l.setAxis x a).focusBased = l.focusBased := by cases x <;> rfl

end

/-- `m` comes from `l` without a new claim or sequence, a demand sent or a new tag on an axis. -/
structure Ldu.Holds (l m : Ldu) : Prop where
  claim : m.claim = l.claim
  sent : ∀ x, (m.axis x).sent = (l.axis x).sent
  tag : ∀ x, (m.axis x).tag = (l.axis x).tag ∨ (m.axis x).tag = 0

section
variable {l m : Ldu} {x : AxisId} {a : Axis}

theorem Ldu.Holds.refl (l : Ldu) : l.Holds l := ⟨rfl, fun _ => rfl, fun _ => .inl rfl⟩

theorem Ldu.Holds.trans {k : Ldu} (h : k.Holds l) (g : l.Holds m) : k.Holds m :=
  ⟨g.claim.trans h.claim, fun x => (g.sent x).trans (h.sent x),
    fun x => (g.tag x).elim (fun same => (h.tag x).imp same.trans same.trans) .inr⟩

/-- A record is set with the demand sent it had, and its tag or none. -/
theorem Ldu.Holds.setAxis (h : l.Holds m) (sent : a.sent = (m.axis x).sent)
    (tag : a.tag = (m.axis x).tag ∨ a.tag = 0) : l.Holds (m.setAxis x a) := by
  refine h.trans ⟨Ldu.claim_setAxis .., fun y => ?_, fun y => ?_⟩ <;> by_cases same : y = x
  · subst same
    rwa [Ldu.axis_setAxis]
  · exact congrArg Axis.sent (Ldu.axis_setAxis_ne _ _ same)
  · subst same
    rwa [Ldu.axis_setAxis]
  · exact .inl (congrArg Axis.tag (Ldu.axis_setAxis_ne _ _ same))

theorem Ldu.Holds.rebase (h : l.Holds m) : l.Holds m.rebase := by
  unfold Ldu.rebase
  split
  · exact h.trans ⟨rfl, fun x => by cases x <;> rfl, fun x => .inl (by cases x <;> rfl)⟩
  · exact h

/-- No axis carries a tag that none carried. -/
theorem Ldu.Holds.spares (h : l.Holds m) {n : Nat} (named : n ≠ 0) (spared : ∀ x, (l.axis x).tag ≠ n) (x : AxisId) :
    (m.axis x).tag ≠ n := by
  obtain same | none := h.tag x
  · exact same ▸ spared x
  · exact none ▸ named.symm

end

/-! ## Ends of moves -/

section
variable {s : State} {x y : AxisId}

@[simp] theorem State.endAxisTag_ldu (s : State) (x : AxisId) (o : TagOutcome) (cause : Nat) :
    (s.endAxisTag x o cause).ldu = s.ldu.setAxis x { s.ldu.axis x with tag := 0 } := by
  unfold State.endAxisTag State.setAxis
  simp

@[simp] theorem State.endMove_ldu (s : State) (x : AxisId) (o : TagOutcome) (cause : Nat) :
    (s.endMove x o cause).ldu = s.ldu.setAxis x (s.ldu.axis x).rested := by
  unfold State.endMove State.setAxis
  simp [Axis.rested]

@[simp] theorem State.endSequenceTag_ldu (s : State) (o : TagOutcome) (cause : Nat) :
    (s.endSequenceTag o cause).ldu = { s.ldu with seqTag := 0 } := by
  unfold State.endSequenceTag
  simp

/-- A tag that the axis does not carry stands as the axis's tag ends. -/
theorem State.tagRec_endAxisTag {n : Nat} (named : n ≠ 0) (other : (s.ldu.axis x).tag ≠ n) (o : TagOutcome)
    (cause : Nat) : (s.endAxisTag x o cause).tagRec n = s.tagRec n :=
  State.tagRec_complete named (.inl other.symm)

theorem State.tagRec_endMove {n : Nat} (named : n ≠ 0) (other : (s.ldu.axis x).tag ≠ n) (o : TagOutcome)
    (cause : Nat) : (s.endMove x o cause).tagRec n = s.tagRec n := State.tagRec_endAxisTag named other o cause

/-- The axis's tag, in flight with no sheet in dispatch, ends with the words of R54. -/
theorem State.tagRec_endAxisTag_same (direct : s.shc.job = none)
    (flying : s.inFlight (s.ldu.axis x).tag = true) (o : TagOutcome) (cause : Nat) :
    (s.endAxisTag x o cause).tagRec (s.ldu.axis x).tag =
      s.ended (s.ldu.axis x).tag .done o (wordOf (s.ldu.demandPos x)) (wordOf (s.ldu.actual x)) (wordOfNat cause) :=
  State.tagRec_complete_same direct flying

/-! ## The axes advance (R48) -/

/-- What an update makes of an axis record. -/
def Ldu.advanced (l : Ldu) (x : AxisId) : Axis :=
  if (l.axis x).st = .stalled ∨ l.manual x = true then l.axis x
  else if ((l.axis x).update (l.range x)).2.isSome then ((l.axis x).update (l.range x)).1.rested
  else ((l.axis x).update (l.range x)).1

theorem State.advanceAxis_ldu (s : State) (x : AxisId) :
    (s.advanceAxis x).ldu = s.ldu.setAxis x (s.ldu.advanced x) := by
  unfold State.advanceAxis Ldu.advanced
  split
  · exact (s.ldu.setAxis_axis x).symm
  · split
    next updated =>
      rw [updated]
      rfl
    next updated =>
      rw [updated, State.endMove_ldu]
      unfold State.setAxis
      simp

/-- The three axes advance. -/
def State.advanceAxes (s : State) : State := ((s.advanceAxis .zoom).advanceAxis .focus).advanceAxis .iris

theorem State.advanceAxes_ldu (s : State) : s.advanceAxes.ldu = s.ldu.setAxes s.ldu.advanced := by
  unfold State.advanceAxes
  rw [State.advanceAxis_ldu, State.advanceAxis_ldu, State.advanceAxis_ldu]
  rfl

/-- An update moves the demand and the velocity of an axis alone. -/
theorem Axis.update_keeps (a : Axis) (range : Int × Int) :
    (a.update range).1.sent = a.sent ∧ (a.update range).1.tag = a.tag := by
  have rise (c : Axis) : (c.rise range).sent = c.sent ∧ (c.rise range).tag = c.tag := by
    unfold Axis.rise
    dsimp only
    split
    · exact ⟨rfl, rfl⟩
    · split <;> exact ⟨rfl, rfl⟩
  unfold Axis.update
  dsimp only
  repeat' split
  all_goals simp [rise]

theorem Ldu.advanced_keeps (l : Ldu) (x : AxisId) :
    (l.advanced x).sent = (l.axis x).sent ∧ ((l.advanced x).tag = (l.axis x).tag ∨ (l.advanced x).tag = 0) := by
  obtain ⟨sent, tag⟩ := (l.axis x).update_keeps (l.range x)
  unfold Ldu.advanced
  split
  · exact ⟨rfl, .inl rfl⟩
  · split
    · exact ⟨sent, .inr rfl⟩
    · exact ⟨sent, .inl tag⟩

theorem State.advanceAxes_holds (s : State) : s.ldu.Holds s.advanceAxes.ldu := by
  rw [State.advanceAxes_ldu]
  exact ⟨rfl, fun x => by simp [(s.ldu.advanced_keeps x).1], fun x => by simp [(s.ldu.advanced_keeps x).2]⟩

theorem State.advanceAxis_holds (s : State) (x : AxisId) : s.ldu.Holds (s.advanceAxis x).ldu := by
  rw [State.advanceAxis_ldu]
  exact (Ldu.Holds.refl _).setAxis (s.ldu.advanced_keeps x).1 (s.ldu.advanced_keeps x).2

theorem State.tagRec_advanceAxis {n : Nat} (named : n ≠ 0) (spared : ∀ x, (s.ldu.axis x).tag ≠ n) (x : AxisId) :
    (s.advanceAxis x).tagRec n = s.tagRec n := by
  obtain ⟨-, tag⟩ := (s.ldu.axis x).update_keeps (s.ldu.range x)
  unfold State.advanceAxis
  split
  · rfl
  · split
    · rfl
    next a _ updated =>
      have tag : a.tag = (s.ldu.axis x).tag := (congrArg (·.1.tag) updated).symm.trans tag
      refine (State.tagRec_endMove (s := s.setAxis x a) named ?_ ..).trans rfl
      rw [State.setAxis, State.setLdu_ldu, Ldu.axis_setAxis, tag]
      exact spared x

theorem State.tagRec_advanceAxes {n : Nat} (named : n ≠ 0) (spared : ∀ x, (s.ldu.axis x).tag ≠ n) :
    s.advanceAxes.tagRec n = s.tagRec n := by
  have zoom := (s.advanceAxis_holds .zoom).spares named spared
  have focus := ((s.advanceAxis .zoom).advanceAxis_holds .focus).spares named zoom
  exact (State.tagRec_advanceAxis named focus _).trans
    ((State.tagRec_advanceAxis named zoom _).trans (State.tagRec_advanceAxis named spared _))

/-- An axis at rest, or in a glide, does not move of itself. -/
theorem Ldu.advanced_passive {l : Ldu} (h : (l.axis x).move = .none ∨ (l.axis x).gliding = true) :
    l.advanced x = l.axis x := by
  have passive : (l.axis x).update (l.range x) = (l.axis x, none) := by
    unfold Axis.gliding at h
    unfold Axis.update
    cases move : (l.axis x).move <;> simp_all
  unfold Ldu.advanced
  rw [passive]
  exact ite_self _

/-! ## The manual modes (R58) -/

/-- The base takes in the focus alone (R62). -/
theorem Ldu.axis_rebase_ne (l : Ldu) (other : x ≠ .focus) : l.rebase.axis x = l.axis x := by
  unfold Ldu.rebase
  split
  · cases x with
    | zoom => rfl
    | focus => exact absurd rfl other
    | iris => rfl
  · rfl

/-- The focus in a glide stays off the base (R62). -/
theorem Ldu.rebase_gliding {l : Ldu} (gliding : l.focus.gliding = true) : l.rebase = l :=
  if_neg (by simp [gliding])

/-- The base leaves an axis that is not the focus, and the focus in a glide or with tracking off. -/
theorem Ldu.axis_rebase {l : Ldu} (h : x = .focus → (l.axis x).gliding = true ∨ l.tracking = false) :
    l.rebase.axis x = l.axis x := by
  by_cases focus : x = .focus
  · subst focus
    obtain gliding | untracked := h rfl
    · rw [Ldu.rebase_gliding gliding]
    · rw [Ldu.rebase_untracked untracked]
  · exact l.axis_rebase_ne focus

theorem Ldu.byHand_holds (l : Ldu) (x : AxisId) : l.Holds (l.byHand x) := by
  refine Ldu.Holds.setAxis ⟨rfl, fun y => ?_, fun y => .inl ?_⟩ rfl (.inr rfl) <;> cases y <;> rfl

theorem Axis.rested_rested (a : Axis) : a.rested.rested = a.rested := by
  unfold Axis.rested
  split <;> rfl

/-- An axis that the operator sets by hand, from the state before. -/
theorem State.applyManual_ldu_byHand (manual : s.ldu.manual x = true) (was : Bool) :
    (State.applyManual was s x).ldu = s.ldu.byHand x := by
  rw [State.applyManual_byHand manual]
  dsimp only
  split
  · rw [State.setLdu_ldu, State.endMove_ldu]
    unfold Ldu.byHand
    cases x <;> simp [Ldu.setAxis, Ldu.axis, Ldu.actual, Axis.rested_rested]
  · rfl

theorem State.applyManual_holds (s : State) (was : Bool) (x : AxisId) :
    s.ldu.Holds (State.applyManual was s x).ldu := by
  cases manual : s.ldu.manual x with
  | true =>
    rw [State.applyManual_ldu_byHand manual]
    exact s.ldu.byHand_holds x
  | false =>
    rw [State.applyManual_servo manual]
    split
    · exact (Ldu.Holds.refl _).rebase
    · exact .refl _

/-- Another axis stands. -/
theorem State.applyManual_axis_ne (s : State) (was : Bool) (other : y ≠ x) :
    (State.applyManual was s x).ldu.axis y = s.ldu.axis y := by
  cases manual : s.ldu.manual x with
  | true =>
    rw [State.applyManual_ldu_byHand manual]
    refine (Ldu.axis_setAxis_ne _ _ other).trans ?_
    cases y <;> rfl
  | false =>
    rw [State.applyManual_servo manual]
    split
    next back =>
      have focus : x = .focus := by simpa using (Bool.and_eq_true_iff.mp back).2
      exact s.ldu.axis_rebase_ne (focus ▸ other)
    next => rfl

/-- So does the axis itself in SERVO, unless the focus goes on its base. -/
theorem State.applyManual_axis_servo (servo : s.ldu.manual x = false)
    (h : x = .focus → (s.ldu.axis x).gliding = true ∨ s.ldu.tracking = false) (was : Bool) :
    (State.applyManual was s x).ldu.axis x = s.ldu.axis x := by
  rw [State.applyManual_servo servo]
  split
  · exact Ldu.axis_rebase h
  · rfl

theorem State.tagRec_applyManual {n : Nat} (named : n ≠ 0) (other : (s.ldu.axis x).tag ≠ n) (was : Bool) :
    (State.applyManual was s x).tagRec n = s.tagRec n := by
  cases manual : s.ldu.manual x with
  | true =>
    rw [State.applyManual_byHand manual]
    dsimp only
    split
    · exact State.tagRec_endMove named other ..
    · rfl
  | false =>
    rw [State.applyManual_servo manual]
    split <;> rfl

/-! ## The stall checks (R63) -/

/-- An axis after a stall check at which its gap lies within the stall window. -/
def Ldu.checked (l : Ldu) (x : AxisId) : Axis :=
  if (l.axis x).st = .stalled then { l.axis x with demand := l.actual x * 500 }
  else if l.manual x = true then l.axis x else { l.axis x with stallCount := 0 }

theorem State.checkStall_within (near : size ((s.ldu.axis x).sent - s.ldu.actual x) ≤ s.ldu.stallWindow) :
    s.checkStall x = s.setLdu (s.ldu.setAxis x (s.ldu.checked x)) := by
  have count : (if s.ldu.stallWindow < size ((s.ldu.axis x).sent - s.ldu.actual x) then
      (s.ldu.axis x).stallCount + 1 else 0) = 0 := if_neg (not_lt.mpr near)
  unfold State.checkStall Ldu.checked
  dsimp only
  rw [count, if_neg (Nat.not_lt_zero _)]
  split
  · rfl
  · split
    · rw [Ldu.setAxis_axis]
      rfl
    · rfl

/-- The three stall checks. -/
def State.checkStalls (s : State) : State := ((s.checkStall .zoom).checkStall .focus).checkStall .iris

theorem State.checkStalls_within
    (near : ∀ x, size ((s.ldu.axis x).sent - s.ldu.actual x) ≤ s.ldu.stallWindow) :
    s.checkStalls = s.setLdu (s.ldu.setAxes s.ldu.checked) := by
  unfold State.checkStalls
  rw [State.checkStall_within (near .zoom), State.checkStall_within (x := .focus) (by exact near .focus),
    State.checkStall_within (x := .iris) (by exact near .iris)]
  rfl

theorem Ldu.checked_keeps (l : Ldu) (x : AxisId) :
    (l.checked x).sent = (l.axis x).sent ∧ (l.checked x).tag = (l.axis x).tag := by
  unfold Ldu.checked
  split
  · exact ⟨rfl, rfl⟩
  · split <;> exact ⟨rfl, rfl⟩

theorem Ldu.checked_servo {l : Ldu} (notStalled : (l.axis x).st ≠ .stalled) (servo : l.manual x = false) :
    l.checked x = { l.axis x with stallCount := 0 } :=
  (if_neg notStalled).trans (if_neg (by simp [servo]))

end

end Sys2Proof.Machine
end

