-- ==== Sys2Proof/Proofs/LensUpdates.lean ====
section
/-! PROOFS. A lens update in ONLINE with a reply (R41), step by step, and what one comes to whose reply shows nothing
new. -/

namespace Sys2Proof.Machine

section
variable {s : State} {l : Ldu} {x : AxisId}

/-! ## The rocker (R55, R56) -/

theorem rockerRate_ne_zero {n : Int} (outside : 8 < n.natAbs) : rockerRate n ≠ 0 := by
  have size : ((n * 4000).tdiv 127).natAbs = n.natAbs * 4000 / 127 := by
    rw [Int.natAbs_tdiv, Int.natAbs_mul]
    rfl
  refine (if_pos outside).trans_ne (Int.natAbs_ne_zero.mp ?_)
  rw [size]
  omega

/-- The release wait ends with the rocker in the deadband (R55). -/
def State.releaseSeen (s : State) : State :=
  if 8 < s.ldu.view.rocker.natAbs then s else s.setLdu { s.ldu with releaseWait := false }

theorem State.applyRocker_eq (s : State) :
    s.applyRocker =
      if s.ldu.lockout || s.releaseSeen.ldu.releaseWait || s.ldu.zoom.st == .stalled then s.releaseSeen
      else if s.ldu.gripping then
        s.releaseSeen.setLdu { s.releaseSeen.ldu with
          zoom := { s.releaseSeen.ldu.zoom with move := .grip (rockerRate s.ldu.view.rocker) } }
      else if 8 < s.ldu.view.rocker.natAbs then
        let t := if s.ldu.owner = .order then s.gripTakes else s
        t.beginMove .zoom (.grip (rockerRate s.ldu.view.rocker)) t.moveStep 0
      else s.releaseSeen := by
  unfold State.applyRocker State.releaseSeen
  by_cases outside : 8 < s.ldu.view.rocker.natAbs <;> simp [outside]

/-- With the rocker in the deadband the zoom keeps its record, but for the target of a grip move. -/
theorem State.applyRocker_inside (inside : s.ldu.view.rocker.natAbs ≤ 8) :
    ∃ m, s.applyRocker = s.setLdu { s.ldu with releaseWait := false, zoom := { s.ldu.zoom with move := m } } ∧
      (s.ldu.gripping = false → m = s.ldu.zoom.move) := by
  have seen : s.releaseSeen = s.setLdu { s.ldu with releaseWait := false } := if_neg (by omega)
  rw [State.applyRocker_eq, seen]
  split
  · exact ⟨_, rfl, fun _ => rfl⟩
  · split
    next gripping => exact ⟨_, rfl, fun none => absurd gripping (by simp [none])⟩
    next => exact ⟨_, if_neg (by omega), fun _ => rfl⟩

/-- A grip move follows the rocker (R56). -/
theorem State.applyRocker_follows (free : s.ldu.lockout = false) (notStalled : s.ldu.zoom.st ≠ .stalled)
    (gripping : s.ldu.gripping = true) (released : s.ldu.releaseWait = false ∨ s.ldu.view.rocker.natAbs ≤ 8) :
    s.applyRocker = s.setLdu { s.ldu with
      releaseWait := false, zoom := { s.ldu.zoom with move := .grip (rockerRate s.ldu.view.rocker) } } := by
  have seen : s.releaseSeen = s.setLdu { s.ldu with releaseWait := false } := by
    unfold State.releaseSeen
    split
    next outside =>
      have waits : s.ldu.releaseWait = false := released.resolve_right (by omega)
      rw [← waits]
      rfl
    next => rfl
  rw [State.applyRocker_eq, seen]
  exact (if_neg (by simp [free, notStalled])).trans (if_pos gripping)

/-- The rocker takes the zoom, or goes on with it, in a new grip move (R56). -/
theorem State.applyRocker_takes (free : s.ldu.lockout = false) (waits : s.ldu.releaseWait = false)
    (notStalled : s.ldu.zoom.st ≠ .stalled) (other : s.ldu.gripping = false)
    (outside : 8 < s.ldu.view.rocker.natAbs) :
    s.applyRocker =
      let t := if s.ldu.owner = .order then s.gripTakes else s
      t.beginMove .zoom (.grip (rockerRate s.ldu.view.rocker)) t.moveStep 0 := by
  have seen : s.releaseSeen = s := if_pos outside
  rw [State.applyRocker_eq, seen]
  exact (if_neg (by simp [free, waits, notStalled])).trans ((if_neg (by simp [other])).trans (if_pos outside))

/-! ## The steps of an update -/

/-- The modes that the reply shows act on the axes that have one (R58). -/
def State.applyModes (s : State) (was : LensView) : State :=
  State.applyManual was.irisManual (State.applyManual was.focusManual s .focus) .iris

/-- The reply's view, before its contents act. -/
def State.seeing (s : State) (v : LensView) : State := s.setLdu { s.ldu with view := v }

theorem State.takeReply_eq (s : State) (v : LensView) (entering : Bool) :
    s.takeReply v entering =
      let t := ((s.seeing v).applyRocker.applyModes s.ldu.view).checkStalls
      if v.button && !s.ldu.view.button && !entering then t.pressButton else t := rfl

/-- The end of an update: the surge flag, and the demand message (R41, R71). -/
def State.endUpdate (s : State) : State :=
  (s.setLdu { s.ldu with surge := decide (1500 < s.ldu.zoom.vel.natAbs) }).sendDemand

theorem State.axis_endUpdate (s : State) (x : AxisId) :
    s.endUpdate.ldu.axis x = { s.ldu.axis x with sent := s.ldu.demandPos x } := by cases x <;> rfl

/-- A reply received in ONLINE, with attach set (R41, R43). -/
theorem State.lensUpdate_online {r : LensReply} (online : s.ldu.link = .online) (reply : s.ldu.reply = some r)
    (attached : r.attached = true) :
    s.lensUpdate = ((s.setLdu { s.ldu with missing := 0 }).takeReply (viewOf r) false).advanceAxes.advanceShot.endUpdate := by
  have judged : s.judgeLink (some r) = s.setLdu { s.ldu with missing := 0 } := by
    unfold State.judgeLink
    rw [online]
    exact if_pos attached
  simp only [State.lensUpdate, reply, judged, State.setLdu_ldu, online]
  rfl

/-- A lens update that leaves the slots and asks for no safe stop ends its step. -/
theorem exec_lensUpdate {e : Env} {due : Nat} {t : State} (runs : s.ldu.timer = some due)
    (quiet : s.stop.requests = []) (updated : ((s.arrive e).expireAt due).lensUpdate = t) (stop : t.stop = s.stop)
    (a : t.slotA = s.slotA) (b : t.slotB = s.slotB) : exec (.lensUpdate e) s = .next t := by
  have run : exec (.lensUpdate e) s =
      .next (((s.arrive e).expireAt due).lensUpdate.serve.judgeSlots (s.arrive e)) := by
    show execLensUpdate e s = _
    unfold execLensUpdate
    dsimp only
    rw [State.arrive_ldu, runs]
  rw [run, updated, State.serve_none, State.judgeSlots_of_slots]
  · simp [a]
  · simp [b]
  · simpa [stop] using quiet

end

end Sys2Proof.Machine
end

