-- ==== Sys2Proof/Proofs/ShotOrders.lean ====
section
/-! PROOFS. SHOT_STORE, SHOT_MODE and SHOT_TRIGGER, and the glide that a trigger begins (R65, R66). -/

namespace Sys2Proof.Machine

section
variable {s : State} {l : Ldu}

/-! ## SHOT_STORE and SHOT_MODE (R65) -/

/-- A parameter of SHOT_STORE that every source uses was clamped. -/
theorem shotStore_clamped {n : Byte} {travel : Half} :
    (min n.toNat 3 != n.toNat || clampNat 1 600 travel.toNat != travel.toNat) = true ↔
      ¬ (n.toNat ≤ 3 ∧ 1 ≤ travel.toNat ∧ travel.toNat ≤ 600) := by
  simp only [Bool.or_eq_true, bne_iff_ne, ne_eq, clampNat_eq_self_iff (show 1 ≤ 600 by decide)]
  omega

/-- A parameter of an explicit SHOT_STORE was clamped. -/
theorem explicitShot_clamped {n : Byte} {z f i travel dwell : Half} :
    (min n.toNat 3 != n.toNat || clampNat 1 600 travel.toNat != travel.toNat ||
        (explicitShot z f i travel dwell).zoom != u16 z || (explicitShot z f i travel dwell).focus != u16 f ||
        (explicitShot z f i travel dwell).iris != u16 i) = true ↔
      ¬ ((n.toNat ≤ 3 ∧ 1 ≤ travel.toNat ∧ travel.toNat ≤ 600) ∧ z.toNat ≤ 4095 ∧ f.toNat ≤ 4095 ∧
        i.toNat ≤ 1023) := by
  rw [Bool.or_eq_true, Bool.or_eq_true, Bool.or_eq_true, shotStore_clamped]
  simp only [bne_iff_ne, ne_eq, explicitShot, clampInt_eq_self_iff (show (0 : Int) ≤ 4095 by decide),
    clampInt_eq_self_iff (show (0 : Int) ≤ 1023 by decide), u16]
  omega

theorem shotModeOf_beyond {code : Byte} (h : 1 < code.toNat) : shotModeOf code = none :=
  (if_neg (by omega)).trans (if_neg (by omega))

theorem earlyPolicyOf_beyond {code : Byte} (h : 1 < code.toNat) : earlyPolicyOf code = none :=
  (if_neg (by omega)).trans (if_neg (by omega))

/-- A code below 2 is 0 or 1. -/
theorem byte_zero_or_one {code : Byte} (h : code.toNat ≤ 1) : code = 0 ∨ code = 1 := by
  obtain zero | one : code.toNat = 0 ∨ code.toNat = 1 := by omega
  · exact .inl (BitVec.eq_of_toNat_eq zero)
  · exact .inr (BitVec.eq_of_toNat_eq one)

theorem shotModeOf_known {code : Byte} (h : code.toNat ≤ 1) :
    shotModeOf code = some (if code = 0 then .chain else .step) := by
  obtain rfl | rfl := byte_zero_or_one h <;> rfl

theorem earlyPolicyOf_known {code : Byte} (h : code.toNat ≤ 1) :
    earlyPolicyOf code = some (if code = 0 then .ignore else .restart) := by
  obtain rfl | rfl := byte_zero_or_one h <;> rfl

theorem decideShotMode_unknown {mode count policy : Byte} (h : 1 < mode.toNat ∨ 1 < policy.toNat) :
    decideShotMode mode count policy s = .refuse .refusedParam := by
  unfold decideShotMode
  obtain beyond | beyond := h
  · rw [shotModeOf_beyond beyond]
  · rw [earlyPolicyOf_beyond beyond]
    split
    next known => cases known
    next => rfl

theorem decideShotMode_known {mode count policy : Byte} (m : mode.toNat ≤ 1) (p : policy.toNat ≤ 1) :
    decideShotMode mode count policy s =
      if s.ldu.shot.running = true then .refuse .refusedState
      else .carry (clampNat 1 4 count.toNat != count.toNat) fun s => s.setLdu { s.ldu with
        shotMode := if mode = 0 then .chain else .step
        shotCount := clampNat 1 4 count.toNat
        shotPolicy := if policy = 0 then .ignore else .restart
        shot := s.ldu.shot.afterMode } := by
  unfold decideShotMode
  rw [shotModeOf_known m, earlyPolicyOf_known p]

/-- With no sequence running, SHOT_MODE leaves none. -/
theorem ShotState.afterMode_idle {st : ShotState} (rests : st.running = false) : st.afterMode = .idle := by
  cases st with
  | idle => rfl
  | holding => rfl
  | gliding => cases rests
  | dwelling => cases rests

/-! ## The decision on a trigger (R65) -/

theorem Ldu.decideTrigger_noShot (none : l.triggerTarget = none) : l.decideTrigger = .noShot := by
  unfold Ldu.decideTrigger
  rw [none]

theorem Ldu.decideTrigger_some {n : Nat} (target : l.triggerTarget = some n) :
    l.decideTrigger = if l.gripRefuses then .grip
      else if l.shotMode = .chain ∧ l.shotPolicy = .ignore ∧ l.shot.running = true then .early else .go n := by
  unfold Ldu.decideTrigger
  rw [target]

/-- While the grip may claim the zoom, no trigger is taken (R57). -/
theorem Ldu.decideTrigger_claimed (claims : l.gripRefuses = true) :
    l.decideTrigger = .noShot ∨ l.decideTrigger = .grip := by
  cases target : l.triggerTarget with
  | none => exact .inl (Ldu.decideTrigger_noShot target)
  | some n => exact .inr ((Ldu.decideTrigger_some target).trans (if_pos claims))

/-- What SHOT_TRIGGER with a tag does with the answer to it. -/
def TriggerAnswer.decision (tag : Byte) : TriggerAnswer → Decision
  | .noShot => .refuse .refusedState
  | .grip => .refuse .refusedGrip
  | .early => .answer .refusedState State.ignoreTrigger
  | .go n => .carry false fun s => s.trigger n tag.toNat

theorem decideShotTrigger_online {a : TriggerAnswer} (online : s.ldu.link = .online) (answer : s.ldu.decideTrigger = a)
    (tag : Byte) : decideShotTrigger tag s = a.decision tag := by
  subst answer
  refine (State.whenOnline_online online _).trans ?_
  cases s.ldu.decideTrigger <;> rfl

theorem exec_shotTrigger (e : Env) (s : State) (tag : Byte) :
    exec (.shotTrigger e tag) s =
      .next ((s.arrive e).takeOrder .optional 0x2D tag [] (decideShotTrigger tag)) := rfl

/-! ## The glide begins (R66) -/

/-- An axis as the glide to a shot begins. -/
def Ldu.joined (l : Ldu) (h : Shot) (x : AxisId) : Axis :=
  if (l.axis x).st = .stalled ∨ l.manual x = true then l.axis x
  else { l.axis x with st := .moving, move := .glide (l.axis x).demand (h.position x * 500), tag := 0 }

theorem Ldu.joined_free {h : Shot} {x : AxisId} (notStalled : (l.axis x).st ≠ .stalled) (servo : l.manual x = false) :
    l.joined h x =
      { l.axis x with st := .moving, move := .glide (l.axis x).demand (h.position x * 500), tag := 0 } :=
  if_neg (by simp [notStalled, servo])

@[simp] theorem Ldu.unbase_setAxis_off (off : l.focusBased = false) (x : AxisId) (a : Axis) :
    (l.setAxis x a).unbase = l.setAxis x a := Ldu.unbase_off ((Ldu.focusBased_setAxis ..).trans off)

/-- With the focus off its base, an axis joins from the demand it has. -/
theorem State.joinGlide_off (off : s.ldu.focusBased = false) (h : Shot) (x : AxisId) :
    State.joinGlide h s x =
      let t := if (s.ldu.axis x).st = .stalled ∨ s.ldu.manual x = true then s else s.endAxisTag x .preempted 4
      t.setLdu (s.ldu.setAxis x (s.ldu.joined h x)) := by
  unfold State.joinGlide Ldu.joined
  dsimp only
  split
  · rw [Ldu.setAxis_axis]
    rfl
  · rw [State.endAxisTag_ldu, Ldu.unbase_setAxis_off off]
    split <;> simp [State.beginMove, State.setAxis, State.setLdu]

theorem State.joinGlide_ldu (off : s.ldu.focusBased = false) (h : Shot) (x : AxisId) :
    (State.joinGlide h s x).ldu = s.ldu.setAxis x (s.ldu.joined h x) := by
  rw [State.joinGlide_off off]
  rfl

/-- An axis without a tag joins with nothing to end. -/
theorem State.joinGlide_untagged (off : s.ldu.focusBased = false) {x : AxisId} (untagged : (s.ldu.axis x).tag = 0)
    (h : Shot) : State.joinGlide h s x = s.setLdu (s.ldu.setAxis x (s.ldu.joined h x)) := by
  rw [State.joinGlide_off off, State.endAxisTag_untagged untagged, ite_self]

/-- The LDU as the glide to shot `n` begins at frame rate `rate`. -/
def Ldu.glideBegun (l : Ldu) (rate : Rate) (n : Nat) : Ldu :=
  { l.setAxes (l.joined (l.shotRec n)) with
    shot := .gliding n 0 (max 1 (rate.updates (l.shotRec n).travel)) }

theorem Ldu.axis_glideBegun (l : Ldu) (rate : Rate) (n : Nat) (x : AxisId) :
    (l.glideBegun rate n).axis x = l.joined (l.shotRec n) x := by cases x <;> rfl

theorem State.beginGlide_ldu (off : s.ldu.focusBased = false) (n : Nat) :
    (s.beginGlide n).ldu = s.ldu.glideBegun s.ftu.format.rate n := by
  let h := s.ldu.shotRec n
  have zoom := State.joinGlide_ldu off h .zoom
  have focus := State.joinGlide_ldu (s := State.joinGlide h s .zoom) (zoom ▸ off) h .focus
  have iris := State.joinGlide_ldu (s := State.joinGlide h (State.joinGlide h s .zoom) .focus)
    (by rw [focus, zoom]; exact off) h .iris
  rw [focus, zoom] at iris
  exact congrArg (fun l : Ldu =>
    { l with shot := .gliding n 0 (max 1 (s.ftu.format.rate.updates h.travel)) }) iris

/-- With no tag on an axis the glide begins on the LDU alone. -/
theorem State.beginGlide_untagged (off : s.ldu.focusBased = false) (untagged : ∀ x, (s.ldu.axis x).tag = 0)
    (n : Nat) : s.beginGlide n = s.setLdu (s.ldu.glideBegun s.ftu.format.rate n) := by
  let h := s.ldu.shotRec n
  have joined : [AxisId.zoom, .focus, .iris].foldl (State.joinGlide h) s = s.setLdu (s.ldu.setAxes (s.ldu.joined h)) := by
    rw [List.foldl, State.joinGlide_untagged off (untagged .zoom), List.foldl,
      State.joinGlide_untagged (by exact off) (by exact untagged .focus), List.foldl,
      State.joinGlide_untagged (by exact off) (by exact untagged .iris)]
    rfl
  exact congrArg (fun t : State => t.setLdu { t.ldu with
    shot := .gliding n 0 (max 1 (s.ftu.format.rate.updates h.travel)) }) joined

theorem State.endSequenceTag_untagged (untagged : s.ldu.seqTag = 0) (o : TagOutcome) (cause : Nat) :
    s.endSequenceTag o cause = s := by
  unfold State.endSequenceTag
  dsimp only
  rw [State.complete_untagged s untagged, ← untagged]
  rfl

/-- A trigger with no tag to replace and none on an axis sets the LDU alone. -/
theorem State.trigger_untagged (untagged : s.ldu.seqTag = 0) (axes : ∀ x, (s.ldu.axis x).tag = 0)
    (off : s.ldu.focusBased = false) (n tag : Nat) :
    s.trigger n tag =
      s.setLdu (Ldu.glideBegun { s.ldu with owner := .order, seqTag := tag } s.ftu.format.rate n) := by
  unfold State.trigger
  dsimp only
  rw [State.endSequenceTag_untagged untagged]
  exact State.beginGlide_untagged (s := s.setLdu { s.ldu with owner := .order, seqTag := tag }) off axes n

/-- SHOT_TRIGGER accepted, with no tag to replace and none on an axis. -/
theorem exec_shotTrigger_go {e : Env} {tag : Byte} {n : Nat} (due : dispatches s .optional 0x2D tag [] = true)
    (online : s.ldu.link = .online) (go : s.ldu.decideTrigger = .go n) (untagged : s.ldu.seqTag = 0)
    (axes : ∀ x, (s.ldu.axis x).tag = 0) (off : s.ldu.focusBased = false) :
    exec (.shotTrigger e tag) s = .next (State.finishEntry { (s.arrive e).acceptTag 0x2D tag with
      ldu := Ldu.glideBegun { s.ldu with owner := .order, seqTag := tag.toNat } s.ftu.format.rate n }
      (if tag = 0 then .done else .accepted)) := by
  refine exec_orderSetsLdu (exec_shotTrigger e s tag) due
    (decideShotTrigger_online (s := s.arrive e) online go tag) ?_
  rw [State.trigger_untagged] <;> simp [untagged, axes, off]

end

end Sys2Proof.Machine
end

