-- ==== Sys2Proof/Proofs/CalmReplies.lean ====
section
/-! PROOFS. What an update comes to whose reply shows nothing new: the rocker in the deadband, no button press, and every
axis within the stall window (R54 to R63). -/

namespace Sys2Proof.Machine

/-- An axis that the update of a calm reply leaves to its glide or at rest. -/
structure Ldu.Undisturbed (l : Ldu) (x : AxisId) : Prop where
  notStalled : (l.axis x).st ≠ .stalled
  servo : l.manual x = false
  passive : (l.axis x).move = .none ∨ (l.axis x).gliding = true
  unbased : x = .focus → (l.axis x).gliding = true ∨ l.tracking = false

/-- An axis record without its stall count. -/
def Axis.uncounted (a : Axis) : Axis := { a with stallCount := 0 }

/-- From `s` to `t` nothing stalls, the sequence and the claim stand, and an undisturbed axis stands but for its stall
count. -/
structure Calms (s t : State) : Prop where
  drives : Drives false s t
  holds : s.ldu.Holds t.ldu
  spares : ∀ n, n ≠ 0 → (∀ x, (s.ldu.axis x).tag ≠ n) → t.tagRec n = s.tagRec n
  axis : ∀ x, s.ldu.Undisturbed x → (t.ldu.axis x).uncounted = (s.ldu.axis x).uncounted
  unbased : s.ldu.tracking = false → s.ldu.focusBased = false → t.ldu.focusBased = false

/-! ## The settings that a calm chain leaves -/

section
variable {l m : Ldu} (same : m.settings = l.settings)
include same

theorem Ldu.view_of_settings : m.view = l.view := (congrArg (fun l : Ldu => l.view) same :)
theorem Ldu.tracking_of_settings : m.tracking = l.tracking := (congrArg (fun l : Ldu => l.tracking) same :)
theorem Ldu.stallWindow_of_settings : m.stallWindow = l.stallWindow := (congrArg (fun l : Ldu => l.stallWindow) same :)
theorem Ldu.manual_of_settings (x : AxisId) : m.manual x = l.manual x := (congrArg (fun l : Ldu => l.manual x) same :)
theorem Ldu.actual_of_settings (x : AxisId) : m.actual x = l.actual x := (congrArg (fun l : Ldu => l.actual x) same :)
theorem Ldu.shotRec_of_settings (n : Nat) : m.shotRec n = l.shotRec n := (congrArg (fun l : Ldu => l.shotRec n) same :)
theorem Ldu.shotMode_of_settings : m.shotMode = l.shotMode := (congrArg (fun l : Ldu => l.shotMode) same :)
theorem Ldu.nextValid_of_settings (n : Nat) : m.nextValid n = l.nextValid n :=
  (congrArg (fun l : Ldu => l.nextValid n) same :)

end

section
variable {s t u : State} {x : AxisId}

theorem Axis.gliding_of_uncounted {a b : Axis} (same : a.uncounted = b.uncounted) : a.gliding = b.gliding :=
  (congrArg Axis.gliding same :)

theorem Calms.undisturbed (h : Calms s t) (u : s.ldu.Undisturbed x) : t.ldu.Undisturbed x := by
  have same := h.axis x u
  have gliding : (t.ldu.axis x).gliding = (s.ldu.axis x).gliding := Axis.gliding_of_uncounted same
  refine ⟨?_, ?_, ?_, fun focus => ?_⟩
  · exact (congrArg Axis.st same :).trans_ne u.notStalled
  · exact (Ldu.manual_of_settings h.drives.settings x).trans u.servo
  · exact u.passive.imp (congrArg Axis.move same :).trans gliding.trans
  · exact (u.unbased focus).imp gliding.trans (Ldu.tracking_of_settings h.drives.settings).trans

theorem Calms.refl (s : State) : Calms s s := ⟨.refl s, .refl _, fun _ _ _ => rfl, fun _ _ => rfl, fun _ off => off⟩

theorem Calms.trans (h : Calms s t) (k : Calms t u) : Calms s u where
  drives := h.drives.trans k.drives
  holds := h.holds.trans k.holds
  spares n named spared := (k.spares n named (h.holds.spares named spared)).trans (h.spares n named spared)
  axis x free := (k.axis x (h.undisturbed free)).trans (h.axis x free)
  unbased untracked off :=
    k.unbased ((Ldu.tracking_of_settings h.drives.settings).trans untracked) (h.unbased untracked off)

/-- A step that sets the LDU alone. -/
theorem Calms.setLdu {l : Ldu} (settings : l.settings = s.ldu.settings) (holds : s.ldu.Holds l)
    (axis : ∀ x, s.ldu.Undisturbed x → (l.axis x).uncounted = (s.ldu.axis x).uncounted)
    (unbased : s.ldu.tracking = false → s.ldu.focusBased = false → l.focusBased = false) :
    Calms s (s.setLdu l) :=
  ⟨(Drives.refl s).sets settings, holds, fun _ _ _ => rfl, axis, unbased⟩

/-! ## The steps of the update -/

/-- An undisturbed zoom has no grip move. -/
theorem Ldu.Undisturbed.notGripping {l : Ldu} (h : l.Undisturbed .zoom) : l.gripping = false := by
  obtain none | glides := h.passive
  · unfold Ldu.gripping
    rw [show l.zoom.move = .none from none]
  · unfold Ldu.gripping
    cases move : l.zoom.move with
    | grip => simp [Axis.gliding, Ldu.axis, move] at glides
    | _ => rfl

theorem State.applyRocker_calms (inside : s.ldu.view.rocker.natAbs ≤ 8) : Calms s s.applyRocker := by
  obtain ⟨m, applied, kept⟩ := State.applyRocker_inside inside
  rw [applied]
  refine Calms.setLdu rfl ⟨rfl, ?_, ?_⟩ ?_ fun _ off => off
  · intro x
    cases x <;> rfl
  · intro x
    cases x <;> exact .inl rfl
  · intro x free
    cases x with
    | zoom => rw [kept free.notGripping]; rfl
    | focus => rfl
    | iris => rfl

theorem State.applyManual_calms (s : State) (was : Bool) (x : AxisId) : Calms s (State.applyManual was s x) where
  drives := (Drives.refl s).applyManual was x
  holds := s.applyManual_holds was x
  spares n named spared := State.tagRec_applyManual named (spared x) was
  axis y free := by
    by_cases same : y = x
    · subst same
      rw [State.applyManual_axis_servo free.servo free.unbased]
    · rw [State.applyManual_axis_ne s was same]
  unbased untracked off := by
    cases manual : s.ldu.manual x with
    | true =>
      rw [State.applyManual_ldu_byHand manual, Ldu.byHand, Ldu.focusBased_setAxis, off]
      exact ite_self _
    | false =>
      rw [State.applyManual_servo manual, Ldu.rebase_untracked untracked]
      split <;> exact off

theorem State.checkStalls_calms
    (near : ∀ x, size ((s.ldu.axis x).sent - s.ldu.actual x) ≤ s.ldu.stallWindow) : Calms s s.checkStalls := by
  rw [State.checkStalls_within near]
  refine Calms.setLdu rfl ⟨rfl, fun x => ?_, fun x => .inl ?_⟩ (fun x free => ?_) fun _ off => off
  · rw [Ldu.axis_setAxes, (s.ldu.checked_keeps x).1]
  · rw [Ldu.axis_setAxes, (s.ldu.checked_keeps x).2]
  · rw [Ldu.axis_setAxes, Ldu.checked_servo free.notStalled free.servo]
    rfl

theorem State.advanceAxes_calms (s : State) : Calms s s.advanceAxes where
  drives := (((Drives.refl s).advanceAxis .zoom).advanceAxis .focus).advanceAxis .iris
  holds := s.advanceAxes_holds
  spares _ named spared := State.tagRec_advanceAxes named spared
  axis x free := by rw [State.advanceAxes_ldu, Ldu.axis_setAxes, Ldu.advanced_passive free.passive]
  unbased _ off := by rw [State.advanceAxes_ldu]; exact off

/-- The reply that `s` sees comes to one calm chain. -/
theorem State.calmReply_calms (inside : s.ldu.view.rocker.natAbs ≤ 8)
    (near : ∀ x, size ((s.ldu.axis x).sent - s.ldu.actual x) ≤ s.ldu.stallWindow) (was : LensView) :
    Calms s (s.applyRocker.applyModes was).checkStalls.advanceAxes := by
  have modes : Calms s (s.applyRocker.applyModes was) :=
    ((State.applyRocker_calms inside).trans (State.applyManual_calms _ _ .focus)).trans
      (State.applyManual_calms _ _ .iris)
  have near (x : AxisId) : size (((s.applyRocker.applyModes was).ldu.axis x).sent -
      (s.applyRocker.applyModes was).ldu.actual x) ≤ (s.applyRocker.applyModes was).ldu.stallWindow := by
    rw [modes.holds.sent x, Ldu.actual_of_settings modes.drives.settings x,
      Ldu.stallWindow_of_settings modes.drives.settings]
    exact near x
  exact (modes.trans (State.checkStalls_calms near)).trans (State.advanceAxes_calms _)

/-- The LDU with the view of a reply received in ONLINE. -/
def Ldu.shown (l : Ldu) (r : LensReply) : Ldu := { l with missing := 0, view := viewOf r }

/-- The update of a calm reply: a calm chain from the view of the reply, the sequence, and the demand message. -/
theorem State.lensUpdate_calm {r : LensReply} (online : s.ldu.link = .online) (reply : s.ldu.reply = some r)
    (attached : r.attached = true) (inside : r.rocker.toInt.natAbs ≤ 8) (released : r.button = false)
    (near : ∀ x, size ((s.ldu.axis x).sent - (s.ldu.shown r).actual x) ≤ s.ldu.stallWindow) :
    ∃ t, Calms (s.setLdu (s.ldu.shown r)) t ∧ s.lensUpdate = t.advanceShot.endUpdate := by
  refine ⟨_, State.calmReply_calms (s := s.setLdu (s.ldu.shown r)) ?_ near s.ldu.view, ?_⟩
  · show (max (-127) r.rocker.toInt).natAbs ≤ 8
    omega
  · rw [State.lensUpdate_online online reply attached, State.takeReply_eq]
    dsimp only
    rw [if_neg (by simp [viewOf, released])]
    rfl

/-- So the update ends its step, with no stall logged. -/
theorem exec_lensUpdate_calm {e : Env} {due : Nat} {r : LensReply} (runs : s.ldu.timer = some due)
    (online : s.ldu.link = .online) (reply : s.ldu.reply = some r) (attached : r.attached = true)
    (inside : r.rocker.toInt.natAbs ≤ 8) (released : r.button = false) (quiet : s.stop.requests = [])
    (near : ∀ x, size ((s.ldu.axis x).sent - (s.ldu.shown r).actual x) ≤ s.ldu.stallWindow) :
    ∃ t, Calms (((s.arrive e).expireAt due).setLdu (s.ldu.shown r)) t ∧
      exec (.lensUpdate e) s = .next t.advanceShot.endUpdate ∧ t.advanceShot.endUpdate.flt = s.flt := by
  obtain ⟨t, calms, updated⟩ :=
    State.lensUpdate_calm (s := (s.arrive e).expireAt due) online reply attached inside released near
  have drives := calms.drives.advanceShot
  exact ⟨t, calms, exec_lensUpdate runs quiet updated drives.stop_calm drives.slotA drives.slotB, drives.flt⟩

end

end Sys2Proof.Machine
end

