-- ==== Sys2Proof/Proofs/ShotGlides.lean ====
section
/-! PROOFS. The sequence by one update (R66 to R68), and O34. -/

namespace Sys2Proof.Machine

/-! ## An update of a glide (R66) -/

/-- An axis at update `k` of `n` of a glide. -/
def Axis.glided (k n : Nat) (a : Axis) : Axis :=
  match a.move with
  | .glide start target =>
    if k < n then
      { a with demand := start + (target - start) * k / n, vel := start + (target - start) * k / n - a.demand }
    else { a.rested with demand := target }
  | _ => a

section
variable {s t : State} {l : Ldu} {a : Axis} {x : AxisId} {k n total : Nat} {start target : Int}

theorem Axis.glided_shares (glides : a.move = .glide start target) (before : k < n) :
    a.glided k n = { a with
      demand := start + (target - start) * k / n, vel := start + (target - start) * k / n - a.demand } := by
  unfold Axis.glided
  rw [glides]
  exact if_pos before

theorem Axis.glided_arrives (glides : a.move = .glide start target) (last : n ≤ k) :
    a.glided k n = { a.rested with demand := target } := by
  unfold Axis.glided
  rw [glides]
  exact if_neg (Nat.not_lt.mpr last)

/-- An axis that has no part in the glide stands. -/
theorem Axis.glided_other (other : ∀ start target, a.move ≠ .glide start target) : a.glided k n = a := by
  unfold Axis.glided
  split
  next glides => exact absurd glides (other _ _)
  next => rfl

theorem State.glideAxis_eq (k n : Nat) (s : State) (x : AxisId) :
    State.glideAxis k n s x = s.setLdu (s.ldu.setAxis x ((s.ldu.axis x).glided k n)) := by
  unfold State.glideAxis
  split
  next glides =>
    dsimp only
    split
    next before => rw [Axis.glided_shares glides before]; rfl
    next last => rw [Axis.glided_arrives glides (Nat.not_lt.mp last)]; rfl
  next none => rw [Axis.glided_other fun start target glides => none start target glides, Ldu.setAxis_axis]; rfl

theorem State.glideAxes_eq (k n : Nat) (s : State) :
    [AxisId.zoom, .focus, .iris].foldl (State.glideAxis k n) s =
      s.setLdu (s.ldu.setAxes fun x => (s.ldu.axis x).glided k n) := by
  rw [List.foldl, List.foldl, List.foldl, State.glideAxis_eq, State.glideAxis_eq, State.glideAxis_eq]
  rfl

/-- The LDU at update `k` of `n` of its glide. -/
def Ldu.glided (l : Ldu) (k n : Nat) : Ldu := l.setAxes fun x => (l.axis x).glided k n

theorem State.advanceShot_shares (glides : s.ldu.shot = .gliding n k total) (before : k + 1 < total) :
    s.advanceShot = s.setLdu { s.ldu.glided (k + 1) total with shot := .gliding n (k + 1) total } := by
  unfold State.advanceShot
  rw [glides]
  dsimp only [State.glideStep]
  rw [State.glideAxes_eq, if_pos before]
  rfl

/-- An axis takes its share of the glide. -/
theorem State.axis_advanceShot_shares (glides : s.ldu.shot = .gliding n k total) (before : k + 1 < total)
    (axis : (s.ldu.axis x).move = .glide start target) :
    s.advanceShot.ldu.axis x = { s.ldu.axis x with
      demand := start + (target - start) * (k + 1) / total
      vel := start + (target - start) * (k + 1) / total - (s.ldu.axis x).demand } := by
  rw [State.advanceShot_shares glides before]
  refine Eq.trans ?_ (Axis.glided_shares axis before)
  cases x <;> rfl

theorem State.advanceShot_ends (glides : s.ldu.shot = .gliding n k total) (last : total ≤ k + 1) :
    s.advanceShot = (s.setLdu (s.ldu.glided (k + 1) total)).glideEnded n := by
  unfold State.advanceShot
  rw [glides]
  dsimp only [State.glideStep]
  rw [State.glideAxes_eq, if_neg (Nat.not_lt.mpr last)]
  rfl

/-! ## The end of a glide (R67, R68) -/

/-- A glide that has ended dwells: the mode is CHAIN and a valid shot follows. -/
def Ldu.Dwells (l : Ldu) (n : Nat) : Prop := l.shotMode = .chain ∧ l.nextValid n ≠ none

theorem State.glideEnded_dwells (dwells : s.ldu.Dwells n) :
    s.glideEnded n = s.setLdu { s.ldu.rebase with
      shot := .dwelling n 0 (s.ftu.format.rate.updates (s.ldu.shotRec n).dwell) } := by
  obtain ⟨chain, follows⟩ := dwells
  obtain ⟨m, follows⟩ := Option.ne_none_iff_exists'.mp follows
  have based := s.ldu.settings_rebase
  unfold State.glideEnded
  dsimp only [State.setLdu_ldu]
  rw [Ldu.shotMode_of_settings based, Ldu.nextValid_of_settings based, Ldu.shotRec_of_settings based, chain, follows]
  rfl

theorem State.glideEnded_holds (dwells : ¬ s.ldu.Dwells n) :
    s.glideEnded n = (((s.setLdu s.ldu.rebase).endSequenceTag .complete 1).setLdu
      { s.ldu.rebase with seqTag := 0, shot := .holding n }) := by
  have based := s.ldu.settings_rebase
  unfold State.glideEnded
  dsimp only [State.setLdu_ldu]
  split
  next chain follows =>
    rw [Ldu.shotMode_of_settings based] at chain
    rw [Ldu.nextValid_of_settings based] at follows
    exact absurd ⟨chain, by simp [follows]⟩ dwells
  next => rw [State.endSequenceTag_ldu]; rfl

theorem Ldu.claim_rebase (l : Ldu) : l.rebase.claim = l.claim := (Ldu.Holds.refl l).rebase.claim

/-- The sequence tag, in flight with no sheet in dispatch, ends with the words of R54. -/
theorem State.tagRec_endSequenceTag_same (direct : s.shc.job = none) (flying : s.inFlight s.ldu.seqTag = true)
    (o : TagOutcome) (cause : Nat) :
    (s.endSequenceTag o cause).tagRec s.ldu.seqTag =
      s.ended s.ldu.seqTag .done o (wordOfNat s.ldu.shot.code.2) (wordOfNat s.ldu.ignored) (wordOfNat cause) :=
  State.tagRec_complete_same direct flying

/-- The record that ends a tag is that of the tag with the words and the frame number (R54). -/
theorem State.ended_congr (tag : t.tagRec n = s.tagRec n) (ftu : t.ftu = s.ftu) : t.ended n = s.ended n := by
  unfold State.ended
  rw [tag, ftu]

/-- The glide to `n` ends COMPLETE. -/
theorem State.tagRec_glideEnded (dwells : ¬ s.ldu.Dwells n) (glides : s.ldu.shot.code.2 = n)
    (direct : s.shc.job = none) (flying : s.inFlight s.ldu.seqTag = true) :
    (s.glideEnded n).tagRec s.ldu.seqTag =
      s.ended s.ldu.seqTag .done .complete (wordOfNat n) (wordOfNat s.ldu.ignored) (wordOfNat 1) := by
  have claim := s.ldu.claim_rebase
  simp only [Ldu.claim, Prod.mk.injEq] at claim
  obtain ⟨-, shot, seqTag, ignored⟩ := claim
  have ended := State.tagRec_endSequenceTag_same (s := s.setLdu s.ldu.rebase) direct (seqTag ▸ flying) .complete 1
  rw [State.setLdu_ldu, shot, seqTag, ignored, glides] at ended
  rw [State.glideEnded_holds dwells]
  exact ended

/-- Whether the sequence dwells or holds, an axis comes to what it is on its base. -/
theorem State.glideEnded_axis (s : State) (n : Nat) (x : AxisId) :
    (s.glideEnded n).ldu.axis x = s.ldu.rebase.axis x := by
  by_cases dwells : s.ldu.Dwells n
  · rw [State.glideEnded_dwells dwells]
    cases x <;> rfl
  · rw [State.glideEnded_holds dwells]
    cases x <;> rfl

/-- An axis whose glide ends, and which does not go on its base, arrives. -/
theorem State.axis_advanceShot_arrives (glides : s.ldu.shot = .gliding n k total) (last : total ≤ k + 1)
    (axis : (s.ldu.axis x).move = .glide start target) (unbased : x = .focus → s.ldu.tracking = false) :
    s.advanceShot.ldu.axis x = { (s.ldu.axis x).rested with demand := target } := by
  have glided : (s.ldu.glided (k + 1) total).axis x = { (s.ldu.axis x).rested with demand := target } :=
    (Ldu.axis_setAxes ..).trans (Axis.glided_arrives axis last)
  rw [State.advanceShot_ends glides last, State.glideEnded_axis, State.setLdu_ldu]
  exact (Ldu.axis_rebase (l := s.ldu.glided (k + 1) total) fun focus => .inr (unbased focus)).trans glided

/-! ## Dwells (R67) -/

theorem State.advanceShot_waits (dwells : s.ldu.shot = .dwelling n k total) (before : k < total) :
    s.advanceShot = s.setLdu { s.ldu with shot := .dwelling n (k + 1) total } := by
  unfold State.advanceShot
  rw [dwells]
  exact if_pos before

/-- A dwell that is over begins the next glide with its first update. -/
theorem State.advanceShot_goesOn {m : Nat} (dwells : s.ldu.shot = .dwelling n k total) (past : total ≤ k)
    (next : s.ldu.nextValid n = some m) (long : 1 < s.ftu.format.rate.updates (s.ldu.shotRec m).travel) :
    s.advanceShot.ldu = { (s.beginGlide m).ldu.glided 1 (s.ftu.format.rate.updates (s.ldu.shotRec m).travel) with
      shot := .gliding m 1 (s.ftu.format.rate.updates (s.ldu.shotRec m).travel) } := by
  have begun : (s.beginGlide m).ldu.shot =
      .gliding m 0 (s.ftu.format.rate.updates (s.ldu.shotRec m).travel) := by
    rw [← max_eq_right long.le]
    rfl
  have steps : s.advanceShot = (s.beginGlide m).advanceShot := by
    unfold State.advanceShot
    rw [dwells, begun]
    dsimp only
    rw [if_neg (Nat.not_lt.mpr past), next]
    dsimp only
    rw [begun]
  rw [steps, State.advanceShot_shares begun long]
  rfl

end

end Sys2Proof.Machine
end

