-- ==== Sys2Proof/Proofs/ShotsTriggered.lean ====
section
/-! PROOFS. O34: the orders of the shots, and the sequence in the updates of calm replies. -/

namespace Sys2Proof.Machine

section
variable {s t u : State} {x : AxisId} {k n total : Nat} {a b : Int}

/-! ## The sequence after a calm chain -/

/-- An axis in its glide that the reply leaves alone is undisturbed. -/
theorem Ldu.Undisturbed.of_glide {l : Ldu} (glides : (l.axis x).move = .glide a b)
    (notStalled : (l.axis x).st ≠ .stalled) (servo : l.manual x = false) : l.Undisturbed x := by
  have gliding : (l.axis x).gliding = true := by
    unfold Axis.gliding
    rw [glides]
  exact ⟨notStalled, servo, .inr gliding, fun _ => .inl gliding⟩

theorem Calms.move (h : Calms s t) (free : s.ldu.Undisturbed x) : (t.ldu.axis x).move = (s.ldu.axis x).move :=
  (congrArg Axis.move (h.axis x free) :)

theorem Calms.demand (h : Calms s t) (free : s.ldu.Undisturbed x) :
    (t.ldu.axis x).demand = (s.ldu.axis x).demand := (congrArg Axis.demand (h.axis x free) :)

theorem Calms.st (h : Calms s t) (free : s.ldu.Undisturbed x) : (t.ldu.axis x).st = (s.ldu.axis x).st :=
  (congrArg Axis.st (h.axis x free) :)

/-- A calm chain leaves the sequence, its tag and its count. -/
theorem Calms.sequence (h : Calms s t) :
    t.ldu.shot = s.ldu.shot ∧ t.ldu.seqTag = s.ldu.seqTag ∧ t.ldu.ignored = s.ldu.ignored := by
  have claim := h.holds.claim
  simp only [Ldu.claim, Prod.mk.injEq] at claim
  exact claim.2

theorem Calms.dwells (h : Calms s t) (n : Nat) : t.ldu.Dwells n ↔ s.ldu.Dwells n := by
  unfold Ldu.Dwells
  rw [Ldu.shotMode_of_settings h.drives.settings, Ldu.nextValid_of_settings h.drives.settings]

end

/-- Settles O34: the orders by their decisions; the updates through the calm chain that comes before the sequence. -/
theorem shotsStoredAndTriggered : Obligations.ShotsStoredAndTriggered := by
  refine ⟨⟨?store, ?mode⟩, ?trigger, ?update⟩
  case store =>
    intro e s n source z f i travel dwell due kept stored
    have order : exec (.shotStore e 0 n source z f i travel dwell) s = .next ((s.arrive e).takeOrder .immediate 0x2B 0
      (p1 n ++ p1 source ++ p2 z ++ p2 f ++ p2 i ++ p2 travel ++ p2 dwell)
      (decideShotStore n source z f i travel dwell)) := rfl
    refine ⟨?explicit, ?actual, ?offline, ?unknown⟩
    case explicit =>
      rintro rfl
      exact carriedResult_untagged explicitShot_clamped ▸ exec_orderSetsLdu order due rfl rfl
    case actual =>
      rintro rfl online
      exact carriedResult_untagged shotStore_clamped ▸ exec_orderSetsLdu order due
        (State.whenOnline_online (s := s.arrive e) online _) rfl
    case offline =>
      rintro rfl offline
      exact exec_orderRefused order due (State.whenOnline_offline (s := s.arrive e) offline _)
    case unknown =>
      intro beyond
      exact exec_orderRefused order due ((if_neg (by omega)).trans (if_neg (by omega)))
  case mode =>
    intro e s mode count policy due
    have order : exec (.shotMode e 0 mode count policy) s = .next ((s.arrive e).takeOrder .immediate 0x2C 0
      (p1 mode ++ p1 count ++ p1 policy) (decideShotMode mode count policy)) := rfl
    refine ⟨fun unknown => exec_orderRefused order due (decideShotMode_unknown unknown),
      fun m p runs => exec_orderRefused order due ((decideShotMode_known m p).trans (if_pos runs)),
      fun m p rests => ?_⟩
    have clamped : (clampNat 1 4 count.toNat != count.toNat) = true ↔ ¬ (1 ≤ count.toNat ∧ count.toNat ≤ 4) := by
      rw [bne_iff_ne, ne_eq, clampNat_eq_self_iff (by decide)]
    refine carriedResult_untagged clamped ▸ exec_orderSetsLdu order due
      ((decideShotMode_known m p).trans (if_neg (Bool.eq_false_iff.mp rests))) ?_
    rw [State.acceptTag_ldu, State.arrive_ldu, ShotState.afterMode_idle rests]
  case trigger =>
    intro e s tag due
    have decided {a : TriggerAnswer} (online : s.ldu.link = .online) (answer : s.ldu.decideTrigger = a) :
        decideShotTrigger tag (s.arrive e) = a.decision tag :=
      decideShotTrigger_online (s := s.arrive e) online answer tag
    refine ⟨?offline, ?noShot, fun n online target => ⟨?grip, ?early, ?go⟩⟩
    case offline =>
      intro offline
      exact exec_orderRefused (exec_shotTrigger e s tag) due (State.whenOnline_offline (s := s.arrive e) offline _)
    case noShot =>
      intro online none
      exact exec_orderRefused (exec_shotTrigger e s tag) due
        (decided online (Ldu.decideTrigger_noShot none))
    case grip =>
      intro claims
      exact exec_orderRefused (exec_shotTrigger e s tag) due
        (decided online ((Ldu.decideTrigger_some target).trans (if_pos claims)))
    case early =>
      intro free chain ignores runs
      have early : s.ldu.decideTrigger = .early := by
        rw [Ldu.decideTrigger_some target, if_neg (by simp [free]), if_pos ⟨chain, ignores, runs⟩]
      exact exec_orderAnswered (exec_shotTrigger e s tag) due (decided online early)
        (by rw [State.ignoreTrigger, satSucc_eq]; rfl) rfl rfl rfl
    case go =>
      intro free late untagged axes off
      have go : s.ldu.decideTrigger = .go n := by
        rw [Ldu.decideTrigger_some target, if_neg (by simp [free]), if_neg late]
      refine ⟨_, exec_shotTrigger_go due online go untagged axes off, rfl, rfl, rfl, fun x notStalled servo => ?_,
        fun x out => ?_, rfl, by simp, by simp, by simp⟩
      · refine (Ldu.axis_glideBegun ..).trans ((Ldu.joined_free notStalled servo).trans ?_)
        rw [← axes x]
        rfl
      · exact (Ldu.axis_glideBegun ..).trans (if_pos out)
  case update =>
    intro e s due r runs online reply attached inside released quiet seen updates near
    obtain ⟨t, calms, ran, flt⟩ := exec_lensUpdate_calm (e := e) runs online reply attached inside released quiet near
    obtain ⟨shot, seqTag, ignored⟩ := calms.sequence
    have gliding {x : AxisId} {a b : Int} (move : (s.ldu.axis x).move = .glide a b)
        (notStalled : (s.ldu.axis x).st ≠ .stalled) (servo : seen.manual x = false) :
        (s.ldu.shown r).Undisturbed x := .of_glide move notStalled servo
    refine ⟨?share, ?finish, ?wait, ?goOn⟩
    case share =>
      intro n k total glides before
      have advanced := State.advanceShot_shares (shot.trans glides) before
      refine ⟨_, ran, (congrArg (fun u : State => u.ldu.shot) advanced :),
        (congrArg (fun u : State => u.ldu.seqTag) advanced :).trans seqTag, flt, fun x a b move notStalled servo => ?_⟩
      have free := gliding move notStalled servo
      have axis := State.axis_advanceShot_shares (shot.trans glides) before ((calms.move free).trans move)
      rw [State.axis_endUpdate, axis, calms.demand free]
      exact ⟨rfl, rfl, (calms.move free).trans move⟩
    case finish =>
      intro n k total glides last dwells
      have ended := State.advanceShot_ends (shot.trans glides) last
      have dwells_iff : (t.ldu.glided (k + 1) total).Dwells n ↔ dwells := calms.dwells n
      refine ⟨_, ran, flt, fun follows => ?_, fun none => ⟨?_, ?_, fun direct flying spared => ?_⟩,
        fun x a b move notStalled servo unbased => ?_⟩
      · have dwelt := ended.trans (State.glideEnded_dwells (dwells_iff.mpr follows))
        have shown : t.advanceShot.ldu.shot =
            .dwelling n 0 (t.ftu.format.rate.updates (t.ldu.shotRec n).dwell) :=
          (congrArg (fun u : State => u.ldu.shot) dwelt :)
        have claim := (t.ldu.glided (k + 1) total).claim_rebase
        have kept : t.advanceShot.ldu.seqTag = t.ldu.seqTag :=
          (congrArg (fun u : State => u.ldu.seqTag) dwelt :).trans (congrArg (·.2.2.1) claim :)
        rw [calms.drives.ftu, Ldu.shotRec_of_settings calms.drives.settings] at shown
        exact ⟨shown, kept.trans seqTag⟩
      · have held := ended.trans (State.glideEnded_holds (mt dwells_iff.mp none))
        exact (congrArg (fun u : State => u.ldu.shot) held :)
      · have held := ended.trans (State.glideEnded_holds (mt dwells_iff.mp none))
        exact (congrArg (fun u : State => u.ldu.seqTag) held :)
      · have named : s.ldu.seqTag ≠ 0 := fun zero => by
          rw [zero] at flying
          cases flying
        have still : t.tagRec s.ldu.seqTag = s.tagRec s.ldu.seqTag := calms.spares _ named spared
        have done := State.tagRec_glideEnded (s := t.setLdu (t.ldu.glided (k + 1) total))
          (mt dwells_iff.mp none) (congrArg (·.code.2) (shot.trans glides) :) (calms.drives.direct direct)
          (seqTag ▸ (State.inFlight_congr still).trans flying)
        have words : (t.setLdu (t.ldu.glided (k + 1) total)).ended s.ldu.seqTag = s.ended s.ldu.seqTag :=
          State.ended_congr still calms.drives.ftu
        have tag : (t.setLdu (t.ldu.glided (k + 1) total)).ldu.seqTag = s.ldu.seqTag := seqTag
        have count : (t.setLdu (t.ldu.glided (k + 1) total)).ldu.ignored = s.ldu.ignored := ignored
        rw [← ended, tag, count, words] at done
        exact done
      · have free := gliding move notStalled servo
        have axis := State.axis_advanceShot_arrives (shot.trans glides) last ((calms.move free).trans move)
          fun focus => (Ldu.tracking_of_settings calms.drives.settings).trans (unbased focus)
        rw [State.axis_endUpdate, axis]
        exact ⟨rfl, rfl, rfl, if_neg ((calms.st free).trans_ne notStalled)⟩
    case wait =>
      intro n k total dwells before
      have waited := State.advanceShot_waits (shot.trans dwells) before
      exact ⟨_, ran, (congrArg (fun u : State => u.ldu.shot) waited :), flt⟩
    case goOn =>
      intro n k total m dwells past next h N long
      have record : t.ldu.shotRec m = h := Ldu.shotRec_of_settings calms.drives.settings m
      have follows : t.ldu.nextValid n = some m := (Ldu.nextValid_of_settings calms.drives.settings n).trans next
      have length : t.ftu.format.rate.updates (t.ldu.shotRec m).travel = N := by
        rw [record, calms.drives.ftu]
        rfl
      have begun := State.advanceShot_goesOn (shot.trans dwells) past follows (length ▸ long)
      rw [length] at begun
      refine ⟨_, ran, (congrArg Ldu.shot begun :), flt, fun x notStalled rests servo _ off untracked => ?_⟩
      have free : (s.ldu.shown r).Undisturbed x := ⟨notStalled, servo, .inl rests, fun _ => .inr untracked⟩
      have joined : (t.beginGlide m).ldu.axis x = { t.ldu.axis x with
          st := .moving, move := .glide (t.ldu.axis x).demand (h.position x * 500), tag := 0 } := by
        rw [State.beginGlide_ldu (calms.unbased untracked off), Ldu.axis_glideBegun, record,
          Ldu.joined_free ((calms.st free).trans_ne notStalled) ((calms.undisturbed free).servo)]
      have shared : t.advanceShot.ldu.axis x = ((t.beginGlide m).ldu.axis x).glided 1 N := by
        rw [begun]
        cases x <;> rfl
      rw [State.axis_endUpdate, shared, joined, Axis.glided_shares rfl long, calms.demand free]
      exact ⟨rfl, by rw [Nat.cast_one, mul_one]; rfl⟩

end Sys2Proof.Machine
end

