-- ==== Sys2Proof/Proofs/GripClaims.lean ====
section
/-! PROOFS. The grip takes the zoom and moves it (R53, R55 to R57): O32. -/

namespace Sys2Proof.Machine

section
variable {s t u : State} {l m : Ldu} {x : AxisId} {a : Axis} {rate : Int}

/-! ## A grip move by one update (R48, R56) -/

/-- The demand rises within its range; a clamp takes the velocity. -/
theorem Axis.rise_eq (a : Axis) {lo hi : Int} (_ : lo ≤ hi) :
    a.rise (lo, hi) = { a with
      demand := max lo (min hi (a.demand + a.vel))
      vel := if lo ≤ a.demand + a.vel ∧ a.demand + a.vel ≤ hi then a.vel else 0 } := by
  unfold Axis.rise
  dsimp only
  split
  next below =>
    rw [if_neg (by omega), max_eq_left (by omega)]
  next above =>
    split
    next beyond => rw [if_neg (by omega), min_eq_left (by omega), max_eq_right (by omega)]
    next inside => rw [if_pos (by omega), min_eq_right (by omega), max_eq_right (by omega)]

/-- The velocity of a grip move after an update. -/
def Axis.gripVel (a : Axis) (rate : Int) : Int := toward a.vel rate a.step

/-- A released grip move that has come to velocity 0 ends (log 66). -/
theorem Ldu.advanced_gripEnds (grips : l.zoom.move = .grip 0) (notStalled : l.zoom.st ≠ .stalled)
    (still : l.zoom.gripVel 0 = 0) : l.advanced .zoom = l.zoom.rested := by
  unfold Axis.gripVel at still
  refine (if_neg (by simp [Ldu.axis, Ldu.manual, notStalled])).trans ?_
  simp only [Ldu.axis, Axis.update, grips, still, and_self, if_true]
  rfl

/-- Any other grip move takes the zoom on. -/
theorem Ldu.advanced_gripGoesOn (grips : l.zoom.move = .grip rate) (notStalled : l.zoom.st ≠ .stalled)
    (goesOn : ¬ (rate = 0 ∧ l.zoom.gripVel rate = 0)) :
    l.advanced .zoom = { l.zoom with
      demand := max 0 (min 2047500 (l.zoom.demand + l.zoom.gripVel rate))
      vel := if 0 ≤ l.zoom.demand + l.zoom.gripVel rate ∧ l.zoom.demand + l.zoom.gripVel rate ≤ 2047500
        then l.zoom.gripVel rate else 0 } := by
  unfold Axis.gripVel at goesOn
  have moved : l.advanced .zoom = ({ l.zoom with vel := l.zoom.gripVel rate } : Axis).rise (0, 2047500) := by
    refine (if_neg (by simp [Ldu.axis, Ldu.manual, notStalled])).trans ?_
    simp only [Ldu.axis, Axis.update, grips, if_neg goesOn]
    rfl
  exact moved.trans (Axis.rise_eq _ (by decide))

theorem Ldu.gripping_eq_false (other : ∀ k, l.zoom.move ≠ .grip k) : l.gripping = false := by
  unfold Ldu.gripping
  split
  next grips => exact absurd grips (other _)
  next => rfl

theorem Ldu.gripping_eq_true {k : Int} (grips : l.zoom.move = .grip k) : l.gripping = true := by
  unfold Ldu.gripping
  rw [grips]

/-! ## What leaves the zoom to the grip -/

/-- `m` has the owner, the sequence and the release wait of `l`, and its zoom but for the stall count. -/
structure Ldu.LeavesZoom (l m : Ldu) : Prop where
  owner : m.owner = l.owner
  shot : m.shot = l.shot
  releaseWait : m.releaseWait = l.releaseWait
  zoom : m.zoom.uncounted = l.zoom.uncounted

theorem Ldu.LeavesZoom.refl (l : Ldu) : l.LeavesZoom l := ⟨rfl, rfl, rfl, rfl⟩

theorem Ldu.LeavesZoom.trans {k : Ldu} (h : k.LeavesZoom l) (g : l.LeavesZoom m) : k.LeavesZoom m :=
  ⟨g.owner.trans h.owner, g.shot.trans h.shot, g.releaseWait.trans h.releaseWait, g.zoom.trans h.zoom⟩

/-- The records of the other axes have no part in it. -/
theorem Ldu.leavesZoom_setAxis (l : Ldu) (other : x ≠ .zoom) (a : Axis) : l.LeavesZoom (l.setAxis x a) := by
  cases x with
  | zoom => exact absurd rfl other
  | focus => exact ⟨rfl, rfl, rfl, rfl⟩
  | iris => exact ⟨rfl, rfl, rfl, rfl⟩

theorem Ldu.leavesZoom_rebase (l : Ldu) : l.LeavesZoom l.rebase := by
  unfold Ldu.rebase
  split <;> exact ⟨rfl, rfl, rfl, rfl⟩

theorem State.applyManual_leavesZoom (s : State) (was : Bool) (other : x ≠ .zoom) :
    s.ldu.LeavesZoom (State.applyManual was s x).ldu := by
  cases manual : s.ldu.manual x with
  | true =>
    rw [State.applyManual_ldu_byHand manual]
    exact Ldu.LeavesZoom.trans (l := { s.ldu with focusBased := if x = .focus then false else s.ldu.focusBased })
      ⟨rfl, rfl, rfl, rfl⟩ (Ldu.leavesZoom_setAxis _ other _)
  | false =>
    rw [State.applyManual_servo manual]
    split
    · exact s.ldu.leavesZoom_rebase
    · exact .refl _

/-- With no sequence there is none to cancel. -/
theorem State.cancelShot_idle (idle : s.ldu.shot = .idle) (finish : State → State) : s.cancelShot finish = s := by
  unfold State.cancelShot
  rw [idle]

theorem State.stall_leavesZoom (idle : s.ldu.shot = .idle) (other : x ≠ .zoom) :
    s.ldu.LeavesZoom (s.stall x).ldu := by
  have stalled : s.ldu.LeavesZoom (s.ldu.stalledAt x) :=
    Ldu.LeavesZoom.trans (l := { s.ldu with focusBased := if x = .focus then false else s.ldu.focusBased })
      ⟨rfl, rfl, rfl, rfl⟩ (Ldu.leavesZoom_setAxis _ other _)
  rw [State.stall_eq, State.occur_ldu, State.cancelShot_idle]
  · exact stalled
  · exact stalled.shot.trans idle

theorem State.checkStall_leavesZoom (idle : s.ldu.shot = .idle) (other : x ≠ .zoom) :
    s.ldu.LeavesZoom (s.checkStall x).ldu := by
  unfold State.checkStall
  extract_lets l a n s1
  have counted : s.ldu.LeavesZoom s1.ldu := s.ldu.leavesZoom_setAxis other _
  split
  · exact s.ldu.leavesZoom_setAxis other _
  · split
    · exact .refl _
    · split
      · exact counted.trans (State.stall_leavesZoom (counted.shot.trans idle) other)
      · exact counted

/-- The zoom within its stall window keeps its record but for the stall count. -/
theorem State.checkZoom_leavesZoom (notStalled : s.ldu.zoom.st ≠ .stalled)
    (near : size (s.ldu.zoom.sent - s.ldu.view.zoom) ≤ s.ldu.stallWindow) :
    s.ldu.LeavesZoom (s.checkStall .zoom).ldu := by
  rw [State.checkStall_within (x := .zoom) near, Ldu.checked_servo (x := .zoom) notStalled rfl]
  exact ⟨rfl, rfl, rfl, rfl⟩

theorem State.checkStalls_leavesZoom (idle : s.ldu.shot = .idle) (notStalled : s.ldu.zoom.st ≠ .stalled)
    (near : size (s.ldu.zoom.sent - s.ldu.view.zoom) ≤ s.ldu.stallWindow) : s.ldu.LeavesZoom s.checkStalls.ldu := by
  have zoom := State.checkZoom_leavesZoom notStalled near
  have focus := zoom.trans (State.checkStall_leavesZoom (x := .focus) (zoom.shot.trans idle) (by decide))
  exact focus.trans (State.checkStall_leavesZoom (x := .iris) (focus.shot.trans idle) (by decide))

theorem State.applyModes_leavesZoom (s : State) (was : LensView) : s.ldu.LeavesZoom (s.applyModes was).ldu :=
  (s.applyManual_leavesZoom was.focusManual (x := .focus) (by decide)).trans
    (State.applyManual_leavesZoom _ was.irisManual (x := .iris) (by decide))

/-- No button press triggers while the grip may claim the zoom (R57). -/
theorem State.pressButton_claimed (claims : s.ldu.gripRefuses = true) : s.pressButton = s := by
  unfold State.pressButton
  obtain none | grip := Ldu.decideTrigger_claimed claims
  · rw [none]
  · rw [grip]

/-- What a reply does after its rocker, with no sequence, leaves the zoom to its move. -/
theorem State.takeReply_leavesZoom {v : LensView}
    (ruled : (s.seeing v).applyRocker = t) (idle : t.ldu.shot = .idle) (notStalled : t.ldu.zoom.st ≠ .stalled)
    (near : size (t.ldu.zoom.sent - t.ldu.view.zoom) ≤ t.ldu.stallWindow)
    (unpressed : v.button = false ∨ t.ldu.gripRefuses = true) :
    t.ldu.LeavesZoom (s.takeReply v false).ldu := by
  have modes := t.applyModes_leavesZoom s.ldu.view
  have judged : Drives true t (t.applyModes s.ldu.view) := ((Drives.refl t).applyManual _ .focus).applyManual _ .iris
  have sent : (t.applyModes s.ldu.view).ldu.zoom.sent = t.ldu.zoom.sent := (congrArg Axis.sent modes.zoom :)
  have left : t.ldu.LeavesZoom (t.applyModes s.ldu.view).checkStalls.ldu := by
    refine modes.trans (State.checkStalls_leavesZoom (modes.shot.trans idle) ?_ ?_)
    · exact (congrArg Axis.st modes.zoom :).trans_ne notStalled
    · rw [sent, Ldu.view_of_settings judged.settings, Ldu.stallWindow_of_settings judged.settings]
      exact near
  rw [State.takeReply_eq, ruled]
  dsimp only
  split
  next pressed =>
    have settings : (t.applyModes s.ldu.view).checkStalls.ldu.settings = t.ldu.settings :=
      (((judged.checkStall .zoom).checkStall .focus).checkStall .iris).settings
    have claims := unpressed.resolve_left (by simp_all)
    rw [Ldu.gripRefuses_iff] at claims
    rw [State.pressButton_claimed]
    · exact left
    · rw [Ldu.gripRefuses_iff, Ldu.view_of_settings settings, left.releaseWait]
      exact ⟨(congrArg (fun l : Ldu => l.lockout) settings :).trans claims.1, claims.2⟩
  next => exact left

/-! ## The grip takes the zoom (R56) -/

/-- A sequence that runs ends its tag before the glides come to rest. -/
theorem State.cancelShot_running (runs : s.ldu.shot.running = true) (finish : State → State) :
    s.cancelShot finish = ((finish s).setLdu { (finish s).ldu with shot := .idle }).restGlides := by
  unfold State.cancelShot
  cases shot : s.ldu.shot with
  | idle => simp [shot, ShotState.running] at runs
  | holding => simp [shot, ShotState.running] at runs
  | gliding => rfl
  | dwelling => rfl

theorem State.shot_restGlides (s : State) : s.restGlides.ldu.shot = s.ldu.shot := by
  have one (u : State) (x : AxisId) :
      (if (u.ldu.axis x).gliding then u.rest x else u).ldu.shot = u.ldu.shot := by
    split
    · cases x <;> rfl
    · rfl
  unfold State.restGlides
  dsimp only [State.setLdu_ldu]
  rw [(Ldu.leavesZoom_rebase _).shot, one, one, one]

theorem State.shot_cancelShot (s : State) (finish : State → State) : (s.cancelShot finish).ldu.shot = .idle := by
  unfold State.cancelShot
  split
  next idle => exact idle
  next => rfl
  next => exact State.shot_restGlides _

theorem State.shot_gripTakes (s : State) : s.gripTakes.ldu.shot = .idle := by
  unfold State.gripTakes
  dsimp only [State.setLdu_ldu]
  exact State.shot_cancelShot ..

/-- An axis record without what a move begins with. -/
def Axis.unmoved (a : Axis) : Axis := { a with st := .idle, move := .none, step := 0, tag := 0 }

/-- What a new move of the zoom goes on from, with the release wait. -/
def Ldu.zoomFrom (l : Ldu) : Axis × Bool := (l.zoom.unmoved, l.releaseWait)

theorem State.zoomFrom_restGlides (s : State) : s.restGlides.ldu.zoomFrom = s.ldu.zoomFrom := by
  have one (u : State) (x : AxisId) :
      (if (u.ldu.axis x).gliding then u.rest x else u).ldu.zoomFrom = u.ldu.zoomFrom := by
    split
    · cases x <;> rfl
    · rfl
  have rebased (l : Ldu) : l.rebase.zoomFrom = l.zoomFrom := by
    unfold Ldu.rebase
    split <;> rfl
  unfold State.restGlides
  dsimp only [State.setLdu_ldu]
  rw [rebased, one, one, one]

theorem State.zoomFrom_gripTakes (s : State) : s.gripTakes.ldu.zoomFrom = s.ldu.zoomFrom := by
  have ended : (s.endAxisTag .zoom .preempted 5).ldu.zoomFrom = s.ldu.zoomFrom := by
    rw [State.endAxisTag_ldu]
    rfl
  refine Eq.trans ?_ ended
  unfold State.gripTakes
  dsimp only
  unfold State.cancelShot
  split
  · rfl
  · rfl
  · refine (State.zoomFrom_restGlides _).trans ?_
    rw [State.setLdu_ldu, State.endSequenceTag_ldu]
    rfl

/-- The grip's claim ends the tag of the zoom (R54). -/
theorem State.tagRec_gripTakes_zoom (direct : s.shc.job = none) (flying : s.inFlight s.ldu.zoom.tag = true) :
    s.gripTakes.tagRec s.ldu.zoom.tag =
      s.ended s.ldu.zoom.tag .done .preempted (wordOf (s.ldu.zoom.demand / 500)) (wordOf s.ldu.view.zoom)
        (wordOfNat 5) := by
  have named : s.ldu.zoom.tag ≠ 0 := (State.inFlight_iff.mp flying).1
  have ended := State.tagRec_endAxisTag_same (x := .zoom) direct flying .preempted 5
  have rest : Drives false (s.endAxisTag .zoom .preempted 5) s.gripTakes :=
    ((Drives.refl _).cancelShot ((Drives.refl _).endSequenceTag .preempted 5)).sets rfl
  exact (rest.landed named (State.inFlight_of_ended ended)).trans ended

/-- It ends the tag of a sequence that runs. -/
theorem State.tagRec_gripTakes_sequence (direct : s.shc.job = none) (runs : s.ldu.shot.running = true)
    (flying : s.inFlight s.ldu.seqTag = true) (other : s.ldu.seqTag ≠ s.ldu.zoom.tag) :
    s.gripTakes.tagRec s.ldu.seqTag =
      s.ended s.ldu.seqTag .done .preempted (wordOfNat s.ldu.shot.code.2) (wordOfNat s.ldu.ignored) (wordOfNat 5) := by
  have named : s.ldu.seqTag ≠ 0 := (State.inFlight_iff.mp flying).1
  have claim : (s.endAxisTag .zoom .preempted 5).ldu.claim = s.ldu.claim := by
    rw [State.endAxisTag_ldu, Ldu.claim_setAxis]
  simp only [Ldu.claim, Prod.mk.injEq] at claim
  obtain ⟨-, shot, seqTag, ignored⟩ := claim
  have still : (s.endAxisTag .zoom .preempted 5).tagRec s.ldu.seqTag = s.tagRec s.ldu.seqTag :=
    State.tagRec_endAxisTag (x := .zoom) named other.symm ..
  have zoomEnd : Drives false s (s.endAxisTag .zoom .preempted 5) := (Drives.refl s).endAxisTag ..
  have ended := State.tagRec_endSequenceTag_same (zoomEnd.direct direct)
    (by rw [seqTag]; exact (State.inFlight_congr still).trans flying) .preempted 5
  rw [shot, seqTag, ignored, State.ended_congr still zoomEnd.ftu] at ended
  have rest : Drives false ((s.endAxisTag .zoom .preempted 5).endSequenceTag .preempted 5) s.gripTakes := by
    unfold State.gripTakes
    dsimp only
    rw [State.cancelShot_running (shot ▸ runs)]
    exact (((Drives.refl _).sets (by rfl)).restGlides).sets rfl
  exact (rest.landed named (State.inFlight_of_ended ended)).trans ended

end

end Sys2Proof.Machine
end

