-- ==== Sys2Proof/Proofs/ZoomClaims.lean ====
section
/-! PROOFS. O32: ZOOM_STOP, ZOOM_CLAIM, and the updates in which the grip has the zoom. -/

namespace Sys2Proof.Machine

section
variable {s t : State} {v : LensView} {rate : Int}

/-! ## The zoom over an update -/

/-- An axis record without its stall count and the demand sent. -/
def Axis.course (a : Axis) : Axis := { a with stallCount := 0, sent := 0 }

theorem State.stop_endUpdate (s : State) : s.endUpdate.stop = s.stop := rfl
theorem State.slotA_endUpdate (s : State) : s.endUpdate.slotA = s.slotA := rfl
theorem State.slotB_endUpdate (s : State) : s.endUpdate.slotB = s.slotB := rfl

theorem Ldu.advanced_setAxes (l : Ldu) : (l.setAxes l.advanced).zoom = l.advanced .zoom := rfl

/-- The rest of an update whose reply has been ruled on by its rocker. -/
def State.updated (s : State) (v : LensView) : State := (s.takeReply v false).advanceAxes.advanceShot

section
variable (ruled : (s.seeing v).applyRocker = t) (idle : t.ldu.shot = .idle) (notStalled : t.ldu.zoom.st ≠ .stalled)
  (near : size (t.ldu.zoom.sent - t.ldu.view.zoom) ≤ t.ldu.stallWindow)
  (unpressed : v.button = false ∨ t.ldu.gripRefuses = true)
include ruled

theorem State.updated_drives : Drives true t (s.updated v) := by
  have taken := ruled ▸ s.takeReply_drives_rocker v false
  exact (((taken.advanceAxis .zoom).advanceAxis .focus).advanceAxis .iris).advanceShot

include idle notStalled near unpressed

/-- The update leaves the claim and takes the zoom as far as its move does. -/
theorem State.updated_zoom :
    ∃ l, t.ldu.LeavesZoom l ∧ (s.updated v).ldu = l.setAxes l.advanced := by
  have left := State.takeReply_leavesZoom ruled idle notStalled near unpressed
  refine ⟨_, left, ?_⟩
  have rests : (s.takeReply v false).advanceAxes.ldu.shot = .idle := by
    rw [State.advanceAxes_ldu]
    exact left.shot.trans idle
  unfold State.updated State.advanceShot
  rw [rests]
  exact State.advanceAxes_ldu _

theorem State.updated_claim :
    (s.updated v).ldu.owner = t.ldu.owner ∧ (s.updated v).ldu.shot = .idle := by
  obtain ⟨l, left, updated⟩ := State.updated_zoom ruled idle notStalled near unpressed
  rw [updated]
  exact ⟨left.owner, left.shot.trans idle⟩

variable (grips : t.ldu.zoom.move = .grip rate)
include grips

/-- A grip move that goes on. -/
theorem State.updated_gripGoesOn (goesOn : ¬ (rate = 0 ∧ t.ldu.zoom.gripVel rate = 0)) :
    let d := t.ldu.zoom.demand + t.ldu.zoom.gripVel rate
    (s.updated v).ldu.zoom.course = { t.ldu.zoom.course with
      demand := max 0 (min 2047500 d)
      vel := if 0 ≤ d ∧ d ≤ 2047500 then t.ldu.zoom.gripVel rate else 0 } := by
  obtain ⟨l, left, updated⟩ := State.updated_zoom ruled idle notStalled near unpressed
  have vel : l.zoom.gripVel rate = t.ldu.zoom.gripVel rate := (congrArg (·.gripVel rate) left.zoom :)
  have demand : l.zoom.demand = t.ldu.zoom.demand := (congrArg Axis.demand left.zoom :)
  have course : l.zoom.course = t.ldu.zoom.course := (congrArg Axis.course left.zoom :)
  have advanced := Ldu.advanced_gripGoesOn (l := l) ((congrArg Axis.move left.zoom :).trans grips)
    ((congrArg Axis.st left.zoom :).trans_ne notStalled) (vel ▸ goesOn)
  rw [updated, Ldu.advanced_setAxes, advanced, ← course, ← demand, ← vel]
  rfl

/-- A grip move that ends. -/
theorem State.updated_gripEnds (released : rate = 0) (still : t.ldu.zoom.gripVel rate = 0) :
    (s.updated v).ldu.zoom.course = t.ldu.zoom.course.rested := by
  obtain ⟨l, left, updated⟩ := State.updated_zoom ruled idle notStalled near unpressed
  subst released
  have vel : l.zoom.gripVel 0 = t.ldu.zoom.gripVel 0 := (congrArg (·.gripVel 0) left.zoom :)
  have course : l.zoom.course = t.ldu.zoom.course := (congrArg Axis.course left.zoom :)
  have advanced := Ldu.advanced_gripEnds (l := l) ((congrArg Axis.move left.zoom :).trans grips)
    ((congrArg Axis.st left.zoom :).trans_ne notStalled) (vel.trans still)
  rw [updated, Ldu.advanced_setAxes, advanced, ← course]
  rfl

end

/-! ## The reply of an update in ONLINE -/

/-- The state that takes the reply of an update in ONLINE. -/
def State.heard (s : State) (e : Env) (due : Nat) : State :=
  ((s.arrive e).expireAt due).setLdu { s.ldu with missing := 0 }

theorem exec_lensUpdate_online {e : Env} {due : Nat} {r : LensReply} (runs : s.ldu.timer = some due)
    (online : s.ldu.link = .online) (reply : s.ldu.reply = some r) (attached : r.attached = true)
    (quiet : s.stop.requests = []) (asks : asksNoStop s .lensStall = true) :
    exec (.lensUpdate e) s = .next ((s.heard e due).updated (viewOf r)).endUpdate := by
  have drives : Drives true ((s.heard e due).seeing (viewOf r)) ((s.heard e due).updated (viewOf r)) :=
    (Drives.refl ((s.heard e due).seeing (viewOf r))).applyRocker.trans
      (State.updated_drives (s := s.heard e due) (v := viewOf r) rfl)
  have stop : ((s.heard e due).updated (viewOf r)).stop = s.stop := drives.stop asks
  have slotA : ((s.heard e due).updated (viewOf r)).slotA = s.slotA := drives.slotA
  have slotB : ((s.heard e due).updated (viewOf r)).slotB = s.slotB := drives.slotB
  have updated : ((s.arrive e).expireAt due).lensUpdate = ((s.heard e due).updated (viewOf r)).endUpdate :=
    State.lensUpdate_online online reply attached
  exact exec_lensUpdate runs quiet updated ((State.stop_endUpdate _).trans stop)
    ((State.slotA_endUpdate _).trans slotA) ((State.slotB_endUpdate _).trans slotB)

/-! ## The grip takes the zoom (R56) -/

/-- The state from which the zoom's grip move begins: the grip has taken the zoom from the orders. -/
def State.claimed (s : State) : State := if s.ldu.owner = .order then s.gripTakes else s

theorem State.claimed_drives (s : State) : Drives false s s.claimed := by
  unfold State.claimed
  split
  · exact (Drives.refl s).gripTakes
  · exact .refl s

theorem State.owner_claimed (s : State) : s.claimed.ldu.owner = .grip := by
  unfold State.claimed
  split
  next => rfl
  next grip =>
    cases owner : s.ldu.owner with
    | order => exact absurd owner grip
    | grip => rfl

theorem State.shot_claimed (h : s.ldu.owner = .order ∨ s.ldu.shot = .idle) : s.claimed.ldu.shot = .idle := by
  unfold State.claimed
  split
  next => exact s.shot_gripTakes
  next grip => exact h.resolve_left grip

theorem State.zoomFrom_claimed (s : State) : s.claimed.ldu.zoomFrom = s.ldu.zoomFrom := by
  unfold State.claimed
  split
  · exact s.zoomFrom_gripTakes
  · rfl

/-- The step of a move follows the slots (R49). -/
theorem State.moveStep_of_drives (h : Drives false s t) : t.moveStep = s.moveStep := by
  have soft : t.ldu.softStep = s.ldu.softStep := (congrArg Ldu.softStep h.settings :)
  have hard : t.ldu.hardStep = s.ldu.hardStep := (congrArg Ldu.hardStep h.settings :)
  rw [State.moveStep_eq, State.moveStep_eq, h.slotA, h.slotB, soft, hard]

/-- The zoom in the grip's new move. -/
def State.gripped (s : State) : State :=
  s.claimed.beginMove .zoom (.grip (rockerRate s.ldu.view.rocker)) s.claimed.moveStep 0

theorem State.gripped_drives (s : State) : Drives false s s.gripped := s.claimed_drives.beginMove ..

/-- The grip's move goes on from the demand and the velocity of the zoom. -/
theorem State.zoom_gripped (s : State) :
    s.gripped.ldu.zoom = { s.ldu.zoom with
      st := .moving, move := .grip (rockerRate s.ldu.view.rocker), step := s.moveStep, tag := 0 } := by
  have unmoved : s.claimed.ldu.zoom.unmoved = s.ldu.zoom.unmoved := (congrArg Prod.fst s.zoomFrom_claimed :)
  rw [← State.moveStep_of_drives s.claimed_drives]
  exact (congrArg (fun a : Axis => { a with
    st := .moving, move := .grip (rockerRate s.ldu.view.rocker), step := s.claimed.moveStep, tag := 0 }) unmoved :)

theorem State.releaseWait_gripped (s : State) : s.gripped.ldu.releaseWait = s.ldu.releaseWait :=
  (congrArg Prod.snd s.zoomFrom_claimed :)

/-- With the rocker outside the deadband the grip goes on to claim the zoom. -/
theorem State.gripRefuses_gripped (free : s.ldu.lockout = false) (waits : s.ldu.releaseWait = false)
    (outside : 8 < s.ldu.view.rocker.natAbs) : s.gripped.ldu.gripRefuses = true := by
  have settings := s.gripped_drives.settings
  rw [Ldu.gripRefuses_iff, s.releaseWait_gripped, Ldu.view_of_settings settings]
  exact ⟨(congrArg (fun l : Ldu => l.lockout) settings :).trans free, waits, outside⟩

/-- The tag of the zoom ends as the grip takes it from the orders. -/
theorem State.tagRec_gripped_zoom (orders : s.ldu.owner = .order) (direct : s.shc.job = none)
    (flying : s.inFlight s.ldu.zoom.tag = true) :
    s.gripped.tagRec s.ldu.zoom.tag =
      s.ended s.ldu.zoom.tag .done .preempted (wordOf (s.ldu.zoom.demand / 500)) (wordOf s.ldu.view.zoom)
        (wordOfNat 5) := by
  refine Eq.trans ?_ (State.tagRec_gripTakes_zoom direct flying)
  rw [← show s.claimed = s.gripTakes from if_pos orders]
  rfl

theorem State.tagRec_gripped_sequence (orders : s.ldu.owner = .order) (direct : s.shc.job = none)
    (runs : s.ldu.shot.running = true) (flying : s.inFlight s.ldu.seqTag = true)
    (other : s.ldu.seqTag ≠ s.ldu.zoom.tag) :
    s.gripped.tagRec s.ldu.seqTag =
      s.ended s.ldu.seqTag .done .preempted (wordOfNat s.ldu.shot.code.2) (wordOfNat s.ldu.ignored) (wordOfNat 5) := by
  refine Eq.trans ?_ (State.tagRec_gripTakes_sequence direct runs flying other)
  rw [← show s.claimed = s.gripTakes from if_pos orders]
  rfl

end

section
variable {s : State}

/-! ## ZOOM_STOP and ZOOM_CLAIM (R53, R57) -/

theorem Move.stopped_eq (m : Move) :
    m.stopped = match m with | .rate _ | .position _ _ | .grip _ => .stopping | m => m := by cases m <;> rfl

theorem Move.gripStopped_eq (m : Move) : m.gripStopped = match m with | .grip _ => .stopping | m => m := by
  cases m <;> rfl

theorem State.stopZoom_idle (idle : s.ldu.shot = .idle) :
    s.stopZoom = s.setLdu { s.ldu with
      owner := .order, zoom := { s.ldu.zoom with move := s.ldu.zoom.move.stopped } } := by
  unfold State.stopZoom
  rw [State.cancelByOrder_idle idle]

end

/-- Settles O32: the orders by their decisions; the updates by what the rocker makes of the zoom. -/
theorem zoomStopAndClaim : Obligations.ZoomStopAndClaim := by
  refine ⟨fun l => Ldu.gripRefuses_iff, ?stop, ?claim, ?update⟩
  case stop =>
    intro e s due
    have order : exec (.zoomStop e 0) s = .next ((s.arrive e).takeOrder .immediate 0x24 0 [] decideZoomStop) := rfl
    have decided {d : Decision} (online : s.ldu.link = .online)
        (h : (if s.ldu.gripRefuses = true then .refuse .refusedGrip
          else if s.ldu.zoom.st = .stalled then .carry false fun s => s.setLdu { s.ldu with owner := .order }
          else .carry false State.stopZoom) = d) : decideZoomStop (s.arrive e) = d :=
      (State.whenOnline_online (s := s.arrive e) online _).trans h
    refine ⟨fun offline => exec_orderRefused order due (State.whenOnline_offline (s := s.arrive e) offline _),
      fun online claims => exec_orderRefused order due (decided online (if_pos claims)),
      fun online free stalled => ?_, fun online free notStalled idle => ?_⟩
    · exact exec_orderSetsLdu order due (decided online ((if_neg (by simp [free])).trans (if_pos stalled))) rfl
    · have stopped := exec_orderSetsLdu order due
        (decided online ((if_neg (by simp [free])).trans (if_neg notStalled)))
        (State.stopZoom_idle (s := (s.arrive e).acceptTag 0x24 0) (by simpa using idle))
      rw [State.acceptTag_ldu, State.arrive_ldu, Move.stopped_eq] at stopped
      exact stopped
  case claim =>
    intro e s k due
    have order : exec (.zoomClaim e 0 k) s =
      .next ((s.arrive e).takeOrder .immediate 0x25 0 (p1 k) (decideZoomClaim k)) := rfl
    refine ⟨?_, ?_, ?_, fun beyond => exec_orderRefused order due ((if_neg (by omega)).trans (if_neg (by omega)))⟩
    · rintro rfl
      exact exec_orderSetsLdu order due rfl rfl
    · rintro rfl orders
      exact exec_orderSetsLdu order due rfl (congrArg _ (if_neg (by simp [orders])))
    · rintro rfl grips
      have locked := exec_orderSetsLdu order due rfl (congrArg _ (if_pos (by simpa using grips)))
      rw [State.acceptTag_ldu, State.arrive_ldu, Move.gripStopped_eq] at locked
      exact locked
  case update =>
    intro e s due r runs online reply attached quiet asks free notStalled rocker actual rate next near
    have ran := exec_lensUpdate_online (e := e) runs online reply attached quiet asks
    let w := (s.heard e due).seeing (viewOf r)
    refine ⟨?takes, ?follows⟩
    case takes =>
      intro outside waits other owned step v d
      have gripping : w.ldu.gripping = false := Ldu.gripping_eq_false other
      have ruled : w.applyRocker = w.gripped := State.applyRocker_takes free waits notStalled gripping outside
      have zoom := w.zoom_gripped
      have settings := w.gripped_drives.settings
      have idle : w.gripped.ldu.shot = .idle := w.shot_claimed owned
      have moving : w.gripped.ldu.zoom.st ≠ .stalled := by rw [zoom]; exact nofun
      have within : size (w.gripped.ldu.zoom.sent - w.gripped.ldu.view.zoom) ≤ w.gripped.ldu.stallWindow := by
        rw [zoom, Ldu.view_of_settings settings, Ldu.stallWindow_of_settings settings]
        exact near
      have claims : w.gripped.ldu.gripRefuses = true := State.gripRefuses_gripped free waits outside
      have grips : w.gripped.ldu.zoom.move = .grip rate := by rw [zoom]; rfl
      have goesOn : ¬ (rate = 0 ∧ w.gripped.ldu.zoom.gripVel rate = 0) := fun h => rockerRate_ne_zero outside h.1
      obtain ⟨owner, shot⟩ := State.updated_claim ruled idle moving within (.inr claims)
      have course := State.updated_gripGoesOn ruled idle moving within (.inr claims) grips goesOn
      have drives := State.updated_drives ruled
      have stepped : w.moveStep = step := w.moveStep_eq
      rw [zoom, stepped] at course
      generalize (s.heard e due).updated (viewOf r) = t at ran owner shot course drives
      refine ⟨_, ran, owner.trans w.owner_claimed, shot, (congrArg Axis.st course :), (congrArg Axis.move course :),
        (congrArg Axis.step course :), (congrArg Axis.tag course :), (congrArg Axis.demand course :),
        (congrArg Axis.vel course :), fun orders direct flying => ?_, fun orders direct runs flying apart => ?_⟩
      · have ended := State.tagRec_gripped_zoom (s := w) orders direct flying
        exact (drives.landed (State.inFlight_iff.mp flying).1 (State.inFlight_of_ended ended)).trans ended
      · have ended := State.tagRec_gripped_sequence (s := w) orders direct runs flying apart
        exact (drives.landed (State.inFlight_iff.mp flying).1 (State.inFlight_of_ended ended)).trans ended
    case follows =>
      intro k grips released idle button v d
      have gripping : w.ldu.gripping = true := Ldu.gripping_eq_true grips
      have ruled := State.applyRocker_follows (s := w) free notStalled gripping released
      obtain ⟨owner, shot⟩ := State.updated_claim ruled idle notStalled near (.inl button)
      by_cases still : rate = 0 ∧ v = 0
      · have course := State.updated_gripEnds ruled idle notStalled near (.inl button) rfl still.1 still.2
        generalize (s.heard e due).updated (viewOf r) = t at ran owner shot course
        have rests : t.ldu.zoom.vel = if 0 ≤ d ∧ d ≤ 2047500 then v else 0 := by
          rw [still.2, ite_self]
          exact (congrArg Axis.vel course :)
        exact ⟨_, ran, owner, (congrArg Axis.move course :).trans (if_pos still).symm,
          (congrArg Axis.demand course :).trans (if_pos still).symm, rests,
          fun _ _ => (congrArg Axis.st course :).trans (if_neg notStalled)⟩
      · have course := State.updated_gripGoesOn ruled idle notStalled near (.inl button) rfl still
        generalize (s.heard e due).updated (viewOf r) = t at ran owner shot course
        exact ⟨_, ran, owner, (congrArg Axis.move course :).trans (if_neg still).symm,
          (congrArg Axis.demand course :).trans (if_neg still).symm, (congrArg Axis.vel course :),
          fun released stopped => absurd ⟨released, stopped⟩ still⟩

end Sys2Proof.Machine
end

