-- ==== Sys2Proof/Proofs/LensFrame.lean ====
section
/-! PROOFS. What leaves the Lens Drive Unit: the operations of the other blocks. -/

namespace Sys2Proof.Machine

@[simp] theorem State.loadFlywheel_ldu (s : State) (n : Nat) : (s.loadFlywheel n).ldu = s.ldu := rfl

@[simp] theorem State.release_ldu (s : State) : s.release.ldu = s.ldu := rfl

@[simp] theorem State.setSlotState_ldu (s : State) (x : SlotId) (st : SlotState) :
    (s.setSlotState x st).ldu = s.ldu := by simp [State.setSlotState]

@[simp] theorem State.send_ldu (s : State) (x : SlotId) (c : CardCommand) :
    (s.send x c).ldu = s.ldu := by simp [State.send]

@[simp] theorem State.raiseFloor_ldu (s : State) (f : Option FrameNo) : (s.raiseFloor f).ldu = s.ldu := by
  unfold State.raiseFloor
  split <;> simp

/-! ## Slots, tags and faults -/

/-- A fold of steps that each leave the lens drive leaves it. -/
theorem State.foldl_ldu {α : Type} {f : State → α → State} (step : ∀ s a, (f s a).ldu = s.ldu) (l : List α)
    (s : State) : (l.foldl f s).ldu = s.ldu := by
  induction l generalizing s with
  | nil => rfl
  | cons a l ih => exact (ih _).trans (step s a)

@[simp] theorem State.takeLate_ldu (s : State) (l : List HeldCompletion) : (s.takeLate l).ldu = s.ldu :=
  State.foldl_ldu State.recordCompletion_ldu l s

/-! ## The guard -/

@[simp] theorem State.trip_ldu (s : State) (c d : Word) : (s.trip c d).ldu = s.ldu := by simp [State.trip]

@[simp] theorem State.keepWord_ldu (s : State) (w : Word) : (s.keepWord w).1.ldu = s.ldu := by
  unfold State.keepWord
  dsimp only
  repeat' split
  all_goals simp

@[simp] theorem State.starve_ldu (s : State) : s.starve.ldu = s.ldu := by
  unfold State.starve
  dsimp only
  repeat' split
  all_goals simp

/-! ## The stabiliser and the audio -/

@[simp] theorem State.checkOverrange_ldu (s : State) (y p : Int) : (s.checkOverrange y p).ldu = s.ldu := by
  unfold State.checkOverrange
  dsimp only
  split <;> simp

@[simp] theorem State.sampleOff_ldu (s : State) (y p : Int) : (s.sampleOff y p).ldu = s.ldu := by simp [State.sampleOff]

@[simp] theorem State.sampleOn_ldu (s : State) (y p : Int) : (s.sampleOn y p).ldu = s.ldu := by simp [State.sampleOn]

@[simp] theorem State.gyro_ldu (s : State) (y p : Int) : (s.gyro y p).ldu = s.ldu := by
  unfold State.gyro
  dsimp only
  repeat' split
  all_goals simp

@[simp] theorem State.gyroLost_ldu (s : State) : s.gyroLost.ldu = s.ldu := by simp [State.gyroLost]

@[simp] theorem State.audioOverrun_ldu (s : State) : s.audioOverrun.ldu = s.ldu := by
  unfold State.audioOverrun
  dsimp only
  split
  · simp
  · split <;> simp

@[simp] theorem State.audioArrives_ldu (s : State) (x : AudioSet) : (s.audioArrives x).ldu = s.ldu := by
  unfold State.audioArrives
  dsimp only
  split <;> simp

@[simp] theorem State.audioClockLost_ldu (s : State) : s.audioClockLost.ldu = s.ldu := by simp [State.audioClockLost]

/-! ## The clips -/

@[simp] theorem State.closeClip_ldu (s : State) (x : SlotId) (newest : Option FrameNo) :
    (s.closeClip x newest).ldu = s.ldu := by simp [State.closeClip]

@[simp] theorem State.openClip_ldu (s : State) (x : SlotId) (id prev : Word) (c : Bool) (first : FrameNo) (tag : Nat) :
    (s.openClip x id prev c first tag).ldu = s.ldu := by
  unfold State.openClip
  split <;> simp

@[simp] theorem State.dropClose_ldu (s : State) (f : FrameNo) (x : SlotId) : (s.dropClose f x).ldu = s.ldu := by
  unfold State.dropClose
  split
  · split <;> simp
  · simp

@[simp] theorem State.stopClose_ldu (s : State) (newest : Option FrameNo) (x : SlotId) :
    (s.stopClose newest x).ldu = s.ldu := by
  simp only [State.stopClose]
  repeat' split
  all_goals simp

@[simp] theorem State.relayFailed_ldu (s : State) (x : SlotId) (k : FrameNo) : (s.relayFailed x k).ldu = s.ldu := by
  unfold State.relayFailed
  dsimp only
  split <;> simp

@[simp] theorem State.relay_ldu (s : State) (x : SlotId) (id : Word) (k : FrameNo) : (s.relay x id k).ldu = s.ldu := by
  unfold State.relay
  split <;> simp

@[simp] theorem State.closeFull_ldu (s : State) (x : SlotId) (c : Clip) (k : FrameNo) (need : Nat) (room : Room) :
    (s.closeFull x c k need room).ldu = s.ldu := by
  unfold State.closeFull
  dsimp only
  repeat' split
  all_goals simp

@[simp] theorem State.pauseWriter_ldu (s : State) (x : SlotId) (c : Clip) (k : FrameNo) (room : Room) :
    (s.pauseWriter x c k room).ldu = s.ldu := by
  unfold State.pauseWriter
  split <;> simp

@[simp] theorem State.placeOpen_ldu (s : State) (x : SlotId) (c : Clip) (block : List Byte) :
    (s.placeOpen x c block).ldu = s.ldu := by simp [State.placeOpen]

@[simp] theorem State.placeGroup_ldu (s : State) (x : SlotId) (c : Clip) (g : IndexRec) :
    (s.placeGroup x c g).ldu = s.ldu := by simp [State.placeGroup]

@[simp] theorem State.placeClose_ldu (s : State) (x : SlotId) (c : Clip) : (s.placeClose x c).ldu = s.ldu := by
  unfold State.placeClose
  dsimp only
  split <;> simp

theorem State.writerStep_ldu {s t : State} {x : SlotId} (h : s.writerStep x = some t) : t.ldu = s.ldu := by
  revert h
  unfold State.writerStep
  dsimp only
  repeat' split
  all_goals
    intro h
    cases h
  all_goals simp

@[simp] theorem State.runWriters_ldu (s : State) (n : Nat) : (State.runWriters n s).ldu = s.ldu := by
  induction n generalizing s with
  | zero => rfl
  | succ n ih =>
    unfold State.runWriters
    split
    next step => exact (ih _).trans (State.writerStep_ldu step)
    next =>
      split
      next step => exact (ih _).trans (State.writerStep_ldu step)
      next => rfl

/-! ## The cards -/

@[simp] theorem State.writeBusError_ldu (s : State) (x : SlotId) (bad : Nat) : (s.writeBusError x bad).ldu = s.ldu := by
  unfold State.writeBusError
  dsimp only
  split <;> simp

@[simp] theorem State.sendWrite_ldu (s : State) (x : SlotId) (c : Clip) : (s.sendWrite x c).ldu = s.ldu := by
  unfold State.sendWrite
  dsimp only
  split
  · simp
  · split <;> simp

@[simp] theorem State.sendDue_ldu (s : State) (x : SlotId) : (s.sendDue x).ldu = s.ldu := by
  unfold State.sendDue State.sendRead
  dsimp only
  repeat' split
  all_goals simp

@[simp] theorem State.work_ldu (s : State) : s.work.ldu = s.ldu := by simp [State.work]

@[simp] theorem State.openDone_ldu (s : State) (x : SlotId) : (s.openDone x).ldu = s.ldu := by
  unfold State.openDone
  dsimp only
  repeat' split
  all_goals simp

@[simp] theorem State.closeDone_ldu (s : State) (x : SlotId) (n : Nat) : (s.closeDone x n).ldu = s.ldu := by
  unfold State.closeDone
  dsimp only
  repeat' split
  all_goals simp

@[simp] theorem State.removeReader_ldu (s : State) (x : SlotId) : (s.removeReader x).ldu = s.ldu := by
  unfold State.removeReader
  split <;> simp

@[simp] theorem State.endClose_ldu (s : State) (x : SlotId) (c : Clip) : (s.endClose x c).ldu = s.ldu := by
  unfold State.endClose
  split <;> simp

@[simp] theorem State.dropWork_ldu (s : State) (x : SlotId) : (s.dropWork x).ldu = s.ldu := by simp [State.dropWork]

@[simp] theorem State.failSlot_ldu (s : State) (x : SlotId) : (s.failSlot x).ldu = s.ldu := by simp [State.failSlot]

@[simp] theorem State.cardWriteFails_ldu (s : State) (x : SlotId) (c : CardCommand) (n : Word) :
    (s.cardWriteFails x c n).ldu = s.ldu := by simp [State.cardWriteFails]

@[simp] theorem State.cardTimesOut_ldu (s : State) (x : SlotId) (c : CardCommand) :
    (s.cardTimesOut x c).ldu = s.ldu := by simp [State.cardTimesOut]

@[simp] theorem State.removeCard_ldu (s : State) (x : SlotId) : (s.removeCard x).ldu = s.ldu := by
  unfold State.removeCard
  split <;> simp

@[simp] theorem State.probeCard_ldu (s : State) (x : SlotId) : (s.probeCard x).ldu = s.ldu := by simp [State.probeCard]

@[simp] theorem State.readDetect_ldu (s : State) (x : SlotId) : (s.readDetect x).ldu = s.ldu := by
  unfold State.readDetect
  split <;> simp

@[simp] theorem State.identified_ldu (s : State) (x : SlotId) (a : IdentifyAnswer) :
    (s.identified x a).ldu = s.ldu := by
  unfold State.identified
  split
  · split <;> simp
  · simp

@[simp] theorem State.written_ldu (s : State) (x : SlotId) : (s.written x).ldu = s.ldu := by
  unfold State.written
  dsimp only
  split
  · simp
  · split <;> simp

@[simp] theorem State.writeAnswered_ldu (s : State) (x : SlotId) (a : CardAnswer) :
    (s.writeAnswered x a).ldu = s.ldu := by
  unfold State.writeAnswered
  split
  · split <;> simp
  · simp

@[simp] theorem State.released_ldu (s : State) (x : SlotId) : (s.released x).ldu = s.ldu := by
  unfold State.released
  split <;> simp

@[simp] theorem State.flushAnswered_ldu (s : State) (x : SlotId) (a : CardAnswer) :
    (s.flushAnswered x a).ldu = s.ldu := by
  unfold State.flushAnswered
  split
  · split <;> simp
  · simp

@[simp] theorem State.endScan_ldu (s : State) (x : SlotId) (o : TagOutcome) :
    (s.endScan x o).ldu = s.ldu := by simp [State.endScan]

@[simp] theorem State.readAnswered_ldu (s : State) (x : SlotId) (a : ReadAnswer) :
    (s.readAnswered x a).ldu = s.ldu := by
  unfold State.readAnswered
  dsimp only
  repeat' split
  all_goals simp

/-! ## The stream and its staging -/

@[simp] theorem State.emptyUnit_ldu (s : State) (i : Nat) : (s.emptyUnit i).ldu = s.ldu := by simp [State.emptyUnit]

@[simp] theorem State.emptyUsed_ldu (s : State) (u : Option UsedUnit) : (s.emptyUsed u).ldu = s.ldu := by
  unfold State.emptyUsed
  split <;> simp

@[simp] theorem State.judgeUnits_ldu (s : State) (f : FrameNo) (l : List UnitEntry) (c : Option UnitEntry) :
    (State.judgeUnits f l c s).1.ldu = s.ldu := by
  induction l generalizing c s with
  | nil => rfl
  | cons u l ih =>
    unfold State.judgeUnits
    split
    · simp [ih]
    · split
      · split <;> simp [ih]
      · exact ih ..

@[simp] theorem State.useCandidate_ldu (s : State) (u : Option UnitEntry) : (s.useCandidate u).1.ldu = s.ldu := by
  unfold State.useCandidate
  split
  · simp
  · split <;> simp

@[simp] theorem State.giveBack_ldu (s : State) (f : FrameNo) : (s.giveBack f).ldu = s.ldu := by
  unfold State.giveBack
  split
  · simp
  · exact State.foldl_ldu (fun s (u : UnitEntry) => s.emptyUnit_ldu u.index) _ s

@[simp] theorem State.dropFrame_ldu (s : State) (f : FrameNo) (u : Option UsedUnit) :
    (s.dropFrame f u).ldu = s.ldu := by simp [State.dropFrame]

@[simp] theorem State.startCopy_ldu (s : State) (g : GroupCopy) : (s.startCopy g).ldu = s.ldu := by
  unfold State.startCopy
  dsimp only
  repeat' split
  all_goals simp

@[simp] theorem State.assemble_ldu (s : State) (p : PendingRec) (a : AudioRec) : (s.assemble p a).ldu = s.ldu := by
  unfold State.assemble
  split <;> simp

@[simp] theorem State.discardPending_ldu (s : State) (f : FrameNo) :
    (s.discardPending f).ldu = s.ldu := by simp [State.discardPending]

@[simp] theorem State.handleHead_ldu (s : State) (l : List PendingRec) : (State.handleHead l s).ldu = s.ldu := by
  induction l generalizing s with
  | nil => rfl
  | cons p l ih =>
    unfold State.handleHead
    dsimp only
    repeat' split
    all_goals simp [ih]

@[simp] theorem State.lookAtHead_ldu (s : State) : s.lookAtHead.ldu = s.ldu := by simp [State.lookAtHead]

@[simp] theorem State.audioRecord_ldu (s : State) (a : AudioRec) : (s.audioRecord a).ldu = s.ldu := by
  unfold State.audioRecord
  dsimp only
  split
  · simp
  · split <;> simp

@[simp] theorem State.pendingFull_ldu (s : State) (f : FrameNo) :
    (s.pendingFull f).ldu = s.ldu := by simp [State.pendingFull]

@[simp] theorem State.appendPending_ldu (s : State) (f : FrameRec) : (s.appendPending f).ldu = s.ldu := rfl

@[simp] theorem State.staTakes_ldu (s : State) (x : FrameStart) : (s.staTakes x).ldu = s.ldu := by
  unfold State.staTakes
  dsimp only
  split
  · simp
  · split <;> simp

@[simp] theorem State.writeRuns_ldu (s : State) (l : List (Nat × Nat)) (b : List Byte) :
    (s.writeRuns l b).1.ldu = s.ldu := by
  induction l generalizing s b with
  | nil => rfl
  | cons run l ih =>
    have written := s.busWrite_ldu run.1 (b.take run.2)
    unfold State.writeRuns
    split
    next ends => rwa [ends] at written
    next goesOn =>
      rw [goesOn] at written
      exact (ih ..).trans written

@[simp] theorem State.copyBusError_ldu (s : State) (g : GroupCopy) (site : CopySite) (a : Nat) :
    (s.copyBusError g site a).ldu = s.ldu := by
  unfold State.copyBusError
  split <;> simp

@[simp] theorem State.copyCompletes_ldu (s : State) (g : GroupCopy) (n : Nat) :
    (s.copyCompletes g n).ldu = s.ldu := by simp [State.copyCompletes]

@[simp] theorem State.copyEnds_ldu (s : State) (g : GroupCopy) : (s.copyEnds g).ldu = s.ldu := by
  unfold State.copyEnds
  split
  · simp
  next picture _ =>
    split
    · simp
    next sound _ =>
      have written := s.writeRuns_ldu (s.ringRuns s.sta.writePos (g.bytes picture sound).length) (g.bytes picture sound)
      dsimp only
      split
      next ends =>
        rw [ends] at written
        simpa using written
      next ends =>
        rw [ends] at written
        simpa using written

@[simp] theorem State.stageBlock_ldu (s : State) (b : List Byte) (a : AudioRec) : (s.stageBlock b a).ldu = s.ldu := by
  unfold State.stageBlock
  split <;> simp

@[simp] theorem State.acuTakes_ldu (s : State) (x : FrameStart) : (s.acuTakes x).ldu = s.ldu := by
  unfold State.acuTakes
  dsimp only
  split
  · simp
  · split <;> simp

@[simp] theorem State.acuReached_ldu (s : State) (x : FrameStart) : (s.acuReached x).ldu = s.ldu := by
  unfold State.acuReached
  split <;> simp

@[simp] theorem State.acuTakesHeld_ldu (s : State) : s.acuTakesHeld.ldu = s.ldu := by
  unfold State.acuTakesHeld
  split <;> simp

@[simp] theorem State.acuFrame_ldu (s : State) (x : FrameStart) : (s.acuFrame x).ldu = s.ldu := by
  unfold State.acuFrame
  split <;> simp

@[simp] theorem State.stagingDone_ldu (s : State) (j : StagingJob) : (s.stagingDone j).ldu = s.ldu := by
  unfold State.stagingDone
  split <;> simp

/-! ## Sheets and reports -/

@[simp] theorem State.beginReport_ldu (s : State) (f : FrameNo) (n : Option SheetNote) :
    (s.beginReport f n).ldu = s.ldu := by simp [State.beginReport]

@[simp] theorem State.writeFields_ldu (s : State) (base : Nat) (l : List ReportField) :
    (s.writeFields base l).ldu = s.ldu := State.foldl_ldu (fun s f => by simp) l s

@[simp] theorem State.endReport_ldu (s : State) (q : ReportJob) : (s.endReport q).ldu = s.ldu := by
  have fields := s.writeFields_ldu (s.reportAddress q.frame) (reportFields q)
  unfold State.endReport
  dsimp only
  generalize s.writeFields (s.reportAddress q.frame) (reportFields q) = s1 at fields ⊢
  have stamped := State.blockWrite_ldu { s1 with shc := { s1.shc with
    reports := s1.shc.reports.filter fun k => k.frame != q.frame } } .shc (s.reportAddress q.frame + 0x590)
    (w32 q.frame)
  split
  next stamps =>
    rw [stamps] at stamped
    exact stamped.trans fields
  next stamps =>
    rw [stamps] at stamped
    exact stamped.trans fields

@[simp] theorem State.noSheet_ldu (s : State) (x : FrameStart) : (s.noSheet x).ldu = s.ldu := by simp [State.noSheet]

@[simp] theorem State.markTaken_ldu (s : State) (x : FrameStart) :
    (s.markTaken x).ldu = s.ldu := by simp [State.markTaken]

@[simp] theorem State.writeReturned_ldu (s : State) (x : SheetId) (q : SheetResult) :
    (s.writeReturned x q).ldu = s.ldu := by simp [State.writeReturned]

@[simp] theorem State.takeMalformed_ldu (s : State) (x : FrameStart) (k : SheetHeader) :
    (s.takeMalformed x k).ldu = s.ldu := by simp [State.takeMalformed]

@[simp] theorem State.takeSheet_ldu (s : State) (x : FrameStart) (k : SheetHeader) (l : List SheetEntry) :
    (s.takeSheet x k l).ldu = s.ldu := by simp [State.takeSheet]

@[simp] theorem State.shcTakes_ldu (s : State) (x : FrameStart) : (s.shcTakes x).ldu = s.ldu := by
  unfold State.shcTakes
  dsimp only
  repeat' split
  all_goals simp

@[simp] theorem State.shcReached_ldu (s : State) (x : FrameStart) : (s.shcReached x).ldu = s.ldu := by
  unfold State.shcReached State.shcOvertaken
  split
  · simp
  · split <;> simp

@[simp] theorem State.shcTakesHeld_ldu (s : State) : s.shcTakesHeld.ldu = s.ldu := by
  unfold State.shcTakesHeld
  dsimp only
  split
  · simp
  · split <;> simp

@[simp] theorem State.writeResults_ldu (s : State) (base n : Nat) (l : List Result) :
    (s.writeResults base n l).ldu = s.ldu := by
  induction l generalizing s n with
  | nil => rfl
  | cons r l ih => exact (ih ..).trans (s.blockWrite_ldu ..)

@[simp] theorem State.keepReturned_ldu (s : State) (j : SheetJob) : (s.keepReturned j).ldu = s.ldu := by
  unfold State.keepReturned
  split <;> simp

@[simp] theorem State.returnSheet_ldu (s : State) (j : SheetJob) :
    (s.returnSheet j).ldu = s.ldu := by simp [State.returnSheet]

/-! ## The registers, the start-up and the frame starts -/

@[simp] theorem State.writeAttention_ldu (s : State) (v : Word) : (s.writeAttention v).ldu = s.ldu := rfl

@[simp] theorem State.writePartBase_ldu (s : State) (v : Word) : (s.writePartBase v).ldu = s.ldu := by
  unfold State.writePartBase
  split <;> simp

@[simp] theorem State.discardRetained_ldu (s : State) (f : FrameNo) : (s.discardRetained f).ldu = s.ldu := by
  unfold State.discardRetained
  split <;> simp

@[simp] theorem State.notePulse_ldu (s : State) (n : Nat) : (s.notePulse n).ldu = s.ldu := rfl

end Sys2Proof.Machine
end

