-- ==== Sys2Proof/Proofs/ScaleKept.lean ====
section
/-! PROOFS. The scale table and the zoom actual stay in range (R42, R60): the lens, the resets, the sheets and the frame
starts. -/

namespace Sys2Proof.Machine

/-- A valid scale table holds 17 points in their range, and the zoom actual is a zoom position (R42, R60). -/
def Ldu.InRange (l : Ldu) : Prop :=
  (l.scale.valid = true → l.scale.points.length = 17 ∧ ∀ p ∈ l.scale.points, 500 ≤ p ∧ p ≤ 60000) ∧
    0 ≤ l.view.zoom ∧ l.view.zoom ≤ 4095

theorem Ldu.inRange_reset : Ldu.reset.InRange := ⟨fun valid => absurd valid (by decide), by decide, by decide⟩

section
variable {b : Bool} {l m : Ldu} {s t : State}

theorem Ldu.InRange.of_settings (h : l.InRange) (same : m.settings = l.settings) : m.InRange := by
  have scale : m.scale = l.scale := (congrArg Ldu.scale same :)
  unfold Ldu.InRange
  rw [scale, Ldu.view_of_settings same]
  exact h

/-- Driving the axes leaves the scale table and the view. -/
theorem Ldu.InRange.drives (h : s.ldu.InRange) (drives : Drives b s t) : t.ldu.InRange := h.of_settings drives.settings

/-- What leaves the lens drive keeps them. -/
theorem Ldu.InRange.frame (h : s.ldu.InRange) (same : t.ldu = s.ldu) : t.ldu.InRange := same ▸ h

/-! ## The link and the lens update (R41 to R45) -/

theorem Ldu.InRange.lensAttach (h : s.ldu.InRange) (v : LensView) : (s.lensAttach v).ldu.InRange :=
  Ldu.InRange.of_settings (l := { s.ldu with link := .online, missing := 0 }) h (Ldu.settings_rebase _)

/-- A lens detached leaves no valid scale table (R43). -/
theorem Ldu.InRange.lensDetach (h : s.ldu.InRange) : s.lensDetach.ldu.InRange := by
  have aborted := (h.drives (b := false) ((Drives.refl s).abortAll 9)).of_settings (Ldu.settings_unbase _)
  exact ⟨fun valid => (nomatch valid), aborted.2⟩

theorem Ldu.InRange.lensLost (h : s.ldu.InRange) : s.lensLost.ldu.InRange := by
  have aborted := (h.drives (b := false) ((Drives.refl s).abortAll 8)).of_settings (Ldu.settings_rebase _)
  unfold State.lensLost
  dsimp only
  rw [State.fault_ldu]
  exact aborted

theorem Ldu.InRange.judgeLink (h : s.ldu.InRange) (reply : Option LensReply) : (s.judgeLink reply).ldu.InRange := by
  have missed (n : Nat) : (s.setLdu { s.ldu with missing := n }).ldu.InRange := h
  unfold State.judgeLink
  dsimp only
  split
  · split
    · exact h.lensAttach _
    · exact h
  · exact h
  · split
    · exact h.lensAttach _
    · exact h.lensDetach
  · exact h
  · split
    · exact missed 0
    · exact (missed 0).lensDetach
  · split
    · exact missed _
    · exact (missed _).lensLost

/-- A reply shows a zoom position (R42). -/
theorem zoom_viewOf (r : LensReply) : 0 ≤ (viewOf r).zoom ∧ (viewOf r).zoom ≤ 4095 := by
  show 0 ≤ clampInt 0 4095 r.zoom ∧ clampInt 0 4095 r.zoom ≤ 4095
  unfold clampInt
  split
  · decide
  · split <;> omega

theorem Ldu.InRange.takeReply (h : s.ldu.InRange) (r : LensReply) (entering : Bool) :
    (s.takeReply (viewOf r) entering).ldu.InRange :=
  Ldu.InRange.drives (s := s.setLdu { s.ldu with view := viewOf r }) ⟨h.1, zoom_viewOf r⟩
    (s.takeReply_drives (viewOf r) entering)

theorem Ldu.InRange.endUpdate (h : s.ldu.InRange) : s.endUpdate.ldu.InRange := h

theorem Ldu.InRange.lensUpdate (h : s.ldu.InRange) : s.lensUpdate.ldu.InRange := by
  unfold State.lensUpdate
  extract_lets reply s1 s2 s3 s4 s5
  have judged : s2.ldu.InRange := by
    unfold s2
    split
    · exact (h.judgeLink _).takeReply ..
    · exact h.judgeLink _
  have advanced : s4.ldu.InRange :=
    judged.drives (b := false) ((((Drives.refl s2).advanceAxis .zoom).advanceAxis .focus).advanceAxis .iris).advanceShot
  exact advanced.endUpdate

/-! ## The resets and Safe Stop -/

theorem Ldu.InRange.softReset : s.softReset.ldu.InRange := Ldu.inRange_reset

theorem Ldu.InRange.startStop (h : s.ldu.InRange) (q : StopSource) : (s.startStop q).ldu.InRange := by
  unfold State.startStop
  extract_lets newest stop s1 s2
  have closed : ((s1.stopClose newest .a).stopClose newest .b).ldu = s.ldu := by simp [s1]
  have stopped : s2.ldu.InRange := (h.frame closed).drives (b := false) (Drives.refl _).stopLens
  exact stopped

theorem Ldu.InRange.takeStop (h : s.ldu.InRange) (q : StopSource) : (s.takeStop q).ldu.InRange := by
  unfold State.takeStop
  split
  · exact h
  · exact h.startStop q

/-- What every step of a fold keeps, the fold keeps. -/
theorem Ldu.InRange.foldl {α : Type} {f : State → α → State}
    (step : ∀ {s} (a : α), s.ldu.InRange → (f s a).ldu.InRange) (l : List α) {s : State} (h : s.ldu.InRange) :
    (l.foldl f s).ldu.InRange := by
  induction l generalizing s with
  | nil => exact h
  | cons a l ih => exact ih (step a h)

theorem Ldu.InRange.takeStops (h : s.ldu.InRange) : s.takeStops.ldu.InRange :=
  Ldu.InRange.foldl (fun q h => h.takeStop q) s.stop.requests
    (s := { s with stop := { s.stop with requests := [] } }) h

theorem Ldu.InRange.judgeStop (h : s.ldu.InRange) : s.judgeStop.ldu.InRange := by
  unfold State.judgeStop
  dsimp only
  split
  · split
    · exact .softReset
    · exact h
  · exact h

theorem Ldu.InRange.work (h : s.ldu.InRange) : s.work.ldu.InRange := h.frame s.work_ldu

theorem Ldu.InRange.settleLoop (h : s.ldu.InRange) (n : Nat) : (State.settleLoop n s).ldu.InRange := by
  induction n generalizing s with
  | zero => exact h.takeStops
  | succ n ih =>
    unfold State.settleLoop
    dsimp only
    split
    · exact h.takeStops.work
    · exact ih h.takeStops.work

theorem Ldu.InRange.settle (h : s.ldu.InRange) : s.settle.ldu.InRange := (h.settleLoop 64).judgeStop

theorem Ldu.InRange.serve (h : s.ldu.InRange) : s.serve.ldu.InRange := by
  unfold State.serve
  split
  · exact h
  · exact h.settle

theorem Ldu.InRange.serveReset (h : s.ldu.InRange) : s.serveReset.ldu.InRange := by
  unfold State.serveReset
  split
  · exact Ldu.InRange.settle h
  · exact .softReset

theorem Ldu.InRange.requestReset (h : s.ldu.InRange) : s.requestReset.ldu.InRange := by
  unfold State.requestReset
  split
  · exact h
  · split
    · exact h
    · exact h.serveReset
  · exact .softReset

theorem Ldu.InRange.serveWaiting (h : s.ldu.InRange) : s.serveWaiting.ldu.InRange := by
  unfold State.serveWaiting
  split
  · exact h.serveReset
  · exact h

/-! ## The sheets, the registers and the start-up -/

theorem Ldu.InRange.sheetDone (h : s.ldu.InRange) (j : SheetJob) : (s.sheetDone j).ldu.InRange :=
  (Ldu.InRange.serve (s := s.returnSheet j) (by simpa using h)).serveWaiting.frame (by simp [State.sheetDone])

theorem Ldu.InRange.reportDone (h : s.ldu.InRange) (q : ReportJob) : (s.reportDone q).ldu.InRange :=
  (Ldu.InRange.serve (s := s.endReport q) (by simpa using h)).serveWaiting.frame (by simp [State.reportDone])

theorem Ldu.InRange.writePartControl (h : s.ldu.InRange) (v : Word) : (s.writePartControl v).ldu.InRange := by
  have written : (s.controlWritten v).ldu.InRange := h
  rw [State.writePartControl_eq]
  split
  · exact written.requestReset.frame (State.judgeSlots_ldu ..)
  · exact written

theorem Ldu.InRange.writeRegister (h : s.ldu.InRange) (q : Register) (v : Word) :
    (s.writeRegister q v).ldu.InRange := by
  cases q with
  | partBase => exact h.frame (s.writePartBase_ldu v)
  | partControl => exact h.writePartControl v
  | partStatus => exact h
  | attention => exact h.frame (s.writeAttention_ldu v)

theorem Ldu.InRange.enterRunning (h : s.ldu.InRange) (d : Directory) : (s.enterRunning d).ldu.InRange := by
  unfold State.enterRunning
  rw [State.readDetect_ldu, State.readDetect_ldu]
  exact h

theorem Ldu.InRange.directoryChecked (h : s.ldu.InRange) : s.directoryChecked.ldu.InRange := by
  unfold State.directoryChecked
  split
  · exact h
  · exact h.frame (State.busFault_ldu ..)
  · exact h.enterRunning _

/-! ## The frame starts (R23, R28 to R31) -/

/-- A frame start passes the lens drive, which keeps a copy of its part. -/
theorem Ldu.InRange.makeFrameStart (h : s.ldu.InRange) : s.makeFrameStart.ldu.InRange := by
  unfold State.makeFrameStart
  dsimp only
  split
  · rw [State.discardRetained_ldu]
    exact h
  · exact h

theorem Ldu.InRange.pulseFrame (h : s.ldu.InRange) : s.pulseFrame.ldu.InRange := h.makeFrameStart

theorem Ldu.InRange.flywheelExpires (h : s.ldu.InRange) : s.flywheelExpires.ldu.InRange := by
  unfold State.flywheelExpires
  split
  · exact Ldu.InRange.frame (Ldu.InRange.makeFrameStart (s := s.setFtu { s.ftu with holdover := true }) h)
      (State.fault_ldu ..)
  · dsimp only
    split <;> exact h.makeFrameStart
  · exact h.makeFrameStart

theorem Ldu.InRange.lockAt (h : s.ldu.InRange) : s.lockAt.ldu.InRange := by
  unfold State.lockAt
  dsimp only
  split
  · exact Ldu.InRange.pulseFrame h
  · exact h

theorem Ldu.InRange.earlyPulse (h : s.ldu.InRange) : s.earlyPulse.ldu.InRange := by
  unfold State.earlyPulse
  dsimp only
  rw [State.fault_ldu]
  split
  · exact h
  · exact h.pulseFrame

theorem Ldu.InRange.pulse (h : s.ldu.InRange) : s.pulse.ldu.InRange := by
  have noted (n : Nat) : (s.notePulse n).ldu.InRange := h
  unfold State.pulse
  dsimp only
  split
  · exact h
  · split
    · split
      · exact noted _
      · exact (noted _).lockAt
    · exact noted 1
  · split
    · exact (noted _).pulseFrame
    · exact (noted _).earlyPulse

end

end Sys2Proof.Machine
end

