-- ==== Sys2Proof/Proofs/ScaleOrders.lean ====
section
/-! PROOFS. What each order decides keeps the scale table and the zoom actual in range. -/

namespace Sys2Proof.Machine

/-! ## Operations of the orders that leave the lens drive -/

@[simp] theorem State.openNeeded_ldu (s : State) (id : Word) (first : FrameNo) (tag : Nat) (x : SlotId) :
    (s.openNeeded id first tag x).ldu = s.ldu := by
  unfold State.openNeeded
  split <;> simp

@[simp] theorem State.openOrdered_ldu (s : State) (tag : Nat) (id cont : Word) :
    (s.openOrdered tag id cont).ldu = s.ldu := by simp [State.openOrdered]

@[simp] theorem State.closeOrdered_ldu (s : State) (tag : Nat) (newest : Option FrameNo) (x : SlotId) :
    (s.closeOrdered tag newest x).ldu = s.ldu := by
  unfold State.closeOrdered
  split <;> simp

@[simp] theorem State.endWord_ldu (s : State) : s.endWord.2.ldu = s.ldu := by
  unfold State.endWord
  split <;> rfl

@[simp] theorem State.closeAll_ldu (s : State) (tag : Nat) : (s.closeAll tag).ldu = s.ldu := by
  simp [State.closeAll]

@[simp] theorem State.clearPlaces_ldu (s : State) (l : List UsedPlace) : (s.clearPlaces l).1.ldu = s.ldu := by
  induction l generalizing s with
  | nil => rfl
  | cons p l ih =>
    unfold State.clearPlaces
    dsimp only
    split <;> simp [ih]

@[simp] theorem State.setRoute_ldu (s : State) (k : FaultKind) (x : Route) (m : Option Mapping) :
    (s.setRoute k x m).ldu = s.ldu := rfl

@[simp] theorem State.setPreRecord_ldu (s : State) (on : Bool) (n : Nat) : (s.setPreRecord on n).ldu = s.ldu := by
  unfold State.setPreRecord
  dsimp only
  split <;> simp

@[simp] theorem State.grant_ldu (s : State) (x : SlotId) (g : Extent) : (s.grant x g).ldu = s.ldu := by
  simp [State.grant]

@[simp] theorem State.releaseSlot_ldu (s : State) (x : SlotId) : (s.releaseSlot x).ldu = s.ldu := by
  simp [State.releaseSlot]

@[simp] theorem State.beginScan_ldu (s : State) (x : SlotId) (tag : Nat) (g : Nat × Nat) :
    (s.beginScan x tag g).ldu = s.ldu := by simp [State.beginScan]

@[simp] theorem State.releaseTag_ldu (s : State) (n : Nat) : (s.releaseTag n).ldu = s.ldu := by
  simp [State.releaseTag]

/-! ## Decisions -/

section
variable {s : State}

/-- What a decision carries out or answers keeps the ranges, from every state. -/
def Decision.InRange : Decision → Prop
  | .refuse _ => True
  | .carry _ run => ∀ s, s.ldu.InRange → (run s).ldu.InRange
  | .answer _ run => ∀ s, s.ldu.InRange → (run s).ldu.InRange

theorem Decision.inRange_refuse (r : Result) : (Decision.refuse r).InRange := trivial

theorem Decision.inRange_ite {c : Prop} [Decidable c] {d e : Decision} (hd : d.InRange) (he : e.InRange) :
    (if c then d else e).InRange := by
  split
  · exact hd
  · exact he

/-- What leaves the lens drive keeps them. -/
theorem Decision.inRange_carry {clamped : Bool} {run : State → State} (same : ∀ s, (run s).ldu = s.ldu) :
    (Decision.carry clamped run).InRange := fun s h => h.frame (same s)

theorem Decision.inRange_answer {r : Result} {run : State → State} (same : ∀ s, (run s).ldu = s.ldu) :
    (Decision.answer r run).InRange := fun s h => h.frame (same s)

/-- So does what drives the axes. -/
theorem Decision.inRange_drives {clamped : Bool} {run : State → State} (drives : ∀ s, Drives false s (run s)) :
    (Decision.carry clamped run).InRange := fun s h => h.drives (drives s)

theorem Decision.inRange_whenOnline {d : Decision} (h : d.InRange) : (s.whenOnline d).InRange :=
  inRange_ite h trivial

theorem Ldu.InRange.applyDecision {d : Decision} (kept : d.InRange) (h : s.ldu.InRange) (kind tag : Byte) :
    (s.applyDecision kind tag d).ldu.InRange := by
  cases d with
  | refuse r => exact h
  | carry clamped run => exact kept _ (h.frame (State.acceptTag_ldu ..))
  | answer r run => exact kept _ h

/-- An order's entry is dispatched. -/
theorem Ldu.InRange.takeOrder {decide : State → Decision} (kept : (decide s).InRange) (h : s.ldu.InRange)
    (c : TagClass) (kind tag : Byte) (params : List Byte) :
    (s.takeOrder c kind tag params decide).ldu.InRange := by
  unfold State.takeOrder
  split
  · split
    · exact h
    · exact (h.applyDecision kept kind tag).serve.frame (State.judgeSlots_ldu ..)
  · exact h

/-! ## The orders of the lens drive (R46 to R65) -/

theorem Drives.cancelByOrder (s : State) : Drives false s s.cancelByOrder :=
  (Drives.refl s).cancelShot ((Drives.refl s).endSequenceTag ..)

theorem Drives.orderMove (s : State) (x : AxisId) (m : Move) (tag : Nat) : Drives false s (s.orderMove x m tag) := by
  have claimed : Drives false s (s.cancelByOrder.claimFor x) := by
    rw [State.claimFor_eq]
    refine (Drives.cancelByOrder s).sets ?_
    cases x <;> rfl
  exact (claimed.endAxisTag ..).beginMove ..

theorem inRange_decideAxisOrder (x : AxisId) (tag : Byte) (clamped : Bool) (m : Ldu → Move) :
    (decideAxisOrder x tag clamped m s).InRange := by
  refine Decision.inRange_whenOnline ?_
  split
  · exact Decision.inRange_refuse _
  · exact Decision.inRange_drives fun _ => Drives.orderMove ..

theorem inRange_decidePosition (x : AxisId) (tag : Byte) (target cap : Half) :
    (decidePosition x tag target cap s).InRange := by
  unfold decidePosition
  exact inRange_decideAxisOrder ..

theorem inRange_decideZoomRate (tag : Byte) (rate : Half) : (decideZoomRate tag rate s).InRange := by
  unfold decideZoomRate
  exact inRange_decideAxisOrder ..

theorem inRange_decideZoomStop : (decideZoomStop s).InRange := by
  refine Decision.inRange_whenOnline (Decision.inRange_ite trivial (Decision.inRange_ite (fun _ h => h) ?_))
  exact Decision.inRange_drives fun s => (Drives.cancelByOrder s).sets rfl

theorem inRange_decideZoomClaim (lockout : Byte) : (decideZoomClaim lockout s).InRange := by
  refine Decision.inRange_ite (fun _ h => h) (Decision.inRange_ite (fun s h => ?_) trivial)
  have kept : s.ldu.lockGrip.scale = s.ldu.scale ∧ s.ldu.lockGrip.view = s.ldu.view := by
    unfold Ldu.lockGrip
    split <;> exact ⟨rfl, rfl⟩
  unfold Ldu.InRange
  rw [State.setLdu_ldu, kept.1, kept.2]
  exact h

theorem inRange_decideLensConfig (hard soft : Byte) (window time : Half) :
    (decideLensConfig hard soft window time s).InRange := fun _ h => h

/-- A scale table is loaded with its points in their range (R60). -/
theorem inRange_loadTable {k : TableKind} {table : Byte} (kind : tableKind table = some k) {b : List Byte}
    (passes : firstOffending k.lo k.hi k.rising 0 0 (tablePoints k b) = none) {l : Ldu} (h : l.InRange) :
    (l.loadTable k (tablePoints k b)).InRange := by
  unfold Ldu.loadTable
  split
  next scale =>
    have known : k = .scale ∨ k = .tracking := by
      unfold tableKind at kind
      split at kind
      · exact .inl (Option.some.inj kind).symm
      · split at kind
        · exact .inr (Option.some.inj kind).symm
        · cases kind
    obtain rfl | rfl := known
    · refine ⟨fun _ => ⟨?_, within_of_firstOffending_none passes⟩, h.2⟩
      rw [tablePoints_scale]
      simp
    · cases scale
  next => exact h

theorem inRange_decideLoadLensTable (table : Byte) (address : Word) :
    (decideLoadLensTable table address s).InRange := by
  refine Decision.inRange_whenOnline ?_
  split
  · exact Decision.inRange_refuse _
  next kind =>
    refine Decision.inRange_ite trivial ?_
    split
    · exact Decision.inRange_answer fun _ => State.busFault_ldu ..
    · split
      · exact Decision.inRange_answer fun _ => State.fault_ldu ..
      next passes => exact fun _ h => inRange_loadTable kind passes h

theorem inRange_decideTrackingOn : (decideTrackingOn s).InRange := by
  refine Decision.inRange_whenOnline (Decision.inRange_ite trivial fun s h => ?_)
  have kept : s.ldu.trackOn.scale = s.ldu.scale ∧ s.ldu.trackOn.view = s.ldu.view := by
    unfold Ldu.trackOn
    split <;> exact ⟨rfl, rfl⟩
  unfold Ldu.InRange
  rw [State.setLdu_ldu, kept.1, kept.2]
  exact h

theorem inRange_decideTrackingOff : (decideTrackingOff s).InRange :=
  Decision.inRange_ite trivial fun s h =>
    have unbased : s.ldu.unbase.InRange := h.of_settings (Ldu.settings_unbase _)
    unbased

theorem inRange_decideAxisRecover (axis : Byte) : (decideAxisRecover axis s).InRange := by
  refine Decision.inRange_whenOnline ?_
  split
  · exact Decision.inRange_refuse _
  next x _ =>
    refine Decision.inRange_ite (Decision.inRange_drives fun s => ?_) trivial
    unfold State.recoverAxis
    dsimp only
    refine (Drives.refl s).sets ?_
    split
    · rw [Ldu.settings_rebase, Ldu.settings_setAxis]
    · exact Ldu.settings_setAxis ..

theorem inRange_decideShotStore (shot source : Byte) (zoom focus iris travel dwell : Half) :
    (decideShotStore shot source zoom focus iris travel dwell s).InRange :=
  Decision.inRange_ite (fun _ h => h) <|
    Decision.inRange_ite (Decision.inRange_whenOnline fun _ h => h) trivial

theorem inRange_decideShotMode (mode count policy : Byte) : (decideShotMode mode count policy s).InRange := by
  unfold decideShotMode
  split
  · exact Decision.inRange_ite trivial fun _ h => h
  · exact Decision.inRange_refuse _

theorem inRange_decideShotTrigger (tag : Byte) : (decideShotTrigger tag s).InRange := by
  refine Decision.inRange_whenOnline ?_
  split
  · exact Decision.inRange_refuse _
  · exact Decision.inRange_refuse _
  · exact fun _ h => h
  · exact Decision.inRange_drives fun s => (Drives.refl s).trigger ..

end

end Sys2Proof.Machine
end

