-- ==== Sys2Proof/Proofs/ScaleCommands.lean ====
section
/-! PROOFS. Every command keeps the scale table and the zoom actual in range: the orders of the other blocks leave the
lens drive, and each event is one of the operations above. -/

namespace Sys2Proof.Machine

section
variable {s : State}

open Decision (inRange_refuse inRange_carry inRange_answer inRange_ite)

/-! ## The orders of the other blocks -/

theorem inRange_decideChannel (channel : Byte) (clamped : Bool) (f : ChannelSet → ChannelSet) :
    (decideChannel channel clamped f).InRange := inRange_ite trivial (inRange_carry fun _ => rfl)

theorem inRange_decideAudioSource (channel source : Byte) : (decideAudioSource channel source s).InRange := by
  unfold decideAudioSource
  split
  · exact inRange_refuse _
  · exact inRange_decideChannel ..

theorem inRange_decideToneLevel (level : Byte) : (decideToneLevel level s).InRange :=
  inRange_ite trivial (inRange_carry fun _ => rfl)

theorem inRange_decideGrantExtent (slot : Byte) (start count : Word) (final : Byte) :
    (decideGrantExtent slot start count final s).InRange := by
  unfold decideGrantExtent
  split
  · exact inRange_ite trivial <| inRange_ite trivial <| inRange_ite trivial <| inRange_ite trivial <|
      inRange_ite trivial <| inRange_carry fun s => by simp
  · exact inRange_refuse _

theorem inRange_decideRecordMode (mode slot : Byte) : (decideRecordMode mode slot s).InRange := by
  unfold decideRecordMode
  split
  · exact inRange_refuse _
  · exact inRange_ite trivial (inRange_carry fun _ => rfl)

theorem inRange_decideClipOpen (tag : Byte) (clipId contId : Word) : (decideClipOpen tag clipId contId s).InRange :=
  inRange_ite trivial <| inRange_ite trivial <| inRange_ite trivial <| inRange_ite trivial <|
    inRange_ite trivial <| inRange_carry fun s => s.openOrdered_ldu ..

theorem inRange_decideClipClose (tag : Byte) : (decideClipClose tag s).InRange :=
  inRange_ite (inRange_carry fun s => s.closeAll_ldu _) trivial

theorem inRange_decideSlotRelease (slot : Byte) : (decideSlotRelease slot s).InRange := by
  unfold decideSlotRelease
  split
  · exact inRange_refuse _
  · exact inRange_ite (inRange_carry fun s => by simp) trivial

theorem inRange_decideScanExtent (tag slot : Byte) (start count : Word) :
    (decideScanExtent tag slot start count s).InRange := by
  unfold decideScanExtent
  split
  · exact inRange_refuse _
  · exact inRange_ite trivial (inRange_carry fun s => by simp)

theorem inRange_decideClearFaults (places : List ClearPlace) : (decideClearFaults places s).InRange := by
  unfold decideClearFaults
  split
  · exact inRange_refuse _
  · exact inRange_answer fun s => s.clearPlaces_ldu _

theorem inRange_decideSetFaultRoute (kind route mapping priority text : Byte) :
    (decideSetFaultRoute kind route mapping priority text s).InRange := by
  unfold decideSetFaultRoute
  split
  · split
    · exact inRange_refuse _
    · exact inRange_ite (inRange_carry fun _ => rfl) (inRange_ite (inRange_carry fun _ => rfl) trivial)
  · exact inRange_refuse _

theorem inRange_decideGuardArm (limit : Byte) : (decideGuardArm limit s).InRange :=
  inRange_ite (inRange_carry fun _ => rfl) trivial

theorem inRange_decideGuardDisarm : (decideGuardDisarm s).InRange := inRange_ite (inRange_carry fun _ => rfl) trivial

theorem inRange_decideSafeStop : (decideSafeStop s).InRange := inRange_carry fun _ => rfl

theorem inRange_decideSafeStopEnable : (decideSafeStopEnable s).InRange := inRange_carry fun _ => rfl

theorem inRange_decideStabMode (mode : Byte) : (decideStabMode mode s).InRange := by
  refine inRange_ite (inRange_carry fun s => ?_) (inRange_ite (inRange_carry fun s => ?_) trivial) <;>
    split <;> rfl

theorem inRange_decideStabRecenter : (decideStabRecenter s).InRange := inRange_carry fun _ => rfl

theorem inRange_decideStabConfig (marginX : Half) (marginY : Byte) (still : Half) (shift : Byte) (enter exit : Half) :
    (decideStabConfig marginX marginY still shift enter exit s).InRange :=
  inRange_ite trivial (inRange_carry fun _ => rfl)

theorem inRange_decideStreamConfig (delay : Byte) : (decideStreamConfig delay s).InRange :=
  inRange_ite trivial (inRange_carry fun _ => rfl)

theorem inRange_decidePreRecord (code : Byte) (count : Half) : (decidePreRecord code count s).InRange :=
  inRange_ite (inRange_carry fun s => s.setPreRecord_ldu ..) <|
    inRange_ite (inRange_ite trivial (inRange_carry fun s => s.setPreRecord_ldu ..)) trivial

theorem inRange_decideSetFormat (rate drop : Byte) : (decideSetFormat rate drop s).InRange := by
  refine inRange_ite trivial ?_
  split
  · exact inRange_refuse _
  · exact inRange_ite (inRange_carry fun _ => rfl) (inRange_ite (inRange_carry fun _ => rfl) trivial)

theorem inRange_decideSetRefPolicy (policy : Byte) : (decideSetRefPolicy policy s).InRange := by
  unfold decideSetRefPolicy
  split
  · exact inRange_refuse _
  · exact inRange_carry fun _ => rfl

theorem inRange_decideSetTcMode (mode : Byte) : (decideSetTcMode mode s).InRange := by
  unfold decideSetTcMode
  split
  · exact inRange_refuse _
  · exact inRange_ite trivial (inRange_carry fun _ => rfl)

theorem inRange_decideSetTimecode (hours minutes seconds frames : Byte) :
    (decideSetTimecode hours minutes seconds frames s).InRange := inRange_ite trivial (inRange_carry fun _ => rfl)

theorem inRange_decideVfItem (index enable row column width blink inverse colour kind p1 p2 : Byte) :
    (decideVfItem index enable row column width blink inverse colour kind p1 p2 s).InRange := by
  unfold decideVfItem
  split
  · exact inRange_carry fun _ => rfl
  · exact inRange_refuse _

theorem inRange_decideVfText (first count : Byte) (address : Word) : (decideVfText first count address s).InRange := by
  refine inRange_ite trivial ?_
  dsimp only
  split
  · exact inRange_answer fun _ => State.busFault_ldu ..
  · exact inRange_carry fun _ => rfl

theorem inRange_decidePost (code priority text life : Nat) (clamped : Bool) (v : Vfl) :
    (decidePost code priority text life clamped v).InRange :=
  inRange_ite (inRange_carry fun _ => rfl) (inRange_ite (inRange_carry fun _ => rfl) trivial)

theorem inRange_decideVfWarning (action code priority text : Byte) (life : Half) :
    (decideVfWarning action code priority text life s).InRange :=
  inRange_ite trivial <| inRange_ite (inRange_decidePost ..) <| inRange_ite (inRange_carry fun _ => rfl) trivial

theorem inRange_decideVfTally (output setting : Byte) : (decideVfTally output setting s).InRange := by
  refine inRange_ite trivial ?_
  split
  · exact inRange_refuse _
  · exact inRange_carry fun _ => rfl

theorem inRange_decideReleaseTag (number : Byte) : (decideReleaseTag number s).InRange :=
  inRange_ite trivial (inRange_ite (inRange_carry fun s => s.releaseTag_ldu _) trivial)

end

/-! ## The events -/

/-- An outcome that goes on goes on in range. -/
def NextInRange (o : Host.Outcome State Fault Refusal) : Prop := ∀ t, o = .next t → t.ldu.InRange

section
variable {s t : State}

theorem NextInRange.next (h : s.ldu.InRange) : NextInRange (.next s) := fun _ same => Host.Outcome.next.inj same ▸ h

/-- A command that may find nothing to do. -/
theorem NextInRange.ite {c : Prop} [Decidable c] {o p : Host.Outcome State Fault Refusal} (ho : NextInRange o)
    (hp : NextInRange p) : NextInRange (if c then o else p) := by
  split
  · exact ho
  · exact hp

/-- A command of another block that ends where it comes to. -/
theorem Ldu.InRange.next (h : s.ldu.InRange) (same : t.ldu = s.ldu) : NextInRange (.next t) := .next (h.frame same)

/-- A command of another block that ends as every event does: the blocks take what it brought, and the slots are
judged. -/
theorem Ldu.InRange.settled (h : s.ldu.InRange) (same : t.ldu = s.ldu) (u : State) :
    NextInRange (.next (t.settle.judgeSlots u)) := .next ((h.frame same).settle.frame (State.judgeSlots_ldu ..))

theorem Ldu.InRange.served (h : s.ldu.InRange) (same : t.ldu = s.ldu) (u : State) :
    NextInRange (.next (t.serve.judgeSlots u)) := .next ((h.frame same).serve.frame (State.judgeSlots_ldu ..))

theorem Ldu.InRange.order (h : s.ldu.InRange) (e : Env) (c : TagClass) (kind tag : Byte) (params : List Byte)
    {decide : State → Decision} (kept : (decide (s.arrive e)).InRange) :
    NextInRange (.next ((s.arrive e).takeOrder c kind tag params decide)) :=
  .next (Ldu.InRange.takeOrder kept h c kind tag params)

theorem Ldu.InRange.partControl (h : s.ldu.InRange) (e : Env) (v : Word) :
    NextInRange (.next ((s.arrive e).writePartControl v)) := .next (Ldu.InRange.writePartControl (s := s.arrive e) h v)

@[simp] theorem State.setDetect_ldu (s : State) (x : SlotId) (level : Bool) : (s.setDetect x level).ldu = s.ldu := by
  simp [State.setDetect]

theorem Ldu.InRange.directoryCheckDone (h : s.ldu.InRange) (e : Env) : NextInRange (execDirectoryCheckDone e s) := by
  refine .next ?_
  split
  · exact (Ldu.InRange.directoryChecked (s := s.arrive e) h).serve.frame (State.judgeSlots_ldu ..)
  · exact h

theorem Ldu.InRange.flywheelExpiry (h : s.ldu.InRange) (e : Env) : NextInRange (execFlywheelExpiry e s) := by
  unfold execFlywheelExpiry
  dsimp only
  split
  · exact h.next rfl
  · exact Ldu.InRange.served (Ldu.InRange.flywheelExpires (s := (s.arrive e).expireAt _) h) rfl _

theorem Ldu.InRange.shcFrameStart (h : s.ldu.InRange) (e : Env) : NextInRange (execShcFrameStart e s) := by
  unfold execShcFrameStart
  dsimp only
  split
  · exact h.next rfl
  · exact h.served (by simp) _

theorem Ldu.InRange.sheetReturned (h : s.ldu.InRange) (e : Env) : NextInRange (execSheetReturned e s) := by
  unfold execSheetReturned
  dsimp only
  split
  · exact h.next rfl
  · exact .ite (Ldu.InRange.served (Ldu.InRange.sheetDone (s := s.arrive e) h _) rfl _) (h.next rfl)

theorem Ldu.InRange.reportWriteDone (h : s.ldu.InRange) (e : Env) (slot : BitVec 1) :
    NextInRange (execReportWriteDone e slot s) := by
  unfold execReportWriteDone
  dsimp only
  split
  · exact h.next rfl
  · exact .ite (Ldu.InRange.served (Ldu.InRange.reportDone (s := s.arrive e) h _) rfl _) (h.next rfl)

theorem Ldu.InRange.lensUpdated (h : s.ldu.InRange) (e : Env) : NextInRange (execLensUpdate e s) := by
  unfold execLensUpdate
  dsimp only
  split
  · exact h.next rfl
  · exact Ldu.InRange.served (Ldu.InRange.lensUpdate (s := (s.arrive e).expireAt _) h) rfl _

theorem Ldu.InRange.lossTimerExpiry (h : s.ldu.InRange) (e : Env) : NextInRange (execLossTimerExpiry e s) := by
  unfold execLossTimerExpiry
  dsimp only
  split
  · exact h.next rfl
  · exact h.served (by simp) _

theorem Ldu.InRange.mstFrameStart (h : s.ldu.InRange) (e : Env) : NextInRange (execMstFrameStart e s) := by
  unfold execMstFrameStart
  dsimp only
  split
  · exact h.next rfl
  · exact h.next rfl

theorem Ldu.InRange.audioClockExpiry (h : s.ldu.InRange) (e : Env) : NextInRange (execAudioClockExpiry e s) := by
  unfold execAudioClockExpiry
  dsimp only
  split
  · exact h.next rfl
  · exact h.served (by simp) _

theorem Ldu.InRange.acuFrameStart (h : s.ldu.InRange) (e : Env) : NextInRange (execAcuFrameStart e s) := by
  unfold execAcuFrameStart
  dsimp only
  split
  · exact h.next rfl
  · exact h.settled (by simp) _

theorem Ldu.InRange.stagingWriteDone (h : s.ldu.InRange) (e : Env) : NextInRange (execStagingWriteDone e s) := by
  unfold execStagingWriteDone
  dsimp only
  split
  · exact h.next rfl
  · exact h.settled (by simp) _

theorem Ldu.InRange.staFrameStart (h : s.ldu.InRange) (e : Env) : NextInRange (execStaFrameStart e s) := by
  unfold execStaFrameStart
  dsimp only
  split
  · exact h.next rfl
  · exact h.settled (by simp) _

theorem Ldu.InRange.groupCopyDone (h : s.ldu.InRange) (e : Env) : NextInRange (execGroupCopyDone e s) := by
  unfold execGroupCopyDone
  dsimp only
  split
  · exact h.next rfl
  · exact h.settled (by simp) _

theorem Ldu.InRange.groupCopyBusError (h : s.ldu.InRange) (e : Env) (site : CopySite) (a : Word) :
    NextInRange (execGroupCopyBusError e site a s) := by
  unfold execGroupCopyBusError
  dsimp only
  split
  · exact h.next rfl
  · exact .ite (h.settled (by simp) _) (h.next rfl)

theorem Ldu.InRange.cardCommandTimeout (h : s.ldu.InRange) (e : Env) (x : SlotId) :
    NextInRange (execCardCommandTimeout e x s) := by
  unfold execCardCommandTimeout
  dsimp only
  split
  · exact h.settled (by simp) _
  · exact h.next rfl

theorem Ldu.InRange.vflFrameStart (h : s.ldu.InRange) (e : Env) : NextInRange (execVflFrameStart e s) := by
  unfold execVflFrameStart
  dsimp only
  split
  · exact h.next rfl
  · exact .ite (h.next rfl) (h.next rfl)

theorem Ldu.InRange.exec (h : s.ldu.InRange) (c : Instr) : NextInRange (exec c s) :=
  match c with
  | .powerOnReset _ => .next Ldu.inRange_reset
  | .partBaseWrite e v => h.next (by simp)
  | .runSet e _ => h.partControl e _
  | .runClear e _ => h.partControl e _
  | .softReset e _ => h.partControl e _
  | .attentionEnableWrite e _ => h.partControl e _
  | .reportClear e _ => h.next (by simp)
  | .safeClear e _ => h.next (by simp)
  | .ignoredRegisterWrite e q v => .next (Ldu.InRange.writeRegister (s := s.arrive e) h q v)
  | .directoryCheckDone e => h.directoryCheckDone e
  | .flywheelExpiry e => h.flywheelExpiry e
  | .framePulse e => .ite (Ldu.InRange.served (Ldu.InRange.pulse (s := s.arrive e) h) rfl _) (h.next rfl)
  | .shcFrameStart e => h.shcFrameStart e
  | .sheetReturned e => h.sheetReturned e
  | .reportWriteDone e slot => h.reportWriteDone e slot
  | .releaseTag e _ n => h.order e _ _ _ _ (inRange_decideReleaseTag n)
  | .setFormat e _ rate drop => h.order e _ _ _ _ (inRange_decideSetFormat rate drop)
  | .setRefPolicy e _ policy => h.order e _ _ _ _ (inRange_decideSetRefPolicy policy)
  | .setTcMode e _ mode => h.order e _ _ _ _ (inRange_decideSetTcMode mode)
  | .setTimecode e _ hours m sec f => h.order e _ _ _ _ (inRange_decideSetTimecode hours m sec f)
  | .lensUpdate e => h.lensUpdated e
  | .lensReply e _ => .ite (.next h) (h.next rfl)
  | .zoomRate e tag rate => h.order e _ _ _ _ (inRange_decideZoomRate tag rate)
  | .zoomTo e tag target cap => h.order e _ _ _ _ (inRange_decidePosition .zoom tag target cap)
  | .focusTo e tag target cap => h.order e _ _ _ _ (inRange_decidePosition .focus tag target cap)
  | .irisTo e tag target cap => h.order e _ _ _ _ (inRange_decidePosition .iris tag target cap)
  | .zoomStop e _ => h.order e _ _ _ _ inRange_decideZoomStop
  | .zoomClaim e _ lockout => h.order e _ _ _ _ (inRange_decideZoomClaim lockout)
  | .lensConfig e _ hard soft window time => h.order e _ _ _ _ (inRange_decideLensConfig hard soft window time)
  | .loadLensTable e _ table address => h.order e _ _ _ _ (inRange_decideLoadLensTable table address)
  | .trackingOn e _ => h.order e _ _ _ _ inRange_decideTrackingOn
  | .trackingOff e _ => h.order e _ _ _ _ inRange_decideTrackingOff
  | .axisRecover e _ axis => h.order e _ _ _ _ (inRange_decideAxisRecover axis)
  | .shotStore e _ shot source z f i t d => h.order e _ _ _ _ (inRange_decideShotStore shot source z f i t d)
  | .shotMode e _ mode count policy => h.order e _ _ _ _ (inRange_decideShotMode mode count policy)
  | .shotTrigger e tag => h.order e _ _ _ _ (inRange_decideShotTrigger tag)
  | .gyroSample e _ _ => .ite (h.served (by simp) _) (h.next rfl)
  | .lossTimerExpiry e => h.lossTimerExpiry e
  | .mstFrameStart e => h.mstFrameStart e
  | .stabMode e _ mode => h.order e _ _ _ _ (inRange_decideStabMode mode)
  | .stabRecenter e _ => h.order e _ _ _ _ inRange_decideStabRecenter
  | .stabConfig e _ mx my still shift enter exit =>
    h.order e _ _ _ _ (inRange_decideStabConfig mx my still shift enter exit)
  | .audioSet e _ _ _ _ => .ite (h.served (by simp) _) (h.next rfl)
  | .audioClockExpiry e => h.audioClockExpiry e
  | .acuFrameStart e => h.acuFrameStart e
  | .stagingWriteDone e => h.stagingWriteDone e
  | .audioSource e _ channel source => h.order e _ _ _ _ (inRange_decideAudioSource channel source)
  | .audioGain e _ channel _ => h.order e _ _ _ _ (inRange_decideChannel channel _ _)
  | .audioLimiter e _ channel _ _ => h.order e _ _ _ _ (inRange_decideChannel channel _ _)
  | .toneLevel e _ level => h.order e _ _ _ _ (inRange_decideToneLevel level)
  | .staFrameStart e => h.staFrameStart e
  | .groupCopyDone e => h.groupCopyDone e
  | .groupCopyBusError e site a => h.groupCopyBusError e site a
  | .streamConfig e _ delay => h.order e _ _ _ _ (inRange_decideStreamConfig delay)
  | .preRecord e _ code count => h.order e _ _ _ _ (inRange_decidePreRecord code count)
  | .cardInserted e x => .ite (h.settled (by simp) _) (h.next (by simp))
  | .cardRemoved e x => .ite (h.settled (by simp) _) (h.next (by simp))
  | .identifyReply e x a => h.settled (by simp) _
  | .writeReply e x a => h.settled (by simp) _
  | .readReply e x a => h.settled (by simp) _
  | .flushReply e x a => h.settled (by simp) _
  | .cardCommandTimeout e x => h.cardCommandTimeout e x
  | .grantExtent e _ slot start count final =>
    h.order e _ _ _ _ (inRange_decideGrantExtent slot start count final)
  | .recordMode e _ mode slot => h.order e _ _ _ _ (inRange_decideRecordMode mode slot)
  | .clipOpen e tag clipId contId => h.order e _ _ _ _ (inRange_decideClipOpen tag clipId contId)
  | .clipClose e tag => h.order e _ _ _ _ (inRange_decideClipClose tag)
  | .slotRelease e _ slot => h.order e _ _ _ _ (inRange_decideSlotRelease slot)
  | .scanExtent e tag slot start count => h.order e _ _ _ _ (inRange_decideScanExtent tag slot start count)
  | .guardArm e _ limit => h.order e _ _ _ _ (inRange_decideGuardArm limit)
  | .guardDisarm e _ => h.order e _ _ _ _ inRange_decideGuardDisarm
  | .safeStop e _ => h.order e _ _ _ _ inRange_decideSafeStop
  | .safeStopEnable e _ => h.order e _ _ _ _ inRange_decideSafeStopEnable
  | .vfStatus e _ => .ite (h.next rfl) (h.next rfl)
  | .vflFrameStart e => h.vflFrameStart e
  | .vfItem e _ index enable row column width blink inverse colour kind k1 k2 =>
    h.order e _ _ _ _ (inRange_decideVfItem index enable row column width blink inverse colour kind k1 k2)
  | .vfText e _ first count address => h.order e _ _ _ _ (inRange_decideVfText first count address)
  | .vfWarning e _ action code priority text life =>
    h.order e _ _ _ _ (inRange_decideVfWarning action code priority text life)
  | .vfTally e _ output setting => h.order e _ _ _ _ (inRange_decideVfTally output setting)
  | .clearFaults e _ _ _ _ _ _ _ => h.order e _ _ _ _ (inRange_decideClearFaults _)
  | .setFaultRoute e _ kind route mapping priority text =>
    h.order e _ _ _ _ (inRange_decideSetFaultRoute kind route mapping priority text)

/-- Every step keeps a valid scale table and the zoom actual in range. -/
theorem keeps_scaleInRange : Keeps scaleInRange := by
  intro s t h steps
  unfold step at steps
  split at steps
  · exact Host.Outcome.next.inj steps ▸ h
  next c rest _ => exact Ldu.InRange.exec (s := { s with pending := rest }) h c t steps

end

end Sys2Proof.Machine
end

