-- ==== Sys2Proof/Proofs/LensSettings.lean ====
section
/-! PROOFS. O33: LENS_CONFIG, LOAD_LENS_TABLE, tracking and AXIS_RECOVER, and the range of the scale offered. -/

namespace Sys2Proof.Machine

/-! ## The scale offered (R61) -/

/-- A value between two points of a table lies in the range of the points. -/
theorem interpolation_within {lo hi a b r : Int} (ha : lo ≤ a ∧ a ≤ hi) (hb : lo ≤ b ∧ b ≤ hi)
    (low : 0 ≤ r) (high : r < 256) : lo ≤ a + ((b - a) * r + 128) / 256 ∧ a + ((b - a) * r + 128) / 256 ≤ hi := by
  have above : 0 ≤ (a - lo) * (256 - r) + (b - lo) * r :=
    add_nonneg (mul_nonneg (by omega) (by omega)) (mul_nonneg (by omega) low)
  have below : 0 ≤ (hi - a) * (256 - r) + (hi - b) * r :=
    add_nonneg (mul_nonneg (by omega) (by omega)) (mul_nonneg (by omega) low)
  have mixed : (a - lo) * (256 - r) + (b - lo) * r = 256 * (a - lo) + (b - a) * r := by ring
  have mixed' : (hi - a) * (256 - r) + (hi - b) * r = 256 * (hi - a) - (b - a) * r := by ring
  omega

theorem LensTable.value_within {t : LensTable} {lo hi z : Int} (whole : t.points.length = 17)
    (within : ∀ p ∈ t.points, lo ≤ p ∧ p ≤ hi) (low : 0 ≤ z) (high : z ≤ 4095) :
    lo ≤ t.value z ∧ t.value z ≤ hi := by
  have point {i : Nat} (inside : i < 17) : lo ≤ t.points.getD i 0 ∧ t.points.getD i 0 ≤ hi := by
    rw [List.getD_eq_getElem _ _ (whole ▸ inside)]
    exact within _ (List.getElem_mem _)
  exact interpolation_within (point (by omega)) (point (by omega)) (by omega) (by omega)

theorem Ldu.InRange.scaleOffered {l : Ldu} (h : l.InRange) : 500 ≤ l.scaleOffered ∧ l.scaleOffered ≤ 60000 := by
  obtain ⟨table, low, high⟩ := h
  unfold Ldu.scaleOffered
  split
  next valid => exact LensTable.value_within (table valid).1 (table valid).2 low high
  next => decide

/-- Settles O33, order by order; the ranges by what every step keeps. -/
theorem lensSettings : Obligations.LensSettings := by
  refine ⟨⟨?config, ?table⟩, ⟨?on, ?off, ?recover⟩, ?range⟩
  case config =>
    intro e s hard soft window time due
    exact carriedResult_untagged lensConfig_clamped ▸ exec_orderSetsLdu (c := .lensConfig e 0 hard soft window time)
      (decide := decideLensConfig hard soft window time) rfl due rfl rfl
  case table =>
    intro e s table a due u word unsignedPoints signedPoints
    let b := Memory.readAll u.mem a.toNat 68
    have order : exec (.loadLensTable e 0 table a) s =
      .next (u.takeOrder .immediate 0x27 0 (p1 table ++ p4 a) (decideLoadLensTable table a)) := rfl
    refine ⟨fun offline => exec_orderRefused order due (State.whenOnline_offline offline _),
      fun online bad => exec_orderRefused order due (decideLoadLensTable_badParam (s := u) online bad),
      fun bad online known aligned failed asks => ?busError,
      fun online aligned read => ⟨?scaleTable, ?trackingTable, ?offends⟩⟩
    case busError =>
      exact exec_orderAnswered order due (decideLoadLensTable_busError (s := u) online known aligned failed) rfl
        (State.fault_stop (s := u) _ _ _ asks) (State.fault_slotA ..) (State.fault_slotB ..)
    case scaleTable =>
      rintro rfl within rises
      have passes : firstOffending 500 60000 true 0 0 (tablePoints .scale b) = none :=
        firstOffending_scale (i := 17) le_rfl within (fun j h => rises j (by omega)) (fun h => absurd h (by decide))
      have loaded := exec_orderSetsLdu order due
        (decideLoadLensTable_loads (s := u) (k := .scale) online rfl aligned read passes) rfl
      rw [tablePoints_scale] at loaded
      exact loaded
    case trackingTable =>
      rintro rfl within
      have points : tablePoints .tracking b = signedPoints := tablePoints_tracking b
      have passes : firstOffending (-2048) 2047 false 0 0 (tablePoints .tracking b) = none :=
        firstOffending_tracking (points ▸ within) 0 0
      have loaded := exec_orderSetsLdu order due
        (decideLoadLensTable_loads (s := u) (k := .tracking) online rfl aligned read passes) rfl
      rw [points] at loaded
      exact loaded
    case offends =>
      rintro rfl asks i inside within rises bad
      have offends : firstOffending 500 60000 true 0 0 (tablePoints .scale b) = some i :=
        (firstOffending_scale (by omega) within rises fun _ => bad).trans (if_pos inside)
      exact exec_orderAnswered order due
        (decideLoadLensTable_offends (s := u) (k := .scale) online rfl aligned read offends) rfl
        (State.fault_stop (s := u) _ _ _ asks) (State.fault_slotA ..) (State.fault_slotB ..)
  case on =>
    intro e s due busy
    have order : exec (.trackingOn e 0) s =
      .next ((s.arrive e).takeOrder .immediate 0x28 0 [] decideTrackingOn) := rfl
    have taken {l : Ldu} (online : s.ldu.link = .online) (valid : s.ldu.track.valid = true) (free : ¬ busy)
        (on : s.ldu.trackOn = l) :
        exec (.trackingOn e 0) s = .next (State.finishEntry { s.arrive e with ldu := l } .done) :=
      exec_orderSetsLdu order due
        (decideTrackingOn_carries (s := s.arrive e) online valid (mt Ldu.trackingBusy_iff.mp free))
        (congrArg (s.arrive e).setLdu on)
    exact ⟨fun offline => exec_orderRefused order due (State.whenOnline_offline offline _),
      fun online h => exec_orderRefused order due
        (decideTrackingOn_refuses (s := s.arrive e) online (h.imp_right Ldu.trackingBusy_iff.mpr)),
      fun online valid free based notStalled servo =>
        taken online valid free (Ldu.trackOn_bases based notStalled servo),
      fun online valid free stands => taken online valid free (Ldu.trackOn_stands stands)⟩
  case off =>
    intro e s due busy
    have order : exec (.trackingOff e 0) s =
      .next ((s.arrive e).takeOrder .immediate 0x29 0 [] decideTrackingOff) := rfl
    have taken {l : Ldu} (free : ¬ busy) (off : s.ldu.unbase = l) :
        exec (.trackingOff e 0) s =
          .next (State.finishEntry { s.arrive e with ldu := { l with tracking := false } } .done) :=
      exec_orderSetsLdu order due (if_neg (mt Ldu.trackingBusy_iff.mp free))
        (congrArg (fun l : Ldu => (s.arrive e).setLdu { l with tracking := false }) off)
    exact ⟨fun h => exec_orderRefused order due (if_pos (Ldu.trackingBusy_iff.mpr h)),
      fun free based => taken free (Ldu.unbase_based based), fun free off => taken free (Ldu.unbase_off off)⟩
  case recover =>
    intro e s k due
    have order : exec (.axisRecover e 0 k) s =
      .next ((s.arrive e).takeOrder .immediate 0x2A 0 (p1 k) (decideAxisRecover k)) := rfl
    exact ⟨fun offline => exec_orderRefused order due (State.whenOnline_offline offline _),
      fun online beyond => exec_orderRefused order due (decideAxisRecover_unknown (s := s.arrive e) online beyond),
      fun x online axis notStalled => exec_orderRefused order due
        ((decideAxisRecover_known (s := s.arrive e) online axis).trans (if_neg notStalled)),
      fun x online axis stalled untracked => exec_orderSetsLdu order due
        ((decideAxisRecover_known (s := s.arrive e) online axis).trans (if_pos stalled))
        (State.recoverAxis_untracked (s := s.arrive e) untracked)⟩
  case range => exact ⟨keeps_scaleInRange, fun s h => Ldu.InRange.scaleOffered h⟩

end Sys2Proof.Machine
end

