-- ==== Sys2Proof/Proofs/StabiliserArithmetic.lean ====
section
/-! PROOFS. The arithmetic of one sample on an axis, step by step (R78 to R83): O37. -/

namespace Sys2Proof.Machine

/-! ## Sizes, signs and shifts -/

theorem size_eq_abs (v : Int) : size v = |v| := (Int.abs_eq_natAbs v).symm

theorem clampInt_eq_max_min {lo hi : Int} (ordered : lo ≤ hi) (v : Int) : clampInt lo hi v = max lo (min hi v) := by
  unfold clampInt
  split
  · omega
  · split <;> omega

/-- A size given the sign of a number is the product with that sign, where a number 0 gives size 0. -/
theorem signed_eq_sign_mul {r v : Int} (zero : r = 0 → v = 0) : signed r v = r.sign * v := by
  unfold signed
  obtain neg | rfl | pos := lt_trichotomy r 0
  · rw [if_pos neg, Int.sign_eq_neg_one_of_neg neg, neg_one_mul]
  · simp [zero rfl]
  · rw [if_neg (not_lt.mpr pos.le), Int.sign_eq_one_of_pos pos, one_mul]

theorem sar_eq (v : Int) (k : Nat) : sar v k = v / 2 ^ k := by rw [sar, Nat.cast_pow, Nat.cast_ofNat]

/-! ## The bias and the corrected rate (R78, R79) -/

section
variable {a : StabAxis}

/-- Step 2 moves the bias alone. -/
theorem StabAxis.trackBias_eq (a : StabAxis) (still : Int) (shift : Nat) (r0 : Int) :
    a.trackBias still shift r0 = { a with
      bias := if a.pan = .steady ∧ |r0 - a.bias / 256| ≤ still then a.bias + (256 * r0 - a.bias) / 2 ^ shift
        else a.bias } := by
  have floored : sar a.bias 8 = a.bias / 256 := rfl
  unfold StabAxis.trackBias
  rw [size_eq_abs, floored, sar_eq]
  split <;> rfl

theorem StabAxis.rate_eq (a : StabAxis) (r0 : Int) : a.rate r0 = max (-32767) (min 32767 (r0 - a.bias / 256)) :=
  clampInt_eq_max_min (by decide) _

/-! ## The pan state (R80) -/

variable {enter exit r : Int} {run out : Nat}

/-- Step 4 moves the pan state and its counts alone. -/
theorem StabAxis.judgePan_keeps (a : StabAxis) (enter exit r : Int) :
    (a.judgePan enter exit r).bias = a.bias ∧ (a.judgePan enter exit r).acc = a.acc ∧
      (a.judgePan enter exit r).edge = a.edge := by
  unfold StabAxis.judgePan
  dsimp only
  repeat' split
  all_goals exact ⟨rfl, rfl, rfl⟩

theorem StabAxis.judgePan_steady (steady : a.pan = .steady)
    (runs : (if enter < |r| then a.enterRun + 1 else 0) = run) :
    a.judgePan enter exit r =
      if run < 50 then { a with enterRun := run } else { a with pan := .panning, enterRun := 0, exitRun := 0 } := by
  simp only [StabAxis.judgePan, steady, size_eq_abs, runs]

theorem StabAxis.judgePan_panning (panning : a.pan = .panning)
    (runs : (if |r| < exit then a.exitRun + 1 else 0) = out) :
    a.judgePan enter exit r =
      if out < 100 then { a with exitRun := out } else { a with pan := .settling, exitRun := 0, settle := 0 } := by
  simp only [StabAxis.judgePan, panning, size_eq_abs, runs]

theorem StabAxis.judgePan_settling (settling : a.pan = .settling)
    (runs : (if enter < |r| then a.enterRun + 1 else 0) = run) :
    a.judgePan enter exit r =
      if run < 50 then
        if a.settle + 1 < 500 then { a with enterRun := run, settle := a.settle + 1 }
        else { a with pan := .steady, enterRun := 0, settle := 0 }
      else { a with pan := .panning, enterRun := 0, exitRun := 0, settle := 0 } := by
  simp only [StabAxis.judgePan, settling, size_eq_abs, runs]

end

/-! ## The leak and the sum (R81, R82) -/

/-- The edge flag holds the shift to 7 and the zoom surge to 9. -/
theorem leakShift_eq (pan : PanState) (edge surge : Bool) :
    leakShift pan edge surge =
      min (min (leakShift pan false false) (if edge then 7 else 11)) (if surge then 9 else 11) := by
  cases pan <;> cases edge <;> cases surge <;> rfl

theorem leak_eq (acc : Int) (k : Nat) : leak acc k = acc - acc.sign * (|acc| / 2 ^ k) := by
  unfold leak
  rw [size_eq_abs, sar_eq, signed_eq_sign_mul]
  rintro rfl
  simp

theorem integrate_eq (acc r : Int) : integrate acc r = max (-2147483647) (min 2147483647 (acc + r)) :=
  clampInt_eq_max_min (by decide) _

/-- A sample's work on an axis, from the axis with its bias tracked, the corrected rate, and the axis with its pan state
judged. -/
theorem StabAxis.work_eq {m : Mst} {surge recentre : Bool} {r0 r : Int} {a b j : StabAxis}
    (tracked : a.trackBias m.still m.biasShift r0 = b) (rated : b.rate r0 = r)
    (judged : b.judgePan m.panEnter m.panExit r = j) :
    a.work m surge recentre r0 =
      { j with acc := integrate (leak (if recentre then 0 else j.acc) (leakShift j.pan j.edge surge)) r } := by
  subst tracked rated judged
  rfl

/-- Settles O37, step by step of the work on the axis. -/
theorem sampleArithmetic : Obligations.SampleArithmetic := by
  intro m surge recentre r0 a c b r run out k acc
  let tracked : StabAxis := { a with bias := b }
  obtain ⟨sameBias, sameAcc, sameEdge⟩ := tracked.judgePan_keeps m.panEnter m.panExit r
  generalize judged : tracked.judgePan m.panEnter m.panExit r = j at sameBias sameAcc sameEdge
  have worked : c = { j with
      acc := integrate (leak (if recentre then 0 else j.acc) (leakShift j.pan j.edge surge)) r } :=
    StabAxis.work_eq (a.trackBias_eq m.still m.biasShift r0) (tracked.rate_eq r0) judged
  have pan : c.pan = j.pan := by rw [worked]
  have enterRun : c.enterRun = j.enterRun := by rw [worked]
  have exitRun : c.exitRun = j.exitRun := by rw [worked]
  have settle : c.settle = j.settle := by rw [worked]
  have shift : leakShift c.pan a.edge surge = k := by
    rw [leakShift_eq]
    unfold k
    cases c.pan <;> rfl
  refine ⟨(congrArg StabAxis.bias worked).trans sameBias, (congrArg StabAxis.edge worked).trans sameEdge, ?sum,
    fun steady => ?ofSteady, fun panning => ?ofPanning, fun settling => ?ofSettling⟩
  case sum =>
    calc c.acc = integrate (leak (if recentre then 0 else j.acc) (leakShift j.pan j.edge surge)) r :=
          congrArg StabAxis.acc worked
      _ = integrate (leak acc k) r := by rw [sameAcc, sameEdge, ← pan, ← shift]
      _ = _ := by rw [integrate_eq, leak_eq]
  case ofSteady =>
    rw [pan, enterRun, exitRun, ← judged, StabAxis.judgePan_steady (a := tracked) (run := run) steady rfl]
    split
    · exact ⟨steady, rfl, rfl⟩
    · exact ⟨rfl, rfl, rfl⟩
  case ofPanning =>
    rw [pan, exitRun, settle, ← judged, StabAxis.judgePan_panning (a := tracked) (out := out) panning rfl]
    split
    · exact ⟨panning, rfl, rfl⟩
    · exact ⟨rfl, rfl, rfl⟩
  case ofSettling =>
    rw [pan, settle, enterRun, ← judged, StabAxis.judgePan_settling (a := tracked) (run := run) settling rfl]
    by_cases short : run < 50
    · by_cases settles : a.settle + 1 < 500
      · simp [short, settles, tracked, settling]
      · simp [short, settles, tracked]
    · simp [short, Nat.le_of_not_lt short]

end Sys2Proof.Machine
end

