-- ==== Sys2Proof/Proofs/StabiliserSamples.lean ====
section
/-! PROOFS. The samples of the gyro, by the mode, and the loss of them (R73, R75 to R77, R83): O36. -/

namespace Sys2Proof.Machine

/-! ## The overrange check (R77) -/

theorem overrange_eq_false_iff {raw : Int} : overrange raw = false ↔ raw ≠ -32768 ∧ raw ≠ 32767 := by
  simp [overrange]

section
variable {s : State} {yaw pitch : Int}

/-- With neither axis overranged the check lowers the quiet count. -/
theorem State.checkOverrange_plain (plainYaw : overrange yaw = false) (plainPitch : overrange pitch = false) :
    s.checkOverrange yaw pitch = s.setMst { s.mst with quiet := s.mst.quiet - 1 } := by
  simp [State.checkOverrange, plainYaw, plainPitch]

/-- An overrange with the quiet count run out is logged, and the quiet count begins again. -/
theorem State.checkOverrange_logs (overranged : (overrange yaw || overrange pitch) = true) (runOut : s.mst.quiet ≤ 1) :
    s.checkOverrange yaw pitch = (s.setMst { s.mst with quiet := 1000 }).fault .gyroOverrange
      (if overrange yaw then .yaw else .pitch) (wordOf yaw) (wordOf pitch) := by
  have zero : s.mst.quiet - 1 = 0 := by omega
  simp only [State.checkOverrange, overranged, zero]
  rfl

end

/-! ## A sample by the mode (R73, R76) -/

/-- The bookkeeping of a sample arrival (R73). -/
def Mst.noteSample (m : Mst) (now : Nat) : Mst :=
  { m with lastArrival := some now, samples := m.samples + 1, sampleSinceOn := true }

section
variable {s : State} {yaw pitch : Int}

theorem State.gyro_off (off : s.mst.mode = .off) :
    s.gyro yaw pitch = (s.setMst (s.mst.noteSample s.now)).sampleOff yaw pitch := by
  simp only [State.gyro, Mst.noteSample, State.setMst, off]

theorem State.gyro_on (on : s.mst.mode = .on) :
    s.gyro yaw pitch = (s.setMst (s.mst.noteSample s.now)).sampleOn yaw pitch := by
  simp only [State.gyro, Mst.noteSample, State.setMst, on]

theorem State.gyro_hold (hold : s.mst.mode = .hold) :
    s.gyro yaw pitch =
      if s.mst.resume s.now < 20 then
        s.setMst { s.mst.noteSample s.now with resumption := s.mst.resume s.now }
      else (s.setMst { s.mst.noteSample s.now with mode := .on, resumption := 0 }).sampleOn yaw pitch := by
  simp only [State.gyro, Mst.noteSample, State.setMst, hold]

/-- Outside HOLD a sample is noted and checked for overrange; what follows replaces the MST, with the quiet count and
the mode that the check leaves. -/
theorem State.gyro_checks (working : s.mst.mode ≠ .hold) :
    ∃ m, s.gyro yaw pitch = ((s.setMst (s.mst.noteSample s.now)).checkOverrange yaw pitch).setMst m ∧
      m.quiet = ((s.setMst (s.mst.noteSample s.now)).checkOverrange yaw pitch).mst.quiet ∧
      m.mode = ((s.setMst (s.mst.noteSample s.now)).checkOverrange yaw pitch).mst.mode := by
  cases mode : s.mst.mode with
  | off => exact ⟨_, State.gyro_off mode, rfl, rfl⟩
  | on => exact ⟨_, State.gyro_on mode, rfl, rfl⟩
  | hold => exact absurd mode working

/-- An overrange outside HOLD, with the quiet count run out: the sample is worked, and its step logs the occurrence. -/
theorem State.gyro_logs (working : s.mst.mode ≠ .hold) (overranged : (overrange yaw || overrange pitch) = true)
    (runOut : s.mst.quiet ≤ 1) :
    ∃ m : Mst, m.quiet = 1000 ∧ m.mode = s.mst.mode ∧
      s.gyro yaw pitch = ((s.setMst { s.mst.noteSample s.now with quiet := 1000 }).fault .gyroOverrange
        (if overrange yaw then .yaw else .pitch) (wordOf yaw) (wordOf pitch)).setMst m := by
  obtain ⟨m, worked, quiet, mode⟩ := State.gyro_checks (yaw := yaw) (pitch := pitch) working
  have logs := State.checkOverrange_logs (s := s.setMst (s.mst.noteSample s.now)) overranged runOut
  rw [logs, State.fault_mst] at quiet mode
  exact ⟨m, quiet, mode, logs ▸ worked⟩

/-- A plain sample worked in OFF: the quiet count and the biases (R73, R78). -/
theorem State.sampleOff_plain (plainYaw : overrange yaw = false) (plainPitch : overrange pitch = false) :
    s.sampleOff yaw pitch = s.setMst { s.mst with
      quiet := s.mst.quiet - 1
      yaw := s.mst.yaw.trackBias s.mst.still s.mst.biasShift (clampRate yaw)
      pitch := s.mst.pitch.trackBias s.mst.still s.mst.biasShift (clampRate pitch) } := by
  unfold State.sampleOff
  rw [State.checkOverrange_plain plainYaw plainPitch]
  rfl

/-- A plain sample worked in ON: steps 1 to 6, the recentre, and the loss timer (R73, R75, R83). -/
theorem State.sampleOn_plain (plainYaw : overrange yaw = false) (plainPitch : overrange pitch = false) :
    s.sampleOn yaw pitch = s.setMst { s.mst with
      quiet := s.mst.quiet - 1, recentre := false, lossTimer := some (s.now + 5000)
      yaw := s.mst.yaw.work s.mst s.ldu.surge s.mst.recentre (clampRate yaw)
      pitch := s.mst.pitch.work s.mst s.ldu.surge s.mst.recentre (clampRate pitch) } := by
  unfold State.sampleOn
  rw [State.checkOverrange_plain plainYaw plainPitch]
  rfl

end

/-! ## The commands -/

section
variable {e : Env} {s t : State} {yaw pitch : Half}

/-- The blocks do not take the sample outside RUNNING and RESETTING (R73). -/
theorem exec_gyroSample_discarded (inactive : s.active = false) :
    exec (.gyroSample e yaw pitch) s = .next (s.arrive e) := by
  have asleep : (s.arrive e).active = false := inactive
  show execGyroSample e yaw pitch s = _
  simp [execGyroSample, asleep]

/-- A sample that the MST takes ends its step with what its work leaves, where that leaves Safe Stop and the slots. -/
theorem exec_gyroSample_taken (active : s.active = true) (calm : s.stop.requests = [])
    (worked : (s.arrive e).gyro yaw.toInt pitch.toInt = t) (stop : t.stop = s.stop) (a : t.slotA = s.slotA)
    (b : t.slotB = s.slotB) : exec (.gyroSample e yaw pitch) s = .next t := by
  have awake : (s.arrive e).active = true := active
  show execGyroSample e yaw pitch s = _
  unfold execGyroSample
  dsimp only
  rw [if_pos awake, worked, State.serve_none (by rw [stop, calm]), State.judgeSlots_of_slots]
  · rw [a]; rfl
  · rw [b]; rfl

/-- The loss timer expires: HOLD, with both runs broken on each axis, and GYRO_LOST (R75). -/
theorem exec_lossTimerExpiry {due : Nat} (running : s.mst.lossTimer = some due) (calm : s.stop.requests = [])
    (asks : asksNoStop s .gyroLost = true) :
    exec (.lossTimerExpiry e) s = .next ((s.arrive e).expireAt due).gyroLost := by
  show execLossTimerExpiry e s = _
  have stop : ((s.arrive e).expireAt due).gyroLost.stop = s.stop := State.fault_stop (s := State.setMst _ _) _ _ _ asks
  unfold execLossTimerExpiry
  dsimp only
  rw [State.arrive_mst, running]
  dsimp only
  rw [State.serve_none (by rw [stop, calm]), State.judgeSlots_of_slots]
  · exact congrArg Slot.st (State.fault_slotA ..)
  · exact congrArg Slot.st (State.fault_slotB ..)

end

/-- Settles O36: a sample discarded, a sample by the mode, an overrange logged, and the loss timer. -/
theorem gyroSamplesActByTheMode : Obligations.GyroSamplesActByTheMode := by
  refine ⟨fun e s yaw pitch => exec_gyroSample_discarded, ?taken, ?lost⟩
  case taken =>
    intro e s yaw pitch active calm now m noted count worked plain
    have plainAxes (h : plain) : overrange yaw.toInt = false ∧ overrange pitch.toInt = false := by
      obtain ⟨yawLow, yawHigh, pitchLow, pitchHigh⟩ := h
      exact ⟨overrange_eq_false_iff.mpr ⟨yawLow, yawHigh⟩, overrange_eq_false_iff.mpr ⟨pitchLow, pitchHigh⟩⟩
    refine ⟨fun off h => ?off, fun on h => ?on, fun hold short => ?short, fun hold enough h => ?resumed,
      fun working notPlain runOut asks whole => ?logs⟩
    case off =>
      obtain ⟨plainYaw, plainPitch⟩ := plainAxes h
      exact exec_gyroSample_taken active calm ((State.gyro_off (s := s.arrive e) off).trans
        (State.sampleOff_plain plainYaw plainPitch)) rfl rfl rfl
    case on =>
      obtain ⟨plainYaw, plainPitch⟩ := plainAxes h
      -- The statement sets the mode to ON, where a sample in ON leaves it.
      unfold worked
      rw [← on]
      exact exec_gyroSample_taken active calm ((State.gyro_on (s := s.arrive e) on).trans
        (State.sampleOn_plain plainYaw plainPitch)) rfl rfl rfl
    case short =>
      exact exec_gyroSample_taken active calm ((State.gyro_hold (s := s.arrive e) hold).trans
        (if_pos short)) rfl rfl rfl
    case resumed =>
      obtain ⟨plainYaw, plainPitch⟩ := plainAxes h
      exact exec_gyroSample_taken active calm ((State.gyro_hold (s := s.arrive e) hold).trans
        ((if_neg (not_lt.mpr enough)).trans (State.sampleOn_plain plainYaw plainPitch))) rfl rfl rfl
    case logs =>
      have overranged : (overrange yaw.toInt || overrange pitch.toInt) = true := by
        by_contra neither
        obtain ⟨plainYaw, plainPitch⟩ := Bool.or_eq_false_iff.mp (Bool.eq_false_iff.mpr neither)
        exact notPlain (and_assoc.mp
          ⟨overrange_eq_false_iff.mp plainYaw, overrange_eq_false_iff.mp plainPitch⟩)
      obtain ⟨n, quiet, mode, logs⟩ := State.gyro_logs (s := s.arrive e) working overranged runOut
      obtain ⟨stands, counted, _⟩ := State.logged_fault
        (s := (s.arrive e).setMst { (s.arrive e).mst.noteSample (s.arrive e).now with quiet := 1000 }) whole
        .gyroOverrange (if overrange yaw.toInt then .yaw else .pitch) (wordOf yaw.toInt) (wordOf pitch.toInt)
      exact ⟨_, exec_gyroSample_taken active calm logs (State.fault_stop (s := State.setMst _ _) _ _ _ asks)
        (State.fault_slotA ..) (State.fault_slotB ..), quiet, mode, stands, counted⟩
  case lost =>
    intro e s due running calm asks
    have since : (if s.mst.sampleSinceOn then 1 else 0 : Word) = wordOfNat (bit s.mst.sampleSinceOn) := by
      cases s.mst.sampleSinceOn <;> rfl
    rw [exec_lossTimerExpiry running calm asks, since]
    rfl

end Sys2Proof.Machine
end

