-- ==== Sys2Proof/Proofs/CropForming.lean ====
section
/-! PROOFS. The crop that the MST forms and sends at a frame start, by the mode (R85 to R91): O38. -/

namespace Sys2Proof.Machine

/-! ## From angle to crop (R86, R87) -/

/-- The shift in pixels: the size of the product, rounded, with the sign of the accumulator (R86). -/
theorem shiftPixels_eq (acc : Int) {f : Int} (notNegative : 0 ≤ f) :
    shiftPixels acc f = acc.sign * f.sign * ((|acc| * |f| + 8192000) / 16384000) := by
  unfold shiftPixels
  rw [size_eq_abs, abs_mul, signed_eq_sign_mul]
  · obtain rfl | positive := notNegative.eq_or_lt
    · simp
    · rw [Int.sign_eq_one_of_pos positive, mul_one]
  · rintro rfl
    simp

/-- The held shift is the shift clamped to its margin, and the edge flag says that it was (R87). -/
theorem holdShift_eq {margin : Int} (notNegative : 0 ≤ margin) (v : Int) :
    holdShift margin v = (clampInt (-margin) margin v, decide (margin < |v|)) := by
  unfold holdShift
  rw [size_eq_abs]
  by_cases past : margin < |v|
  · have held : signed v margin = clampInt (-margin) margin v := by
      unfold signed clampInt
      obtain low | high := lt_abs.mp past <;> split <;> split <;> omega
    rw [if_pos past, held, decide_eq_true past]
  · have within : clampInt (-margin) margin v = v :=
      (clampInt_eq_self_iff (by omega)).mpr (abs_le.mp (not_lt.mp past))
    rw [if_neg past, within, decide_eq_false past]

/-! ## The crop by the mode (R89, R90) -/

section
variable {m : Mst} {f : Int}

theorem Mst.formCrop_off (off : m.mode = .off) : m.formCrop f = (0, 0, 0, m) := by
  simp only [Mst.formCrop, off]

theorem Mst.formCrop_hold (hold : m.mode = .hold) :
    m.formCrop f = (clampInt (-m.marginX) m.marginX m.newestCrop.x, clampInt (-m.marginY) m.marginY m.newestCrop.y,
      m.newestCrop.scale, m) := by
  simp only [Mst.formCrop, hold]

theorem Mst.formCrop_on (on : m.mode = .on) (x : 0 ≤ m.marginX) (y : 0 ≤ m.marginY) :
    m.formCrop f =
      (-clampInt (-m.marginX) m.marginX (shiftPixels m.yaw.acc f),
        clampInt (-m.marginY) m.marginY (shiftPixels m.pitch.acc f), f,
        { m with yaw := { m.yaw with edge := decide (m.marginX < |shiftPixels m.yaw.acc f|) }
                 pitch := { m.pitch with edge := decide (m.marginY < |shiftPixels m.pitch.acc f|) } }) := by
  simp only [Mst.formCrop, on, holdShift_eq x, holdShift_eq y]

end

/-! ## The frame start (R85, R91) -/

/-- The MST after it has formed a crop at a frame start and sent it: the message, the record and the copy of the
report's part (R89, R91, R92). -/
def Mst.sendCrop (m : Mst) (x : FrameStart) (need : FrameNo → Bool) (c : Int × Int × Int × Mst) : Mst :=
  { c.2.2.2 with
    crops := newest 3 (c.2.2.2.crops ++
      [{ frame := x.opened.frame + 1, x := c.1, y := c.2.1, scale := c.2.2.1, mode := c.2.2.2.mode
         yawPan := c.2.2.2.yaw.pan, pitchPan := c.2.2.2.pitch.pan
         yawEdge := c.2.2.2.yaw.edge, pitchEdge := c.2.2.2.pitch.edge }])
    sent := some ⟨BitVec.ofInt 16 c.1, BitVec.ofInt 16 c.2.1, x.opened.frame + 1⟩
    samples := 0
    kept := keepCopy need x.ended.frame m.part m.kept }

/-- The command takes the frame start that is next on its way: the crop is formed with the scale offered. -/
theorem exec_mstFrameStart {e : Env} {s : State} {x : FrameStart} {rest : List FrameStart}
    (arriving : s.mst.arriving = x :: rest) {c : Int × Int × Int × Mst}
    (formed : Mst.formCrop { s.mst with arriving := rest } s.ldu.scaleOffered = c) :
    exec (.mstFrameStart e) s =
      .next { s.arrive e with mst := Mst.sendCrop { s.mst with arriving := rest } x s.copyNeeded c } := by
  subst formed
  show execMstFrameStart e s = _
  unfold execMstFrameStart
  dsimp only
  rw [State.arrive_mst, arriving]
  rfl

/-- Settles O38, mode by mode. -/
theorem cropSentAtAFrameStart : Obligations.CropSentAtAFrameStart := by
  intro e s x rest arriving m f named last shift after
  refine ⟨fun off => ?off, fun hold => ?hold, fun on marginX marginY scale => ?on⟩
  case off => exact exec_mstFrameStart arriving (Mst.formCrop_off off)
  case hold => exact exec_mstFrameStart arriving (Mst.formCrop_hold hold)
  case on =>
    have pixels (acc : Int) : shiftPixels acc f = shift acc := shiftPixels_eq acc scale
    have formed := Mst.formCrop_on (m := { m with arriving := rest }) (f := f) on marginX marginY
    rw [pixels, pixels] at formed
    exact exec_mstFrameStart arriving formed

end Sys2Proof.Machine
end

