-- ==== Sys2Proof/Proofs/StabiliserOrders.lean ====
section
/-! PROOFS. The orders of the Motion Stabiliser and of the Stream Assembler (R74, R83, R84, R121, R131, R132): O39. -/

namespace Sys2Proof.Machine

section
variable {e : Env} {s : State} {c : Instr} {kind : Byte} {params : List Byte} {decide : State → Decision}
  {clamped : Bool} {run : State → State}

/-- An untagged order that replaces the MST alone ends its step with its result. -/
theorem exec_setsMst {m : Mst}
    (order : exec c s = .next ((s.arrive e).takeOrder .immediate kind 0 params decide))
    (due : dispatches s .immediate kind 0 params = true) (carries : decide (s.arrive e) = .carry clamped run)
    (ran : run (s.arrive e) = (s.arrive e).setMst m) :
    exec c s = .next (State.finishEntry { s.arrive e with mst := m } (carriedResult clamped 0)) :=
  exec_orderCarried order due carries ran rfl rfl rfl

end

/-! ## What each order decides -/

section
variable {s : State}

theorem decideStabMode_badParam {mode : Byte} (bad : 1 < mode.toNat) :
    decideStabMode mode s = .refuse .refusedParam :=
  (if_neg (by omega)).trans (if_neg (by omega))

theorem decideStabMode_off :
    decideStabMode 0 s = .carry false fun s => if s.mst.mode = .off then s else s.setMst s.mst.switchOff := rfl

theorem decideStabMode_on :
    decideStabMode 1 s = .carry false fun s => if s.mst.mode = .off then s.setMst (s.mst.switchOn s.now) else s := rfl

section
variable {x still enter exit : Half} {y shift : Byte}

theorem decideStabConfig_recording (clip : s.clipOpen = true)
    (moves : clampInt 0 256 x.toNat ≠ s.mst.marginX ∨ clampInt 0 144 y.toNat ≠ s.mst.marginY) :
    decideStabConfig x y still shift enter exit s = .refuse .refusedRecording := if_pos ⟨clip, moves⟩

theorem decideStabConfig_takes
    (free : ¬(s.clipOpen = true ∧
      (clampInt 0 256 x.toNat ≠ s.mst.marginX ∨ clampInt 0 144 y.toNat ≠ s.mst.marginY))) :
    decideStabConfig x y still shift enter exit s =
      .carry (clampStab x y still shift enter exit !=
          ⟨u16 x, u8 y, u16 still, shift.toNat, u16 enter, u16 exit⟩) fun s =>
        s.setMst { s.mst with
          marginX := clampInt 0 256 x.toNat, marginY := clampInt 0 144 y.toNat, still := clampInt 0 1000 still.toNat
          biasShift := clampNat 8 16 shift.toNat, panEnter := clampInt 1 32767 enter.toNat
          panExit := clampInt 0 (clampInt 1 32767 enter.toNat) exit.toNat } := if_neg free

/-- A parameter of STAB_CONFIG was clamped, pan exit against the clamped pan enter (R84). -/
theorem clampStab_changed :
    (clampStab x y still shift enter exit != ⟨u16 x, u8 y, u16 still, shift.toNat, u16 enter, u16 exit⟩) = true ↔
      ¬(x.toNat ≤ 256 ∧ y.toNat ≤ 144 ∧ still.toNat ≤ 1000 ∧ (8 ≤ shift.toNat ∧ shift.toNat ≤ 16) ∧
        (1 ≤ enter.toNat ∧ enter.toNat ≤ 32767) ∧ (exit.toNat : Int) ≤ clampInt 1 32767 enter.toNat) := by
  have top : (0 : Int) ≤ clampInt 1 32767 enter.toNat := by
    unfold clampInt
    split
    · decide
    · split <;> omega
  rw [bne_iff_ne, ne_eq, not_iff_not]
  simp only [clampStab, StabConfig.mk.injEq, u8, u16, clampInt_eq_self_iff top,
    clampInt_eq_self_iff (show (0 : Int) ≤ 256 by decide), clampInt_eq_self_iff (show (0 : Int) ≤ 144 by decide),
    clampInt_eq_self_iff (show (0 : Int) ≤ 1000 by decide), clampInt_eq_self_iff (show (1 : Int) ≤ 32767 by decide),
    clampNat_eq_self_iff (show 8 ≤ 16 by decide)]
  omega

end

theorem decideStreamConfig_recording {delay : Byte} (h : s.clipOpen = true ∨ s.sta.preOn = true) :
    decideStreamConfig delay s = .refuse .refusedRecording := if_pos h

theorem decideStreamConfig_takes {delay : Byte} (clip : s.clipOpen = false) (pre : s.sta.preOn = false) :
    decideStreamConfig delay s =
      .carry (clampNat 1 6 delay.toNat != delay.toNat) fun s =>
        s.setSta { s.sta with delay := clampNat 1 6 delay.toNat } := if_neg (by simp [clip, pre])

theorem decidePreRecord_badParam {code : Byte} {count : Half} (bad : 1 < code.toNat) :
    decidePreRecord code count s = .refuse .refusedParam :=
  (if_neg (by omega)).trans (if_neg (by omega))

theorem decidePreRecord_recordRun {count : Half} (mode : s.ftu.mode = .recordRun) :
    decidePreRecord 1 count s = .refuse .refusedState := if_pos mode

theorem decidePreRecord_off {count : Half} :
    decidePreRecord 0 count s =
      .carry (min 600 count.toNat != count.toNat) fun s => s.setPreRecord false (min 600 count.toNat) := rfl

theorem decidePreRecord_on {count : Half} (mode : s.ftu.mode = .freeRun) :
    decidePreRecord 1 count s =
      .carry (min 600 count.toNat != count.toNat) fun s => s.setPreRecord true (min 600 count.toNat) :=
  if_neg (by simp [mode])

/-! ## Pre-record (R131, R132) -/

theorem State.setPreRecord_off (s : State) (n : Nat) :
    s.setPreRecord false n = State.release { s with sta := { s.sta with preOn := false, preCount := n } } := rfl

/-- Pre-record that is on stays on with its new count; the floor stands. -/
theorem State.setPreRecord_stays (on : s.sta.preOn = true) (n : Nat) :
    s.setPreRecord true n = State.release { s with sta := { s.sta with preCount := n } } := by
  simp only [State.setPreRecord, on, State.setSta]
  rfl

/-- Pre-record turned on raises the floor to the newest index record (R132). -/
theorem State.setPreRecord_starts (off : s.sta.preOn = false) (n : Nat) :
    s.setPreRecord true n = State.release { s with sta := { s.sta with
      preOn := true, preCount := n
      floor := match s.sta.index.getLast? with
        | some r => Machine.raiseFloor s.sta.floor r.frame
        | none => s.sta.floor } } := by
  unfold State.setPreRecord State.newestGroup State.raiseFloor
  cases newest : s.sta.index.getLast? <;> simp [off, State.setSta]

end

/-- Settles O39, order by order. -/
theorem stabiliserAndStreamOrders : Obligations.StabiliserAndStreamOrders := by
  refine ⟨⟨?mode, ?recentre, ?config⟩, ?stream, ?preRecord⟩
  case mode =>
    intro e s mode due clear
    have order : exec (.stabMode e 0 mode) s =
      .next ((s.arrive e).takeOrder .immediate 0x40 0 (p1 mode) (decideStabMode mode)) := rfl
    refine ⟨fun bad => exec_orderRefused order due (decideStabMode_badParam bad), ?_, ?_, ?_⟩
    · rintro rfl on
      exact exec_setsMst order due decideStabMode_off (if_neg on)
    · rintro rfl off
      exact exec_setsMst order due decideStabMode_on (if_pos off)
    · rintro (⟨rfl, off⟩ | ⟨rfl, on⟩)
      · exact exec_orderCarried order due decideStabMode_off (if_pos off) rfl rfl rfl
      · exact exec_orderCarried order due decideStabMode_on (if_neg on) rfl rfl rfl
  case recentre =>
    exact fun e s due => exec_setsMst (c := .stabRecenter e 0) (decide := decideStabRecenter) rfl due rfl rfl
  case config =>
    intro e s x y still shift enter exit due n moves inRange
    have order : exec (.stabConfig e 0 x y still shift enter exit) s = .next ((s.arrive e).takeOrder .immediate 0x42 0
      (p2 x ++ p1 y ++ p2 still ++ p1 shift ++ p2 enter ++ p2 exit)
      (decideStabConfig x y still shift enter exit)) := rfl
    exact ⟨fun recording differs =>
        exec_orderRefused order due (decideStabConfig_recording (s := s.arrive e) recording differs),
      fun free => carriedResult_untagged clampStab_changed ▸
        exec_setsMst order due (decideStabConfig_takes (s := s.arrive e) free) rfl⟩
  case stream =>
    intro e s delay due
    have order : exec (.streamConfig e 0 delay) s =
      .next ((s.arrive e).takeOrder .immediate 0x50 0 (p1 delay) (decideStreamConfig delay)) := rfl
    have changed : (clampNat 1 6 delay.toNat != delay.toNat) = true ↔ ¬(1 ≤ delay.toNat ∧ delay.toNat ≤ 6) := by
      rw [bne_iff_ne, ne_eq, clampNat_eq_self_iff (by decide)]
    exact ⟨fun busy => exec_orderRefused order due (decideStreamConfig_recording (s := s.arrive e) busy),
      fun clip pre => carriedResult_untagged changed ▸ exec_orderCarried order due
        (decideStreamConfig_takes (s := s.arrive e) clip pre) rfl rfl rfl rfl⟩
  case preRecord =>
    intro e s code count due n result
    have order : exec (.preRecord e 0 code count) s =
      .next ((s.arrive e).takeOrder .immediate 0x51 0 (p1 code ++ p2 count) (decidePreRecord code count)) := rfl
    have results : carriedResult (n != count.toNat) 0 = result :=
      carriedResult_untagged (p := count.toNat ≤ 600) (by rw [bne_iff_ne, ne_eq, min_eq_right_iff])
    refine ⟨fun bad => exec_orderRefused order due (decidePreRecord_badParam bad), ?recordRun, ?off, ?stays, ?starts⟩
    case recordRun =>
      rintro rfl mode
      exact exec_orderRefused order due (decidePreRecord_recordRun (s := s.arrive e) mode)
    case off =>
      rintro rfl
      exact results ▸ exec_orderCarried order due decidePreRecord_off ((s.arrive e).setPreRecord_off n) rfl rfl rfl
    case stays =>
      rintro rfl mode on
      exact results ▸ exec_orderCarried order due (decidePreRecord_on (s := s.arrive e) mode)
        (State.setPreRecord_stays (s := s.arrive e) on n) rfl rfl rfl
    case starts =>
      rintro rfl mode off
      exact results ▸ exec_orderCarried order due (decidePreRecord_on (s := s.arrive e) mode)
        (State.setPreRecord_starts (s := s.arrive e) off n) rfl rfl rfl

end Sys2Proof.Machine
end

