-- ==== Sys2Proof/Proofs/AudioSets.lean ====
section
/-! PROOFS. The sets that reach the ACU, and its clock timer (R94 to R96): O40. -/

namespace Sys2Proof.Machine

/-- The ACU after the clock of a set that arrives at `now` (R94, R96). -/
def Acu.clocked (a : Acu) (now : Nat) : Acu :=
  { a with clockTimer := some (now + 2000), clockLost := false, setsSince := a.setsSince + 1 }

section
variable {s : State} {x : AudioSet}

/-! ## A set, by the room in the FIFO (R94, R95) -/

theorem State.audioArrives_fits (room : s.acu.fifo.length < 4096) :
    s.audioArrives x = s.setAcu { s.acu.clocked s.now with fifo := s.acu.fifo ++ [x] } := if_pos room

theorem State.audioArrives_full (full : 4096 ≤ s.acu.fifo.length) :
    s.audioArrives x = (s.setAcu (s.acu.clocked s.now)).audioOverrun := if_neg (not_lt.mpr full)

/-- A second set discarded in a frame only marks the slip. -/
theorem State.audioOverrun_again (logged : s.acu.overrunLogged = true) :
    s.audioOverrun = s.setAcu { s.acu with slipMark := true } := by
  simp only [State.audioOverrun, logged, if_true]

/-- The first set discarded in a frame is logged with the fill after the take and the time since the frame start. -/
theorem State.audioOverrun_logs {t : Nat} (fresh : s.acu.overrunLogged = false) (last : s.acu.lastStart = some t) :
    s.audioOverrun = (s.setAcu { s.acu with slipMark := true, overrunLogged := true }).fault .audioOverrun .none
      (wordOfNat s.acu.fillAfterTake) (wordOfNat (s.now - t)) := by
  simp only [State.audioOverrun, fresh, last, Bool.false_eq_true, if_false]

end

/-! ## The commands -/

section
variable {e : Env} {s t : State} {a b c d : BitVec 24}

/-- The ACU does not take the set outside RUNNING and RESETTING (R94). -/
theorem exec_audioSet_discarded (inactive : s.active = false) :
    exec (.audioSet e a b c d) s = .next (s.arrive e) := by
  have asleep : ¬ (s.arrive e).active = true := Bool.eq_false_iff.mp inactive
  exact if_neg asleep

/-- A set that the ACU takes ends its step with what its arrival leaves, where that leaves Safe Stop and the slots. -/
theorem exec_audioSet_taken (active : s.active = true) (calm : s.stop.requests = [])
    (arrived : (s.arrive e).audioArrives ⟨a.toInt, b.toInt, c.toInt, d.toInt⟩ = t) (stop : t.stop = s.stop)
    (slotA : t.slotA = s.slotA) (slotB : t.slotB = s.slotB) : exec (.audioSet e a b c d) s = .next t := by
  have awake : (s.arrive e).active = true := active
  refine (if_pos awake).trans (congrArg Host.Outcome.next ?_)
  rw [arrived, State.serve_none (by rw [stop, calm]), State.judgeSlots_of_slots]
  · rw [slotA]; rfl
  · rw [slotB]; rfl

/-- The clock timer expires: CLOCK_LOST, and AUDIO_CLOCK is logged (R96). -/
theorem exec_audioClockExpiry {due : Nat} (running : s.acu.clockTimer = some due) (calm : s.stop.requests = [])
    (asks : asksNoStop s .audioClock = true) :
    exec (.audioClockExpiry e) s = .next ((s.arrive e).expireAt due).audioClockLost := by
  have stop : ((s.arrive e).expireAt due).audioClockLost.stop = s.stop :=
    State.fault_stop (s := State.setAcu _ _) _ _ _ asks
  show execAudioClockExpiry e s = _
  unfold execAudioClockExpiry
  dsimp only
  rw [State.arrive_acu, running]
  dsimp only
  rw [State.serve_none (by rw [stop, calm]), State.judgeSlots_of_slots]
  · exact congrArg Slot.st (State.fault_slotA ..)
  · exact congrArg Slot.st (State.fault_slotB ..)

end

/-- Settles O40: a set discarded, a set by the room in the FIFO, and the clock timer. -/
theorem audioSetsFillTheFifo : Obligations.AudioSetsFillTheFifo := by
  refine ⟨fun e s a b c d => exec_audioSet_discarded, ?taken, ?lost⟩
  case taken =>
    intro e s a b c d active calm taken
    refine ⟨fun room => ?fits, fun full logged => ?again, fun t full fresh last asks => ?logs⟩
    case fits => exact exec_audioSet_taken active calm (State.audioArrives_fits (s := s.arrive e) room) rfl rfl rfl
    case again =>
      exact exec_audioSet_taken active calm ((State.audioArrives_full (s := s.arrive e) full).trans
        (State.audioOverrun_again (s := State.setAcu _ _) logged)) rfl rfl rfl
    case logs =>
      exact exec_audioSet_taken active calm ((State.audioArrives_full (s := s.arrive e) full).trans
        (State.audioOverrun_logs (s := State.setAcu _ _) fresh last))
        (State.fault_stop (s := State.setAcu _ _) _ _ _ asks) (State.fault_slotA ..) (State.fault_slotB ..)
  case lost => exact fun e s due running calm asks => exec_audioClockExpiry running calm asks

end Sys2Proof.Machine
end

