-- ==== Sys2Proof/Proofs/AudioOrders.lean ====
section
/-! PROOFS. The orders that set pending settings of the audio channels (R99, R100): O41. -/

namespace Sys2Proof.Machine

section
variable {e : Env} {s : State} {c : Instr} {kind : Byte} {params : List Byte} {decide : State → Decision}
  {clamped : Bool}

/-- An untagged order that replaces the ACU alone ends its step with its result. -/
theorem exec_setsAcu {run : State → State} {a : Acu}
    (order : exec c s = .next ((s.arrive e).takeOrder .immediate kind 0 params decide))
    (due : dispatches s .immediate kind 0 params = true) (carries : decide (s.arrive e) = .carry clamped run)
    (ran : run (s.arrive e) = (s.arrive e).setAcu a) :
    exec c s = .next (State.finishEntry { s.arrive e with acu := a } (carriedResult clamped 0)) :=
  exec_orderCarried order due carries ran rfl rfl rfl

/-- An order on a channel code: beyond 4 it is refused, and the channels of a code 0 to 4 take the new pending
settings. -/
theorem exec_channelOrder {channel : Byte} {f : ChannelSet → ChannelSet}
    (order : exec c s = .next ((s.arrive e).takeOrder .immediate kind 0 params decide))
    (due : dispatches s .immediate kind 0 params = true)
    (decides : decide (s.arrive e) = decideChannel channel clamped f) :
    (4 < channel.toNat → exec c s = .next ((s.arrive e).finishEntry .refusedParam)) ∧
    (channel.toNat ≤ 4 → exec c s = .next (((s.arrive e).setPending channel.toNat f).finishEntry
      (carriedResult clamped 0))) :=
  ⟨fun beyond => exec_orderRefused order due (decides.trans (if_pos beyond)),
    fun named => exec_setsAcu order due (decides.trans (if_neg (not_lt.mpr named))) rfl⟩

end

/-! ## The codes (R100) -/

theorem sourceOf_beyond {code : Byte} (beyond : 2 < code.toNat) : sourceOf code = none := by
  unfold sourceOf
  rw [if_neg (by omega), if_neg (by omega), if_neg (by omega)]

theorem sourceOf_code {code : Byte} (known : code.toNat ≤ 2) :
    sourceOf code = some (if code = 0 then .converter else if code = 1 then .tone else .mute) := by
  have codes : code = 0 ∨ code = 1 ∨ code = 2 := by bv_omega
  obtain rfl | rfl | rfl := codes
  all_goals rfl

/-- A parameter of AUDIO_LIMITER was clamped. -/
theorem limiter_clamped {threshold release : Byte} :
    (clampInt (-20) 0 threshold.toInt != threshold.toInt || clampNat 1 64 release.toNat != release.toNat) = true ↔
      ¬((-20 ≤ threshold.toInt ∧ threshold.toInt ≤ 0) ∧ (1 ≤ release.toNat ∧ release.toNat ≤ 64)) := by
  rw [Bool.or_eq_true, bne_iff_ne, bne_iff_ne, ← not_and_or, clampInt_eq_self_iff (by decide),
    clampNat_eq_self_iff (by decide)]

/-- Settles O41, order by order. -/
theorem audioOrdersSetPendingSettings : Obligations.AudioOrdersSetPendingSettings := by
  unfold Obligations.AudioOrdersSetPendingSettings
  intro with_
  refine ⟨?source, ?gain, ?limiter, ?tone⟩
  case source =>
    intro e s ch source due
    have order : exec (.audioSource e 0 ch source) s = .next ((s.arrive e).takeOrder .immediate 0x48 0
      (p1 ch ++ p1 source) (decideAudioSource ch source)) := rfl
    rcases Nat.lt_or_ge 2 source.toNat with beyond | known
    · have refuses : decideAudioSource ch source (s.arrive e) = .refuse .refusedParam := by
        rw [decideAudioSource, sourceOf_beyond beyond]
      exact ⟨fun _ => exec_orderRefused order due refuses, fun _ known => absurd beyond (not_lt.mpr known)⟩
    · obtain ⟨refused, taken⟩ := exec_channelOrder order due
        (by rw [decideAudioSource, sourceOf_code known])
      exact ⟨fun bad => refused (bad.resolve_right (not_lt.mpr known)), fun named _ => taken named⟩
  case gain =>
    intro e s ch gain due
    have changed : decide (84 < gain.toNat) = true ↔ ¬ gain.toNat ≤ 84 := by rw [decide_eq_true_iff, not_le]
    obtain ⟨refused, taken⟩ := exec_channelOrder (c := .audioGain e 0 ch gain)
      (decide := decideAudioGain ch gain) rfl due rfl
    exact ⟨refused, fun named => carriedResult_untagged changed ▸ taken named⟩
  case limiter =>
    intro e s ch threshold release due
    obtain ⟨refused, taken⟩ := exec_channelOrder (c := .audioLimiter e 0 ch threshold release)
      (decide := decideAudioLimiter ch threshold release) rfl due rfl
    exact ⟨refused, fun named => carriedResult_untagged limiter_clamped ▸ taken named⟩
  case tone =>
    intro e s level due
    have order : exec (.toneLevel e 0 level) s =
      .next ((s.arrive e).takeOrder .immediate 0x4B 0 (p1 level) (decideToneLevel level)) := rfl
    exact ⟨fun beyond => exec_orderRefused order due (if_pos beyond),
      fun known => exec_setsAcu order due (if_neg (not_lt.mpr known)) rfl⟩

end Sys2Proof.Machine
end

