-- ==== Sys2Proof/Proofs/AudioSamples.lean ====
section
/-! PROOFS. A sample through a channel, the sets of a block in order, and the meter thresholds (R101 to R105): O42. -/

namespace Sys2Proof.Machine

/-! ## The gain and the limiter (R103, R104) -/

theorem gained_eq (g x : Int) : gained g x = x * g / 65536 := sar_eq ..

section
variable {t release l y : Int}

theorem limit_eq : limit t release l y =
    if t < |y * l / 32768| then (signed y t, t * 32768 / |y|) else (y * l / 32768, min 32768 (l + release)) := by
  have shifted : sar (y * l) 15 = y * l / 32768 := sar_eq ..
  unfold limit
  dsimp only
  rw [size_eq_abs, size_eq_abs, shifted]

/-- A sample over the limit comes out as the limit with its own sign, and the limiter closes to it. -/
theorem limit_above (notNegative : 0 ≤ t) (above : t < |y * l / 32768|) :
    limit t release l y = (y.sign * t, t * 32768 / |y|) := by
  have zero : y = 0 → t = 0 := by
    rintro rfl
    simp only [zero_mul, Int.zero_ediv, abs_zero] at above
    omega
  rw [limit_eq, if_pos above, signed_eq_sign_mul zero]

/-- A sample within the limit passes, and the limiter opens by its release. -/
theorem limit_within (within : |y * l / 32768| ≤ t) :
    limit t release l y = (y * l / 32768, min 32768 (l + release)) :=
  limit_eq.trans (if_neg (not_lt.mpr within))

end

/-! ## The sources (R101) -/

section
variable {c : Channel} {tone x : Int}

theorem Channel.chain_mute (mute : c.now.source = .mute) : c.chain tone x = (0, c.limiter) := by
  simp only [Channel.chain, mute]

theorem Channel.chain_tone (isTone : c.now.source = .tone) : c.chain tone x = (tone, c.limiter) := by
  simp only [Channel.chain, isTone]

theorem Channel.chain_converter (converter : c.now.source = .converter) :
    c.chain tone x =
      limit (limitOf c.now.threshold) c.now.release c.limiter (x * gainOf c.now.gain / 65536) := by
  simp only [Channel.chain, converter, gained_eq]

end

/-! ## The meter thresholds (R105) -/

/-- Each threshold is 8,388,607 times ten to the power of (m − 120)/40, rounded: its fortieth power lies between those
of the bounds of the rounding. -/
theorem meterTable_rounds : ∀ i < 120,
    (2 * meterTable.getD i 0 - 1) ^ 40 * 10 ^ (120 - (i + 1)) ≤ (2 * 8388607) ^ 40 ∧
      (2 * 8388607) ^ 40 < (2 * meterTable.getD i 0 + 1) ^ 40 * 10 ^ (120 - (i + 1)) := by decide

/-- Settles O42: the sets in order, the thresholds, and a sample by its source. -/
theorem sampleThroughAChannel : Obligations.SampleThroughAChannel := by
  refine ⟨fun _ _ _ => rfl, fun _ _ _ _ _ => rfl, ⟨rfl, ?thresholds⟩, ?sample⟩
  case thresholds =>
    intro m low high
    obtain ⟨i, rfl⟩ : ∃ i, m = i + 1 := ⟨m - 1, by omega⟩
    exact meterTable_rounds i high
  case sample =>
    intro c tone x y1 y2 top
    refine ⟨Channel.chain_mute, Channel.chain_tone, fun converter notNegative _ => ⟨fun above => ?_, fun within => ?_⟩,
      rfl, rfl, rfl, rfl⟩
    · exact (Channel.chain_converter converter).trans (limit_above notNegative above)
    · exact (Channel.chain_converter converter).trans (limit_within within)

end Sys2Proof.Machine
end

