-- ==== Sys2Proof/Proofs/AudioBlocks.lean ====
section
/-! PROOFS. The block that the ACU makes of a frame: what it gathers, the work on the sets, the meters and the record
(R97 to R99, R101, R105 to R110). -/

namespace Sys2Proof.Machine

/-! ## The sets gathered (R97, R98) -/

/-- What gathering `g` gives and leaves, `short` being what AUDIO_UNDERRUN would say. -/
def Acu.gathered (a : Acu) (g : Gathered) (short : Option Nat) : Taken × Acu :=
  (⟨g.taken ++ g.pad, g.underrun, g.silent, short⟩,
    { a with fifo := a.fifo.drop g.taken.length, lastSet := g.taken.getLast?.or a.lastSet
             take := g.take, padded := g.padded })

section
variable {a : Acu} {c : Nat} {lost : Bool}

/-- In PRIMING the FIFO stands, and the block is silence. -/
theorem Acu.gather_priming (priming : a.take = .priming) :
    a.gather c lost =
      a.gathered ⟨[], List.replicate c .silence, a.padded, true, a.primed, a.padded && a.clockLost⟩ none := by
  simp only [Acu.gather, priming]
  rfl

/-- In FLOWING with sets enough they are the block. -/
theorem Acu.gather_enough (flowing : a.take = .flowing) (enough : c ≤ a.fifo.length) :
    a.gather c lost = a.gathered ⟨a.fifo.take c, [], false, false, a.primed, a.padded⟩ none := by
  have count : (a.fifo.take c).length = c := List.length_take_of_le enough
  simp only [Acu.gather, flowing, count, if_true, Acu.gathered, List.append_nil, Option.or_eq_orElse]

/-- In FLOWING with too few sets all of them are taken, and under CLOCK_LOST padded with silence. -/
theorem Acu.gather_silenced (flowing : a.take = .flowing) (short : a.fifo.length < c) (clock : lost = true) :
    a.gather c lost =
      a.gathered ⟨a.fifo, List.replicate (c - a.fifo.length) .silence, false, a.fifo.length == 0, .priming, true⟩
        none := by
  simp only [Acu.gather, flowing, List.take_of_length_le short.le, List.drop_of_length_le short.le,
    List.drop_length, if_neg short.ne, clock, if_true, Acu.gathered, Option.or_eq_orElse]

/-- In FLOWING with too few sets all of them are taken, and without CLOCK_LOST padded with the last set, which is
logged. -/
theorem Acu.gather_padded (flowing : a.take = .flowing) (short : a.fifo.length < c) (clock : lost = false) :
    let pad := (a.fifo.getLast?.or a.lastSet).getD .silence
    a.gather c lost =
      a.gathered ⟨a.fifo, List.replicate (c - a.fifo.length) pad, true, a.fifo.length == 0 && pad == .silence, .priming,
        true⟩ (some a.fifo.length) := by
  simp only [Acu.gather, flowing, List.take_of_length_le short.le, List.drop_of_length_le short.le,
    List.drop_length, if_neg short.ne, clock, Bool.false_eq_true, if_false, Acu.gathered, Option.or_eq_orElse]

end

/-! ## The work on the sets (R101, R102) -/

theorem length_workSets (level : Nat) (sets : List AudioSet) (p : Nat) (q : Quad Channel) :
    (workSets level sets p q).1.length = sets.length := by
  induction sets generalizing p q with
  | nil => rfl
  | cons x r ih => exact congrArg (· + 1) (ih _ _)

/-- The tone phase counts the sets, modulo 48. -/
theorem workSets_phase (level : Nat) (sets : List AudioSet) {p : Nat} (q : Quad Channel) (low : p < 48) :
    (workSets level sets p q).2.1 = (p + sets.length) % 48 := by
  induction sets generalizing p q with
  | nil => exact (Nat.mod_eq_of_lt low).symm
  | cons x r ih =>
    have next := ih (q.zip (fun c v => { c with limiter := v.2 })
      (q.zip (fun c v => c.chain (toneSample level p) v) x)) (Nat.mod_lt (p + 1) (by decide))
    refine next.trans ?_
    rw [List.length_cons]
    omega

/-- The work on the sets moves the limiter gains alone. -/
theorem workSets_channels (level : Nat) (sets : List AudioSet) (p : Nat) (q : Quad Channel) :
    (workSets level sets p q).2.2 =
      q.zip (fun c v => { c with limiter := v.limiter }) (workSets level sets p q).2.2 := by
  induction sets generalizing p q with
  | nil => rfl
  | cons x r ih => exact ih _ _

/-- A block holds twelve bytes for a set (R108). -/
theorem length_blockBytes (out : List AudioSet) : (blockBytes out).length = 12 * out.length :=
  length_flatMap_const (n := 12) (fun x => length_flatMap_const (length_leSigned 3) (Quad.list x)) out

/-! ## The meters (R105 to R107) -/

/-- The meters of a channel leave its settings and its limiter gain. -/
theorem Channel.meterBlock_keeps (c : Channel) (n peak : Nat) :
    (c.meterBlock n peak).now = c.now ∧ (c.meterBlock n peak).pending = c.pending ∧
      (c.meterBlock n peak).limiter = c.limiter := by
  unfold Channel.meterBlock
  dsimp only
  repeat' split
  all_goals exact ⟨rfl, rfl, rfl⟩

/-- A channel, `k` before its sets and `v` after them, is `l` after its meters: these follow its output, and its
settings and its limiter gain stand. -/
def Channel.Follows (n : Nat) (k v l : Channel) (out : List Int) : Prop :=
  l.now = k.now ∧ l.pending = k.pending ∧ l.limiter = v.limiter ∧ metersFollow n out k l

theorem Channel.follows_meterBlock {k v : Channel} {n : Nat} {out : List Int}
    (limited : v = { k with limiter := v.limiter }) (small : ∀ v ∈ out, v.natAbs ≤ 8388607) :
    Channel.Follows n k v (v.meterBlock n (peakOf out)) out := by
  obtain ⟨l, rfl⟩ : ∃ l, v = { k with limiter := l } := ⟨_, limited⟩
  obtain ⟨now, pending, limiter⟩ := ({ k with limiter := l } : Channel).meterBlock_keeps n (peakOf out)
  exact ⟨now, pending, limiter, Channel.meterBlock_follows _ n small⟩

/-- No channel's output has a sample larger than full scale. -/
def Quad.Small (out : Quad (List Int)) : Prop :=
  (∀ v ∈ out.c1, v.natAbs ≤ 8388607) ∧ (∀ v ∈ out.c2, v.natAbs ≤ 8388607) ∧ (∀ v ∈ out.c3, v.natAbs ≤ 8388607) ∧
    ∀ v ∈ out.c4, v.natAbs ≤ 8388607

theorem small_channelsOf {out : List AudioSet} (small : ∀ x ∈ out, ∀ v ∈ x.list, v.natAbs ≤ 8388607) :
    (channelsOf out).Small := by
  have channel (f : AudioSet → Int) (sample : ∀ x, f x ∈ x.list) : ∀ v ∈ out.map f, v.natAbs ≤ 8388607 := by
    intro v among
    obtain ⟨x, set, rfl⟩ := List.mem_map.mp among
    exact small x set _ (sample x)
  exact ⟨channel _ fun x => by simp [Quad.list], channel _ fun x => by simp [Quad.list],
    channel _ fun x => by simp [Quad.list], channel _ fun x => by simp [Quad.list]⟩

/-- The overload marks of the record say which channels are over (R107, R110). -/
theorem Quad.Small.overload {out : Quad (List Int)} (small : out.Small) :
    ((out.map peakOf).map fun p => p == 8388607) = out.map overIn := by
  obtain ⟨small1, small2, small3, small4⟩ := small
  simp only [Quad.map, overIn_eq small1, overIn_eq small2, overIn_eq small3, overIn_eq small4]

/-! ## The block and its record (R108 to R110) -/

/-- The sets that `g` gathers, worked with the settings in force at the frame start. -/
def Acu.worked (a : Acu) (g : Gathered) : List AudioSet × Nat × Quad Channel :=
  workSets a.pendingTone (g.taken ++ g.pad) a.phase (a.channels.map Channel.enforce)

/-- The channels after a block, with their meters. -/
def Acu.metered (a : Acu) (g : Gathered) (n : Nat) : Quad Channel :=
  (a.worked g).2.2.zip (fun c p => c.meterBlock n p) ((channelsOf (a.worked g).1).map peakOf)

/-- The record of a block (R110). -/
def Acu.blockRecord (a : Acu) (r : FrameRec) (g : Gathered) : AudioRec :=
  { frame := r.frame, count := r.cadCount, staged := true, slip := a.slipMark, underrun := g.underrun
    clockLost := a.lostMark, silent := g.silent, overload := (channelsOf (a.worked g).1).map overIn
    meters := (a.metered g r.rate.count).map fun c => c.meter
    gains := a.channels.map fun c => c.pending.gain }

section
variable {a : Acu} {g : Gathered}

theorem Acu.small_worked (a : Acu) (g : Gathered) : (channelsOf (a.worked g).1).Small :=
  small_channelsOf (workSets_le a.pendingTone (g.taken ++ g.pad) a.phase (a.channels.map Channel.enforce))

/-- Each channel has taken its pending settings, and its meters follow its output (R99, R105 to R107). -/
theorem Acu.follows_metered (a : Acu) (g : Gathered) (n : Nat) :
    let k := a.channels.map Channel.enforce
    let v := (a.worked g).2.2
    let l := a.metered g n
    let out := channelsOf (a.worked g).1
    Channel.Follows n k.c1 v.c1 l.c1 out.c1 ∧ Channel.Follows n k.c2 v.c2 l.c2 out.c2 ∧
      Channel.Follows n k.c3 v.c3 l.c3 out.c3 ∧ Channel.Follows n k.c4 v.c4 l.c4 out.c4 := by
  intro k v l out
  obtain ⟨small1, small2, small3, small4⟩ := a.small_worked g
  have limited : v = k.zip (fun c v => { c with limiter := v.limiter }) v := workSets_channels ..
  exact ⟨Channel.follows_meterBlock (congrArg Quad.c1 limited) small1,
    Channel.follows_meterBlock (congrArg Quad.c2 limited) small2,
    Channel.follows_meterBlock (congrArg Quad.c3 limited) small3,
    Channel.follows_meterBlock (congrArg Quad.c4 limited) small4⟩

/-- The block of a frame, from what is gathered for it. -/
theorem Acu.makeBlock_eq {r : FrameRec} {short : Option Nat}
    (gathers : a.begin.gather r.cadCount a.lostMark = a.begin.gathered g short) :
    a.makeBlock r =
      ({ (a.begin.gathered g short).2 with channels := a.metered g r.rate.count, phase := (a.worked g).2.1 },
        blockBytes (a.worked g).1, a.blockRecord r g, short) := by
  obtain ⟨⟨now1, -⟩, ⟨now2, -⟩, ⟨now3, -⟩, ⟨now4, -⟩⟩ := a.follows_metered g r.rate.count
  have gains : ((a.metered g r.rate.count).map fun c => c.now.gain) = a.channels.map fun c => c.pending.gain := by
    simp only [Quad.map, now1, now2, now3, now4]
    rfl
  unfold Acu.makeBlock Acu.blockRecord
  dsimp only
  rw [gathers, ← gains, ← (a.small_worked g).overload]
  rfl

end

end Sys2Proof.Machine
end

