-- ==== Sys2Proof/Proofs/AudioStaging.lean ====
section
/-! PROOFS. The ACU takes frame starts, and its blocks go to staging (R108, R109, R118, R119): O43. -/

namespace Sys2Proof.Machine

/-! ## A frame start taken (R109) -/

/-- An occurrence that asks for no safe stop is logged, and leaves memory, the slots and Safe Stop. -/
theorem State.fault_logs {s : State} {k : FaultKind} (x : FaultSource) (d1 d2 : Word) (asks : asksNoStop s k = true)
    (whole : s.flt.kinds.length = 26) :
    ∃ f, s.fault k x d1 d2 = f ∧ logged s f k x d1 d2 0 ∧ f.mem = s.mem ∧ f.stop = s.stop ∧ f.slotA = s.slotA ∧
      f.slotB = s.slotB :=
  ⟨_, rfl, State.logged_fault whole .., State.fault_mem .., State.fault_stop _ _ _ asks, State.fault_slotA ..,
    State.fault_slotB ..⟩

/-- What a frame start logs: AUDIO_UNDERRUN with the sets there were and the sets there should be (R98). -/
def State.underran (s : State) (c : Nat) : Option Nat → State
  | none => s
  | some k => s.fault .audioUnderrun .none (wordOfNat k) (wordOfNat c)

@[simp] theorem State.underran_sta (s : State) (c : Nat) (short : Option Nat) : (s.underran c short).sta = s.sta := by
  cases short
  · rfl
  · exact State.fault_sta ..

@[simp] theorem State.underran_acu (s : State) (c : Nat) (short : Option Nat) : (s.underran c short).acu = s.acu := by
  cases short
  · rfl
  · exact State.fault_acu ..

/-- The claim of a free staging slot (R119). -/
def Sta.claimed (t : Sta) (f : FrameNo) : Sta := { t with claims := t.claims.set (f.toNat % 8) (some f) }

/-- A block goes to its staging slot where that is free. -/
theorem State.stageBlock_free {s : State} {r : AudioRec} (b : List Byte)
    (free : s.sta.claims.getD (r.frame.toNat % 8) none = none) :
    s.stageBlock b r = { s with
      sta := s.sta.claimed r.frame, acu := { s.acu with writing := some ⟨s.acu.slotAddress r.frame, b, r⟩ } } := by
  have claims : s.sta.claim r.frame = some (s.sta.claimed r.frame) := by
    unfold Sta.claim stagingIndex
    rw [free]
    rfl
  unfold State.stageBlock
  rw [claims]
  rfl

section
variable {s : State} {x : FrameStart} {g : Gathered} {short : Option Nat}

/-- The ACU after frame start `x` with `g` gathered: before its block's write begins. -/
def State.acuMade (s : State) (x : FrameStart) (g : Gathered) : Acu :=
  Acu.noteStart { (s.acu.begin.gathered g none).2 with
    channels := s.acu.metered g x.ended.rate.count, phase := (s.acu.worked g).2.1 }
    s.now x.ended.frame s.acu.part s.copyNeeded

/-- The staging write of the block of frame start `x` with `g` gathered. -/
def State.jobMade (s : State) (x : FrameStart) (g : Gathered) : StagingJob :=
  ⟨s.acu.slotAddress x.ended.frame, blockBytes (s.acu.worked g).1, s.acu.blockRecord x.ended g⟩

/-- A frame start after the first makes a block of what is gathered, and its write begins. -/
theorem State.acuTakes_block (place : s.blockAt x)
    (gathers : s.acu.begin.gather x.ended.cadCount s.acu.lostMark = s.acu.begin.gathered g short) :
    s.acuTakes x = { (s.setAcu (s.acuMade x g)).underran x.ended.cadCount short with
      sta := s.sta.claimed x.ended.frame
      acu := { s.acuMade x g with writing := some (s.jobMade x g) } } := by
  obtain ⟨later, -, free⟩ := place
  have block := Acu.makeBlock_eq gathers
  have staged := State.stageBlock_free (s := (s.setAcu (s.acuMade x g)).underran x.ended.cadCount short)
    (r := s.acu.blockRecord x.ended g) (blockBytes (s.acu.worked g).1) (by rw [State.underran_sta]; exact free)
  rw [State.underran_sta, State.underran_acu] at staged
  refine Eq.trans ?_ staged
  unfold State.acuTakes
  dsimp only
  rw [later, block]
  cases short
  all_goals rfl

/-- What a frame start has made, in the terms of the statement. -/
theorem blockFrom_of (place : s.blockAt x) (count : (g.taken ++ g.pad).length = x.ended.cadCount) {t : State}
    (acu : t.acu = { s.acuMade x g with writing := some (s.jobMade x g) })
    (sta : t.sta.claims = (s.sta.claimed x.ended.frame).claims) : blockFrom s t x s.now g := by
  obtain ⟨-, low, -⟩ := place
  have length : (s.acu.worked g).1.length = x.ended.cadCount := (length_workSets ..).trans count
  have phase : (s.acu.worked g).2.1 = (s.acu.phase + x.ended.cadCount) % 48 := by
    rw [← count]
    exact workSets_phase _ _ _ low
  have fill : (s.acu.fifo.drop g.taken.length).length = s.acu.fifo.length - g.taken.length := List.length_drop
  obtain ⟨follows1, follows2, follows3, follows4⟩ := s.acu.follows_metered g x.ended.rate.count
  unfold blockFrom
  rw [acu, sta]
  refine ⟨⟨s.jobMade x g, rfl, rfl, rfl, ?_, rfl⟩, follows1, follows2, follows3, follows4, rfl, rfl, rfl, rfl, rfl, rfl,
    phase, rfl, rfl, rfl, fill, rfl, rfl, rfl, rfl⟩
  exact (length_blockBytes _).trans (by rw [length])

/-- A frame start that logs nothing makes its block, and changes the ACU and the claims alone. -/
theorem State.acuTakes_makes (place : s.blockAt x) (count : (g.taken ++ g.pad).length = x.ended.cadCount)
    (gathers : s.acu.begin.gather x.ended.cadCount s.acu.lostMark = s.acu.begin.gathered g none) :
    blockFrom s (s.acuTakes x) x s.now g ∧
      ∃ a, s.acuTakes x = { s with sta := s.sta.claimed x.ended.frame, acu := a } ∧ a.arriving = s.acu.arriving ∧
        a.heldStart = s.acu.heldStart ∧ a.writing = some (s.jobMade x g) := by
  rw [State.acuTakes_block place gathers]
  exact ⟨blockFrom_of place count rfl rfl, _, rfl, rfl, rfl, rfl⟩

/-- A frame start that logs AUDIO_UNDERRUN makes its block, and leaves the rest of the STA, the slots and Safe Stop. -/
theorem State.acuTakes_underruns {k : Nat} (place : s.blockAt x)
    (count : (g.taken ++ g.pad).length = x.ended.cadCount)
    (gathers : s.acu.begin.gather x.ended.cadCount s.acu.lostMark = s.acu.begin.gathered g (some k))
    (asks : asksNoStop s .audioUnderrun = true) (whole : s.flt.kinds.length = 26) :
    ∃ t, s.acuTakes x = t ∧ blockFrom s t x s.now g ∧
      logged s t .audioUnderrun .none (wordOfNat k) (wordOfNat x.ended.cadCount) 0 ∧
      t.acu.arriving = s.acu.arriving ∧ t.sta.pending = s.sta.pending ∧ t.mem = s.mem ∧ t.stop = s.stop ∧
      t.slotA = s.slotA ∧ t.slotB = s.slotB := by
  obtain ⟨f, faults, logs, mem, stop, slotA, slotB⟩ := State.fault_logs (s := s.setAcu (s.acuMade x g)) .none
    (wordOfNat k) (wordOfNat x.ended.cadCount) asks whole
  have takes := State.acuTakes_block place gathers
  rw [State.underran, faults] at takes
  exact ⟨_, takes, blockFrom_of place count rfl rfl, logs, rfl, rfl, mem, stop, slotA, slotB⟩

/-- In FLOWING with sets enough they are the block (R98). -/
theorem State.acuTakes_flows (flows : s.flowsAt x) :
    blockMade s (s.acuTakes x) x s.now ∧
      ∃ a j, s.acuTakes x = { s with sta := s.sta.claimed x.ended.frame, acu := a } ∧ a.arriving = s.acu.arriving ∧
        a.heldStart = s.acu.heldStart ∧ a.writing = some j := by
  obtain ⟨place, flowing, enough⟩ := flows
  have count : (s.acu.fifo.take x.ended.cadCount ++ []).length = x.ended.cadCount := by
    rw [List.append_nil, List.length_take_of_le enough]
  obtain ⟨made, a, takes, parts⟩ := State.acuTakes_makes place (g := ⟨_, [], _, _, _, _⟩) count
    (Acu.gather_enough (a := s.acu.begin) flowing enough)
  exact ⟨made, a, _, takes, parts⟩

/-- The first frame start after the entry to RUNNING makes no block (R97). -/
theorem State.acuTakes_first (first : x.first = true) :
    s.acuTakes x = s.setAcu (Acu.noteStart { s.acu.begin with take := s.acu.begin.primed, padded := false } s.now
      x.ended.frame s.acu.part s.copyNeeded) := if_pos first

end

/-! ## Audio records (R118) -/

section
variable {s : State} {a : AudioRec}

/-- With no record pending and none early, a record of a frame that the STA has taken is held. -/
theorem State.audioRecord_held (noPending : s.sta.pending = []) (empty : s.sta.early = [])
    (known : notNewer s.sta.newest a.frame = true) :
    s.audioRecord a = s.setSta { s.sta with early := [a] } := by
  have held : s.sta.holdEarly a = { s.sta with early := [a] } := by
    unfold Sta.holdEarly
    rw [empty]
    rfl
  have joinsNone : ¬ (s.sta.pending.any fun p => p.frame.frame == a.frame) = true := by simp [noPending]
  unfold State.audioRecord
  dsimp only
  rw [if_neg joinsNone, if_pos known, held]

/-- A staged record joins the one record pending, which stays where it is not due. -/
theorem State.audioRecord_joined {p : PendingRec} (one : s.sta.pending = [p]) (same : p.frame.frame = a.frame)
    (staged : a.staged = true) (early : s.sta.due p.frame.frame = false) :
    s.audioRecord a = s.setSta { s.sta with pending := [{ p with audio := some a }] } := by
  have joins : ([p].any fun p => p.frame.frame == a.frame) = true := by simp [same]
  have joined : [p].map (joinRecord a) = [{ p with audio := some a }] := by simp [joinRecord, same]
  have keeps (t : Sta) : t.settleClaim a false = t := by simp [Sta.settleClaim, staged]
  unfold State.audioRecord
  dsimp only
  rw [one, if_pos joins, keeps, joined]
  refine State.lookAtHead_waits fun q head => .inr ?_
  obtain rfl : { p with audio := some a } = q := Option.some.inj head
  exact early

end

/-! ## Frame starts that come during a write (R108) -/

/-- The write in flight is no more. -/
def State.writeEnded (s : State) : State := s.setAcu { s.acu with writing := none }

/-- The write in flight has ended with these bytes of its block in memory. -/
def State.blockStored (s : State) (j : StagingJob) (bytes : List Byte) : State :=
  { s.writeEnded with mem := Memory.writeAll s.mem j.address bytes }

section
variable {s : State} {x h : FrameStart} {j : StagingJob}

/-- With no write in flight a frame start is taken. -/
theorem State.acuFrame_takes (idle : s.acu.writing = none) : s.acuFrame x = s.acuTakes x := by
  simp only [State.acuFrame, State.acuReached, idle]

/-- During a write it is held. -/
theorem State.acuFrame_holds (writing : s.acu.writing = some j) (held : s.acu.heldStart = none) :
    s.acuFrame x = s.setAcu { s.acu with heldStart := some x } := by
  simp only [State.acuFrame, State.acuReached, writing, held]

/-- With one held already the write stops, the held one is taken, and the newer one reaches the ACU. -/
theorem State.acuFrame_stops (writing : s.acu.writing = some j) (held : s.acu.heldStart = some h) :
    s.acuFrame x = (s.writeEnded.audioRecord { j.record with staged := false }).acuTakesHeld.acuReached x := by
  simp only [State.acuFrame, State.writeEnded, writing, held]

theorem State.acuReached_holds (writing : s.acu.writing = some j) :
    s.acuReached x = s.setAcu { s.acu with heldStart := some x } := by
  simp only [State.acuReached, writing]

theorem State.acuTakesHeld_none (held : s.acu.heldStart = none) : s.acuTakesHeld = s := by
  simp only [State.acuTakesHeld, held]

theorem State.acuTakesHeld_some (held : s.acu.heldStart = some h) :
    s.acuTakesHeld = (s.setAcu { s.acu with heldStart := none }).acuTakes h := by
  simp only [State.acuTakesHeld, held]

/-- A held frame start is taken in FLOWING with sets enough. -/
theorem State.acuTakesHeld_flows (held : s.acu.heldStart = some h) (flows : s.flowsAt h) :
    blockMade s s.acuTakesHeld h s.now ∧
      ∃ a j, s.acuTakesHeld = { s with sta := s.sta.claimed h.ended.frame, acu := a } ∧
        a.arriving = s.acu.arriving ∧ a.heldStart = none ∧ a.writing = some j := by
  rw [State.acuTakesHeld_some held]
  exact State.acuTakes_flows (s := s.setAcu { s.acu with heldStart := none }) flows

end

/-! ## The commands -/

section
variable {e : Env} {s t : State} {x : FrameStart} {rest : List FrameStart} {j : StagingJob}

/-- The end of a step that leaves a quiet part quiet. -/
theorem State.settle_calm (calm : quiet s = true) (stop : t.stop = s.stop) (slotA : t.slotA = s.slotA)
    (slotB : t.slotB = s.slotB) : t.settle.judgeSlots (s.arrive e) = t.release := by
  have still : quiet t = true := by
    unfold quiet
    rw [stop, slotA, slotB]
    exact calm
  rw [State.settle_quiet still]
  exact State.judgeSlots_of_slots (congrArg Slot.st slotA) (congrArg Slot.st slotB)

/-- The state in which the next frame start on its way reaches the ACU. -/
def State.acuReady (s : State) (e : Env) (rest : List FrameStart) : State :=
  (s.arrive e).setAcu { s.acu with arriving := rest }

theorem exec_acuFrameStart (arriving : s.acu.arriving = x :: rest) (calm : quiet s = true)
    (took : (s.acuReady e rest).acuFrame x = t) (stop : t.stop = s.stop) (slotA : t.slotA = s.slotA)
    (slotB : t.slotB = s.slotB) : exec (.acuFrameStart e) s = .next t.release := by
  show execAcuFrameStart e s = _
  unfold execAcuFrameStart
  dsimp only
  rw [State.arrive_acu, arriving]
  exact congrArg Host.Outcome.next
    ((congrArg (fun t : State => t.settle.judgeSlots (s.arrive e)) took).trans (State.settle_calm calm stop slotA slotB))

theorem exec_stagingWriteDone (writing : s.acu.writing = some j) (calm : quiet s = true)
    (done : (s.arrive e).stagingDone j = t) (stop : t.stop = s.stop) (slotA : t.slotA = s.slotA)
    (slotB : t.slotB = s.slotB) : exec (.stagingWriteDone e) s = .next t.release := by
  show execStagingWriteDone e s = _
  unfold execStagingWriteDone
  dsimp only
  rw [State.arrive_acu, writing]
  exact congrArg Host.Outcome.next
    ((congrArg (fun t : State => t.settle.judgeSlots (s.arrive e)) done).trans (State.settle_calm calm stop slotA slotB))

/-- The write completes: the block stands, its record is sent, and a held frame start is taken. -/
theorem State.stagingDone_ok (fits : s.busError j.address j.block.length = none) :
    s.stagingDone j = ((s.blockStored j j.block).audioRecord j.record).acuTakesHeld := by
  simp only [State.stagingDone, fits]
  rfl

/-- The write fails: the bytes below the failing address stand, and its record is sent not staged. -/
theorem State.stagingDone_fails {bad : Nat} (fails : s.busError j.address j.block.length = some bad) :
    s.stagingDone j = (((s.blockStored j (j.block.take (bad - j.address))).busFault .acu bad).audioRecord
      { j.record with staged := false }).acuTakesHeld := by
  simp only [State.stagingDone, fails]
  rfl

end

/-- Settles O43: a frame start taken by the take mode, held during a write or stopping it, and the end of a write. -/
theorem audioBlocksMadeAndStaged : Obligations.AudioBlocksMadeAndStaged := by
  refine ⟨?flows, ?takes, ?holds, ?stops, ?goesOn, ?completes⟩
  case flows =>
    intro e s x rest arriving idle held flows calm
    have took := State.acuFrame_takes (s := s.acuReady e rest) (x := x) idle
    obtain ⟨made, a, _, takes, arrived, kept, -⟩ := State.acuTakes_flows (s := s.acuReady e rest) flows
    rw [takes] at made
    exact ⟨_, exec_acuFrameStart arriving calm (took.trans takes) rfl rfl rfl, made, arrived, kept.trans held, rfl, rfl,
      rfl, rfl, rfl, rfl, rfl, rfl, rfl, rfl, rfl, rfl, rfl⟩
  case takes =>
    intro e s x rest arriving idle held calm c k silence pad
    have took := State.acuFrame_takes (s := s.acuReady e rest) (x := x) idle
    have padded (v : AudioSet) (short : k < c) : (s.acu.fifo ++ List.replicate (c - k) v).length = c := by
      rw [List.length_append, List.length_replicate]
      exact Nat.add_sub_cancel' short.le
    refine ⟨fun first _ => ?first, fun place priming => ?silent, fun place flowing short lost => ?silenced,
      fun place flowing short lost asks whole => ?padded⟩
    case first =>
      exact ⟨_, exec_acuFrameStart arriving calm (took.trans (State.acuTakes_first first)) rfl rfl rfl, rfl, idle, rfl,
        rfl, rfl, rfl, rfl, rfl, rfl, rfl, rfl, rfl, rfl, rfl, rfl, rfl⟩
    case silent =>
      obtain ⟨made, a, takes, arrived, -⟩ := State.acuTakes_makes (s := s.acuReady e rest) (g := ⟨[], _, _, _, _, _⟩)
        place List.length_replicate (Acu.gather_priming priming)
      rw [takes] at made
      exact ⟨_, exec_acuFrameStart arriving calm (took.trans takes) rfl rfl rfl, arrived, made, rfl, rfl, rfl⟩
    case silenced =>
      obtain ⟨made, a, takes, arrived, -⟩ := State.acuTakes_makes (s := s.acuReady e rest) place (padded _ short)
        (Acu.gather_silenced flowing short lost)
      rw [takes] at made
      exact ⟨_, exec_acuFrameStart arriving calm (took.trans takes) rfl rfl rfl, arrived, made, rfl, rfl, rfl⟩
    case padded =>
      obtain ⟨t, takes, made, logs, arrived, pending, mem, stop, slotA, slotB⟩ :=
        State.acuTakes_underruns (s := s.acuReady e rest) place (padded _ short)
          (Acu.gather_padded flowing short lost) asks whole
      exact ⟨_, exec_acuFrameStart arriving calm (took.trans takes) stop slotA slotB, arrived, made, logs, pending, mem⟩
  case holds =>
    intro e s x rest j arriving writing held calm
    exact exec_acuFrameStart arriving calm (State.acuFrame_holds (s := s.acuReady e rest) writing held) rfl rfl rfl
  case stops =>
    intro e s x h rest j arriving writing held flows calm noPending empty known
    have stopped := State.acuFrame_stops (s := s.acuReady e rest) (x := x) writing held
    rw [State.audioRecord_held (s := (s.acuReady e rest).writeEnded) (a := { j.record with staged := false }) noPending
      empty known] at stopped
    obtain ⟨made, a, i, takes, arrived, -, begun⟩ := State.acuTakesHeld_flows
      (s := (s.acuReady e rest).writeEnded.setSta { s.sta with early := [{ j.record with staged := false }] }) held flows
    rw [takes] at made
    have holds := (congrArg (fun t : State => t.acuReached x) takes).trans (State.acuReached_holds (x := x) begun)
    exact ⟨_, exec_acuFrameStart arriving calm (stopped.trans holds) rfl rfl rfl, made, arrived, rfl, rfl, rfl, rfl⟩
  case goesOn =>
    intro e s h j writing held flows calm noPending empty known fits
    have done := State.stagingDone_ok fits
    rw [State.audioRecord_held (s := (s.arrive e).blockStored j j.block) noPending empty known] at done
    obtain ⟨made, a, i, takes, arrived, taken, -⟩ := State.acuTakesHeld_flows
      (s := ((s.arrive e).blockStored j j.block).setSta { s.sta with early := [j.record] }) held flows
    rw [takes] at made
    exact ⟨_, exec_stagingWriteDone writing calm (done.trans takes) rfl rfl rfl, made, arrived, taken, rfl, rfl, rfl⟩
  case completes =>
    intro e s j writing held calm wf u
    refine ⟨fun p fits one same staged early => ?joins, fun fits noPending empty known => ?held,
      fun bad fails noPending empty known asks => ?fails, fun a outside => ?rest⟩
    case joins =>
      have joined := State.audioRecord_joined (s := u.blockStored j j.block) one same staged early
      have done := (State.stagingDone_ok fits).trans (congrArg State.acuTakesHeld joined)
      exact exec_stagingWriteDone writing calm (done.trans (State.acuTakesHeld_none held)) rfl rfl rfl
    case held =>
      have sent := State.audioRecord_held (s := u.blockStored j j.block) noPending empty known
      have done := (State.stagingDone_ok fits).trans (congrArg State.acuTakesHeld sent)
      exact exec_stagingWriteDone writing calm (done.trans (State.acuTakesHeld_none held)) rfl rfl rfl
    case fails =>
      have done := State.stagingDone_fails fails
      rw [State.audioRecord_held (by rwa [State.busFault_sta]) (by rwa [State.busFault_sta])
          (by rwa [State.busFault_sta]),
        State.acuTakesHeld_none (by rwa [State.setSta_acu, State.busFault_acu]), State.busFault_sta] at done
      exact exec_stagingWriteDone writing calm done
        (State.fault_stop (s := u.blockStored j (j.block.take (bad - j.address))) _ _ _ asks)
        (State.fault_slotA ..) (State.fault_slotB ..)
    case rest => exact Memory.read_writeAll_outside (State.arrive_wf wf) outside

end Sys2Proof.Machine
end

