-- ==== Sys2Proof/Proofs/FramesDropped.lean ====
section
/-! PROOFS. Units are given back, frames are dropped, and what a bus error in a group copy costs (R122, R127, R133):
O46. -/

namespace Sys2Proof.Machine

/-! ## Units given back (R122, R225) -/

section
variable {s : State}

/-- An entry of the unit table is written EMPTY where no address fails. -/
theorem State.emptyUnit_ok {i : Nat} (errors : s.busErrors = []) (top : s.unitAddress i + 4 ≤ 4294967296) :
    s.emptyUnit i = { s with mem := Memory.writeAll s.mem (s.unitAddress i) (leBytes 4 0) } := by
  unfold State.emptyUnit
  rw [State.blockWrite_ok (State.busError_none errors (by rw [length_leBytes]; exact top))]

/-- The entries of the unit table lie in the part's window (R217). -/
theorem State.OpenBus.unit_top (bus : s.OpenBus) {i : Nat} (entry : i < 8) : s.unitAddress i + 4 ≤ 4294967296 := by
  have top := bus.top
  unfold State.unitAddress
  omega

theorem State.OpenBus.setSta (bus : s.OpenBus) (t : Sta) : (s.setSta t).OpenBus := ⟨bus.errors, bus.top⟩

/-- Common memory with the used entry, if any, written EMPTY (R225). -/
def State.memAfterUse (s : State) : Option UsedUnit → List Host.Cell
  | none => s.mem
  | some v => Memory.writeAll s.mem (s.unitAddress v.entry) (leBytes 4 0)

/-- The used entry is given back where no address fails. -/
theorem State.emptyUsed_ok {u : Option UsedUnit} (fits : ∀ v, u = some v → v.entry < 8 ∧ s.OpenBus) :
    s.emptyUsed u = { s with mem := s.memAfterUse u } := by
  cases u with
  | none => rfl
  | some v =>
    obtain ⟨entry, bus⟩ := fits v rfl
    exact State.emptyUnit_ok bus.errors (bus.unit_top entry)

end

/-! ## Dropped frames (R133) -/

/-- The STA with a frame dropped: its claim released, the count one higher, the floor raised to it (R132, R133). -/
def Sta.dropping (t : Sta) (f : FrameNo) : Sta :=
  { t.releaseClaim f with dropped := satSucc 65535 t.dropped, floor := Machine.raiseFloor t.floor f }

section
variable (t : Sta) (f : FrameNo)

@[simp] theorem Sta.dropping_index : (t.dropping f).index = t.index := by
  unfold Sta.dropping Sta.releaseClaim
  split <;> rfl

@[simp] theorem Sta.dropping_pending : (t.dropping f).pending = t.pending := Sta.releaseClaim_pending ..

@[simp] theorem Sta.dropping_copy : (t.dropping f).copy = t.copy := by
  unfold Sta.dropping Sta.releaseClaim
  split <;> rfl

@[simp] theorem Sta.dropping_writePos : (t.dropping f).writePos = t.writePos := by
  unfold Sta.dropping Sta.releaseClaim
  split <;> rfl

theorem Sta.dropping_dropped : (t.dropping f).dropped = min 65535 (t.dropped + 1) := satSucc_eq ..

theorem Sta.dropping_floor : (t.dropping f).floor = raiseFloor t.floor f := rfl

/-- The claim of the frame dropped is released, where it holds one (R119). -/
theorem Sta.dropping_claims {t : Sta} {f : FrameNo} (held : t.claims.getD (f.toNat % 8) none = some f) :
    (t.dropping f).claims = t.claims.set (f.toNat % 8) none := by
  unfold Sta.dropping Sta.releaseClaim stagingIndex
  rw [if_pos held]

end

section
variable {s : State} {f : FrameNo} {x : SlotId}

/-- A frame dropped: its unit, the STA, then the slots told to close, and records that nothing needs go (R133). -/
theorem State.dropFrame_eq (s : State) (f : FrameNo) (u : Option UsedUnit) :
    s.dropFrame f u = ((((s.emptyUsed u).setSta (s.sta.dropping f)).dropClose f .a).dropClose f .b).release := by
  have same : ((s.emptyUsed u).sta.releaseClaim f).dropped = s.sta.dropped ∧
      ((s.emptyUsed u).sta.releaseClaim f).floor = s.sta.floor := by
    rw [State.emptyUsed_sta]
    unfold Sta.releaseClaim
    split <;> exact ⟨rfl, rfl⟩
  unfold State.dropFrame State.raiseFloor Sta.dropping
  dsimp only [State.setSta]
  rw [same.1, same.2, State.emptyUsed_sta]

/-- A slot with no clip is not told to close. -/
theorem State.dropClose_noClip (empty : (s.slot x).clip = none) : s.dropClose f x = s := by
  unfold State.dropClose
  split
  next clip => exact absurd (empty.symm.trans clip) nofun
  next => rfl

/-- With no clip on either slot none is told to close. -/
theorem State.dropFrame_noClip (u : Option UsedUnit) (fits : ∀ v, u = some v → v.entry < 8 ∧ s.OpenBus)
    (emptyA : s.slotA.clip = none) (emptyB : s.slotB.clip = none) :
    s.dropFrame f u = State.release { s with mem := s.memAfterUse u, sta := s.sta.dropping f } := by
  have open_ (t : State) (emptyA : t.slotA.clip = none) (emptyB : t.slotB.clip = none) :
      (t.dropClose f .a).dropClose f .b = t := by
    rw [State.dropClose_noClip (x := .a) emptyA, State.dropClose_noClip (x := .b) emptyB]
  rw [State.dropFrame_eq, State.emptyUsed_ok fits]
  exact congrArg State.release (open_ _ emptyA emptyB)

end

/-! ## Bus errors in a group copy (R127) -/

section
variable {e : Env} {s t : State} {g : GroupCopy} {site : CopySite} {a : Word}

/-- A common bus error that the STA meets. -/
theorem State.busFault_bySta (s : State) (bad : Nat) :
    s.busFault .sta bad = s.fault .commonBus .none 4 (BitVec.ofNat 32 bad) := rfl

/-- A quiet part has no clip. -/
theorem quiet_noClip (calm : quiet s = true) : s.slotA.clip = none ∧ s.slotB.clip = none := by
  obtain ⟨idleA, idleB, -, -⟩ := quiet_parts calm
  exact ⟨(Slot.idle_parts idleA).1, (Slot.idle_parts idleB).1⟩

/-- The bus error reaches the copy in a quiet part. -/
theorem exec_groupCopyBusError (copy : s.sta.copy = some g) (reaches : g.reaches site = true) (calm : quiet s = true)
    (costs : (s.arrive e).copyBusError g site a.toNat = t) (stop : t.stop = s.stop) (slotA : t.slotA = s.slotA)
    (slotB : t.slotB = s.slotB) : exec (.groupCopyBusError e site a) s = .next t.release := by
  show execGroupCopyBusError e site a s = _
  unfold execGroupCopyBusError
  dsimp only
  rw [State.arrive_sta, copy]
  dsimp only
  rw [if_pos reaches, costs, State.settle_calm calm stop slotA slotB]

end

/-- Settles O46, site by site. -/
theorem groupCopyBusErrors : Obligations.GroupCopyBusErrors := by
  intro e s g a copy calm asks f
  have fault : (s.arrive e).busFault .sta a.toNat = f := by
    rw [State.busFault_bySta, BitVec.ofNat_toNat, BitVec.setWidth_eq]
  have sta : f.sta = s.sta := State.fault_sta ..
  have shc : f.shc = s.shc := State.fault_shc ..
  have errors : f.busErrors = e.errors := State.fault_busErrors ..
  have stop : f.stop = s.stop := State.fault_stop (s := s.arrive e) _ _ _ asks
  have slotA : f.slotA = s.slotA := State.fault_slotA ..
  have slotB : f.slotB = s.slotB := State.fault_slotB ..
  have open_ (clean : e.errors = []) (top : s.shc.partBase.toNat + 16384 ≤ 4294967296) : f.OpenBus :=
    ⟨errors.trans clean, shc ▸ top⟩
  refine ⟨fun v used entry clean top => ?unit, fun staged good => ?staging, fun fits => ?stream⟩
  case unit =>
    refine exec_groupCopyBusError copy (by simp [GroupCopy.reaches, used]) calm ?_ stop slotA slotB
    unfold State.copyBusError
    dsimp only
    rw [fault, used, State.emptyUsed_ok fun w same => ⟨Option.some.inj same ▸ entry, open_ clean top⟩]
    simp only [State.setSta, sta, State.memAfterUse, State.unitAddress, shc]
  case staging =>
    refine exec_groupCopyBusError copy (by simp [GroupCopy.reaches, GroupCopy.soundless, staged, good]) calm ?_ stop
      slotA slotB
    unfold State.copyBusError
    dsimp only
    rw [fault, sta]
    rfl
  case stream =>
    obtain ⟨emptyA, emptyB⟩ := quiet_noClip calm
    have mem : f.memAfterUse g.unit = (match g.unit with
        | some v => Memory.writeAll f.mem (s.shc.partBase.toNat + 0x3400 + 32 * v.entry) (leBytes 4 0)
        | none => f.mem) := by
      cases g.unit with
      | none => rfl
      | some v => simp only [State.memAfterUse, State.unitAddress, shc]
    have dropped : (s.arrive e).copyBusError g .stream a.toNat =
        State.release { f with mem := f.memAfterUse g.unit, sta := Sta.dropping { s.sta with copy := none } g.source.frame.frame } := by
      unfold State.copyBusError
      dsimp only
      rw [fault, State.dropFrame_noClip, sta]
      · rfl
      · exact fun v used => 
          have ⟨entry, clean, top⟩ := fits v used
          ⟨entry, (open_ clean top).setSta _⟩
      · exact slotA ▸ emptyA
      · exact slotB ▸ emptyB
    refine ⟨_, exec_groupCopyBusError copy rfl calm dropped stop slotA slotB, ?_⟩
    rw [State.release_release]
    exact ⟨Sta.dropping_copy .., Sta.dropping_pending .., Sta.dropping_dropped _ g.source.frame.frame, rfl,
      fun held => Sta.dropping_claims (t := { s.sta with copy := none }) held, Sta.dropping_writePos .., rfl, mem, shc,
      slotA, slotB⟩

end Sys2Proof.Machine
end

