-- ==== Sys2Proof/Proofs/UnitsJudged.lean ====
section
/-! PROOFS. The STA reads the unit table and judges its entries against a frame (R122 to R124, log 50). -/

namespace Sys2Proof.Machine

/-! ## Reading the unit table (R224, R225) -/

theorem index_unitEntry {i : Nat} {b : List Byte} {u : UnitEntry} (h : unitEntry i b = some u) : u.index = i := by
  unfold unitEntry at h
  split at h
  · obtain rfl := Option.some.inj h
    rfl
  · cases h

/-- The entries read lie in the table, each at a place of its own. -/
structure UnitsPlaced (l : List UnitEntry) : Prop where
  inTable : ∀ k ∈ l, k.index < 8
  apart : l.Pairwise fun k m => k.index ≠ m.index

theorem unitsPlaced_unitEntries (b : List Byte) : UnitsPlaced (unitEntries b) where
  inTable k mem := by
    obtain ⟨i, small, read⟩ := List.mem_filterMap.mp mem
    exact index_unitEntry read ▸ List.mem_range.mp small
  apart := List.Pairwise.filterMap _ (fun i j less k read m read' => by
    rw [index_unitEntry read, index_unitEntry read']
    exact Nat.ne_of_lt less) List.pairwise_lt_range

section
variable {s : State} {l r : List UnitEntry} {k c : UnitEntry} {F : FrameNo}

theorem State.readUnits_placed (read : s.readUnits = .ok l) : UnitsPlaced l := by
  unfold State.readUnits at read
  split at read
  · cases read
  · obtain rfl := Except.ok.inj read
    exact unitsPlaced_unitEntries _

theorem UnitsPlaced.tail (h : UnitsPlaced (k :: r)) : UnitsPlaced r :=
  ⟨fun m mem => h.inTable m (List.mem_cons_of_mem _ mem), h.apart.tail⟩

theorem UnitsPlaced.head (h : UnitsPlaced (k :: r)) : k.index < 8 := h.inTable k List.mem_cons_self

theorem UnitsPlaced.filter (h : UnitsPlaced l) (p : UnitEntry → Bool) : UnitsPlaced (l.filter p) :=
  ⟨fun k mem => h.inTable k (List.mem_of_mem_filter mem), h.apart.filter p⟩

/-! ## Entries written EMPTY (R124, R225) -/

/-- An entry of the table at `base` written EMPTY. -/
def State.entryGone (base : Nat) (s : State) (k : UnitEntry) : State :=
  { s with mem := Memory.writeAll s.mem (base + 0x3400 + 32 * k.index) (leBytes 4 0) }

theorem State.OpenBus.entryGone (bus : s.OpenBus) (base : Nat) (k : UnitEntry) : (s.entryGone base k).OpenBus :=
  ⟨bus.errors, bus.top⟩

theorem State.OpenBus.emptyUnit (bus : s.OpenBus) (inTable : k.index < 8) :
    s.emptyUnit k.index = s.entryGone s.shc.partBase.toNat k := State.emptyUnit_ok bus.errors (bus.unit_top inTable)

theorem State.emptyUnits_ok (bus : s.OpenBus) (placed : UnitsPlaced l) :
    l.foldl (fun s u => s.emptyUnit u.index) s = l.foldl (State.entryGone s.shc.partBase.toNat) s := by
  induction l generalizing s with
  | nil => rfl
  | cons k r ih =>
    rw [List.foldl_cons, List.foldl_cons, bus.emptyUnit placed.head]
    exact ih (bus.entryGone ..) placed.tail

/-! ## Late units and second ones (R123, log 50) -/

theorem olderFrame_self (f : FrameNo) : olderFrame f f = false := by simp [olderFrame]

/-- An entry that is late, or second, is written EMPTY and logged. -/
def State.unitSpent (base : Nat) (F : FrameNo) (s : State) (k : UnitEntry) : State :=
  (s.entryGone base k).fault (if olderFrame k.frame F then .unitLate else .unitDup) .none (BitVec.ofNat 32 k.index)
    k.frame

/-- The entries that are late for frame `F`, or second to its candidate. -/
def spentUnits (F : FrameNo) (c : Option UnitEntry) (l : List UnitEntry) : List UnitEntry :=
  l.filter fun k => olderFrame k.frame F || (k.frame == F && c.any fun c => c.index != k.index)

theorem State.OpenBus.unitSpent (bus : s.OpenBus) (base : Nat) (F : FrameNo) (k : UnitEntry) :
    (s.unitSpent base F k).OpenBus :=
  ⟨(State.fault_busErrors ..).trans bus.errors, by
    unfold State.unitSpent
    rw [State.fault_shc]
    exact bus.top⟩

theorem State.partBase_unitSpent (s : State) (base : Nat) (F : FrameNo) (k : UnitEntry) :
    (s.unitSpent base F k).shc.partBase = s.shc.partBase := by
  unfold State.unitSpent
  rw [State.fault_shc]
  rfl

/-- Spending entries leaves the bus and the place of the table. -/
theorem State.OpenBus.unitsSpent (bus : s.OpenBus) (base : Nat) (F : FrameNo) (l : List UnitEntry) :
    (l.foldl (State.unitSpent base F) s).OpenBus ∧
      (l.foldl (State.unitSpent base F) s).shc.partBase = s.shc.partBase := by
  induction l generalizing s with
  | nil => exact ⟨bus, rfl⟩
  | cons k r ih =>
    obtain ⟨after, base'⟩ := ih (bus.unitSpent base F k)
    exact ⟨after, base'.trans (s.partBase_unitSpent ..)⟩

/-- A late entry is spent. -/
theorem State.judgeUnits_late (bus : s.OpenBus) (inTable : k.index < 8) (late : olderFrame k.frame F = true)
    (c : Option UnitEntry) : State.judgeUnits F (k :: r) c s =
      State.judgeUnits F r c (s.unitSpent s.shc.partBase.toNat F k) := by
  conv_lhs => unfold State.judgeUnits
  rw [if_pos late, bus.emptyUnit inTable]
  unfold State.unitSpent
  rw [if_pos late]
  rfl

/-- An entry of the frame is spent where a candidate stands. -/
theorem State.judgeUnits_second (bus : s.OpenBus) (inTable : k.index < 8) (same : k.frame = F) (c : UnitEntry) :
    State.judgeUnits F (k :: r) (some c) s =
      State.judgeUnits F r (some c) (s.unitSpent s.shc.partBase.toNat F k) := by
  have late : ¬ olderFrame k.frame F = true := by simp [same, olderFrame_self]
  rw [State.judgeUnits, if_neg late, if_pos same, bus.emptyUnit inTable]
  unfold State.unitSpent
  rw [if_neg late, same]
  rfl

/-- An entry of a later frame stays. -/
theorem State.judgeUnits_later (late : ¬ olderFrame k.frame F = true) (other : k.frame ≠ F) (c : Option UnitEntry) :
    State.judgeUnits F (k :: r) c s = State.judgeUnits F r c s := by
  conv_lhs => unfold State.judgeUnits
  rw [if_neg late, if_neg other]

/-- With a candidate found, every late entry and every other one of the frame is spent. -/
theorem State.judgeUnits_some (bus : s.OpenBus) (placed : UnitsPlaced l) (apart : ∀ k ∈ l, c.index ≠ k.index) :
    State.judgeUnits F l (some c) s =
      ((spentUnits F (some c) l).foldl (State.unitSpent s.shc.partBase.toNat F) s, some c) := by
  induction l generalizing s with
  | nil => rfl
  | cons k r ih =>
    have away : (c.index != k.index) = true := bne_iff_ne.mpr (apart k List.mem_cons_self)
    have rest (m : UnitEntry) (mem : m ∈ r) := apart m (List.mem_cons_of_mem _ mem)
    have spent := ih (bus.unitSpent s.shc.partBase.toNat F k) placed.tail rest
    rw [State.partBase_unitSpent] at spent
    by_cases late : olderFrame k.frame F = true
    · rw [State.judgeUnits_late bus placed.head late, spent]
      simp [spentUnits, late]
    · by_cases same : k.frame = F
      · rw [State.judgeUnits_second bus placed.head same, spent]
        simp [spentUnits, same, away]
      · rw [State.judgeUnits_later late same, ih bus placed.tail rest]
        simp [spentUnits, late, same]

/-- The candidate is the first entry of the frame; the late entries and the second ones are spent, in table order. -/
theorem State.judgeUnits_ok (bus : s.OpenBus) (placed : UnitsPlaced l) :
    State.judgeUnits F l none s =
      ((spentUnits F (l.find? fun k => k.frame == F) l).foldl (State.unitSpent s.shc.partBase.toNat F) s,
        l.find? fun k => k.frame == F) := by
  induction l generalizing s with
  | nil => rfl
  | cons k r ih =>
    by_cases late : olderFrame k.frame F = true
    · have other : (k.frame == F) = false := by
        refine beq_eq_false_iff_ne.mpr fun same => ?_
        rw [same, olderFrame_self] at late
        cases late
      have spent := ih (bus.unitSpent s.shc.partBase.toNat F k) placed.tail
      rw [State.partBase_unitSpent] at spent
      rw [State.judgeUnits_late bus placed.head late, spent]
      simp [spentUnits, late, other]
    · by_cases same : k.frame = F
      · have first : State.judgeUnits F (k :: r) none s = State.judgeUnits F r (some k) s := by
          rw [State.judgeUnits, if_neg late, if_pos same]
        rw [first, State.judgeUnits_some bus placed.tail fun m mem => List.rel_of_pairwise_cons placed.apart mem]
        simp [spentUnits, same, olderFrame_self]
      · rw [State.judgeUnits_later late same, ih bus placed.tail]
        simp [spentUnits, late, same]

/-! ## The candidate (R123) -/

/-- A candidate of a good length, not marked damaged, is the unit in use. -/
theorem State.useCandidate_good (low : 1 ≤ k.length.toNat) (high : k.length.toNat ≤ 1048576)
    (whole : k.damaged = false) : s.useCandidate (some k) = (s, some ⟨k.index, k.address, k.length⟩, false) := by
  have good : ¬ (k.length.toNat = 0 ∨ maxUnit < k.length.toNat ∨ k.damaged = true) := by
    rintro (zero | long | damaged)
    · omega
    · exact absurd long (Nat.not_lt.mpr high)
    · rw [whole] at damaged
      cases damaged
  exact if_neg good

/-- Any other candidate is written EMPTY and logged. -/
theorem State.useCandidate_damaged (bus : s.OpenBus) (inTable : k.index < 8)
    (bad : k.length = 0 ∨ 1048576 < k.length.toNat ∨ k.damaged = true) :
    s.useCandidate (some k) = ((s.entryGone s.shc.partBase.toNat k).fault .unitDamaged .none
      (BitVec.ofNat 32 k.index) k.length, none, true) := by
  have bad : k.length.toNat = 0 ∨ maxUnit < k.length.toNat ∨ k.damaged = true :=
    bad.imp_left fun zero => by rw [zero]; rfl
  refine (if_pos bad).trans ?_
  rw [bus.emptyUnit inTable]
  rfl

end

end Sys2Proof.Machine
end

