-- ==== Sys2Proof/Proofs/PendingRecords.lean ====
section
/-! PROOFS. The records of the pending list: appended, dropped, discarded or assembled, and the copy of a group begins
(R117, R120, R123 to R125, R133, R158): O44. -/

namespace Sys2Proof.Machine

section
variable {s : State} {p : PendingRec} {rest : List PendingRec} {audio : AudioRec} {F : FrameNo}

/-! ## The head of the list (R120) -/

/-- A head that waits for its audio record, is not due, or finds a copy in flight stays. -/
theorem State.lookAtHead_stays (waits : s.sta.copy ≠ none ∨ ∀ p, s.sta.pending.head? = some p → p.audio = none ∨
    (s.sta.newest - p.frame.frame).toNat < s.sta.delay) : s.lookAtHead = s := by
  obtain copy | waits := waits
  · exact State.lookAtHead_copy copy
  · exact State.lookAtHead_waits fun p head =>
      (waits p head).imp_right fun early => decide_eq_false (Nat.not_le.mpr early)

theorem Sta.releaseClaim_eq (t : Sta) (f : FrameNo) : t.releaseClaim f = { t with
    claims := if t.claims.getD (f.toNat % 8) none = some f then t.claims.set (f.toNat % 8) none else t.claims } := by
  unfold Sta.releaseClaim stagingIndex
  split <;> rfl

/-- A discard whose reading of the unit table fails gives no unit back (R124). -/
theorem State.discardPending_failed {bad : Nat} (read : s.readUnits = .error bad) :
    s.discardPending F = (s.fault .commonBus .none 4 (BitVec.ofNat 32 bad)).setSta (s.sta.releaseClaim F) := by
  unfold State.discardPending State.giveBack
  rw [read]
  dsimp only
  rw [State.busFault_sta]
  rfl

/-- A discard gives back the entries of its frame and older ones (R124). -/
theorem State.discardPending_ok {l : List UnitEntry} (bus : s.OpenBus) (read : s.readUnits = .ok l) :
    s.discardPending F = ((l.filter fun k => notNewer k.frame F).foldl
      (State.entryGone s.shc.partBase.toNat) s).setSta (s.sta.releaseClaim F) := by
  have sta : (s.giveBack F).sta = s.sta := s.giveBack_sta F
  unfold State.discardPending
  dsimp only
  rw [sta]
  unfold State.giveBack
  rw [read]
  dsimp only
  rw [State.emptyUnits_ok bus ((State.readUnits_placed read).filter _)]

/-- A group whose unit table cannot be read is assembled without its picture. -/
theorem State.assemble_failed {bad : Nat} (read : s.readUnits = .error bad) : s.assemble p audio =
    (s.fault .commonBus .none 4 (BitVec.ofNat 32 bad)).startCopy ⟨p, audio, none, false, false⟩ := by
  unfold State.assemble
  rw [read]
  rfl

/-- A group is assembled from the candidate that is left when the late units and the second ones are spent (R123). -/
theorem State.assemble_ok {l : List UnitEntry} (bus : s.OpenBus) (read : s.readUnits = .ok l) :
    s.assemble p audio =
      let j := (spentUnits p.frame.frame (l.find? fun k => k.frame == p.frame.frame) l).foldl
        (State.unitSpent s.shc.partBase.toNat p.frame.frame) s
      let c := j.useCandidate (l.find? fun k => k.frame == p.frame.frame)
      c.1.startCopy ⟨p, audio, c.2.1, c.2.2, false⟩ := by
  unfold State.assemble
  rw [read]
  dsimp only
  rw [State.judgeUnits_ok bus (State.readUnits_placed read)]

/-! ## The copy begins (R125) -/

/-- Twice the size of a group before escaping, and 64 bytes: the space that its copy asks for (R125). -/
def GroupCopy.space (g : GroupCopy) (unit : Nat) : Nat := 2 * (82 + unit + 12 * g.audio.count) + 64

variable {g : GroupCopy}

theorem GroupCopy.space_eq (g : GroupCopy) : 2 * g.size + 64 = g.space g.unitLength := rfl

/-- With 1024 index records the frame is dropped. -/
theorem State.startCopy_full (full : 1024 ≤ s.sta.index.length) : s.startCopy g =
    (s.fault .streamFull .none g.source.frame.frame 1024).dropFrame g.source.frame.frame g.unit := if_pos full

/-- Where the group fits its copy starts. -/
theorem State.startCopy_starts (few : s.sta.index.length < 1024) (fits : g.space g.unitLength ≤ s.freeSpace) :
    s.startCopy g = s.setSta { s.sta with copy := some g } := by
  unfold State.startCopy
  dsimp only
  rw [if_neg (Nat.not_le.mpr few), GroupCopy.space_eq, if_pos fits]

/-- A group with no picture starts its copy, or its frame is dropped. -/
theorem State.startCopy_noUnit (few : s.sta.index.length < 1024) (noUnit : g.unit = none) : s.startCopy g =
    if g.space 0 ≤ s.freeSpace then s.setSta { s.sta with copy := some g }
    else (s.fault .streamFull .none g.source.frame.frame (BitVec.ofNat 32 s.freeSpace)).dropFrame
      g.source.frame.frame none := by
  have space : 2 * g.size + 64 = g.space 0 := by
    rw [GroupCopy.space_eq, GroupCopy.unitLength, noUnit]
  unfold State.startCopy
  dsimp only
  rw [if_neg (Nat.not_le.mpr few), space, noUnit]
  rfl

/-- Where the picture leaves too little space it is given back, and its group is copied without it or dropped. -/
theorem State.startCopy_short {v : UsedUnit} (few : s.sta.index.length < 1024) (used : g.unit = some v)
    (short : s.freeSpace < g.space v.length.toNat) (errors : s.busErrors = [])
    (top : s.unitAddress v.entry + 4 ≤ 4294967296) :
    let w : State := { s with mem := Memory.writeAll s.mem (s.unitAddress v.entry) (leBytes 4 0) }
    s.startCopy g =
      if g.space 0 ≤ s.freeSpace then w.setSta { s.sta with copy := some { g with unit := none, gapDamaged := true } }
      else (w.fault .streamFull .none g.source.frame.frame (BitVec.ofNat 32 s.freeSpace)).dropFrame
        g.source.frame.frame none := by
  have tooLong : ¬ 2 * g.size + 64 ≤ s.freeSpace := by
    rw [GroupCopy.space_eq, GroupCopy.unitLength, used]
    exact Nat.not_le.mpr short
  unfold State.startCopy
  dsimp only
  rw [if_neg (Nat.not_le.mpr few), if_neg tooLong, used,
    if_pos (show (some v).isSome = true from rfl), State.emptyUsed, State.emptyUnit_ok errors top]
  rfl

/-! ## Slots told to close (R133, R158) -/

/-- The end point that a close request gives: the newest group, or the frame before the clip where there is none. -/
def State.endPointFor (s : State) (c : Clip) : FrameNo := s.newestGroup.getD (c.first - 1)

variable {x : SlotId} {c : Clip}

/-- A slot RECORDING from the frame dropped or an earlier one closes; one that records from a later frame does not. -/
theorem State.slot_dropClose (recording : (s.slot x).st = .recording) (clip : (s.slot x).clip = some c) :
    (s.dropClose F x).slot x = if olderFrame F c.first then s.slot x else { s.slot x with
      st := .closing
      clip := some { c with endPoint := some (s.endPointFor c), retry := c.paused, paused := false } } := by
  unfold State.dropClose
  rw [recording, clip]
  dsimp only
  split
  · rfl
  · have closed : (s.closeClip x s.newestGroup).slot x = { s.slot x with
        st := .closing
        clip := (s.slot x).clip.map fun c =>
          { c with endPoint := some (s.endPointFor c), retry := c.paused, paused := false } } := by
      cases x <;> rfl
    rw [closed, clip]
    rfl

theorem State.slot_dropClose_other (s : State) (F : FrameNo) (x : SlotId) :
    (s.dropClose F x).slot (otherSlot x) = s.slot (otherSlot x) := by
  unfold State.dropClose
  split
  · split
    · rfl
    · cases x <;> rfl
  · rfl

@[simp] theorem State.dropClose_sta (s : State) (F : FrameNo) (x : SlotId) : (s.dropClose F x).sta = s.sta := by
  unfold State.dropClose
  split
  · split
    · rfl
    · cases x <;> rfl
  · rfl

/-- Each slot is told to close by itself, whatever becomes of the other. -/
theorem State.slot_dropFrame (recording : (s.slot x).st = .recording) (clip : (s.slot x).clip = some c) :
    (s.dropFrame F none).slot x = if olderFrame F c.first then s.slot x else { s.slot x with
      st := .closing
      clip := some { c with endPoint := some (s.endPointFor c), retry := c.paused, paused := false } } := by
  have same : (s.setSta (s.sta.dropping F)).endPointFor c = s.endPointFor c := by
    unfold State.endPointFor State.newestGroup
    rw [State.setSta_sta, Sta.dropping_index]
  have eq : s.dropFrame F none = (((s.setSta (s.sta.dropping F)).dropClose F .a).dropClose F .b).release :=
    State.dropFrame_eq ..
  rw [eq, ← same]
  cases x with
  | a =>
    exact (State.slot_dropClose_other _ F .b).trans
      (State.slot_dropClose (s := s.setSta (s.sta.dropping F)) (x := .a) recording clip)
  | b =>
    have before : ((s.setSta (s.sta.dropping F)).dropClose F .a).slot .b = s.slot .b :=
      State.slot_dropClose_other _ F .a
    have newest : ((s.setSta (s.sta.dropping F)).dropClose F .a).endPointFor c =
        (s.setSta (s.sta.dropping F)).endPointFor c := by
      unfold State.endPointFor State.newestGroup
      rw [State.dropClose_sta]
    refine (State.slot_dropClose (x := .b) (before ▸ recording) (before ▸ clip)).trans ?_
    rw [before, newest]

/-! ## Frame starts (R117) -/

section
variable {x : FrameStart}

/-- The STA with a frame start noted: the newest frame, and the copy of its report part (R23, R117). -/
def State.staNoted (s : State) (x : FrameStart) : State :=
  s.setSta { s.sta with
    newest := x.opened.frame, kept := keepCopy s.copyNeeded x.ended.frame s.streamPart s.sta.kept }

/-- The record of the frame that ends, with no audio record yet (R117). -/
def State.recordOf (s : State) (r : FrameRec) : PendingRec :=
  { frame := r, lens := s.ldu.snapshot, crop := s.mst.cropOf r.frame, audio := none }

/-- With no audio record held early the holder gives none and stays. -/
theorem Sta.takeEarly_none {t : Sta} (empty : t.early = []) (f : FrameNo) : t.takeEarly f = (none, t) := by
  cases t
  subst empty
  rfl

theorem State.staTakes_first (first : x.first = true) : s.staTakes x = (s.staNoted x).lookAtHead := by
  unfold State.staTakes
  dsimp only
  rw [if_pos first]
  rfl

/-- After the first frame start the record of the frame that ended is appended. -/
theorem State.staTakes_appends (later : x.first = false) (room : s.sta.pending.length < 8) (empty : s.sta.early = []) :
    s.staTakes x = ((s.staNoted x).setSta { (s.staNoted x).sta with
      pending := s.sta.pending ++ [s.recordOf x.ended] }).lookAtHead := by
  have appended : (s.staNoted x).appendPending x.ended = (s.staNoted x).setSta { (s.staNoted x).sta with
      pending := s.sta.pending ++ [s.recordOf x.ended] } := by
    unfold State.appendPending
    rw [Sta.takeEarly_none (t := (s.staNoted x).sta) empty]
    rfl
  unfold State.staTakes
  dsimp only
  rw [if_neg (by simp [later]), ← appended]
  exact congrArg State.lookAtHead (if_neg (Nat.not_le.mpr room))

theorem State.setSta_same {s : State} {t : Sta} (same : t = s.sta) : s.setSta t = s := by
  subst same
  rfl

/-- With 8 records in the list the frame that ended is dropped with STREAM_BEHIND. -/
theorem State.pendingFull_eq (empty : s.sta.early = []) (f : FrameNo) :
    ∃ d, s.pendingFull f = (s.fault .streamBehind .none f d).dropFrame f none := by
  unfold State.pendingFull
  dsimp only
  rw [State.fault_sta, Sta.takeEarly_none empty]
  exact ⟨_, congrArg (fun t : State => t.dropFrame f none) (State.setSta_same (State.fault_sta ..).symm)⟩

theorem State.staTakes_behind (later : x.first = false) (full : 8 ≤ s.sta.pending.length) (empty : s.sta.early = []) :
    ∃ d, s.staTakes x = (((s.staNoted x).fault .streamBehind .none x.ended.frame d).dropFrame
      x.ended.frame none).lookAtHead := by
  obtain ⟨d, dropped⟩ := State.pendingFull_eq (s := s.staNoted x) empty x.ended.frame
  refine ⟨d, ?_⟩
  unfold State.staTakes
  dsimp only
  rw [if_neg (by simp [later]), ← dropped]
  exact congrArg State.lookAtHead (if_pos full)

end

end

end Sys2Proof.Machine
end

