-- ==== Sys2Proof/Proofs/StaFrameStarts.lean ====
section
/-! PROOFS. A frame start reaches the STA, and the head of the pending list is looked at (R117, R120): O44. -/

namespace Sys2Proof.Machine

section
variable {e : Env} {s t : State} {x : FrameStart} {rest : List FrameStart}

/-! ## The command (R117) -/

/-- The state in which the next frame start on its way reaches the STA. -/
def State.staReady (s : State) (e : Env) (rest : List FrameStart) : State :=
  (s.arrive e).setSta { s.sta with arriving := rest }

theorem exec_staFrameStart (arriving : s.sta.arriving = x :: rest) : exec (.staFrameStart e) s =
    .next (((s.staReady e rest).staTakes x).settle.judgeSlots (s.arrive e)) := by
  show execStaFrameStart e s = _
  unfold execStaFrameStart
  dsimp only
  rw [State.arrive_sta, arriving]
  rfl

/-- A frame start in a quiet part, which leaves it quiet. -/
theorem exec_staFrameStart_calm (arriving : s.sta.arriving = x :: rest) (calm : quiet s = true)
    (took : (s.staReady e rest).staTakes x = t) (stop : t.stop = s.stop) (slotA : t.slotA = s.slotA)
    (slotB : t.slotB = s.slotB) : exec (.staFrameStart e) s = .next t.release := by
  rw [exec_staFrameStart arriving, took, State.settle_calm calm stop slotA slotB]

/-- The frame that ended is dropped in a quiet part whose head of the list stays. -/
theorem exec_staFrameStart_behind (arriving : s.sta.arriving = x :: rest) (calm : quiet s = true)
    (empty : s.sta.early = []) (later : x.first = false) (full : 8 ≤ s.sta.pending.length)
    (waits : s.sta.copy ≠ none ∨ ∀ p, s.sta.pending.head? = some p → p.audio = none)
    (asks : asksNoStop s .streamBehind = true) :
    ∃ d, exec (.staFrameStart e) s = .next (State.release
      { ((s.staReady e rest).staNoted x).fault .streamBehind .none x.ended.frame d with
        sta := ((s.staReady e rest).staNoted x).sta.dropping x.ended.frame }) := by
  obtain ⟨d, took⟩ := State.staTakes_behind (s := s.staReady e rest) later full empty
  obtain ⟨emptyA, emptyB⟩ := quiet_noClip calm
  have slotA := State.fault_slotA ((s.staReady e rest).staNoted x) .streamBehind .none x.ended.frame d
  have slotB := State.fault_slotB ((s.staReady e rest).staNoted x) .streamBehind .none x.ended.frame d
  rw [State.dropFrame_noClip none (by simp) (slotA ▸ emptyA) (slotB ▸ emptyB), State.fault_sta,
    State.lookAtHead_stays] at took
  · refine ⟨d, (exec_staFrameStart_calm arriving calm took ?_ slotA slotB).trans ?_⟩
    · exact State.fault_stop (s := (s.staReady e rest).staNoted x) _ _ _ asks
    · rw [State.release_release]
      rfl
  · have copy : (((s.staReady e rest).staNoted x).sta.dropping x.ended.frame).copy = s.sta.copy := Sta.dropping_copy ..
    have pending : (((s.staReady e rest).staNoted x).sta.dropping x.ended.frame).pending = s.sta.pending :=
      Sta.dropping_pending ..
    show Sta.copy (Sta.dropping _ _) ≠ _ ∨ ∀ p, (Sta.pending (Sta.dropping _ _)).head? = _ → _
    rw [copy, pending]
    exact waits.imp_right fun waits p head => .inl (waits p head)

end

/-- Settles O44: the frame start by what becomes of its record, the look at the head by what it finds, the copy by the
space there is. -/
theorem pendingRecordAppended : Obligations.PendingRecordAppended := by
  refine ⟨?starts, ?appends, ?stays, ?due, ?copies, ?closes⟩
  case starts =>
    intro e s x rest arriving calm empty waits taken
    refine ⟨fun first => ?first, fun later room => ?appended, fun later full asks whole => ?behind⟩
    case first =>
      refine exec_staFrameStart_calm arriving calm ?_ rfl rfl rfl
      rw [State.staTakes_first first, State.lookAtHead_stays]
      · rfl
      · exact waits.imp_right fun waits p head => .inl (waits p head)
    case appended =>
      refine exec_staFrameStart_calm arriving calm ?_ rfl rfl rfl
      rw [State.staTakes_appends (s := s.staReady e rest) later room empty, State.lookAtHead_stays]
      · rfl
      · refine waits.imp_right fun waits p head => .inl ?_
        change (s.sta.pending ++ [_]).head? = some p at head
        cases list : s.sta.pending with
        | nil =>
          rw [list] at head
          exact Option.some.inj head ▸ rfl
        | cons q l =>
          rw [list] at head
          exact waits p (list ▸ head)
    case behind =>
      obtain ⟨d, took⟩ := exec_staFrameStart_behind (e := e) arriving calm empty later full waits asks
      obtain ⟨stands, count, -⟩ := State.logged_fault (s := (s.staReady e rest).staNoted x) whole .streamBehind .none
        x.ended.frame d
      exact ⟨_, took, Sta.dropping_pending .., Sta.dropping_dropped _ x.ended.frame, rfl, Sta.dropping_copy .., stands, count,
        State.fault_mem .., State.fault_shc .., State.fault_ldu .., State.fault_acu ..⟩
  case appends =>
    intro e s x rest arriving later room empty
    rw [exec_staFrameStart arriving, State.staTakes_appends (s := s.staReady e rest) later room empty]
    rfl
  case stays =>
    exact fun s waits => State.lookAtHead_stays waits
  case due =>
    intro s p rest audio list joined noCopy due F u emptied claims
    have isDue : s.sta.due p.frame.frame = true := decide_eq_true due
    have assembles (busy : s.clipOpen = true ∨ s.sta.preOn = true) : s.lookAtHead = u.assemble p audio :=
      State.lookAtHead_assembles list joined noCopy isDue (by simpa using busy)
    have discards (closed : s.clipOpen = false) (off : s.sta.preOn = false) :
        s.lookAtHead = (u.discardPending F).lookAtHead :=
      State.lookAtHead_discards list joined noCopy isDue (by simp [closed, off])
    have released : u.sta.releaseClaim F = { u.sta with claims := claims } := Sta.releaseClaim_eq ..
    refine ⟨fun bad read => ⟨fun closed off => ?discardFails, fun busy => ?assemblyFails⟩,
      fun l read errors top => ⟨fun closed off => ?discarded, fun busy => ?assembled⟩⟩
    case discardFails =>
      rw [discards closed off, State.discardPending_failed (s := u) read, released]
      rfl
    case assemblyFails => exact (assembles busy).trans (State.assemble_failed (s := u) read)
    case discarded =>
      rw [discards closed off, State.discardPending_ok (s := u) ⟨errors, top⟩ read, released]
      rfl
    case assembled =>
      intro candidate spent j
      have bus : u.OpenBus := ⟨errors, top⟩
      obtain ⟨busJ, baseJ⟩ : j.OpenBus ∧ j.shc.partBase = s.shc.partBase := bus.unitsSpent ..
      have judged : s.lookAtHead = (j.useCandidate candidate).1.startCopy
          ⟨p, audio, (j.useCandidate candidate).2.1, (j.useCandidate candidate).2.2, false⟩ :=
        (assembles busy).trans (State.assemble_ok bus read)
      refine ⟨fun noCandidate => ?_, fun k found => ⟨fun low high whole => ?_, fun bad => ?_⟩⟩
      · rw [judged, noCandidate]
        rfl
      · rw [judged, found, State.useCandidate_good low high whole]
      · have inTable : k.index < 8 := (State.readUnits_placed read).inTable k (List.mem_of_find?_eq_some found)
        rw [judged, found, State.useCandidate_damaged busJ inTable bad, baseJ]
        rfl
  case copies =>
    intro s g F need starts
    refine ⟨State.startCopy_full, fun few => ⟨State.startCopy_noUnit few, fun v used => ⟨fun fits => ?_,
      fun short errors top => State.startCopy_short few used short errors top⟩⟩⟩
    refine State.startCopy_starts few ?_
    rw [GroupCopy.unitLength, used]
    exact fits
  case closes =>
    intro s F x c recording clip v
    have closed := State.slot_dropFrame (F := F) recording clip
    have endPoint : s.endPointFor c =
        (match s.sta.index.getLast? with | some k => k.frame | none => c.first - 1) := by
      unfold State.endPointFor State.newestGroup
      cases s.sta.index.getLast? <;> rfl
    refine ⟨fun later => closed.trans (if_pos later), fun notLater => ?_⟩
    rw [endPoint] at closed
    exact closed.trans (if_neg (by simp [notLater]))

end Sys2Proof.Machine
end

