-- ==== Sys2Proof/Proofs/WritersResting.lean ====
section
/-! PROOFS. What the writer of a slot does with the next group, when both writers rest, and the end of a step that leaves
one slot RECORDING behind a command in flight (R138, R150 to R152, log 15). -/

namespace Sys2Proof.Machine

/-! ## The other slot -/

section
variable {s t : State} {x : SlotId} {v : Slot} {c : Clip} {r : IndexRec}

theorem SlotId.self_or_other (x y : SlotId) : y = x ∨ y = otherSlot x := by cases x <;> cases y <;> simp [otherSlot]

/-! ## The writer's next group (R150 to R152) -/

/-- The writer of a RECORDING slot has its OPEN block placed, is not paused, and goes on from the clip's next group. -/
structure Slot.WritesNext (v : Slot) (c : Clip) : Prop where
  recording : v.st = .recording
  clip : v.clip = some c
  openPlaced : c.openPlaced = true
  notClosed : c.closePlaced = false
  notPaused : c.paused = false
  noEnd : c.endPoint = none

theorem Slot.WritesNext.clipOpen (h : v.WritesNext c) : v.clipOpen = true := by simp [Slot.clipOpen, h.recording]

/-- The next group stands in the index and fits: it is placed (R150). -/
theorem State.writerStep_places (h : (s.slot x).WritesNext c)
    (found : (s.sta.index.find? fun k => k.frame == c.next) = some r)
    (fits : r.length + 512 ≤ ((s.slot x).heldRoom c).bytes) : s.writerStep x = some (s.placeGroup x c r) := by
  simp [State.writerStep, h.clip, h.notClosed, h.notPaused, h.clipOpen, h.openPlaced, h.noEnd, found, fits]

/-- The next group does not fit in room that may still grow: the writer pauses before it (R152). -/
theorem State.writerStep_pauses (h : (s.slot x).WritesNext c)
    (found : (s.sta.index.find? fun k => k.frame == c.next) = some r)
    (short : ((s.slot x).heldRoom c).bytes < r.length + 512) (unbounded : ((s.slot x).heldRoom c).bound = none) :
    s.writerStep x = some (s.pauseWriter x c c.next ((s.slot x).heldRoom c)) := by
  simp [State.writerStep, h.clip, h.notClosed, h.notPaused, h.clipOpen, h.openPlaced, h.noEnd, found, short, unbounded,
    h.recording]

/-- A writer rests while it is paused, or while its next group is not in the index. -/
def Slot.rests (v : Slot) (index : List IndexRec) : Prop :=
  v.clip = none ∨ ∃ c, v.clip = some c ∧
    (c.paused = true ∨ v.WritesNext c ∧ ∀ r ∈ index, r.frame ≠ c.next)

theorem State.writerStep_rests (h : (s.slot x).rests s.sta.index) : s.writerStep x = none := by
  obtain clip | ⟨c, clip, paused | ⟨next, missing⟩⟩ := h
  · exact State.writerStep_noClip clip
  · simp [State.writerStep, clip, paused]
  · have none : (s.sta.index.find? fun k => k.frame == c.next) = none :=
      List.find?_eq_none.mpr fun r mem same => missing r mem (beq_iff_eq.mp same)
    simp [State.writerStep, clip, next.notClosed, next.clipOpen, next.openPlaced, next.noEnd, none, next.recording]

theorem Slot.rests_mono {l m : List IndexRec} (h : v.rests l) (sub : ∀ r ∈ m, r ∈ l) : v.rests m := by
  obtain clip | ⟨c, clip, paused | ⟨next, missing⟩⟩ := h
  · exact .inl clip
  · exact .inr ⟨c, clip, .inl paused⟩
  · exact .inr ⟨c, clip, .inr ⟨next, fun r mem => missing r (sub r mem)⟩⟩

/-- With both writers at rest nothing is placed. -/
theorem State.runWriters_rest (rest : ∀ y, (s.slot y).rests s.sta.index) (n : Nat) : State.runWriters n s = s := by
  cases n with
  | zero => rfl
  | succ n =>
    unfold State.runWriters
    rw [State.writerStep_rests (rest .a), State.writerStep_rests (rest .b)]

/-- One writer takes one step, and both rest. -/
theorem State.runWriters_once (step : s.writerStep x = some t) (noOther : (s.slot (otherSlot x)).clip = none)
    (rest : ∀ y, (t.slot y).rests t.sta.index) (n : Nat) : State.runWriters (n + 1) s = t := by
  unfold State.runWriters
  cases x with
  | a =>
    rw [step]
    exact State.runWriters_rest rest n
  | b =>
    rw [State.writerStep_noClip (x := .a) noOther, step]
    exact State.runWriters_rest rest n

/-! ## Sending behind a command in flight (R138) -/

/-- What waits behind the command in flight is noted. -/
def State.noteWaiting (s : State) (x : SlotId) : State := s.updSlot x fun v => { v with waiting := v.behind }

theorem State.sendDue_busy (busy : (s.slot x).command ≠ none) : s.sendDue x = s.noteWaiting x :=
  if_pos (Option.isSome_iff_ne_none.mpr busy)

theorem State.slot_noteWaiting (s : State) (x : SlotId) :
    (s.noteWaiting x).slot x = { s.slot x with waiting := (s.slot x).behind } := State.slot_updSlot ..

theorem State.slot_noteWaiting_other (s : State) (x : SlotId) :
    (s.noteWaiting x).slot (otherSlot x) = s.slot (otherSlot x) := State.slot_updSlot_other ..

theorem State.noteWaiting_twice (s : State) (x : SlotId) : (s.noteWaiting x).noteWaiting x = s.noteWaiting x := by
  cases x <;> rfl

theorem State.sendDues_busy (busy : (s.slot x).command ≠ none) (idle : (s.slot (otherSlot x)).idle = true) :
    (s.sendDue .a).sendDue .b = s.noteWaiting x := by
  cases x with
  | a =>
    rw [State.sendDue_busy busy]
    exact State.sendDue_idle (x := .b) idle
  | b => rw [State.sendDue_idle (x := .a) idle, State.sendDue_busy busy]

/-- Noting what waits leaves a writer at rest. -/
theorem Slot.rests_waiting {l : List IndexRec} (h : v.rests l) (w : Option WaitingCommand) :
    ({ v with waiting := w } : Slot).rests l := by
  obtain clip | ⟨c, clip, paused | ⟨next, missing⟩⟩ := h
  · exact .inl clip
  · exact .inr ⟨c, clip, .inl paused⟩
  · exact .inr ⟨c, clip, .inr ⟨⟨next.1, next.2, next.3, next.4, next.5, next.6⟩, missing⟩⟩

theorem State.rests_noteWaiting (rest : ∀ y, (s.slot y).rests s.sta.index) (y : SlotId) :
    ((s.noteWaiting x).slot y).rests (s.noteWaiting x).sta.index := by
  have index : (s.noteWaiting x).sta = s.sta := State.updSlot_sta ..
  rw [index]
  obtain rfl | rfl := SlotId.self_or_other x y
  · rw [State.slot_noteWaiting]
    exact Slot.rests_waiting (rest _) _
  · rw [State.slot_noteWaiting_other]
    exact rest _

/-! ## The slots' work with one slot RECORDING -/

/-- A slot records behind a command in flight with its writer at rest, and the other slot is idle. -/
structure State.RestsBehind (s : State) (x : SlotId) : Prop where
  busy : (s.slot x).command ≠ none
  rests : (s.slot x).rests s.sta.index
  idle : (s.slot (otherSlot x)).idle = true

theorem State.RestsBehind.both (h : s.RestsBehind x) (y : SlotId) : (s.slot y).rests s.sta.index := by
  obtain rfl | rfl := SlotId.self_or_other x y
  · exact h.rests
  · exact .inl (Slot.idle_parts h.idle).1

/-- Nothing is placed and nothing is sent. -/
theorem State.RestsBehind.work (h : s.RestsBehind x) : s.work = (s.noteWaiting x).release := by
  have after (n : Nat) : State.runWriters n (s.noteWaiting x) = s.noteWaiting x :=
    State.runWriters_rest (State.rests_noteWaiting h.both) n
  have busy : ((s.noteWaiting x).slot x).command ≠ none := by
    rw [State.slot_noteWaiting]
    exact h.busy
  have idle : ((s.noteWaiting x).slot (otherSlot x)).idle = true := by
    rw [State.slot_noteWaiting_other]
    exact h.idle
  unfold State.work
  dsimp only
  rw [State.runWriters_rest h.both, State.sendDues_busy h.busy h.idle, after, State.sendDues_busy busy idle,
    State.noteWaiting_twice]

/-- A slot whose writer takes one step to come to rest. -/
theorem State.work_step (step : s.writerStep x = some t) (noOther : (s.slot (otherSlot x)).clip = none)
    (h : t.RestsBehind x) : s.work = (t.noteWaiting x).release := by
  have once : State.runWriters s.writerFuel s = t := State.runWriters_once step noOther h.both _
  have rest : State.runWriters t.writerFuel t = t := State.runWriters_rest h.both _
  refine Eq.trans ?_ h.work
  unfold State.work
  dsimp only
  rw [once, rest]

theorem State.RestsBehind.release (h : s.RestsBehind x) : s.release.RestsBehind x where
  busy := by cases x <;> exact h.busy
  rests := by
    have sub (r : IndexRec) (mem : r ∈ s.release.sta.index) : r ∈ s.sta.index :=
      (List.dropWhile_sublist _).subset mem
    have rests := Slot.rests_mono h.rests sub
    cases x <;> exact rests
  idle := by cases x <;> exact h.idle

theorem State.RestsBehind.noteWaiting (h : s.RestsBehind x) : (s.noteWaiting x).RestsBehind x where
  busy := by
    rw [State.slot_noteWaiting]
    exact h.busy
  rests := State.rests_noteWaiting h.both x
  idle := by
    rw [State.slot_noteWaiting_other]
    exact h.idle

theorem State.release_noteWaiting (s : State) (x : SlotId) : s.release.noteWaiting x = (s.noteWaiting x).release := by
  cases x <;> rfl

/-- The end of a step with no safe stop, where the slots' work is known. -/
theorem State.settle_of_work (none : s.stop.requests = []) (idle : s.stop.stopping = false) (work : s.work = t)
    (same : t.stop = s.stop) : s.settle = t := by
  have loop : State.settleLoop 64 s = t := by
    rw [State.settleLoop, State.takeStops_none none, work, same, none]
    rfl
  unfold State.settle State.judgeStop
  rw [loop, same, idle]
  rfl

/-- At the end of such a step what waits is noted once, and records that nothing needs go. -/
theorem State.RestsBehind.settle (h : s.RestsBehind x) (none : s.stop.requests = []) (idle : s.stop.stopping = false) :
    s.settle = (s.noteWaiting x).release :=
  State.settle_of_work none idle h.work (State.updSlot_stop ..)

end

end Sys2Proof.Machine
end

