-- ==== Sys2Proof/Proofs/GroupsIndexed.lean ====
section
/-! PROOFS. A group copy completes: the group stands in the stream buffer, is indexed, and is placed or paused before
(R115, R126, R128 to R132, R150, R152, log 31): O45. -/

namespace Sys2Proof.Machine

/-! ## The bytes of a group (R112, R115, R116) -/

theorem length_streamBlock_pos (kind : Byte) (f : FrameNo) (payload : List Byte) (flags : Byte) :
    0 < (streamBlock kind f payload flags).length := Nat.succ_pos _

theorem GroupCopy.length_bytes_pos (g : GroupCopy) (picture sound : List Byte) :
    0 < (g.bytes picture sound).length := by
  have metaBlock := length_streamBlock_pos kindMeta g.source.frame.frame g.metaPayload 0
  simp only [GroupCopy.bytes, List.length_append]
  omega

/-- The lowest bit of the damage mask says that the group has a GAP. -/
theorem GroupCopy.gap_damage (g : GroupCopy) : g.damage.getLsbD 0 = g.unit.isNone := by
  have low (a b c d e f h : Nat) : (a + 2 * b + 4 * c + 8 * d + 16 * e + 32 * f + 64 * h) % 2 = a % 2 := by omega
  unfold GroupCopy.damage
  rw [BitVec.getLsbD_ofNat, Nat.testBit_zero, low]
  cases g.unit.isNone <;> rfl

section
variable {s t : State} {g : GroupCopy} {b picture sound : List Byte}

/-! ## The bytes reach the buffer (R126, log 31) -/

/-- A group that does not wrap is written in one run. -/
theorem State.writeRuns_straight {offset : Nat} (errors : s.busErrors = [])
    (fits : offset + b.length ≤ s.shc.streamSize.toNat)
    (top : s.shc.streamBase.toNat + s.shc.streamSize.toNat ≤ 4294967296) :
    s.writeRuns (s.ringRuns offset b.length) b =
      ({ s with mem := Memory.writeAll s.mem (s.shc.streamBase.toNat + offset) b }, none) := by
  have written (o : Nat) (fits : o + b.length ≤ s.shc.streamSize.toNat) :
      s.writeRuns [(s.shc.streamBase.toNat + o, b.length)] b =
        ({ s with mem := Memory.writeAll s.mem (s.shc.streamBase.toNat + o) b }, none) := by
    unfold State.writeRuns State.busWrite
    rw [List.take_length, State.busError_none errors (by omega)]
    rfl
  obtain inside | atEnd : offset < s.shc.streamSize.toNat ∨ s.shc.streamSize.toNat ≤ offset := Nat.lt_or_ge ..
  · have run : s.ringRuns offset b.length = [(s.shc.streamBase.toNat + offset, b.length)] := by
      simp only [State.ringRuns, State.bufferSize, Nat.mod_eq_of_lt inside, fits, if_true]
    rw [run, written offset fits]
  · have none : b = [] := List.eq_nil_of_length_eq_zero (by omega)
    have start : offset % s.shc.streamSize.toNat + b.length ≤ s.shc.streamSize.toNat := by
      rw [none, List.length_nil, Nat.add_zero]
      obtain rfl | lower := Nat.eq_or_lt_of_le atEnd
      · simp
      · omega
    have run : s.ringRuns offset b.length =
        [(s.shc.streamBase.toNat + offset % s.shc.streamSize.toNat, b.length)] := if_pos start
    rw [run, written _ start, none]
    rfl

/-- The index record of a group (R128). -/
def GroupCopy.indexRec (g : GroupCopy) (offset length : Nat) : IndexRec :=
  { frame := g.source.frame.frame, offset := offset, length := length, damage := g.damage,
    tcFlags := g.source.frame.tcFlags }

/-- The STA with a group of `n` bytes indexed in a buffer of `size` bytes (R119, R126, R128, R129). -/
def Sta.indexed (t : Sta) (g : GroupCopy) (n size : Nat) : Sta :=
  { t with
    index := t.index ++ [g.indexRec t.writePos n]
    writePos := (t.writePos + n) % size
    history := Machine.newest 64 (t.history ++ [n])
    copy := none
    claims := (t.releaseClaim g.source.frame.frame).claims }

/-- The group stands at the write position, is indexed, and its unit is given back (R126). -/
def State.groupCopied (s : State) (g : GroupCopy) (b : List Byte) : State :=
  { s with
    mem := State.memAfterUse
      { s with mem := Memory.writeAll s.mem (s.shc.streamBase.toNat + s.sta.writePos) b } g.unit
    sta := s.sta.indexed g b.length s.bufferSize }

theorem State.copyCompletes_eq (fits : ∀ v, g.unit = some v → v.entry < 8 ∧ s.OpenBus) (n : Nat) :
    s.copyCompletes g n = State.lookAtHead (State.work
      { s with mem := s.memAfterUse g.unit, sta := s.sta.indexed g n s.bufferSize }) := by
  unfold State.copyCompletes
  dsimp only
  rw [State.emptyUsed_ok]
  · refine congrArg (fun t : State => t.work.lookAtHead) ?_
    unfold Sta.indexed
    dsimp only [State.setSta]
    rw [Sta.releaseClaim_eq, Sta.releaseClaim_eq]
    cases g.unit <;> rfl
  · exact fun v used => ⟨(fits v used).1, (fits v used).2.setSta _⟩

/-- What a group copy in flight needs to complete in one run. -/
structure State.Completes (s : State) (g : GroupCopy) (b : List Byte) : Prop where
  errors : s.busErrors = []
  fits : s.sta.writePos + b.length ≤ s.shc.streamSize.toNat
  streamTop : s.shc.streamBase.toNat + s.shc.streamSize.toNat ≤ 4294967296
  inTable : ∀ v, g.unit = some v → v.entry < 8
  windowTop : s.shc.partBase.toNat + 16384 ≤ 4294967296
  noPending : s.sta.pending = []

theorem State.Completes.indexes (ready : s.Completes g b) :
    State.copyCompletes { s with mem := Memory.writeAll s.mem (s.shc.streamBase.toNat + s.sta.writePos) b } g b.length =
      (s.groupCopied g b).work.lookAtHead := by
  have bus : State.OpenBus { s with mem := Memory.writeAll s.mem (s.shc.streamBase.toNat + s.sta.writePos) b } :=
    ⟨ready.errors, ready.windowTop⟩
  rw [State.copyCompletes_eq fun v used => ⟨ready.inTable v used, bus⟩]
  rfl

theorem State.copyEnds_ok (ready : s.Completes g (g.bytes picture sound)) (hp : s.readPicture g = .ok picture)
    (hs : s.readSound g = .ok sound) :
    s.copyEnds g = (s.groupCopied g (g.bytes picture sound)).work.lookAtHead := by
  unfold State.copyEnds
  rw [hp]
  dsimp only
  rw [hs]
  dsimp only
  rw [State.writeRuns_straight ready.errors ready.fits ready.streamTop]
  exact ready.indexes

/-- The command, where what the slots do is known: nothing is pending, so the look at the head changes nothing. -/
theorem exec_groupCopyDone {e : Env} {w : State} (copy : s.sta.copy = some g)
    (ends : (s.arrive e).copyEnds g = w.lookAtHead) (noPending : w.sta.pending = []) (settles : w.settle = t)
    (slots : t.sameRecording s = true) : exec (.groupCopyDone e) s = .next t := by
  have stays : w.lookAtHead = w := State.lookAtHead_stays (.inr (by simp [noPending]))
  show execGroupCopyDone e s = _
  unfold execGroupCopyDone
  dsimp only
  rw [State.arrive_sta, copy]
  dsimp only
  rw [ends, stays, settles]
  exact congrArg Host.Outcome.next (State.judgeSlots_same slots)

/-! ## What the copy leaves (R126, R128) -/

/-- The bytes of the group and of its unit's entry aside, common memory is as it was. -/
theorem State.read_groupCopied (wf : Memory.wf s.mem = true) {a : Nat}
    (outside : a < s.shc.streamBase.toNat + s.sta.writePos ∨ s.shc.streamBase.toNat + s.sta.writePos + b.length ≤ a)
    (entry : ∀ v, g.unit = some v → a < s.unitAddress v.entry ∨ s.unitAddress v.entry + 4 ≤ a) :
    Memory.read (s.groupCopied g b).mem a = Memory.read s.mem a := by
  have group := Memory.read_writeAll_outside wf outside
  unfold State.groupCopied
  cases used : g.unit with
  | none => exact group
  | some v => exact (Memory.read_writeAll_outside (Memory.wf_writeAll wf) (entry v used)).trans group

/-- A record at the end of the index stays where it is needed. -/
theorem getLast?_dropWhile_concat {α : Type} {needed : α → Bool} (l : List α) {a : α} (stays : needed a = true) :
    ((l ++ [a]).dropWhile fun k => !needed k).getLast? = some a := by
  rw [List.dropWhile_append]
  split <;> simp [stays]

variable {x : SlotId} {c d : Clip} {r : IndexRec}

/-- With one reader alone on the part its clip says what is needed: pre-record retains nothing (R128, R132). -/
theorem State.needed_oneReader (clip : (s.slot x).clip = some c) (opened : (s.slot x).clipOpen = true)
    (noOther : (s.slot (otherSlot x)).clip = none) (r : IndexRec) : s.needed r = c.needs r.frame := by
  have anyOpen : s.clipOpen = true := by cases x <;> simp_all [State.clipOpen, State.slot]
  have nothing : s.retained = [] := by simp [State.retained, anyOpen]
  have own : (s.slot x).needs r.frame = c.needs r.frame := by simp [Slot.needs, clip]
  have other : (s.slot (otherSlot x)).needs r.frame = false := by simp [Slot.needs, noOther]
  unfold State.needed
  rw [nothing]
  cases x <;> simp_all [State.slot, otherSlot]

/-- The reader still needs a group of which it has placed bytes and that is not wholly answered. -/
theorem Clip.needs_placed (since : notNewer c.first r.frame = true) (noEnd : c.endPoint = none)
    (i : PlacedItem) (item : i ∈ c.items) {offset : Nat} (group : i.source = .group r.frame offset)
    (unanswered : c.acked < i.start + i.length) : c.needs r.frame = true := by
  have held : (c.items.any fun i => match i.source with
      | .group g _ => g == r.frame && decide (c.acked < i.start + i.length)
      | .own _ => false) = true := List.any_eq_true.mpr ⟨i, item, by simp [group, unanswered]⟩
  have notPassed : c.passed r.frame = false := by
    unfold Clip.passed
    simp only [Bool.and_eq_false_imp, Bool.not_eq_false']
    exact fun _ => held
  simp [Clip.needs, since, noEnd, notPassed]

/-- The reader needs the group it has come to. -/
theorem Clip.needs_next (since : notNewer c.first c.next = true) (noEnd : c.endPoint = none) :
    c.needs c.next = true := by
  simp [Clip.needs, since, noEnd, Clip.passed, olderFrame_self]

/-! ## The group placed (R150, R151) -/

/-- The clip with a group placed. -/
def State.clipWith (s : State) (v : Slot) (c : Clip) (r : IndexRec) : Clip :=
  { c with
    placed := c.placed + r.length
    counts := c.counts.add r (s.groupTimecode r.offset)
    items := c.items ++ [⟨c.placed, r.length, .group r.frame r.offset, c.counts.add r (s.groupTimecode r.offset)⟩]
    extents := useExtents (c.placed + r.length) (takeExtents (c.placed + r.length) v.queue c.extents).1
    next := r.frame + 1
    retry := false }

theorem State.placeGroup_eq (s : State) (x : SlotId) (c : Clip) (r : IndexRec) :
    s.placeGroup x c r = s.setSlot x { s.slot x with
      clip := some (s.clipWith (s.slot x) c r)
      current := (s.clipWith (s.slot x) c r).current
      queue := (takeExtents (c.placed + r.length) (s.slot x).queue c.extents).2 } := by
  cases x <;> rfl

/-- A writer that places the one group it waits for rests again, while the next one is not in the index. -/
theorem State.RestsBehind.placed (h : (s.slot x).WritesNext c) (busy : (s.slot x).command ≠ none)
    (idle : (s.slot (otherSlot x)).idle = true) (missing : ∀ k ∈ s.sta.index, k.frame ≠ r.frame + 1) :
    (s.placeGroup x c r).RestsBehind x := by
  rw [State.placeGroup_eq]
  refine ⟨?_, ?_, ?_⟩
  · rw [State.slot_setSlot]
    exact busy
  · rw [State.slot_setSlot, State.setSlot_sta]
    exact .inr ⟨_, rfl, .inr ⟨⟨h.recording, rfl, h.openPlaced, h.notClosed, h.notPaused, h.noEnd⟩, missing⟩⟩
  · rw [State.slot_setSlot_other]
    exact idle

/-! ## The writer paused (R152) -/

theorem State.updClip_eq (clip : (s.slot x).clip = some c) (f : Clip → Clip) :
    s.updClip x f = s.setSlot x { s.slot x with clip := some (f c) } := by
  unfold State.updClip State.updSlot
  dsimp only
  rw [clip]
  rfl

/-- A writer that pauses rests, and the fault it logs leaves the slots. -/
theorem State.RestsBehind.paused (h : (s.slot x).WritesNext c) (busy : (s.slot x).command ≠ none)
    (idle : (s.slot (otherSlot x)).idle = true) (fresh : c.retry = false) (f : FrameNo) (room : Room) :
    s.pauseWriter x c f room = (s.setSlot x { s.slot x with clip := some { c with paused := true } }).fault
        .extentStarved (slotSource x) f (BitVec.ofNat 32 room.bytes) ∧
      (s.pauseWriter x c f room).slot x = { s.slot x with clip := some { c with paused := true } } ∧
      (s.pauseWriter x c f room).slot (otherSlot x) = s.slot (otherSlot x) ∧
      (s.pauseWriter x c f room).RestsBehind x := by
  have eq : s.pauseWriter x c f room = (s.setSlot x { s.slot x with clip := some { c with paused := true } }).fault
      .extentStarved (slotSource x) f (BitVec.ofNat 32 room.bytes) := by
    unfold State.pauseWriter
    rw [State.updClip_eq h.clip, fresh]
    rfl
  have slots (y : SlotId) : (s.pauseWriter x c f room).slot y =
      (s.setSlot x { s.slot x with clip := some { c with paused := true } }).slot y := by
    rw [eq]
    cases y
    · exact State.fault_slotA ..
    · exact State.fault_slotB ..
  have own := (slots x).trans (State.slot_setSlot ..)
  have other := (slots (otherSlot x)).trans (State.slot_setSlot_other ..)
  refine ⟨eq, own, other, ⟨?_, ?_, ?_⟩⟩
  · rw [own]
    exact busy
  · rw [own]
    exact .inr ⟨_, rfl, .inl rfl⟩
  · rw [other]
    exact idle

/-! ## The end of the step -/

theorem State.slot_release (s : State) (x : SlotId) : s.release.slot x = s.slot x := by cases x <;> rfl

/-- The part after the copy of a group, where one slot records: its writer has come to rest in `p`. -/
theorem exec_groupCopyDone_rests {e : Env} {p : State} (copy : s.sta.copy = some g)
    (ready : (s.arrive e).Completes g b) (ends : (s.arrive e).copyEnds g = ((s.arrive e).groupCopied g b).work.lookAtHead)
    (step : ((s.arrive e).groupCopied g b).writerStep x = some p) (rests : p.RestsBehind x)
    (noOther : (s.slot (otherSlot x)).clip = none) (noRequest : s.stop.requests = []) (idle : s.stop.stopping = false)
    (sta : p.sta = s.sta.indexed g b.length s.bufferSize) (stop : p.stop = s.stop)
    (own : (p.slot x).st = (s.slot x).st) (other : p.slot (otherSlot x) = s.slot (otherSlot x)) :
    exec (.groupCopyDone e) s = .next (p.noteWaiting x).release := by
  have noOther : (((s.arrive e).groupCopied g b).slot (otherSlot x)).clip = none := by cases x <;> exact noOther
  have stop' : (p.noteWaiting x).release.stop = s.stop := (State.updSlot_stop ..).trans stop
  have sta' : (p.noteWaiting x).sta = p.sta := State.updSlot_sta ..
  rw [State.work_step step noOther rests] at ends
  refine exec_groupCopyDone copy ends ?_ ?_ ?_
  · show (p.noteWaiting x).sta.pending = []
    rw [sta', sta]
    exact ready.noPending
  · rw [rests.noteWaiting.release.settle (stop' ▸ noRequest) (stop' ▸ idle), State.release_noteWaiting,
      State.noteWaiting_twice, State.release_release]
  · have own : ((p.noteWaiting x).release.slot x).st = (s.slot x).st := by
      rw [State.slot_release, State.slot_noteWaiting]
      exact own
    have other : ((p.noteWaiting x).release.slot (otherSlot x)).st = (s.slot (otherSlot x)).st := by
      rw [State.slot_release, State.slot_noteWaiting_other, other]
    cases x
    · exact State.sameRecording_of_slots own other
    · exact State.sameRecording_of_slots other own

/-- The index after such a step: the oldest records go while the one reader does not need them (R128). -/
theorem State.index_oneReader (clip : (s.slot x).clip = some d) (recording : (s.slot x).st = .recording)
    (noOther : (s.slot (otherSlot x)).clip = none) :
    (s.noteWaiting x).release.sta.index = s.sta.index.dropWhile fun k => !d.needs k.frame := by
  have needed (k : IndexRec) : (s.noteWaiting x).needed k = d.needs k.frame := by
    refine State.needed_oneReader (x := x) ?_ ?_ ?_ k
    · rw [State.slot_noteWaiting]
      exact clip
    · rw [State.slot_noteWaiting]
      simp [Slot.clipOpen, recording]
    · rw [State.slot_noteWaiting_other]
      exact noOther
  have sta : (s.noteWaiting x).sta = s.sta := State.updSlot_sta ..
  show ((s.noteWaiting x).sta.index.dropWhile fun k => !(s.noteWaiting x).needed k) = _
  simp only [needed, sta]

end

end Sys2Proof.Machine
end

