-- ==== Sys2Proof/Proofs/GroupsCopied.lean ====
section
/-! PROOFS. The end of a group copy in a quiet part and in one that records (R126 to R132, R150, R152): O45. -/

namespace Sys2Proof.Machine

section
variable {e : Env} {s : State} {g : GroupCopy} {b : List Byte} {x : SlotId} {c : Clip}

/-- A quiet part goes on from the copy with its slots idle. -/
theorem exec_groupCopyDone_calm (copy : s.sta.copy = some g) (ready : (s.arrive e).Completes g b)
    (ends : (s.arrive e).copyEnds g = ((s.arrive e).groupCopied g b).work.lookAtHead) (calm : quiet s = true) :
    exec (.groupCopyDone e) s = .next ((s.arrive e).groupCopied g b).release := by
  obtain ⟨idleA, idleB, -, -⟩ := quiet_parts calm
  rw [State.work_idle (s := (s.arrive e).groupCopied g b) idleA idleB] at ends
  refine exec_groupCopyDone copy ends ready.noPending ?_ (State.sameRecording_of_slots rfl rfl)
  rw [State.settle_quiet (s := ((s.arrive e).groupCopied g b).release) calm, State.release_release]

/-- In a quiet part pre-record alone retains records (R128, R132). -/
theorem State.needed_calm (calm : quiet s = true) (r : IndexRec) :
    s.needed r = s.retained.any fun k => k.frame == r.frame := by
  obtain ⟨emptyA, emptyB⟩ := quiet_noClip calm
  simp [State.needed, Slot.needs, emptyA, emptyB]

/-- The last of a list is among its newest, where it is counted. -/
theorem mem_newest_concat {l : List IndexRec} {r : IndexRec} {n : Nat} {p : IndexRec → Bool} (positive : 0 < n)
    (above : p r = true) : r ∈ newest n ((l ++ [r]).filter p) := by
  have last : (l ++ [r]).filter p = l.filter p ++ [r] := by simp [above]
  unfold newest
  rw [last, List.drop_append_of_le_length (by simp only [List.length_append, List.length_singleton]; omega)]
  exact List.mem_append_right _ (List.mem_singleton_self r)

/-- What a step with one slot recording leaves of the blocks, its writer having come to rest. -/
theorem State.fields_noteWaiting (s : State) (x : SlotId) :
    let t := (s.noteWaiting x).release
    t.sta = { s.sta with index := t.sta.index } ∧ t.mem = s.mem ∧ t.shc = s.shc ∧ t.ftu = s.ftu ∧ t.acu = s.acu ∧
      t.stop = s.stop ∧ t.flt = s.flt ∧ t.slot x = { s.slot x with waiting := (s.slot x).behind } ∧
      t.slot (otherSlot x) = s.slot (otherSlot x) := by
  cases x <;> exact ⟨rfl, rfl, rfl, rfl, rfl, rfl, rfl, rfl, rfl⟩

/-- An occurrence that names no tag is logged alike between states with the same Fault Logs and frame. -/
theorem logged_untagged_congr {s s' t t' : State} {k : FaultKind} {x : FaultSource} {d1 d2 : Word}
    (before : s'.flt = s.flt) (ftu : s'.ftu = s.ftu) (after : t'.flt = t.flt) (logs : logged s' t k x d1 d2 0) :
    logged s t' k x d1 d2 0 := by
  unfold logged at logs ⊢
  rw [after, ← before, ← ftu]
  exact logs

end

/-- Settles O45: the copy leaves the group, its record and its unit, and the slots do what they can. -/
theorem groupCopiedAndIndexed : Obligations.GroupCopiedAndIndexed := by
  intro e s g picture sound copy noPending errors wf inTable windowTop streamTop u b at_ entry r index copied hp hs fits
  have ready : u.Completes g b := ⟨errors, fits, streamTop, inTable, windowTop, noPending⟩
  have ends : u.copyEnds g = (u.groupCopied g b).work.lookAtHead := State.copyEnds_ok ready hp hs
  have leaves (t : State) (sta : t.sta = { (u.groupCopied g b).sta with index := t.sta.index })
      (mem : t.mem = (u.groupCopied g b).mem) (shc : t.shc = s.shc) (ftu : t.ftu = s.ftu) (acu : t.acu = s.acu)
      (stop : t.stop = s.stop) : copied t := by
    refine ⟨?_, ?_, ?_, ?_, ?_, fun a outside apart => ?_, fun held => ?_, shc, ftu, acu, stop⟩
    · rw [sta]
      rfl
    · rw [sta]
      exact noPending
    · rw [sta]
      rfl
    · rw [sta]
      rfl
    · rw [mem]
      show State.memAfterUse _ g.unit = _
      cases g.unit <;> rfl
    · rw [mem]
      exact State.read_groupCopied (State.arrive_wf wf) outside apart
    · rw [sta]
      show (s.sta.releaseClaim _).claims = _
      rw [Sta.releaseClaim_eq]
      exact if_pos held
  refine ⟨fun calm => ?calm, ?records⟩
  case calm =>
    intro retained
    have calm' : quiet (u.groupCopied g b) = true := calm
    have held : (u.groupCopied g b).retained = retained := by
      show (if s.sta.preOn && !s.clipOpen then _ else _) = _
      simp [retained]
      rfl
    have needed (k : IndexRec) : (u.groupCopied g b).needed k = retained.any fun m => m.frame == k.frame :=
      held ▸ State.needed_calm calm' k
    have left : (u.groupCopied g b).release.sta.index =
        index.dropWhile fun k => !(retained.any fun m => m.frame == k.frame) := by
      show ((u.groupCopied g b).sta.index.dropWhile fun k => !(u.groupCopied g b).needed k) = _
      simp only [needed]
      rfl
    refine ⟨_, exec_groupCopyDone_calm copy ready ends calm, leaves _ rfl rfl rfl rfl rfl rfl, rfl, rfl, rfl, left,
      fun on positive above closed => ?_⟩
    rw [left]
    refine getLast?_dropWhile_concat (needed := fun k : IndexRec => retained.any fun m => m.frame == k.frame) _ ?_
    have kept : r ∈ retained := by
      simp only [retained, on, closed]
      exact mem_newest_concat positive above
    exact List.any_eq_true.mpr ⟨r, kept, by simp⟩
  case records =>
    intro x c recording clip openPlaced notClosed notPaused noEnd next busy missing idle closed noRequest stopped room
    have noOther : (s.slot (otherSlot x)).clip = none := (Slot.idle_parts idle).1
    have slot (y : SlotId) : (u.groupCopied g b).slot y = s.slot y := by cases y <;> rfl
    have writes : ((u.groupCopied g b).slot x).WritesNext c :=
      slot x ▸ ⟨recording, clip, openPlaced, notClosed, notPaused, noEnd⟩
    have found : ((u.groupCopied g b).sta.index.find? fun k => k.frame == c.next) = some r := by
      show ((s.sta.index ++ [r]).find? _) = _
      have absent : (s.sta.index.find? fun k => k.frame == c.next) = none :=
        List.find?_eq_none.mpr fun k mem same => (missing k mem).1 ((beq_iff_eq.mp same).trans next)
      rw [List.find?_append, absent, next]
      simp
    have next_missing (k : IndexRec) (mem : k ∈ index) : k.frame ≠ r.frame + 1 := by
      obtain old | new := List.mem_append.mp mem
      · exact (missing k old).2
      · obtain rfl := List.mem_singleton.mp new
        simp
    have goesOn {p : State} {v : Slot} (step : (u.groupCopied g b).writerStep x = some p) (rests : p.RestsBehind x)
        (sta : p.sta = (u.groupCopied g b).sta) (mem : p.mem = (u.groupCopied g b).mem) (shc : p.shc = s.shc)
        (ftu : p.ftu = s.ftu) (acu : p.acu = s.acu) (stop : p.stop = s.stop) (own : p.slot x = v)
        (same : v.st = (s.slot x).st ∧ v.command = (s.slot x).command) (d : Clip) (clip : v.clip = some d)
        (other : p.slot (otherSlot x) = s.slot (otherSlot x)) :
        ∃ t, exec (.groupCopyDone e) s = .next t ∧ copied t ∧ t.flt = p.flt ∧
          t.slot (otherSlot x) = s.slot (otherSlot x) ∧ (t.slot x).st = .recording ∧
          (t.slot x).command = (s.slot x).command ∧ (t.slot x).clip = some d ∧ (t.slot x).queue = v.queue ∧
          t.sta.index = index.dropWhile fun k => !d.needs k.frame := by
      obtain ⟨sta', mem', shc', ftu', acu', stop', flt', own', other'⟩ := p.fields_noteWaiting x
      subst own
      have recording := same.1.trans recording
      refine ⟨_, exec_groupCopyDone_rests copy ready ends step rests noOther noRequest stopped sta stop same.1 other,
        leaves _ (sta ▸ sta') (mem'.trans mem) (shc'.trans shc) (ftu'.trans ftu) (acu'.trans acu) (stop'.trans stop),
        flt', other'.trans other, ?_, ?_, ?_, ?_, ?_⟩
      · rw [own']
        exact recording
      · rw [own']
        exact same.2
      · rw [own']
        exact clip
      · rw [own']
      · rw [State.index_oneReader clip recording (other ▸ noOther), sta]
        rfl
    refine ⟨fun enough => ?placed, fun short unbounded fresh asks whole => ?paused⟩
    case placed =>
      have step := State.writerStep_places writes found (slot x ▸ enough)
      have rests := State.RestsBehind.placed (r := r) writes (slot x ▸ busy) (slot (otherSlot x) ▸ idle) next_missing
      have eq := (u.groupCopied g b).placeGroup_eq x c r
      rw [slot x] at eq
      generalize (u.groupCopied g b).placeGroup x c r = p at step rests eq
      have own := (congrArg (fun t : State => t.slot x) eq).trans (State.slot_setSlot ..)
      have other : p.slot (otherSlot x) = s.slot (otherSlot x) :=
        eq ▸ (State.slot_setSlot_other ..).trans (slot (otherSlot x))
      obtain ⟨t, runs, copies, flt, apart, st, command, clip, -, left⟩ := goesOn step rests (eq ▸ State.setSlot_sta ..)
        (eq ▸ State.setSlot_mem ..) (eq ▸ State.setSlot_shc ..) (eq ▸ State.setSlot_ftu ..)
        (eq ▸ State.setSlot_acu ..) (eq ▸ State.setSlot_stop ..) own ⟨rfl, rfl⟩ _ rfl other
      refine ⟨t, runs, copies, flt.trans (eq ▸ State.setSlot_flt ..), apart, st, command, _, clip, rfl, rfl, rfl, rfl,
        rfl, congrArg (fun gap => c.counts.gaps + bit gap) g.gap_damage, left, fun acked since => ?_⟩
      rw [left]
      refine getLast?_dropWhile_concat (needed := fun k : IndexRec => Clip.needs _ k.frame) _ ?_
      refine Clip.needs_placed (r := r) since noEnd _ (List.mem_append_right _ (List.mem_singleton_self _)) rfl ?_
      exact Nat.lt_of_le_of_lt acked (Nat.lt_add_of_pos_right (g.length_bytes_pos picture sound))
    case paused =>
      have step := State.writerStep_pauses writes found (slot x ▸ short) (slot x ▸ unbounded)
      obtain ⟨eq, own, other, rests⟩ := State.RestsBehind.paused writes (slot x ▸ busy) (slot (otherSlot x) ▸ idle) fresh
        c.next (((u.groupCopied g b).slot x).heldRoom c)
      rw [slot x] at step eq own other rests
      rw [slot (otherSlot x)] at other
      generalize (u.groupCopied g b).pauseWriter x c c.next ((s.slot x).heldRoom c) = p at step eq own other rests
      generalize before : (u.groupCopied g b).setSlot x { s.slot x with clip := some { c with paused := true } } = w at eq
      have flt : w.flt = s.flt := before ▸ State.setSlot_flt ..
      have ftu : w.ftu = s.ftu := before ▸ State.setSlot_ftu ..
      have stop : w.stop = s.stop := before ▸ State.setSlot_stop ..
      obtain ⟨t, runs, copies, flt', apart, st, command, clip, queue, left⟩ := goesOn step rests
        (eq ▸ (State.fault_sta ..).trans (before ▸ State.setSlot_sta ..))
        (eq ▸ (State.fault_mem ..).trans (before ▸ State.setSlot_mem ..))
        (eq ▸ (State.fault_shc ..).trans (before ▸ State.setSlot_shc ..))
        (eq ▸ (State.fault_ftu ..).trans ftu)
        (eq ▸ (State.fault_acu ..).trans (before ▸ State.setSlot_acu ..))
        (eq ▸ (State.fault_stop _ _ _ ((asksNoStop_congr flt stop _).trans asks)).trans stop)
        own ⟨rfl, rfl⟩ _ rfl other
      refine ⟨t, runs, copies, apart, st, command, clip, queue, ?logs, left, fun since => ?last⟩
      case logs =>
        have logs := State.logged_fault (flt ▸ whole) .extentStarved (slotSource x) c.next
          (BitVec.ofNat 32 ((s.slot x).heldRoom c).bytes)
        rw [← eq, next] at logs
        exact logged_untagged_congr flt ftu flt' logs
      case last =>
        rw [left]
        rw [← next] at since
        have needs := Clip.needs_next since noEnd
        rw [next] at needs
        exact getLast?_dropWhile_concat _ needs

end Sys2Proof.Machine
end

