-- ==== Sys2Proof/Proofs/CardRules.lean ====
section
/-! PROOFS. What the operations on one slot come to, and the end of a step that leaves the part quiet (R136 to R138,
R170). -/

namespace Sys2Proof.Machine

section
variable {e : Env} {s t : State} {x : SlotId} {v : Slot}

/-! ## One slot -/

theorem State.setSlot_setSlot (s : State) (x : SlotId) (v w : Slot) : (s.setSlot x v).setSlot x w = s.setSlot x w := by
  cases x <;> rfl

@[simp] theorem State.arrive_slot (s : State) (e : Env) (x : SlotId) : (s.arrive e).slot x = s.slot x := by cases x <;> rfl

@[simp] theorem State.acceptTag_slot (s : State) (kind tag : Byte) (x : SlotId) :
    (s.acceptTag kind tag).slot x = s.slot x := by
  cases x
  · exact State.acceptTag_slotA ..
  · exact State.acceptTag_slotB ..

/-- The slot itself decides what a change of it comes to. -/
theorem State.updSlot_eq (own : s.slot x = v) (f : Slot → Slot) : s.updSlot x f = s.setSlot x (f v) := by
  rw [← own]
  rfl

@[simp] theorem State.slot_setSlotState (s : State) (x : SlotId) (st : SlotState) :
    (s.setSlotState x st).slot x = { s.slot x with st := st } := by cases x <;> rfl

@[simp] theorem State.slot_setSlotState_other (s : State) (x : SlotId) (st : SlotState) :
    (s.setSlotState x st).slot (otherSlot x) = s.slot (otherSlot x) := by cases x <;> rfl

/-- A slot's change of state moves that slot and the guard, and leaves the other blocks. -/
theorem State.setSlotState_leaves (s : State) (x : SlotId) (st : SlotState) :
    let t := s.setSlotState x st
    t.now = s.now ∧ t.mem = s.mem ∧ t.shc = s.shc ∧ t.ftu = s.ftu ∧ t.sta = s.sta ∧ t.deck = s.deck ∧
      t.stop = s.stop ∧ t.flt = s.flt := by
  cases x <;> exact ⟨rfl, rfl, rfl, rfl, rfl, rfl, rfl, rfl⟩

/-- The guard that does not watch follows no slot, but into RECORDING (R170). -/
theorem GuardState.follow_calm {g : GuardState} (guard : g ≠ .watching) (clipOpen : Bool) :
    g.follow false clipOpen = g := by
  cases g with
  | watching => exact absurd rfl guard
  | off | armed | tripped => rfl

/-- A slot changes its state, not into RECORDING, and the guard does not watch: nothing follows it. -/
theorem State.setSlotState_calm (guard : s.cgd.st ≠ .watching) {st : SlotState} (notInto : st ≠ .recording) :
    s.setSlotState x st = s.setSlot x { s.slot x with st := st } := by
  have entered : (st == SlotState.recording && (s.slot x).st != .recording) = false := by simp [notInto]
  have follows : (s.setSlot x { s.slot x with st := st }).cgd.st.follow
      (st == .recording && (s.slot x).st != .recording) (s.setSlot x { s.slot x with st := st }).clipOpen =
        (s.setSlot x { s.slot x with st := st }).cgd.st := by
    rw [entered, State.setSlot_cgd]
    exact GuardState.follow_calm guard _
  unfold State.setSlotState
  dsimp only
  rw [follows]

/-! ## Quiet parts -/

theorem quiet_iff : quiet s = true ↔
    (s.slot x).idle = true ∧ (s.slot (otherSlot x)).idle = true ∧ s.stop.requests = [] ∧ s.stop.stopping = false := by
  cases x with
  | a => simp [quiet, State.slot, otherSlot, and_assoc]
  | b => simp [quiet, State.slot, otherSlot, and_assoc, and_left_comm]

/-- A quiet part with an idle slot for one of its slots is quiet. -/
theorem quiet_setSlot (calm : quiet s = true) (idle : v.idle = true) : quiet (s.setSlot x v) = true := by
  obtain ⟨-, other, rest⟩ := quiet_iff (x := x).mp calm
  refine quiet_iff (x := x).mpr ?_
  rw [State.slot_setSlot, State.slot_setSlot_other, State.setSlot_stop]
  exact ⟨idle, other, rest⟩

/-- An idle slot that changes in fields that idleness does not read. -/
theorem Slot.idle_of {v w : Slot} (idle : v.idle = true) (clip : w.clip = v.clip)
    (pending : w.releasePending = v.releasePending) (st : w.st ≠ .scanning) (waiting : w.waiting = none) :
    w.idle = true := by
  obtain ⟨noClip, notPending, -, -⟩ := Slot.idle_parts idle
  simp [Slot.idle, clip, pending, st, waiting, noClip, notPending]

/-- The two slots alone decide whether one has entered or left RECORDING (R197). -/
theorem State.sameRecording_of {u : State} (own : ((t.slot x).st == .recording) = ((u.slot x).st == .recording))
    (other : (t.slot (otherSlot x)).st = (u.slot (otherSlot x)).st) : t.sameRecording u = true := by
  cases x <;> simp_all [State.sameRecording, State.slot, otherSlot]

/-- The end of a step that leaves the part quiet and no slot into RECORDING or out of it. -/
theorem State.settle_quietly {u : State} (calm : quiet t = true)
    (own : ((t.slot x).st == .recording) = ((u.slot x).st == .recording))
    (other : (t.slot (otherSlot x)).st = (u.slot (otherSlot x)).st) : t.settle.judgeSlots u = t.release := by
  rw [State.settle_quiet calm]
  refine State.judgeSlots_same (State.sameRecording_of (x := x) ?_ ?_)
  · rw [State.slot_release]
    exact own
  · rw [State.slot_release]
    exact other

/-- The end of a step in which one slot of a quiet part changed, not into RECORDING nor out of it. -/
theorem State.settle_slot (calm : quiet s = true) (idle : v.idle = true)
    (same : (v.st == .recording) = ((s.slot x).st == .recording)) :
    ((s.arrive e).setSlot x v).settle.judgeSlots (s.arrive e) = ((s.arrive e).setSlot x v).release := by
  refine State.settle_quietly (x := x) (quiet_setSlot (s := s.arrive e) calm idle) ?_ ?_
  · rw [State.slot_setSlot, State.arrive_slot]
    exact same
  · rw [State.slot_setSlot_other]

/-! ## The slots' work (log 15) -/

/-- With neither writer having anything to do, nothing is placed. -/
theorem State.runWriters_still (still : ∀ y, s.writerStep y = none) (n : Nat) : State.runWriters n s = s := by
  cases n with
  | zero => rfl
  | succ n =>
    unfold State.runWriters
    rw [still .a, still .b]

/-- The writers come to rest, the slots send, and both have nothing left to do. -/
theorem State.work_of {u w : State} (places : State.runWriters s.writerFuel s = u) (sendsA : u.sendDue .a = w)
    (sendsB : w.sendDue .b = t) (still : ∀ y, t.writerStep y = none) (stays : ∀ y, t.sendDue y = t) :
    s.work = t.release := by
  unfold State.work
  dsimp only
  rw [places, sendsA, sendsB, State.runWriters_still still, stays .a, stays .b]

/-- The same, where the other slot is idle. -/
theorem State.work_slot {u : State} (places : State.runWriters s.writerFuel s = u) (sends : u.sendDue x = t)
    (apart : t.slot (otherSlot x) = u.slot (otherSlot x)) (idle : (u.slot (otherSlot x)).idle = true)
    (still : t.writerStep x = none) (stays : t.sendDue x = t) : s.work = t.release := by
  have idle' : (t.slot (otherSlot x)).idle = true := apart ▸ idle
  have still' (y : SlotId) : t.writerStep y = none := by
    obtain rfl | rfl := SlotId.self_or_other x y
    · exact still
    · exact State.writerStep_noClip (Slot.idle_parts idle').1
  have stays' (y : SlotId) : t.sendDue y = t := by
    obtain rfl | rfl := SlotId.self_or_other x y
    · exact stays
    · exact State.sendDue_idle idle'
  cases x with
  | a => exact State.work_of places sends (State.sendDue_idle (x := .b) idle') still' stays'
  | b => exact State.work_of places (State.sendDue_idle (x := .a) idle) sends still' stays'

/-- With no clip in either slot, what one slot has to send is all there is to do. -/
theorem State.work_sends (noClip : (s.slot x).clip = none) (idle : (s.slot (otherSlot x)).idle = true)
    (sends : s.sendDue x = s.setSlot x v) (sent : v.clip = none) (stays : (s.setSlot x v).sendDue x = s.setSlot x v) :
    s.work = (s.setSlot x v).release := by
  have still (y : SlotId) : s.writerStep y = none := by
    obtain rfl | rfl := SlotId.self_or_other x y
    · exact State.writerStep_noClip noClip
    · exact State.writerStep_noClip (Slot.idle_parts idle).1
  refine State.work_slot (State.runWriters_still still _) sends (State.slot_setSlot_other ..) idle ?_ stays
  exact State.writerStep_noClip (by rw [State.slot_setSlot]; exact sent)

/-- A slot behind whose command nothing more is to be noted stays as it is. -/
theorem State.sendDue_noted (busy : (s.slot x).command ≠ none) (noted : (s.slot x).waiting = (s.slot x).behind) :
    s.sendDue x = s := by
  rw [State.sendDue_busy busy, State.noteWaiting, State.updSlot, ← noted]
  exact State.setSlot_slot s x

/-- The FLUSH of a release is sent (R163). -/
theorem State.sendDue_release (free : (s.slot x).command = none) (noClip : (s.slot x).clip = none)
    (pending : (s.slot x).releasePending = true) (unsent : (s.slot x).releaseSent = false) :
    s.sendDue x = s.setSlot x { s.slot x with
      releaseSent := true, command := some .flush, timer := some (s.now + 1000000), waiting := none } := by
  have sends : s.sendDue x = (s.updSlot x fun v => { v with releaseSent := true }).send x .flush := by
    simp [State.sendDue, free, noClip, pending, unsent]
  rw [sends]
  cases x <;> rfl

/-- The next READ of a scan is sent (R164). -/
theorem State.sendDue_read (free : (s.slot x).command = none) (noClip : (s.slot x).clip = none)
    (noRelease : (s.slot x).releasePending = false) (due : (s.slot x).readDue = true) :
    s.sendDue x = s.setSlot x { s.slot x with
      command := some (.read ((s.slot x).scan.start + (s.slot x).scan.sectorsRead)
        (min 64 ((s.slot x).scan.count - (s.slot x).scan.sectorsRead)))
      timer := some (s.now + 500000), waiting := none } := by
  have sends : s.sendDue x = s.sendRead x := by simp [State.sendDue, free, noClip, noRelease, due]
  rw [sends]
  cases x <;> rfl

end

end Sys2Proof.Machine
end

