-- ==== Sys2Proof/Proofs/CardsIdentified.lean ====
section
/-! PROOFS. A card is inserted, and IDENTIFY is answered (R136): O47. -/

namespace Sys2Proof.Machine

section
variable {e : Env} {s : State} {x : SlotId}

theorem State.setDetect_eq (s : State) (x : SlotId) (level : Bool) :
    s.setDetect x level = s.setSlot x { s.slot x with detect := level } := rfl

/-- IDENTIFY is sent to a slot of a part whose guard does not watch. -/
theorem State.probeCard_calm (guard : s.cgd.st ≠ .watching) :
    s.probeCard x = s.setSlot x { s.slot x with
      st := .probing, capacity := 0, command := some .identify, timer := some (s.now + 500000), waiting := none } := by
  have guard' : (s.updSlot x fun v => { v with capacity := 0 }).cgd.st ≠ .watching := by
    rw [State.updSlot_cgd]
    exact guard
  unfold State.probeCard
  rw [State.setSlotState_calm guard' (by decide)]
  cases x <;> rfl

/-- What the reply to IDENTIFY makes of the slot (R136). -/
def Slot.identified (v : Slot) : IdentifyAnswer → Slot
  | .ok capacity wp => { v with
      command := none, timer := none, waiting := none, st := if wp then .guarded else .ready
      capacity := capacity.toNat, writeProtected := wp }
  | .error _ => { v with command := none, timer := none, waiting := none, st := .faulted }

/-- An identified slot is READY, PROTECTED or FAULTED, and no other. -/
theorem Slot.identified_st (v : Slot) (answer : IdentifyAnswer) :
    (v.identified answer).st ∈ [SlotState.guarded, .ready, .faulted] := by
  cases answer with
  | ok capacity wp => cases wp <;> simp [Slot.identified]
  | error code => simp [Slot.identified]

theorem State.identified_calm (sent : (s.slot x).command = some .identify) (guard : s.cgd.st ≠ .watching)
    (answer : IdentifyAnswer) : s.identified x answer = s.setSlot x ((s.slot x).identified answer) := by
  have guarded (f : Slot → Slot) : (s.updSlot x f).cgd.st ≠ .watching := by
    rw [State.updSlot_cgd]
    exact guard
  unfold State.identified
  rw [sent]
  cases answer with
  | ok capacity wp =>
    have guard' : ((s.updSlot x Slot.answered).updSlot x fun v =>
        { v with capacity := capacity.toNat, writeProtected := wp }).cgd.st ≠ .watching := by
      rw [State.updSlot_cgd]
      exact guarded _
    dsimp only
    rw [State.setSlotState_calm guard' (by cases wp <;> decide)]
    cases x <;> rfl
  | error code =>
    dsimp only
    rw [State.setSlotState_calm (guarded _) (by decide)]
    cases x <;> rfl

/-- The reply to IDENTIFY in a quiet part whose guard does not watch. -/
theorem exec_identifyReply_calm (sent : (s.slot x).command = some .identify) (probing : (s.slot x).st = .probing)
    (calm : quiet s = true) (guard : s.cgd.st ≠ .watching) (answer : IdentifyAnswer) :
    exec (.identifyReply e x answer) s =
      .next (State.release ((s.arrive e).setSlot x ((s.slot x).identified answer))) := by
  have reply : (s.arrive e).identified x answer = (s.arrive e).setSlot x ((s.slot x).identified answer) := by
    rw [State.identified_calm (s := s.arrive e) (by simpa using sent) guard, State.arrive_slot]
  have st := (s.slot x).identified_st answer
  have notScanning : ((s.slot x).identified answer).st ≠ .scanning := fun h => by simp [h] at st
  have notRecording : ((s.slot x).identified answer).st ≠ .recording := fun h => by simp [h] at st
  have idle : ((s.slot x).identified answer).idle = true :=
    Slot.idle_of (quiet_iff.mp calm).1 (by cases answer <;> rfl) (by cases answer <;> rfl) notScanning
      (by cases answer <;> rfl)
  refine congrArg Host.Outcome.next
    ((congrArg (fun t : State => t.settle.judgeSlots (s.arrive e)) reply).trans (State.settle_slot calm idle ?_))
  rw [probing, beq_eq_false_iff_ne.mpr notRecording]
  rfl

theorem exec_cardInserted (e : Env) (x : SlotId) (s : State) : exec (.cardInserted e x) s =
    if s.active = true ∧ (s.slot x).st = .empty then
      .next ((((s.arrive e).setDetect x true).probeCard x).settle.judgeSlots ((s.arrive e).setDetect x true))
    else .next ((s.arrive e).setDetect x true) := by
  cases x <;> rfl

end

/-- Settles O47: the insertion, and the two answers to IDENTIFY. -/
theorem cardInsertedAndIdentified : Obligations.CardInsertedAndIdentified := by
  refine ⟨fun e x s stands => ?stands, fun e x s active empty calm guard => ?probes,
    fun e x s sent probing calm guard => ?answered⟩
  case stands =>
    have off : ¬(s.active = true ∧ (s.slot x).st = .empty) := by
      rintro ⟨active, empty⟩
      simp [active, empty] at stands
    rw [exec_cardInserted, if_neg off, State.setDetect_eq, State.arrive_slot]
  case probes =>
    have probed : ((s.arrive e).setDetect x true).probeCard x = (s.arrive e).setSlot x { s.slot x with
        detect := true, st := .probing, capacity := 0, command := some .identify
        timer := some (s.now + e.elapsed + 500000), waiting := none } := by
      rw [State.probeCard_calm (by rw [State.setDetect_eq, State.setSlot_cgd]; exact guard)]
      cases x <;> rfl
    have same (t : State) : t.judgeSlots ((s.arrive e).setDetect x true) = t.judgeSlots (s.arrive e) := by
      cases x <;> rfl
    rw [exec_cardInserted, if_pos ⟨active, empty⟩, probed, same]
    exact congrArg Host.Outcome.next (State.settle_slot calm
      (Slot.idle_of (quiet_iff.mp calm).1 rfl rfl nofun rfl) (by rw [empty]; rfl))
  case answered =>
    exact ⟨fun capacity wp => exec_identifyReply_calm sent probing calm guard (.ok capacity wp),
      fun code => exec_identifyReply_calm sent probing calm guard (.error code)⟩

end Sys2Proof.Machine
end

