-- ==== Sys2Proof/Proofs/GrantsAndModes.lean ====
section
/-! PROOFS. GRANT_EXTENT and RECORD_MODE in a quiet part (R144, R145): O51. -/

namespace Sys2Proof.Machine

/-! ## The codes -/

theorem slotOf_none {slot : Byte} (beyond : 1 < slot.toNat) : slotOf slot = none :=
  (if_neg (by omega)).trans (if_neg (by omega))

theorem markOf_none {final : Byte} (beyond : 1 < final.toNat) : markOf final = none :=
  (if_neg (by omega)).trans (if_neg (by omega))

theorem markOf_some {final : Byte} (known : final.toNat ≤ 1) : markOf final = some (final == 1) := by
  unfold markOf
  obtain zero | one : final.toNat = 0 ∨ final.toNat = 1 := by omega
  · have eq : final = 0 := BitVec.eq_of_toNat_eq zero
    rw [if_pos zero, eq]
    rfl
  · have eq : final = 1 := BitVec.eq_of_toNat_eq one
    rw [if_neg (by omega), if_pos one, eq]
    rfl

/-! ## GRANT_EXTENT (R144) -/

section
variable {e : Env} {s : State} {x : SlotId} {slot final : Byte} {a n : Word}

/-- The slot takes a grant, by its state, its mark, its extents and its card (R144, steps 2 to 4). -/
def Slot.takesGrant (v : Slot) : Prop :=
  (v.st = .ready ∨ v.st = .recording ∨ v.st = .closing) ∧ v.releasePending = false ∧ v.holdsFinal = false ∧
    64 ≤ v.capacity

theorem Slot.takesGrant_iff {v : Slot} :
    v.takesGrant ↔ v.grantable = true ∧ v.holdsFinal = false ∧ 64 ≤ v.capacity := by
  simp [Slot.takesGrant, Slot.grantable, and_assoc, or_assoc]

theorem decideGrantExtent_badParam (bad : 1 < slot.toNat ∨ 1 < final.toNat) :
    decideGrantExtent slot a n final s = .refuse .refusedParam := by
  unfold decideGrantExtent
  obtain slotBad | finalBad := bad
  · rw [slotOf_none slotBad]
  · rw [markOf_none finalBad]
    cases slotOf slot <;> rfl

/-- The decision where both codes are known, check by check. -/
theorem decideGrantExtent_known (known : slotOf slot = some x) (mark : final.toNat ≤ 1) :
    decideGrantExtent slot a n final s =
      (let v := s.slot x
      let g := grantedExtent v.capacity a n (final == 1)
      if v.grantable = false then .refuse .refusedState
      else if v.holdsFinal = true then .refuse .refusedState
      else if v.capacity < 64 then .refuse .refusedState
      else if 8 ≤ v.queue.length then .refuse .refusedFull
      else if v.held.any g.shares = true then .refuse .refusedOverlap
      else .carry (g.start != a.toNat || g.count != n.toNat) fun s => s.grant x g) := by
  unfold decideGrantExtent
  rw [known, markOf_some mark]

theorem decideGrantExtent_badState (known : slotOf slot = some x) (mark : final.toNat ≤ 1)
    (not : ¬(s.slot x).takesGrant) : decideGrantExtent slot a n final s = .refuse .refusedState := by
  rw [decideGrantExtent_known known mark]
  rw [Slot.takesGrant_iff, not_and_or, not_and_or] at not
  dsimp only
  split
  · rfl
  · split
    · rfl
    · rw [if_pos]
      simp_all

/-- The checks that follow the state of the slot. -/
theorem decideGrantExtent_takes (known : slotOf slot = some x) (mark : final.toNat ≤ 1)
    (takes : (s.slot x).takesGrant) : decideGrantExtent slot a n final s =
      (let v := s.slot x
      let g := grantedExtent v.capacity a n (final == 1)
      if 8 ≤ v.queue.length then .refuse .refusedFull
      else if v.held.any g.shares = true then .refuse .refusedOverlap
      else .carry (g.start != a.toNat || g.count != n.toNat) fun s => s.grant x g) := by
  obtain ⟨grantable, notFinal, large⟩ := Slot.takesGrant_iff.mp takes
  rw [decideGrantExtent_known known mark]
  dsimp only
  rw [if_neg (by simp [grantable]), if_neg (by simp [notFinal]), if_neg (by omega)]

theorem Extent.shares_iff {g h : Extent} :
    g.shares h = true ↔ g.start < h.start + h.count ∧ h.start < g.start + g.count := by
  unfold Extent.shares
  rw [Bool.and_eq_true, decide_eq_true_iff, decide_eq_true_iff]
  exact Iff.rfl

/-- A grant to a slot of a quiet part joins the queue. -/
theorem State.grant_calm (calm : quiet s = true) (g : Extent) :
    s.grant x g = State.release (s.setSlot x { s.slot x with queue := (s.slot x).queue ++ [g] }) := by
  have idle := (quiet_iff (x := x).mp calm).1
  have granted : (s.updSlot x fun v => { v with queue := v.queue ++ [g] }).updClip x (fun c =>
      { c with retry := c.retry || c.paused, paused := false }) =
        s.setSlot x { s.slot x with queue := (s.slot x).queue ++ [g] } := by
    unfold State.updClip
    rw [State.updSlot_eq (State.slot_updSlot ..)]
    dsimp only
    rw [(Slot.idle_parts idle).1]
    exact State.setSlot_setSlot ..
  have still : quiet (s.setSlot x { s.slot x with queue := (s.slot x).queue ++ [g] }) = true :=
    quiet_setSlot calm (v := { s.slot x with queue := (s.slot x).queue ++ [g] }) idle
  obtain ⟨idleA, idleB, -, -⟩ := quiet_parts still
  unfold State.grant
  rw [granted, State.work_idle idleA idleB]

end

/-! ## Orders that change one slot of a quiet part -/

section
variable {e : Env} {s t : State} {c : Instr} {cls : TagClass} {kind tag : Byte} {params : List Byte} {x : SlotId}
  {v : Slot} {decide : State → Decision} {clamped : Bool} {run : State → State}

/-- An order carried out that changes one slot alone, not into RECORDING nor out of it. -/
theorem exec_orderSetsSlot (order : exec c s = .next ((s.arrive e).takeOrder cls kind tag params decide))
    (due : dispatches s cls kind tag params = true) (carries : decide (s.arrive e) = .carry clamped run)
    (ran : run ((s.arrive e).acceptTag kind tag) = State.release (((s.arrive e).acceptTag kind tag).setSlot x v))
    (same : (v.st == .recording) = ((s.slot x).st == .recording)) :
    exec c s = .next (State.finishEntry (State.release (((s.arrive e).acceptTag kind tag).setSlot x v))
      (carriedResult clamped tag)) := by
  have due : dispatches (s.arrive e) cls kind tag params = true := due
  obtain ⟨-, -, noRequest⟩ := dispatches_iff.mp due
  have stop : (((s.arrive e).acceptTag kind tag).setSlot x v).stop = s.stop := by simp
  rw [order, State.takeOrder_carry due carries, ran, State.serve_none, State.judgeSlots_same]
  · refine State.sameRecording_of (x := x) ?_ ?_
    · rw [State.arrive_slot, ← same]
      cases x <;> rfl
    · rw [← State.acceptTag_slot (s.arrive e) kind tag, ← State.slot_setSlot_other _ x v]
      cases x <;> rfl
  · exact (congrArg SafeStop.requests stop).trans noRequest

end

/-! ## RECORD_MODE (R145) -/

section
variable {s : State} {mode slot : Byte} {x : SlotId}

theorem decideRecordMode_of {m : RecordMode} (known : recordModeOf mode slot s.deck.slot = some (m, x))
    (closed : s.clipOpen = false) : decideRecordMode mode slot s =
      .carry false fun s => { s with deck := { s.deck with mode := m, slot := x } } := by
  unfold decideRecordMode
  rw [known]
  exact if_neg (by simp [closed])

theorem decideRecordMode_badParam (bad : 2 < mode.toNat ∨ (mode ≠ 1 ∧ 1 < slot.toNat)) :
    decideRecordMode mode slot s = .refuse .refusedParam := by
  have none : recordModeOf mode slot s.deck.slot = none := by
    unfold recordModeOf
    obtain beyond | ⟨notSimul, slotBad⟩ := bad
    · rw [if_neg (by omega), if_neg (by omega), if_neg (by omega)]
    · have : mode.toNat ≠ 1 := fun h => notSimul (BitVec.eq_of_toNat_eq h)
      rw [slotOf_none slotBad, if_neg this]
      split
      · rfl
      · split <;> rfl
  unfold decideRecordMode
  rw [none]

theorem decideRecordMode_recording (known : mode.toNat ≤ 2) (slotKnown : mode = 1 ∨ slot.toNat ≤ 1)
    (recording : s.clipOpen = true) : decideRecordMode mode slot s = .refuse .refusedRecording := by
  have some : (recordModeOf mode slot s.deck.slot).isSome = true := by
    unfold recordModeOf slotOf
    obtain rfl | slotKnown := slotKnown
    · rfl
    · obtain h | h | h : mode.toNat = 0 ∨ mode.toNat = 1 ∨ mode.toNat = 2 := by omega
      all_goals obtain k | k : slot.toNat = 0 ∨ slot.toNat = 1 := by omega
      all_goals simp [h, k]
  obtain ⟨⟨m, y⟩, found⟩ := Option.isSome_iff_exists.mp some
  unfold decideRecordMode
  rw [found]
  exact if_pos recording

end

/-- Settles O51: the checks of GRANT_EXTENT in their order, and the modes. -/
theorem extentsGrantedAndModeSet : Obligations.ExtentsGrantedAndModeSet := by
  refine ⟨fun e s x slot final a n due calm => ?grant, fun e s mode slot due => ?mode⟩
  case grant =>
    intro v u takes start g
    have order : exec (.grantExtent e 0 slot a n final) s = .next ((s.arrive e).takeOrder .immediate 0x60 0
      (p1 slot ++ p4 a ++ p4 n ++ p1 final) (decideGrantExtent slot a n final)) := rfl
    have own : (s.arrive e).slot x = v := State.arrive_slot ..
    have takesGrant : takes ↔ ((s.arrive e).slot x).takesGrant := by rw [own]; exact Iff.rfl
    have extent : grantedExtent ((s.arrive e).slot x).capacity a n (final == 1) = g := by rw [own]; rfl
    refine ⟨fun bad => exec_orderRefused order due (decideGrantExtent_badParam bad), fun known mark =>
      ⟨fun not => exec_orderRefused order due (decideGrantExtent_badState known mark (mt takesGrant.mpr not)),
        fun free full => exec_orderRefused order due ?full, fun free room overlaps => exec_orderRefused order due ?overlaps,
        fun free room apart => ?granted⟩⟩
    case full =>
      rw [decideGrantExtent_takes known mark (takesGrant.mp free), own]
      exact if_pos full
    case overlaps =>
      rw [decideGrantExtent_takes known mark (takesGrant.mp free)]
      dsimp only
      rw [extent, own, if_neg (by omega)]
      obtain ⟨h, held, shares⟩ := overlaps
      exact if_pos (List.any_eq_true.mpr ⟨h, held, Extent.shares_iff.mpr shares⟩)
    case granted =>
      have carries : decideGrantExtent slot a n final (s.arrive e) =
          .carry (g.start != a.toNat || g.count != n.toNat) fun s => s.grant x g := by
        rw [decideGrantExtent_takes known mark (takesGrant.mp free)]
        dsimp only
        rw [extent, own, if_neg (by omega)]
        refine if_neg fun any => ?_
        obtain ⟨h, held, shares⟩ := List.any_eq_true.mp any
        exact apart h held (Extent.shares_iff.mp shares)
      have changed : (g.start != a.toNat || g.count != n.toNat) = true ↔ ¬(g.start = a.toNat ∧ g.count = n.toNat) := by
        rw [Bool.or_eq_true, bne_iff_ne, bne_iff_ne, ← not_and_or]
      have ran := State.grant_calm (s := s.arrive e) (x := x) calm g
      rw [own] at ran
      exact carriedResult_untagged changed ▸ exec_orderSetsSlot order due carries ran rfl
  case mode =>
    intro u
    have order : exec (.recordMode e 0 mode slot) s = .next ((s.arrive e).takeOrder .immediate 0x61 0
      (p1 mode ++ p1 slot) (decideRecordMode mode slot)) := rfl
    have set {m : RecordMode} {x : SlotId} (known : recordModeOf mode slot s.deck.slot = some (m, x))
        (closed : s.clipOpen = false) : exec (.recordMode e 0 mode slot) s =
          .next (State.finishEntry { u with deck := { s.deck with mode := m, slot := x } } .done) :=
      exec_orderCarried order due (decideRecordMode_of (s := s.arrive e) known closed) rfl rfl rfl rfl
    refine ⟨fun bad => exec_orderRefused order due (decideRecordMode_badParam bad),
      fun known slotKnown recording =>
        exec_orderRefused order due (decideRecordMode_recording (s := s.arrive e) known slotKnown recording),
      fun x known closed => ⟨?single, ?relay⟩, ?simul⟩
    case single =>
      rintro rfl
      exact set (by rw [recordModeOf, known]; rfl) closed
    case relay =>
      rintro rfl
      exact set (by rw [recordModeOf, known]; rfl) closed
    case simul =>
      rintro rfl closed
      exact set rfl closed

end Sys2Proof.Machine
end

