-- ==== Sys2Proof/Proofs/ReleasesAndScans.lean ====
section
/-! PROOFS. SLOT_RELEASE and SCAN_EXTENT in a quiet part with no command in flight on the slot (R163, R164): O52. -/

namespace Sys2Proof.Machine

section
variable {e : Env} {s : State} {x : SlotId} {slot : Byte}

/-! ## SLOT_RELEASE (R163) -/

/-- A slot with its grants taken back and its FLUSH in flight. -/
def Slot.releasing (v : Slot) (now : Nat) : Slot :=
  { v with
    current := none, queue := [], releasePending := true, releaseSent := true, command := some .flush
    timer := some (now + 1000000) }

/-- A release of a slot that nothing keeps busy sends its FLUSH at once. -/
theorem State.releaseSlot_calm (calm : quiet s = true) (free : (s.slot x).command = none) :
    s.releaseSlot x = State.release (s.setSlot x ((s.slot x).releasing s.now)) := by
  obtain ⟨own, other, -, -⟩ := quiet_iff (x := x).mp calm
  obtain ⟨noClip, -, -, noWait⟩ := Slot.idle_parts own
  let v : Slot := { s.slot x with current := none, queue := [], releasePending := true, releaseSent := false }
  have slot : (s.setSlot x v).slot x = v := State.slot_setSlot ..
  have sends : (s.setSlot x v).sendDue x = (s.setSlot x v).setSlot x ((s.slot x).releasing s.now) := by
    have sent := State.sendDue_release (s := s.setSlot x v) (x := x) (by rw [slot]; exact free)
      (by rw [slot]; exact noClip) (by rw [slot]) (by rw [slot])
    rw [sent, slot, State.setSlot_now]
    unfold Slot.releasing
    rw [noWait]
  refine (State.work_sends (s := s.setSlot x v) (x := x) (by rw [slot]; exact noClip)
    (by rw [State.slot_setSlot_other]; exact other) sends noClip ?_).trans (by rw [State.setSlot_setSlot])
  refine State.sendDue_noted (by rw [State.slot_setSlot]; exact nofun) ?_
  rw [State.slot_setSlot]
  simp [Slot.behind, Slot.releasing, noClip, noWait]

theorem decideSlotRelease_badParam (bad : 1 < slot.toNat) : decideSlotRelease slot s = .refuse .refusedParam := by
  unfold decideSlotRelease
  rw [slotOf_none bad]

theorem decideSlotRelease_known (known : slotOf slot = some x) : decideSlotRelease slot s =
    if ((s.slot x).st = .ready ∨ (s.slot x).st = .full) ∧ (s.slot x).releasePending = false then
      .carry false fun s => s.releaseSlot x
    else .refuse .refusedState := by
  unfold decideSlotRelease
  rw [known]

/-! ## SCAN_EXTENT (R164) -/

variable {tag : Byte} {a n : Word}

/-- A slot with a scan begun on the `count` sectors from `start` on and its first READ in flight. -/
def Slot.scanningFrom (v : Slot) (tag now start count : Nat) : Slot :=
  { v with
    st := .scanning, scanTag := tag, scan := { Scan.reset with start := start, count := count }
    command := some (.read start (min 64 count)), timer := some (now + 500000) }

/-- A scan of a sector at least begins with its first READ, on a slot that nothing keeps busy. -/
theorem State.beginScan_calm (calm : quiet s = true) (guard : s.cgd.st ≠ .watching)
    (free : (s.slot x).command = none) {start count : Nat} (some : 1 ≤ count) (tag : Nat) :
    s.beginScan x tag (start, count) = State.release (s.setSlot x ((s.slot x).scanningFrom tag s.now start count)) := by
  obtain ⟨own, other, -, -⟩ := quiet_iff (x := x).mp calm
  obtain ⟨noClip, noRelease, -, noWait⟩ := Slot.idle_parts own
  let v : Slot := { s.slot x with st := .scanning, scanTag := tag, scan := .begin start count }
  have begun : (s.updSlot x fun v => { v with scanTag := tag, scan := .begin start count }).setSlotState x .scanning =
      s.setSlot x v := by
    rw [State.setSlotState_calm (by rw [State.updSlot_cgd]; exact guard) (by decide)]
    cases x <;> rfl
  have slot : (s.setSlot x v).slot x = v := State.slot_setSlot ..
  have due : v.readDue = true := by simp [Slot.readDue, v, Scan.begin, Scan.reset, Scan.atEnd]; omega
  have sends : (s.setSlot x v).sendDue x = (s.setSlot x v).setSlot x ((s.slot x).scanningFrom tag s.now start count) := by
    have sent := State.sendDue_read (s := s.setSlot x v) (x := x) (by rw [slot]; exact free)
      (by rw [slot]; exact noClip) (by rw [slot]; exact noRelease) (by rw [slot]; exact due)
    rw [sent, slot, State.setSlot_now]
    unfold Slot.scanningFrom
    rw [noWait]
    rfl
  unfold State.beginScan
  dsimp only
  rw [begun]
  refine (State.work_sends (s := s.setSlot x v) (x := x) (by rw [slot]; exact noClip)
    (by rw [State.slot_setSlot_other]; exact other) sends noClip ?_).trans (by rw [State.setSlot_setSlot])
  refine State.sendDue_noted (by rw [State.slot_setSlot]; exact nofun) ?_
  rw [State.slot_setSlot]
  simp [Slot.behind, Slot.scanningFrom, noClip, noWait, noRelease]

theorem decideScanExtent_badParam (bad : 1 < slot.toNat) :
    decideScanExtent tag slot a n s = .refuse .refusedParam := by
  unfold decideScanExtent
  rw [slotOf_none bad]

theorem decideScanExtent_known (known : slotOf slot = some x) : decideScanExtent tag slot a n s =
    if (s.slot x).st ≠ .ready ∨ (s.slot x).releasePending = true then .refuse .refusedState
    else
      let g := scannedExtent (s.slot x).capacity a n
      .carry (g.1 != a.toNat || g.2 != n.toNat) fun s => s.beginScan x tag.toNat g := by
  unfold decideScanExtent
  rw [known]

/-- An order whose class asks for a tag is dispatched with one (R17). -/
theorem dispatches_named {kind tag : Byte} {params : List Byte} (due : dispatches s .required kind tag params = true) :
    tag ≠ 0 := by
  rintro rfl
  obtain ⟨-, check, -⟩ := dispatches_iff.mp due
  exact absurd check nofun

end

/-- Settles O52: the two orders, refused or carried out. -/
theorem releaseAndScanBegin : Obligations.ReleaseAndScanBegin := by
  intro e s x slot calm guard v u
  obtain ⟨-, notPending, -, -⟩ := Slot.idle_parts (quiet_iff (x := x).mp calm).1
  have own : (s.arrive e).slot x = v := State.arrive_slot ..
  refine ⟨fun due => ⟨fun bad => ?badRelease, fun known notReady notFull => ?notReleased, fun known st free => ?released⟩,
    fun tag a n due => ?scan⟩
  case badRelease => exact exec_orderRefused rfl due (decideSlotRelease_badParam bad)
  case notReleased =>
    refine exec_orderRefused rfl due ((decideSlotRelease_known known).trans (if_neg ?_))
    rw [own]
    rintro ⟨ready | full, -⟩
    · exact notReady ready
    · exact notFull full
  case released =>
    have carries : decideSlotRelease slot (s.arrive e) = .carry false fun s => s.releaseSlot x :=
      (decideSlotRelease_known known).trans (if_pos (by rw [own]; exact ⟨st, notPending⟩))
    have ran := State.releaseSlot_calm (s := s.arrive e) (x := x) calm (by rw [own]; exact free)
    rw [own] at ran
    exact exec_orderSetsSlot (c := .slotRelease e 0 slot) rfl due carries ran rfl
  case scan =>
    intro start count
    refine ⟨fun bad => ?badScan, fun known notReady => ?notScanned, fun known ready free => ?scanned⟩
    case badScan => exact exec_orderRefused rfl due (decideScanExtent_badParam bad)
    case notScanned =>
      refine exec_orderRefused rfl due ((decideScanExtent_known known).trans (if_pos ?_))
      rw [own]
      exact .inl notReady
    case scanned =>
      have carries : decideScanExtent tag slot a n (s.arrive e) =
          .carry (start != a.toNat || count != n.toNat) fun s => s.beginScan x tag.toNat (start, count) := by
        refine ((decideScanExtent_known known).trans (if_neg ?_)).trans ?_
        · rw [own]
          rintro (notReady | pending)
          exacts [notReady ready, absurd (notPending.symm.trans pending) nofun]
        · rw [own]
          rfl
      have accepted : ((s.arrive e).acceptTag 0x65 tag).slot x = v := (State.acceptTag_slot ..).trans own
      have ran := State.beginScan_calm (s := (s.arrive e).acceptTag 0x65 tag) (x := x)
        (by simpa [quiet] using calm) (by rw [State.acceptTag_cgd]; exact guard) (by rw [accepted]; exact free)
        (start := start) (count := count) (le_max_left ..) tag.toNat
      rw [accepted, State.acceptTag_now] at ran
      have result : carriedResult (start != a.toNat || count != n.toNat) tag =
          if start = a.toNat ∧ count = n.toNat then .accepted else .clamped := by
        rw [carriedResult_of_changed (p := start = a.toNat ∧ count = n.toNat), if_neg (dispatches_named due)]
        rw [Bool.or_eq_true, bne_iff_ne, bne_iff_ne, ← not_and_or]
      exact result ▸ exec_orderSetsSlot (c := .scanExtent e tag slot a n) rfl due carries ran (by rw [ready]; rfl)

end Sys2Proof.Machine
end

