-- ==== Sys2Proof/Proofs/SafeStops.lean ====
section
/-! PROOFS. Safe Stop takes its requests, closes the clips, and judges its end (R158, R177 to R181): O55. -/

namespace Sys2Proof.Machine

section
variable {s : State} {x : SlotId} {c : Clip} {r : StopSource}

/-! ## What a stop tells the slots (R158, R178) -/

theorem State.stopClose_closed (closed : (s.slot x).clipOpen = false) (newest : Option FrameNo) :
    s.stopClose newest x = s := by
  unfold State.stopClose
  split
  next recording _ => simp [Slot.clipOpen, recording] at closed
  next closing _ => simp [Slot.clipOpen, closing] at closed
  next => rfl

/-- The clip of a RECORDING slot that a stop closes: it is marked, and ends at the newest group. -/
def Clip.stopped (c : Clip) (newest : FrameNo) : Clip :=
  { c with safeStopped := true, endPoint := some newest, retry := c.paused, paused := false }

theorem State.slot_stopClose (recording : (s.slot x).st = .recording) (clip : (s.slot x).clip = some c)
    (newest : FrameNo) : (s.stopClose (some newest) x).slot x =
      { s.slot x with st := .closing, clip := some (c.stopped newest) } := by
  have closes : s.stopClose (some newest) x =
      (s.updClip x fun c => { c with safeStopped := true }).closeClip x (some newest) := by
    unfold State.stopClose
    rw [recording, clip]
  have closed : ((s.updClip x fun c => { c with safeStopped := true }).closeClip x (some newest)).slot x =
      { s.slot x with st := .closing, clip := (s.slot x).clip.map fun c => c.stopped newest } := by
    cases x <;> simp [State.closeClip, State.setSlotState, State.updClip, State.updSlot, State.setSlot, State.slot,
      Option.map_map, Function.comp_def, Clip.stopped]
  rw [closes, closed, clip]
  rfl

theorem State.slot_stopClose_other (s : State) (newest : Option FrameNo) (x : SlotId) :
    (s.stopClose newest x).slot (otherSlot x) = s.slot (otherSlot x) := by
  unfold State.stopClose
  split
  · unfold State.closeClip
    rw [State.slot_setSlotState_other]
    exact (State.slot_updSlot_other ..).trans (State.slot_updSlot_other ..)
  · split
    · rfl
    · exact State.slot_updSlot_other ..
  · rfl

/-- A stop tells each slot by itself, whatever it tells the other. -/
theorem State.slot_stopCloses (s : State) (newest : Option FrameNo) (x : SlotId) :
    ((s.stopClose newest .a).stopClose newest .b).slot x = (s.stopClose newest x).slot x := by
  cases x with
  | a => exact State.slot_stopClose_other _ newest .b
  | b =>
    have before : (s.stopClose newest .a).slotB = s.slotB := State.slot_stopClose_other s newest .a
    generalize s.stopClose newest .a = t at before
    show (t.stopClose newest .b).slotB = (s.stopClose newest .b).slotB
    unfold State.stopClose
    simp only [State.slot, before]
    split
    · simp [State.closeClip, State.setSlotState, State.updClip, State.updSlot, State.setSlot, State.slot, before]
    · split
      · exact before
      · simp [State.updClip, State.updSlot, State.setSlot, State.slot, before]
    · exact before

/-! ## What a stop tells the lens (R70) -/

/-- The LDU with the claim back with the orders. -/
def Ldu.unclaimed (l : Ldu) : Ldu := { l with owner := .order, releaseWait := l.releaseWait || !l.lockout }

/-- With no move and no sequence in flight a stop takes the claim back, and nothing else. -/
theorem State.stopLens_still (still : ∀ x, (s.ldu.axis x).move = .none) (shot : s.ldu.shot = .idle) :
    s.stopLens = s.setLdu s.ldu.unclaimed := by
  have stays (x : AxisId) : s.stopAxis x = s := by
    unfold State.stopAxis
    rw [still x]
  have noShot (finish : State → State) : s.cancelShot finish = s := by
    unfold State.cancelShot
    rw [shot]
  unfold State.stopLens
  dsimp only
  rw [stays .zoom, stays .focus, stays .iris, noShot]
  rfl

/-- A completion leaves the SAFE cause. -/
theorem State.attSafe_complete (s : State) (h : HeldCompletion) :
    (s.complete h).shc.attSafe = s.shc.attSafe := by
  unfold State.complete
  split
  · rfl
  · cases flying : s.inFlight h.completion.tag with
    | false => rw [State.recordCompletion_discards flying]
    | true =>
      rw [State.recordCompletion_of_inFlight flying]
      unfold State.setTag
      split <;> rfl

/-- A stop leaves the SAFE cause, common memory and the slots to themselves as it stops the lens. -/
theorem State.stopLens_leaves (s : State) :
    s.stopLens.shc.attSafe = s.shc.attSafe ∧ s.stopLens.mem = s.mem ∧ ∀ x, s.stopLens.slot x = s.slot x := by
  have drives : Drives false s s.stopLens := (Drives.refl s).stopLens
  refine ⟨drives.keeps (fun s => s.shc.attSafe) fun move => ?_, drives.keeps State.mem fun move => ?_, fun x => ?_⟩
  · cases move with
    | sets => rfl
    | ends => exact State.attSafe_complete ..
    | logs _ _ may => cases may
  · cases move with
    | sets => rfl
    | ends => exact State.complete_mem ..
    | logs _ _ may => cases may
  · cases x
    · exact drives.slotA
    · exact drives.slotB

/-! ## The stop begins (R177, R178) -/

/-- What a stop leaves of memory and of the SAFE cause as it tells the slots. -/
theorem State.stopClose_leaves (s : State) (newest : Option FrameNo) (x : SlotId) :
    (s.stopClose newest x).shc = s.shc ∧ (s.stopClose newest x).mem = s.mem := by
  unfold State.stopClose
  split
  · simp [State.closeClip, State.setSlotState]
  · split
    · exact ⟨rfl, rfl⟩
    · exact ⟨State.updClip_shc .., State.updClip_mem ..⟩
  · exact ⟨rfl, rfl⟩

/-- The record of a stop that a request starts, and the enable cleared (R178). -/
def State.recordStop (s : State) (r : StopSource) : State :=
  { s with stop := { s.stop with
      enable := false, record := some { source := r, startFrame := s.frame, endFrame := none, merged := 0 } } }

/-- A stop is recorded, tells both slots and the lens, and Safe Stop is STOPPING (R178). -/
theorem State.startStop_eq (s : State) (r : StopSource) {t : State}
    (told : (((s.recordStop r).stopClose s.newestGroup .a).stopClose s.newestGroup .b).stopLens = t) :
    s.startStop r = { t with stop := { t.stop with stopping := true } } := by
  rw [← told]
  rfl

/-- A stop marks and closes the clip of a RECORDING slot, and leaves the SAFE cause and common memory (R158, R178). -/
theorem State.startStop_closes {g : IndexRec} (recording : (s.slot x).st = .recording)
    (clip : (s.slot x).clip = some c) (newest : s.sta.index.getLast? = some g) (r : StopSource) :
    (s.startStop r).slot x = { s.slot x with st := .closing, clip := some (c.stopped g.frame) } ∧
      (s.startStop r).shc.attSafe = s.shc.attSafe ∧ (s.startStop r).mem = s.mem := by
  have group : s.newestGroup = some g.frame := by simp [State.newestGroup, newest]
  have own : (s.recordStop r).slot x = s.slot x := by cases x <;> rfl
  obtain ⟨shcA, memA⟩ := (s.recordStop r).stopClose_leaves s.newestGroup .a
  obtain ⟨shcB, memB⟩ := ((s.recordStop r).stopClose s.newestGroup .a).stopClose_leaves s.newestGroup .b
  obtain ⟨safe, mem, slots⟩ :=
    (((s.recordStop r).stopClose s.newestGroup .a).stopClose s.newestGroup .b).stopLens_leaves
  have slot := (slots x).trans ((s.recordStop r).slot_stopCloses s.newestGroup x)
  rw [group, State.slot_stopClose (own ▸ recording) (own ▸ clip), own, ← group] at slot
  generalize told : (((s.recordStop r).stopClose s.newestGroup .a).stopClose s.newestGroup .b).stopLens = t
    at safe mem slot
  have here : (s.startStop r).slot x = t.slot x := by
    rw [s.startStop_eq r told]
    cases x <;> rfl
  rw [here, s.startStop_eq r told]
  exact ⟨slot, safe.trans (congrArg Shc.attSafe (shcB.trans shcA)), mem.trans (memB.trans memA)⟩

/-- With no clip open and the lens still, a stop is the record, the enable and the claim (R178). -/
theorem State.startStop_still (closed : s.clipOpen = false) (still : ∀ x, (s.ldu.axis x).move = .none)
    (shot : s.ldu.shot = .idle) (r : StopSource) : s.startStop r = { s with
      stop := { s.stop with
        stopping := true, enable := false
        record := some { source := r, startFrame := s.frame, endFrame := none, merged := 0 } }
      ldu := s.ldu.unclaimed } := by
  obtain ⟨closedA, closedB⟩ : s.slotA.clipOpen = false ∧ s.slotB.clipOpen = false := by
    simpa [State.clipOpen] using closed
  have told : (((s.recordStop r).stopClose s.newestGroup .a).stopClose s.newestGroup .b).stopLens =
      (s.recordStop r).setLdu s.ldu.unclaimed := by
    rw [State.stopClose_closed (s := s.recordStop r) (x := .a) closedA,
      State.stopClose_closed (s := s.recordStop r) (x := .b) closedB,
      State.stopLens_still (s := s.recordStop r) still shot]
    rfl
  exact s.startStop_eq r told

/-- The requests of a step make one stop (R177, log 65). -/
theorem State.takeStops_starts {rs : List StopSource} (idle : s.stop.stopping = false)
    (requests : s.stop.requests = r :: rs) : s.takeStops =
      { State.startStop { s with stop := { s.stop with requests := [] } } r with
        stop := { stopping := true, enable := false, requests := [], kept := s.stop.kept
                  record := some { source := r, startFrame := s.frame, endFrame := none
                                   merged := min 255 rs.length } } } := by
  let u : State := { s with stop := { s.stop with requests := [] } }
  have begun : (u.startStop r).stop = { u.stop with
      stopping := true, enable := false
      record := some { source := r, startFrame := u.frame, endFrame := none, merged := 0 } } := u.startStop_stop r
  unfold State.takeStops
  rw [requests, List.foldl_cons, State.takeStop_starts (s := u) idle,
    State.foldl_takeStop_merges rs (congrArg SafeStop.stopping begun) (congrArg SafeStop.record begun) (Nat.zero_le _),
    begun]
  simp only [Nat.zero_add]
  rfl

/-! ## The stop ends (R180) -/

theorem State.judgeStop_stays (h : s.stop.stopping = false ∨ s.slotA.st = .closing ∨ s.slotB.st = .closing) :
    s.judgeStop = s := by
  unfold State.judgeStop State.anyClosing
  refine if_neg ?_
  obtain idle | closing | closing := h
  · simp [idle]
  · simp [closing]
  · simp [closing]

theorem State.judgeStop_ends {k : StopRecord} (stopping : s.stop.stopping = true) (record : s.stop.record = some k)
    (a : s.slotA.st ≠ .closing) (b : s.slotB.st ≠ .closing) :
    let t : State := { s with
      stop := { s.stop with stopping := false, record := some { k with endFrame := some s.ftu.counter } }
      shc := { s.shc with attSafe := true } }
    s.judgeStop = if s.shc.part = .resetting then t.softReset else t := by
  have ends : (s.stop.stopping && !s.anyClosing) = true := by simp [State.anyClosing, stopping, a, b]
  unfold State.judgeStop
  rw [if_pos ends, record]
  rfl

/-- A request in a part that is RUNNING with no clip open and the lens still makes a stop that ends in its step (R178,
R180). -/
theorem State.settle_stops (request : s.stop.requests = [r]) (idle : s.stop.stopping = false)
    (idleA : s.slotA.idle = true) (idleB : s.slotB.idle = true) (closed : s.clipOpen = false)
    (still : ∀ x, (s.ldu.axis x).move = .none) (shot : s.ldu.shot = .idle) (running : s.shc.part = .running) :
    s.settle = State.release { s with
      stop := { stopping := false, enable := false, requests := [], kept := s.stop.kept
                record := some { source := r, startFrame := s.frame, endFrame := some s.frame, merged := 0 } }
      ldu := s.ldu.unclaimed
      shc := { s.shc with attSafe := true } } := by
  let t : State := { s with
    stop := { stopping := true, enable := false, requests := [], kept := s.stop.kept
              record := some { source := r, startFrame := s.frame, endFrame := none, merged := 0 } }
    ldu := s.ldu.unclaimed }
  have taken : s.takeStops = t := by
    rw [State.takeStops_starts idle request,
      State.startStop_still (s := { s with stop := { s.stop with requests := [] } }) closed still shot]
    rfl
  have loop : State.settleLoop 64 s = t.release := by
    rw [State.settleLoop, taken, State.work_idle (s := t) idleA idleB]
    rfl
  obtain ⟨closedA, closedB⟩ : s.slotA.clipOpen = false ∧ s.slotB.clipOpen = false := by
    simpa [State.clipOpen] using closed
  have notClosing {v : Slot} (closed : v.clipOpen = false) : v.st ≠ .closing := fun closing => by
    simp [Slot.clipOpen, closing] at closed
  unfold State.settle
  rw [loop, State.judgeStop_ends (s := t.release) rfl rfl (notClosing closedA) (notClosing closedB)]
  exact if_neg (by rw [show t.release.shc.part = .running from running]; decide)

end

/-- With a request waiting, the end of a step settles it. -/
theorem State.serve_request {s : State} {r : StopSource} (request : s.stop.requests = [r]) : s.serve = s.settle := by
  have waits : ¬ s.stop.requests.isEmpty = true := by rw [request]; exact nofun
  exact if_neg waits

/-- SAFE_STOP carried out (R181). -/
theorem exec_safeStop {e : Env} {s : State} (due : dispatches s .immediate 0x74 0 [] = true) :
    exec (.safeStop e 0) s =
      .next ((((s.arrive e).askStop .order).finishEntry .done).serve.judgeSlots (s.arrive e)) :=
  congrArg Host.Outcome.next (State.takeOrder_carry (s := s.arrive e) (decide := decideSafeStop) (clamped := false)
    (run := fun s => s.askStop .order) (show dispatches (s.arrive e) .immediate 0x74 0 [] = true from due) rfl)

/-- Settles O55, from the request to the end of the stop. -/
theorem safeStopTakesRequests : Obligations.SafeStopTakesRequests := by
  refine ⟨?order, ?merges, ?closes, ?one, ?ends, ?stays⟩
  case order =>
    intro e s due calm closed running still shot
    obtain ⟨idleA, idleB, noRequest, idle⟩ := quiet_parts calm
    have request : (((s.arrive e).askStop .order).finishEntry .done).stop.requests = [.order] := by
      show s.stop.requests ++ [.order] = _
      rw [noRequest]
      rfl
    have runs := exec_safeStop (e := e) due
    rw [State.serve_request request] at runs
    have ends := State.settle_stops (s := ((s.arrive e).askStop .order).finishEntry .done) request idle idleA idleB
      closed still shot running
    have runs := runs.trans (congrArg Host.Outcome.next
      ((congrArg (fun t : State => t.judgeSlots (s.arrive e)) ends).trans (State.judgeSlots_of_slots rfl rfl)))
    exact ⟨_, runs, rfl, rfl, rfl, rfl, rfl, rfl, rfl, rfl, rfl, rfl, rfl, rfl, rfl⟩
  case merges =>
    intro s r k stopping record
    rw [State.takeStop_merges stopping record, satSucc_eq]
  case closes =>
    intro s r x c g idle recording clip newest t
    have starts : t = s.startStop r := State.takeStop_starts idle
    obtain ⟨slot, safe, mem⟩ := State.startStop_closes recording clip newest r
    rw [starts, State.startStop_stop, slot]
    exact ⟨rfl, rfl, rfl, rfl, rfl, safe, mem⟩
  case ends => exact fun s k stopping record a b => State.judgeStop_ends stopping record a b
  case stays => exact fun s h => State.judgeStop_stays h
  case one =>
    intro s r rs idle requests
    rw [State.takeStops_starts idle requests,
      State.takeStop_starts (s := { s with stop := { s.stop with requests := [] } }) idle]
    rfl

end Sys2Proof.Machine
end

