-- ==== Sys2Proof/Proofs/BlocksRead.lean ====
section
/-! PROOFS. What the recogniser reads of a block that stands in the stream: its head, its payload and its check (R112 to
R114, R165, R226). -/

namespace Sys2Proof.Machine

/-! ## Numbers and stuffing -/

theorem ofLe_leBytes (n v : Nat) : ofLe (leBytes n v) = v % 256 ^ n := by
  induction n generalizing v with
  | zero => exact (Nat.mod_one v).symm
  | succ n ih =>
    have power : 256 ^ (n + 1) = 256 * 256 ^ n := Nat.pow_succ'
    rw [leBytes, ofLe, ih, BitVec.toNat_ofNat, power, Nat.mod_mul]

theorem stuff_append (l m : List Byte) : stuff (l ++ m) = stuff l ++ stuff m := by
  induction l with
  | nil => rfl
  | cons b l ih =>
    rw [List.cons_append, stuff, stuff, ih]
    split <;> rfl

/-- What was stuffed reads back, whatever follows it (R113). -/
theorem unstuff_stuff (l m : List Byte) : unstuff l.length (stuff l ++ m) = .ok l (stuff l).length := by
  induction l with
  | nil => rfl
  | cons b l ih =>
    rw [stuff]
    split
    next lead => simp [unstuff, lead, ih, Unstuffed.cons]
    next other => simp [unstuff, other, ih, Unstuffed.cons]

/-- A lead byte that no zero follows is bad where the reading goes on to it (R113). -/
theorem unstuff_bad {l : List Byte} {n : Nat} (beyond : l.length < n) {b : Byte} (notZero : b ≠ 0) (m : List Byte) :
    unstuff n (stuff l ++ leadByte :: b :: m) = .bad := by
  induction l generalizing n with
  | nil =>
    obtain ⟨n, rfl⟩ : ∃ k, n = k + 1 := ⟨n - 1, by simp at beyond; omega⟩
    have notZero : ¬ b = 0#8 := notZero
    simp [stuff, unstuff, notZero]
  | cons a l ih =>
    obtain ⟨n, rfl⟩ : ∃ k, n = k + 1 := ⟨n - 1, by omega⟩
    have rest := ih (n := n) (by simpa using beyond)
    rw [stuff]
    split
    next lead => simp [unstuff, lead, rest, Unstuffed.cons]
    next other => simp [unstuff, other, rest, Unstuffed.cons]

/-! ## The head of a block (R226) -/

/-- The header bytes that follow the kind byte, and the header check. -/
def headerRest (kind : Byte) (f : FrameNo) (length : Nat) (flags : Byte) : List Byte :=
  leBytes 4 f.toNat ++ leBytes 4 length ++ [flags] ++ [headerCheck (headerBytes kind f length flags)]

/-- A block's head with `body` behind it, as it stands in the stream. -/
def headed (kind : Byte) (f : FrameNo) (length : Nat) (flags : Byte) (body : List Byte) : List Byte :=
  leadByte :: kind :: (stuff (headerRest kind f length flags) ++ body)

/-- The bytes that a head takes in the stream. -/
def headTaken (kind : Byte) (f : FrameNo) (length : Nat) (flags : Byte) : Nat :=
  (stuff (headerRest kind f length flags)).length + 2

section
variable {kind flags : Byte} {f : FrameNo} {n : Nat} {p rest body : List Byte}

theorem length_headerRest (kind : Byte) (f : FrameNo) (n : Nat) (flags : Byte) :
    (headerRest kind f n flags).length = 10 := by
  simp [headerRest]

/-- A payload and its check behind the head are a block. -/
theorem streamBlock_append (kind : Byte) (f : FrameNo) (p : List Byte) (flags : Byte) (rest : List Byte) :
    streamBlock kind f p flags ++ rest =
      headed kind f p.length flags (stuff (p ++ leBytes 2 (payloadCheck p).toNat) ++ rest) := by
  have block : streamBlock kind f p flags =
      leadByte :: kind :: stuff (headerRest kind f p.length flags ++ p ++ leBytes 2 (payloadCheck p).toNat) := rfl
  rw [block, List.append_assoc, stuff_append]
  simp [headed]

/-- The length of a block in the stream. -/
theorem length_streamBlock (kind : Byte) (f : FrameNo) (p : List Byte) (flags : Byte) :
    (streamBlock kind f p flags).length =
      headTaken kind f p.length flags + (stuff (p ++ leBytes 2 (payloadCheck p).toNat)).length := by
  have block := streamBlock_append kind f p flags []
  rw [List.append_nil, List.append_nil] at block
  rw [block]
  simp only [headed, headTaken, List.length_cons, List.length_append]
  omega

/-- A head is recognised by its header check, whatever stands behind it (R165). -/
theorem readHead_headed (low : 1 ≤ kind.toNat) (high : kind.toNat ≤ 7) (f : FrameNo) (n : Nat) (flags : Byte)
    (body : List Byte) : readHead (headed kind f n flags body) =
      .start kind f (n % 4294967296) (headTaken kind f n flags) := by
  have known : isKind kind = true := by simp [isKind, low, high]
  have read := unstuff_stuff (headerRest kind f n flags) body
  rw [length_headerRest] at read
  have nine : (headerRest kind f n flags).take 9 = leBytes 4 f.toNat ++ leBytes 4 n ++ [flags] :=
    List.take_left' (by simp)
  have tenth : (headerRest kind f n flags).getD 9 0 = headerCheck (headerBytes kind f n flags) := by
    rw [headerRest, List.getD_append_right _ _ _ _ (by simp)]
    simp
  have frame : (headerRest kind f n flags).take 4 = leBytes 4 f.toNat := by
    rw [headerRest, List.append_assoc, List.append_assoc]
    exact List.take_left' (by simp)
  have length : ((headerRest kind f n flags).drop 4).take 4 = leBytes 4 n := by
    have rest : (headerRest kind f n flags).drop 4 =
        leBytes 4 n ++ ([flags] ++ [headerCheck (headerBytes kind f n flags)]) := by
      rw [headerRest, List.append_assoc, List.append_assoc]
      exact List.drop_left' (by simp)
    rw [rest]
    exact List.take_left' (by simp)
  have header : readHeader kind (stuff (headerRest kind f n flags) ++ body) =
      .start kind f (n % 4294967296) (headTaken kind f n flags) := by
    unfold readHeader
    rw [read]
    dsimp only
    have same : BitVec.ofNat 32 (f.toNat % 256 ^ 4) = f := by
      refine BitVec.eq_of_toNat_eq ?_
      rw [BitVec.toNat_ofNat]
      have := f.isLt
      omega
    rw [nine, tenth, frame, length, ofLe_leBytes, ofLe_leBytes, same]
    exact if_pos rfl
  simp [readHead, headed, known, header]

/-- The start of a block says nothing of what is behind it. -/
theorem readHead_streamBlock (low : 1 ≤ kind.toNat) (high : kind.toNat ≤ 7) (f : FrameNo) (p : List Byte)
    (flags : Byte) (rest : List Byte) : readHead (streamBlock kind f p flags ++ rest) =
      .start kind f (p.length % 4294967296) (headTaken kind f p.length flags) := by
  rw [streamBlock_append]
  exact readHead_headed low high ..

/-- No block begins at a byte that is no lead byte. -/
theorem readHead_other {b : Byte} (other : b ≠ leadByte) (r : List Byte) : readHead (b :: r) = .other := if_neg other

/-! ## The payload and its check (R114) -/

theorem drop_headTaken (kind : Byte) (f : FrameNo) (n : Nat) (flags : Byte) (body : List Byte) :
    (headed kind f n flags body).drop (headTaken kind f n flags) = body := by
  rw [headed, headTaken, List.drop_succ_cons, List.drop_succ_cons]
  exact List.drop_left' rfl

/-- A payload read whole, by the check that stands behind it. -/
theorem readBody_whole (kind : Byte) (f : FrameNo) (n : Nat) (flags : Byte) (p rest : List Byte) (w : BitVec 16) :
    readBody (headTaken kind f n flags) p.length
        (headed kind f n flags (stuff (p ++ leBytes 2 w.toNat) ++ rest)) =
      .done (headTaken kind f n flags + (stuff (p ++ leBytes 2 w.toNat)).length) (w == payloadCheck p) := by
  have read := unstuff_stuff (p ++ leBytes 2 w.toNat) rest
  rw [List.length_append, length_leBytes] at read
  have check : BitVec.ofNat 16 (ofLe ((p ++ leBytes 2 w.toNat).drop p.length)) = w := by
    rw [List.drop_left, ofLe_leBytes]
    refine BitVec.eq_of_toNat_eq ?_
    rw [BitVec.toNat_ofNat]
    omega
  unfold readBody
  rw [drop_headTaken, read]
  dsimp only
  rw [check, List.take_left]

/-- A payload broken off by a lead byte that no zero follows. -/
theorem readBody_broken {k : Nat} (beyond : p.length < k + 2) {b : Byte} (notZero : b ≠ 0) (kind : Byte) (f : FrameNo)
    (n : Nat) (flags : Byte) (rest : List Byte) :
    readBody (headTaken kind f n flags) k (headed kind f n flags (stuff p ++ leadByte :: b :: rest)) = .bad := by
  unfold readBody
  rw [drop_headTaken, unstuff_bad beyond notZero]

/-- A block read whole from its start. -/
theorem readBody_streamBlock (kind : Byte) (f : FrameNo) (p : List Byte) (flags : Byte) (rest : List Byte) :
    readBody (headTaken kind f p.length flags) p.length (streamBlock kind f p flags ++ rest) =
      .done (streamBlock kind f p flags).length true := by
  rw [streamBlock_append, readBody_whole, length_streamBlock, beq_self_eq_true]

/-! ## What a reading takes -/

theorem readHead_start {l : List Byte} {k : Byte} {g : FrameNo} {n h : Nat} (start : readHead l = .start k g n h) :
    2 ≤ h ∧ l ≠ [] := by
  unfold readHead readHeader at start
  split at start
  next => exact absurd start nofun
  next a r =>
    refine ⟨?_, nofun⟩
    split at start
    · split at start
      · exact absurd start nofun
      · split at start
        · split at start
          · exact absurd start nofun
          · exact absurd start nofun
          · split at start
            · cases start
              exact Nat.le_add_left ..
            · exact absurd start nofun
        · exact absurd start nofun
    · exact absurd start nofun

theorem readBody_done {h n taken : Nat} {l : List Byte} {good : Bool} (done : readBody h n l = .done taken good) :
    h ≤ taken := by
  unfold readBody at done
  split at done
  · exact absurd done nofun
  · exact absurd done nofun
  · cases done
    exact Nat.le_add_right ..

end

end Sys2Proof.Machine
end

