-- ==== Sys2Proof/Proofs/ScanSteps.lean ====
section
/-! PROOFS. The steps of the recogniser on blocks, padding and damage, and its run until it waits (R165 to R167, logs 35
and 54). -/

namespace Sys2Proof.Machine

section
variable {c d : Scan} {kind flags : Byte} {f : FrameNo} {n h : Nat} {p rest : List Byte}

/-! ## A step by its mode and by what stands there -/

theorem Scan.step_search_start (going : c.ended = false) (mode : c.mode = .search)
    (start : readHead c.bytes = .start kind f n h) : c.step = some c.candidate := by
  simp [Scan.step, going, mode, start]

theorem Scan.step_search_other (going : c.ended = false) (mode : c.mode = .search)
    (other : readHead c.bytes = .other) : c.step = some c.pass := by
  simp [Scan.step, going, mode, other]

theorem Scan.step_probe_start (going : c.ended = false) (mode : c.mode = .probe)
    (start : readHead c.bytes = .start kind f n h) : c.step = c.probe kind f n h := by
  simp [Scan.step, going, mode, start]

theorem Scan.step_locked_start (going : c.ended = false) (mode : c.mode = .locked)
    (start : readHead c.bytes = .start kind f n h) : c.step = c.judge kind f n h := by
  simp [Scan.step, going, mode, start]

theorem Scan.step_after (going : c.ended = false) (mode : c.mode = .after) : c.step = c.judgeAfter := by
  simp [Scan.step, going, mode]

/-! ## Back to SEARCH (R165, R167) -/

/-- The scan at the byte after the lead of a block or candidate, in a sector not passed wholly in SEARCH. -/
def Scan.back (c : Scan) : Scan :=
  { c with
    mode := .search, pos := c.pos + 1, bytes := c.bytes.drop 1, progress := .none
    sectorClean := decide ((c.pos + 1) % 512 = 0), ended := decide ((c.pos + 1) % 512 = 0 ∧ 64 ≤ c.blank) }

theorem Scan.searchAfterLead_eq (going : c.ended = false) : c.searchAfterLead = c.back := by
  unfold Scan.searchAfterLead Scan.pass Scan.back
  by_cases boundary : (c.pos + 1) % 512 = 0
  · simp [boundary, going]
  · simp [boundary, going]

/-- A byte passed in SEARCH: at the end of a sector passed wholly so the blank count rises, and at 64 the scan ends. -/
theorem Scan.pass_eq (going : c.ended = false) (mode : c.mode = .search) : c.pass =
    (let blank := if (c.pos + 1) % 512 = 0 ∧ c.sectorClean = true then c.blank + 1 else c.blank
    { c with
      pos := c.pos + 1, bytes := c.bytes.drop 1, progress := .none, blank := blank
      sectorClean := decide ((c.pos + 1) % 512 = 0) || c.sectorClean
      ended := decide ((c.pos + 1) % 512 = 0 ∧ 64 ≤ blank) }) := by
  unfold Scan.pass
  by_cases boundary : (c.pos + 1) % 512 = 0
  · cases c.sectorClean <;> simp [boundary, going, mode]
  · simp [boundary, going, mode]

/-! ## A valid block (R166) -/

/-- META begins a group, a picture continues the one it follows, and AUDIO of the same frame completes it. -/
theorem GroupProgress.next_eq (g : GroupProgress) (kind : Byte) (f : FrameNo) : g.next kind f =
    (if kind = 1 then .opened f else if (kind = 2 ∨ kind = 3) ∧ g = .opened f then .pictured f else .none,
      decide (kind = 4 ∧ g = .pictured f)) := by
  unfold GroupProgress.next kindMeta kindVideo kindGap kindAudio
  by_cases audio : kind = 4
  · subst audio
    exact congrArg (Prod.mk GroupProgress.none) (by simp [beq_eq_decide])
  · have noGroup : decide (kind = 4 ∧ g = .pictured f) = false := decide_eq_false fun h => audio h.1
    rw [noGroup, if_neg audio]
    by_cases isMeta : kind = 1
    · rw [if_pos isMeta, if_pos isMeta]
    · rw [if_neg isMeta, if_neg isMeta]
      by_cases picture : kind = 2 ∨ kind = 3
      · by_cases opened : g = .opened f
        · rw [if_pos picture, if_pos opened, if_pos ⟨picture, opened⟩]
        · rw [if_pos picture, if_neg opened, if_neg fun h => opened h.2]
      · rw [if_neg picture, if_neg fun h => picture h.1]

/-- The scan with a block of `taken` bytes passed in mode `m`, `rest` behind it. -/
def Scan.passed (c : Scan) (kind : Byte) (f : FrameNo) (taken : Nat) (rest : List Byte) (m : RecogMode) : Scan :=
  { c with
    mode := m, pos := c.pos + taken, bytes := rest, validEnd := c.pos + taken
    progress := if kind = 1 then .opened f
      else if (kind = 2 ∨ kind = 3) ∧ c.progress = .opened f then .pictured f else .none
    groups := if kind = 4 ∧ c.progress = .pictured f then c.groups + 1 else c.groups
    lastGroup := if kind = 4 ∧ c.progress = .pictured f then f else c.lastGroup
    sectorClean := (c.pos + taken) % 512 == 0 }

theorem Scan.valid_eq {block : List Byte} (bytes : c.bytes = block ++ rest) :
    c.valid kind f block.length = c.passed kind f block.length rest .locked := by
  unfold Scan.valid Scan.passed
  rw [bytes, List.drop_left, GroupProgress.next_eq]
  simp only [decide_eq_true_eq]

/-! ## A block in hand (R165, R166) -/

/-- A block that stands whole in the scan's bytes. -/
structure Scan.HasBlock (c : Scan) (kind : Byte) (f : FrameNo) (p : List Byte) (flags : Byte) (rest : List Byte) :
    Prop where
  going : c.ended = false
  low : 1 ≤ kind.toNat
  high : kind.toNat ≤ 7
  short : p.length < 4294967296
  bytes : c.bytes = streamBlock kind f p flags ++ rest

theorem Scan.HasBlock.head (b : c.HasBlock kind f p flags rest) :
    readHead c.bytes = .start kind f p.length (headTaken kind f p.length flags) := by
  rw [b.bytes, readHead_streamBlock b.low b.high, Nat.mod_eq_of_lt b.short]

theorem Scan.HasBlock.body (b : c.HasBlock kind f p flags rest) :
    readBody (headTaken kind f p.length flags) p.length c.bytes = .done (streamBlock kind f p flags).length true := by
  rw [b.bytes, readBody_streamBlock]

theorem Scan.HasBlock.behind (b : c.HasBlock kind f p flags rest) :
    c.bytes.drop (streamBlock kind f p flags).length = rest := by
  rw [b.bytes, List.drop_left]

/-- In PROBE a block with another at its end is valid. -/
theorem Scan.HasBlock.probe_valid (b : c.HasBlock kind f p flags rest) (mode : c.mode = .probe) {k : Byte}
    {g : FrameNo} {m t : Nat} (next : readHead rest = .start k g m t) :
    c.step = some (c.passed kind f (streamBlock kind f p flags).length rest .locked) := by
  rw [Scan.step_probe_start b.going mode b.head, ← Scan.valid_eq b.bytes]
  unfold Scan.probe
  rw [b.body]
  dsimp only
  rw [b.behind, next]
  rfl

/-- In PROBE a block with anything else at its end fails (log 54). -/
theorem Scan.HasBlock.probe_fails (b : c.HasBlock kind f p flags rest) (mode : c.mode = .probe)
    (other : readHead rest = .other) : c.step = some c.back := by
  rw [Scan.step_probe_start b.going mode b.head, ← Scan.searchAfterLead_eq b.going]
  unfold Scan.probe
  rw [b.body]
  dsimp only
  rw [b.behind, other]
  rfl

/-- In LOCKED a block whose check matches is valid at once. -/
theorem Scan.HasBlock.judge_valid (b : c.HasBlock kind f p flags rest) (mode : c.mode = .locked) :
    c.step = some (c.passed kind f (streamBlock kind f p flags).length rest .after) := by
  rw [Scan.step_locked_start b.going mode b.head]
  unfold Scan.judge
  rw [b.body]
  dsimp only
  rw [if_pos rfl, Scan.valid_eq b.bytes]
  rfl

/-! ## A damaged block (R165, R166) -/

/-- The bytes at hand begin with a good head, and reading on from there finds a wrong check or a lead byte that no zero
follows. -/
def Scan.Damaged (c : Scan) (kind : Byte) (f : FrameNo) : Prop :=
  ∃ n h, readHead c.bytes = .start kind f n h ∧
    (readBody h n c.bytes = .bad ∨ ∃ taken, readBody h n c.bytes = .done taken false)

theorem Scan.Damaged.probe (b : c.Damaged kind f) (going : c.ended = false) (mode : c.mode = .probe) :
    c.step = some c.back := by
  obtain ⟨n, h, head, bad | ⟨taken, wrong⟩⟩ := b
  · rw [Scan.step_probe_start going mode head, Scan.probe, bad, ← Scan.searchAfterLead_eq going]
  · rw [Scan.step_probe_start going mode head, Scan.probe, wrong, ← Scan.searchAfterLead_eq going]
    rfl

theorem Scan.Damaged.judge (b : c.Damaged kind f) (going : c.ended = false) (mode : c.mode = .locked) :
    c.step = some { c.back with badBlocks := c.badBlocks + 1 } := by
  have back : c.countBad.searchAfterLead = { c.back with badBlocks := c.badBlocks + 1 } :=
    Scan.searchAfterLead_eq (c := c.countBad) going
  obtain ⟨n, h, head, bad | ⟨taken, wrong⟩⟩ := b
  · rw [Scan.step_locked_start going mode head, Scan.judge, bad, ← back]
  · rw [Scan.step_locked_start going mode head, Scan.judge, wrong, ← back]
    rfl

/-- A wrong check behind a payload. -/
theorem Scan.damaged_check (low : 1 ≤ kind.toNat) (high : kind.toNat ≤ 7) (short : p.length < 4294967296)
    {w : BitVec 16} (wrong : w ≠ payloadCheck p)
    (bytes : c.bytes = 0xA7 :: kind ::
      stuff (headerRest kind f p.length flags ++ p ++ leBytes 2 w.toNat) ++ rest) : c.Damaged kind f := by
  have eq : c.bytes = headed kind f p.length flags (stuff (p ++ leBytes 2 w.toNat) ++ rest) := by
    rw [bytes, List.append_assoc, stuff_append]
    simp [headed, leadByte]
  have bad : (w == payloadCheck p) = false := beq_eq_false_iff_ne.mpr wrong
  refine ⟨p.length, headTaken kind f p.length flags, ?_, .inr
    ⟨headTaken kind f p.length flags + (stuff (p ++ leBytes 2 w.toNat)).length, ?_⟩⟩
  · rw [eq, readHead_headed low high, Nat.mod_eq_of_lt short]
  · rw [eq, readBody_whole, bad]

/-- A lead byte that no zero follows, within the payload or the check. -/
theorem Scan.damaged_lead (low : 1 ≤ kind.toNat) (high : kind.toNat ≤ 7) (short : n < 4294967296)
    (within : p.length < n + 2) {b : Byte} (notZero : b ≠ 0)
    (bytes : c.bytes = 0xA7 :: kind :: stuff (headerRest kind f n flags ++ p) ++ 0xA7 :: b :: rest) :
    c.Damaged kind f := by
  have eq : c.bytes = headed kind f n flags (stuff p ++ leadByte :: b :: rest) := by
    rw [bytes, stuff_append]
    simp [headed, leadByte]
  refine ⟨n, headTaken kind f n flags, ?_, .inl ?_⟩
  · rw [eq, readHead_headed low high, Nat.mod_eq_of_lt short]
  · rw [eq, readBody_broken within notZero]

/-! ## What stands after a valid block (R166) -/

theorem Scan.judgeAfter_other (other : readHead c.bytes = .other) : c.judgeAfter =
    some { (if c.bytes.head? = some 0 then c else c.countBad) with mode := .search, progress := .none } := by
  unfold Scan.judgeAfter
  rw [other]

/-! ## The run (log 35) -/

/-- What is left for the recogniser to do: it takes at most this many steps. A candidate whose bytes are gone has one
step more, back to SEARCH. -/
def Scan.left (c : Scan) : Nat :=
  if c.ended then 0
  else 2 * c.bytes.length + 1 + match c.mode with
    | .search => 1
    | .probe => if c.bytes = [] then 2 else 0
    | .locked => 1
    | .after => 2

theorem Scan.left_le (c : Scan) : c.left ≤ 2 * c.bytes.length + 3 := by
  unfold Scan.left
  split
  · omega
  · split
    · omega
    · split <;> omega
    · omega
    · omega

theorem Scan.left_le_of {c : Scan} (mode : c.mode = .search ∨ c.mode = .locked) :
    c.left ≤ 2 * c.bytes.length + 2 := by
  unfold Scan.left
  split
  · omega
  · obtain search | locked := mode
    · simp [search]
    · simp [locked]

theorem Scan.left_finish (c : Scan) : c.finish.left = 0 := if_pos rfl

theorem Scan.mode_pass (c : Scan) : c.pass.mode = .search ∧ c.pass.bytes = c.bytes.drop 1 := by
  unfold Scan.pass
  dsimp only
  split <;> exact ⟨rfl, rfl⟩

theorem Scan.left_pass (c : Scan) : c.pass.left ≤ 2 * (c.bytes.length - 1) + 2 := by
  obtain ⟨mode, bytes⟩ := c.mode_pass
  have bound := Scan.left_le_of (.inl mode)
  rwa [bytes, List.length_drop] at bound

theorem Scan.left_searchAfterLead (c : Scan) : c.searchAfterLead.left ≤ 2 * (c.bytes.length - 1) + 2 :=
  Scan.left_pass _

theorem Scan.left_valid (c : Scan) (kind : Byte) (f : FrameNo) (taken : Nat) :
    (c.valid kind f taken).left ≤ 2 * (c.bytes.length - taken) + 2 := by
  have bound := Scan.left_le_of (c := c.valid kind f taken) (.inr rfl)
  rwa [show (c.valid kind f taken).bytes = c.bytes.drop taken from rfl, List.length_drop] at bound

/-- What is left in each mode, while the scan goes on. -/
theorem Scan.left_going (going : c.ended = false) : c.left = 2 * c.bytes.length + 1 + match c.mode with
    | .search => 1
    | .probe => if c.bytes = [] then 2 else 0
    | .locked => 1
    | .after => 2 := if_neg (by simp [going])

theorem Scan.left_probe (start : readHead c.bytes = .start kind f n h) (going : c.ended = false)
    (mode : c.mode = .probe) (steps : c.probe kind f n h = some d) : d.left < c.left := by
  obtain ⟨two, some⟩ := readHead_start start
  have positive := List.length_pos_iff.mpr some
  have here : c.left = 2 * c.bytes.length + 1 := by rw [Scan.left_going going, mode]; simp [some]
  have back := c.left_searchAfterLead
  unfold Scan.probe at steps
  split at steps
  · cases steps
    omega
  · split at steps
    · cases steps
      rw [Scan.left_finish]
      omega
    · cases steps
  next taken good done =>
    have more := readBody_done done
    have valid := c.left_valid kind f taken
    split at steps
    · cases steps
      omega
    · split at steps
      · cases steps
        omega
      · cases steps
        omega
      · split at steps
        · cases steps
          rw [Scan.left_finish]
          omega
        · cases steps

theorem Scan.left_judge (start : readHead c.bytes = .start kind f n h) (going : c.ended = false)
    (mode : c.mode = .locked) (steps : c.judge kind f n h = some d) : d.left < c.left := by
  obtain ⟨two, some⟩ := readHead_start start
  have positive := List.length_pos_iff.mpr some
  have here : c.left = 2 * c.bytes.length + 2 := by rw [Scan.left_going going, mode]; rfl
  have back : c.countBad.searchAfterLead.left ≤ 2 * (c.bytes.length - 1) + 2 := c.countBad.left_searchAfterLead
  unfold Scan.judge at steps
  split at steps
  · cases steps
    omega
  · split at steps
    · cases steps
      rw [Scan.left_finish]
      omega
    · cases steps
  next taken good done =>
    have more := readBody_done done
    split at steps
    · have bound := Scan.left_le { c.valid kind f taken with mode := .after }
      have bytes : ({ c.valid kind f taken with mode := .after } : Scan).bytes = c.bytes.drop taken := rfl
      rw [bytes, List.length_drop] at bound
      cases steps
      omega
    · cases steps
      omega

theorem Scan.left_judgeAfter (going : c.ended = false) (mode : c.mode = .after) (steps : c.judgeAfter = some d) :
    d.left < c.left := by
  have here : c.left = 2 * c.bytes.length + 3 := by rw [Scan.left_going going, mode]; rfl
  unfold Scan.judgeAfter at steps
  split at steps
  · have bound := Scan.left_le_of (c := { c with mode := .locked }) (.inr rfl)
    cases steps
    exact Nat.lt_of_le_of_lt bound (by rw [here]; exact Nat.lt_succ_self _)
  · dsimp only at steps
    have bytes : (if c.bytes.head? = some 0 then c else c.countBad).bytes = c.bytes := by split <;> rfl
    generalize (if c.bytes.head? = some 0 then c else c.countBad) = u at steps bytes
    have bound := Scan.left_le_of (c := { u with mode := .search, progress := .none }) (.inl rfl)
    cases steps
    exact Nat.lt_of_le_of_lt bound (by rw [here]; dsimp only; rw [bytes]; omega)
  · split at steps
    · cases steps
      rw [Scan.left_finish]
      omega
    · cases steps

/-- Every step leaves less to do. -/
theorem Scan.left_step (steps : c.step = some d) : d.left < c.left := by
  have going : c.ended = false := by
    cases ended : c.ended with
    | false => rfl
    | true => simp [Scan.step, ended] at steps
  have finished (at_ : (if c.atEnd then some c.finish else none) = some d) (some : 0 < c.left) : d.left < c.left := by
    split at at_
    · cases at_
      rwa [Scan.left_finish]
    · cases at_
  have here := Scan.left_going going
  have positive : 0 < c.left := by omega
  unfold Scan.step at steps
  rw [if_neg (by simp [going])] at steps
  split at steps
  next mode => exact Scan.left_judgeAfter going mode steps
  next mode start => exact Scan.left_judge start going mode steps
  next mode _ => exact finished steps positive
  next mode start => exact Scan.left_probe start going mode steps
  next mode _ =>
    have back := c.left_searchAfterLead
    rw [mode] at here
    dsimp only at here
    cases steps
    by_cases none : c.bytes = []
    · simp [none] at here back
      omega
    · have := List.length_pos_iff.mpr none
      simp [none] at here
      omega
  next mode start =>
    obtain ⟨-, some⟩ := readHead_start start
    have bound : c.candidate.left = 2 * c.bytes.length + 1 := by
      rw [Scan.left_going (c := c.candidate) going]
      simp [Scan.candidate, some]
    rw [mode] at here
    dsimp only at here
    cases steps
    omega
  next mode other =>
    have some : c.bytes ≠ [] := fun none => by simp [none, readHead] at other
    have := List.length_pos_iff.mpr some
    have back := c.left_pass
    rw [mode] at here
    dsimp only at here
    cases steps
    omega
  next mode short =>
    rw [mode] at here
    dsimp only at here
    split at steps
    · cases steps
    · split at steps
      · cases steps
        rwa [Scan.left_finish]
      next some =>
        have := List.length_pos_iff.mpr (fun none => some (List.isEmpty_iff.mpr none))
        have back := c.left_pass
        cases steps
        omega

/-- A run is a chain of steps. -/
theorem Scan.run_steps (n : Nat) (c : Scan) :
    Relation.ReflTransGen (fun a b : Scan => a.step = some b) c (Scan.run n c) := by
  induction n generalizing c with
  | zero => exact .refl
  | succ n ih =>
    unfold Scan.run
    split
    next d steps => exact .head steps (ih d)
    next => exact .refl

/-- A run long enough ends where there is no step. -/
theorem Scan.run_waits (n : Nat) (c : Scan) (enough : c.left ≤ n) : (Scan.run n c).step = none := by
  induction n generalizing c with
  | zero =>
    cases steps : c.step with
    | none => exact steps
    | some d => exact absurd (Scan.left_step steps) (by omega)
  | succ n ih =>
    unfold Scan.run
    split
    next d steps => exact ih d (by have := Scan.left_step steps; omega)
    next waits => exact waits

end

end Sys2Proof.Machine
end

