-- ==== Sys2Proof/Proofs/ScansRead.lean ====
section
/-! PROOFS. READ is answered during a scan: the scan fails, goes on or completes (R139, R164 to R167): O50. -/

namespace Sys2Proof.Machine

section
variable {e : Env} {s : State} {x : SlotId} {v : Slot} {a n : Nat}

/-! ## The scan ends (R167) -/

/-- The tag table after the end of a tag in flight, with no sheet in dispatch. -/
theorem State.endTag_direct {tag : Nat} (direct : s.shc.job = none) (flying : s.inFlight tag = true)
    (o : TagOutcome) (w1 w2 w3 : Word) : s.endTag tag o w1 w2 w3 =
      s.setTag tag { s.tagRec tag with
        st := .done, outcome := o, word1 := w1, word2 := w2, word3 := w3, frame := s.ftu.counter } := by
  unfold State.endTag
  rw [State.complete_direct direct]
  exact (State.recordCompletion_of_inFlight (h := ⟨none, ⟨tag, o, w1, w2, w3⟩⟩) flying).trans (State.setTag_keepFlt ..)

theorem State.setTag_setSlot (s : State) (x : SlotId) (v : Slot) (n : Nat) (r : TagRec) :
    (s.setSlot x v).setTag n r = (s.setTag n r).setSlot x v := by
  unfold State.setTag
  split
  · rfl
  · cases x <;> rfl

@[simp] theorem State.setTag_slot (s : State) (n : Nat) (r : TagRec) (x : SlotId) :
    (s.setTag n r).slot x = s.slot x := by
  cases x
  · exact State.setTag_slotA ..
  · exact State.setTag_slotB ..

/-- The slot of a scan that has ended. -/
def Slot.scanned (v : Slot) (k : Scan) : Slot :=
  { v with
    st := .ready, command := none, timer := none, waiting := none, scanTag := 0, scan := { k with ended := true } }

/-- The part after a scan has ended: its tag with the result words of `k`, its slot READY. -/
def State.scanEnded (s : State) (x : SlotId) (outcome : TagOutcome) (k : Scan) : State :=
  (s.setTag (s.slot x).scanTag { s.tagRec (s.slot x).scanTag with
    st := .done, outcome := outcome, word1 := BitVec.ofNat 32 k.validEnd, word2 := k.lastGroup
    word3 := BitVec.ofNat 32 k.groups, frame := s.ftu.counter }).setSlot x ((s.slot x).scanned k)

/-- The scan of a slot whose READ has been answered ends, with what the recogniser has found. -/
theorem State.endScan_eq (direct : s.shc.job = none) (guard : s.cgd.st ≠ .watching)
    (flying : s.inFlight (s.slot x).scanTag = true) (outcome : TagOutcome) (k : Scan) :
    (s.setSlot x { s.slot x with command := none, timer := none, waiting := none, scan := k }).endScan x outcome =
      s.scanEnded x outcome k := by
  let v : Slot := { s.slot x with command := none, timer := none, waiting := none, scan := k }
  have own : (s.setSlot x v).slot x = v := State.slot_setSlot ..
  have ended := State.endTag_direct (s := s.setSlot x v) (tag := v.scanTag) (by rw [State.setSlot_shc]; exact direct)
    (by cases x <;> exact flying) outcome (wordOfNat k.validEnd) k.lastGroup (wordOfNat k.groups)
  unfold State.endScan
  dsimp only
  rw [own]
  show State.setSlotState (State.updSlot ((s.setSlot x v).endTag v.scanTag outcome (wordOfNat k.validEnd) k.lastGroup
    (wordOfNat k.groups)) x _) x .ready = _
  rw [ended, State.setTag_setSlot, State.setSlotState_calm _ (by decide)]
  · cases x <;> simp [State.updSlot, State.setSlot, State.slot, State.scanEnded, Slot.scanned, Scan.finish, v,
      State.tagRec, wordOfNat]
  · rw [State.updSlot_cgd, State.setSlot_cgd, State.setTag_cgd]
    exact guard

/-! ## The replies to READ (R139, R164) -/

/-- A READ in flight is answered ERROR, or with data of which the recogniser makes `k`. -/
theorem State.readAnswered_error (sent : (s.slot x).command = some (.read a n)) (direct : s.shc.job = none)
    (guard : s.cgd.st ≠ .watching) (flying : s.inFlight (s.slot x).scanTag = true) (code : Word) :
    s.readAnswered x (.error code) = s.scanEnded x .cardFailed (s.slot x).scan := by
  unfold State.readAnswered
  rw [sent]
  exact State.endScan_eq direct guard flying .cardFailed (s.slot x).scan

/-- The data of a READ, sector by sector (log 36). -/
theorem sectorsOf_whole {data : List Byte} (whole : data.length = n * 512) : sectorsOf n data = data := by
  unfold sectorsOf
  rw [whole, Nat.sub_self, List.take_of_length_le (Nat.le_of_eq whole)]
  exact List.append_nil data

theorem State.readAnswered_ok (sent : (s.slot x).command = some (.read a n)) {data : List Byte}
    (whole : data.length = n * 512) : s.readAnswered x (.ok data) =
      (let t := s.setSlot x { s.slot x with
        command := none, timer := none, waiting := none, scan := (s.slot x).scan.take n data }
      if ((s.slot x).scan.take n data).ended then t.endScan x .complete else t) := by
  have scanned : (s.updSlot x Slot.answered).updSlot x (fun v =>
      { v with scan := v.scan.take n (sectorsOf n data) }) = s.setSlot x { s.slot x with
        command := none, timer := none, waiting := none, scan := (s.slot x).scan.take n data } := by
    rw [sectorsOf_whole whole]
    cases x <;> rfl
  unfold State.readAnswered
  rw [sent]
  dsimp only
  rw [scanned, State.slot_setSlot]

/-! ## The commands -/

/-- A slot reads for a scan, with no sheet in dispatch, no safe stop, the guard not watching and the other slot idle. -/
structure State.Scans (s : State) (x : SlotId) (a n : Nat) : Prop where
  scanning : (s.slot x).st = .scanning
  noClip : (s.slot x).clip = none
  noRelease : (s.slot x).releasePending = false
  sent : (s.slot x).command = some (.read a n)
  idle : (s.slot (otherSlot x)).idle = true
  noRequest : s.stop.requests = []
  notStopping : s.stop.stopping = false
  direct : s.shc.job = none
  guard : s.cgd.st ≠ .watching
  flying : s.inFlight (s.slot x).scanTag = true

theorem State.Scans.arrive (h : s.Scans x a n) : (s.arrive e).Scans x a n := by
  cases x <;> exact ⟨h.1, h.2, h.3, h.4, h.5, h.6, h.7, h.8, h.9, h.10⟩

/-- A step in which the scan ends leaves the part quiet. -/
theorem State.Scans.ends (h : s.Scans x a n) (outcome : TagOutcome) (k : Scan) :
    (s.scanEnded x outcome k).settle.judgeSlots s = (s.scanEnded x outcome k).release := by
  have own : (s.scanEnded x outcome k).slot x = (s.slot x).scanned k := State.slot_setSlot ..
  have other : (s.scanEnded x outcome k).slot (otherSlot x) = s.slot (otherSlot x) :=
    (State.slot_setSlot_other ..).trans (State.setTag_slot ..)
  have stop : (s.scanEnded x outcome k).stop = s.stop := (State.setSlot_stop ..).trans (State.setTag_stop ..)
  refine State.settle_quietly (x := x) (quiet_iff (x := x).mpr ?_) ?_ (congrArg Slot.st other)
  · rw [own, other, stop]
    refine ⟨?_, h.idle, h.noRequest, h.notStopping⟩
    simp [Slot.idle, Slot.scanned, h.noClip, h.noRelease]
  · rw [own, h.scanning]
    rfl

/-- A step in which the scan goes on sends the next READ. -/
theorem State.Scans.goesOn (h : s.Scans x a n) {k : Scan} (going : k.ended = false) (more : k.sectorsRead < k.count) :
    (s.setSlot x { s.slot x with command := none, timer := none, waiting := none, scan := k }).settle.judgeSlots s =
      State.release (s.setSlot x { s.slot x with
        command := some (.read (k.start + k.sectorsRead) (min 64 (k.count - k.sectorsRead)))
        timer := some (s.now + 500000), waiting := none, scan := k }) := by
  let v : Slot := { s.slot x with command := none, timer := none, waiting := none, scan := k }
  let w : Slot := { s.slot x with
    command := some (.read (k.start + k.sectorsRead) (min 64 (k.count - k.sectorsRead)))
    timer := some (s.now + 500000), waiting := none, scan := k }
  have slot : (s.setSlot x v).slot x = v := State.slot_setSlot ..
  have due : v.readDue = true := by simp [Slot.readDue, v, h.scanning, going, Scan.atEnd, more]
  have sends : (s.setSlot x v).sendDue x = (s.setSlot x v).setSlot x w := by
    have sent := State.sendDue_read (s := s.setSlot x v) (x := x) (by rw [slot]) (by rw [slot]; exact h.noClip)
      (by rw [slot]; exact h.noRelease) (by rw [slot]; exact due)
    rw [sent, slot, State.setSlot_now]
  have noted : ((s.setSlot x v).setSlot x w).sendDue x = (s.setSlot x v).setSlot x w := by
    refine State.sendDue_noted (by rw [State.slot_setSlot]; exact nofun) ?_
    rw [State.slot_setSlot]
    simp [Slot.behind, w, h.noClip, h.noRelease]
  have work := State.work_sends (s := s.setSlot x v) (x := x) (by rw [slot]; exact h.noClip)
    (by rw [State.slot_setSlot_other]; exact h.idle) sends h.noClip noted
  rw [State.setSlot_setSlot] at work
  have stop : (s.setSlot x v).stop = s.stop := State.setSlot_stop ..
  rw [State.settle_of_work (by rw [stop]; exact h.noRequest) (by rw [stop]; exact h.notStopping) work
    ((State.setSlot_stop ..).trans stop.symm)]
  refine State.judgeSlots_same (State.sameRecording_of (x := x) ?_ ?_)
  · rw [State.slot_release, State.slot_setSlot]
  · rw [State.slot_release, State.slot_setSlot_other]

end

/-- Settles O50: the replies to READ, the run of the recogniser, and its steps. -/
theorem readAnsweredDuringAScan : Obligations.ReadAnsweredDuringAScan := by
  refine ⟨?replies, fun c n data => ⟨Scan.run_steps _ _, Scan.run_waits _ _ ?enough⟩, ?steps⟩
  case replies =>
    intro e x s a n scanning noClip noRelease sent _ idle noRequest notStopping direct guard flying v ends
    have scans : (s.arrive e).Scans x a n := State.Scans.arrive
      ⟨scanning, noClip, noRelease, sent, idle, noRequest, notStopping, direct, guard, flying⟩
    have own : (s.arrive e).slot x = v := State.arrive_slot ..
    have same (outcome : TagOutcome) (k : Scan) : (s.arrive e).scanEnded x outcome k = ends outcome k := by
      unfold State.scanEnded
      rw [own]
      rfl
    have replied {answer : ReadAnswer} {t : State} (reads : (s.arrive e).readAnswered x answer = t) :
        exec (.readReply e x answer) s = .next (t.settle.judgeSlots (s.arrive e)) :=
      congrArg (fun t : State => Host.Outcome.next (t.settle.judgeSlots (s.arrive e))) reads
    refine ⟨fun code => ?error, fun data whole => ?data⟩
    case error =>
      rw [replied (State.readAnswered_error scans.sent scans.direct scans.guard scans.flying code), scans.ends, same, own]
    case data =>
      intro k
      have reads := State.readAnswered_ok (s := s.arrive e) scans.sent whole
      have taken : ((s.arrive e).slot x).scan.take n data = k := by rw [own]
      rw [taken] at reads
      refine ⟨fun ended => ?completes, fun going more => ?goesOn⟩
      case completes =>
        have ended := reads.trans ((if_pos ended).trans
          (State.endScan_eq scans.direct scans.guard scans.flying .complete k))
        rw [replied ended, scans.ends, same]
      case goesOn =>
        have going' := reads.trans (if_neg (by simp [going]))
        rw [replied going', scans.goesOn going more, own]
        rfl
  case enough =>
    have bound := Scan.left_le { c with sectorsRead := c.sectorsRead + n, bytes := c.bytes ++ data }
    exact Nat.le_succ_of_le bound
  case steps =>
    intro c kind flags f p rest going low high short block head whole passed sectorEnd back bad damaged
    have isDamaged (h : damaged) : c.Damaged kind f := by
      obtain ⟨w, wrong, bytes⟩ | ⟨n, b, within, small, notZero, bytes⟩ := h
      · exact Scan.damaged_check low high short wrong bytes
      · exact Scan.damaged_lead low high small within notZero bytes
    have hasBlock (bytes : c.bytes = block ++ rest) : c.HasBlock kind f p flags rest :=
      ⟨going, low, high, short, bytes⟩
    refine ⟨fun mode => ⟨fun bytes => ?candidate, fun b bytes other => ?passes⟩, fun mode =>
      ⟨fun k g q x r bytes next klow khigh => ?valid, fun b r bytes next other => ?fails, fun h => ?damagedProbe⟩,
      fun mode => ⟨fun bytes => (hasBlock bytes).judge_valid mode, fun h => (isDamaged h).judge going mode⟩, fun mode =>
      ⟨fun bytes => ?next, fun bytes => ?padding, fun b bytes notZero other => ?badBlock⟩, fun bytes read mode => ?atEnd⟩
    case candidate => exact Scan.step_search_start going mode (hasBlock bytes).head
    case passes =>
      rw [Scan.step_search_other going mode (by rw [bytes]; exact readHead_other other rest), Scan.pass_eq going mode,
        bytes]
      rfl
    case valid =>
      exact (hasBlock bytes).probe_valid mode (by rw [next]; exact readHead_streamBlock klow khigh g q x r)
    case fails => exact (hasBlock bytes).probe_fails mode (by rw [next]; exact readHead_other other r)
    case damagedProbe => exact (isDamaged h).probe going mode
    case next =>
      rw [Scan.step_after going mode, Scan.judgeAfter, (hasBlock bytes).head]
    case padding =>
      rw [Scan.step_after going mode, Scan.judgeAfter_other (by rw [bytes]; exact readHead_other (by decide) rest),
        if_pos (by rw [bytes]; rfl)]
    case badBlock =>
      rw [Scan.step_after going mode, Scan.judgeAfter_other (by rw [bytes]; exact readHead_other other rest),
        if_neg (by rw [bytes]; simpa using notZero)]
      rfl
    case atEnd =>
      have ended : c.atEnd = true := decide_eq_true read
      have none : readHead c.bytes = .short := by rw [bytes]; rfl
      unfold Scan.step
      rw [if_neg (by simp [going]), none]
      cases at_ : c.mode with
      | probe => exact absurd at_ mode
      | search => simp [ended, bytes, Scan.finish, at_]
      | locked => simp [ended, Scan.finish, at_]
      | after => simp [Scan.judgeAfter, none, ended, Scan.finish, at_]

end Sys2Proof.Machine
end

