-- ==== Sys2Proof/Proofs/WritesAnswered.lean ====
section
/-! PROOFS. What the replies to WRITE and FLUSH come to (R139, R154, R157, R161 to R163): O49. -/

namespace Sys2Proof.Machine

section
variable {e : Env} {s t : State} {x : SlotId} {v : Slot} {c : Clip} {a n : Nat} {d : List Byte} {o : OpenOrder}

/-! ## The end of the step -/

/-- A writer at rest and nothing to send in one slot, and the other idle: only records are released. -/
theorem State.work_rest (still : s.writerStep x = none) (stays : s.sendDue x = s)
    (idle : (s.slot (otherSlot x)).idle = true) : s.work = s.release := by
  have rests (y : SlotId) : s.writerStep y = none := by
    obtain rfl | rfl := SlotId.self_or_other x y
    · exact still
    · exact State.writerStep_noClip (Slot.idle_parts idle).1
  exact State.work_slot (State.runWriters_still rests _) stays rfl idle still stays

/-- What a part keeps from one state to another whose slots, tags, orders and records may differ. -/
structure State.KeepsRest (s t : State) : Prop where
  now : t.now = s.now
  mem : t.mem = s.mem
  ftu : t.ftu = s.ftu
  flt : t.flt = s.flt
  stop : t.stop = s.stop

theorem State.KeepsRest.trans {u : State} (h : s.KeepsRest t) (k : t.KeepsRest u) : s.KeepsRest u :=
  ⟨k.1.trans h.1, k.2.trans h.2, k.3.trans h.3, k.4.trans h.4, k.5.trans h.5⟩

/-! ## WRITE answered OK (R154) -/

/-- The clip whose last WRITE has been answered. -/
def Clip.answered (c : Clip) : Clip :=
  { c with
    acked := c.sent
    recorded := c.recorded + ((groupsWithin c.sent c.items).length - (groupsWithin c.acked c.items).length) }

/-- The slot whose WRITE has been answered, its clip being `c` after it. -/
def Slot.written (v : Slot) (c : Clip) : Slot :=
  { v with command := none, timer := none, waiting := none, clip := some c }

/-- The open is done with this reply. -/
def Clip.completesOpen (c : Clip) : Bool := c.openPlaced && !c.openDone && decide (c.openLength ≤ c.sent)

theorem State.writeAnswered_ok (sent : (s.slot x).command = some (.write a n d)) (clip : (s.slot x).clip = some c) :
    s.writeAnswered x .ok =
      (let t := s.setSlot x ((s.slot x).written c.answered)
      if c.completesOpen then t.openDone x else t).release := by
  have own : ((s.updSlot x Slot.answered).slot x).clip = some c := (congrArg Slot.clip (State.slot_updSlot ..)).trans clip
  have wrote : (s.updSlot x Slot.answered).updClip x (fun d => { d with
      acked := d.sent
      recorded := d.recorded +
        ((groupsWithin c.sent c.items).length - (groupsWithin c.acked c.items).length) }) =
      s.setSlot x ((s.slot x).written c.answered) := by
    rw [State.updClip_eq own, State.slot_updSlot, State.updSlot, State.setSlot_setSlot]
    rfl
  unfold State.writeAnswered
  rw [sent]
  dsimp only
  unfold State.written
  rw [own]
  dsimp only
  rw [wrote]
  rfl

/-! ## The open is done (R154) -/

/-- The open of one slot is done while the order waits for the other. -/
theorem State.openDone_waits (clip : (s.slot x).clip = some c) (named : (s.slot x).openTag ≠ 0)
    (order : s.deck.openOrder = some o) (waits : o.waits (otherSlot x) = true) :
    s.openDone x = State.setSlot { s with deck := { s.deck with openOrder := some (o.opened x) } } x
      { s.slot x with clip := some { c with openDone := true } } := by
  unfold State.openDone
  rw [State.updClip_eq clip]
  dsimp only
  rw [State.setSlot_deck, order]
  dsimp only
  rw [State.slot_setSlot]
  cases x with
  | a => exact (if_neg named).trans (if_pos (by rw [Bool.or_eq_true]; exact .inr waits))
  | b => exact (if_neg named).trans (if_pos (by rw [Bool.or_eq_true]; exact .inl waits))

/-- The part when the last open of an order is done: its tag has ended, and no slot holds it. -/
def State.openLast (s : State) (x : SlotId) (c : Clip) (o : OpenOrder) : State :=
  let t := (s.setSlot x { s.slot x with clip := some { c with openDone := true } }).endTag o.tag .complete o.clipId
    o.first (BitVec.ofNat 32 (if o.usesA then o.sectorA else o.sectorB))
  { t with
    deck := { t.deck with openOrder := none }
    slotA := { t.slotA with openTag := 0 }
    slotB := { t.slotB with openTag := 0 } }

theorem State.openDone_last (clip : (s.slot x).clip = some c) (named : (s.slot x).openTag ≠ 0)
    (order : s.deck.openOrder = some o) (last : o.waits (otherSlot x) = false) :
    s.openDone x = s.openLast x c o := by
  unfold State.openDone
  rw [State.updClip_eq clip]
  dsimp only
  rw [State.setSlot_deck, order]
  dsimp only
  rw [State.slot_setSlot]
  cases x with
  | a =>
    rw [if_neg named, if_neg (by simpa [OpenOrder.waits, otherSlot] using last)]
    rfl
  | b =>
    rw [if_neg named, if_neg (by simpa [OpenOrder.waits, otherSlot] using last)]
    rfl

/-- What the end of an open or a close leaves, whatever it makes of the tags and the orders. -/
structure State.EndsOrder (s t : State) : Prop extends s.KeepsRest t where
  sta : t.sta = s.sta
  cgd : t.cgd = s.cgd
  direct : s.shc.job = none → t.shc.job = none

theorem State.EndsOrder.trans {u : State} (h : s.EndsOrder t) (k : t.EndsOrder u) : s.EndsOrder u :=
  ⟨h.1.trans k.1, k.2.trans h.2, k.3.trans h.3, fun direct => k.4 (h.4 direct)⟩

theorem State.EndsOrder.of_shc (now : t.now = s.now) (mem : t.mem = s.mem) (ftu : t.ftu = s.ftu) (flt : t.flt = s.flt)
    (stop : t.stop = s.stop) (sta : t.sta = s.sta) (cgd : t.cgd = s.cgd) (shc : t.shc = s.shc) : s.EndsOrder t :=
  ⟨⟨now, mem, ftu, flt, stop⟩, sta, cgd, fun direct => shc ▸ direct⟩

theorem State.EndsOrder.endTag (s : State) (tag : Nat) (o : TagOutcome) (w1 w2 w3 : Word) :
    s.EndsOrder (s.endTag tag o w1 w2 w3) :=
  ⟨⟨State.endTag_now .., State.endTag_mem .., State.endTag_ftu .., State.complete_flt .., State.endTag_stop ..⟩,
    State.endTag_sta .., State.endTag_cgd .., fun direct => State.direct_complete direct _⟩

/-- What an open done comes to: the order waits on for the other slot, or ends, or there was none. -/
inductive State.OpenDone (s : State) (x : SlotId) (c : Clip) : State → Prop
  | stays (untold : (s.slot x).openTag = 0 ∨ s.deck.openOrder = none) :
      s.OpenDone x c (s.setSlot x { s.slot x with clip := some { c with openDone := true } })
  | waits {o : OpenOrder} (named : (s.slot x).openTag ≠ 0) (order : s.deck.openOrder = some o)
      (waits : o.waits (otherSlot x) = true) :
      s.OpenDone x c (State.setSlot { s with deck := { s.deck with openOrder := some (o.opened x) } } x
        { s.slot x with clip := some { c with openDone := true } })
  | last {o : OpenOrder} (named : (s.slot x).openTag ≠ 0) (order : s.deck.openOrder = some o)
      (last : o.waits (otherSlot x) = false) :
      s.OpenDone x c (s.openLast x c o)

theorem State.openDone_cases (clip : (s.slot x).clip = some c) : s.OpenDone x c (s.openDone x) := by
  by_cases named : (s.slot x).openTag = 0
  · have stays : s.openDone x = s.setSlot x { s.slot x with clip := some { c with openDone := true } } := by
      unfold State.openDone
      rw [State.updClip_eq clip]
      dsimp only
      rw [State.slot_setSlot]
      split
      · rfl
      · exact if_pos named
    rw [stays]
    exact .stays (.inl named)
  · cases order : s.deck.openOrder with
    | none =>
      have stays : s.openDone x = s.setSlot x { s.slot x with clip := some { c with openDone := true } } := by
        unfold State.openDone
        rw [State.updClip_eq clip]
        dsimp only
        rw [State.setSlot_deck, order]
      rw [stays]
      exact .stays (.inr order)
    | some o =>
      cases waits : o.waits (otherSlot x) with
      | true =>
        rw [State.openDone_waits clip named order waits]
        exact .waits named order waits
      | false =>
        rw [State.openDone_last clip named order waits]
        exact .last named order waits

theorem State.openLast_ends (s : State) (x : SlotId) (c : Clip) (o : OpenOrder) : s.EndsOrder (s.openLast x c o) := by
  have set : s.EndsOrder (s.setSlot x { s.slot x with clip := some { c with openDone := true } }) := by
    cases x <;> exact .of_shc rfl rfl rfl rfl rfl rfl rfl rfl
  have ended := set.trans (State.EndsOrder.endTag _ o.tag .complete o.clipId o.first
    (BitVec.ofNat 32 (if o.usesA then o.sectorA else o.sectorB)))
  exact ended.trans (.of_shc rfl rfl rfl rfl rfl rfl rfl rfl)

/-- The slots after the last open of an order: no slot holds the tag. -/
theorem State.openLast_slot (s : State) (x : SlotId) (c : Clip) (o : OpenOrder) :
    (s.openLast x c o).slot x = { s.slot x with openTag := 0, clip := some { c with openDone := true } } := by
  cases x <;> simp [State.openLast, State.slot, State.setSlot]

theorem State.openLast_other (s : State) (x : SlotId) (c : Clip) (o : OpenOrder) :
    (s.openLast x c o).slot (otherSlot x) = { s.slot (otherSlot x) with openTag := 0 } := by
  cases x <;> simp [State.openLast, State.slot, State.setSlot, otherSlot]

theorem State.openLast_deck (s : State) (x : SlotId) (c : Clip) (o : OpenOrder) :
    (s.openLast x c o).deck = { s.deck with openOrder := none } := by
  simp [State.openLast]

/-- The tag of the order ends COMPLETE. -/
theorem State.openLast_openEnded (direct : s.shc.job = none) (x : SlotId) (c : Clip) (o : OpenOrder) :
    openEnded s (s.openLast x c o) o := by
  intro flying
  have ended := State.tagRec_complete_same
    (s := s.setSlot x { s.slot x with clip := some { c with openDone := true } })
    (c := ⟨o.tag, .complete, o.clipId, o.first, BitVec.ofNat 32 (if o.usesA then o.sectorA else o.sectorB)⟩)
    (by rw [State.setSlot_shc]; exact direct) (by cases x <;> exact flying)
  refine ended.trans ?_
  cases x <;> rfl

theorem State.openLast_tagRec (x : SlotId) (c : Clip) (o : OpenOrder) {i : Nat} (named : i ≠ 0) (other : i ≠ o.tag) :
    (s.openLast x c o).tagRec i = s.tagRec i := by
  have spared := State.tagRec_complete (s := s.setSlot x { s.slot x with clip := some { c with openDone := true } })
    (h := ⟨none, o.tag, .complete, o.clipId, o.first, BitVec.ofNat 32 (if o.usesA then o.sectorA else o.sectorB)⟩)
    named (.inl other)
  refine Eq.trans ?_ (spared.trans ?_)
  · rfl
  · cases x <;> rfl

/-- An open done moves this slot's clip and the open tags, and of the tags those of the order alone. -/
theorem State.OpenDone.leaves (h : s.OpenDone x c t) :
    s.EndsOrder t ∧ (∃ n, t.slot x = { s.slot x with openTag := n, clip := some { c with openDone := true } }) ∧
      (∃ n, t.slot (otherSlot x) = { s.slot (otherSlot x) with openTag := n }) ∧
      t.deck.closeOrder = s.deck.closeOrder ∧
      ∀ i, i ≠ 0 → (∀ o, s.deck.openOrder = some o → o.tag ≠ i) → t.tagRec i = s.tagRec i := by
  cases h with
  | stays =>
    refine ⟨?_, ⟨_, State.slot_setSlot ..⟩, ⟨_, State.slot_setSlot_other ..⟩, ?_, fun i _ _ => ?_⟩
    · cases x <;> exact .of_shc rfl rfl rfl rfl rfl rfl rfl rfl
    · rw [State.setSlot_deck]
    · cases x <;> rfl
  | waits =>
    refine ⟨?_, ⟨_, State.slot_setSlot ..⟩, ⟨(s.slot (otherSlot x)).openTag, ?_⟩, ?_, fun i _ _ => ?_⟩
    · cases x <;> exact .of_shc rfl rfl rfl rfl rfl rfl rfl rfl
    · cases x <;> rfl
    · rw [State.setSlot_deck]
    · cases x <;> rfl
  | last _ order _ =>
    refine ⟨State.openLast_ends .., ⟨_, State.openLast_slot ..⟩, ⟨_, State.openLast_other ..⟩, ?_, fun i named spared =>
      State.openLast_tagRec x c _ named (spared _ order).symm⟩
    rw [State.openLast_deck]

/-! ## The close is done (R157) -/

/-- The close of one slot is done while the order waits for the other. -/
theorem State.closeDone_waits {k : CloseOrder} (named : (s.slot x).closeTag ≠ 0) (order : s.deck.closeOrder = some k)
    (waits : k.waits (otherSlot x) = true) (frames : Nat) :
    s.closeDone x frames = { s with deck := { s.deck with closeOrder := some (k.closed x frames) } } := by
  unfold State.closeDone
  rw [order]
  dsimp only
  rw [if_neg named]
  cases x with
  | a => exact if_pos (by simpa [CloseOrder.waits, otherSlot] using waits)
  | b => exact if_pos (by simpa [CloseOrder.waits, otherSlot] using waits)

/-- The last close of an order is done: its tag ends. -/
theorem State.closeDone_last {k : CloseOrder} (named : (s.slot x).closeTag ≠ 0) (order : s.deck.closeOrder = some k)
    (last : k.waits (otherSlot x) = false) (frames : Nat) :
    s.closeDone x frames =
      (let o := k.closed x frames
      let t := s.endTag o.tag .complete (BitVec.ofNat 32 o.framesA) (BitVec.ofNat 32 o.framesB) o.endPoint
      { t with deck := { t.deck with closeOrder := none } }) := by
  unfold State.closeDone
  rw [order]
  dsimp only
  rw [if_neg named]
  cases x with
  | a =>
    rw [if_neg (by simpa [CloseOrder.waits, otherSlot] using last)]
    rfl
  | b =>
    rw [if_neg (by simpa [CloseOrder.waits, otherSlot] using last)]
    rfl

theorem State.closeDone_none (untold : (s.slot x).closeTag = 0) (frames : Nat) : s.closeDone x frames = s := by
  unfold State.closeDone
  split
  · rfl
  · exact if_pos untold

theorem CloseOrder.closed_tag (k : CloseOrder) (x : SlotId) (frames : Nat) : (k.closed x frames).tag = k.tag := by
  cases x <;> rfl

/-- A close done leaves the slots, and of the tags moves that of the order alone. -/
theorem State.closeDone_leaves (s : State) (x : SlotId) (frames : Nat) :
    let t := s.closeDone x frames
    s.EndsOrder t ∧ (∀ y, t.slot y = s.slot y) ∧ t.deck.openOrder = s.deck.openOrder ∧
      ∀ i, i ≠ 0 → (∀ o, s.deck.closeOrder = some o → o.tag ≠ i) ∨ s.inFlight i = false →
        t.tagRec i = s.tagRec i := by
  have same : s.EndsOrder s := .of_shc rfl rfl rfl rfl rfl rfl rfl rfl
  by_cases untold : (s.slot x).closeTag = 0
  · dsimp only
    rw [State.closeDone_none untold]
    exact ⟨same, fun _ => rfl, rfl, fun _ _ _ => rfl⟩
  cases order : s.deck.closeOrder with
  | none =>
    have none : s.closeDone x frames = s := by
      unfold State.closeDone
      rw [order]
    dsimp only
    rw [none]
    exact ⟨same, fun _ => rfl, rfl, fun _ _ _ => rfl⟩
  | some k =>
    cases waits : k.waits (otherSlot x) with
    | true =>
      dsimp only
      rw [State.closeDone_waits untold order waits]
      exact ⟨.of_shc rfl rfl rfl rfl rfl rfl rfl rfl, fun y => by cases y <;> rfl, rfl, fun _ _ _ => rfl⟩
    | false =>
      dsimp only
      rw [State.closeDone_last untold order waits]
      refine ⟨(State.EndsOrder.endTag s ..).trans (.of_shc rfl rfl rfl rfl rfl rfl rfl rfl), fun y => ?_, ?_,
        fun i named spared => ?_⟩
      · cases y
        · exact State.endTag_slotA ..
        · exact State.endTag_slotB ..
      · simp
      · refine State.tagRec_complete (s := s) named (spared.imp_left fun spared taken => spared k rfl ?_)
        rw [taken]
        exact (k.closed_tag x frames).symm

/-- The tag of the order ends COMPLETE. -/
theorem State.closeDone_closeEnded {k : CloseOrder} (named : (s.slot x).closeTag ≠ 0)
    (order : s.deck.closeOrder = some k) (last : k.waits (otherSlot x) = false) (direct : s.shc.job = none)
    (frames : Nat) : (s.closeDone x frames).deck.closeOrder = none ∧
      closeEnded s (s.closeDone x frames) (k.closed x frames) := by
  rw [State.closeDone_last named order last]
  refine ⟨rfl, fun flying => ?_⟩
  exact State.tagRec_complete_same (s := s) (c := ⟨(k.closed x frames).tag, .complete,
    BitVec.ofNat 32 (k.closed x frames).framesA, BitVec.ofNat 32 (k.closed x frames).framesB,
    (k.closed x frames).endPoint⟩) direct flying

/-! ## The end of a close (R161) -/

/-- The slot whose close has ended. -/
def Slot.closed (v : Slot) (c : Clip) : Slot :=
  { v with
    st := if c.fullAfter then .full else .ready
    clip := none, openTag := 0, closeTag := 0, current := restOfExtent v.current }

/-- The part whose orders have taken the close: the reader is removed, and the slot is FULL or READY. -/
def State.endReader (s : State) (x : SlotId) (c : Clip) : State :=
  let t := (s.removeReader x).updSlot x fun v => { v with current := restOfExtent v.current, openTag := 0, closeTag := 0 }
  (t.setSlotState x (if c.fullAfter then .full else .ready)).release

theorem State.endClose_eq (s : State) (x : SlotId) (c : Clip) : s.endClose x c =
    ((if c.openDone then s else s.openDone x).closeDone x c.recorded).endReader x c := rfl

/-- With the other slot closed, a slot that is neither RECORDING nor CLOSING leaves no clip to watch (R170). -/
theorem State.setSlotState_shut {st : SlotState} (notRecording : st ≠ .recording) (notClosing : st ≠ .closing)
    (noOther : (s.slot (otherSlot x)).clipOpen = false) :
    (s.setSlotState x st).cgd.st = if s.cgd.st = .watching then .armed else s.cgd.st := by
  have shut : (s.setSlot x { s.slot x with st := st }).clipOpen = false := by
    cases x
    · exact Bool.or_eq_false_iff.mpr ⟨by simp [Slot.clipOpen, State.setSlot, notRecording, notClosing], noOther⟩
    · exact Bool.or_eq_false_iff.mpr ⟨noOther, by simp [Slot.clipOpen, State.setSlot, notRecording, notClosing]⟩
  have entered : (st == SlotState.recording && (s.slot x).st != .recording) = false := by simp [notRecording]
  have follows : (s.setSlotState x st).cgd.st =
      (s.setSlot x { s.slot x with st := st }).cgd.st.follow (st == .recording && (s.slot x).st != .recording)
        (s.setSlot x { s.slot x with st := st }).clipOpen := rfl
  rw [follows, shut, entered, State.setSlot_cgd]
  cases s.cgd.st <;> rfl

/-- The floor that a reader's end leaves (R132). -/
def floorAfter (floor begun : Option FrameNo) : Option FrameNo :=
  match begun with
  | some f => raiseFloor floor f
  | none => floor

/-- What a slot's end of its clip leaves: its slot, the guard and records alone move. -/
theorem State.shutSlot_leaves (s : State) (x : SlotId) (v : Slot) (st : SlotState) :
    let t := ((s.setSlot x v).setSlotState x st).release
    s.KeepsRest t ∧ t.slot x = { v with st := st } ∧ t.slot (otherSlot x) = s.slot (otherSlot x) ∧ t.shc = s.shc ∧
      t.deck = s.deck ∧ t.sta.floor = s.sta.floor := by
  obtain ⟨now, mem, shc, ftu, sta, deck, stop, flt⟩ := (s.setSlot x v).setSlotState_leaves x st
  have floor := congrArg Sta.floor (sta.trans (State.setSlot_sta ..))
  dsimp only
  rw [State.slot_release, State.slot_release, State.slot_setSlotState, State.slot_setSlotState_other,
    State.slot_setSlot, State.slot_setSlot_other]
  refine ⟨⟨?_, ?_, ?_, ?_, ?_⟩, rfl, rfl, ?_, ?_, ?_⟩
  · exact now.trans (State.setSlot_now ..)
  · exact mem.trans (State.setSlot_mem ..)
  · exact ftu.trans (State.setSlot_ftu ..)
  · exact flt.trans (State.setSlot_flt ..)
  · exact stop.trans (State.setSlot_stop ..)
  · exact shc.trans (State.setSlot_shc ..)
  · exact deck.trans (State.setSlot_deck ..)
  · exact floor

/-- The part with the floor that a reader's end leaves. -/
def State.floored (s : State) (begun : Option FrameNo) : State :=
  { s with sta := { s.sta with floor := floorAfter s.sta.floor begun } }

theorem State.floored_slot (s : State) (begun : Option FrameNo) (x : SlotId) : (s.floored begun).slot x = s.slot x := by
  cases x <;> rfl

theorem State.floored_keeps (s : State) (begun : Option FrameNo) : s.KeepsRest (s.floored begun) :=
  ⟨rfl, rfl, rfl, rfl, rfl⟩

/-- The reader's end, its slot being `v` after it. -/
theorem State.removeReader_eq {k : Clip} (clip : (s.slot x).clip = some k) : s.removeReader x =
    (s.floored k.begun).setSlot x { s.slot x with clip := none } := by
  unfold State.removeReader
  rw [clip]
  dsimp only
  generalize k.begun = f
  cases x <;> cases f <;> rfl

/-- What the end of a reader leaves: its slot, the guard and the floor alone move (R132, R161, R170). -/
theorem State.endReader_leaves {k : Clip} (clip : (s.slot x).clip = some k) (c : Clip)
    (noOther : (s.slot (otherSlot x)).clipOpen = false) :
    let t := s.endReader x c
    s.KeepsRest t ∧ t.slot x = (s.slot x).closed c ∧ t.slot (otherSlot x) = s.slot (otherSlot x) ∧ t.shc = s.shc ∧
      t.deck = s.deck ∧ t.cgd.st = (if s.cgd.st = .watching then .armed else s.cgd.st) ∧
      t.sta.floor = floorAfter s.sta.floor k.begun := by
  let u : State := s.floored k.begun
  let v : Slot := { s.slot x with clip := none, current := restOfExtent (s.slot x).current, openTag := 0, closeTag := 0 }
  let st : SlotState := if c.fullAfter then .full else .ready
  have ends : s.endReader x c = ((u.setSlot x v).setSlotState x st).release := by
    unfold State.endReader
    rw [State.removeReader_eq clip, State.updSlot, State.slot_setSlot, State.setSlot_setSlot]
  have shut : st ≠ .recording ∧ st ≠ .closing := by
    show (if c.fullAfter then SlotState.full else .ready) ≠ _ ∧ (if c.fullAfter then SlotState.full else .ready) ≠ _
    split <;> exact ⟨nofun, nofun⟩
  have other : (u.setSlot x v).slot (otherSlot x) = s.slot (otherSlot x) :=
    (State.slot_setSlot_other ..).trans (State.floored_slot ..)
  have guard := State.setSlotState_shut (s := u.setSlot x v) shut.1 shut.2 (other.symm ▸ noOther)
  rw [State.setSlot_cgd] at guard
  obtain ⟨rest, own, slot, shc, deck, floor⟩ := u.shutSlot_leaves x v st
  dsimp only
  rw [ends]
  exact ⟨(s.floored_keeps _).trans rest, own, slot.trans (State.floored_slot ..), shc, deck, guard, floor⟩

end

end Sys2Proof.Machine
end

