-- ==== Sys2Proof/Proofs/RepliesSettled.lean ====
section
/-! PROOFS. The end of the steps that WRITE and FLUSH replies begin, with the other slot idle (R138, R139, R154, R161 to
R163): O49. -/

namespace Sys2Proof.Machine

section
variable {e : Env} {s t u : State} {x : SlotId} {v : Slot} {c : Clip} {a n : Nat} {d : List Byte} {o : OpenOrder}

@[simp] theorem State.judgeSlots_slot (s u : State) (x : SlotId) : (s.judgeSlots u).slot x = s.slot x := by
  cases x
  · exact State.judgeSlots_slotA ..
  · exact State.judgeSlots_slotB ..

/-! ## What is due (R153, R160) -/

/-- The FLUSH of a close is sent (R160). -/
theorem State.sendDue_flush (free : (s.slot x).command = none) (clip : (s.slot x).clip = some c)
    (opened : (s.slot x).clipOpen = true) (noWrite : c.writeDue = false) (due : c.flushDue = true) :
    s.sendDue x = s.setSlot x { s.slot x with
      clip := some { c with flushSent := true }, command := some .flush, timer := some (s.now + 1000000)
      waiting := none } := by
  have sends : s.sendDue x = (s.updClip x fun d => { d with flushSent := true }).send x .flush := by
    simp [State.sendDue, free, clip, opened, noWrite, due]
  rw [sends, State.updClip_eq clip]
  cases x <;> rfl

/-- A slot with an open clip and neither a WRITE nor a FLUSH due sends nothing. -/
theorem State.sendDue_rest (free : (s.slot x).command = none) (clip : (s.slot x).clip = some c)
    (noWrite : c.writeDue = false) (noFlush : c.flushDue = false) : s.sendDue x = s := by
  simp [State.sendDue, free, clip, noWrite, noFlush]

theorem State.writerStep_closed (clip : (s.slot x).clip = some c) (closed : c.closePlaced = true) :
    s.writerStep x = none := by
  simp [State.writerStep, clip, closed]

/-- The end of a step whose slots' work is known, with no safe stop and no slot into RECORDING or out of it. -/
theorem State.settle_worked {w : State} (noRequest : t.stop.requests = []) (notStopping : t.stop.stopping = false)
    (work : t.work = w) (stop : w.stop = t.stop) (own : (w.slot x).st = (u.slot x).st)
    (other : (w.slot (otherSlot x)).st = (u.slot (otherSlot x)).st) : t.settle.judgeSlots u = w := by
  rw [State.settle_of_work noRequest notStopping work stop]
  exact State.judgeSlots_same (State.sameRecording_of (x := x) (by rw [own]) other)

/-! ## WRITE answered OK (R154, R160) -/

/-- The last WRITE of a close is answered: the FLUSH is sent. -/
theorem exec_writeReply_flushes (idle : (s.slot (otherSlot x)).idle = true) (noRequest : s.stop.requests = [])
    (notStopping : s.stop.stopping = false) (sent : (s.slot x).command = some (.write a n d))
    (closing : (s.slot x).st = .closing) (clip : (s.slot x).clip = some c) (closed : c.closePlaced = true)
    (all : c.sent = c.placed) (opened : c.openDone = true) (unsent : c.flushSent = false) :
    exec (.writeReply e x .ok) s = .next (State.release (State.setSlot (State.release ((s.arrive e).setSlot x
        ((s.slot x).written c.answered))) x { s.slot x with
      clip := some { c.answered with flushSent := true }, command := some .flush
      timer := some (s.now + e.elapsed + 1000000), waiting := none })) := by
  let w : Slot := (s.slot x).written c.answered
  let t : State := State.release ((s.arrive e).setSlot x w)
  let w' : Slot := { s.slot x with
    clip := some { c.answered with flushSent := true }, command := some .flush
    timer := some (s.now + e.elapsed + 1000000), waiting := none }
  have own : t.slot x = w := (State.slot_release ..).trans (State.slot_setSlot ..)
  have other : t.slot (otherSlot x) = s.slot (otherSlot x) :=
    (State.slot_release ..).trans ((State.slot_setSlot_other ..).trans (State.arrive_slot ..))
  have stop : t.stop = s.stop := State.setSlot_stop ..
  have now : t.now = s.now + e.elapsed := State.setSlot_now ..
  have isOpen : (s.slot x).clipOpen = true := by simp [Slot.clipOpen, closing]
  have noWrite : c.answered.writeDue = false := by simp [Clip.writeDue, Clip.answered, all]
  have due : c.answered.flushDue = true := by simp [Clip.flushDue, Clip.answered, closed, all, unsent]
  have sends : t.sendDue x = t.setSlot x w' := by
    rw [State.sendDue_flush (by rw [own]; rfl) (c := c.answered) (by rw [own]; rfl) (by rw [own]; exact isOpen) noWrite due,
      own, now]
    rfl
  have noted : (t.setSlot x w').sendDue x = t.setSlot x w' := by
    refine State.sendDue_noted (by rw [State.slot_setSlot]; exact nofun) ?_
    rw [State.slot_setSlot]
    simp [Slot.behind, w', Clip.writeDue, Clip.answered, all]
  have still (y : SlotId) : t.writerStep y = none := by
    obtain rfl | rfl := SlotId.self_or_other x y
    · exact State.writerStep_closed (c := c.answered) (by rw [own]; rfl) closed
    · exact State.writerStep_noClip (by rw [other]; exact (Slot.idle_parts idle).1)
  have work : t.work = (t.setSlot x w').release := by
    refine State.work_slot (State.runWriters_still still _) sends (State.slot_setSlot_other ..) (other ▸ idle) ?_ noted
    exact State.writerStep_closed (c := { c.answered with flushSent := true }) (by rw [State.slot_setSlot]) closed
  have answered : (s.arrive e).writeAnswered x .ok = t := by
    have ok := State.writeAnswered_ok (s := s.arrive e) (x := x) (c := c) (by simpa using sent) (by simpa using clip)
    have noOpen : c.completesOpen = false := by simp [Clip.completesOpen, opened]
    rw [noOpen] at ok
    refine ok.trans ?_
    show State.release ((s.arrive e).setSlot x (((s.arrive e).slot x).written c.answered)) = t
    rw [State.arrive_slot]
  have settled : t.settle.judgeSlots (s.arrive e) = (t.setSlot x w').release := by
    refine State.settle_worked (x := x) (stop ▸ noRequest) (stop ▸ notStopping) work (State.setSlot_stop ..) ?_ ?_
    · rw [State.slot_release, State.slot_setSlot, State.arrive_slot]
    · rw [State.slot_release, State.slot_setSlot_other, other, State.arrive_slot]
  exact congrArg Host.Outcome.next
    ((congrArg (fun t : State => t.settle.judgeSlots (s.arrive e)) answered).trans settled)

/-- The WRITE that ends an open is answered, the other slot's open being done: the writer rests (R154). -/
theorem exec_writeReply_opens (idle : (s.slot (otherSlot x)).idle = true) (noRequest : s.stop.requests = [])
    (notStopping : s.stop.stopping = false) (sent : (s.slot x).command = some (.write a n d))
    (recording : (s.slot x).st = .recording) (clip : (s.slot x).clip = some c) (placed : c.openPlaced = true)
    (notDone : c.openDone = false) (whole : c.openLength ≤ c.sent) (named : (s.slot x).openTag ≠ 0)
    (order : s.deck.openOrder = some o) (last : o.waits (otherSlot x) = false) (notClosed : c.closePlaced = false)
    (few : c.placed - c.sent < 131072) (noEnd : c.endPoint = none)
    (rests : c.paused = true ∨ ∀ r ∈ s.sta.index, r.frame ≠ c.next) :
    let p := (s.arrive e).setSlot x ((s.slot x).written c.answered)
    ∃ t, exec (.writeReply e x .ok) s = .next t ∧
      t.slot x = { (s.slot x).written c.answered with
        openTag := 0, clip := some { c.answered with openDone := true } } ∧
      t.deck = { s.deck with openOrder := none } ∧ t.flt = s.flt ∧ t.shc = (p.openLast x c.answered o).shc := by
  let p : State := (s.arrive e).setSlot x ((s.slot x).written c.answered)
  let t : State := (p.openLast x c.answered o).release
  have pOwn : p.slot x = (s.slot x).written c.answered := State.slot_setSlot ..
  have pOther : p.slot (otherSlot x) = s.slot (otherSlot x) := (State.slot_setSlot_other ..).trans (State.arrive_slot ..)
  have own : t.slot x = { (s.slot x).written c.answered with
      openTag := 0, clip := some { c.answered with openDone := true } } := by
    rw [← pOwn]
    exact (State.slot_release ..).trans (State.openLast_slot ..)
  have other : t.slot (otherSlot x) = { s.slot (otherSlot x) with openTag := 0 } := by
    rw [← pOther]
    exact (State.slot_release ..).trans (State.openLast_other ..)
  have ends := p.openLast_ends x c.answered o
  have stop : t.stop = s.stop := ends.stop.trans (State.setSlot_stop ..)
  have index (r : IndexRec) (mem : r ∈ t.sta.index) : r ∈ s.sta.index := by
    have kept := (List.dropWhile_sublist _).subset mem
    have sta : (p.openLast x c.answered o).sta = s.sta := ends.sta.trans (State.setSlot_sta ..)
    rw [sta] at kept
    exact kept
  have still : t.writerStep x = none := by
    refine State.writerStep_rests ?_
    rw [own]
    cases paused : c.paused with
    | true => exact .inr ⟨_, rfl, .inl paused⟩
    | false =>
      have missing := rests.resolve_left (by simp [paused])
      exact .inr ⟨_, rfl, .inr ⟨⟨recording, rfl, placed, notClosed, paused, noEnd⟩, fun r mem =>
        missing r (index r mem)⟩⟩
  have stays : t.sendDue x = t := by
    refine State.sendDue_rest (c := { c.answered with openDone := true }) (by rw [own]; rfl) (by rw [own]) ?_ ?_
    · simp [Clip.writeDue, Clip.answered, notClosed, few]
    · simp [Clip.flushDue, Clip.answered, notClosed]
  have work : t.work = t.release := State.work_rest still stays (other ▸ idle)
  have answered : (s.arrive e).writeAnswered x .ok = t := by
    have ok := State.writeAnswered_ok (s := s.arrive e) (x := x) (c := c) (by simpa using sent) (by simpa using clip)
    have opens : c.completesOpen = true := by simp [Clip.completesOpen, placed, notDone, whole]
    rw [opens] at ok
    refine ok.trans ?_
    show State.release (State.openDone ((s.arrive e).setSlot x (((s.arrive e).slot x).written c.answered)) x) = t
    rw [State.arrive_slot]
    exact congrArg State.release (State.openDone_last (by rw [pOwn]; rfl) (by rw [pOwn]; exact named)
      ((congrArg Deck.openOrder (State.setSlot_deck ..)).trans order) last)
  have settled : t.settle.judgeSlots (s.arrive e) = t.release := by
    refine State.settle_worked (x := x) (stop ▸ noRequest) (stop ▸ notStopping) work rfl ?_ ?_
    · rw [State.slot_release, own, State.arrive_slot]
      rfl
    · rw [State.slot_release, other, State.arrive_slot]
  have deck : t.deck = { s.deck with openOrder := none } := by
    refine (State.openLast_deck ..).trans ?_
    rw [State.setSlot_deck]
    rfl
  exact ⟨t.release, congrArg Host.Outcome.next
      ((congrArg (fun t : State => t.settle.judgeSlots (s.arrive e)) answered).trans settled),
    (State.slot_release ..).trans own, deck, ends.flt.trans (State.setSlot_flt ..), rfl⟩

/-! ## FLUSH answered OK (R161, R163) -/

/-- The orders that take the end of a close, from the part whose FLUSH has been answered. -/
def State.ordersTake (s : State) (x : SlotId) (c : Clip) : State :=
  State.closeDone (if c.openDone then s else s.openDone x) x c.recorded

/-- What the end of a close makes of the orders and their tags, and what it leaves (R154, R157). -/
theorem State.ordersTake_leaves (clip : (s.slot x).clip = some c) :
    let t := s.ordersTake x c
    s.EndsOrder t ∧
      (∃ n k, t.slot x = { s.slot x with openTag := n, clip := some k } ∧ k.begun = c.begun) ∧
      (∃ n, t.slot (otherSlot x) = { s.slot (otherSlot x) with openTag := n }) ∧
      ∀ i, i ≠ 0 → (∀ o, s.deck.openOrder = some o → o.tag ≠ i) → (∀ o, s.deck.closeOrder = some o → o.tag ≠ i) →
        t.tagRec i = s.tagRec i := by
  unfold State.ordersTake
  cases opened : c.openDone with
  | true =>
    obtain ⟨ends, slot, -, tags⟩ := s.closeDone_leaves x c.recorded
    refine ⟨ends, ⟨(s.slot x).openTag, c, ?_, rfl⟩, ⟨(s.slot (otherSlot x)).openTag, ?_⟩, fun i named _ spared =>
      tags i named (.inl spared)⟩
    · rw [← clip]
      exact slot x
    · exact slot _
  | false =>
    obtain ⟨opens, ⟨n, own⟩, ⟨m, other⟩, order, openTags⟩ := (State.openDone_cases clip).leaves
    obtain ⟨ends, slot, -, tags⟩ := (s.openDone x).closeDone_leaves x c.recorded
    refine ⟨opens.trans ends, ⟨n, _, (slot x).trans own, rfl⟩, ⟨m, (slot _).trans other⟩,
      fun i named openSpared spared => (tags i named (.inl ?_)).trans (openTags i named openSpared)⟩
    rw [order]
    exact spared

/-- The order of an open not yet done, which waited for this slot alone, ends (R154). -/
theorem State.ordersTake_opens (clip : (s.slot x).clip = some c) (direct : s.shc.job = none) (notDone : c.openDone = false)
    (named : (s.slot x).openTag ≠ 0) (order : s.deck.openOrder = some o) (last : o.waits (otherSlot x) = false) :
    (s.ordersTake x c).deck.openOrder = none ∧ openEnded s (s.ordersTake x c) o := by
  have opens : s.ordersTake x c = (s.openLast x c o).closeDone x c.recorded := by
    unfold State.ordersTake
    rw [notDone]
    exact congrArg (fun t : State => t.closeDone x c.recorded) (State.openDone_last clip named order last)
  rw [opens]
  have openEnds := State.openLast_openEnded direct x c o
  refine ⟨?_, fun flying => ?_⟩
  · rw [((s.openLast x c o).closeDone_leaves x c.recorded).2.2.1, State.openLast_deck]
  · have done := openEnds flying
    obtain ⟨-, -, -, tags⟩ := (s.openLast x c o).closeDone_leaves x c.recorded
    exact (tags o.tag (State.inFlight_iff.mp flying).1 (.inr (State.inFlight_of_ended done))).trans done

/-- The order of a close that waited for this slot alone ends (R157). -/
theorem State.ordersTake_closes {k : CloseOrder} (clip : (s.slot x).clip = some c) (direct : s.shc.job = none)
    (named : (s.slot x).closeTag ≠ 0) (order : s.deck.closeOrder = some k) (last : k.waits (otherSlot x) = false)
    (apart : ∀ o, s.deck.openOrder = some o → o.tag ≠ k.tag) :
    (s.ordersTake x c).deck.closeOrder = none ∧ closeEnded s (s.ordersTake x c) (k.closed x c.recorded) := by
  unfold State.ordersTake
  cases c.openDone with
  | true => exact State.closeDone_closeEnded named order last direct c.recorded
  | false =>
    obtain ⟨opens, ⟨n, own⟩, -, order', openTags⟩ := (State.openDone_cases clip).leaves
    obtain ⟨none, ended⟩ := State.closeDone_closeEnded (s := s.openDone x) (by rw [own]; exact named)
      (order'.trans order) last (opens.direct direct) c.recorded
    refine ⟨none, fun flying => ?_⟩
    rw [k.closed_tag] at flying
    have same := openTags k.tag (State.inFlight_iff.mp flying).1 apart
    rw [← k.closed_tag x c.recorded] at same flying
    refine (ended ((State.inFlight_congr same).trans flying)).trans ?_
    rw [State.ended_congr same opens.ftu]

/-- What ends the FLUSH of a close: the command is no longer in flight, and the orders take it. -/
def State.flushTaken (s : State) (x : SlotId) (c : Clip) : State :=
  (s.updSlot x Slot.answered).ordersTake x c

theorem State.flushAnswered_close (sent : (s.slot x).command = some .flush) (clip : (s.slot x).clip = some c) :
    s.flushAnswered x .ok = (s.flushTaken x c).endReader x c := by
  unfold State.flushAnswered
  rw [sent, clip]
  exact (s.updSlot x Slot.answered).endClose_eq x c

/-- A FLUSH of a close is answered in a part with no safe stop whose other slot is idle (R161). -/
structure State.EndsClose (s : State) (x : SlotId) (c : Clip) : Prop where
  idle : (s.slot (otherSlot x)).idle = true
  shut : (s.slot (otherSlot x)).clipOpen = false
  noRequest : s.stop.requests = []
  notStopping : s.stop.stopping = false
  sent : (s.slot x).command = some .flush
  clip : (s.slot x).clip = some c
  closing : (s.slot x).st = .closing
  noRelease : (s.slot x).releasePending = false

theorem State.answered_ordersTake (clip : (s.slot x).clip = some c) :
    let t := s.flushTaken x c
    s.EndsOrder t ∧
      (∃ n k, t.slot x = { (s.slot x).answered with openTag := n, clip := some k } ∧ k.begun = c.begun) ∧
      (∃ n, t.slot (otherSlot x) = { s.slot (otherSlot x) with openTag := n }) ∧
      ∀ i, i ≠ 0 → (∀ o, s.deck.openOrder = some o → o.tag ≠ i) → (∀ o, s.deck.closeOrder = some o → o.tag ≠ i) →
        t.tagRec i = s.tagRec i := by
  have clip' : ((s.updSlot x Slot.answered).slot x).clip = some c := by rw [State.slot_updSlot]; exact clip
  obtain ⟨ends, ⟨n, k, own, begun⟩, ⟨m, other⟩, tags⟩ := State.ordersTake_leaves clip'
  rw [State.slot_updSlot] at own
  rw [State.slot_updSlot_other] at other
  rw [State.updSlot_deck] at tags
  have answered : s.EndsOrder (s.updSlot x Slot.answered) := by
    cases x <;> exact .of_shc rfl rfl rfl rfl rfl rfl rfl rfl
  exact ⟨answered.trans ends, ⟨n, k, own, begun⟩, ⟨m, other⟩, fun i named opens closes =>
    (tags i named opens closes).trans (State.tagRec_congr (State.updSlot_shc ..) i)⟩

/-- What the orders make of an answered FLUSH: the open not yet done and the close, where they waited for this slot
alone, end with their tags (R154, R157). -/
theorem State.flushTaken_ends (clip : (s.slot x).clip = some c) (direct : s.shc.job = none) :
    let p := s.flushTaken x c
    (∀ o, c.openDone = false → (s.slot x).openTag ≠ 0 → s.deck.openOrder = some o → o.waits (otherSlot x) = false →
        p.deck.openOrder = none ∧ openEnded s p o) ∧
      ∀ o, (s.slot x).closeTag ≠ 0 → s.deck.closeOrder = some o → o.waits (otherSlot x) = false →
        (∀ p, s.deck.openOrder = some p → p.tag ≠ o.tag) →
        p.deck.closeOrder = none ∧ closeEnded s p (o.closed x c.recorded) := by
  let u : State := s.updSlot x Slot.answered
  have own : u.slot x = (s.slot x).answered := State.slot_updSlot ..
  have clip' : (u.slot x).clip = some c := by rw [own]; exact clip
  have shc : u.shc = s.shc := State.updSlot_shc ..
  have deck : u.deck = s.deck := State.updSlot_deck ..
  have ftu : u.ftu = s.ftu := State.updSlot_ftu ..
  have direct' : u.shc.job = none := by rw [shc]; exact direct
  have record (i : Nat) : u.tagRec i = s.tagRec i := State.tagRec_congr shc i
  refine ⟨fun o notDone named order last => ?_, fun o named order last apart => ?_⟩
  · obtain ⟨none, ended⟩ := State.ordersTake_opens clip' direct' notDone (by rw [own]; exact named)
      (by rw [deck]; exact order) last
    refine ⟨none, fun flying => ?_⟩
    have ended := ended ((State.inFlight_congr (record _)).trans flying)
    rw [State.ended_congr (record _) ftu] at ended
    exact ended
  · obtain ⟨none, ended⟩ := State.ordersTake_closes clip' direct' (by rw [own]; exact named)
      (by rw [deck]; exact order) last (by rw [deck]; exact apart)
    refine ⟨none, fun flying => ?_⟩
    have ended := ended ((State.inFlight_congr (record _)).trans flying)
    rw [State.ended_congr (record _) ftu] at ended
    exact ended

/-- A slot that holds neither tag has none to drop. -/
theorem Slot.closed_untagged (noOpen : v.openTag = 0) (noClose : v.closeTag = 0) : v.closed c =
    { v with st := if c.fullAfter then .full else .ready, clip := none, current := restOfExtent v.current } := by
  cases v
  simp_all [Slot.closed]

/-- The step ends with the close: the slot, the guard and the floor move behind the orders. -/
theorem State.EndsClose.ends (h : s.EndsClose x c) (e : Env) :
    let p := (s.arrive e).flushTaken x c
    ∃ t, exec (.flushReply e x .ok) s = .next t ∧ t.slot x = (s.slot x).answered.closed c ∧
      t.slot (otherSlot x) = p.slot (otherSlot x) ∧ t.shc = p.shc ∧ t.deck = p.deck ∧
      t.cgd.st = (if s.cgd.st = .watching then .armed else s.cgd.st) ∧
      t.sta.floor = floorAfter s.sta.floor c.begun ∧ t.flt = s.flt ∧ t.mem = Memory.apply s.mem e.writes := by
  obtain ⟨ends, ⟨n, k, own, begun⟩, ⟨m, other⟩, -⟩ :=
    State.answered_ordersTake (s := s.arrive e) (x := x) (c := c) (by rw [State.arrive_slot]; exact h.clip)
  rw [State.arrive_slot] at own other
  obtain ⟨rest, own', other', shc, deck, guard, floor⟩ := State.endReader_leaves (s := (s.arrive e).flushTaken x c)
    (k := k) (by rw [own]) c (by rw [other]; exact h.shut)
  rw [own] at own'
  rw [ends.cgd] at guard
  rw [ends.sta, begun] at floor
  have calm : quiet (((s.arrive e).flushTaken x c).endReader x c) = true := by
    refine (quiet_iff (x := x)).mpr ?_
    rw [own', other', other, rest.stop, ends.stop]
    refine ⟨?_, h.idle, h.noRequest, h.notStopping⟩
    cases full : c.fullAfter <;> simp [Slot.idle, Slot.closed, Slot.answered, h.noRelease, full]
  have settled := State.settle_quietly (x := x) (u := s.arrive e) calm
    (by rw [own', State.arrive_slot, h.closing]; cases full : c.fullAfter <;> simp [Slot.closed, full])
    (by rw [other', other, State.arrive_slot])
  have answered := State.flushAnswered_close (s := s.arrive e) (x := x) (c := c)
    (by rw [State.arrive_slot]; exact h.sent) (by rw [State.arrive_slot]; exact h.clip)
  refine ⟨_, congrArg Host.Outcome.next
    ((congrArg (fun t : State => t.settle.judgeSlots (s.arrive e)) answered).trans settled), ?_⟩
  rw [State.slot_release, State.slot_release]
  exact ⟨own', other', shc, deck, guard, floor, rest.flt.trans ends.flt, rest.mem.trans ends.mem⟩

/-- A release's FLUSH is answered (R163). -/
theorem exec_flushReply_releases (idle : (s.slot (otherSlot x)).idle = true) (noRequest : s.stop.requests = [])
    (notStopping : s.stop.stopping = false) (sent : (s.slot x).command = some .flush) (noClip : (s.slot x).clip = none)
    (from_ : (s.slot x).st = .ready ∨ (s.slot x).st = .full) (guard : s.cgd.st ≠ .watching) :
    exec (.flushReply e x .ok) s = .next (State.release ((s.arrive e).setSlot x { s.slot x with
      st := .ready, command := none, timer := none, waiting := none, releasePending := false
      releaseSent := false })) := by
  let v : Slot := { s.slot x with
    st := .ready, command := none, timer := none, waiting := none, releasePending := false, releaseSent := false }
  have answered : (s.arrive e).flushAnswered x .ok = (s.arrive e).setSlot x v := by
    have taken : (s.arrive e).flushAnswered x .ok = ((s.arrive e).updSlot x Slot.answered).released x := by
      unfold State.flushAnswered
      rw [State.arrive_slot, sent, noClip]
    rw [taken]
    unfold State.released
    rw [State.slot_updSlot, State.arrive_slot]
    obtain ready | full := from_
    · rw [if_neg (by simp [Slot.answered, ready])]
      have same : ({ s.slot x with st := .ready } : Slot) = s.slot x := by rw [← ready]
      show _ = (s.arrive e).setSlot x { ({ s.slot x with st := .ready } : Slot) with
        command := none, timer := none, waiting := none, releasePending := false, releaseSent := false }
      rw [same]
      cases x <;> rfl
    · dsimp only
      rw [if_pos (by simp [Slot.answered, full]), State.setSlotState_calm (by cases x <;> exact guard) (by decide)]
      cases x <;> rfl
  have calm : quiet ((s.arrive e).setSlot x v) = true := by
    refine (quiet_iff (x := x)).mpr ?_
    rw [State.slot_setSlot, State.slot_setSlot_other, State.setSlot_stop, State.arrive_slot]
    exact ⟨by simp [Slot.idle, v, noClip], idle, noRequest, notStopping⟩
  have settled := State.settle_quietly (x := x) (u := s.arrive e) calm
    (by rw [State.slot_setSlot, State.arrive_slot]; obtain st | st := from_ <;> simp [v, st])
    (by rw [State.slot_setSlot_other])
  exact congrArg Host.Outcome.next
    ((congrArg (fun t : State => t.settle.judgeSlots (s.arrive e)) answered).trans settled)

/-! ## WRITE answered ERROR (R139, R141, R162) -/

theorem Slot.untagged (noOpen : v.openTag = 0) (noClose : v.closeTag = 0) (noScan : v.scanTag = 0) :
    { v with openTag := 0, closeTag := 0, scanTag := 0 } = v := by
  cases v
  simp_all

/-- A fault on a slot that holds no tag names none. -/
theorem State.slotFault_untagged (noOpen : (s.slot x).openTag = 0) (noClose : (s.slot x).closeTag = 0)
    (noScan : (s.slot x).scanTag = 0) (k : FaultKind) (d1 d2 : Word) (scanned : Bool) :
    s.slotFault x k d1 d2 scanned = s.fault k (slotSource x) d1 d2 := by
  have captured : (s.slot x).capturedTag = 0 := by simp [Slot.capturedTag, noOpen, noClose, noScan]
  have completion : (s.slot x).cardFailed scanned = none := if_pos captured
  let t : State := s.fault k (slotSource x) d1 d2
  have slot : t.slot x = s.slot x := by
    cases x
    · exact State.fault_slotA ..
    · exact State.fault_slotB ..
  have ended : t.endTag 0 .cardFailed 0 0 (wordOfNat (slotCode x)) = t := State.complete_untagged t rfl
  have own : t.updSlot x (fun v => { v with openTag := 0, closeTag := 0, scanTag := 0 }) = t := by
    rw [State.updSlot, slot, Slot.untagged noOpen noClose noScan, ← slot, State.setSlot_slot]
  unfold State.slotFault
  dsimp only
  rw [completion, captured, if_neg (by rw [noClose]; exact fun named => named rfl)]
  show ((t.endTag 0 .cardFailed 0 0 (wordOfNat (slotCode x))).updSlot x _).updSlot (otherSlot x) _ = t
  rw [ended, own, State.updSlot, Slot.dropTag_zero, Slot.dropTag_zero, State.setSlot_slot]

/-- The slot with an open clip whose command has failed (R140, R162). -/
def Slot.failed (v : Slot) : Slot :=
  { v with
    st := .faulted, command := none, timer := none, waiting := none, releasePending := false, releaseSent := false
    current := none, clip := none, scan := v.scan.finish }

/-- What the failure of a slot with an open clip leaves: the slot, the guard and the floor alone move. -/
theorem State.failSlot_leaves (clip : (s.slot x).clip = some c) :
    let t := s.failSlot x
    s.KeepsRest t ∧ t.slot x = (s.slot x).failed ∧ t.slot (otherSlot x) = s.slot (otherSlot x) ∧ t.shc = s.shc ∧
      t.deck = s.deck := by
  let u : State := s.floored c.begun
  let v : Slot := { s.slot x with
    command := none, timer := none, waiting := none, releasePending := false, releaseSent := false
    current := none, clip := none, scan := (s.slot x).scan.finish }
  have dropped : s.dropWork x = u.setSlot x v := by
    unfold State.dropWork
    rw [State.removeReader_eq clip, clip, State.updSlot, State.slot_setSlot, State.setSlot_setSlot]
    rfl
  have fails : s.failSlot x = ((u.setSlot x v).setSlotState x .faulted).release := by
    rw [← dropped]
    rfl
  obtain ⟨rest, own, other, shc, deck, -⟩ := u.shutSlot_leaves x v .faulted
  dsimp only
  rw [fails]
  exact ⟨(s.floored_keeps _).trans rest, own, other.trans (State.floored_slot ..), shc, deck⟩

/-- A WRITE is answered ERROR for a slot with an open clip that holds no tag: the fault is logged, and the part is
quiet. -/
theorem exec_writeReply_fails (idle : (s.slot (otherSlot x)).idle = true) (noRequest : s.stop.requests = [])
    (notStopping : s.stop.stopping = false) (sent : (s.slot x).command = some (.write a n d))
    (clip : (s.slot x).clip = some c) (noOpen : (s.slot x).openTag = 0) (noClose : (s.slot x).closeTag = 0)
    (noScan : (s.slot x).scanTag = 0) (asks : asksNoStop s .cardWrite = true) (code : Word) :
    ∃ t, exec (.writeReply e x (.error code)) s = .next t ∧ t.slot x = (s.slot x).failed ∧
      t.flt = ((s.arrive e).fault .cardWrite (slotSource x) code (BitVec.ofNat 32 a)).flt ∧
      t.slot (otherSlot x) = s.slot (otherSlot x) ∧ t.shc = s.shc ∧ t.deck = s.deck ∧
      t.mem = Memory.apply s.mem e.writes := by
  let u : State := (s.arrive e).updSlot x Slot.answered
  let f : State := u.fault .cardWrite (slotSource x) code (BitVec.ofNat 32 a)
  have uOwn : u.slot x = (s.slot x).answered := by rw [State.slot_updSlot, State.arrive_slot]
  have answered : (s.arrive e).writeAnswered x (.error code) = f.failSlot x := by
    have fails : (s.arrive e).writeAnswered x (.error code) =
        State.failSlot (u.slotFault x .cardWrite code (BitVec.ofNat 32 a) true) x := by
      unfold State.writeAnswered
      rw [State.arrive_slot, sent]
      rfl
    rw [fails, State.slotFault_untagged (by rw [uOwn]; exact noOpen) (by rw [uOwn]; exact noClose)
      (by rw [uOwn]; exact noScan)]
  have fSlot (y : SlotId) : f.slot y = u.slot y := by
    cases y
    · exact State.fault_slotA ..
    · exact State.fault_slotB ..
  obtain ⟨rest, own, other, shc, deck⟩ := State.failSlot_leaves (s := f) (x := x) (c := c)
    (by rw [fSlot, uOwn]; exact clip)
  rw [fSlot, uOwn] at own
  rw [fSlot, State.slot_updSlot_other, State.arrive_slot] at other
  have stop : f.stop = s.stop := by
    refine (State.fault_stop _ _ _ ?_).trans (State.updSlot_stop ..)
    exact (asksNoStop_congr (State.updSlot_flt ..) (State.updSlot_stop ..) _).trans asks
  have calm : quiet (f.failSlot x) = true := by
    refine (quiet_iff (x := x)).mpr ?_
    rw [own, other, rest.stop, stop]
    exact ⟨by simp [Slot.idle, Slot.failed], idle, noRequest, notStopping⟩
  have settled : (f.failSlot x).settle = (f.failSlot x).release := State.settle_quiet calm
  refine ⟨(f.failSlot x).release.judgeSlots (s.arrive e), ?_, ?_, ?_, ?_, ?_, ?_, ?_⟩
  · exact congrArg Host.Outcome.next
      ((congrArg (fun t : State => t.settle.judgeSlots (s.arrive e)) answered).trans
        (congrArg (fun t : State => t.judgeSlots (s.arrive e)) settled))
  · rw [State.judgeSlots_slot, State.slot_release, own]
    rfl
  · rw [State.judgeSlots_flt]
    refine rest.flt.trans ?_
    rw [State.fault_flt, State.fault_flt]
    cases x <;> rfl
  · rw [State.judgeSlots_slot, State.slot_release, other]
  · rw [State.judgeSlots_shc]
    exact shc.trans ((State.fault_shc ..).trans (State.updSlot_shc ..))
  · rw [State.judgeSlots_deck]
    exact deck.trans ((State.fault_deck ..).trans (State.updSlot_deck ..))
  · rw [State.judgeSlots_mem]
    exact rest.mem.trans ((State.fault_mem ..).trans (State.updSlot_mem ..))

end

/-- Settles O49, reply by reply. -/
theorem writeAndFlushAnswered : Obligations.WriteAndFlushAnswered := by
  refine ⟨fun e x s idle shut noRequest notStopping => ?replies,
    fun e x s c a n d o idle shut noRequest notStopping direct => ?opens,
    fun e x s c idle shut noRequest notStopping direct => ?closes, fun x s c o clip named order waits => ?openWaits,
    fun x s frames o named order waits => ?closeWaits⟩
  case replies =>
    intro v
    refine ⟨fun c a n d sent closing clip closed all opened unsent => ?flushes,
      fun c a n d code sent clip isOpen noOpen noClose noScan asks => ?fails,
      fun sent noClip pending st guard => ?releases, fun c sent clip closing opened noClose noOpen noRelease => ?ends⟩
    case flushes =>
      refine ⟨_, exec_writeReply_flushes idle noRequest notStopping sent closing clip closed all opened unsent,
        ?_, ?_, ?_⟩
      · rw [State.slot_release, State.slot_setSlot]
        rfl
      · rw [State.slot_release, State.slot_setSlot_other, State.slot_release, State.slot_setSlot_other,
          State.arrive_slot]
      · cases x <;> exact ⟨rfl, rfl, rfl, rfl, rfl⟩
    case fails =>
      obtain ⟨t, runs, own, flt, rest⟩ :=
        exec_writeReply_fails (e := e) idle noRequest notStopping sent clip noOpen noClose noScan asks code
      refine ⟨t, runs, ?_⟩
      rw [own]
      refine ⟨rfl, rfl, rfl, rfl, rfl, flt.trans ?_, rest⟩
      cases x <;> rfl
    case releases => exact exec_flushReply_releases idle noRequest notStopping sent noClip st guard
    case ends =>
      have closes : s.EndsClose x c := ⟨idle, shut, noRequest, notStopping, sent, clip, closing, noRelease⟩
      have taken : (s.arrive e).flushTaken x c = (s.arrive e).updSlot x Slot.answered := by
        unfold State.flushTaken State.ordersTake
        rw [if_pos opened]
        exact State.closeDone_none (by rw [State.slot_updSlot, State.arrive_slot]; exact noClose) _
      obtain ⟨t, runs, own, other, shc, deck, guard, floor, flt, mem⟩ := closes.ends e
      rw [taken, State.slot_updSlot_other] at other
      rw [taken] at shc deck
      refine ⟨t, runs, own.trans ?_, guard, floor, other.trans (State.arrive_slot ..),
        shc.trans (State.updSlot_shc ..), flt, deck.trans (State.updSlot_deck ..), mem⟩
      exact Slot.closed_untagged (v := v.answered) noOpen noClose
  case opens =>
    intro v sent recording clip placed notDone whole named order last notClosed few noEnd rests
    obtain ⟨t, runs, own, deck, flt, shc⟩ := exec_writeReply_opens (e := e) idle noRequest notStopping sent recording clip
      placed notDone whole named order last notClosed few noEnd rests
    have before : ((s.arrive e).setSlot x (v.written c.answered)).shc = s.shc := State.setSlot_shc ..
    have record (i : Nat) := State.tagRec_congr before i
    refine ⟨t, runs, own, deck, flt, fun flying => ?_, fun i named spared => ?_⟩
    · have ended := State.openLast_openEnded (by rw [before]; exact direct) x c.answered o
        ((State.inFlight_congr (record _)).trans flying)
      rw [State.ended_congr (record _) (State.setSlot_ftu ..)] at ended
      exact (State.tagRec_congr shc _).trans ended
    · exact (State.tagRec_congr shc i).trans
        ((State.openLast_tagRec x c.answered o (by omega) spared).trans (record i))
  case closes =>
    intro v sent clip closing noRelease
    have closes : s.EndsClose x c := ⟨idle, shut, noRequest, notStopping, sent, clip, closing, noRelease⟩
    obtain ⟨t, runs, own, -, shc, deck, -, -, flt, mem⟩ := closes.ends e
    have clip' : ((s.arrive e).slot x).clip = some c := by rw [State.arrive_slot]; exact clip
    have slot : (s.arrive e).slot x = s.slot x := State.arrive_slot ..
    obtain ⟨opens, shuts⟩ := State.flushTaken_ends clip' direct
    obtain ⟨-, -, -, tags⟩ := State.answered_ordersTake clip'
    rw [slot] at opens shuts
    refine ⟨t, runs, own, fun o notDone named order last => ?_, fun o named order last apart => ?_,
      fun i named spared spared' => ?_, flt, mem⟩
    · obtain ⟨none, ended⟩ := opens o notDone named order last
      exact ⟨deck ▸ none, fun flying => (State.tagRec_congr shc _).trans (ended flying)⟩
    · obtain ⟨none, ended⟩ := shuts o named order last apart
      exact ⟨deck ▸ none, fun flying => (State.tagRec_congr shc _).trans (ended flying)⟩
    · exact (State.tagRec_congr shc i).trans (tags i (by omega) spared spared')
  case openWaits => exact State.openDone_waits clip named order waits
  case closeWaits => exact State.closeDone_waits named order waits frames

end Sys2Proof.Machine
end

