-- ==== Sys2Proof/Proofs/TagsCaptured.lean ====
section
/-! PROOFS. What an occurrence with a completion makes of the Fault Log and of the tag (R20, R202, R203). -/

namespace Sys2Proof.Machine

section
variable {s t u : State} {k i : FaultKind} {o : Occurrence} {c : Completion}

/-- The part with the capture record of a new kind filled. -/
def State.filled (s : State) (o : Occurrence) : State :=
  { s with flt := s.flt.setEntry o.kind { s.flt.entry o.kind with capture := s.captureOf o } }

theorem State.capture_stood (completion : o.completion = some c) : s.capture true o = s.complete ⟨none, c⟩ := by
  unfold State.capture
  rw [completion]
  rfl

theorem State.capture_fills (completion : o.completion = some c) :
    s.capture false o = (s.filled o).complete ⟨some o.kind, c⟩ := by
  unfold State.capture
  rw [completion]
  rfl

/-- A capture record that names a tag is the record of its kind alone. -/
theorem Flt.entry_nameTag {f : Flt} (whole : f.kinds.length = 26) (k : FaultKind) (tag : Nat) :
    (f.nameTag k tag).entry k = { f.entry k with capture := { (f.entry k).capture with tag := tag } } :=
  Flt.entry_setEntry_whole whole ..

/-- What stands of a kind does not depend on its capture record. -/
theorem Flt.stands_setEntry {f : Flt} (whole : f.kinds.length = 26) (k : FaultKind) (capture : Capture) :
    (f.setEntry k { f.entry k with capture := capture }).stands k = f.stands k := by
  unfold Flt.stands
  rw [Flt.entry_setEntry_whole whole]
  rfl

/-- A completion held by a filled capture record: the record names the tag, if that was in flight. -/
theorem State.complete_filled (whole : s.flt.kinds.length = 26) (direct : s.shc.job = none)
    (stands : s.flt.stands o.kind = true) :
    let t := (s.filled o).complete ⟨some o.kind, c⟩
    t.flt.stands o.kind = true ∧ (t.flt.entry o.kind).count = (s.flt.entry o.kind).count ∧
      (t.flt.entry o.kind).capture = { s.captureOf o with tag := if s.inFlight c.tag then c.tag else 0 } ∧
      (s.inFlight c.tag = true →
        t.tagRec c.tag = s.ended c.tag .held c.outcome c.word1 c.word2 c.word3) := by
  let f : Flt := s.flt.setEntry o.kind { s.flt.entry o.kind with capture := s.captureOf o }
  have fWhole : f.kinds.length = 26 := (Flt.length_setEntry ..).trans whole
  have entry : f.entry o.kind = { s.flt.entry o.kind with capture := s.captureOf o } :=
    Flt.entry_setEntry_whole whole ..
  have fStands : f.stands o.kind = true := (Flt.stands_setEntry whole ..).trans stands
  have takes : f.takesTag o.kind = true := Flt.takesTag_iff.mpr ⟨fStands, by rw [entry]; rfl⟩
  dsimp only
  rw [State.complete_direct (s := s.filled o) direct]
  cases flying : s.inFlight c.tag with
  | false =>
    rw [State.recordCompletion_discards (s := s.filled o) (h := ⟨some o.kind, c⟩) flying]
    refine ⟨fStands, ?_, ?_, nofun⟩
    · show (f.entry o.kind).count = _
      rw [entry]
    · show (f.entry o.kind).capture = _
      rw [entry]
      rfl
  | true =>
    have flying' : (s.filled o).inFlight (HeldCompletion.mk (some o.kind) c).completion.tag = true := flying
    have ended := State.tagRec_recordCompletion_same flying'
    have named : ((s.filled o).recordCompletion ⟨some o.kind, c⟩).flt = f.nameTag o.kind c.tag := by
      rw [State.recordCompletion_of_inFlight flying']
      exact if_pos takes
    have held : (s.filled o).takesHold ⟨some o.kind, c⟩ = true := takes
    rw [held] at ended
    have tagged := Flt.entry_nameTag fWhole o.kind c.tag
    rw [named, tagged, entry]
    refine ⟨?_, rfl, rfl, fun _ => ended⟩
    exact (Flt.stands_setEntry fWhole ..).trans fStands

/-- An occurrence with a completion is logged, naming the tag if that was in flight; the tag ends, HELD where its kind
did not stand (R202, R203). -/
theorem State.logged_occur (whole : s.flt.kinds.length = 26) (direct : s.shc.job = none)
    (completion : o.completion = some c) :
    logged s (s.occur o) o.kind o.source o.detail1 o.detail2 c.tag ∧
      (s.inFlight c.tag = true → (s.occur o).tagRec c.tag =
        s.ended c.tag (if s.flt.stands o.kind then .done else .held) c.outcome c.word1 c.word2 c.word3) := by
  have placed := Flt.entry_countAndPlace whole o.kind
  have stands := Flt.stands_countAndPlace whole o.kind
  have placedWhole := (Flt.length_countAndPlace s.flt o.kind).trans whole
  obtain ⟨flt, shc, -, ftu⟩ := s.told_eq o (s.flt.enters o.kind)
  unfold logged State.occur
  dsimp only
  rw [State.route_flt, State.tagRec_congr (State.route_shc ..)]
  generalize (if s.flt.enters o.kind = true then
    State.noticeEntered { s with flt := s.flt.countAndPlace o.kind } o.kind
    else { s with flt := s.flt.countAndPlace o.kind }) = u at flt shc ftu ⊢
  have record := State.tagRec_congr shc c.tag
  have flies := State.inFlight_congr record
  rw [← flt] at placed stands placedWhole
  have direct' : u.shc.job = none := by rw [shc]; exact direct
  rw [← flies, ← State.ended_congr record ftu]
  cases stood : s.flt.stands o.kind with
  | true =>
    rw [State.capture_stood completion, State.complete_flt, if_pos rfl, if_pos rfl, placed]
    exact ⟨⟨stands, satSucc_eq .., rfl⟩, fun flying => State.tagRec_complete_same direct' flying⟩
  | false =>
    obtain ⟨stands', count, capture, ended⟩ := State.complete_filled (c := c) placedWhole direct' stands
    rw [State.capture_fills completion, count, capture, if_neg Bool.false_ne_true, if_neg Bool.false_ne_true, placed]
    refine ⟨⟨stands', satSucc_eq .., ?_⟩, ended⟩
    unfold State.captureOf State.frame
    rw [ftu]

/-! ## The other kinds -/

/-- Every kind but one has its entry, and stands, as before. -/
def Flt.SameBut (f g : Flt) (k : FaultKind) : Prop :=
  ∀ i, i ≠ k → g.entry i = f.entry i ∧ g.stands i = f.stands i

theorem Flt.SameBut.trans {f g h : Flt} (one : f.SameBut g k) (two : g.SameBut h k) : f.SameBut h k := fun i other =>
  ⟨(two i other).1.trans (one i other).1, (two i other).2.trans (one i other).2⟩

theorem Flt.sameBut_setEntry (f : Flt) (k : FaultKind) (r : FaultRec) : f.SameBut (f.setEntry k r) k := fun i other => by
  have entry := Flt.entry_setEntry_ne f k i r other
  refine ⟨entry, ?_⟩
  unfold Flt.stands
  rw [entry]
  rfl

theorem Flt.sameBut_countAndPlace (f : Flt) (k : FaultKind) : f.SameBut (f.countAndPlace k) k := fun i other => by
  have entry := Flt.entry_countAndPlace_ne f other
  refine ⟨entry, ?_⟩
  unfold Flt.stands
  rw [entry]
  cases first : f.first with
  | none => simp [Flt.countAndPlace, first, other.symm]
  | some j => simp [Flt.countAndPlace, first, Flt.setEntry]

theorem State.sameBut_complete (s : State) (k : FaultKind) {h : HeldCompletion} (hold : h.hold = none ∨ h.hold = some k) :
    s.flt.SameBut (s.complete h).flt k := by
  have same : s.flt.SameBut s.flt k := fun _ _ => ⟨rfl, rfl⟩
  unfold State.complete
  split
  · exact same
  · cases flying : s.inFlight h.completion.tag with
    | false =>
      rw [State.recordCompletion_discards flying]
      exact same
    | true =>
      rw [State.recordCompletion_of_inFlight flying]
      obtain none | held := hold
      · rw [none]
        exact same
      · rw [held]
        dsimp only
        split
        · exact Flt.sameBut_setEntry _ _ _
        · exact same

/-- An occurrence leaves every other kind as it was. -/
theorem State.sameBut_occur (s : State) (o : Occurrence) : s.flt.SameBut (s.occur o).flt o.kind := by
  obtain ⟨flt, -, -, -⟩ := s.told_eq o (s.flt.enters o.kind)
  unfold State.occur
  dsimp only
  rw [State.route_flt]
  generalize (if s.flt.enters o.kind = true then
    State.noticeEntered { s with flt := s.flt.countAndPlace o.kind } o.kind
    else { s with flt := s.flt.countAndPlace o.kind }) = u at flt ⊢
  refine (Flt.sameBut_countAndPlace s.flt o.kind).trans (flt ▸ ?_)
  have filled : u.flt.SameBut (u.filled o).flt o.kind := Flt.sameBut_setEntry _ _ _
  cases completion : o.completion with
  | none =>
    have captured : u.capture (s.flt.stands o.kind) o = if s.flt.stands o.kind then u else u.filled o := by
      unfold State.capture
      rw [completion]
      rfl
    rw [captured]
    split
    · exact fun _ _ => ⟨rfl, rfl⟩
    · exact filled
  | some c =>
    cases s.flt.stands o.kind with
    | true =>
      rw [State.capture_stood completion]
      exact u.sameBut_complete o.kind (.inl rfl)
    | false =>
      rw [State.capture_fills completion]
      exact filled.trans ((u.filled o).sameBut_complete o.kind (.inr rfl))

end

end Sys2Proof.Machine
end

