-- ==== Sys2Proof/Proofs/ClipRules.lean ====
section
/-! PROOFS. What opening and closing the clip of a slot come to (R147, R156 to R158, R170), and what the writer does at the
end of its room (R151, R152, R155, R156, R223). -/

namespace Sys2Proof.Machine

section
variable {s t : State} {x : SlotId} {v : Slot} {c : Clip} {k : FrameNo} {need : Nat}

/-! ## The guard follows the slots (R170) -/

/-- The part whose guard has seen a slot enter RECORDING. -/
def State.watches (s : State) : State :=
  { s with cgd := { s.cgd with st := if s.cgd.st = .armed then .watching else s.cgd.st } }

theorem State.watches_setSlot (s : State) (x : SlotId) (v : Slot) : (s.setSlot x v).watches = s.watches.setSlot x v := by
  cases x <;> rfl

/-- A guard that watches goes on watching while a clip is open. -/
theorem State.watches_watches (s : State) : s.watches.watches = s.watches := by
  unfold State.watches
  cases s.cgd.st <;> rfl

theorem State.clipOpen_setSlot (s : State) (x : SlotId) (isOpen : v.clipOpen = true) :
    (s.setSlot x v).clipOpen = true := by
  cases x
  · exact Bool.or_eq_true _ _ ▸ .inl isOpen
  · exact Bool.or_eq_true _ _ ▸ .inr isOpen

/-- A slot enters RECORDING. -/
theorem State.setSlotState_recording (before : (s.slot x).st ≠ .recording) :
    s.setSlotState x .recording = s.watches.setSlot x { s.slot x with st := .recording } := by
  have isOpen := s.clipOpen_setSlot x (v := { s.slot x with st := .recording }) rfl
  have entered : ((SlotState.recording == SlotState.recording) && (s.slot x).st != .recording) = true := by
    simp [before]
  unfold State.setSlotState
  dsimp only
  rw [isOpen, entered, State.setSlot_cgd]
  cases x <;> simp only [State.setSlot, State.watches] <;> cases s.cgd.st <;> rfl

/-- A slot becomes CLOSING: its clip is still open. -/
theorem State.setSlotState_closing (s : State) (x : SlotId) :
    s.setSlotState x .closing = s.setSlot x { s.slot x with st := .closing } := by
  have isOpen := s.clipOpen_setSlot x (v := { s.slot x with st := .closing }) rfl
  have stays (g : GuardState) : g.follow false true = g := by cases g <;> rfl
  unfold State.setSlotState
  dsimp only
  rw [isOpen]
  exact congrArg (fun g => { s.setSlot x { s.slot x with st := .closing } with
    cgd := { (s.setSlot x { s.slot x with st := .closing }).cgd with st := g } }) (stays _)

/-! ## Opening and closing a clip (R147, R157, R158) -/

/-- The slot that begins a clip. -/
def Slot.begins (v : Slot) (c : Clip) (e : ClipExtent) (q : List Extent) (tag : Nat) : Slot :=
  { v with st := .recording, clip := some c, current := some ⟨e.extent, e.first⟩, queue := q, openTag := tag }

theorem State.openClip_eq {e : ClipExtent} {q : List Extent} (before : (s.slot x).st ≠ .recording)
    (room : (s.slot x).firstExtent = some (e, q)) (id prev : Word) (continuation : Bool) (first : FrameNo) (tag : Nat) :
    s.openClip x id prev continuation first tag = s.watches.setSlot x ((s.slot x).begins
      (Clip.begin id prev continuation first s.frame s.ftu.nextFormat.rate e) e q tag) := by
  unfold State.openClip
  rw [room]
  dsimp only
  rw [State.setSlotState_recording (by rw [State.slot_updSlot]; exact before), State.slot_updSlot, State.updSlot,
    State.watches_setSlot, State.setSlot_setSlot]
  rfl

/-- The clip that closes at an end point. -/
def Clip.closes (c : Clip) (newest : FrameNo) : Clip :=
  { c with endPoint := some newest, retry := c.paused, paused := false }

theorem State.closeClip_eq (clip : (s.slot x).clip = some c) (newest : FrameNo) :
    s.closeClip x (some newest) = s.setSlot x { s.slot x with st := .closing, clip := some (c.closes newest) } := by
  unfold State.closeClip
  rw [State.setSlotState_closing, State.updClip_eq clip, State.slot_setSlot, State.setSlot_setSlot]
  rfl

/-! ## The writer at the end of its room -/

/-- The writer of a RECORDING slot has come to group `k`, or to its OPEN block, which needs this many bytes of room. -/
structure State.WriterNeeds (s : State) (x : SlotId) (c : Clip) (k : FrameNo) (need : Nat) : Prop where
  recording : (s.slot x).st = .recording
  clip : (s.slot x).clip = some c
  notClosed : c.closePlaced = false
  notPaused : c.paused = false
  noEnd : c.endPoint = none
  comes : (c.openPlaced = true ∧ k = c.next ∧
      (s.sta.index.find? fun r => r.frame == k).map (fun r => r.length + 512) = some need) ∨
    (c.openPlaced = false ∧ k = c.first ∧ need = (c.openBlock x s.deck.mode).length + 512)

/-- What does not fit closes the clip where its room is bounded, and pauses the writer where it is not (R151, R152,
R155). -/
theorem State.WriterNeeds.step (h : s.WriterNeeds x c k need) (short : ((s.slot x).heldRoom c).bytes < need) :
    s.writerStep x = some (if ((s.slot x).heldRoom c).bound.isSome then s.closeFull x c k need ((s.slot x).heldRoom c)
      else s.pauseWriter x c k ((s.slot x).heldRoom c)) := by
  have isOpen : (s.slot x).clipOpen = true := by simp [Slot.clipOpen, h.recording]
  obtain ⟨placed, rfl, found⟩ | ⟨notPlaced, rfl, rfl⟩ := h.comes
  · obtain ⟨r, inIndex, rfl⟩ := Option.map_eq_some_iff.mp found
    have tooLong : ¬ r.length + 512 ≤ ((s.slot x).heldRoom c).bytes := Nat.not_le.mpr short
    cases bounded : ((s.slot x).heldRoom c).bound.isSome <;>
      simp [State.writerStep, h.clip, h.notClosed, h.notPaused, isOpen, placed, h.noEnd, inIndex, tooLong, h.recording,
        bounded]
  · have tooLong : ¬ (c.openBlock x s.deck.mode).length + 512 ≤ ((s.slot x).heldRoom c).bytes := Nat.not_le.mpr short
    cases bounded : ((s.slot x).heldRoom c).bound.isSome <;>
      simp [State.writerStep, h.clip, h.notClosed, h.notPaused, isOpen, notPlaced, tooLong, h.recording, bounded]

end

end Sys2Proof.Machine
end

