-- ==== Sys2Proof/Proofs/RoomRunsOut.lean ====
section
/-! PROOFS. A clip closes at the end of its bounded room, and relays to the other slot or fails to (R151, R155, R156,
R223, log 55): the second part of O53. -/

namespace Sys2Proof.Machine

section
variable {s t u : State} {x : SlotId} {v : Slot} {c d : Clip} {k : FrameNo} {need : Nat} {room : Room}

/-! ## CLIP_LIMIT (log 55) -/

/-- The room is bounded by the number of extents alone, and what is held beyond would do. -/
def Room.limits (room : Room) (need : Nat) : Bool :=
  room.bound == some .limit && decide (need ≤ room.bytes + room.beyond) && decide (0 < room.beyond)

theorem Room.limits_iff : room.limits need = true ↔
    room.bound = some .limit ∧ 0 < room.beyond ∧ need ≤ room.bytes + room.beyond := by
  simp only [Room.limits, Bool.and_eq_true, beq_iff_eq, decide_eq_true_eq]
  tauto

/-- The part that logs CLIP_LIMIT, if the room is limited so. -/
def State.logsLimit (s : State) (x : SlotId) (k : FrameNo) (limited : Bool) : State :=
  if limited then s.fault .clipLimit (slotSource x) k 64 else s

/-- CLIP_LIMIT leaves the slots, the deck, the tags, the guard and every other kind. -/
theorem State.logsLimit_leaves (s : State) (x : SlotId) (k : FrameNo) (limited : Bool) :
    let t := s.logsLimit x k limited
    (∀ y, t.slot y = s.slot y) ∧ t.deck = s.deck ∧ t.ftu = s.ftu ∧ t.shc = s.shc ∧ t.cgd = s.cgd ∧
      s.flt.SameBut t.flt .clipLimit ∧ t.flt.kinds.length = s.flt.kinds.length := by
  cases limited with
  | false => exact ⟨fun _ => rfl, rfl, rfl, rfl, rfl, fun _ _ => ⟨rfl, rfl⟩, rfl⟩
  | true =>
    refine ⟨fun y => ?_, State.fault_deck .., State.fault_ftu .., State.fault_shc .., State.fault_cgd ..,
      s.sameBut_occur ⟨.clipLimit, slotSource x, k, 64, none⟩, ?_⟩
    · cases y
      · exact State.fault_slotA ..
      · exact State.fault_slotB ..
    · show (s.fault .clipLimit (slotSource x) k 64).flt.kinds.length = _
      rw [State.fault_flt]
      split
      · exact Flt.length_countAndPlace ..
      · rw [Flt.length_setEntry, Flt.length_countAndPlace]

theorem State.logsLimit_logs (whole : s.flt.kinds.length = 26) (x : SlotId) (k : FrameNo) {limited : Bool}
    (yes : limited = true) : logged s (s.logsLimit x k limited) .clipLimit (slotSource x) k 64 0 := by
  rw [yes]
  exact State.logged_fault whole ..

/-- What is logged of a kind stays so while its entry, and that it stands, stay. -/
theorem logged_of_same {k : FaultKind} {source : FaultSource} {d1 d2 : Word} {tag : Nat}
    (logs : logged s t k source d1 d2 tag) (entry : u.flt.entry k = t.flt.entry k)
    (stands : u.flt.stands k = t.flt.stands k) : logged s u k source d1 d2 tag := by
  unfold logged at logs ⊢
  rw [entry, stands]
  exact logs

/-- What is logged depends on the Fault Log, the tags and the frame of the state before alone. -/
theorem logged_from {k : FaultKind} {source : FaultSource} {d1 d2 : Word} {tag : Nat} (logs : logged u t k source d1 d2 tag)
    (entry : u.flt.entry k = s.flt.entry k) (stands : u.flt.stands k = s.flt.stands k) (shc : u.shc = s.shc)
    (ftu : u.ftu = s.ftu) : logged s t k source d1 d2 tag := by
  have flies : u.inFlight tag = s.inFlight tag := State.inFlight_congr (State.tagRec_congr shc tag)
  unfold logged at logs ⊢
  rw [entry, stands, ftu, flies] at logs
  exact logs

/-! ## The clip closes full (R151, R155) -/

/-- The slot whose clip closes before group `k`. -/
def Slot.closesFull (v : Slot) (c : Clip) (k : FrameNo) (room : Room) : Slot :=
  { v with
    st := .closing
    clip := some { c with endPoint := some (k - 1), retry := false, fullAfter := room.bound == some .final } }

/-- The part in which slot `x` closes its clip before group `k`. -/
def State.closedFull (s : State) (x : SlotId) (c : Clip) (k : FrameNo) (need : Nat) (room : Room) : State :=
  (s.logsLimit x k (room.limits need)).setSlot x ((s.slot x).closesFull c k room)

theorem State.closeFull_eq (clip : (s.slot x).clip = some c) (notPaused : c.paused = false) : s.closeFull x c k need room =
    if s.deck.mode = .relay then (s.closedFull x c k need room).relay x c.id k else s.closedFull x c k need room := by
  have own : (s.logsLimit x k (room.limits need)).slot x = s.slot x := (s.logsLimit_leaves x k _).1 x
  have clip' : ((s.logsLimit x k (room.limits need)).slot x).clip = some c := by rw [own]; exact clip
  have same : ({ c with fullAfter := room.bound == some .final } : Clip).closes (k - 1) =
      { c with endPoint := some (k - 1), retry := false, fullAfter := room.bound == some .final } := by
    unfold Clip.closes
    rw [notPaused]
  have closed : ((s.logsLimit x k (room.limits need)).updClip x fun c =>
      { c with fullAfter := room.bound == some .final }).closeClip x (some (k - 1)) = s.closedFull x c k need room := by
    rw [State.updClip_eq clip', State.closeClip_eq (by rw [State.slot_setSlot]), State.slot_setSlot,
      State.setSlot_setSlot, own, same]
    rfl
  rw [← closed]
  rfl

/-- What the close leaves. -/
theorem State.closedFull_leaves (s : State) (x : SlotId) (c : Clip) (k : FrameNo) (need : Nat) (room : Room) :
    let t := s.closedFull x c k need room
    t.slot x = (s.slot x).closesFull c k room ∧ t.slot (otherSlot x) = s.slot (otherSlot x) ∧ t.deck = s.deck ∧
      t.ftu = s.ftu ∧ t.shc = s.shc ∧ t.cgd = s.cgd ∧ t.flt = (s.logsLimit x k (room.limits need)).flt := by
  obtain ⟨slots, deck, ftu, shc, cgd, -, -⟩ := s.logsLimit_leaves x k (room.limits need)
  exact ⟨State.slot_setSlot .., (State.slot_setSlot_other ..).trans (slots _), (State.setSlot_deck ..).trans deck,
    (State.setSlot_ftu ..).trans ftu, (State.setSlot_shc ..).trans shc, (State.setSlot_cgd ..).trans cgd,
    State.setSlot_flt ..⟩

/-! ## The relay (R156) -/

theorem State.canContinue_iff {y : SlotId} : s.canContinue y = true ↔ (s.slot y).st = .ready ∧
    (s.slot y).releasePending = false ∧ ((s.slot y).current ≠ none ∨ (s.slot y).queue ≠ []) ∧ s.cgd.st ≠ .tripped := by
  simp [State.canContinue, Slot.holdsRoom, and_assoc, Option.isSome_iff_ne_none]

/-- A slot that holds room has an extent to begin a clip in. -/
theorem Slot.firstExtent_of_room (room : v.current ≠ none ∨ v.queue ≠ []) : ∃ e q, v.firstExtent = some (e, q) := by
  unfold Slot.firstExtent
  cases current : v.current with
  | some e => exact ⟨_, _, rfl⟩
  | none =>
    cases queue : v.queue with
    | nil => simp [current, queue] at room
    | cons e q => exact ⟨_, _, rfl⟩

/-- The recording goes on in the other slot. -/
theorem State.relay_continues (can : s.canContinue (otherSlot x) = true) (clip : (s.slot x).clip = some d) (id : Word) :
    ∃ e q, s.relay x id k = State.setSlot (State.watches (State.setSlot
        { s with deck := { s.deck with relayId := nextRelayId s.deck.relayId } } x
        { s.slot x with clip := some { d with relayContinued := true, nextId := s.deck.relayId } }))
      (otherSlot x) ((s.slot (otherSlot x)).begins
        (Clip.begin s.deck.relayId id true k s.frame s.ftu.nextFormat.rate e) e q 0) := by
  obtain ⟨ready, -, room, -⟩ := State.canContinue_iff.mp can
  obtain ⟨e, q, first⟩ := Slot.firstExtent_of_room room
  let t : State := State.setSlot { s with deck := { s.deck with relayId := nextRelayId s.deck.relayId } } x
    { s.slot x with clip := some { d with relayContinued := true, nextId := s.deck.relayId } }
  have other : t.slot (otherSlot x) = s.slot (otherSlot x) := (State.slot_setSlot_other ..).trans (by cases x <;> rfl)
  have relays : s.relay x id k = t.openClip (otherSlot x) s.deck.relayId id true k 0 := by
    unfold State.relay
    rw [if_pos can]
    dsimp only
    rw [State.updClip_eq clip]
    cases x <;> rfl
  refine ⟨e, q, relays.trans ?_⟩
  rw [State.openClip_eq (by rw [other, ready]; decide) (by rw [other]; exact first), other]
  cases x <;> rfl

/-- The occurrence of a relay that fails. -/
def State.relayFault (s : State) (x : SlotId) (k : FrameNo) (tag : Nat) : Occurrence :=
  ⟨.relayFailed, slotSource x, BitVec.ofNat 32 (s.slot (otherSlot x)).st.code, k,
    if tag = 0 then none else some ⟨tag, .relayFailed, 0, 0, 0⟩⟩

/-- The relay fails: the slot holds no open tag, and the occurrence is logged. -/
theorem State.relayFailed_leaves (s : State) (x : SlotId) (k : FrameNo) :
    let t := s.relayFailed x k
    t.slot x = { s.slot x with openTag := 0 } ∧ t.slot (otherSlot x) = s.slot (otherSlot x) ∧
      t.deck.relayId = s.deck.relayId ∧ ∃ u : State, t = u.occur (s.relayFault x k (s.slot x).openTag) ∧
        u.flt = s.flt ∧ u.shc = s.shc ∧ u.ftu = s.ftu := by
  by_cases untagged : (s.slot x).openTag = 0
  · have fails : s.relayFailed x k = s.occur (s.relayFault x k (s.slot x).openTag) := by
      unfold State.relayFailed State.relayFault
      dsimp only
      rw [if_pos untagged, if_pos untagged]
      rfl
    dsimp only
    rw [fails]
    refine ⟨?_, ?_, by rw [State.occur_deck], s, rfl, rfl, rfl, rfl⟩
    · rw [← untagged]
      cases x
      · exact State.occur_slotA ..
      · exact State.occur_slotB ..
    · cases x
      · exact State.occur_slotB ..
      · exact State.occur_slotA ..
  · let u : State := State.setSlot { s with deck := { s.deck with openOrder := none } } x { s.slot x with openTag := 0 }
    have fails : s.relayFailed x k = u.occur (s.relayFault x k (s.slot x).openTag) := by
      unfold State.relayFailed State.relayFault
      dsimp only
      rw [if_neg untagged, if_neg untagged]
      cases x <;> rfl
    dsimp only
    rw [fails]
    refine ⟨?_, ?_, ?_, u, rfl, State.setSlot_flt .., State.setSlot_shc .., State.setSlot_ftu ..⟩
    · cases x
      · exact State.occur_slotA ..
      · exact State.occur_slotB ..
    · cases x
      · exact State.occur_slotB ..
      · exact State.occur_slotA ..
    · rw [State.occur_deck, State.setSlot_deck]

/-- RELAY_FAILED is logged with the other slot's state, naming the open tag if it was in flight; the tag ends. -/
theorem State.relayFailed_logs (whole : s.flt.kinds.length = 26) (direct : s.shc.job = none) (x : SlotId) (k : FrameNo) :
    let t := s.relayFailed x k
    let tag := (s.slot x).openTag
    logged s t .relayFailed (slotSource x) (BitVec.ofNat 32 (s.slot (otherSlot x)).st.code) k tag ∧
      (s.inFlight tag = true → t.tagRec tag =
        s.ended tag (if s.flt.stands .relayFailed then .done else .held) .relayFailed 0 0 0) ∧
      s.flt.SameBut t.flt .relayFailed := by
  obtain ⟨-, -, -, u, fails, flt, shc, ftu⟩ := s.relayFailed_leaves x k
  have others := u.sameBut_occur (s.relayFault x k (s.slot x).openTag)
  rw [flt] at others
  dsimp only
  rw [fails]
  by_cases untagged : (s.slot x).openTag = 0
  · have occurs : s.relayFault x k (s.slot x).openTag =
        ⟨.relayFailed, slotSource x, BitVec.ofNat 32 (s.slot (otherSlot x)).st.code, k, none⟩ := by
      unfold State.relayFault
      rw [if_pos untagged]
    refine ⟨?_, fun flying => absurd untagged (State.inFlight_iff.mp flying).1, others⟩
    have logs := State.logged_fault (s := u) (by rw [flt]; exact whole) .relayFailed (slotSource x)
      (BitVec.ofNat 32 (s.slot (otherSlot x)).st.code) k
    rw [occurs, untagged]
    exact logged_from logs (by rw [flt]) (by rw [flt]) shc ftu
  · have logs := State.logged_occur (s := u) (o := s.relayFault x k (s.slot x).openTag) (by rw [flt]; exact whole)
      (by rw [shc]; exact direct) (if_neg untagged)
    obtain ⟨logs, ends⟩ := logs
    have record := State.tagRec_congr shc (s.slot x).openTag
    refine ⟨logged_from logs (by rw [flt]) (by rw [flt]) shc ftu, fun flying => ?_, others⟩
    have ended := ends ((State.inFlight_congr record).trans flying)
    rw [State.ended_congr record ftu, flt] at ended
    exact ended

/-! ## The clip at the end of its bounded room -/

/-- CLIP_LIMIT is logged if and only if the room is limited so, whatever RELAY_FAILED makes of its own kind. -/
theorem State.closeFull_limit (whole : s.flt.kinds.length = 26) {limited : Bool}
    (flt : (s.logsLimit x k limited).flt.SameBut t.flt .relayFailed) :
    (limited = true → logged s t .clipLimit (slotSource x) k 64 0) ∧
      (limited = false → t.flt.entry .clipLimit = s.flt.entry .clipLimit) := by
  obtain ⟨entry, stands⟩ := flt .clipLimit (by decide)
  refine ⟨fun yes => logged_of_same (State.logsLimit_logs whole x k yes) entry stands, fun no => ?_⟩
  rw [entry, no]
  rfl

/-- Beside the modes that relay the clip closes, and nothing else moves (R155). -/
theorem State.closeFull_stops (clip : (s.slot x).clip = some c) (notPaused : c.paused = false)
    (mode : s.deck.mode ≠ .relay) :
    let t := s.closeFull x c k need room
    t.slot x = (s.slot x).closesFull c k room ∧ t.slot (otherSlot x) = s.slot (otherSlot x) ∧ t.deck = s.deck ∧
      t.flt = (s.logsLimit x k (room.limits need)).flt := by
  obtain ⟨own, other, deck, -, -, -, flt⟩ := s.closedFull_leaves x c k need room
  dsimp only
  rw [State.closeFull_eq clip notPaused, if_neg mode]
  exact ⟨own, other, deck, flt⟩

/-- The part after the close can go on in the other slot if the part before it could. -/
theorem State.canContinue_closedFull : (s.closedFull x c k need room).canContinue (otherSlot x) = true ↔
    s.canContinue (otherSlot x) = true := by
  obtain ⟨-, other, -, -, -, cgd, -⟩ := s.closedFull_leaves x c k need room
  rw [State.canContinue_iff, State.canContinue_iff, other, cgd]

/-- In RELAY the recording goes on in the other slot from group `k` (R156). -/
theorem State.closeFull_relays (clip : (s.slot x).clip = some c) (notPaused : c.paused = false)
    (mode : s.deck.mode = .relay) (can : s.canContinue (otherSlot x) = true) :
    let t := s.closeFull x c k need room
    t.slot x = (s.slot x).closesFull { c with relayContinued := true, nextId := s.deck.relayId } k room ∧
      t.deck = { s.deck with relayId := nextRelayId s.deck.relayId } ∧
      (∃ e q, t.slot (otherSlot x) = (s.slot (otherSlot x)).begins
        (Clip.begin s.deck.relayId c.id true k s.frame s.ftu.nextFormat.rate e) e q 0) ∧
      t.flt = (s.logsLimit x k (room.limits need)).flt := by
  let u : State := s.closedFull x c k need room
  obtain ⟨own, other, deck, ftu, -, -, flt⟩ := s.closedFull_leaves x c k need room
  obtain ⟨e, q, relays⟩ := State.relay_continues (s := u) (x := x) (k := k)
    (d := { c with endPoint := some (k - 1), retry := false, fullAfter := room.bound == some .final })
    (State.canContinue_closedFull.mpr can) (by rw [own]; rfl) c.id
  have relays := (State.closeFull_eq (k := k) (need := need) (room := room) clip notPaused).trans
    ((if_pos mode).trans relays)
  have frame : u.frame = s.frame := congrArg Ftu.counter ftu
  rw [frame, ftu, other, own, deck] at relays
  dsimp only
  rw [relays]
  refine ⟨?_, ?_, ⟨e, q, State.slot_setSlot ..⟩, ?_⟩
  · cases x <;> rfl
  · rw [State.setSlot_deck]
    show (State.setSlot _ x _).deck = _
    rw [State.setSlot_deck]
  · rw [State.setSlot_flt]
    show (State.setSlot _ x _).flt = _
    rw [State.setSlot_flt]
    exact flt

/-- In RELAY with the other slot not able to go on, the relay fails (R156, R223). -/
theorem State.closeFull_fails (whole : s.flt.kinds.length = 26) (direct : s.shc.job = none)
    (clip : (s.slot x).clip = some c) (notPaused : c.paused = false) (mode : s.deck.mode = .relay)
    (cannot : ¬ s.canContinue (otherSlot x) = true) :
    let t := s.closeFull x c k need room
    let tag := (s.slot x).openTag
    t.slot x = { (s.slot x).closesFull c k room with openTag := 0 } ∧
      t.slot (otherSlot x) = s.slot (otherSlot x) ∧ t.deck.relayId = s.deck.relayId ∧
      logged s t .relayFailed (slotSource x) (BitVec.ofNat 32 (s.slot (otherSlot x)).st.code) k tag ∧
      (s.inFlight tag = true → t.tagRec tag =
        s.ended tag (if s.flt.stands .relayFailed then .done else .held) .relayFailed 0 0 0) ∧
      (s.logsLimit x k (room.limits need)).flt.SameBut t.flt .relayFailed := by
  let u : State := s.closedFull x c k need room
  obtain ⟨own, other, deck, ftu, shc, -, flt⟩ := s.closedFull_leaves x c k need room
  obtain ⟨-, -, -, -, -, others, length⟩ := s.logsLimit_leaves x k (room.limits need)
  rw [← flt] at others length ⊢
  obtain ⟨entry, stands⟩ := others .relayFailed (by decide)
  have fails : s.closeFull x c k need room = u.relayFailed x k := by
    refine (State.closeFull_eq clip notPaused).trans ((if_pos mode).trans ?_)
    exact if_neg fun can => cannot (State.canContinue_closedFull.mp can)
  obtain ⟨own', other', relayId, -⟩ := u.relayFailed_leaves x k
  obtain ⟨logs, ended, same⟩ := State.relayFailed_logs (s := u) (length.trans whole) (by rw [shc]; exact direct) x k
  have record := State.tagRec_congr shc (s.slot x).openTag
  have tag : (u.slot x).openTag = (s.slot x).openTag := by
    rw [own]
    rfl
  dsimp only
  rw [tag, other] at logs
  rw [tag, State.inFlight_congr record, State.ended_congr record ftu, stands] at ended
  rw [own] at own'
  rw [fails]
  exact ⟨own', other'.trans other, relayId.trans (by rw [deck]), logged_from logs entry stands shc ftu, ended, same⟩

end

end Sys2Proof.Machine
end

