-- ==== Sys2Proof/Proofs/ClipsOpened.lean ====
section
/-! PROOFS. CLIP_OPEN refused, and carried out in the slots it needs: the OPEN block is placed and the writer waits for
groups (R146 to R149, R154, R170): the first part of O53. -/

namespace Sys2Proof.Machine

/-! ## The end of an order that moves the slots -/

section
variable {c : Instr} {e : Env} {s t : State} {kind tag : Byte} {params : List Byte} {decide : State → Decision}
  {run : State → State}

theorem State.finishEntry_slot (s : State) (r : Result) (x : SlotId) : (s.finishEntry r).slot x = s.slot x := by
  cases x <;> rfl

/-- What is left of the entry depends on the SHC alone. -/
theorem State.finishEntry_shc (shc : t.shc = s.shc) (r : Result) : (t.finishEntry r).shc = (s.finishEntry r).shc := by
  unfold State.finishEntry
  rw [shc]

/-- A tagged order carried out, after which the slots have done what they can. -/
theorem exec_orderWorks (order : exec c s = .next ((s.arrive e).takeOrder .required kind tag params decide))
    (due : dispatches s .required kind tag params = true) (carries : decide (s.arrive e) = .carry false run)
    (ran : run ((s.arrive e).acceptTag kind tag) = t.release) (stop : t.stop = s.stop)
    (shc : t.shc = ((s.arrive e).acceptTag kind tag).shc) :
    ∃ u, exec c s = .next u ∧ (∀ y, u.slot y = t.slot y) ∧ u.deck = t.deck ∧ u.cgd = t.cgd ∧ u.flt = t.flt ∧
      u.mem = t.mem ∧ u.shc = (((s.arrive e).acceptTag kind tag).finishEntry .accepted).shc := by
  have due' : dispatches (s.arrive e) .required kind tag params = true := due
  obtain ⟨-, -, noRequest⟩ := dispatches_iff.mp due
  have accepted : carriedResult false tag = .accepted := if_neg (dispatches_named due)
  have runs : exec c s = .next ((t.release.finishEntry .accepted).judgeSlots (s.arrive e)) := by
    rw [order, State.takeOrder_carry due' carries, ran, accepted, State.serve_none]
    exact (congrArg SafeStop.requests stop).trans noRequest
  refine ⟨_, runs, fun y => ?_, ?_, ?_, ?_, ?_, ?_⟩
  · rw [State.judgeSlots_slot, State.finishEntry_slot, State.slot_release]
  · rw [State.judgeSlots_deck]
    rfl
  · rw [State.judgeSlots_cgd]
    rfl
  · rw [State.judgeSlots_flt]
    rfl
  · rw [State.judgeSlots_mem]
    rfl
  · rw [State.judgeSlots_shc]
    exact State.finishEntry_shc (s := (s.arrive e).acceptTag kind tag) (t := t.release) shc .accepted

end

/-! ## The OPEN block (R149) -/

section
variable {s t : State} {x : SlotId} {v : Slot} {c : Clip} {g : Extent} {id : Word} {first openFrame : FrameNo}
  {rate : Rate} {mode : RecordMode} {tag : Nat} {e : Env}

theorem length_stuff_le (l : List Byte) : (stuff l).length ≤ 2 * l.length := by
  induction l with
  | nil => exact Nat.le_refl _
  | cons b l ih =>
    rw [stuff]
    split <;> simp only [List.length_cons] <;> omega

theorem length_streamBlock_le (kind : Byte) (f : FrameNo) (p : List Byte) (flags : Byte) :
    (streamBlock kind f p flags).length ≤ 2 * p.length + 26 := by
  have head := length_stuff_le (headerRest kind f p.length flags)
  have body := length_stuff_le (p ++ leBytes 2 (payloadCheck p).toNat)
  rw [length_headerRest] at head
  rw [List.length_append, length_leBytes] at body
  rw [length_streamBlock, headTaken]
  omega

theorem Clip.length_openBlock_le (c : Clip) (x : SlotId) (mode : RecordMode) : (c.openBlock x mode).length ≤ 66 := by
  unfold Clip.openBlock
  refine (length_streamBlock_le ..).trans ?_
  simp

/-! ## A clip begun in the first queued extent -/

/-- A clip that has begun at the start of an extent, nothing being placed. -/
def Clip.begunIn (id : Word) (first openFrame : FrameNo) (rate : Rate) (g : Extent) : Clip :=
  Clip.begin id 0 false first openFrame rate ⟨g, g.start, 0⟩

/-- The same clip with its OPEN block placed. -/
def Clip.opened (c : Clip) (block : List Byte) (g : Extent) : Clip :=
  { c with
    placed := block.length, items := [⟨0, block.length, .own block, .zero⟩]
    extents := useExtents block.length [⟨g, g.start, 0⟩]
    openPlaced := true, openLength := block.length, openSector := g.start, retry := false }

/-- The slot with the OPEN block placed. -/
def Slot.opened (v : Slot) (c : Clip) (tag : Nat) : Slot :=
  { v with st := .recording, clip := some c, current := c.current, queue := [], openTag := tag }

/-- The open order with the sector of a slot's OPEN block. -/
def OpenOrder.placedAt (o : OpenOrder) (x : SlotId) (sector : Nat) : OpenOrder :=
  match x with
  | .a => { o with sectorA := sector }
  | .b => { o with sectorB := sector }

/-- The part whose open order knows that sector. -/
def State.placedAt (s : State) (x : SlotId) (sector : Nat) : State :=
  { s with deck := { s.deck with openOrder := s.deck.openOrder.map fun o => o.placedAt x sector } }

theorem State.placeOpen_eq (own : s.slot x = v.begins (Clip.begunIn id first openFrame rate g) ⟨g, g.start, 0⟩ [] tag)
    (block : List Byte) : s.placeOpen x (Clip.begunIn id first openFrame rate g) block =
      (s.placedAt x g.start).setSlot x
        (v.opened ((Clip.begunIn id first openFrame rate g).opened block g) tag) := by
  let w : Slot := (v.begins (Clip.begunIn id first openFrame rate g) ⟨g, g.start, 0⟩ [] tag).placeBytes
    (Clip.begunIn id first openFrame rate g) (.own block) block.length .zero
  have placed : (s.updSlot x fun v => v.placeBytes (Clip.begunIn id first openFrame rate g) (.own block) block.length
      ClipCounts.zero) = s.setSlot x w := by
    rw [State.updSlot, own]
  unfold State.placeOpen
  dsimp only [Clip.begunIn, Clip.begin] at placed ⊢
  rw [placed, State.updClip_eq (by rw [State.slot_setSlot]; rfl), State.slot_setSlot, State.setSlot_setSlot]
  cases x <;>
    simp [w, State.placedAt, OpenOrder.placedAt, State.setSlot, Slot.opened, Clip.opened, Slot.placeBytes, Slot.begins,
      takeExtents, Clip.begunIn, Clip.begin, Clip.current]

/-- The writer places the OPEN block of a clip begun in 64 sectors or more. -/
theorem State.writerStep_opens (own : s.slot x = v.begins (Clip.begunIn id first openFrame rate g) ⟨g, g.start, 0⟩ [] tag)
    (holds : 64 ≤ g.count) : s.writerStep x = some ((s.placedAt x g.start).setSlot x (v.opened
      ((Clip.begunIn id first openFrame rate g).opened
        ((Clip.begunIn id first openFrame rate g).openBlock x s.deck.mode) g) tag)) := by
  have length := (Clip.begunIn id first openFrame rate g).length_openBlock_le x s.deck.mode
  have room : 32768 ≤ ((s.slot x).heldRoom (Clip.begunIn id first openFrame rate g)).bytes := by
    have bytes : (g.start + g.count - g.start) * 512 = g.count * 512 := by rw [Nat.add_sub_cancel_left]
    rw [own]
    cases final : g.final <;>
      simp [Slot.heldRoom, Slot.begins, Clip.begunIn, Clip.begin, Clip.listed, ClipExtent.room, Extent.stop, countRoom,
        final] <;> omega
  have fits : ((Clip.begunIn id first openFrame rate g).openBlock x s.deck.mode).length + 512 ≤
      ((s.slot x).heldRoom (Clip.begunIn id first openFrame rate g)).bytes := by omega
  have clip : (s.slot x).clip = some (Clip.begunIn id first openFrame rate g) := by
    rw [own]
    rfl
  have isOpen : (s.slot x).clipOpen = true := by
    rw [own]
    rfl
  rw [← State.placeOpen_eq own]
  unfold State.writerStep
  dsimp only
  rw [clip, isOpen]
  refine (if_neg (by simp [Clip.begunIn, Clip.begin])).trans ((if_pos (by simp [Clip.begunIn, Clip.begin])).trans ?_)
  exact if_pos (by rw [decide_eq_true fits, Bool.or_true])

/-- With its OPEN block placed and no group indexed, the writer rests. -/
theorem Slot.opened_rests (v : Slot) (block : List Byte) (tag : Nat) :
    (v.opened ((Clip.begunIn id first openFrame rate g).opened block g) tag).rests [] :=
  .inr ⟨_, rfl, .inr ⟨⟨rfl, rfl, rfl, rfl, rfl, rfl⟩, fun _ mem => absurd mem List.not_mem_nil⟩⟩

/-- The OPEN block alone is no WRITE: nothing is sent, and nothing waits behind a command in flight (R138, R153). -/
theorem State.sendDue_opened {block : List Byte} (short : block.length ≤ 66)
    (own : s.slot x = v.opened ((Clip.begunIn id first openFrame rate g).opened block g) tag) (noted : v.waiting = none) :
    s.sendDue x = s := by
  have noWrite : ((Clip.begunIn id first openFrame rate g).opened block g).writeDue = false := by
    simp [Clip.writeDue, Clip.opened, Clip.begunIn, Clip.begin]
    omega
  cases command : v.command with
  | none =>
    refine State.sendDue_rest (c := (Clip.begunIn id first openFrame rate g).opened block g) ?_ ?_ noWrite rfl
    · rw [own]
      exact command
    · rw [own]
      rfl
  | some k =>
    refine State.sendDue_noted ?_ ?_
    · rw [own]
      exact fun none => nomatch command.symm.trans none
    · rw [own]
      refine noted.trans ?_
      simp [Slot.behind, Slot.opened, noWrite]

/-- The clip opened in a slot's first queued extent, as the writer leaves it. -/
def State.clipOpened (s : State) (x : SlotId) (id : Word) (first : FrameNo) (g : Extent) : Clip :=
  (Clip.begunIn id first s.frame s.ftu.nextFormat.rate g).opened
    ((Clip.begunIn id first s.frame s.ftu.nextFormat.rate g).openBlock x s.deck.mode) g

theorem State.runWriters_a (step : s.writerStep .a = some t) (n : Nat) :
    State.runWriters (n + 1) s = State.runWriters n t := by
  conv => lhs; unfold State.runWriters
  rw [step]

theorem State.runWriters_b (still : s.writerStep .a = none) (step : s.writerStep .b = some t) (n : Nat) :
    State.runWriters (n + 1) s = State.runWriters n t := by
  conv => lhs; unfold State.runWriters
  rw [still, step]

/-- A slot whose clip begins does what it can, the other slot being idle. -/
theorem State.work_opens (own : s.slot x = v.begins (Clip.begunIn id first s.frame s.ftu.nextFormat.rate g)
      ⟨g, g.start, 0⟩ [] tag) (holds : 64 ≤ g.count) (index : s.sta.index = [])
    (idle : (s.slot (otherSlot x)).idle = true) (noted : v.waiting = none) :
    s.work = ((s.placedAt x g.start).setSlot x (v.opened (s.clipOpened x id first g) tag)).release := by
  let t : State := (s.placedAt x g.start).setSlot x (v.opened (s.clipOpened x id first g) tag)
  have opened : t.slot x = v.opened (s.clipOpened x id first g) tag := State.slot_setSlot ..
  have other : t.slot (otherSlot x) = s.slot (otherSlot x) := by cases x <;> rfl
  have noClip := (Slot.idle_parts idle).1
  have sta : t.sta = s.sta := State.setSlot_sta ..
  have rest (y : SlotId) : (t.slot y).rests t.sta.index := by
    rw [sta, index]
    obtain rfl | rfl := SlotId.self_or_other x y
    · rw [opened]
      exact Slot.opened_rests ..
    · rw [other]
      exact .inl noClip
  have stays := State.sendDue_opened (Clip.length_openBlock_le _ _ _) opened noted
  exact State.work_slot (State.runWriters_once (State.writerStep_opens own holds) noClip rest _) stays rfl
    (other ▸ idle) (State.writerStep_rests (rest x)) stays

/-- Two slots whose clips begin do what they can, slot A first. -/
theorem State.work_opensBoth {va vb : Slot} {h : Extent}
    (ownA : s.slotA = va.begins (Clip.begunIn id first s.frame s.ftu.nextFormat.rate g) ⟨g, g.start, 0⟩ [] tag)
    (ownB : s.slotB = vb.begins (Clip.begunIn id first s.frame s.ftu.nextFormat.rate h) ⟨h, h.start, 0⟩ [] tag)
    (holdsA : 64 ≤ g.count) (holdsB : 64 ≤ h.count) (index : s.sta.index = []) (notedA : va.waiting = none)
    (notedB : vb.waiting = none) :
    s.work = (State.setSlot (State.placedAt ((s.placedAt .a g.start).setSlot .a (va.opened (s.clipOpened .a id first g) tag))
      .b h.start) .b (vb.opened (s.clipOpened .b id first h) tag)).release := by
  let u : State := (s.placedAt .a g.start).setSlot .a (va.opened (s.clipOpened .a id first g) tag)
  let t : State := (u.placedAt .b h.start).setSlot .b (vb.opened (s.clipOpened .b id first h) tag)
  have restA : (va.opened (s.clipOpened .a id first g) tag).rests s.sta.index := index ▸ Slot.opened_rests ..
  have restB : (vb.opened (s.clipOpened .b id first h) tag).rests s.sta.index := index ▸ Slot.opened_rests ..
  have rest (y : SlotId) : (t.slot y).rests t.sta.index := by
    cases y
    · exact restA
    · exact restB
  have stepA : s.writerStep .a = some u := State.writerStep_opens (x := .a) ownA holdsA
  have stepB : u.writerStep .b = some t := State.writerStep_opens (s := u) (x := .b) ownB holdsB
  have stillA : u.writerStep .a = none := State.writerStep_rests (s := u) (x := .a) restA
  have places : State.runWriters s.writerFuel s = t := by
    show State.runWriters (2 * s.sta.index.length + 14 + 1 + 1) s = t
    rw [State.runWriters_a stepA, State.runWriters_b stillA stepB, State.runWriters_rest rest]
  have stays (y : SlotId) : t.sendDue y = t := by
    cases y
    · exact State.sendDue_opened (s := t) (x := .a) (Clip.length_openBlock_le _ _ _) rfl notedA
    · exact State.sendDue_opened (s := t) (x := .b) (Clip.length_openBlock_le _ _ _) rfl notedB
  exact State.work_of places (stays .a) (stays .b) (fun y => State.writerStep_rests (rest y)) stays

/-! ## The order (R146) -/

/-- The open order of a CLIP_OPEN. -/
def State.newOrder (s : State) (tag : Nat) (id : Word) (a b : Bool) : OpenOrder :=
  { tag := tag, clipId := id, first := s.startFrame, waitA := a, waitB := b, usesA := a, sectorA := 0, sectorB := 0 }

/-- The part that has a CLIP_OPEN in its hands. -/
def State.ordersOpen (s : State) (tag : Nat) (id cont : Word) : State :=
  { s with deck := { s.deck with
      openOrder := some (s.newOrder tag id (s.deck.needs .a) (s.deck.needs .b))
      relayId := if s.deck.mode = .relay then cont else s.deck.relayId } }

theorem Slot.firstExtent_queued (noCurrent : v.current = none) (queue : v.queue = [g]) :
    v.firstExtent = some (⟨g, g.start, 0⟩, []) := by
  unfold Slot.firstExtent
  rw [noCurrent, queue]

/-- A slot begins a clip in its one queued extent. -/
theorem State.openClip_queued (ready : (s.slot x).st = .ready) (noCurrent : (s.slot x).current = none)
    (queue : (s.slot x).queue = [g]) (id : Word) (first : FrameNo) (tag : Nat) :
    s.openClip x id 0 false first tag = s.watches.setSlot x ((s.slot x).begins
      (Clip.begunIn id first s.frame s.ftu.nextFormat.rate g) ⟨g, g.start, 0⟩ [] tag) :=
  State.openClip_eq (by rw [ready]; decide) (Slot.firstExtent_queued noCurrent queue) id 0 false first tag

/-- What a CLIP_OPEN carried out leaves of the blocks but the slots and the order. -/
structure State.KeepsOpening (s t : State) : Prop where
  mode : t.deck.mode = s.deck.mode
  shc : t.shc = s.shc
  flt : t.flt = s.flt
  mem : t.mem = s.mem
  stop : t.stop = s.stop
  sta : t.sta = s.sta
  ftu : t.ftu = s.ftu

theorem State.KeepsOpening.trans {u : State} (h : s.KeepsOpening t) (k : t.KeepsOpening u) : s.KeepsOpening u :=
  ⟨k.1.trans h.1, k.2.trans h.2, k.3.trans h.3, k.4.trans h.4, k.5.trans h.5, k.6.trans h.6, k.7.trans h.7⟩

/-- A slot begins a clip. -/
theorem State.begins_leaves (s : State) (x : SlotId) (v : Slot) :
    let t := s.watches.setSlot x v
    s.KeepsOpening t ∧ t.slot x = v ∧ t.slot (otherSlot x) = s.slot (otherSlot x) ∧ t.deck = s.deck ∧
      t.cgd.st = (if s.cgd.st = .armed then .watching else s.cgd.st) := by
  cases x <;> exact ⟨⟨rfl, rfl, rfl, rfl, rfl, rfl, rfl⟩, rfl, rfl, rfl, rfl⟩

/-- A slot's OPEN block is placed. -/
theorem State.placedAt_leaves (s : State) (x : SlotId) (sector : Nat) (v : Slot) :
    let t := (s.placedAt x sector).setSlot x v
    s.KeepsOpening t ∧ t.slot x = v ∧ t.slot (otherSlot x) = s.slot (otherSlot x) ∧
      t.deck = { s.deck with openOrder := s.deck.openOrder.map fun o => o.placedAt x sector } ∧ t.cgd = s.cgd := by
  cases x <;> exact ⟨⟨rfl, rfl, rfl, rfl, rfl, rfl, rfl⟩, rfl, rfl, rfl, rfl⟩

theorem State.ordersOpen_keeps (s : State) (tag : Nat) (id cont : Word) : s.KeepsOpening (s.ordersOpen tag id cont) :=
  ⟨rfl, rfl, rfl, rfl, rfl, rfl, rfl⟩

/-- The clip a slot opens is the same clip while the blocks stay. -/
theorem State.KeepsOpening.clip (h : s.KeepsOpening t) (x : SlotId) (id : Word) (first : FrameNo) (g : Extent) :
    t.clipOpened x id first g = s.clipOpened x id first g := by
  unfold State.clipOpened State.frame
  rw [h.ftu, h.mode]

/-- CLIP_OPEN in SINGLE and RELAY opens the deck's slot alone. -/
theorem State.openOrdered_one (own : s.deck.slot = x) (mode : s.deck.mode ≠ .simul) (ready : (s.slot x).st = .ready)
    (noCurrent : (s.slot x).current = none) (queue : (s.slot x).queue = [g]) (holds : 64 ≤ g.count)
    (calm : quiet s = true) (index : s.sta.index = []) (tag : Nat) (id cont : Word) :
    ∃ t, s.openOrdered tag id cont = t.release ∧ s.KeepsOpening t ∧
      t.slot x = (s.slot x).opened (s.clipOpened x id s.startFrame g) tag ∧
      t.slot (otherSlot x) = s.slot (otherSlot x) ∧
      t.cgd.st = (if s.cgd.st = .armed then .watching else s.cgd.st) ∧
      t.deck.relayId = (if s.deck.mode = .relay then cont else s.deck.relayId) ∧
      t.deck.openOrder = some ((s.newOrder tag id (x == .a) (x == .b)).placedAt x g.start) := by
  obtain ⟨idle, other, -, -⟩ := (quiet_iff (x := x)).mp calm
  let u : State := s.ordersOpen tag id cont
  let w : State := u.watches.setSlot x ((s.slot x).begins
    (Clip.begunIn id s.startFrame s.frame s.ftu.nextFormat.rate g) ⟨g, g.start, 0⟩ [] tag)
  have needs (y : SlotId) : s.deck.needs y = (x == y) := by
    unfold Deck.needs
    rw [own]
    cases mode' : s.deck.mode with
    | simul => exact absurd mode' mode
    | single | relay => rfl
  have slot (y : SlotId) : u.slot y = s.slot y := by cases y <;> rfl
  have begins : u.openClip x id 0 false s.startFrame tag = w := by
    refine (State.openClip_queued (s := u) (g := g) (by rw [slot]; exact ready) (by rw [slot]; exact noCurrent)
      (by rw [slot]; exact queue) id s.startFrame tag).trans ?_
    rw [slot]
    rfl
  have opens : (u.openNeeded id s.startFrame tag .a).openNeeded id s.startFrame tag .b = w := by
    cases x with
    | a =>
      have first : u.openNeeded id s.startFrame tag .a = w := (if_pos (needs .a)).trans begins
      rw [first]
      exact if_neg (Bool.eq_false_iff.mp (needs .b))
    | b =>
      have first : u.openNeeded id s.startFrame tag .a = u := if_neg (Bool.eq_false_iff.mp (needs .a))
      rw [first]
      exact (if_pos (needs .b)).trans begins
  obtain ⟨begun, ownW, otherW, deckW, guardW⟩ := u.begins_leaves x ((s.slot x).begins
    (Clip.begunIn id s.startFrame s.frame s.ftu.nextFormat.rate g) ⟨g, g.start, 0⟩ [] tag)
  have begun := (s.ordersOpen_keeps tag id cont).trans begun
  have ownW : w.slot x = (s.slot x).begins (Clip.begunIn id s.startFrame w.frame w.ftu.nextFormat.rate g)
      ⟨g, g.start, 0⟩ [] tag := by
    unfold State.frame
    rw [begun.ftu]
    exact ownW
  rw [slot] at otherW
  have works := State.work_opens ownW holds (by rw [begun.sta]; exact index) (by rw [otherW]; exact other)
    (Slot.idle_parts idle).2.2.2
  rw [begun.clip] at works
  obtain ⟨placed, own, other, deck, guard⟩ := w.placedAt_leaves x g.start
    ((s.slot x).opened (s.clipOpened x id s.startFrame g) tag)
  have order : w.deck.openOrder = some (s.newOrder tag id (x == .a) (x == .b)) := by
    rw [deckW, ← needs .a, ← needs .b]
    rfl
  refine ⟨_, (congrArg State.work opens).trans works, begun.trans placed, own, other.trans otherW, ?_, ?_, ?_⟩
  · rw [guard, guardW]
    rfl
  · rw [deck, deckW]
    rfl
  · rw [deck, order]
    rfl

/-- CLIP_OPEN in SIMUL opens both slots. -/
theorem State.openOrdered_both {h : Extent} (mode : s.deck.mode = .simul) (readyA : s.slotA.st = .ready)
    (readyB : s.slotB.st = .ready) (noCurrentA : s.slotA.current = none) (noCurrentB : s.slotB.current = none)
    (queueA : s.slotA.queue = [g]) (queueB : s.slotB.queue = [h]) (holdsA : 64 ≤ g.count) (holdsB : 64 ≤ h.count)
    (calm : quiet s = true) (index : s.sta.index = []) (tag : Nat) (id cont : Word) :
    ∃ t, s.openOrdered tag id cont = t.release ∧ s.KeepsOpening t ∧
      t.slotA = s.slotA.opened (s.clipOpened .a id s.startFrame g) tag ∧
      t.slotB = s.slotB.opened (s.clipOpened .b id s.startFrame h) tag ∧
      t.cgd.st = (if s.cgd.st = .armed then .watching else s.cgd.st) ∧
      t.deck.openOrder = some (((s.newOrder tag id true true).placedAt .a g.start).placedAt .b h.start) := by
  obtain ⟨idleA, idleB, -, -⟩ := quiet_parts calm
  have needs (y : SlotId) : s.deck.needs y = true := by
    unfold Deck.needs
    rw [mode]
    rfl
  let clip (g : Extent) : Clip := Clip.begunIn id s.startFrame s.frame s.ftu.nextFormat.rate g
  let vA : Slot := s.slotA.begins (clip g) ⟨g, g.start, 0⟩ [] tag
  let vB : Slot := s.slotB.begins (clip h) ⟨h, h.start, 0⟩ [] tag
  let u : State := s.ordersOpen tag id cont
  let w : State := u.watches.setSlot .a vA
  let p : State := w.setSlot .b vB
  have opensA : u.openNeeded id s.startFrame tag .a = w :=
    (if_pos (needs .a)).trans (State.openClip_queued (s := u) (x := .a) readyA noCurrentA queueA id s.startFrame tag)
  have watching : w.watches = w := by rw [State.watches_setSlot, State.watches_watches]
  have opensB : w.openNeeded id s.startFrame tag .b = p := by
    have begins := State.openClip_queued (s := w) (x := .b) readyB noCurrentB queueB id s.startFrame tag
    rw [watching] at begins
    exact (if_pos (needs .b)).trans begins
  have opens : (u.openNeeded id s.startFrame tag .a).openNeeded id s.startFrame tag .b = p := by rw [opensA, opensB]
  obtain ⟨begunA, slotA, -, wDeck, wGuard⟩ := u.begins_leaves .a vA
  obtain ⟨begunB, slotB, pOther, pDeck, pGuard⟩ := w.begins_leaves .b vB
  rw [watching] at begunB slotB pOther pDeck pGuard
  have begun := ((s.ordersOpen_keeps tag id cont).trans begunA).trans begunB
  have clipOf (g : Extent) : Clip.begunIn id s.startFrame p.frame p.ftu.nextFormat.rate g = clip g := by
    unfold State.frame
    rw [begun.ftu]
    rfl
  have works := State.work_opensBoth (s := p) (va := s.slotA) (vb := s.slotB) (g := g) (h := h) (id := id)
    (first := s.startFrame) (tag := tag) (by rw [clipOf]; exact pOther.trans slotA) (by rw [clipOf]; exact slotB) holdsA
    holdsB (by rw [begun.sta]; exact index) (Slot.idle_parts idleA).2.2.2 (Slot.idle_parts idleB).2.2.2
  rw [begun.clip, begun.clip] at works
  obtain ⟨placedA, ownA, otherA, deckA, guardA⟩ :=
    p.placedAt_leaves .a g.start (s.slotA.opened (s.clipOpened .a id s.startFrame g) tag)
  obtain ⟨placedB, ownB, otherB, deckB, guardB⟩ := State.placedAt_leaves
    ((p.placedAt .a g.start).setSlot .a (s.slotA.opened (s.clipOpened .a id s.startFrame g) tag)) .b h.start
    (s.slotB.opened (s.clipOpened .b id s.startFrame h) tag)
  have order : p.deck.openOrder = some (s.newOrder tag id true true) := by
    rw [pDeck, wDeck]
    show some (s.newOrder tag id (s.deck.needs .a) (s.deck.needs .b)) = _
    rw [needs, needs]
  have ordered : s.openOrdered tag id cont = p.work := congrArg State.work opens
  refine ⟨_, ordered.trans works, (begun.trans placedA).trans placedB, ?_, ?_, ?_, ?_⟩
  · exact otherB.trans ownA
  · exact ownB
  · rw [guardB, guardA, State.setSlot_cgd, wGuard]
    rfl
  · rw [deckB, deckA, order]
    rfl

end

/-! ## Refused (R146) -/

section
variable {s t : State} {tag : Byte} {id cont : Word}

theorem decideClipOpen_tripped (tripped : s.cgd.st = .tripped) :
    decideClipOpen tag id cont s = .refuse .refusedGuard := if_pos tripped

/-- The clip id is 0, or RELAY has no continuation id of its own. -/
def State.badIds (s : State) (id cont : Word) : Prop := id = 0 ∨ (s.deck.mode = .relay ∧ (cont = 0 ∨ cont = id))

theorem decideClipOpen_badIds (notTripped : s.cgd.st ≠ .tripped) (bad : s.badIds id cont) :
    decideClipOpen tag id cont s = .refuse .refusedParam := by
  refine (if_neg notTripped).trans ?_
  by_cases zero : id = 0
  · exact if_pos zero
  · exact (if_neg zero).trans (if_pos (bad.resolve_left zero))

/-- A clip is open, or a slot that the order needs cannot open. -/
def State.cannotOpen (s : State) : Prop :=
  s.clipOpen = true ∨ ∃ y, s.deck.needs y = true ∧ (s.slot y).canOpen = false

theorem decideClipOpen_state (notTripped : s.cgd.st ≠ .tripped) (good : ¬ s.badIds id cont) (cannot : s.cannotOpen) :
    decideClipOpen tag id cont s = .refuse .refusedState := by
  refine (if_neg notTripped).trans ((if_neg fun zero => good (.inl zero)).trans
    ((if_neg fun bad => good (.inr bad)).trans ?_))
  by_cases opened : s.clipOpen = true
  · exact if_pos opened
  · obtain ⟨y, needed, shut⟩ := cannot.resolve_left opened
    refine (if_neg opened).trans (if_pos ?_)
    cases y
    · exact .inl ⟨needed, shut⟩
    · exact .inr ⟨needed, shut⟩

theorem decideClipOpen_carried (notTripped : s.cgd.st ≠ .tripped) (good : ¬ s.badIds id cont) (can : ¬ s.cannotOpen) :
    decideClipOpen tag id cont s = .carry false fun s => s.openOrdered tag.toNat id cont := by
  refine (if_neg notTripped).trans ((if_neg fun zero => good (.inl zero)).trans
    ((if_neg fun bad => good (.inr bad)).trans ((if_neg fun opened => can (.inl opened)).trans (if_neg ?_))))
  rintro (⟨needed, shut⟩ | ⟨needed, shut⟩)
  · exact can (.inr ⟨.a, needed, shut⟩)
  · exact can (.inr ⟨.b, needed, shut⟩)

/-- The deck's own slot is needed, and in SIMUL both are. -/
theorem Deck.needs_own (d : Deck) : d.needs d.slot = true := by simp [Deck.needs]

theorem Deck.needs_simul {d : Deck} (mode : d.mode = .simul) (y : SlotId) : d.needs y = true := by
  simp [Deck.needs, mode]

/-- A READY slot with a queued extent and no release in progress can open. -/
theorem Slot.canOpen_ready {v : Slot} {g : Extent} (idle : v.idle = true) (ready : v.st = .ready) (queue : v.queue = [g]) :
    v.canOpen = true := by
  obtain ⟨-, noRelease, -, -⟩ := Slot.idle_parts idle
  simp [Slot.canOpen, Slot.holdsRoom, ready, noRelease, queue]

/-! ## What an order sees of the part -/

/-- The accepted tag and the bus aside, the part is the one the order came to. -/
theorem State.startFrame_congr (sta : t.sta = s.sta) (ftu : t.ftu = s.ftu) (clipOpen : t.clipOpen = s.clipOpen) :
    t.startFrame = s.startFrame := by
  unfold State.startFrame State.marks State.nextIndexed State.retained
  rw [sta, ftu, clipOpen]

theorem State.startFrame_accepted (s : State) (e : Env) (kind tag : Byte) :
    ((s.arrive e).acceptTag kind tag).startFrame = s.startFrame := by
  refine State.startFrame_congr (State.acceptTag_sta ..) (State.acceptTag_ftu ..) ?_
  unfold State.clipOpen
  rw [State.acceptTag_slotA, State.acceptTag_slotB]
  rfl

end

end Sys2Proof.Machine
end

