-- ==== Sys2Proof/Proofs/ClipsClosed.lean ====
section
/-! PROOFS. CLIP_CLOSE: a RECORDING slot becomes CLOSING, and its writer places the CLOSE block and the padding of its last
sector (R138, R157 to R160, log 33): the third part of O53. -/

namespace Sys2Proof.Machine

section
variable {s t u : State} {x : SlotId} {v : Slot} {c d : Clip} {f : FrameNo} {tag : Nat} {e : Env}

/-! ## The padding (R160) -/

theorem largestFill_le (frame : FrameNo) (gap n : Nat) {b : List Byte} (found : largestFill frame gap n = some b) :
    b.length ≤ gap := by
  induction n with
  | zero =>
    unfold largestFill at found
    dsimp only at found
    split at found
    · cases found
      assumption
    · exact absurd found nofun
  | succ n ih =>
    unfold largestFill at found
    dsimp only at found
    split at found
    · cases found
      assumption
    · exact ih found

/-- The padding of a gap fills it. -/
theorem length_padding (frame : FrameNo) (p : Nat) : (padding frame p).length = p := by
  have fits : ((if 14 ≤ p then (largestFill frame p (p - 14)).getD [] else []) : List Byte).length ≤ p := by
    split
    · cases found : largestFill frame p (p - 14) with
      | none => exact Nat.zero_le _
      | some b => exact largestFill_le frame p _ found
    · exact Nat.zero_le _
  unfold padding
  dsimp only
  rw [List.length_append, List.length_replicate]
  omega

theorem add_gapAfter_mod (n : Nat) : (n + gapAfter n) % 512 = 0 := by
  unfold gapAfter
  omega

/-! ## The CLOSE block is placed (R159) -/

/-- The clip with bytes placed from a slot's extents. -/
def Slot.clipPlaced (v : Slot) (c : Clip) (b : List Byte) : Clip :=
  { c with
    placed := c.placed + b.length
    items := c.items ++ [⟨c.placed, b.length, .own b, c.counts⟩]
    extents := useExtents (c.placed + b.length) (takeExtents (c.placed + b.length) v.queue c.extents).1 }

theorem Slot.clip_placeBytes (v : Slot) (c : Clip) (b : List Byte) :
    (v.placeBytes c (.own b) b.length c.counts).clip = some (v.clipPlaced c b) := rfl

/-- The slot with its CLOSE block and the padding placed. -/
def Slot.placesClose (v : Slot) (x : SlotId) (c : Clip) : Slot :=
  let block := c.closeBlock x
  let w := v.placeBytes c (.own block) block.length c.counts
  let d := v.clipPlaced c block
  let pad := padding c.closeFrame (gapAfter (c.placed + block.length))
  let z := w.placeBytes d (.own pad) pad.length d.counts
  { z with clip := some { w.clipPlaced d pad with closePlaced := true } }

theorem State.placeClose_eq (s : State) (x : SlotId) (c : Clip) :
    s.placeClose x c = s.setSlot x ((s.slot x).placesClose x c) := by
  unfold State.placeClose
  dsimp only
  rw [State.updSlot, State.slot_setSlot, Slot.clip_placeBytes]
  dsimp only
  rw [State.updSlot, State.slot_setSlot, State.setSlot_setSlot,
    State.updClip_eq (by rw [State.slot_setSlot]; exact Slot.clip_placeBytes ..), State.slot_setSlot, State.setSlot_setSlot]
  rfl

/-- What the slot is after: the clip ends on a sector, and has its CLOSE block. -/
theorem Slot.placesClose_facts (v : Slot) (x : SlotId) (c : Clip) :
    let w := v.placesClose x c
    w.st = v.st ∧ w.command = v.command ∧ w.closeTag = v.closeTag ∧ ∃ d, w.clip = some d ∧ d.closePlaced = true ∧
      d.endPoint = c.endPoint ∧ d.placed % 512 = 0 ∧ c.placed < d.placed ∧ d.counts = c.counts ∧ d.sent = c.sent ∧
      d.id = c.id := by
  have block : 0 < (c.closeBlock x).length := length_streamBlock_pos ..
  refine ⟨rfl, rfl, rfl, _, rfl, rfl, rfl, ?_, ?_, rfl, rfl, rfl⟩
  · show (c.placed + (c.closeBlock x).length +
      (padding c.closeFrame (gapAfter (c.placed + (c.closeBlock x).length))).length) % 512 = 0
    rw [length_padding]
    exact add_gapAfter_mod _
  · show c.placed < c.placed + (c.closeBlock x).length + _
    omega

/-- The writer of a CLOSING slot that has no next group to place places the CLOSE block. -/
theorem State.writerStep_closes (closing : (s.slot x).st = .closing) (clip : (s.slot x).clip = some c)
    (placed : c.openPlaced = true) (notClosed : c.closePlaced = false) (notPaused : c.paused = false)
    (missing : ∀ k ∈ s.sta.index, k.frame ≠ c.next) : s.writerStep x = some (s.placeClose x c) := by
  have none : (s.sta.index.find? fun r => r.frame == c.next) = none :=
    List.find?_eq_none.mpr fun r mem same => missing r mem (beq_iff_eq.mp same)
  have isOpen : (s.slot x).clipOpen = true := by simp [Slot.clipOpen, closing]
  simp [State.writerStep, clip, notClosed, notPaused, isOpen, placed, none, closing]

/-! ## The slots do what they can -/

/-- A slot closes its clip behind a command in flight, the other slot being idle. -/
theorem State.work_closes (closing : (s.slot x).st = .closing) (clip : (s.slot x).clip = some c)
    (placed : c.openPlaced = true) (notClosed : c.closePlaced = false) (notPaused : c.paused = false)
    (missing : ∀ k ∈ s.sta.index, k.frame ≠ c.next) (busy : (s.slot x).command ≠ none)
    (idle : (s.slot (otherSlot x)).idle = true) :
    s.work = (State.noteWaiting (s.setSlot x ((s.slot x).placesClose x c)) x).release := by
  let u : State := s.setSlot x ((s.slot x).placesClose x c)
  have own : u.slot x = (s.slot x).placesClose x c := State.slot_setSlot ..
  have other : u.slot (otherSlot x) = s.slot (otherSlot x) := State.slot_setSlot_other ..
  obtain ⟨-, command, -, d, uClip, closed, -⟩ := (s.slot x).placesClose_facts x c
  have uBusy : (u.slot x).command ≠ none := by
    rw [own, command]
    exact busy
  have noClip (t : State) (same : t.slot (otherSlot x) = s.slot (otherSlot x)) : t.writerStep (otherSlot x) = none :=
    State.writerStep_noClip (same ▸ (Slot.idle_parts idle).1)
  have still (t : State) (same : t.slot (otherSlot x) = s.slot (otherSlot x)) {d : Clip}
      (clip : (t.slot x).clip = some d) (closed : d.closePlaced = true) (y : SlotId) : t.writerStep y = none := by
    obtain rfl | rfl := SlotId.self_or_other x y
    · exact State.writerStep_closed clip closed
    · exact noClip t same
  have stillU := still u other (by rw [own]; exact uClip) closed
  have step : s.writerStep x = some u := by
    rw [State.writerStep_closes closing clip placed notClosed notPaused missing, State.placeClose_eq]
  have places : State.runWriters s.writerFuel s = u := by
    show State.runWriters (2 * s.sta.index.length + 15 + 1) s = u
    cases x with
    | a => rw [State.runWriters_a step, State.runWriters_still stillU]
    | b => rw [State.runWriters_b (noClip s rfl) step, State.runWriters_still stillU]
  have noted : (u.noteWaiting x).slot x = { u.slot x with waiting := (u.slot x).behind } := State.slot_noteWaiting ..
  refine State.work_slot places (State.sendDue_busy uBusy) (State.slot_noteWaiting_other ..) (other ▸ idle) ?_ ?_
  · refine State.writerStep_closed (c := d) ?_ closed
    rw [noted, own]
    exact uClip
  · rw [State.sendDue_busy (by rw [noted]; exact uBusy), State.noteWaiting_twice]

/-! ## The order (R157) -/

/-- The slot that a CLIP_CLOSE closes. -/
def Slot.closeTold (v : Slot) (c : Clip) (f : FrameNo) (tag : Nat) : Slot :=
  { v with closeTag := tag, st := .closing, clip := some (c.closes f) }

theorem State.closeOrdered_recording (recording : (s.slot x).st = .recording) (clip : (s.slot x).clip = some c)
    (f : FrameNo) (tag : Nat) : s.closeOrdered tag (some f) x = s.setSlot x ((s.slot x).closeTold c f tag) := by
  refine (if_pos recording).trans ?_
  have own : ((s.updSlot x fun v => { v with closeTag := tag }).slot x).clip = some c := by
    rw [State.slot_updSlot]
    exact clip
  rw [State.closeClip_eq own, State.slot_updSlot, State.updSlot, State.setSlot_setSlot]
  rfl

theorem State.closeOrdered_spared (notRecording : (s.slot x).st ≠ .recording) (newest : Option FrameNo) (tag : Nat) :
    s.closeOrdered tag newest x = s := if_neg notRecording

/-- The part that has a CLIP_CLOSE in its hands. -/
def State.ordersClose (s : State) (tag : Nat) (f : FrameNo) (a b : Bool) : State :=
  { s with deck := { s.deck with
      closeOrder := some { tag := tag, waitA := a, waitB := b, framesA := 0, framesB := 0, endPoint := f } } }

/-- CLIP_CLOSE with one slot RECORDING behind a command in flight and the other idle. -/
theorem State.closeAll_one (recording : (s.slot x).st = .recording) (clip : (s.slot x).clip = some c)
    (placed : c.openPlaced = true) (notClosed : c.closePlaced = false) {r : IndexRec}
    (newest : s.sta.index.getLast? = some r) (missing : ∀ k ∈ s.sta.index, k.frame ≠ c.next)
    (busy : (s.slot x).command ≠ none) (idle : (s.slot (otherSlot x)).idle = true)
    (shut : (s.slot (otherSlot x)).clipOpen = false) (tag : Nat) :
    s.closeAll tag = (State.noteWaiting (State.setSlot (s.ordersClose tag r.frame (x == .a) (x == .b)) x
      (((s.slot x).closeTold c r.frame tag).placesClose x (c.closes r.frame))) x).release := by
  have otherNot : (s.slot (otherSlot x)).st ≠ .recording := fun recording => by simp [Slot.clipOpen, recording] at shut
  have group : s.newestGroup = some r.frame := by simp [State.newestGroup, newest]
  let u : State := s.ordersClose tag r.frame (x == .a) (x == .b)
  let w : State := u.setSlot x ((s.slot x).closeTold c r.frame tag)
  have slot (y : SlotId) : u.slot y = s.slot y := by cases y <;> rfl
  have told : u.closeOrdered tag (some r.frame) x = w := by
    rw [State.closeOrdered_recording (by rw [slot]; exact recording) (by rw [slot]; exact clip), slot]
  have other : w.slot (otherSlot x) = s.slot (otherSlot x) := (State.slot_setSlot_other ..).trans (slot _)
  have own : w.slot x = (s.slot x).closeTold c r.frame tag := State.slot_setSlot ..
  have both : (u.closeOrdered tag (some r.frame) .a).closeOrdered tag (some r.frame) .b = w := by
    cases x with
    | a =>
      rw [told]
      exact State.closeOrdered_spared (x := .b) (by rw [show w.slot .b = s.slot .b from other]; exact otherNot) _ _
    | b =>
      rw [State.closeOrdered_spared (x := .a) (by rw [slot]; exact otherNot), told]
  have orders : s.closeAll tag = w.work := by
    have word : s.endWord = (r.frame, s) := by
      unfold State.endWord
      rw [group]
    have waits : (s.slotA.st == .recording) = (x == .a) ∧ (s.slotB.st == .recording) = (x == .b) := by
      cases x with
      | a => exact ⟨beq_iff_eq.mpr recording, beq_eq_false_iff_ne.mpr otherNot⟩
      | b => exact ⟨beq_eq_false_iff_ne.mpr otherNot, beq_iff_eq.mpr recording⟩
    unfold State.closeAll
    rw [word, waits.1, waits.2, group]
    exact congrArg State.work both
  have works := State.work_closes (s := w) (c := c.closes r.frame) (by rw [own]; rfl) (by rw [own]; rfl) placed notClosed
    rfl (by rw [State.setSlot_sta]; exact missing) (by rw [own]; exact busy) (by rw [other]; exact idle)
  rw [own, State.setSlot_setSlot] at works
  exact orders.trans works

end

end Sys2Proof.Machine
end

