-- ==== Sys2Proof/Proofs/ClipOrders.lean ====
section
/-! PROOFS. The life of a clip from CLIP_OPEN over the end of its room to CLIP_CLOSE: O53. -/

namespace Sys2Proof.Machine

section
variable {e : Env} {s : State} {x : SlotId} {c : Clip} {k : FrameNo} {need : Nat} {tag : Byte} {id cont : Word}
  {g h : Extent}

/-! ## CLIP_OPEN (R146 to R149) -/

/-- A clip as CLIP_OPEN and the writer leave it. -/
def Clip.BegunAt (c : Clip) (s : State) (id : Word) (start : Nat) : Prop :=
  c.id = id ∧ c.prev = 0 ∧ c.continuation = false ∧ c.first = s.startFrame ∧ c.openFrame = s.ftu.counter ∧
    c.openPlaced = true ∧ c.placed = c.openLength ∧ c.openSector = start ∧ c.sent = 0 ∧ c.closePlaced = false ∧
    c.endPoint = none ∧ c.counts.groups = 0

theorem State.clipOpened_begun (s : State) (e : Env) (kind tag : Byte) (x : SlotId) (id : Word) (g : Extent) :
    let p := (s.arrive e).acceptTag kind tag
    (p.clipOpened x id p.startFrame g).BegunAt s id g.start :=
  ⟨rfl, rfl, rfl, s.startFrame_accepted e kind tag, congrArg Ftu.counter (State.acceptTag_ftu ..), rfl, rfl, rfl, rfl, rfl,
    rfl, rfl⟩

theorem quiet_accepted (calm : quiet s = true) (e : Env) (kind tag : Byte) :
    quiet ((s.arrive e).acceptTag kind tag) = true := by
  refine Eq.trans ?_ calm
  unfold quiet
  rw [State.acceptTag_slotA, State.acceptTag_slotB, State.acceptTag_stop]
  rfl

theorem exec_clipOpen (e : Env) (s : State) (tag : Byte) (id cont : Word) : exec (.clipOpen e tag id cont) s =
    .next ((s.arrive e).takeOrder .required 0x62 tag (p4 id ++ p4 cont) (decideClipOpen tag id cont)) := rfl

/-- The open order of one slot, with the sector of its OPEN block. -/
theorem State.newOrder_placedAt (s : State) (tag : Nat) (id : Word) (x : SlotId) (sector : Nat) :
    (s.newOrder tag id (x == .a) (x == .b)).placedAt x sector =
      { tag := tag, clipId := id, first := s.startFrame, waitA := x == .a, waitB := x == .b, usesA := x == .a
        sectorA := if x = .a then sector else 0, sectorB := if x = .b then sector else 0 } := by
  cases x <;> rfl

/-- CLIP_OPEN in SINGLE and RELAY carried out. -/
theorem exec_clipOpen_one (due : dispatches s .required 0x62 tag (p4 id ++ p4 cont) = true)
    (notTripped : s.cgd.st ≠ .tripped) (good : ¬ s.badIds id cont) (closed : s.clipOpen = false)
    (own : s.deck.slot = x) (mode : s.deck.mode ≠ .simul) (ready : (s.slot x).st = .ready)
    (noCurrent : (s.slot x).current = none) (queue : (s.slot x).queue = [g]) (holds : 64 ≤ g.count)
    (calm : quiet s = true) (index : s.sta.index = []) :
    ∃ t c, exec (.clipOpen e tag id cont) s = .next t ∧ c.BegunAt s id g.start ∧
      t.slot x = (s.slot x).opened c tag.toNat ∧ t.slot (otherSlot x) = s.slot (otherSlot x) ∧
      t.cgd.st = (if s.cgd.st = .armed then .watching else s.cgd.st) ∧
      t.deck.relayId = (if s.deck.mode = .relay then cont else s.deck.relayId) ∧
      t.deck.openOrder = some ((s.newOrder tag.toNat id (x == .a) (x == .b)).placedAt x g.start) ∧
      t.shc = (((s.arrive e).acceptTag 0x62 tag).finishEntry .accepted).shc ∧ t.flt = s.flt ∧
      t.mem = Memory.apply s.mem e.writes := by
  let p : State := (s.arrive e).acceptTag 0x62 tag
  have slot (y : SlotId) : p.slot y = s.slot y := (State.acceptTag_slot ..).trans (State.arrive_slot ..)
  have deck : p.deck = s.deck := State.acceptTag_deck ..
  have cgd : p.cgd = s.cgd := State.acceptTag_cgd ..
  have sta : p.sta = s.sta := State.acceptTag_sta ..
  have start : p.startFrame = s.startFrame := s.startFrame_accepted e 0x62 tag
  obtain ⟨t, ran, keeps, ownT, otherT, guard, relayId, order⟩ := State.openOrdered_one (s := p) (x := x) (g := g)
    (by rw [deck]; exact own) (by rw [deck]; exact mode) (by rw [slot]; exact ready) (by rw [slot]; exact noCurrent)
    (by rw [slot]; exact queue) holds (quiet_accepted calm e 0x62 tag) (by rw [sta]; exact index) tag.toNat id cont
  have can : ¬ s.cannotOpen := by
    rintro (opened | ⟨y, needed, shut⟩)
    · exact absurd opened (by simp [closed])
    · have same : y = x := by
        unfold Deck.needs at needed
        rw [own, Bool.or_eq_true, beq_iff_eq, beq_iff_eq] at needed
        exact (needed.resolve_left mode).symm
      rw [same, Slot.canOpen_ready (quiet_iff.mp calm).1 ready queue] at shut
      exact absurd shut nofun
  obtain ⟨u, runs, slots, uDeck, uCgd, flt, mem, shc⟩ := exec_orderWorks (exec_clipOpen e s tag id cont) due
    (decideClipOpen_carried (s := s.arrive e) notTripped good can) ran (keeps.stop.trans (State.acceptTag_stop ..))
    keeps.shc
  refine ⟨u, _, runs, s.clipOpened_begun e 0x62 tag x id g, ?_, ?_, ?_, ?_, ?_, shc, ?_, ?_⟩
  · rw [slots, ownT, slot]
  · rw [slots, otherT, slot]
  · rw [uCgd, guard, cgd]
  · rw [uDeck, relayId, deck]
  · rw [uDeck, order]
    unfold State.newOrder
    rw [start]
  · exact flt.trans (keeps.flt.trans (State.acceptTag_flt ..))
  · exact mem.trans (keeps.mem.trans (State.acceptTag_mem ..))

/-- CLIP_OPEN in SIMUL carried out. -/
theorem exec_clipOpen_both (due : dispatches s .required 0x62 tag (p4 id ++ p4 cont) = true)
    (notTripped : s.cgd.st ≠ .tripped) (good : ¬ s.badIds id cont) (closed : s.clipOpen = false)
    (mode : s.deck.mode = .simul) (readyA : s.slotA.st = .ready)
    (readyB : s.slotB.st = .ready) (noCurrentA : s.slotA.current = none) (noCurrentB : s.slotB.current = none)
    (queueA : s.slotA.queue = [g]) (queueB : s.slotB.queue = [h]) (holdsA : 64 ≤ g.count) (holdsB : 64 ≤ h.count)
    (calm : quiet s = true) (index : s.sta.index = []) :
    ∃ t a b, exec (.clipOpen e tag id cont) s = .next t ∧ a.BegunAt s id g.start ∧ b.BegunAt s id h.start ∧
      t.slotA = s.slotA.opened a tag.toNat ∧ t.slotB = s.slotB.opened b tag.toNat ∧
      t.cgd.st = (if s.cgd.st = .armed then .watching else s.cgd.st) ∧
      t.deck.openOrder =
        some (((s.newOrder tag.toNat id true true).placedAt .a g.start).placedAt .b h.start) ∧
      t.shc = (((s.arrive e).acceptTag 0x62 tag).finishEntry .accepted).shc ∧ t.flt = s.flt ∧
      t.mem = Memory.apply s.mem e.writes := by
  let p : State := (s.arrive e).acceptTag 0x62 tag
  have slotA : p.slotA = s.slotA := State.acceptTag_slotA ..
  have slotB : p.slotB = s.slotB := State.acceptTag_slotB ..
  have deck : p.deck = s.deck := State.acceptTag_deck ..
  have cgd : p.cgd = s.cgd := State.acceptTag_cgd ..
  have sta : p.sta = s.sta := State.acceptTag_sta ..
  have start : p.startFrame = s.startFrame := s.startFrame_accepted e 0x62 tag
  obtain ⟨t, ran, keeps, ownA, ownB, guard, order⟩ := State.openOrdered_both (s := p) (g := g) (h := h)
    (by rw [deck]; exact mode) (by rw [slotA]; exact readyA) (by rw [slotB]; exact readyB)
    (by rw [slotA]; exact noCurrentA) (by rw [slotB]; exact noCurrentB) (by rw [slotA]; exact queueA)
    (by rw [slotB]; exact queueB) holdsA holdsB (quiet_accepted calm e 0x62 tag) (by rw [sta]; exact index) tag.toNat id cont
  obtain ⟨idleA, idleB, -, -⟩ := quiet_parts calm
  have can : ¬ s.cannotOpen := by
    rintro (opened | ⟨y, -, shut⟩)
    · exact absurd opened (by simp [closed])
    · cases y
      · exact absurd ((Slot.canOpen_ready idleA readyA queueA).symm.trans shut) nofun
      · exact absurd ((Slot.canOpen_ready idleB readyB queueB).symm.trans shut) nofun
  obtain ⟨u, runs, slots, uDeck, uCgd, flt, mem, shc⟩ := exec_orderWorks (exec_clipOpen e s tag id cont) due
    (decideClipOpen_carried (s := s.arrive e) notTripped good can) ran (keeps.stop.trans (State.acceptTag_stop ..))
    keeps.shc
  refine ⟨u, _, _, runs, s.clipOpened_begun e 0x62 tag .a id g, s.clipOpened_begun e 0x62 tag .b id h, ?_, ?_, ?_, ?_, shc,
    ?_, ?_⟩
  · exact (slots .a).trans (by rw [← slotA]; exact ownA)
  · exact (slots .b).trans (by rw [← slotB]; exact ownB)
  · rw [uCgd, guard, cgd]
  · rw [uDeck, order]
    unfold State.newOrder
    rw [start]
  · exact flt.trans (keeps.flt.trans (State.acceptTag_flt ..))
  · exact mem.trans (keeps.mem.trans (State.acceptTag_mem ..))

/-! ## CLIP_CLOSE (R157) -/

theorem exec_clipClose (e : Env) (s : State) (tag : Byte) : exec (.clipClose e tag) s =
    .next ((s.arrive e).takeOrder .required 0x63 tag [] (decideClipClose tag)) := rfl

theorem decideClipClose_refused (a : s.slotA.st ≠ .recording) (b : s.slotB.st ≠ .recording) :
    decideClipClose tag s = .refuse .refusedState := if_neg (by simp [State.anyRecording, a, b])

theorem decideClipClose_carried (recording : (s.slot x).st = .recording) :
    decideClipClose tag s = .carry false fun s => s.closeAll tag.toNat := by
  refine if_pos ?_
  cases x
  · exact Bool.or_eq_true _ _ ▸ .inl (beq_iff_eq.mpr recording)
  · exact Bool.or_eq_true _ _ ▸ .inr (beq_iff_eq.mpr recording)

/-- CLIP_CLOSE carried out for one slot RECORDING behind a command in flight. -/
theorem exec_clipClose_one (due : dispatches s .required 0x63 tag [] = true) (recording : (s.slot x).st = .recording)
    (clip : (s.slot x).clip = some c) (busy : (s.slot x).command ≠ none) (placed : c.openPlaced = true)
    (notClosed : c.closePlaced = false) {r : IndexRec} (newest : s.sta.index.getLast? = some r)
    (missing : ∀ k ∈ s.sta.index, k.frame ≠ c.next) (idle : (s.slot (otherSlot x)).idle = true)
    (shut : (s.slot (otherSlot x)).clipOpen = false) :
    ∃ t b, exec (.clipClose e tag) s = .next t ∧
      t.slot x = { ((s.slot x).closeTold c r.frame tag.toNat).placesClose x (c.closes r.frame) with waiting := b } ∧
      t.deck.closeOrder = some { tag := tag.toNat, waitA := x == .a, waitB := x == .b, framesA := 0, framesB := 0
                                 endPoint := r.frame } ∧
      t.shc = (((s.arrive e).acceptTag 0x63 tag).finishEntry .accepted).shc ∧
      t.slot (otherSlot x) = s.slot (otherSlot x) ∧ t.flt = s.flt ∧ t.cgd = s.cgd ∧
      t.mem = Memory.apply s.mem e.writes := by
  let p : State := (s.arrive e).acceptTag 0x63 tag
  have slot (y : SlotId) : p.slot y = s.slot y := (State.acceptTag_slot ..).trans (State.arrive_slot ..)
  have sta : p.sta = s.sta := State.acceptTag_sta ..
  let w : Slot := ((s.slot x).closeTold c r.frame tag.toNat).placesClose x (c.closes r.frame)
  let q : State := (p.ordersClose tag.toNat r.frame (x == .a) (x == .b)).setSlot x w
  have ran : p.closeAll tag.toNat = (q.noteWaiting x).release := by
    have works := State.closeAll_one (s := p) (x := x) (c := c) (by rw [slot]; exact recording) (by rw [slot]; exact clip)
      placed notClosed (by rw [sta]; exact newest) (by rw [sta]; exact missing) (by rw [slot]; exact busy)
      (by rw [slot]; exact idle) (by rw [slot]; exact shut) tag.toNat
    rw [slot] at works
    exact works
  have own : (q.noteWaiting x).slot x = { w with waiting := w.behind } := by
    rw [State.slot_noteWaiting, State.slot_setSlot]
  have other : (q.noteWaiting x).slot (otherSlot x) = s.slot (otherSlot x) := by
    rw [State.slot_noteWaiting_other, State.slot_setSlot_other, ← slot]
    cases x <;> rfl
  have stop : (q.noteWaiting x).stop = s.stop :=
    (State.updSlot_stop ..).trans ((State.setSlot_stop ..).trans (State.acceptTag_stop ..))
  have shc : (q.noteWaiting x).shc = p.shc := (State.updSlot_shc ..).trans (State.setSlot_shc ..)
  obtain ⟨u, runs, slots, uDeck, uCgd, flt, mem, uShc⟩ := exec_orderWorks (exec_clipClose e s tag) due
    (decideClipClose_carried (s := s.arrive e) (x := x) (by rw [State.arrive_slot]; exact recording)) ran stop shc
  refine ⟨u, w.behind, runs, (slots x).trans own, ?_, uShc, (slots _).trans other, flt.trans ?_, uCgd.trans ?_, mem.trans ?_⟩
  · refine (congrArg Deck.closeOrder (uDeck.trans (State.updSlot_deck ..))).trans ?_
    rw [State.setSlot_deck]
    rfl
  · exact (State.updSlot_flt ..).trans ((State.setSlot_flt ..).trans (State.acceptTag_flt ..))
  · exact (State.updSlot_cgd ..).trans ((State.setSlot_cgd ..).trans (State.acceptTag_cgd ..))
  · exact (State.updSlot_mem ..).trans ((State.setSlot_mem ..).trans (State.acceptTag_mem ..))

/-! ## The end of the room (R151, R152, R155, R156) -/

/-- The writer pauses before a group: EXTENT_STARVED is logged where it had not paused before (R152). -/
theorem State.pauseWriter_eq (clip : (s.slot x).clip = some c) (room : Room) : s.pauseWriter x c k room =
    (let p := s.setSlot x { s.slot x with clip := some { c with paused := true } }
    if c.retry then p else p.fault .extentStarved (slotSource x) k (BitVec.ofNat 32 room.bytes)) := by
  unfold State.pauseWriter
  rw [State.updClip_eq clip]
  rfl

/-- The writer's pause and its closes, where a clip has come to the end of its room. -/
theorem State.WriterNeeds.full (h : s.WriterNeeds x c k need) (whole : s.flt.kinds.length = 26)
    (direct : s.shc.job = none) {room : Room} (here : (s.slot x).heldRoom c = room) (short : room.bytes < need)
    (bounded : room.bound ≠ none) :
    ∃ t, s.writerStep x = some t ∧ (room.limits need = true → logged s t .clipLimit (slotSource x) k 64 0) ∧
      (room.limits need = false → t.flt.entry .clipLimit = s.flt.entry .clipLimit) ∧
      (s.deck.mode ≠ .relay → t.slot x = (s.slot x).closesFull c k room ∧
        t.slot (otherSlot x) = s.slot (otherSlot x) ∧ t.deck = s.deck ∧ (room.limits need = false → t.flt = s.flt)) ∧
      (s.deck.mode = .relay → s.canContinue (otherSlot x) = true →
        t.slot x = (s.slot x).closesFull { c with relayContinued := true, nextId := s.deck.relayId } k room ∧
        t.deck = { s.deck with relayId := nextRelayId s.deck.relayId } ∧
        (∃ e q, t.slot (otherSlot x) = (s.slot (otherSlot x)).begins
          (Clip.begin s.deck.relayId c.id true k s.frame s.ftu.nextFormat.rate e) e q 0) ∧
        (room.limits need = false → t.flt = s.flt)) ∧
      (s.deck.mode = .relay → ¬ s.canContinue (otherSlot x) = true →
        t.slot x = { (s.slot x).closesFull c k room with openTag := 0 } ∧
        t.slot (otherSlot x) = s.slot (otherSlot x) ∧ t.deck.relayId = s.deck.relayId ∧
        logged s t .relayFailed (slotSource x) (BitVec.ofNat 32 (s.slot (otherSlot x)).st.code) k (s.slot x).openTag ∧
        (s.inFlight (s.slot x).openTag = true → t.tagRec (s.slot x).openTag = s.ended (s.slot x).openTag
          (if s.flt.stands .relayFailed then .done else .held) .relayFailed 0 0 0)) := by
  have step : s.writerStep x = some (s.closeFull x c k need room) := by
    rw [h.step (here ▸ short), here]
    exact congrArg some (if_pos (Option.isSome_iff_ne_none.mpr bounded))
  have same (f : Flt) : f.SameBut f .relayFailed := fun _ _ => ⟨rfl, rfl⟩
  have unlimited (flt : (s.closeFull x c k need room).flt = (s.logsLimit x k (room.limits need)).flt)
      (no : room.limits need = false) : (s.closeFull x c k need room).flt = s.flt := by
    rw [flt, no]
    rfl
  have limit (others : (s.logsLimit x k (room.limits need)).flt.SameBut (s.closeFull x c k need room).flt .relayFailed) :=
    State.closeFull_limit whole others
  refine ⟨_, step, ?_⟩
  by_cases mode : s.deck.mode = .relay
  · by_cases can : s.canContinue (otherSlot x) = true
    · obtain ⟨own, deck, other, flt⟩ := State.closeFull_relays (need := need) (room := room) h.clip h.notPaused mode can
      obtain ⟨yes, no⟩ := limit (by rw [flt]; exact same _)
      exact ⟨yes, no, fun stays => absurd mode stays, fun _ _ => ⟨own, deck, other, unlimited flt⟩,
        fun _ cannot => absurd can cannot⟩
    · obtain ⟨own, other, relayId, logs, ended, others⟩ :=
        State.closeFull_fails (need := need) (room := room) whole direct h.clip h.notPaused mode can
      obtain ⟨yes, no⟩ := limit others
      exact ⟨yes, no, fun stays => absurd mode stays, fun _ goes => absurd goes can,
        fun _ _ => ⟨own, other, relayId, logs, ended⟩⟩
  · obtain ⟨own, other, deck, flt⟩ := State.closeFull_stops (k := k) (need := need) (room := room) h.clip h.notPaused mode
    obtain ⟨yes, no⟩ := limit (by rw [flt]; exact same _)
    exact ⟨yes, no, fun _ => ⟨own, other, deck, unlimited flt⟩, fun relay => absurd relay mode,
      fun relay => absurd relay mode⟩

end

/-- Settles O53: the clip opens, comes to the end of its room, and closes. -/
theorem clipOpenedAndClosed : Obligations.ClipOpenedAndClosed := by
  refine ⟨fun e s tag id cont due => ?opens,
    fun s x c k need recording clip notClosed notPaused noEnd comes whole direct => ?runsOut, fun e s tag due => ?closes⟩
  case opens =>
    intro u badIds x
    have order := exec_clipOpen e s tag id cont
    have refused {r : Result} (refuses : decideClipOpen tag id cont (s.arrive e) = .refuse r) :
        exec (.clipOpen e tag id cont) s = .next (u.finishEntry r) := exec_orderRefused order due refuses
    refine ⟨fun tripped => refused (decideClipOpen_tripped (s := s.arrive e) tripped),
      fun notTripped bad => refused (decideClipOpen_badIds (s := s.arrive e) notTripped bad),
      fun notTripped good cannot => refused (decideClipOpen_state (s := s.arrive e) notTripped good ?cannot),
      fun notTripped good mode shut => refused (decideClipOpen_state (s := s.arrive e) notTripped good ?shut),
      fun g h notTripped good closed mode readyA readyB noCurrentA noCurrentB queueA queueB holdsA holdsB calm index =>
        ?both,
      fun g notTripped good closed mode ready noCurrent queue holds calm index => ?one⟩
    case cannot =>
      refine cannot.imp_right fun shut => ⟨x, s.deck.needs_own, ?_⟩
      rw [State.arrive_slot]
      exact shut
    case shut =>
      obtain shut | shut := shut
      · exact .inr ⟨.a, Deck.needs_simul mode _, shut⟩
      · exact .inr ⟨.b, Deck.needs_simul mode _, shut⟩
    case both =>
      intro begun
      obtain ⟨t, a, b, runs, begunA, begunB, slotA, slotB, guard, order, rest⟩ := exec_clipOpen_both (e := e) due
        notTripped good closed mode readyA readyB noCurrentA noCurrentB queueA queueB holdsA holdsB calm index
      refine ⟨t, a, b, runs, ?_⟩
      rw [slotA, slotB]
      exact ⟨rfl, rfl, rfl, rfl, begunA, begunB, rfl, rfl, rfl, rfl, guard, order, rest⟩
    case one =>
      obtain ⟨t, c, runs, begun, own, other, guard, relayId, order, shc, flt, mem⟩ := exec_clipOpen_one (e := e) due
        notTripped good closed rfl mode ready noCurrent queue holds calm index
      obtain ⟨id', prev, continuation, first, openFrame, placed, length, sector, sent, notClosed, noEnd, groups⟩ := begun
      refine ⟨t, c, runs, ?_⟩
      rw [own]
      refine ⟨rfl, rfl, rfl, rfl, rfl, id', prev, continuation, first, openFrame, placed, length, sector, sent, notClosed,
        noEnd, groups, guard, order.trans (congrArg some (s.newOrder_placedAt tag.toNat id x g.start)), relayId, shc, other,
        flt, mem⟩
  case runsOut =>
    intro v room short w source closed limited goesOn
    have needs : s.WriterNeeds x c k need := ⟨recording, clip, notClosed, notPaused, noEnd, comes⟩
    have from_ : source = slotSource x := by cases x <;> rfl
    have isLimited : room.limits need = true ↔ limited := Room.limits_iff
    have unlimited (not : ¬limited) : room.limits need = false :=
      Bool.eq_false_iff.mpr fun yes => not (isLimited.mp yes)
    have can : s.canContinue (otherSlot x) = true ↔ goesOn := State.canContinue_iff
    refine ⟨fun unbounded => ?pauses, fun bounded => ?shuts⟩
    case pauses =>
      intro p
      rw [needs.step short, from_, State.pauseWriter_eq clip]
      exact congrArg some (if_neg (by rw [show ((s.slot x).heldRoom c).bound = none from unbounded]; exact nofun))
    case shuts =>
      obtain ⟨t, step, yes, no, stops, relays, fails⟩ := needs.full whole direct rfl short bounded
      rw [from_]
      refine ⟨t, step, fun isLim => yes (isLimited.mpr isLim), fun not => no (unlimited not), fun mode => ?stops,
        fun mode goes => ?relays, fun mode not => ?fails⟩
      case stops =>
        obtain ⟨own, other, deck, flt⟩ := stops mode
        exact ⟨own, other, deck, fun not => flt (unlimited not)⟩
      case relays =>
        obtain ⟨own, deck, ⟨e, q, other⟩, flt⟩ := relays mode (can.mpr goes)
        rw [other]
        exact ⟨own, deck, rfl, rfl, fun not => flt (unlimited not), _, rfl, rfl, rfl, rfl, rfl, rfl, rfl, rfl, rfl⟩
      case fails => exact fails mode fun goes => not (can.mp goes)
  case closes =>
    refine ⟨fun a b => exec_orderRefused (exec_clipClose e s tag) due (decideClipClose_refused (s := s.arrive e) a b),
      fun x c r recording clip busy placed notClosed newest missing idle shut _ => ?_⟩
    obtain ⟨t, b, runs, own, order, shc, other, flt, cgd, mem⟩ := exec_clipClose_one (e := e) due recording clip busy placed
      notClosed newest missing idle shut
    obtain ⟨st, command, closeTag, d, dClip, dClosed, dEnd, whole, longer, counts, sent, id⟩ :=
      ((s.slot x).closeTold c r.frame tag.toNat).placesClose_facts x (c.closes r.frame)
    refine ⟨t, d, runs, ?_⟩
    rw [own]
    exact ⟨st, dClip, closeTag, command, dEnd, dClosed, whole, longer, counts, sent, id, order, shc, other, flt, cgd, mem⟩

end Sys2Proof.Machine
end
